-- ==== Sys2Proof/Word.lean ====
section
/-! DEFINITION. The words of the module: bytes, 16-, 32- and 64-bit words (R4), vector lanes and module addresses (R298). -/

namespace Sys2Proof

/-- One byte of any memory (R4). -/
abbrev Byte := BitVec 8
/-- A status code (R11). -/
abbrev Status := BitVec 16
/-- A register of BAR0 and a vector lane (R6, R77). -/
abbrev W32 := BitVec 32
/-- A scalar register (R77). -/
abbrev W64 := BitVec 64
/-- A vector register: 256 lanes of 32 bits (R77). -/
abbrev VReg := Vector W32 256
/-- A predicate register: one bit a lane (R77). -/
abbrev PReg := BitVec 256
/-- A tile descriptor or an extension: 64 bytes, byte 0 lowest (R87, R89). -/
abbrev Desc := BitVec 512
/-- A billet (R58, R60). -/
abbrev Billet := BitVec 192
/-- A SHA3-256 digest, byte 0 lowest (R383, R401). -/
abbrev Digest := BitVec 256

/-- A decoded or captured 4:2:0 picture (R410): sample planes Y, Cb, Cr in raster order. -/
structure Picture where
  width : Nat
  height : Nat
  depth : Nat
  y : List Nat
  cb : List Nat
  cr : List Nat
  deriving DecidableEq, Repr

end Sys2Proof
end

