-- ==== Sys2Proof/Syntax.lean ====
section
/-! DEFINITION. The commands of the model: one constructor of `Instr` for each row of spec/opcode_table.json, with the operands the row's rule gives it. -/

namespace Sys2Proof

/-- The four slots of a bundle (R117). -/
inductive SlotId where
  | c | m | v | d
  deriving DecidableEq, Repr

/-- Where an instruction issues: its core, its guard (R118, R120), and whether it is the last slot presented of its bundle (log 1). -/
structure Issue where
  /-- Global core id (R3). -/
  core : Fin 512
  /-- Guard predicate register. -/
  gp : Fin 8
  /-- Guard negate. -/
  gneg : Bool
  /-- The bundle issues with this slot (R124). -/
  close : Bool
  /-- The slot's word is a reserved encoding: a reserved opcode or NOP_KIND, or a non-zero reserved bit (R119, R123; log 50). -/
  reserved : Bool
  deriving DecidableEq, Repr

/-- The layer execution that a reheat branch decides (R199 to R203), known from the schedule image (log 14). -/
structure ReheatPoint where
  layer : BitVec 16
  exec : BitVec 32
  deriving DecidableEq, Repr

/-- Fields of BRND (R136). -/
structure BrndOp where
  slot : BitVec 3
  tdO : Fin 16
  conv : BitVec 4
  rel : Bool
  hmerge : Bool
  epiB : Bool
  epiA : Bool
  epiF : BitVec 4
  epiS : Bool
  rb : Fin 32
  rsc : Fin 32
  deriving DecidableEq, Repr

/-- Fields of SPARK (R136). -/
structure SparkOp where
  tdA : Fin 16
  tdW : Fin 16
  tdD : Fin 16
  asrc : Bool
  rs : Fin 32
  slotLo : BitVec 3
  rd : Fin 32
  rt : Fin 32
  pd : Fin 8
  deriving DecidableEq, Repr

/-- Fields of ATTN (R136). -/
structure AttnOp where
  tdQ : Fin 16
  tdK : Fin 16
  tdV : Fin 16
  rs : Fin 32
  rm : Fin 32
  first : Bool
  last : Bool
  xmax : Bool
  tdO : Fin 16
  deriving DecidableEq, Repr

/-- Fields of NORM (R136). -/
structure NormOp where
  kind : BitVec 2
  tdX : Fin 16
  tdY : Fin 16
  vs : Fin 32
  rs : Fin 32
  conv : BitVec 4
  rg : Fin 32
  deriving DecidableEq, Repr

/-- Fields of VCVT (layout VV of the V slot). -/
structure VcvtOp where
  vd : Fin 32
  va : Fin 32
  sf : BitVec 4
  df : BitVec 4
  conv : BitVec 4
  rt : Fin 32
  ri : Fin 32
  deriving DecidableEq, Repr

/-- A register of a core that the scoreboard covers (R127). -/
inductive Reg where
  | s (n : Fin 32) | v (n : Fin 32) | p (n : Fin 8) | td (n : Fin 16)
  deriving DecidableEq, Repr

/-- A billet run or an FP32 run: the header of R71 and its elements (an FP32 element in bits 31:0). -/
structure BilletRun where
  kind : Byte
  null : Bool
  anchor : BitVec 16
  ta : W32
  tb : W32
  row : W32
  col : W32
  first : BitVec 16
  epoch : BitVec 16
  producer : BitVec 9
  elems : List Billet
  deriving DecidableEq, Repr

/-- A received fabric frame (R345, R346): the sending link (the source MAC's last octet), addressing, transport header, the sender's epoch (R98, log 17), payload, and what the receiver's checks of FCS, CRC-32C and GCM tag find (log 15). -/
structure Frame where
  srcLink : Fin 128
  dstMac : BitVec 48
  etherType : BitVec 16
  tagged : Bool
  fcsOk : Bool
  crcOk : Bool
  tagOk : Bool
  type : BitVec 4
  ver : BitVec 4
  vc : BitVec 3
  last : Bool
  srcMod : BitVec 16
  dstMod : BitVec 16
  psn : BitVec 32
  ackPsn : BitVec 32
  dstAddr : BitVec 48
  dstCore : BitVec 9
  dstSpace : BitVec 3
  tokenId : BitVec 6
  tokenCore : BitVec 9
  tv : Bool
  srcCore : BitVec 9
  msgId : BitVec 7
  jobTag : BitVec 16
  pktIndex : BitVec 16
  epoch : BitVec 16
  payload : List Byte
  deriving DecidableEq, Repr

/-- Who consumes an HBM read under replay (R306, R307, R432). -/
inductive HbmReader where
  | core (g : Fin 512) | media (e : Fin 2) (ctx : Fin 256) | host
  deriving DecidableEq, Repr

/-- An error report of a row (R308): corrected or uncorrectable, and whether the repair's read of the row meets a word ECC cannot correct (R309). -/
structure RowError where
  stack : Fin 32
  bank : Nat
  row : Nat
  addr : BitVec 48
  uncorrectable : Bool
  rowReadOk : Bool
  deriving DecidableEq, Repr

/-- What an in-service fence follows (R312). -/
inductive FenceCause where
  | lane | channel
  deriving DecidableEq, Repr

/-- What the host offers at link training (R441): protocol code as TY0_HP_LINK.PROTO, lanes, rate code. -/
structure HostOffer where
  proto : BitVec 4
  width : BitVec 5
  rate : BitVec 4
  deriving DecidableEq, Repr

/-- The slow inputs (R506), in GLB_PINS order. -/
inductive Pin where
  | pwrGood | resetN | hostPerstN | throttleN
  deriving DecidableEq, Repr

/-- How the host answers the reads that consuming a command makes (R446, R458): all complete, or the read of the submission entry or of the parameter block fails at the host tier. -/
inductive HostFate where
  | ok | queueFails | paramFails
  deriving DecidableEq, Repr

/-- What start-up finds (R514): dies present and trained. -/
structure TrainResult where
  tyPresent : BitVec 2
  vaultTrained : BitVec 8
  stackTrained : BitVec 32
  deriving DecidableEq, Repr

/-- The registers of a check slot (R497). -/
inductive ChkReg where
  | ctl | foldLo | foldHi | data8 | data16 | data32 | valLo | valHi | resultLo | resultHi | count
  deriving DecidableEq, Repr

/-- The streams a snoop port attaches to (R498). -/
inductive SnoopStream where
  | dmaQueue (g : Fin 512) (q : Fin 8)
  | service (t1 : Bool)
  | fabric (g : Fin 512) (tag : BitVec 16)
  deriving DecidableEq, Repr

/-- The commands: one constructor for each row of spec/opcode_table.json. -/
inductive Instr where
  /-- NOP (R119). A NOP in any slot issues and does nothing. -/
  | nop (i : Issue) (slot : SlotId)
  /-- ADD (R130). Scalar add of two registers modulo 2^64. -/
  | add (i : Issue) (rd ra rb : Fin 32)
  /-- SUB (R130). Scalar subtract of two registers modulo 2^64. -/
  | sub (i : Issue) (rd ra rb : Fin 32)
  /-- AND (R130). Scalar bitwise AND of two registers. -/
  | and (i : Issue) (rd ra rb : Fin 32)
  /-- OR (R130). Scalar bitwise OR of two registers. -/
  | or (i : Issue) (rd ra rb : Fin 32)
  /-- XOR (R130). Scalar bitwise XOR of two registers. -/
  | xor (i : Issue) (rd ra rb : Fin 32)
  /-- SHL (R130). Scalar left shift by the low 6 bits of rb. -/
  | shl (i : Issue) (rd ra rb : Fin 32)
  /-- SHR (R130). Scalar logical right shift by the low 6 bits of rb. -/
  | shr (i : Issue) (rd ra rb : Fin 32)
  /-- SRA (R130). Scalar arithmetic right shift by the low 6 bits of rb. -/
  | sra (i : Issue) (rd ra rb : Fin 32)
  /-- MUL (R130). Low 64 bits of the scalar product. -/
  | mul (i : Issue) (rd ra rb : Fin 32)
  /-- MULHU (R130). High 64 bits of the unsigned scalar product. -/
  | mulhu (i : Issue) (rd ra rb : Fin 32)
  /-- MIN (R130). Signed scalar minimum. -/
  | min (i : Issue) (rd ra rb : Fin 32)
  /-- MAX (R130). Signed scalar maximum. -/
  | max (i : Issue) (rd ra rb : Fin 32)
  /-- ADDI (R130). Scalar add of a sign-extended immediate. -/
  | addi (i : Issue) (rd ra : Fin 32) (imm : BitVec 32)
  /-- ANDI (R130). Scalar AND with a sign-extended immediate. -/
  | andi (i : Issue) (rd ra : Fin 32) (imm : BitVec 32)
  /-- ORI (R130). Scalar OR with a sign-extended immediate. -/
  | ori (i : Issue) (rd ra : Fin 32) (imm : BitVec 32)
  /-- XORI (R130). Scalar XOR with a sign-extended immediate. -/
  | xori (i : Issue) (rd ra : Fin 32) (imm : BitVec 32)
  /-- SHLI (R130). Scalar left shift by an immediate. -/
  | shli (i : Issue) (rd ra : Fin 32) (imm : BitVec 32)
  /-- SHRI (R130). Scalar logical right shift by an immediate. -/
  | shri (i : Issue) (rd ra : Fin 32) (imm : BitVec 32)
  /-- SRAI (R130). Scalar arithmetic right shift by an immediate. -/
  | srai (i : Issue) (rd ra : Fin 32) (imm : BitVec 32)
  /-- LUI (R130). Places an immediate in the upper 32 bits of a scalar register and keeps the lower 32 bits of ra. -/
  | lui (i : Issue) (rd ra : Fin 32) (imm : BitVec 32)
  /-- CMP (R131). Compares two scalar registers and sets a predicate to all ones or all zeros. -/
  | cmp (i : Issue) (pd : Fin 8) (cond : BitVec 4) (ra rb : Fin 32)
  /-- CMPI (R131). Compares a scalar register with an immediate and sets a predicate. -/
  | cmpi (i : Issue) (pd : Fin 8) (cond : BitVec 4) (ra : Fin 32) (imm : BitVec 32)
  /-- BR (R130). Branches to an immediate bundle target. -/
  | br (i : Issue) (target : BitVec 13) (rp : Option ReheatPoint)
  /-- BRR (R130). Branches to the bundle index held in a register. -/
  | brr (i : Issue) (ra : Fin 32)
  /-- LOOP (R130). Decrements a counter register and branches while it is non-zero. -/
  | loop (i : Issue) (rc : Fin 32) (target : BitVec 13)
  /-- CALL (R130). Saves the return index in s31 and branches. -/
  | call (i : Issue) (target : BitVec 13)
  /-- SLD (R132). Loads 8 B from the scratchpad into a scalar register. -/
  | sld (i : Issue) (rd ra : Fin 32) (imm : BitVec 32)
  /-- SST (R132). Stores a scalar register as 8 B to the scratchpad. -/
  | sst (i : Issue) (rd ra : Fin 32) (imm : BitVec 32)
  /-- SYSR (R133). Reads a numbered system value into a scalar register. -/
  | sysr (i : Issue) (rd : Fin 32) (imm : BitVec 32)
  /-- EMBER (R134). Evaluates the ember generator with the job seed. -/
  | ember (i : Issue) (rd ra rb : Fin 32) (dom : BitVec 8)
  /-- END (R135). Arrives at an epoch barrier and ends the core's part of the task when that barrier completes. -/
  | endCore (i : Issue) (num : BitVec 16)
  /-- MXA (R138). Multiplies tile windows block pair by block pair and folds each short accumulator into billets of open slots. -/
  | mxa (i : Issue) (tdA tdB tdD : Fin 16) (asrc : Bool) (rs : Fin 32)
  /-- FOLD (R142). Adds the slag-entry products of one operand into the slots of their groups. -/
  | fold (i : Issue) (tdA tdB tdD : Fin 16) (asrc : Bool) (rs : Fin 32) (side : Bool)
  /-- BRND (R143). Reads a slot's billets, applies the fused epilogue, converts them and writes output tiles. -/
  | brnd (i : Issue) (b : BrndOp)
  /-- SPARK (R146). Forms one group's wide product, compares it with the low slot and writes the error exponent and a predicate. -/
  | spark (i : Issue) (k : SparkOp)
  /-- ATTN (R147). Performs one online-softmax block step for 64 query rows over one key block. -/
  | attn (i : Issue) (a : AttnOp)
  /-- NORM_STAT (R149). Forms exact per-set sums and writes mean and reciprocal standard deviation lanes or a partial block. -/
  | normStat (i : Issue) (n : NormOp)
  /-- NORM_APPLY (R244). Normalises a window with mu, rstd, gamma and beta and writes it converted. -/
  | normApply (i : Issue) (n : NormOp)
  /-- M_INSTRUCTION_COMPLETE (R128). An M-slot instruction completes and releases its M-queue entry, so the next entry may start. -/
  | mInstructionComplete (g : Fin 512)
  /-- VADD (R151). Per-lane FP32 add. -/
  | vadd (i : Issue) (vd va vb : Fin 32)
  /-- VSUB (R151). Per-lane FP32 subtract. -/
  | vsub (i : Issue) (vd va vb : Fin 32)
  /-- VMUL (R151). Per-lane FP32 multiply. -/
  | vmul (i : Issue) (vd va vb : Fin 32)
  /-- VFMA (R151). Per-lane FP32 fused multiply-add rounded once. -/
  | vfma (i : Issue) (vd va vb vc : Fin 32)
  /-- VMIN (R151). Per-lane FP32 minimum. -/
  | vmin (i : Issue) (vd va vb : Fin 32)
  /-- VMAX (R151). Per-lane FP32 maximum. -/
  | vmax (i : Issue) (vd va vb : Fin 32)
  /-- VABS (R151). Clears the sign bit of each lane. -/
  | vabs (i : Issue) (vd va : Fin 32)
  /-- VNEG (R151). Inverts the sign bit of each lane. -/
  | vneg (i : Issue) (vd va : Fin 32)
  /-- VIADD (R151). Per-lane 32-bit integer add. -/
  | viadd (i : Issue) (vd va vb : Fin 32)
  /-- VISUB (R151). Per-lane 32-bit integer subtract. -/
  | visub (i : Issue) (vd va vb : Fin 32)
  /-- VAND (R151). Per-lane bitwise AND. -/
  | vand (i : Issue) (vd va vb : Fin 32)
  /-- VOR (R151). Per-lane bitwise OR. -/
  | vor (i : Issue) (vd va vb : Fin 32)
  /-- VXOR (R151). Per-lane bitwise XOR. -/
  | vxor (i : Issue) (vd va vb : Fin 32)
  /-- VSHL (R151). Per-lane left shift. -/
  | vshl (i : Issue) (vd va vb : Fin 32)
  /-- VSHR (R151). Per-lane logical right shift. -/
  | vshr (i : Issue) (vd va vb : Fin 32)
  /-- VSRA (R151). Per-lane arithmetic right shift. -/
  | vsra (i : Issue) (vd va vb : Fin 32)
  /-- VCMP (R152). Per-lane comparison into a predicate register. -/
  | vcmp (i : Issue) (pd : Fin 8) (cond : BitVec 4) (va vb : Fin 32)
  /-- PLOG (R152). Logical operation on two predicate registers. -/
  | plog (i : Issue) (pd pa pb : Fin 8) (fn : BitVec 2)
  /-- VBCAST (R151). Broadcasts a scalar's low 32 bits to the enabled lanes. -/
  | vbcast (i : Issue) (vd rs : Fin 32)
  /-- VINS (R151). Inserts a scalar's low 32 bits into one lane. -/
  | vins (i : Issue) (vd rs : Fin 32) (lane : Fin 256)
  /-- VEXT (R151). Extracts one lane into a scalar register. -/
  | vext (i : Issue) (rd va : Fin 32) (lane : Fin 256)
  /-- VRED (R153). Reduces all lanes to lane 0 by a fixed tree. -/
  | vred (i : Issue) (vd va : Fin 32) (op : BitVec 2)
  /-- VPERM (R153). Permutes lanes by index. -/
  | vperm (i : Issue) (vd va vb : Fin 32)
  /-- VCVT (R154). Converts lanes between formats, including block formats with scales. -/
  | vcvt (i : Issue) (c : VcvtOp)
  /-- SFN (R155). Evaluates a special function on each enabled lane. -/
  | sfn (i : Issue) (vd va : Fin 32) (fn : BitVec 4) (fmt : BitVec 2)
  /-- LDT (R157). Enqueues a streamed TILE transfer from a module-space window into the scratchpad. -/
  | ldt (i : Issue) (q : Fin 8) (td : Fin 16) (rs : Fin 32) (sig : Bool) (tok : Fin 64)
  /-- STT (R157). Enqueues a streamed transfer from the scratchpad to a window, converting format if needed. -/
  | stt (i : Issue) (q : Fin 8) (td : Fin 16) (rs : Fin 32) (sig : Bool) (tok : Fin 64) (conv sf : BitVec 4)
  /-- DMAQ (R158). Checks a DMA descriptor from the scratchpad and enqueues it on a queue. -/
  | dmaq (i : Issue) (q : Fin 8) (rs : Fin 32)
  /-- DQST (R158). Reads a queue's last status and resets it to OK. -/
  | dqst (i : Issue) (rd : Fin 32) (q : Fin 8)
  /-- TDL (R159). Loads and checks a tile descriptor from the scratchpad. -/
  | tdl (i : Issue) (td : Fin 16) (rs : Fin 32)
  /-- TDW (R159). Replaces one word of a tile descriptor and checks it. -/
  | tdw (i : Issue) (td : Fin 16) (word : Fin 16) (rs : Fin 32)
  /-- VLD (R160). Loads 1,024 B from the scratchpad into a vector register. -/
  | vld (i : Issue) (vd rs : Fin 32) (imm : BitVec 32)
  /-- VST (R160). Stores the guard-enabled lanes of a vector register to the scratchpad. -/
  | vst (i : Issue) (vd rs : Fin 32) (imm : BitVec 32)
  /-- SIGNAL (R161). Sends a token count to a core on this or another module, as a release. -/
  | signal (i : Issue) (rt : Fin 32) (tok : Fin 64) (cnt : BitVec 8)
  /-- WAIT (R96). Waits until a token counter reaches a count and subtracts it. -/
  | wait (i : Issue) (tok : Fin 64) (cnt : BitVec 8)
  /-- WCLAIM (R162). Claims items from a work counter of the partition. -/
  | wclaim (i : Issue) (rd : Fin 32) (pd : Fin 8) (hrt : Fin 8) (ctr : Fin 64) (inc : BitVec 16) (rs : Fin 32)
  /-- HBAR (R163). Arrives at the hearth barrier. -/
  | hbar (i : Issue) (num : BitVec 16)
  /-- MBAR (R163). Arrives at the module barrier of the partition. -/
  | mbar (i : Issue) (num : BitVec 16)
  /-- EBAR (R103). Arrives at the epoch barrier after queues drain and streams end. -/
  | ebar (i : Issue) (num : BitVec 16)
  /-- XSHIFT (R165). Starts a neighbour-shift collective described by a collective descriptor. -/
  | xshift (i : Issue) (rs : Fin 32) (red axis : BitVec 2) (dir sig : Bool) (tok : Fin 64)
  /-- XPERM (R165). Starts a permutation collective described by a collective descriptor. -/
  | xperm (i : Issue) (rs : Fin 32) (red : BitVec 2) (sig : Bool) (tok : Fin 64)
  /-- MSYNC (R164). Stalls until every earlier M-slot instruction has completed. -/
  | msync (i : Issue)
  /-- HBAR_COMPLETE (R102). The last task core of the hearth has arrived and the hearth barrier releases its participants. -/
  | hbarComplete (h : Fin 8)
  /-- MBAR_COMPLETE (R102). The last task core of the partition has arrived and the module barrier releases its participants. -/
  | mbarComplete (h : Fin 8)
  /-- EBAR_COMPLETE (R103). The epoch barrier completes, cores advance their epoch, clear old token counters and leave, or end the task. -/
  | ebarComplete (h : Fin 8)
  /-- TOKEN_SIGNAL_ARRIVE (R98). A token count arrives at a cell and goes to the current or the other counter by epoch. -/
  | tokenSignalArrive (n : Nat)
  /-- WAIT_TIMEOUT (R101). A WAIT not completed within HRT_WAIT_LIMIT ends the task. -/
  | waitTimeout (g : Fin 512)
  /-- WCLAIM_EXECUTE (R105). The work counter executes a claim atomically, grants items and checks the claim bitmap. -/
  | wclaimExecute (g : Fin 512) (h : Fin 8) (ctr : Fin 64)
  /-- WCLAIM_RESPONSE (R106). The claim response reaches the core, or on parity failure the logged result is requested again. -/
  | wclaimResponse (g : Fin 512) (h : Fin 8) (ctr : Fin 64) (parityOk : Bool)
  /-- BMAP_CLR (R116). A write of BMAP_CLR starts clearing the claim bitmap while claims to the counter stall. -/
  | bmapClr (h : Fin 8) (ctr : Fin 64) (v : BitVec 32)
  /-- BMAP_CLEAR_DONE (R116). The bitmap clear finishes, CLEARING drops and stalled claims proceed. -/
  | bmapClearDone (h : Fin 8) (ctr : Fin 64)
  /-- DMA_COPY (R93). A COPY transfer starts at its queue head and moves contiguous bytes. -/
  | dmaCopy (g : Fin 512) (q : Fin 8) (fail : Option Nat)
  /-- DMA_TILE (R547). A TILE transfer starts and copies a descriptor window record by record. -/
  | dmaTile (g : Fin 512) (q : Fin 8) (fail : Option Nat)
  /-- DMA_NARROW (R547). A NARROW transfer starts and gathers 32 B reads by an address list. -/
  | dmaNarrow (g : Fin 512) (q : Fin 8) (fail : Option Nat)
  /-- DMA_COMPLETE (R94). A DMA transfer's last byte is written and its completion token is signalled in enqueue order. -/
  | dmaComplete (g : Fin 512) (q : Fin 8)
  /-- BILLET_RUN_ARRIVE (R73). A billet run arrives in the combine stage and waits for its slot. -/
  | billetRunArrive (g : Fin 512) (r : BilletRun)
  /-- BILLET_RUN_COMBINE (R72). A waiting billet run is checked against its open slot and added exactly. -/
  | billetRunCombine (g : Fin 512) (n : Nat)
  /-- DRAW_GRANT (R518). The draw governor grants a waiting engine start once the budget admits it. -/
  | drawGrant (h : Fin 8)
  /-- KV_WALK_READ_DONE (R268). A page-table read for a walker miss returns and serves all merged requesters. -/
  | kvWalkReadDone (h : Fin 8) (table : BitVec 48) (k : Nat)
  /-- ATTN_FETCH_COMPLETE (R272). A paged ATTN step's key, value and attribute fetch completes and its matrix time begins. -/
  | attnFetchComplete (g : Fin 512)
  /-- TASK_STOPPED (R110). In-flight lines complete, every core of the partition reads STOPPED and the task is finished. -/
  | taskStopped (h : Fin 8)
  /-- JOB_START (R393). A partition that becomes IDLE starts its first queued job and the loader reads and checks the image. -/
  | jobStart (h : Fin 8) (fail : Option (BitVec 64))
  /-- CORES_START (R78). The loader finishes and the task's cores begin fetching from zeroed state. -/
  | coresStart (h : Fin 8)
  /-- START_BARRIER_COMPLETE (R394). A multi-module job's start barrier completes and its cores may start. -/
  | startBarrierComplete (h : Fin 8)
  /-- GANG_START_TIMEOUT (R394). The start barrier does not complete within GANG_LIMIT_S and the task ends. -/
  | gangStartTimeout (h : Fin 8)
  /-- QUEUE_WAIT_EXPIRED (R393). A queued job's wait reaches MAX_WAIT_MS and it leaves its queue. -/
  | queueWaitExpired (job : BitVec 32)
  /-- PARTITION_ZEROED (R478). Zeroing of a secure job's partition HBM completes and BAR2 access resumes. -/
  | partitionZeroed (h : Fin 8)
  /-- SLOWDOWN_WINDOW (R399). Each 100 ms window ends and GLB_PART_SLOWDOWN is updated. -/
  | slowdownWindow
  /-- CTX_OPEN (R454). Opens a Larcy context with its queues and version. -/
  | ctxOpen (n : Fin 4096) (x : HostFate)
  /-- CTX_CLOSE (R454). Closes a Larcy context after its in-progress command ends. -/
  | ctxClose (n : Fin 4096) (x : HostFate)
  /-- SUBMIT (R392). Admits a job to its partition queue or refuses it with a record. -/
  | submit (n : Fin 4096) (x : HostFate)
  /-- SUSPEND (R396). Requests that a job stop after the EBAR leaving a given epoch. -/
  | suspend (n : Fin 4096) (x : HostFate)
  /-- RESUME (R396). Releases a suspended job's cores into the next epoch. -/
  | resume (n : Fin 4096) (x : HostFate)
  /-- CANCEL (R396). Ends a job at its next EBAR or at once, or removes it from its queue. -/
  | cancel (n : Fin 4096) (x : HostFate)
  /-- QUERY (R457). Returns a job's state and writes its current or kept record. -/
  | query (n : Fin 4096) (x : HostFate)
  /-- PARTITION_STOP (R390). Moves a partition toward STOPPED. -/
  | partitionStop (n : Fin 4096) (x : HostFate)
  /-- PARTITION_SET (R390). Applies new partition geometry, spread modes and reservations to stopped partitions. -/
  | partitionSet (n : Fin 4096) (x : HostFate)
  /-- PARTITION_START (R390). Moves a stopped partition to IDLE or OUT_OF_SERVICE. -/
  | partitionStart (n : Fin 4096) (x : HostFate)
  /-- VAULT_INSTALL (R483). Checks a manifest and starts writing its regions into the vault. -/
  | vaultInstall (n : Fin 4096) (x : HostFate)
  /-- VAULT_INSTALL_DONE (R484). An installation ends, recording the manifest or leaving none valid. -/
  | vaultInstallDone (hostOk : Bool)
  /-- ATTEST (R473). Writes a signed attestation report with the given nonce. -/
  | attest (n : Fin 4096) (x : HostFate)
  /-- STREAM_OPEN (R416). Opens a media stream context from its descriptor on an engine. -/
  | streamOpen (n : Fin 4096) (x : HostFate)
  /-- STREAM_CLOSE (R431). Closes a media context, draining its input or cancelling at the next unit. -/
  | streamClose (n : Fin 4096) (x : HostFate)
  /-- COMPLETION_POST (R449). A command's completion entry is written once the completion queue has room. -/
  | completionPost (n : Fin 4096) (ok : Bool)
  /-- EVENT_POST (R449). A JOB_END or STREAM_END event entry is written to the issuing context's completion queue. -/
  | eventPost (n : Fin 4096) (ok : Bool)
  /-- CONTEXT_SWAP (R451). The command engine evicts a resident context and loads the head waiting context. -/
  | contextSwap
  /-- SQ_TAIL_DOORBELL (R447). A write of a context's submission tail makes new commands available. -/
  | sqTailDoorbell (n : Fin 4096) (v : BitVec 32)
  /-- CQ_HEAD_DOORBELL (R447). A write of a context's completion head frees completion queue room. -/
  | cqHeadDoorbell (n : Fin 4096) (v : BitVec 32)
  /-- CONTEXT0_OPEN (R460). A write moving ENABLE from 0 to 1 opens context 0 at a supported version or sets VER_FAIL. -/
  | context0Open (v : BitVec 32)
  /-- CONTEXT0_CLOSE (R459). A write of ENABLE = 0 closes context 0. -/
  | context0Close (v : BitVec 32)
  /-- MEDIA_UNIT_START (R422). An engine picks the next ready context at a unit boundary by class and round-robin. -/
  | mediaUnitStart (e : Fin 2)
  /-- MEDIA_UNIT_COMPLETE (R422). A work unit finishes, writing slots, status records, ring records and pointers as due. -/
  | mediaUnitComplete (e : Fin 2)
  /-- WRITE_RECEIVE (R347). A received WRITE packet is checked and its payload written. -/
  | writeReceive (l : Fin 128) (f : Frame)
  /-- REDUCE_RECEIVE (R363). A received REDUCE packet's run is reduced into billets or FP32. -/
  | reduceReceive (l : Fin 128) (f : Frame)
  /-- SIGNAL_PACKET_RECEIVE (R347). A received SIGNAL packet adds its count to a token. -/
  | signalPacketReceive (l : Fin 128) (f : Frame)
  /-- ACK_RECEIVE (R354). A received ACK acknowledges every packet below its counter. -/
  | ackReceive (l : Fin 128) (f : Frame)
  /-- NAK_RECEIVE (R354). A received NAK triggers a resend or stops resending by its reason. -/
  | nakReceive (l : Fin 128) (f : Frame)
  /-- RTS_RECEIVE (R362). A received RTS is matched, its signature compared and a CTS answered. -/
  | rtsReceive (l : Fin 128) (f : Frame)
  /-- CTS_RECEIVE (R362). A received CTS lets the sender send its collective data. -/
  | ctsReceive (l : Fin 128) (f : Frame)
  /-- DELAY_RECEIVE (R366). A received delay notice restarts named collective timers and WAIT limits. -/
  | delayReceive (l : Fin 128) (f : Frame)
  /-- BARRIER_RECEIVE (R370). A received BARRIER message advances an epoch-barrier round. -/
  | barrierReceive (l : Fin 128) (f : Frame)
  /-- END_NOTICE_RECEIVE (R368). A received END notice ends the local task with the origin's status. -/
  | endNoticeReceive (l : Fin 128) (f : Frame)
  /-- HELLO (R479). A received HELLO starts key agreement at the responder. -/
  | hello (l : Fin 128) (f : Frame)
  /-- ACCEPT (R479). A received ACCEPT is verified by the initiator, which answers FINISH. -/
  | accept (l : Fin 128) (f : Frame)
  /-- FINISH (R479). A received FINISH completes agreement of the module-pair secret. -/
  | finish (l : Fin 128) (f : Frame)
  /-- PAIR (R480). A received PAIR nonce lets a link pair derive its direction keys. -/
  | pair (l : Fin 128) (f : Frame)
  /-- KEY_AGREEMENT_TIMEOUT (R479). A key agreement step not arriving within 5 ms ends the agreement. -/
  | keyAgreementTimeout (peer : BitVec 16)
  /-- ACK_TIMER (R354). 1 µs after the oldest unacknowledged arrival the receiver sends an ACK. -/
  | ackTimer (l : Fin 128) (peer : BitVec 16) (far : Fin 8)
  /-- RESEND_TIMER (R354). 16 µs without acknowledgement progress resends the oldest packet. -/
  | resendTimer (l : Fin 128) (peer : BitVec 16) (far : Fin 8)
  /-- BUSY_RESEND_TIMER (R359). 2 µs after a NAK BUSY the sender resends the packet. -/
  | busyResendTimer (l : Fin 128) (peer : BitVec 16) (far : Fin 8)
  /-- LINK_PAIR_SETUP (R353). A link pair setup completes with fresh keys and counters at 0. -/
  | linkPairSetup (l : Fin 128) (peer : BitVec 16) (far : Fin 8)
  /-- COLLECTIVE_COMPLETE (R363). A member's sends are acknowledged and receives applied, and its token is signalled. -/
  | collectiveComplete (g : Fin 512) (group : BitVec 32)
  /-- COLL_TIMEOUT (R365). A collective's timer expires and the task ends. -/
  | collTimeout (g : Fin 512) (group : BitVec 32)
  /-- LINK_UP (R340). A training link holds alignment and FEC lock for 10 ms and comes up. -/
  | linkUp (l : Fin 128)
  /-- LINK_MODE_TIMEOUT (R340). A mode fails to train within 250 ms and the next mode is tried. -/
  | linkModeTimeout (l : Fin 128)
  /-- LINK_TRAIN_RETRY (R340). Training starts again 1 s after no mode succeeded. -/
  | linkTrainRetry (l : Fin 128)
  /-- LINK_DOWN_DETECT (R340). Alignment loss or uncorrectable codewords bring a link down. -/
  | linkDownDetect (l : Fin 128)
  /-- STACK_TEMP_SAMPLE (R315). A stack temperature sample sets the bellows level. -/
  | stackTempSample (n : Fin 32) (t : Nat)
  /-- BELLOWS_NOTICE_PERIOD (R318). Every PERIOD_MS while a stack is at 50 % or below, the hearth restarts limits and sends delay notices. -/
  | bellowsNoticePeriod (h : Fin 8)
  /-- HBM_READ_REPLAY (R306). A failed HBM read is replayed, or after two replays ends the consuming task. -/
  | hbmReadReplay (r : HbmReader) (a : BitVec 48) (ok : Bool)
  /-- ROW_REPAIR (R308). A failing row is soft-repaired with its bank held up to 3 µs. -/
  | rowRepair (e : RowError)
  /-- STACK_FENCE (R313). A failed lane or channel fences the stack's hearth and ends its partition's task. -/
  | stackFence (n : Fin 32) (cause : FenceCause)
  /-- HOST_ACCESS_TIMEOUT (R328). A host access without completion for 10 ms fails at the host tier. -/
  | hostAccessTimeout (g : Fin 512) (q : Fin 8)
  /-- HOST_HDM_READ (R329). A host read through BAR2 returns HBM data, 0 or poison. -/
  | hostHdmRead (x : BitVec 64) (len : Nat)
  /-- HOST_HDM_WRITE (R329). A host write through BAR2 is stored in HBM or discarded. -/
  | hostHdmWrite (x : BitVec 64) (bs : List (BitVec 8))
  /-- HOST_SNOOP (R442). A CXL host snoop is answered as a miss without data. -/
  | hostSnoop (a : BitVec 64)
  /-- HP0_LINK_UP (R441). HP0 finishes training and negotiates protocol, width and rate. -/
  | hp0LinkUp (o : HostOffer)
  /-- HP0_DOWN (R444). HP0 goes down, closing every Larcy context. -/
  | hp0Down
  /-- SLOW_INPUT_ACCEPT (R508). A slow input's filter accepts a new level held for 1 µs. -/
  | slowInputAccept (p : Pin) (level : Bool)
  /-- FILTER_HOLDOFF_END (R508). A filter's 100 µs hold-off ends and it takes the level held over the last 1 µs. -/
  | filterHoldoffEnd (p : Pin) (held : Option Bool)
  /-- RACING_END (R509). A racing input held at one level for 10 ms takes that level. -/
  | racingEnd (p : Pin) (level : Bool)
  /-- STARTUP_BEGIN (R514). At t0 start-up locks PLLs, runs the boot ROM and trains the dies. -/
  | startupBegin
  /-- READY_ASSERT (R514). Start-up completes, HBM is zeroed, READY asserts and module time starts. -/
  | readyAssert (t : TrainResult)
  /-- INPUT_LOSS (R503). The 48 V input below 44 V for 10 µs turns every rail off. -/
  | inputLoss
  /-- INPUT_RESTORE (R503). The input returns at or above 44 V and the rails ramp again. -/
  | inputRestore
  /-- RAIL_FAULT (R504). A rail out of regulation or over current turns every rail off and asserts FAULT_N. -/
  | railFault (rail : Option (Fin 8))
  /-- REFCLK_LOSS (R512). Loss of REFCLK stops every clock domain and darkens the optics. -/
  | refclkLoss
  /-- DIE_TEMP_SAMPLE (R521). A die sensor sample is taken every 100 µs. -/
  | dieTempSample (d : Fin 10) (t : Nat)
  /-- FW_UPDATE_GO (R471). Writing GO starts reading and checking a staged firmware image. -/
  | fwUpdateGo (v : BitVec 32)
  /-- FW_UPDATE_DONE (R471). A firmware update ends, changing the preferred slot or reporting a failure. -/
  | fwUpdateDone (readOk : Bool)
  /-- INSTALL_MODE_WRITE (R481). A write of SEC_INSTALL_CTL.MODE enters or leaves installation mode when permitted. -/
  | installModeWrite (v : BitVec 32)
  /-- GLB_BRIDGE_CTL_WRITE (R17). A write of bridge arbitration takes effect or is held while a job is held. -/
  | glbBridgeCtlWrite (v : BitVec 32)
  /-- GLB_PART_CFG_WRITE (R404). A host write of partition starts follows the PARTITION_SET rule or sets REJECT. -/
  | glbPartCfgWrite (v : BitVec 32)
  /-- MEM_SPREAD_WRITE (R335). A write of spread bits changes only bits of stopped or absent partitions. -/
  | memSpreadWrite (v : BitVec 32)
  /-- MEM_HDM_CTL_WRITE (R336). A write of the HDM window is applied, held or refused as a pair. -/
  | memHdmCtlWrite (v : BitVec 32)
  /-- FAB_MODULE_ID_WRITE (R374). A write of the module id takes effect or is held. -/
  | fabModuleIdWrite (v : BitVec 32)
  /-- FAB_CTL_WRITE (R376). A write of link modes, protocol and striping takes effect or is held. -/
  | fabCtlWrite (v : BitVec 32)
  /-- FAB_FRAME_CFG_WRITE (R375). A write of frame constants is discarded while any link pair is up. -/
  | fabFrameCfgWrite (v : BitVec 32)
  /-- FAB_VC_WEIGHT_HI_WRITE (R378). A write of the high weights applies all eight VC weights or sets BAD. -/
  | fabVcWeightHiWrite (v : BitVec 32)
  /-- GLB_EVLOG_SEL_WRITE (R546). Writing a sequence number copies that event log entry into the data registers or sets MISS. -/
  | glbEvlogSelWrite (v : BitVec 32)
  /-- CHK_SLOT_WRITE (R492). A write to a check slot enters its 16-entry queue, or is held while it is full. -/
  | chkSlotWrite (n : Fin 256) (reg : ChkReg) (v : BitVec 32)
  /-- CHK_START (R493). A queued START sets the algorithm and init, clears the count and absorbs the fold word. -/
  | chkStart (n : Fin 256)
  /-- CHK_DATA8 (R494). A queued one-byte data write is absorbed. -/
  | chkData8 (n : Fin 256)
  /-- CHK_DATA16 (R494). A queued two-byte data write is absorbed. -/
  | chkData16 (n : Fin 256)
  /-- CHK_DATA32 (R494). A queued four-byte data write is absorbed. -/
  | chkData32 (n : Fin 256)
  /-- CHK_VAL_WRITE (R495). A queued write replaces half of the running value. -/
  | chkValWrite (n : Fin 256)
  /-- CHK_READ (R495). A read of a slot value, result or count returns after earlier writes are applied. -/
  | chkRead (n : Fin 256) (reg : ChkReg)
  /-- REGISTER_WRITE (R8). A host write to a register without its own row sets, clears or discards fields by access code. -/
  | registerWrite (off : Nat) (size : Nat) (v : BitVec 64)
  /-- SCOREBOARD_CLEAR (R127). The write of a non-M-slot instruction takes effect at its latency after issue, and its scoreboard bit clears so that stalled bundles may issue. -/
  | scoreboardClear (g : Fin 512) (r : Reg)
  /-- POWER_STATE_CHANGE (R443). A host configuration write moves HP0's function between D0 and D3hot, which changes how BAR0, BAR2 and host-tier requests are answered. -/
  | powerStateChange (d3hot : Bool)
  /-- SNOOP_PORT_ATTACH (R498). Firmware attaches a snoop port to a stream with an algorithm, or detaches it. -/
  | snoopPortAttach (p : Fin 16) (a : Option SnoopStream) (poly : BitVec 2)
  /-- SNOOP_RESULT_DEQUEUE (R500). An entry is taken from a snoop port's result queue, which lowers DEPTH and clears FULL. -/
  | snoopResultDequeue (p : Fin 16)
  deriving DecidableEq, Repr

end Sys2Proof
end

