-- ==== Sys2Proof/Config.lean ====
section
/-! DEFINITION. What an implementation fixes and the spec does not print, and the free values: opaque constants, so that a claim holds for every value of them. -/

namespace Sys2Proof

/-! What the standards' syntax declares and what a coding step takes (R410, R411, R424, R428 to R430) -/

/-- R410: the profiles of the table; `other` is any profile outside it. -/
inductive CodingProfile where
  | high | main | constrainedBaseline | main10 | other
  deriving DecidableEq, Repr

/-- R411: the tools that the decoder does not support. -/
inductive CodingTool where
  | fieldPictures | mbaff | fmo | aso | redundantSlices | format422 | format444 | monochrome | range | screenContent | scalable | multiview | largeScaleTile
  deriving DecidableEq, Repr

/-- R410, R411: what a sequence header or parameter set declares; the level in tenths. -/
structure SeqInfo where
  profile : CodingProfile
  highTier : Bool
  level : Nat
  width : Nat
  height : Nat
  depth : Nat
  tools : List CodingTool
  deriving DecidableEq, Repr

/-- A picture that a unit decodes (R424): whether it is to be output, whether film grain was signalled for it (R419), and the earlier pictures, by decoding number, that are marked for reference when it takes its buffer (`true`: long-term). -/
structure DecPic where
  pic : Picture
  shown : Bool
  grain : Bool
  kept : List (Nat × Bool)
  deriving DecidableEq, Repr

/-- What decoding a unit gives: its pictures in decoding order, the pictures that become output, and those marked for reference after it, by decoding number. -/
structure UnitOut where
  pics : List DecPic
  outs : List Nat
  kept : List (Nat × Bool)
  deriving DecidableEq, Repr

/-- R428: how a picture is coded. -/
inductive CodeKind where
  | key | p | b
  deriving DecidableEq, Repr

/-- R428 to R430: what the coding of a picture takes: its codec, kind, picture number, samples, reference pictures by coding number, the columns that it codes as intra and those refreshed before in the cycle (R429), the recovery frame count of its SEI, a QP for each coding block in raster order (R430), level and frame rate. -/
structure CodePlan where
  codec : BitVec 2
  kind : CodeKind
  number : Nat
  pic : Picture
  refs : List Nat
  intra : Option (Nat × Nat)
  refreshed : Nat
  sei : Option Nat
  qps : List Int
  level : Nat
  fpsNum : Nat
  fpsDen : Nat
  deriving DecidableEq, Repr

end Sys2Proof

namespace Sys2Proof.Config

/-- R1: `true` for EWB-3208-A1 (1 TiB of vault), `false` for EWB-3208-A4 (4 TiB). Log 7. -/
opaque isA1 : Bool

/-- A fresh free value for each value of the state's counter `freeCtr`. Log 3. -/
opaque freeValue : Nat → BitVec 256

/-- R223: FP40 coefficient `c_j` of segment `i` of a table, bit 39 the sign, 38:31 the exponent, 30:0 the mantissa. The tables stand in silicon and the spec prints none. Log 10. -/
opaque sfnCoeff : (table segment j : Nat) → BitVec 40

/-- R309: whether a bank (stack, bank) has a soft-repair resource left after so many repairs. Log 11. -/
opaque softRepairLeft : (stack bank used : Nat) → Bool
/-- R310: whether hard post-package repair of a row succeeds at start-up. Log 11. -/
opaque hardRepairWorks : (stack bank row : Nat) → Bool

/-- R383: SHA3-256 (an external standard). Log 12. -/
opaque sha3 : List Byte → Digest
/-- R466: the identity key's public half, 1,312 bytes. Log 12. -/
opaque identityPublicKey : List Byte
/-- R467: VENDOR_KEY_ID of the identity certificate, and the signature over its other fields. Log 12. -/
opaque vendorKeyId : BitVec 16
opaque certificateSignature : List Byte
/-- R467: the module's serial number. Log 12. -/
opaque serial : BitVec 128
/-- R469: digest of the firmware public key, held in eFuse. Log 12. -/
opaque firmwareKeyDigest : Digest
/-- R467, R479: whether a certificate verifies under the Etiewell certificate keys. Log 12. -/
opaque certificateOk : List Byte → Bool
/-- ML-DSA-44 verification (FIPS 204): public key, context string, message, signature. Log 12. -/
opaque mldsaVerify : (pk ctx msg sig : List Byte) → Bool
/-- Hedged ML-DSA-44 signature by the identity key: context string, message, free draw; 2,420 bytes. Log 12. -/
opaque mldsaSign : (ctx msg : List Byte) → BitVec 256 → List Byte
/-- ML-KEM-768 encapsulation key of a boot's or an agreement's key pair, from its free draw; 1,184 bytes. Log 12. -/
opaque kemPublic : BitVec 256 → List Byte
/-- ML-KEM-768 decapsulation: key pair's draw, ciphertext; the shared secret. Log 12. -/
opaque kemDecap : BitVec 256 → List Byte → List Byte
/-- ML-KEM-768 encapsulation to a key: key, draw; ciphertext of 1,088 bytes and the shared secret. Log 12. -/
opaque kemEncap : List Byte → BitVec 256 → List Byte × List Byte
/-- AES-256-GCM opening: key, IV, associated data, ciphertext followed by the tag; `none` when the tag fails. Log 12. -/
opaque gcmOpen : Digest → (iv aad ct : List Byte) → Option (List Byte)
/-- AES-256-GCM sealing: ciphertext followed by the tag. Log 12. -/
opaque gcmSeal : Digest → (iv aad pt : List Byte) → List Byte

/-- R216: the bytes of the widening routine, which the spec does not print. Log 21. -/
opaque widenByte : Nat → BitVec 8
/-- R392: whether the client's policy, of which the spec says no more, bars a job: its context, partition, class and SECURE. Log 61. -/
opaque clientBars : (client part : Nat) → (lc secure : Bool) → Bool
/-- R477: the byte of a sealed object's header at which its MAGIC begins; the spec gives no position that its other fields leave free by name. Log 12. -/
opaque sealMagicAt : Nat

/-! The coding standards of R410 are external documents: what they give for a bitstream is opaque. Log 13. -/

/-- R410, R411: what the sequence headers and parameter sets of a unit declare. -/
opaque unitSequences : (codec : BitVec 2) → (unit : List Byte) → List SeqInfo
/-- R412, R424: what the standard's decoding and output processes give for a unit, after the units decoded since the last random-access point; before film grain (R411). `none` where the unit is in error (R425). -/
opaque decodeUnit : (codec : BitVec 2) → (earlier : List (List Byte)) → (unit : List Byte) → Option UnitOut
/-- The pictures, by decoding number, that the standard's output process still holds at the end of a stream, in output order. -/
opaque decodeFlush : (codec : BitVec 2) → (units : List (List Byte)) → List Nat
/-- R425: whether the unit is a random-access point of its standard. -/
opaque unitRandomAccess : (codec : BitVec 2) → (unit : List Byte) → Bool
/-- R428: whether a level, in tenths, admits a picture size, a frame rate and a rate in kb/s. -/
opaque levelAdmits : (codec : BitVec 2) → (level width height fpsNum fpsDen rate : Nat) → Bool
/-- R412, R428, R429: the access unit that the encoder writes for a picture, from its plan and the access units coded before it. -/
opaque codePicture : CodePlan → (earlier : List (List Byte)) → List Byte
/-- R428: the QP that CBR or VBR gives a picture, from the mode, BITRATE, MAXRATE, the declared frame rate and the sizes of the coded pictures. -/
opaque rateQp : (mode bitrate maxrate fpsNum fpsDen : Nat) → (sizes : List Nat) → Nat
/-- R415: a byte of a frame buffer's metadata area; the spec gives its size and not its content. Log 63. -/
opaque frameMeta : Picture → Nat → BitVec 8

end Sys2Proof.Config
end

