-- ==== Sys2Proof/Machine/State.lean ====
section
/-! DEFINITION. The state of the module: every piece of state the spec names (INVENTORY.md, "State"), as plain data, the reasons a step can stop, and the state right after reset. -/

namespace Sys2Proof.Machine

/-- No command of the model faults: a detected fault of the module ends a named piece of work with a status (R11), which is a next state. -/
inductive Fault where
  /-- Raised by no command: it stands for a model step that has no next state. Safe: the machine would stop where the hardware goes on. -/
  | noNextState
  deriving DecidableEq, Repr

/-- Why a command is refused. -/
inductive Refusal where
  /-- Raised by `exec` for a row without a meaning: none in this model. Safe: the machine stops where the hardware goes on. -/
  | notModelled (mnemonic : String)
  deriving DecidableEq, Repr

/-- HRT_CORE_STATE.STATE (R112). -/
inductive CoreMode where
  | idle | run | wait | barrier | stopped | suspended
  deriving DecidableEq, Repr

/-- A token cell's two counters (R96). -/
structure TokenCell where
  even : BitVec 16
  odd : BitVec 16
  deriving DecidableEq, Repr

/-- An anchor group: operand-a span, row half, operand-b span (R63, R83). -/
structure Group where
  row : Nat
  half : Bool
  col : Nat
  deriving DecidableEq, Repr

/-- What opening a slot records (R83). `null` is the null-anchored group of R62, whose recorded anchor is 0. -/
structure SlotTag where
  group : Group
  null : Bool
  anchor : Int
  ta : W32
  tb : W32
  epoch : BitVec 16
  deriving DecidableEq, Repr

/-- An accumulator slot (R63, R83): empty when `tag` is `none`. Billets are listed by position, zero ones left out; `bad` lists the positions with a word whose parity is lost (R82, R108). -/
structure Slot where
  tag : Option SlotTag
  billets : List (Nat × Billet)
  bad : List Nat
  deriving DecidableEq, Repr

/-- The value a register write carries. -/
inductive RegVal where
  | s (x : W64) | v (x : VReg) | p (x : PReg) | td (x : Desc)
  deriving DecidableEq, Repr

/-- A register write that has issued and has not taken effect (R127), with the draw it holds until then (R517, in half amperes). -/
structure RegWrite where
  reg : Reg
  val : RegVal
  draw : Nat
  deriving DecidableEq, Repr

/-- A place named by a DMA descriptor (R93). -/
structure Loc where
  space : BitVec 3
  core : BitVec 9
  off : BitVec 48
  deriving DecidableEq, Repr

/-- The three transfers of R93. -/
inductive XferKind where
  | copy | tile | narrow
  deriving DecidableEq, Repr

/-- How far a transfer at its queue head has come. -/
inductive XferPhase where
  | queued | moved | failed
  deriving DecidableEq, Repr

/-- A transfer on a DMA queue (R93, R94, R157, R547). -/
structure Xfer where
  kind : XferKind
  sig : Bool
  stream : Bool
  token : Fin 64
  tokenCore : BitVec 9
  length : Nat
  src : Loc
  dst : Loc
  remote : Bool
  module : BitVec 16
  vc : BitVec 3
  /-- Copy of the tile descriptor and its extension (R92, R89). -/
  td : Desc
  ext : Option Desc
  /-- STT: the window is the destination; source format and CONV (R157). -/
  store : Bool
  sf : BitVec 4
  conv : BitVec 4
  phase : XferPhase
  /-- Clock at enqueue, from which a host access is timed (R328). -/
  started : Nat
  /-- Issue order within the core (R97), and the bundle it issued in (R170). -/
  seq : Nat
  bundle : BitVec 13
  /-- Page translations received so far: page index, entry (R268, R273). -/
  pages : List (Nat × W32)
  /-- For an attached snoop port: the destination's start address and the bytes in ascending address (R498). -/
  image : Option (Nat × List Byte)
  deriving DecidableEq, Repr

/-- A DMA queue (R77, R94). -/
structure DmaQueue where
  xfers : List Xfer
  lastStatus : Status
  deriving DecidableEq, Repr

/-- An M-slot instruction with the operands it read at issue (R125). -/
inductive MOp where
  | mxa (a b d : Desc) (ext : Option Desc) (asrc : Bool) (rs : W64)
  | fold (a b d : Desc) (ext : Option Desc) (asrc : Bool) (rs : W64) (side : Bool)
  | brnd (o : Desc) (f : BrndOp) (rb rsc : W64)
  | spark (a w d : Desc) (ext : Option Desc) (f : SparkOp) (rs rt : W64)
  | attn (q k v : Desc) (kExt vExt : Option Desc) (o : Desc) (f : AttnOp) (rs rm : W64)
  | normStat (x y : Desc) (f : NormOp) (rs rg : W64)
  | normApply (x y : Desc) (f : NormOp) (rs rg : W64) (vs : VReg)
  deriving DecidableEq, Repr

/-- An entry of the M queue (R128). `writes` holds the register results that its completion makes visible; a `fetch` entry is a paged ATTN whose fetch is not complete (R272). -/
structure MEntry where
  op : MOp
  bundle : BitVec 13
  seq : Nat
  regs : List Reg
  writes : List RegWrite
  started : Bool
  fetch : Bool
  pages : List (Nat × W32)
  deriving DecidableEq, Repr

/-- A collective as issued by XSHIFT or XPERM (R165, R360). -/
structure Coll where
  desc : Desc
  opc : Byte
  sig : Bool
  token : Fin 64
  seq : Nat
  /-- Clock of issue or of the last restart, and the limit in clock periods (R365). -/
  since : Nat
  limit : Nat
  /-- Ranks sent to and received from (R361). -/
  dstRank : Nat
  srcRank : Nat
  dstMod : BitVec 16
  dstCore : BitVec 9
  srcMod : BitVec 16
  srcCore : BitVec 9
  bundle : BitVec 13
  rtsSent : Bool
  ctsGot : Bool
  /-- The receive address that the CTS gave (R350). -/
  ctsAddr : BitVec 48
  ctsSpace : BitVec 3
  rtsGot : Bool
  dataSent : Bool
  recvLeft : Nat
  /-- Packet runs for a core of this module that its combine stage has not taken yet (R73). -/
  todo : List BilletRun
  deriving DecidableEq, Repr

/-- The data effects of the bundle being presented, which act together when it issues (R125, R170): register writes, scratchpad stores (`none` leaves a byte), the M-slot instruction with the registers it will write, transfers to enqueue, queues whose status DQST resets. -/
structure Staged where
  writes : List RegWrite
  stores : List (Nat × List (Option Byte))
  mop : Option MOp
  mregs : List Reg
  xfers : List (Fin 8 × Xfer)
  dqst : List (Fin 8)
  /-- An SFN issues with the bundle (R155). -/
  sfn : Bool
  deriving DecidableEq, Repr

/-- A control effect of a bundle: where its issue leaves the sequencer and the synchronisation units. -/
inductive Ctl where
  | branch (target : BitVec 13)
  | ladderExhausted (rp : ReheatPoint)
  | reheat (rp : ReheatPoint) (rung : Nat) (target : BitVec 13)
  | signal (module : Option (BitVec 16)) (core : BitVec 9) (tok : Fin 64) (cnt : BitVec 8)
  | wait (tok : Fin 64) (cnt : BitVec 8)
  | claim (h : Fin 8) (ctr : Fin 64) (inc : Nat) (rd : Fin 32) (pd : Fin 8)
  | barrier (kind : BitVec 2) (num : BitVec 16)
  | coll (c : Coll)
  deriving DecidableEq, Repr

/-- The bundle that is being presented, slot by slot (log 1). -/
structure Bundle where
  used : List SlotId
  /-- Registers named as destinations, for R126. -/
  dests : List Reg
  eff : Staged
  ctl : List Ctl
  fault : Option Status
  stall : Bool
  deriving DecidableEq, Repr

/-- A WAIT that has not completed (R96, R101). -/
structure PendingWait where
  tok : Fin 64
  cnt : BitVec 8
  since : Nat
  limitUs : Nat
  bundle : BitVec 13
  deriving DecidableEq, Repr

/-- A barrier instruction that has not completed: kind 0 HBAR, 1 MBAR, 2 EBAR, 3 END (R102, R135). -/
structure Arrival where
  kind : BitVec 2
  num : BitVec 16
  bundle : BitVec 13
  /-- Issue order: earlier writes complete first (R97, R103). -/
  seq : Nat
  /-- Its order among the arrivals at the barrier, once it has arrived (R104). -/
  order : Option Nat
  deriving DecidableEq, Repr

/-- A WCLAIM that has not returned (R105, R106). -/
structure Claim where
  h : Fin 8
  ctr : Fin 64
  inc : Nat
  rd : Fin 32
  pd : Fin 8
  token : BitVec 16
  executed : Bool
  failures : Nat
  bundle : BitVec 13
  deriving DecidableEq, Repr

/-- A packet of a pair (R346), kept until acknowledged: `left` once it has been sent, with the ACK_PSN of that first sending (R351), `busyAt` from a NAK BUSY to its resend (R359); the bundle and DMA queue it belongs to (R170). -/
structure TxPkt where
  ctr : Nat
  type : BitVec 4
  vc : BitVec 3
  last : Bool
  dstAddr : BitVec 48
  dstCore : BitVec 9
  dstSpace : BitVec 3
  tokenId : BitVec 6
  tokenCore : BitVec 9
  tv : Bool
  srcCore : BitVec 9
  msgId : BitVec 7
  jobTag : BitVec 16
  pktIndex : BitVec 16
  epoch : BitVec 16
  payload : List Byte
  left : Bool
  ackPsn : BitVec 32
  busyAt : Option Nat
  bundle : BitVec 13
  queue : Option (Fin 8)
  deriving DecidableEq, Repr

/-- A message to a peer (R348), until it is acknowledged whole. One that has not started has no MSG_ID and holds its packets, each with the hearth it goes to: it waits for one of the 64 places, for a pair (R353), or, as the last of several, for the earlier ones (R349). -/
structure OutMsg where
  id : BitVec 7
  peer : BitVec 16
  seq : Nat
  packetsLeft : Nat
  /-- The DMA queue whose head it carries, or the collective's group. -/
  queue : Option (Fin 8)
  group : Option W32
  bundle : BitVec 13
  started : Bool
  lastOf : Bool
  held : List (Fin 8 × TxPkt)
  deriving DecidableEq, Repr

/-- An RTS that no issued collective has matched (R362). -/
structure Rts where
  group : W32
  seq : W32
  rank : Nat
  sign : W32
  srcMod : BitVec 16
  srcCore : BitVec 9
  deriving DecidableEq, Repr

/-- The counters a host reads in a core block (R113, R114, R191, R192, R247, R275, R276, R296). `busy` is in cycles. -/
structure CoreStat where
  faultStatus : Status
  faultBundle : BitVec 13
  tokenLeft : W32
  highWater : BitVec 3
  busy : Nat
  clamped : BitVec 16
  trunc : BitVec 16
  rescale : W32
  empty : W32
  tapSkip : W32
  deriving DecidableEq, Repr

/-- A run in a combine stage (R73): where a collective brought it, the module and core it came from (R363); whether a word of it has lost its parity (R108). -/
structure StageRun where
  run : BilletRun
  src : Option (BitVec 16 × BitVec 9)
  bad : Bool
  deriving DecidableEq, Repr

/-- A core (R77). -/
structure Core where
  mode : CoreMode
  member : Bool
  s : Vector W64 32
  v : Vector VReg 32
  p : Vector PReg 8
  td : Vector (Option Desc) 16
  q : Vector DmaQueue 8
  pc : BitVec 13
  /-- The last bundle issued while a WAIT or barrier holds the core; the fetch past it is still to come (R86). -/
  pastEnd : Bool
  epoch : BitVec 16
  tok : Vector TokenCell 64
  slots : Vector Slot 5
  /-- Runs that wait in the combine stage (R73). -/
  stage : List StageRun
  spad : List Host.Cell
  imem : List Host.Cell
  /-- The 32-bit words of the scratchpad and of the instruction memory whose parity is lost (R108). -/
  badParity : List Nat
  badImem : List Nat
  inflight : List RegWrite
  bundle : Bundle
  mq : List MEntry
  wait : Option PendingWait
  arrival : Option Arrival
  claims : List Claim
  claimSeq : BitVec 7
  sfuFreeAt : Nat
  seq : Nat
  colls : List Coll
  rts : List Rts
  msgs : List OutMsg
  /-- SIGNAL and CTRL packets that stall for a link pair (R353), oldest first: peer, packet. -/
  ctrls : List (BitVec 16 × TxPkt)
  stat : CoreStat
  deriving DecidableEq, Repr

/-- A token count on its way to a cell (R96 to R98). It is held until the sender's writes issued before `seq` have completed. -/
structure TokMsg where
  src : Fin 512
  queue : Option (Fin 8)
  seq : Nat
  module : Option (BitVec 16)
  dst : BitVec 9
  tok : Fin 64
  cnt : BitVec 8
  epoch : BitVec 16
  /-- The bundle of the SIGNAL or transfer (R170). -/
  bundle : BitVec 13
  deriving DecidableEq, Repr

/-- A work counter (R116) with its claim log (R106) and a bitmap clear in progress. -/
structure WorkCounter where
  value : W32
  limit : W32
  bmapLo : BitVec 26
  bmapHi : BitVec 16
  bmapEn : Bool
  clearing : Bool
  log : List (Fin 512 × BitVec 16 × W32 × W32)
  deriving DecidableEq, Repr

/-- An engine start that the draw governor holds (R518): the M-queue head, a DMA queue's head or the V slot of a core. -/
inductive DrawUnit where
  | m | v | dma (q : Fin 8)
  deriving DecidableEq, Repr

/-- A waiting or granted engine start (R518), its draw in half amperes (R517). -/
structure DrawReq where
  core : Fin 512
  unit : DrawUnit
  draw : Nat
  since : Nat
  granted : Bool
  deriving DecidableEq, Repr

/-- A page-table read of the walker (R268) with the requesters it serves: a core's M queue or one of its DMA queues. -/
structure Walk where
  table : BitVec 48
  k : Nat
  who : List (Fin 512 × Option (Fin 8))
  deriving DecidableEq, Repr

/-- An entry of the walker's look-aside buffer, most recently used first (R268). -/
structure LabEntry where
  table : BitVec 48
  k : Nat
  entry : W32
  deriving DecidableEq, Repr

/-- A hearth's own registers and units (R19, R115, R116, R221, R222, R230, R277, R278, R334, R523, R524). Stall and interference counts are in cycles. -/
structure Hearth where
  waitLimit : W32
  wctr : Vector WorkCounter 64
  widen : List (BitVec 32 × Desc)
  widenTid : W32
  /-- A widening pass runs (R215, R221). -/
  widenPass : Bool
  sfnTable : BitVec 4
  sfnSegment : BitVec 6
  sfnWord : BitVec 4
  lab : List LabEntry
  walks : List Walk
  kvHit : W32
  kvMiss : W32
  budget : BitVec 11
  drawStall : Nat
  drawReqs : List DrawReq
  bellowsStall : Nat
  interference : Nat
  deriving DecidableEq, Repr

/-- GLOBAL block registers and the event log (R2, R17, R22, R404 to R408, R525 to R528, R541, R546). Ring entries are newest last. -/
structure Glb where
  vaultPresent : BitVec 8
  hrtPresent : BitVec 8
  tyPresent : BitVec 2
  svcShare : BitVec 4
  bridgeHeld : Option W32
  reject : Bool
  staticOnly : Bool
  gangLimit : BitVec 8
  fraction : BitVec 4
  raceCount : BitVec 16
  cause : BitVec 6
  throttle : Nat
  dieTemp : Vector (BitVec 8 × BitVec 8) 10
  slowdown : Vector W32 8
  windowAt : Nat
  hbmSlots : Vector (BitVec 4) 8
  tyWays : Vector (BitVec 16) 8
  evlog : List (BitVec 256)
  evNext : W32
  /-- The clock of the newest entries, and how many of them it has (R541). -/
  evAt : Nat
  evSame : Nat
  evOver : BitVec 16
  evMiss : Bool
  evSel : W32
  evData : BitVec 256
  deriving DecidableEq, Repr

/-- An entry of a session object's table (R475). -/
structure SealEntry where
  kind : Nat
  index : Nat
  addr : Nat
  len : Nat
  host : Nat
  deriving DecidableEq, Repr

/-- A secure job's session: its table and the keys of inputs and outputs (R475, R477). -/
structure Session where
  entries : List SealEntry
  keyIn : Digest
  keyOut : Digest
  deriving DecidableEq, Repr

/-- A job as SUBMIT gives it (R391, R455). -/
structure Job where
  id : W32
  /-- The issuing context, while it is open (R449). -/
  ctx : Option (Fin 4096)
  part : Fin 8
  lc : Bool
  key : BitVec 64
  image : BitVec 64
  imageSize : BitVec 64
  inputs : List (BitVec 64 × BitVec 64)
  seed : W64
  reheatCap : BitVec 16
  tag : BitVec 16
  modules : List (BitVec 16)
  maxWaitMs : W32
  sign : Bool
  secure : Bool
  hostWeights : Bool
  manifest : Digest
  resultAddr : BitVec 64
  session : Option Session
  arrived : Nat
  overtaken : W32
  /-- A SUSPEND that came while the job is queued (R396). -/
  suspendAt : Option W32
  deriving DecidableEq, Repr

/-- How far a task has come (R389, R393, R394, R396). -/
inductive TaskPhase where
  | startBarrier | loaded | running | suspended
  deriving DecidableEq, Repr

/-- How a task ends: its status, the clock at which it was detected and the rank of R540, the core named, the END notice's origin, and DETAIL (R402). -/
structure Ending where
  status : Status
  at_ : Nat
  rank : Nat
  core : Option (Fin 512)
  bundle : Option (BitVec 13)
  source : Byte
  unit : BitVec 16
  logDetail : BitVec 64
  remote : Option (BitVec 16 × BitVec 16)
  detail : BitVec 192
  deriving DecidableEq, Repr

/-- A running or suspended task: its job and what the loader took from the image (R381 to R384, R394 to R403). -/
structure Task where
  job : Job
  phase : TaskPhase
  hearths : Nat
  /-- Clock at the job's start, and at the start of its cores (R133, R401). -/
  started : Nat
  coresAt : Nat
  balEn : Bool
  startEpoch : BitVec 16
  reserve : Bool
  codeCores : List (Fin 512)
  precision : List (BitVec 128)
  plog : Option (BitVec 48 × Nat)
  /-- POOLS: tensor id, pool base, alternate region (R210, R214), and the tensors that overflowed without AUTOWIDEN in this epoch (R217). -/
  pools : List (W32 × BitVec 48 × Option (BitVec 48))
  overs : List (W32 × BitVec 48)
  vault : List (BitVec 64 × BitVec 64)
  peers : List (BitVec 16)
  schedDigest : Digest
  manifestDigest : Digest
  inputDigest : Digest
  ordinal : W32
  suspendAt : Option W32
  cancel : Bool
  ending : Option Ending
  tdc : BitVec 64
  widened : W32
  /-- The reheat branches taken (R200 to R203): layer, execution, rung left, rung entered; a rung of 4 is the wide copy. -/
  reheats : List (BitVec 16 × BitVec 32 × Nat × Nat)
  /-- The layer execution at which the job latched wide (R203). -/
  latched : Option (BitVec 16 × BitVec 32)
  /-- The rung at which a core runs a layer execution that it has reheated (R200). -/
  rungAt : List (Fin 512 × BitVec 16 × BitVec 32 × Nat)
  throttled : Nat
  runInterference : Nat
  /-- Barrier rounds sent for the barrier in progress (R370, R394). -/
  rounds : Nat
  deriving DecidableEq, Repr

/-- Partition states of R389; `none` where no partition begins. -/
inductive PartMode where
  | none | idle | running | suspended | stopping | stopped | outOfService
  deriving DecidableEq, Repr

/-- A kept result record (R403): its job, the issuing context, the record's 256 bytes, and the precision log delivered with it (R220). -/
structure KeptRecord where
  job : W32
  ctx : Option (Fin 4096)
  bytes : List Byte
  plog : List Byte
  deriving DecidableEq, Repr

/-- A partition, named by its first hearth (R388 to R395, R403, R478). -/
structure Part where
  mode : PartMode
  lc : List Job
  be : List Job
  task : Option Task
  records : List KeptRecord
  zeroing : Bool
  /-- BARRIER messages held or received: tag, NUM, EPOCH, round, sender (R370, R394). -/
  rounds : List (BitVec 16 × BitVec 16 × BitVec 16 × Byte × BitVec 16)
  deriving DecidableEq, Repr

/-- MEM_STACK_STATE.STATE (R332). -/
inductive StackMode where
  | inService | fenced | quenched | notPresent
  deriving DecidableEq, Repr

/-- A soft repair in progress (R308, R320): until when its bank is held, the row's address, whether the log kept the row, and the stack's counts as they were before it. -/
structure RowFix where
  till : Nat
  addr : BitVec 48
  kept : Bool
  sppr : BitVec 8
  repairs : List (Nat × Nat)
  deriving DecidableEq, Repr

/-- An HBM stack (R308, R315, R332): its last sample, bellows level 0 to 3, soft repairs, corrected reads counted per row, repairs used per bank. -/
structure Stack where
  temp : BitVec 8
  level : Fin 4
  mode : StackMode
  sppr : BitVec 8
  corrected : List (Nat × Nat × Nat)
  repairs : List (Nat × Nat)
  /-- Clock of the quench or fence that stopped this stack itself (R320). -/
  stoppedAt : Option Nat
  /-- Whether it has been quenched since the last reset (R319), which a later fence of its hearth hides in `mode` (R332). -/
  hot : Bool
  repair : Option RowFix
  deriving DecidableEq, Repr

/-- A logged row (R310): stack, bank, row. -/
structure RowRec where
  stack : Fin 32
  bank : Nat
  row : Nat
  deriving DecidableEq, Repr

/-- An HBM read that failed and is replayed (R306). -/
structure Replay where
  reader : HbmReader
  addr : BitVec 48
  count : Nat
  deriving DecidableEq, Repr

/-- HBM, the vault, host memory and their registers (R298 to R338). -/
structure Mem where
  hbm : List Host.Cell
  /-- The 32-bit words of HBM whose stored parity bit fails (R305, R306). -/
  badHbm : List Nat
  host : List Host.Cell
  vault : List Host.Cell
  stk : Vector Stack 32
  periodMs : BitVec 5
  noticeAt : Vector Nat 8
  spread : BitVec 8
  hdmBase : BitVec 12
  hdmSize : BitVec 12
  hdmHeld : Option W32
  hdmDenied : W32
  repairLog : List RowRec
  repairLost : BitVec 16
  fenceRecords : List (Fin 32)
  replays : List Replay
  deriving DecidableEq, Repr

/-- FAB_LINK_STATE.STATE (R379). -/
inductive LinkMode where
  | down | training | up | fenced
  deriving DecidableEq, Repr

/-- A link (R340, R379): the mode being tried or in use (0 none, 1 200G, 2 400G, 3 800G), the modes enabled when the training in progress began (R376), and when that try or wait began. -/
structure Link where
  mode : LinkMode
  speed : BitVec 2
  tryMode : BitVec 2
  modes : BitVec 3
  since : Nat
  replays : BitVec 8
  deriving DecidableEq, Repr

/-- A link pair (R351 to R355, R479, R480): this module's link, the peer, the hearth of the peer's link; whether it is up, has gone down, or found no common version; version, nonces, both directions' keys and salts (R351), counters, packets awaiting acknowledgement (first those that have left), arrivals awaiting an ACK. -/
structure LinkPair where
  link : Fin 128
  peer : BitVec 16
  far : Fin 8
  up : Bool
  down : Bool
  noVersion : Bool
  version : BitVec 2
  nonce : Option (BitVec 128)
  peerNonce : Option (BitVec 128)
  txKey : Digest
  txSalt : BitVec 32
  rxKey : Digest
  rxSalt : BitVec 32
  txNext : Nat
  ackSeq : Nat
  unacked : List TxPkt
  resends : Nat
  progressAt : Nat
  rxNext : Nat
  rxAhead : List Nat
  rxCount : Nat
  rxSince : Option Nat
  /-- The next number expected of the peer's ACKs and NAKs (R351). -/
  rxAckSeq : Nat
  lastUse : Nat
  deriving DecidableEq, Repr

/-- A message in arrival (R348): sender, MSG_ID, packets applied, packets in all once LAST is seen, destination core, JOB_TAG, payloads by index (R498). -/
structure RxMsg where
  srcMod : BitVec 16
  srcCore : BitVec 9
  msgId : BitVec 7
  applied : Nat
  total : Option Nat
  dst : BitVec 9
  tag : BitVec 16
  parts : List (Nat × BitVec 48 × List Byte)
  deriving DecidableEq, Repr

/-- A module-pair secret or the agreement that makes it (R353, R479): the HELLO's content, the transcript T and the secret S. -/
structure Secret where
  peer : BitVec 16
  agreed : Bool
  failed : Bool
  initiator : Bool
  since : Nat
  draw : BitVec 256
  hello : List Byte
  transcript : Digest
  secret : Digest
  deriving DecidableEq, Repr

/-- A frame that left the module, newest last: link, peer and the hearth of its link; what R345, R346 and R351 put around its packet: MAC prefix, EtherType, SRC_MOD, the direction's key and salt (none for SETUP), version, ACK_PSN. -/
structure SentFrame where
  link : Fin 128
  peer : BitVec 16
  far : Fin 8
  macPrefix : BitVec 16
  etherType : BitVec 16
  srcMod : BitVec 16
  key : Option (Digest × BitVec 32)
  ver : BitVec 4
  ackPsn : BitVec 32
  pkt : TxPkt
  deriving DecidableEq, Repr

/-- The fabric (R339 to R380). -/
structure Fabric where
  moduleId : BitVec 16
  idHeld : Option W32
  macPrefix : BitVec 16
  etherType : BitVec 16
  stripe : BitVec 8
  protoMax : BitVec 2
  modes : BitVec 3
  ctlHeld : Option W32
  collTimeout : BitVec 16
  vcLo : W32
  vcHi : W32
  vcSet : Vector (BitVec 7) 8
  vcBad : Bool
  links : Vector Link 128
  pairs : List LinkPair
  secrets : List Secret
  /-- Packets accepted that wait in their link's receive queue (R359, R73), and messages in arrival. -/
  rxQueue : List (Fin 128 × Frame)
  rxMsgs : List RxMsg
  sent : List SentFrame
  /-- Cores with a message or control packet that waits for room (R348, R353). -/
  stalled : List (Fin 512)
  discarded : Nat
  deriving DecidableEq, Repr

/-- A firmware image as a slot holds it (R468, R469). -/
structure FwImage where
  bytes : List Byte
  svn : Byte
  advance : Bool
  deriving DecidableEq, Repr

/-- A region of a recorded manifest (R482). -/
structure Region where
  name : BitVec 128
  offset : BitVec 64
  len : BitVec 64
  host : BitVec 64
  access : Byte
  digest : BitVec 128
  deriving DecidableEq, Repr

/-- An installation in progress (R484): the manifest's regions and digest, and the context whose command it is. -/
structure Install where
  ctx : Fin 4096
  regions : List Region
  digest : Digest
  owner : Digest
  deriving DecidableEq, Repr

/-- Identity, firmware and installation (R466 to R487). -/
structure Security where
  bootStatus : Status
  counter : BitVec 7
  fallback : Bool
  slotB : Bool
  fwOk : Bool
  stageLo : BitVec 26
  stageHi : W32
  stageSize : W32
  fwResult : Status
  fwBusy : Bool
  /-- Host address and size of the image of the update in progress, as they stood at GO (R471). -/
  fwFrom : BitVec 64
  fwSize : W32
  instResult : Status
  instActive : Bool
  instMode : Bool
  progress : W32
  fwSlots : Option FwImage × Option FwImage
  /-- The image that firmware runs from since the start (R469). -/
  fwRunning : Option FwImage
  preferB : Bool
  manifest : Option (List Region × Digest)
  owner : Option Digest
  install : Option Install
  bootId : BitVec 64
  kemDraw : BitVec 256
  deriving DecidableEq, Repr

/-- R424: the mark of a frame buffer. -/
inductive BufMark where
  | unused | short | long
  deriving DecidableEq, Repr

/-- A frame buffer in use (R415, R424): the decoding or coding number of its picture within the stream in progress, its mark, its output hold, the picture, and whether film grain was signalled for it. -/
structure FrameBuf where
  num : Option Nat
  mark : BufMark
  hold : Bool
  pic : Picture
  grain : Bool
  deriving DecidableEq, Repr

/-- A place of a decoder's groups, in output order (R419, R425): a picture with its frame buffer, a picture lost to an error, or the filling of a lost group. -/
inductive GroupPic where
  | pic (buf : Nat) (p : Picture) (grain : Bool)
  | lost
  | pad
  deriving DecidableEq, Repr

/-- A media stream context (R414 to R432). -/
structure MediaCtx where
  id : Fin 256
  owner : Option (Fin 4096)
  descAddr : BitVec 48
  desc : List Byte
  /-- The engine's own counters (R420): BS_RD and TS_WR of a decoder, BS_WR and TS_RD of an encoder. -/
  bsPtr : W32
  tsPtr : W32
  /-- Software's two counters as the work unit in progress read them at its start (R420). -/
  bsSeen : W32
  tsSeen : W32
  /-- The access units decoded since the last random-access point taken after an error or an end of stream, or coded so far. -/
  units : List (List Byte)
  /-- The frame pool (R415, R424), and the pictures decoded or coded since `units` began. -/
  bufs : List (Option FrameBuf)
  numbered : Nat
  /-- Encode: the frames read and not yet coded: picture number, frame, region block. -/
  waiting : List (Nat × Picture × List Byte)
  /-- Decode: pictures that wait for their slot, in output order (R419, R425). -/
  group : List GroupPic
  /-- Output-order number of the next group's first picture. -/
  pictures : W32
  /-- Bands of the picture in progress still to do (R422); 0 when none is in progress. -/
  bandsLeft : Nat
  discarding : Bool
  eos : Bool
  /-- A STREAM_CLOSE: `some none` cancels; `some (some x)` drains the input that software's counter had counted. -/
  close : Option (Option W32)
  pendingStatus : Option Status
  deriving DecidableEq, Repr

/-- A media engine (R422, R433 to R436). Sample counts are exact. -/
structure MediaEngine where
  batchMin : BitVec 4
  decoded : Nat
  encoded : Nat
  clamped : BitVec 16
  bitstream : BitVec 16
  ctxs : List MediaCtx
  running : Option (Fin 256)
  /-- The context whose turn it is in each class, and the units of its turn that are left. -/
  liveTurn : Fin 256 × Nat
  batchTurn : Fin 256 × Nat
  unitsIn16 : Nat
  batchIn16 : Nat
  deriving DecidableEq, Repr

/-- What a command's completion entry will carry (R456, R457). -/
structure Completion where
  cid : BitVec 16
  status : Status
  opc : Byte
  result : BitVec 128
  deriving DecidableEq, Repr

/-- An event entry to post (R449, R456). -/
structure LEvent where
  stream : Bool
  status : Status
  id : W32
  deriving DecidableEq, Repr

/-- A Larcy context (R446 to R452). -/
structure LCtx where
  num : Fin 4096
  sqAddr : BitVec 64
  cqAddr : BitVec 64
  sqLog : Nat
  cqLog : Nat
  version : Byte
  admin : Bool
  irq : Bool
  vector : Byte
  sqHead : Nat
  sqTail : Nat
  cqTail : Nat
  cqHead : Nat
  phase : Bool
  busy : Option (BitVec 16 × Byte)
  /-- CTX_CLOSE commands that wait for this context's command in progress (R454): issuers and CIDs. -/
  closing : List (Fin 4096 × BitVec 16)
  done : Option Completion
  events : List LEvent
  resident : Bool
  loadedAt : Nat
  idleSince : Nat
  blockedSince : Nat
  served : Bool
  deriving DecidableEq, Repr

/-- The command engine and the host port (R441 to R465). -/
structure Larcy where
  enable : Bool
  verFail : Bool
  ver : Byte
  verMax : Byte
  cqLog2 : BitVec 4
  sqLog2 : BitVec 4
  sq0Lo : BitVec 20
  sq0Hi : W32
  cq0Lo : BitVec 20
  cq0Hi : W32
  ctxs : List LCtx
  waiting : List (Fin 4096)
  queueFaults : BitVec 16
  evictions : BitVec 16
  drops : BitVec 8
  proto : BitVec 4
  width : BitVec 5
  rate : BitVec 4
  up : Bool
  d3hot : Bool
  nextJob : W32
  msixTable : List (Nat × W32)
  msixSent : List Byte
  deriving DecidableEq, Repr

/-- A check slot (R491 to R497). The running value is held as R495 defines it. -/
structure ChkSlot where
  poly : BitVec 2
  active : BitVec 2
  fold : BitVec 64
  value : BitVec 64
  count : W32
  queue : List (ChkReg × W32)
  deriving DecidableEq, Repr

/-- A snoop port (R498 to R502). -/
structure Snoop where
  stream : Option SnoopStream
  poly : BitVec 2
  lost : BitVec 16
  results : List (BitVec 128)
  deriving DecidableEq, Repr

/-- A slow input's filter (R508, R509): level taken, end of the hold-off, clocks of the recent changes. -/
structure Filter where
  level : Bool
  holdUntil : Option Nat
  changes : List Nat
  racing : Bool
  deriving DecidableEq, Repr

/-- Start-up progress (R514, R515). -/
inductive PowerPhase where
  | off | reset | starting | ready
  deriving DecidableEq, Repr

/-- Power, pins and start-up (R503 to R529). Outputs are true when asserted. -/
structure Power where
  inputOk : Bool
  railsOn : Bool
  railFault : Bool
  refclk : Bool
  refclkStop : Bool
  pins : Vector Filter 4
  thermTrip : Bool
  faultN : Bool
  ready : Bool
  phase : PowerPhase
  dieTrip : Bool
  readyAt : Nat
  t0 : Nat
  /-- Causes gathered for the next start (R527). -/
  nextCause : BitVec 6
  /-- Whether the 48 V input was lost since the last start (R527). -/
  lostInput : Bool
  deriving DecidableEq, Repr

/-- The last answer given to the host (log 4). -/
inductive Reply where
  | none | data (bs : List Byte) | poison | word (w : W32) | snoopMiss
  deriving DecidableEq, Repr

/-- The module (R77, R534 to R536) and the queue of commands that wait, first in, first out. -/
structure State where
  pending : List Instr
  now : Nat
  freeCtr : Nat
  reply : Reply
  cores : Vector Core 512
  hearths : Vector Hearth 8
  tokens : List TokMsg
  glb : Glb
  parts : Vector Part 8
  mem : Mem
  fab : Fabric
  sec : Security
  media : Vector MediaEngine 2
  larcy : Larcy
  chk : Vector ChkSlot 256
  snoop : Vector Snoop 16
  pwr : Power
  deriving DecidableEq, Repr

/-- An empty accumulator slot (R83). -/
def Slot.empty : Slot := ⟨none, [], []⟩

/-- No data effect. -/
def Staged.empty : Staged := ⟨[], [], none, [], [], [], false⟩

/-- No slot presented yet. -/
def Bundle.empty : Bundle := ⟨[], [], Staged.empty, [], none, false⟩

/-- Cleared counters (R113, R114, R191, R192, R247, R275, R276, R296). -/
def CoreStat.zero : CoreStat := ⟨0, 0, 0, 0, 0, 0, 0, 0, 0, 0⟩

/-- A core with the contents of R78; before any task starts, the spec gives no value and these are DESIGN CHOICE (log 5). -/
def Core.reset : Core where
  mode := .idle
  member := false
  s := Vector.replicate 32 0
  v := Vector.replicate 32 (Vector.replicate 256 0)
  p := Vector.replicate 8 0
  td := Vector.replicate 16 none
  q := Vector.replicate 8 ⟨[], 0⟩
  pc := 0
  pastEnd := false
  epoch := 0
  tok := Vector.replicate 64 ⟨0, 0⟩
  slots := Vector.replicate 5 Slot.empty
  stage := []
  spad := []
  imem := []
  badParity := []
  badImem := []
  inflight := []
  bundle := Bundle.empty
  mq := []
  wait := none
  arrival := none
  claims := []
  claimSeq := 0
  sfuFreeAt := 0
  seq := 0
  colls := []
  rts := []
  msgs := []
  ctrls := []
  stat := CoreStat.zero

/-- A hearth after reset (R115, R116, R221, R222, R230, R269, R277, R278, R334, R523, R524). -/
def Hearth.reset : Hearth where
  waitLimit := 0x000186A0
  wctr := Vector.replicate 64 ⟨0, 0, 0, 0, false, false, []⟩
  widen := []
  widenTid := 0
  widenPass := false
  sfnTable := 0
  sfnSegment := 0
  sfnWord := 0
  lab := []
  walks := []
  kvHit := 0
  kvMiss := 0
  budget := 0x3E8
  drawStall := 0
  drawReqs := []
  bellowsStall := 0
  interference := 0

/-- The GLOBAL block after reset (R22, R17, R404, R406, R525, R526, R527, R528, R407, R408, R546). CAUSE is DESIGN CHOICE POWER (log 8). -/
def Glb.reset : Glb where
  vaultPresent := 0xFF
  hrtPresent := 0xFF
  tyPresent := 0b11
  svcShare := 2
  bridgeHeld := none
  reject := false
  staticOnly := false
  gangLimit := 0x0A
  fraction := 0xC
  raceCount := 0
  cause := 1
  throttle := 0
  dieTemp := Vector.replicate 10 (0, 0)
  slowdown := Vector.replicate 8 0x1000
  windowAt := 0
  hbmSlots := Vector.replicate 8 0
  tyWays := Vector.replicate 8 0
  evlog := []
  evNext := 0
  evAt := 0
  evSame := 0
  evOver := 0
  evMiss := false
  evSel := 0
  evData := 0

/-- A partition that holds nothing, in the given state. -/
def Part.reset (m : PartMode) : Part := ⟨m, [], [], none, [], false, []⟩

/-- The memory tiers after reset (R332 to R338); HBM reads zero (R514); the other unlisted contents are DESIGN CHOICE (logs 6, 8). -/
def Mem.reset : Mem where
  hbm := []
  badHbm := []
  host := []
  vault := []
  stk := Vector.replicate 32 ⟨0, 0, .inService, 0, [], [], none, false, none⟩
  periodMs := 5
  noticeAt := Vector.replicate 8 0
  spread := 0
  hdmBase := 0
  hdmSize := 0
  hdmHeld := none
  hdmDenied := 0
  repairLog := []
  repairLost := 0
  fenceRecords := []
  replays := []

/-- The fabric after reset (R374 to R379). -/
def Fabric.reset : Fabric where
  moduleId := 0
  idHeld := none
  macPrefix := 0x0AEB
  etherType := 0x9A27
  stripe := 0x40
  protoMax := 0b10
  modes := 0b111
  ctlHeld := none
  collTimeout := 0x32
  vcLo := 0x08101C04
  vcHi := 0x02020202
  vcSet := #v[4, 28, 16, 8, 2, 2, 2, 2]
  vcBad := false
  links := Vector.replicate 128 ⟨.down, 0, 0, 0, 0, 0⟩
  pairs := []
  secrets := []
  rxQueue := []
  rxMsgs := []
  sent := []
  stalled := []
  discarded := 0

/-- The SECURITY block after reset (R487); what the management partition and the eFuses hold is DESIGN CHOICE (log 8). -/
def Security.reset : Security where
  bootStatus := 0
  counter := 0
  fallback := false
  slotB := false
  fwOk := false
  stageLo := 0
  stageHi := 0
  stageSize := 0
  fwResult := 0
  fwBusy := false
  fwFrom := 0
  fwSize := 0
  instResult := 0
  instActive := false
  instMode := false
  progress := 0
  fwSlots := (none, none)
  fwRunning := none
  preferB := false
  manifest := none
  owner := none
  install := none
  bootId := 0
  kemDraw := 0

/-- A media engine after reset (R433 to R436). -/
def MediaEngine.reset : MediaEngine := ⟨2, 0, 0, 0, 0, [], none, (0, 0), (0, 0), 0, 0⟩

/-- The command engine and the host port after reset (R459 to R464). -/
def Larcy.reset : Larcy where
  enable := false
  verFail := false
  ver := 0
  verMax := 0x30
  cqLog2 := 6
  sqLog2 := 6
  sq0Lo := 0
  sq0Hi := 0
  cq0Lo := 0
  cq0Hi := 0
  ctxs := []
  waiting := []
  queueFaults := 0
  evictions := 0
  drops := 0
  proto := 0
  width := 0
  rate := 0
  up := false
  d3hot := false
  nextJob := 1
  msixTable := []
  msixSent := []

/-- A slow input at a level, with its filter at rest. -/
def Filter.reset (level : Bool) : Filter := ⟨level, none, [], false⟩

/-- Power at t0 of a start (R514): rails up, PWR_GOOD and RESET_N high, nothing begun. The other levels are DESIGN CHOICE (log 8). -/
def Power.reset : Power where
  inputOk := true
  railsOn := true
  railFault := false
  refclk := true
  refclkStop := false
  pins := #v[Filter.reset true, Filter.reset true, Filter.reset false, Filter.reset false]
  thermTrip := false
  faultN := false
  ready := false
  phase := .reset
  dieTrip := false
  readyAt := 0
  t0 := 0
  nextCause := 0
  lostInput := true

/-- The module right after reset: every register at the value its rule gives; one partition, IDLE, beginning at H0 (R404, R405); the queue of commands empty. -/
def State.reset : State where
  pending := []
  now := 0
  freeCtr := 0
  reply := .none
  cores := Vector.replicate 512 Core.reset
  hearths := Vector.replicate 8 Hearth.reset
  tokens := []
  glb := Glb.reset
  parts := #v[Part.reset .idle, Part.reset .none, Part.reset .none, Part.reset .none,
    Part.reset .none, Part.reset .none, Part.reset .none, Part.reset .none]
  mem := Mem.reset
  fab := Fabric.reset
  sec := Security.reset
  media := Vector.replicate 2 MediaEngine.reset
  larcy := Larcy.reset
  chk := Vector.replicate 256 ⟨0, 0, 0, 0, 0, []⟩
  snoop := Vector.replicate 16 ⟨none, 0, 0, []⟩
  pwr := Power.reset

end Sys2Proof.Machine
end

