-- ==== Sys2Proof/Machine/Bits.lean ====
section
/-! DEFINITION. Bit fields, little-endian bytes (R4), and sparse maps in one canonical form: keys strictly rising, no entry equal to what an unlisted key reads as. -/

namespace Sys2Proof.Machine

/-- Bits `hi:lo` of a word, as a number. -/
def bits {w : Nat} (x : BitVec w) (hi lo : Nat) : Nat := (x.toNat >>> lo) % 2 ^ (hi + 1 - lo)

/-- Bit `i` of a word. -/
def bit {w : Nat} (x : BitVec w) (i : Nat) : Bool := x.toNat.testBit i

/-- Bytes `hi:lo` of a little-endian record, as a number (R4). -/
def bytesField {w : Nat} (x : BitVec w) (hi lo : Nat) : Nat := bits x (8 * hi + 7) (8 * lo)

/-- A number read as a signed value of `w` bits. -/
def toSigned (w n : Nat) : Int := if n % 2 ^ w < 2 ^ (w - 1) then (n % 2 ^ w : Nat) else (n % 2 ^ w : Nat) - (2 : Int) ^ w

/-- Sign extension of a 32-bit immediate to 64 bits (R130). -/
def sext (imm : W32) : W64 := imm.signExtend 64

/-- A saturating counter field of `w` bits. -/
def satAdd {w : Nat} (x : BitVec w) (n : Nat) : BitVec w := BitVec.ofNat w (min (x.toNat + n) (2 ^ w - 1))

/-- Little-endian value of a byte list (R4). -/
def leNat : List Byte → Nat
  | [] => 0
  | b :: r => b.toNat + 256 * leNat r

/-- The `k` little-endian bytes of a number (R4). -/
def toLE (n : Nat) : Nat → List Byte
  | 0 => []
  | k + 1 => BitVec.ofNat 8 n :: toLE (n / 256) k

/-- Bytes `lo` to `lo + n - 1` of a byte list as a little-endian number; bytes past the end read 0. -/
def leAt (bs : List Byte) (lo n : Nat) : Nat := leNat ((bs.drop lo).take n)

/-- The bytes of a string, for the labels and context strings of 16_security_and_attestation.md. -/
def ascii (s : String) : List Byte := s.toList.map fun c => BitVec.ofNat 8 c.toNat

/-- `x / y`, rounded up. -/
def ceilDiv (x y : Nat) : Nat := (x + y - 1) / y

/-- `x` rounded up to a multiple of `y`. -/
def roundUp (x y : Nat) : Nat := ceilDiv x y * y

/-- A sparse map: what key `k` reads as, `z` where unlisted. -/
def tget {α : Type} (z : α) : List (Nat × α) → Nat → α
  | [], _ => z
  | (k, x) :: r, a => if a = k then x else if a < k then z else tget z r a

/-- A sparse map with key `a` set to `y`, in canonical form. -/
def tset {α : Type} [DecidableEq α] (z : α) : List (Nat × α) → Nat → α → List (Nat × α)
  | [], a, y => if y = z then [] else [(a, y)]
  | (k, x) :: r, a, y =>
    if a < k then (if y = z then (k, x) :: r else (a, y) :: (k, x) :: r)
    else if a = k then (if y = z then r else (a, y) :: r)
    else (k, x) :: tset z r a y

/-- The canonical form: every key above `lo`, keys strictly rising, no default entry. -/
def twf {α : Type} [DecidableEq α] (z : α) : Option Nat → List (Nat × α) → Bool
  | _, [] => true
  | lo, (k, x) :: r => (match lo with | none => true | some l => decide (l < k)) && decide (x ≠ z) && twf z (some k) r

/-- The canonical form of a byte memory. -/
def Memory.wf (m : List Host.Cell) : Bool := twf (0 : Byte) none m

/-- One byte of a memory; an unlisted address reads 0 (log 6). -/
def readByte (m : List Host.Cell) (a : Nat) : Byte := tget 0 m a

/-- A memory with one byte written. -/
def writeByte (m : List Host.Cell) (a : Nat) (b : Byte) : List Host.Cell := tset 0 m a b

/-- `n` bytes from address `a` upward. -/
def readBytes (m : List Host.Cell) (a n : Nat) : List Byte := (List.range n).map fun i => readByte m (a + i)

/-- A memory with bytes written from address `a` upward. -/
def writeBytes (m : List Host.Cell) : Nat → List Byte → List Host.Cell
  | _, [] => m
  | a, b :: r => writeBytes (writeByte m a b) (a + 1) r

/-- A memory with the enabled bytes written from address `a` upward; `none` leaves a byte. -/
def writeMasked (m : List Host.Cell) : Nat → List (Option Byte) → List Host.Cell
  | _, [] => m
  | a, none :: r => writeMasked m (a + 1) r
  | a, some b :: r => writeMasked (writeByte m a b) (a + 1) r

/-- A memory with every byte of `[lo, hi)` zero. -/
def clearRange (m : List Host.Cell) (lo hi : Nat) : List Host.Cell := m.filter fun c => !(decide (lo ≤ c.1) && decide (c.1 < hi))

/-- The 64-byte record at an address, byte 0 lowest (R87). -/
def readDesc (m : List Host.Cell) (a : Nat) : Desc := BitVec.ofNat 512 (leNat (readBytes m a 64))

/-- A list with entry `i` replaced by its image. -/
def modifyAt {α : Type} (f : α → α) : List α → Nat → List α
  | [], _ => []
  | x :: r, 0 => f x :: r
  | x :: r, i + 1 => x :: modifyAt f r i

end Sys2Proof.Machine
end

