-- ==== Sys2Proof/Machine/Crc.lean ====
section
/-! DEFINITION. The four cyclic redundancy checks of the check-value units and of the link layer (R489, R490, R495). -/

namespace Sys2Proof.Machine

/-- R489: width of an algorithm. -/
def crcWidth (poly : BitVec 2) : Nat := match poly.toNat with | 2 => 64 | 3 => 16 | _ => 32

/-- R489: all ones of the width, the init of every algorithm. -/
def crcInit (poly : BitVec 2) : BitVec 64 := BitVec.ofNat 64 (2 ^ crcWidth poly - 1)

/-- R489: the reflected polynomials; CRC-16/CCITT-FALSE is not reflected. -/
def crcPoly (poly : BitVec 2) : BitVec 64 := match poly.toNat with
  | 0 => 0x82F63B78
  | 1 => 0xEDB88320
  | 2 => 0xC96C5795D7870F42
  | _ => 0x1021

/-- One bit of a reflected algorithm. -/
def crcBitR (p v : BitVec 64) : BitVec 64 := if v.getLsbD 0 then (v >>> 1) ^^^ p else v >>> 1

/-- One bit of CRC-16/CCITT-FALSE. -/
def crcBit16 (v : BitVec 64) : BitVec 64 := (if v.getLsbD 15 then (v <<< 1) ^^^ 0x1021 else v <<< 1) &&& 0xFFFF

/-- A function applied `n` times. -/
def iterate {α : Type} (f : α → α) : Nat → α → α
  | 0, x => x
  | n + 1, x => iterate f n (f x)

/-- R489, R495: one byte absorbed into the running value. -/
def crcByte (poly : BitVec 2) (v : BitVec 64) (b : Byte) : BitVec 64 :=
  if poly = 3 then iterate crcBit16 8 (v ^^^ (b.setWidth 64 <<< 8))
  else iterate (crcBitR (crcPoly poly)) 8 (v ^^^ b.setWidth 64)

/-- Bytes absorbed in order. -/
def crcBytes (poly : BitVec 2) (v : BitVec 64) (bs : List Byte) : BitVec 64 := bs.foldl (crcByte poly) v

/-- R495: the result of a running value. -/
def crcResult (poly : BitVec 2) (v : BitVec 64) : BitVec 64 := if poly = 3 then v else v ^^^ crcInit poly

/-- R490: the check value of bytes under a fold word. -/
def crcFolded (poly : BitVec 2) (fold : BitVec 64) (bs : List Byte) : BitVec 64 :=
  crcResult poly (crcBytes poly (crcInit poly) (toLE fold.toNat 8 ++ bs))

/-- R364: CRC-32C of bytes. -/
def crc32c (bs : List Byte) : W32 := (crcResult 0 (crcBytes 0 (crcInit 0) bs)).setWidth 32

/-! Keys and certificates as bytes (R466, R467) -/

/-- A byte string of a given length: what an external standard makes of that size. -/
def sized (n : Nat) (bs : List Byte) : List Byte := (bs ++ List.replicate n 0).take n

/-- R467: the 3,756 bytes of the identity certificate. -/
def certificate : List Byte :=
  toLE 0x54524345 4 ++ toLE Config.serial.toNat 16 ++ toLE Config.vendorKeyId.toNat 2 ++ toLE 0 2 ++ sized 1312 Config.identityPublicKey ++ sized 2420 Config.certificateSignature

end Sys2Proof.Machine
end

