-- ==== Sys2Proof/Machine/Formats.lean ====
section
/-! DEFINITION. Number formats, block scales, conversion and rounding: 02_number_formats.md, R31 to R49. Values are exact rationals; every rounding is explicit. -/

namespace Sys2Proof.Machine

/-- An exact value with the special values of R33; a zero keeps its sign (R35). -/
inductive Num where
  | nan
  | inf (neg : Bool)
  | fin (neg : Bool) (mag : Rat)
  deriving DecidableEq

/-- The signed value of a sign and a magnitude. -/
def signed (neg : Bool) (mag : Rat) : Rat := if neg then -mag else mag

/-- An exact value of a rational; zero is +0. -/
def Num.ofRat (q : Rat) : Num := if q < 0 then .fin true (-q) else .fin false q

/-- The rational of a finite value, 0 otherwise. -/
def Num.toRat : Num → Rat
  | .fin n m => signed n m
  | _ => 0

/-- Whether a value is finite. -/
def Num.isFin : Num → Bool
  | .fin _ _ => true
  | _ => false

/-- Two to an integer power. -/
def pow2 (k : Int) : Rat := if 0 ≤ k then ((2 ^ k.toNat : Nat) : Rat) else 1 / ((2 ^ (-k).toNat : Nat) : Rat)

/-- floor(log2 q) of a positive rational. -/
def ilog2 (q : Rat) : Int :=
  let n := q.num.toNat
  let e : Int := (Nat.log2 n : Int) - (Nat.log2 q.den : Int)
  if 0 ≤ e then (if n < q.den <<< e.toNat then e - 1 else e)
  else (if n <<< (-e).toNat < q.den then e - 1 else e)

/-- Sum under IEEE 754 rules on exact values (R234). A zero sum is −0 only when both addends are negative zeros. -/
def Num.add : Num → Num → Num
  | .nan, _ => .nan
  | _, .nan => .nan
  | .inf a, .inf b => if a = b then .inf a else .nan
  | .inf a, _ => .inf a
  | _, .inf b => .inf b
  | .fin a x, .fin b y =>
    let s := signed a x + signed b y
    if s = 0 then .fin (a && b && x = 0 && y = 0) 0 else Num.ofRat s

/-- The value with its sign inverted. -/
def Num.neg : Num → Num
  | .nan => .nan
  | .inf a => .inf !a
  | .fin a x => .fin (!a) x

/-- Product under IEEE 754 rules on exact values (R69, R234). The product of two infinities, which R69 does not give, and the sign of a zero product are DESIGN CHOICE (log 45): the exclusive-or of the signs. -/
def Num.mul : Num → Num → Num
  | .nan, _ => .nan
  | _, .nan => .nan
  | .inf a, .inf b => .inf (a != b)
  | .inf a, .fin b y => if y = 0 then .nan else .inf (a != b)
  | .fin a x, .inf b => if x = 0 then .nan else .inf (a != b)
  | .fin a x, .fin b y => .fin (a != b) (x * y)

/-- A floating-point encoding: exponent and mantissa widths, bias, and which special encodings it has (R31, R33). -/
structure Flt where
  ebits : Nat
  mbits : Nat
  bias : Int
  /-- 0: no specials; 1: infinity and NaN at the top exponent; 2: only all-ones is NaN. -/
  special : Nat
  deriving DecidableEq, Repr

/-- R31: the floating-point formats by FMT code. -/
def fltOf : Nat → Option Flt
  | 0 => some ⟨8, 23, 127, 1⟩
  | 1 => some ⟨8, 7, 127, 1⟩
  | 2 => some ⟨5, 10, 15, 1⟩
  | 3 => some ⟨4, 3, 7, 2⟩
  | 4 => some ⟨5, 2, 15, 1⟩
  | 5 => some ⟨3, 2, 3, 0⟩
  | 6 => some ⟨2, 3, 1, 0⟩
  | 7 => some ⟨2, 1, 1, 0⟩
  | _ => none

/-- R31: the width in bits of a format's elements. -/
def fmtWidth : Nat → Nat
  | 0 => 32
  | 1 => 16
  | 2 => 16
  | 3 => 8
  | 4 => 8
  | 5 => 6
  | 6 => 6
  | 7 => 4
  | 8 => 8
  | 9 => 4
  | _ => 0

/-- R31: codes 0xA to 0xF are reserved. -/
def fmtReserved (f : Nat) : Bool := decide (9 < f)

/-- R36: formats with an E8M0 block scale. -/
def isE8M0 (f : Nat) : Bool := decide (3 ≤ f) && decide (f ≤ 7)

/-- R37: formats with an FP16 block scale. -/
def isInt (f : Nat) : Bool := decide (f = 8) || decide (f = 9)

/-- R31: formats stored without a block scale. -/
def isPlain (f : Nat) : Bool := decide (f ≤ 2)

/-- The binary32 encoding. -/
def f32 : Flt := ⟨8, 23, 127, 1⟩
/-- The BF16 encoding. -/
def bf16 : Flt := ⟨8, 7, 127, 1⟩
/-- The FP16 encoding. -/
def fp16 : Flt := ⟨5, 10, 15, 1⟩

/-- M_f, the largest finite value (R33). -/
def Flt.maxFinite (f : Flt) : Rat :=
  match f.special with
  | 1 => (2 - pow2 (-(f.mbits : Int))) * pow2 ((2 ^ f.ebits : Nat) - 2 - f.bias)
  | 2 => (2 - pow2 (1 - (f.mbits : Int))) * pow2 ((2 ^ f.ebits : Nat) - 1 - f.bias)
  | _ => (2 - pow2 (-(f.mbits : Int))) * pow2 ((2 ^ f.ebits : Nat) - 1 - f.bias)

/-- The smallest normal magnitude (R33). -/
def Flt.minNormal (f : Flt) : Rat := pow2 (1 - f.bias)

/-- R32, R33: the value of an encoding. -/
def Flt.decode (f : Flt) (x : Nat) : Num :=
  let s := x.testBit (f.ebits + f.mbits)
  let e := (x >>> f.mbits) % 2 ^ f.ebits
  let m := x % 2 ^ f.mbits
  let top := 2 ^ f.ebits - 1
  if f.special = 1 ∧ e = top then (if m = 0 then .inf s else .nan)
  else if f.special = 2 ∧ e = top ∧ m = 2 ^ f.mbits - 1 then .nan
  else if e = 0 then .fin s ((m : Rat) * pow2 (1 - f.bias - f.mbits))
  else .fin s (((2 ^ f.mbits + m : Nat) : Rat) * pow2 ((e : Int) - f.bias - f.mbits))

/-- The encoding of a representable finite magnitude with a sign. -/
def Flt.encode (f : Flt) (neg : Bool) (mag : Rat) : Nat :=
  let sign := if neg then 2 ^ (f.ebits + f.mbits) else 0
  if mag = 0 then sign
  else
    let e := max (ilog2 mag) (1 - f.bias)
    let u := (mag * pow2 ((f.mbits : Int) - e)).floor.toNat
    if u < 2 ^ f.mbits then sign + u
    else sign + (e + f.bias).toNat * 2 ^ f.mbits + (u - 2 ^ f.mbits)

/-- R34: the canonical NaN. -/
def Flt.nanCode (f : Flt) : Nat :=
  if f.special = 2 then (2 ^ f.ebits - 1) * 2 ^ f.mbits + (2 ^ f.mbits - 1)
  else if f.mbits = 2 then (2 ^ f.ebits - 1) * 2 ^ f.mbits + 3
  else (2 ^ f.ebits - 1) * 2 ^ f.mbits + 2 ^ (f.mbits - 1)

/-- The infinity of a format that has one. -/
def Flt.infCode (f : Flt) (neg : Bool) : Nat :=
  (if neg then 2 ^ (f.ebits + f.mbits) else 0) + (2 ^ f.ebits - 1) * 2 ^ f.mbits

/-- R40, R47: rounding modes. -/
inductive Rnd where
  | rne | rtz | sr
  deriving DecidableEq, Repr

/-- R40: the RND field; 0b11 is reserved and reads as RNE where a reserved field is not checked. -/
def convRnd (conv : BitVec 4) : Rnd := match conv.toNat % 4 with | 1 => .rtz | 2 => .sr | _ => .rne

/-- R40: the OVF field, 1 for NAN. -/
def convNan (conv : BitVec 4) : Bool := conv.toNat.testBit 2

/-- R40: bit 3 and RND 0b11 are reserved. -/
def convReserved (conv : BitVec 4) : Bool := conv.toNat.testBit 3 || decide (conv.toNat % 4 = 3)

/-- R47: the integer that replaces a non-negative exact quotient. -/
def roundQ (rnd : Rnd) (rho : Nat) (x : Rat) : Nat :=
  let q := x.floor.toNat
  let f := x - q
  match rnd with
  | .rtz => q
  | .rne => if f < 1 / 2 then q else if 1 / 2 < f then q + 1 else if q % 2 = 0 then q else q + 1
  | .sr => if rho < (f * 65536).floor.toNat then q + 1 else q

/-- R42 step 2: a magnitude rounded to a format's grid, the exponent unbounded above. -/
def Flt.round (f : Flt) (rnd : Rnd) (rho : Nat) (mag : Rat) : Rat :=
  if mag = 0 then 0
  else
    let u := max (ilog2 mag) (1 - f.bias) - f.mbits
    (roundQ rnd rho (mag * pow2 (-u)) : Rat) * pow2 u

/-- R42 to R44 for FP32, BF16 and FP16: one rounding under CONV, the overflow and non-finite results of R44. -/
def Flt.convert (f : Flt) (conv : BitVec 4) (rho : Nat) : Num → Nat
  | .nan => f.nanCode
  | .inf s => if convNan conv then f.infCode s else f.encode s f.maxFinite
  | .fin s m =>
    let r := f.round (convRnd conv) rho m
    if f.maxFinite < r then (if convNan conv then f.infCode s else f.encode s f.maxFinite) else f.encode s r

/-- R41 without a CONV field: one RNE rounding to FP32, overflow to infinity. -/
def rne32 (x : Num) : W32 :=
  BitVec.ofNat 32 (match x with
    | .nan => f32.nanCode
    | .inf s => f32.infCode s
    | .fin s m => let r := f32.round .rne 0 m; if f32.maxFinite < r then f32.infCode s else f32.encode s r)

/-- The value of an FP32 word. -/
def ofF32 (w : W32) : Num := f32.decode w.toNat

/-- R32, R33, R39: an element's value by format, without scales. -/
def decodeElem (fmt x : Nat) : Num :=
  match fltOf fmt with
  | some f => f.decode x
  | none => Num.ofRat (toSigned (fmtWidth fmt) x : Int)

/-- R36, R37: the value of a block scale; `none` makes the block NaN. -/
def decodeScale (fmt x : Nat) : Option Rat :=
  if isE8M0 fmt then (if x = 255 then none else some (pow2 ((x : Int) - 127)))
  else if isInt fmt then
    match fp16.decode x with
    | .fin s m => if s && decide (m ≠ 0) then none else some m
    | _ => none
  else some 1

/-- R39 without t: an element of a block, `e × b`. A zero from a zero scale keeps the element's sign, DESIGN CHOICE (log 45). -/
def blockValue (fmt scale x : Nat) : Num :=
  match decodeScale fmt scale with
  | none => .nan
  | some b => (decodeElem fmt x).mul (.fin false b)

/-- The same exact value multiplied by a per-tensor scale (R39). -/
def scaled (t : Rat) (x : Num) : Num := x.mul (.fin false t)

/-- R48: the ember generator, modulo 2^64. -/
def ember (seed tid idx dom : Nat) : Nat :=
  let m := 2 ^ 64
  let key := seed ^^^ (tid * 0x9E3779B97F4A7C15 % m) ^^^ (dom * 2 ^ 56 % m)
  let z := (idx + key) % m
  let z := (z ^^^ (z >>> 30)) * 0xBF58476D1CE4E5B9 % m
  let z := (z ^^^ (z >>> 27)) * 0x94D049BB133111EB % m
  z ^^^ (z >>> 31)

/-- R48: the stochastic value of an element, bits 63:48. -/
def rhoOf (seed tid idx : Nat) : Nat := ember seed tid idx 0 >>> 48

/-- A list sorted with the largest first, by insertion. -/
def insertDesc (x : Rat) : List Rat → List Rat
  | [] => [x]
  | y :: r => if y ≤ x then x :: y :: r else y :: insertDesc x r

/-- R45, R205: the reference magnitude of a block: the largest finite |x / t|, or under slag the k-th largest. -/
def refMag (slagK : Option Nat) (t : Rat) (xs : List Num) : Rat :=
  let ms := (xs.filterMap fun x => match x with | .fin _ m => some (m / t) | _ => none).foldr insertDesc []
  let top := ms.headD 0
  match slagK with
  | none => top
  | some k => if (ms.filter fun m => decide (m ≠ 0)).length < k then top else (ms[k - 1]?).getD top

/-- The largest finite element magnitude a block target holds: M_f, or 127 and 7 (R43, R45). -/
def elemMax (fmt : Nat) : Rat :=
  match fltOf fmt with
  | some f => f.maxFinite
  | none => if fmt = 8 then 127 else 7

/-- R45: the scale field chosen from r, and whether it overflowed. -/
def chooseScale (fmt : Nat) (r : Rat) : Nat × Bool :=
  if isE8M0 fmt then
    if r = 0 then (0, false)
    else
      let y := r / elemMax fmt
      let k := if pow2 (ilog2 y) = y then ilog2 y else ilog2 y + 1
      if k < -127 then (0, false) else if 127 < k then (0xFE, true) else ((k + 127).toNat, false)
  else
    let y := r / elemMax fmt
    if y = 0 then (0, false)
    else if 65504 < y then (fp16.encode false 65504, true)
    else
      let u := max (ilog2 y) (-14) - 10
      (fp16.encode false (((y * pow2 (-u)).ceil : Rat) * pow2 u), false)

/-- R36, R37: the scale field that makes a block NaN (R44). -/
def nanScale (fmt : Nat) : Nat := if isE8M0 fmt then 0xFF else 0x7E00

/-- R42 to R44 for one element of a block: its field, and whether it makes the block NaN. `b` is the scale's value. -/
def convertElem (fmt : Nat) (conv : BitVec 4) (rho : Nat) (b t : Rat) (x : Num) : Nat × Bool :=
  match fltOf fmt with
  | some f =>
    let sat (s : Bool) : Nat × Bool :=
      if f.special = 0 then (f.encode s f.maxFinite, convNan conv)
      else if convNan conv then ((if f.special = 2 then f.nanCode else f.infCode s), false)
      else (f.encode s f.maxFinite, false)
    match x with
    | .nan => (0, true)
    | .inf s => sat s
    | .fin s m =>
      let r := f.round (convRnd conv) rho (m / (b * t))
      if f.maxFinite < r then sat s else (f.encode s r, false)
  | none =>
    let q := elemMax fmt
    let put (s : Bool) (n : Nat) : Nat := (2 ^ fmtWidth fmt - (if s then n else 0) + (if s then 0 else n)) % 2 ^ fmtWidth fmt
    match x with
    | .nan => (0, true)
    | .inf s => (put s q.floor.toNat, convNan conv)
    | .fin s m =>
      let n := roundQ (convRnd conv) rho (m / (b * t))
      if q < (n : Rat) then (put s q.floor.toNat, convNan conv) else (put s n, false)

/-- A slag entry before placement: element position, BF16 value, INEXACT (R206, R207). -/
structure SlagItem where
  pos : Nat
  value : Nat
  inexact : Bool
  deriving DecidableEq, Repr

/-- A converted block: scale field, element fields, slag. -/
structure BlockOut where
  scale : Nat
  elems : List Nat
  slag : List SlagItem
  deriving DecidableEq, Repr

/-- R206: the slag entry of an element: x / t in BF16 under the write's CONV. -/
def slagItem (conv : BitVec 4) (t : Rat) (pos rho : Nat) (x : Num) : SlagItem :=
  let y := x.mul (.fin false (1 / t))
  let v := bf16.convert conv rho y
  ⟨pos, v, decide (bf16.decode v ≠ y)⟩

/-- R46, R205, R206: a block conversion. Inputs come with their positions and stochastic values. -/
def convertBlock (fmt : Nat) (conv : BitVec 4) (t : Rat) (slagK : Option Nat) (xs : List (Num × Nat × Nat)) : BlockOut :=
  if xs.any fun x => decide (x.1 = .nan) then ⟨nanScale fmt, xs.map fun _ => 0, []⟩
  else
    let (sc, ovf) := chooseScale fmt (refMag slagK t (xs.map (·.1)))
    let b := (decodeScale fmt sc).getD 1
    let slagged (x : Num) : Bool := slagK.isSome && (match x with
      | .nan => false
      | .inf _ => true
      | .fin _ m => decide (elemMax fmt < m / (b * t)))
    let out := xs.map fun x => if slagged x.1 then (0, false) else convertElem fmt conv x.2.2 b t x.1
    let bad := (ovf && convNan conv) || out.any (·.2)
    ⟨if bad then nanScale fmt else sc, out.map (·.1),
      (xs.filter fun x => slagged x.1).map fun x => slagItem conv t x.2.1 x.2.2 x.1⟩

end Sys2Proof.Machine
end

