-- ==== Sys2Proof/Machine/Sfn.lean ====
section
/-! DEFINITION. Special functions: R223 to R231. The coefficient tables stand in silicon and are free (log 10); everything the evaluator does with them is R223's. -/

namespace Sys2Proof.Machine

/-- 2/π to 480 bits (R224); every input's reduced argument is decided by fewer. -/
def twoOverPi : Rat := (0xA2F9836E4E441529FC2757D1F534DDC0DB6295993C439041FE5163ABDEBBC561B7246E3A424DD2E006492EEA09D1921CFE1DEB1CB129A73EE88235F5 : Rat) / ((2 ^ 480 : Nat) : Rat)
/-- log2 e to 480 bits (R224). -/
def log2e : Rat := (0x171547652B82FE1777D0FFDA0D23A7D11D6AEF551BAD2B4B1164A2CD9A342648FBC3887EEAA2ED9AC49B25EEB82D7C167D52173CC1895213F897F5E06 : Rat) / ((2 ^ 480 : Nat) : Rat)
/-- ln 2 to 480 bits (R225). -/
def ln2 : Rat := (0xB17217F7D1CF79ABC9E3B39803F2F6AF40F343267298B62D8A0D175B8BAAFA2BE7B876206DEBAC98559552FB4AFA1B10ED2EAE35C138214427573B29 : Rat) / ((2 ^ 480 : Nat) : Rat)

/-- R223: one rounding to FP40, RNE, exponent unbounded. -/
def fp40 (x : Rat) : Rat :=
  if x = 0 then 0
  else
    let m := if x < 0 then -x else x
    let u := pow2 (ilog2 m - 31)
    let r := (roundQ .rne 0 (m / u) : Rat) * u
    if x < 0 then -r else r

/-- R223, R230: the value of a coefficient word. -/
def coeff (table segment j : Nat) : Rat :=
  let c : Nat := (Config.sfnCoeff table segment j).toNat
  let e : Nat := (c >>> 31) % 256
  let m : Nat := c % 2 ^ 31
  let mag : Rat := if e = 0 then ((m : Nat) : Rat) * pow2 (-157) else (((2 ^ 31 + m : Nat) : Nat) : Rat) * pow2 ((e : Int) - 158)
  if c.testBit 39 then -mag else mag

/-- R223, step 4: the polynomial of a segment at an offset. -/
def horner (table i : Nat) (r : Rat) : Rat :=
  let c := coeff table i
  let p := fp40 (c 4 + r * c 5)
  let p := fp40 (c 3 + r * p)
  let p := fp40 (c 2 + r * p)
  let p := fp40 (c 1 + r * p)
  fp40 (c 0 + r * p)

/-- R223 steps 1 to 4: a table of `n` segments over `[lo, lo + n × w)` evaluated at an exact argument. An argument that rounds to the upper end takes the last segment (R228). -/
def poly (table n : Nat) (lo w : Rat) (x : Rat) : Rat :=
  let a := fp40 x
  let i := min ((a - lo) / w).floor.toNat (n - 1)
  horner table i (fp40 (a - (lo + i * w)))

/-- R224: exp2 of an exact argument, as an FP40 value. Integers are exact (R226). -/
def exp2v (x : Rat) : Rat :=
  let n := x.floor
  if x = n then pow2 n else pow2 n * poly 0 64 0 (1 / 64) (x - n)

/-- R224: sigmoid of a finite argument. -/
def sigmoidv (x : Rat) : Rat :=
  if 18 ≤ x then 1 else if x < -17 then exp2v (fp40 (x * log2e)) else poly 8 64 (-17) (35 / 64) x

/-- R224: sin and cos of k + g quarter turns, `cosine` telling which; g in [0, 1). -/
def quadrant (cosine : Bool) (k : Nat) (g : Rat) : Rat :=
  let k := if cosine then k + 1 else k
  let s := if g ≤ 1 / 2 then poly 5 32 0 (1 / 64) g else poly 6 32 0 (1 / 64) (1 - g)
  let c := if g ≤ 1 / 2 then poly 6 32 0 (1 / 64) g else poly 5 32 0 (1 / 64) (1 - g)
  match k % 4 with
  | 0 => s
  | 1 => c
  | 2 => -s
  | _ => -c

/-- What an evaluation gives before the output rounding. -/
inductive SfnVal where
  | nan
  | inf (neg : Bool)
  | zero (neg : Bool)
  | val (x : Rat)
  deriving DecidableEq

/-- R224, R226: the twelve functions at a finite non-zero input. -/
def sfnFinite (fn : Nat) (x : Rat) : SfnVal :=
  let m := if x < 0 then -x else x
  let e := ilog2 m
  let neg := decide (x < 0)
  match fn with
  | 0 => if 128 ≤ x then .inf false else .val (exp2v x)
  | 1 => if neg then .nan else if m = pow2 e then .val e else .val (fp40 (e + poly 1 64 1 (1 / 64) (m / pow2 e)))
  | 2 => .val ((if neg then -1 else 1) * pow2 (-e) * (if m = pow2 e then 1 else poly 2 64 1 (1 / 64) (m / pow2 e)))
  | 3 =>
    if neg then .nan
    else
      let n := e / 2
      .val (pow2 (-n) * (if m = pow2 (2 * n) then 1 else poly 3 64 1 (3 / 64) (m / pow2 (2 * n))))
  | 4 =>
    if neg then .nan
    else
      let n := e / 2
      .val (pow2 n * (if m = pow2 (2 * n) then 1 else poly 4 64 1 (3 / 64) (m / pow2 (2 * n))))
  | 5 =>
    let u := m * twoOverPi
    let y := quadrant false (u.floor.toNat % 4) (u - u.floor)
    .val (if neg then -y else y)
  | 6 =>
    let u := m * twoOverPi
    .val (quadrant true (u.floor.toNat % 4) (u - u.floor))
  | 7 => let y := if 9 ≤ m then 1 else poly 7 64 0 (9 / 64) m; .val (if neg then -y else y)
  | 8 => .val (sigmoidv x)
  | 9 =>
    if 6 ≤ x then .val x
    else if x < -53 / 4 then .zero true
    else if neg then .val (fp40 (x * fp40 (exp2v (fp40 (-(x * x) * log2e / 2)) * poly 9 32 (-53 / 4) (53 / 128) x)))
    else .val (fp40 (x * poly 10 32 0 (3 / 16) x))
  | 10 => .val (fp40 (x * sigmoidv x))
  | _ => if 17 ≤ x then .val x else if x < -17 then .val (exp2v (fp40 (x * log2e))) else .val (poly 11 64 (-17) (17 / 32) x)

/-- R225: special inputs; finite non-zero inputs go to R224. -/
def sfnEval (fn : Nat) : Num → SfnVal
  | .nan => .nan
  | .inf false =>
    match fn with
    | 2 => .zero false
    | 3 => .zero false
    | 5 => .nan
    | 6 => .nan
    | 7 => .val 1
    | 8 => .val 1
    | _ => .inf false
  | .inf true =>
    match fn with
    | 0 => .zero false
    | 2 => .zero true
    | 7 => .val (-1)
    | 8 => .zero false
    | 9 => .zero true
    | 10 => .zero true
    | 11 => .zero false
    | _ => .nan
  | .fin s m =>
    if m = 0 then
      match fn with
      | 0 => .val 1
      | 1 => .inf true
      | 2 => .inf s
      | 3 => .inf s
      | 6 => .val 1
      | 8 => .val (1 / 2)
      | 11 => .val ln2
      | _ => .zero s
    else sfnFinite fn (signed s m)

/-- R223 step 6, R226, R227: the one output rounding, overflow to infinity, and the flush below the smallest normal. -/
def sfnRound (f : Flt) : SfnVal → Nat
  | .nan => f.nanCode
  | .inf s => f.infCode s
  | .zero s => f.encode s 0
  | .val x =>
    let s := decide (x < 0)
    let r := f.round .rne 0 (if x < 0 then -x else x)
    if f.maxFinite < r then f.infCode s else if r < f.minNormal then f.encode s 0 else f.encode s r

/-- R155: the output formats of OF. -/
def sfnOut (fmt : Nat) : Flt := match fmt with | 1 => bf16 | 2 => fp16 | _ => f32

/-- R155, R223 to R227: a special function on one lane. -/
def sfnLane (fn fmt : Nat) (x : W32) : W32 := BitVec.ofNat 32 (sfnRound (sfnOut fmt) (sfnEval fn (ofF32 x)))

/-- R230: segments of a table. -/
def tableSegments (t : Nat) : Nat := if t = 5 ∨ t = 6 ∨ t = 9 ∨ t = 10 then 32 else 64

/-- R230, R231: the selected coefficient word. -/
def coeffWord (table segment word : Nat) : W32 :=
  if tableSegments table ≤ segment then 0
  else
    let c := (Config.sfnCoeff table segment (word / 2)).toNat
    if word % 2 = 0 then BitVec.ofNat 32 c else BitVec.ofNat 32 ((c >>> 32) % 256)

end Sys2Proof.Machine
end

