-- ==== Sys2Proof/Machine/Billet.lean ====
section
/-! DEFINITION. Billets, anchors, the addends of a block pair and their exact sum: 03_billet_accumulation.md, R58 to R74. -/

namespace Sys2Proof.Machine

/-- What a billet stands for (R60). -/
inductive Bil where
  | fin (n : Int)
  | inf (neg : Bool)
  | nan
  deriving DecidableEq, Repr

/-- R60: the three special patterns. -/
def billetInf (neg : Bool) : Billet := BitVec.ofNat 192 (2 ^ 190 + if neg then 2 else 1)
/-- R60: the NaN pattern. -/
def billetNan : Billet := BitVec.ofNat 192 (2 ^ 190 + 3)

/-- R60: reading a billet; any other pattern with differing bits 191:190 is NaN. -/
def Bil.ofBillet (b : Billet) : Bil :=
  if b.getLsbD 191 = b.getLsbD 190 then .fin b.toInt
  else if b = billetInf false then .inf false
  else if b = billetInf true then .inf true
  else .nan

/-- R60: writing a billet. -/
def Bil.toBillet : Bil → Billet
  | .fin n => BitVec.ofInt 192 n
  | .inf s => billetInf s
  | .nan => billetNan

/-- R69: the table of combination; finite billets add modulo 2^192 (R72). -/
def Bil.add : Bil → Bil → Bil
  | .nan, _ => .nan
  | _, .nan => .nan
  | .fin a, .fin b => .fin (BitVec.ofInt 192 (a + b)).toInt
  | .fin _, .inf s => .inf s
  | .inf s, .fin _ => .inf s
  | .inf s, .inf t => if s = t then .inf s else .nan

/-- R72: one billet added to another. -/
def billetAdd (x y : Billet) : Billet := ((Bil.ofBillet x).add (Bil.ofBillet y)).toBillet

/-- R68: the integer nearest to an exact value, ties to even. -/
def rneInt (q : Rat) : Int :=
  let n := q.floor
  let f := q - n
  if f < 1 / 2 then n else if 1 / 2 < f then n + 1 else if n % 2 = 0 then n else n + 1

/-- R66 to R68: one addend, a value in units of 2^(A − 160), rounded on its own below bit 0. -/
def addend (anchor : Int) (v : Rat) : Int := rneInt (v * pow2 (160 - anchor))

/-- R66, R67, R69: the partial of a block pair from its 32 products. On the short path (`short` holds the two block scales) the sum of the products is scaled and rounded once; on the direct path every product is rounded. -/
def blockPartial (anchor : Int) (short : Option (Rat × Rat)) (ps : List Num) : Bil :=
  let special := ps.foldl (fun a p => match p with
    | .fin _ _ => a
    | .nan => a.add .nan
    | .inf s => a.add (.inf s)) (.fin 0)
  if special ≠ .fin 0 then special
  else match short with
    | some (sa, sb) => .fin (addend anchor ((ps.map Num.toRat).sum * sa * sb))
    | none => .fin ((ps.map fun p => addend anchor p.toRat).sum)

/-- R58: the exact value of a billet, `N × 2^(A − 160) × t_a × t_b`, with a special billet as the special value. -/
def Bil.value (anchor : Int) (t : Rat) : Bil → Num
  | .fin n => Num.ofRat ((n : Rat) * pow2 (anchor - 160) * t)
  | .inf s => .inf s
  | .nan => .nan

/-- R61, R62: the anchor from the two sides' largest EMAX (`none` where every header has 0x8000) and whether any header has NONFIN; `none` for a null-anchored group. -/
def groupAnchor (ea eb : Option Int) (nonfin : Bool) : Option Int :=
  if (ea.isNone || eb.isNone) && !nonfin then none else some (ea.getD 0 + eb.getD 0 + 2)

/-- The larger of two EMAX values, 0x8000 lowest. -/
def maxE : Option Int → Option Int → Option Int
  | none, y => y
  | x, none => x
  | some a, some b => some (max a b)

/-- R54: a signed 16-bit EMAX field; 0x8000 names a tile with no finite non-zero value. -/
def emaxOf (x : Nat) : Option Int := if x % 65536 = 0x8000 then none else some (toSigned 16 x)

/-- The 16-bit field of an EMAX. -/
def emaxField : Option Int → Nat
  | none => 0x8000
  | some e => (e % 65536).toNat

/-- A billet of a slot by position; unlisted positions hold N = 0. -/
def Slot.get (s : Slot) (p : Nat) : Billet := tget 0 s.billets p

/-- R108: whether one of `n` positions of a slot from `lo` has lost its parity. -/
def Slot.parityHit (s : Slot) (lo n : Nat) : Bool := s.bad.any fun p => decide (lo ≤ p) && decide (p < lo + n)

/-- A slot with one partial added at a position (R68, R69, R72). -/
def Slot.addAt (s : Slot) (p : Nat) (b : Bil) : Slot :=
  { s with billets := tset 0 s.billets p (((Bil.ofBillet (s.get p)).add b).toBillet) }

/-- R72, R73: every billet of a run added at its position, from the run's first. -/
def Slot.addRun (s : Slot) : Nat → List Billet → Slot
  | _, [] => s
  | p, b :: r => Slot.addRun (s.addAt p (Bil.ofBillet b)) (p + 1) r

/-- R72: whether a run's header names the slot's anchor, scales and NULL. -/
def runMatches (t : SlotTag) (r : BilletRun) : Bool :=
  decide (r.null = t.null) && decide (r.anchor = BitVec.ofInt 16 t.anchor) && decide (r.ta = t.ta) && decide (r.tb = t.tb)

/-- R71: whether a run's header names the slot's span pair; the header carries no row half (log 16). -/
def runGroup (t : SlotTag) (r : BilletRun) : Bool :=
  decide (t.group.row = r.row.toNat) && decide (t.group.col = r.col.toNat)

/-- R60, R71: the bytes of a billet, three words least significant first. -/
def billetBytes (b : Billet) : List Byte := toLE b.toNat 24

end Sys2Proof.Machine
end

