-- ==== Sys2Proof/Machine/Tiles.lean ====
section
/-! DEFINITION. Tile descriptors, tile records and headers, slag entries, and the write of part of a tile: R50 to R57, R87 to R92, R205 to R217. -/

namespace Sys2Proof.Machine

/-! Module addresses -/

/-- R298: the first address above HBM. -/
def hbmTop : Nat := 0x20000000000
/-- R298: the first address of the vault window. -/
def vaultBase : Nat := 0x100000000000
/-- R1, R298: the first address above the vault window. -/
def vaultTop : Nat := if Config.isA1 then 0x110000000000 else 0x140000000000
/-- R298: the first address of the host range. -/
def hostBase : Nat := 0x800000000000
/-- R298: the first address beyond the module address space. -/
def hostTop : Nat := 0x1000000000000
/-- R79: bytes of a scratchpad. -/
def spadSize : Nat := 0x400000
/-- R86: bytes of an instruction memory. -/
def imemSize : Nat := 0x40000

/-- R298: what bytes at a module address hold, the access itself being admitted elsewhere. -/
def Mem.read (m : Mem) (a n : Nat) : List Byte :=
  if a < hbmTop then readBytes m.hbm a n
  else if a < hostBase then readBytes m.vault (a - vaultBase) n
  else readBytes m.host (a - hostBase) n

/-- Whether a span touches a word whose parity fails (R108, R306). -/
def parityHit (bad : List Nat) (a n : Nat) : Bool := bad.any fun w => decide (a < 4 * w + 4) && decide (4 * w < a + n)

/-- A list of upset words without those that a write of `n` bytes at `a` covers: their parity is written anew (R108, R305, R306). -/
def freshParity (bad : List Nat) (a n : Nat) : List Nat := bad.filter fun x => !(decide (a ≤ 4 * x) && decide (4 * x + 4 ≤ a + n))

/-- Whether a write of `n` bytes at `a` reaches the word of a failed read (R306). -/
def Replay.covered (r : Replay) (a n : Nat) : Bool := decide (a < r.addr.toNat / 4 * 4 + 4) && decide (r.addr.toNat / 4 * 4 < a + n)

/-- R305, R306: what a write of `n` bytes of HBM does to parity: each whole word takes the bit that arrives with it, and a failed read of a word does not outlast the write. -/
def Mem.fresh (m : Mem) (a n : Nat) : Mem := { m with badHbm := freshParity m.badHbm a n, replays := m.replays.filter fun r => !r.covered a n }

/-- R298: bytes written at a module address, in HBM or host memory. -/
def Mem.write (m : Mem) (a : Nat) (bs : List Byte) : Mem :=
  if a < hbmTop then { m.fresh a bs.length with hbm := writeBytes m.hbm a bs }
  else if a < hostBase then m
  else { m with host := writeBytes m.host (a - hostBase) bs }

/-! Tile descriptors (R87) -/

/-- R87: FMT. -/
def dFmt (d : Desc) : Nat := bits d 3 0
/-- R87: LAYOUT. -/
def dLayout (d : Desc) : Nat := bits d 7 4
/-- R87: MODE. -/
def dMode (d : Desc) : Nat := bits d 9 8
/-- R87: TILE_ORDER. -/
def dOrder (d : Desc) : Bool := bit d 10
/-- R87: SLAG_EN. -/
def dSlagEn (d : Desc) : Bool := bit d 11
/-- R87: AUTOWIDEN. -/
def dAutoWiden (d : Desc) : Bool := bit d 12
/-- R87: LOOP_HBM. -/
def dLoopHbm (d : Desc) : Nat := bits d 18 16
/-- R87: LOOP_SPAD. -/
def dLoopSpad (d : Desc) : Nat := bits d 21 19
/-- R87: LOOP_ACC. -/
def dLoopAcc (d : Desc) : Nat := bits d 24 22
/-- R87: ACC_MASK. -/
def dAccMask (d : Desc) : Nat := bits d 29 25
/-- R87: TID. -/
def dTid (d : Desc) : Nat := bytesField d 7 4
/-- R87: BASE. -/
def dBase (d : Desc) : Nat := bytesField d 13 8
/-- R87: SPACE. -/
def dSpace (d : Desc) : Nat := bytesField d 14 14
/-- R87: SLAG_K. -/
def dSlagK (d : Desc) : Nat := bits d 122 120
/-- R87: ROWS of a MAT. -/
def dRows (d : Desc) : Nat := bytesField d 19 16
/-- R87: RED of a MAT. -/
def dRed (d : Desc) : Nat := bytesField d 23 20
/-- R87: W. -/
def dW (d : Desc) : Nat := bytesField d 17 16
/-- R87: H. -/
def dH (d : Desc) : Nat := bytesField d 19 18
/-- R87: D. -/
def dD (d : Desc) : Nat := bytesField d 21 20
/-- R87: C. -/
def dC (d : Desc) : Nat := bytesField d 23 22
/-- R87: NSAMP. -/
def dN (d : Desc) : Nat := bytesField d 25 24
/-- R87: TSCALE. -/
def dTscale (d : Desc) : W32 := BitVec.ofNat 32 (bytesField d 31 28)
/-- R87: WIN_O0. -/
def dO0 (d : Desc) : Nat := bytesField d 35 32
/-- R87: WIN_ON. -/
def dON (d : Desc) : Nat := bytesField d 39 36
/-- R87: WIN_R0. -/
def dR0 (d : Desc) : Nat := bytesField d 43 40
/-- R87: WIN_RN. -/
def dRN (d : Desc) : Nat := bytesField d 47 44
/-- R87: POOL_BASE. -/
def dPool (d : Desc) : Nat := bytesField d 53 48
/-- R87: SLAG_CAP. -/
def dSlagCap (d : Desc) : Nat := bytesField d 59 56
/-- R87: ESC_CAP. -/
def dEscCap (d : Desc) : Nat := bytesField d 63 60

/-- R38: the per-tensor scale's value. -/
def dScale (d : Desc) : Rat := (ofF32 (dTscale d)).toRat

/-- R38: positive, finite and normal. -/
def tscaleOk (w : W32) : Bool :=
  let e := bits w 30 23
  !bit w 31 && decide (0 < e) && decide (e < 255)

/-- R50: the layouts and the formats they allow. -/
def admits (layout fmt : Nat) : Bool := !fmtReserved fmt && (decide (layout ≤ 1) || (decide (layout = 2) && isPlain fmt))

/-- R50: CB32 or CB16. -/
def isCB (d : Desc) : Bool := decide (dLayout d = 1) || decide (dLayout d = 2)

/-- R50, R90: positions per tile. -/
def layoutP (layout : Nat) : Nat := if layout = 2 then 256 else 128
/-- R50, R90: channels per block. -/
def layoutB (layout : Nat) : Nat := if layout = 2 then 16 else 32

/-- R52: the element slot of position `k` and index `j`. -/
def slotOf (layout j k : Nat) : Nat := j * layoutB layout + k

/-- R51: bytes of the scale area. -/
def scaleArea (fmt : Nat) : Nat := if isE8M0 fmt then 128 else if isInt fmt then 256 else 0
/-- R51: bytes of the element area. -/
def elemArea (fmt : Nat) : Nat := fmtWidth fmt * 512
/-- R51: bytes of a record. -/
def recSize (fmt : Nat) : Nat := roundUp (32 + scaleArea fmt + elemArea fmt) 64

/-- R90: W blocks of a line. -/
def dWB (d : Desc) : Nat := ceilDiv (dW d) (layoutP (dLayout d))
/-- R90: tiles along the other axis: row tiles, or pairs of line and W block. -/
def gridO (d : Desc) : Nat := if isCB d then dN d * dD d * dH d * dWB d else ceilDiv (dRows d) 128
/-- R90: reduction tiles or channel blocks. -/
def gridR (d : Desc) : Nat := if isCB d then ceilDiv (dC d) (layoutB (dLayout d)) else ceilDiv (dRed d) 32
/-- R87: lines, or row tiles, that WIN_O0 and WIN_ON count. -/
def gridLines (d : Desc) : Nat := if isCB d then dN d * dD d * dH d else gridO d

/-- R90, R263: whether tiles are numbered along the other axis first. A page's tiles are numbered by R263 whatever TILE_ORDER says. -/
def otherFirst (d : Desc) : Bool := dOrder d && !isCB d && decide (dMode d ≠ 2)

/-- R90, R263: TILE_INDEX of the tile at other-axis coordinate `o` and reduction coordinate `r`. -/
def tileIndex (d : Desc) (o r : Nat) : Nat := if otherFirst d then r * gridO d + o else o * gridR d + r

/-- R90: the coordinates of a tile. -/
def tileCoords (d : Desc) (i : Nat) : Nat × Nat :=
  if otherFirst d then (i % gridO d, i / gridO d) else (i / gridR d, i % gridR d)

/-- R87, R90: the window's first other-axis coordinate and their count. -/
def winO (d : Desc) : Nat × Nat := if isCB d then (dO0 d * dWB d, dON d * dWB d) else (dO0 d, dON d)

/-- R90: whether a tile lies in the window. -/
def inWindow (d : Desc) (o r : Nat) : Bool :=
  let (o0, on) := winO d
  decide (o0 ≤ o) && decide (o < o0 + on) && decide (dR0 d ≤ r) && decide (r < dR0 d + dRN d)

/-- R90: the number of tiles of the window. -/
def winCount (d : Desc) : Nat := (winO d).2 * dRN d

/-- R90: the position of a tile of the window in index order. -/
def winPos (d : Desc) (o r : Nat) : Nat :=
  let (o0, on) := winO d
  if otherFirst d then (r - dR0 d) * on + (o - o0) else (o - o0) * dRN d + (r - dR0 d)

/-- R90: the coordinates of the window's tiles, in index order. -/
def winTiles (d : Desc) : List (Nat × Nat) :=
  let (o0, on) := winO d
  if otherFirst d then
    (List.range (dRN d)).flatMap fun r => (List.range on).map fun o => (o0 + o, dR0 d + r)
  else
    (List.range on).flatMap fun o => (List.range (dRN d)).map fun r => (o0 + o, dR0 d + r)

/-- R172, R175: the coordinates of the window's tiles in the order in which a transfer requests them, by LOOP_HBM. -/
def reqTiles (d : Desc) : List (Nat × Nat) :=
  let (o0, on) := winO d
  if 3 ≤ dLoopHbm d then (List.range (dRN d)).flatMap fun r => (List.range on).map fun o => (o0 + o, dR0 d + r)
  else (List.range on).flatMap fun o => (List.range (dRN d)).map fun r => (o0 + o, dR0 d + r)

/-- R90: where a tile's record lies, in module space or in the scratchpad. -/
def tileAddr (d : Desc) (o r : Nat) : Nat :=
  if dSpace d = 1 then dBase d + winPos d o r * recSize (dFmt d) else dBase d + tileIndex d o r * recSize (dFmt d)

/-- R49, R53: the logical index of an element of a tile; `none` for padding. -/
def logicalIndex (d : Desc) (o r slot : Nat) : Option Nat :=
  let b := layoutB (dLayout d)
  let j := slot / b
  let k := slot % b
  if isCB d then
    let line := o / dWB d
    let w := (o % dWB d) * layoutP (dLayout d) + j
    let c := r * b + k
    if w < dW d ∧ c < dC d then
      let h := line % dH d
      let nd := line / dH d
      let dd := nd % dD d
      let n := nd / dD d
      some ((((n * dC d + c) * dD d + dd) * dH d + h) * dW d + w)
    else none
  else
    let row := o * 128 + j
    let col := r * 32 + k
    if row < dRows d ∧ col < dRed d then some (row * dRed d + col) else none

/-- R87: whether a field of the descriptor holds a reserved encoding. -/
def descReserved (d : Desc) : Bool :=
  fmtReserved (dFmt d) || decide (2 < dLayout d) || decide (dMode d = 3) || decide (bits d 15 13 ≠ 0)
  || decide (5 < dLoopHbm d) || decide (5 < dLoopSpad d) || decide (5 < dLoopAcc d) || decide (bits d 31 30 ≠ 0)
  || decide (1 < dSpace d) || decide (bits d 127 123 ≠ 0) || decide (bytesField d 27 26 ≠ 0) || decide (bytesField d 55 54 ≠ 0)

/-- R91: the check at load of a descriptor into register `n`. -/
def descOk (n : Fin 16) (d : Desc) : Bool :=
  !descReserved d && admits (dLayout d) (dFmt d) && tscaleOk (dTscale d)
  && (isCB d || decide (dRed d ≤ 2 ^ 30))
  && (!dSlagEn d || (decide (1 ≤ dSlagK d) && decide (dSlagK d ≤ 4)))
  && decide (dO0 d + dON d ≤ gridLines d) && decide (dR0 d + dRN d ≤ gridR d)
  && !(dOrder d && isCB d) && (isCB d || decide (dN d = 0))
  && (decide (dSpace d ≠ 1) || decide (dBase d + winCount d * recSize (dFmt d) ≤ spadSize))
  && !(decide (dMode d = 1 ∨ dMode d = 2) && decide (n = 15))

/-- R87: the escape area's first byte. -/
def escBase (d : Desc) : Nat := roundUp (dPool d + dSlagCap d * 8) 64

/-- R51, R212: bytes of a BF16 record. -/
def bf16Rec : Nat := 8256

/-- R214: the alternate region of a module-space tensor. -/
def altBase (d : Desc) : Nat := roundUp (dBase d + gridO d * gridR d * recSize (dFmt d)) 4096

/-! Tile headers (R54), 32 bytes as a number -/

/-- R54: a tile header, byte 0 lowest. -/
abbrev Header := BitVec 256

/-- R54: FMT. -/
def hFmt (h : Header) : Nat := bits h 3 0
/-- R54: LAYOUT. -/
def hLayout (h : Header) : Nat := bits h 7 4
/-- R54: ESC. -/
def hEsc (h : Header) : Bool := bit h 8
/-- R54: WID. -/
def hWid (h : Header) : Bool := bit h 9
/-- R54: ZERO. -/
def hZero (h : Header) : Bool := bit h 10
/-- R54: NONFIN. -/
def hNonfin (h : Header) : Bool := bit h 11
/-- R54: EMAX. -/
def hEmax (h : Header) : Option Int := emaxOf (bytesField h 3 2)
/-- R54: SLAG_COUNT. -/
def hSlagCount (h : Header) : Nat := bytesField h 5 4
/-- R54: SLAG_FIRST. -/
def hSlagFirst (h : Header) : Nat := bytesField h 11 8
/-- R54: ESC_INDEX. -/
def hEscIndex (h : Header) : Nat := bytesField h 15 12
/-- R54: TILE_INDEX. -/
def hTileIndex (h : Header) : Nat := bytesField h 23 20
/-- R54: ALT_ADDR. -/
def hAlt (h : Header) : Nat := bytesField h 29 24

/-- What a producer says of a tile in its header (R54). -/
structure HeaderInfo where
  fmt : Nat
  layout : Nat
  esc : Bool
  wid : Bool
  zero : Bool
  nonfin : Bool
  emax : Option Int
  slagCount : Nat
  slagFirst : Nat
  escIndex : Nat
  epoch : BitVec 16
  producer : Nat
  index : Nat
  deriving DecidableEq, Repr

/-- R54: the 32 bytes of a header, ALT_ADDR 0. -/
def HeaderInfo.bytes (h : HeaderInfo) : List Byte :=
  toLE (h.fmt + 16 * h.layout) 1
  ++ toLE (h.esc.toNat + 2 * h.wid.toNat + 4 * h.zero.toNat + 8 * h.nonfin.toNat) 1
  ++ toLE (emaxField h.emax) 2 ++ toLE h.slagCount 2 ++ toLE 0 2 ++ toLE h.slagFirst 4 ++ toLE h.escIndex 4
  ++ toLE h.epoch.toNat 2 ++ toLE h.producer 2 ++ toLE h.index 4 ++ toLE 0 8

/-- R57: the consumer's check of a header. -/
def headerOk (d : Desc) (idx : Nat) (h : Header) : Bool :=
  admits (hLayout h) (hFmt h)
  && (decide (hFmt h = dFmt d) || (decide (hFmt h = 1) && hWid h))
  && decide (hSlagCount h ≤ 64) && decide (hTileIndex h = idx % 2 ^ 32)

/-! Reading tiles -/

/-- The memories a core's units act on: its scratchpad with its bad-parity words, the module's memory, and what a tile write reports (R215, R217). -/
structure Work where
  spad : List Host.Cell
  bad : List Nat
  mem : Mem
  widen : List (BitVec 32 × Desc)
  overs : List (BitVec 32 × BitVec 48)
  deriving DecidableEq, Repr

/-- Whether the module admits an access: write flag, address, length; the status where it does not. -/
abbrev Admit := Bool → Nat → Nat → Option Status

/-- DESCRIPTOR_INVALID. -/
def stDesc : Status := 0x0105
/-- TILE_HEADER_INVALID. -/
def stHeader : Status := 0x0106
/-- ADDRESS_INVALID. -/
def stAddr : Status := 0x0108
/-- PARITY_PERSISTENT. -/
def stParity : Status := 0x0101

/-- HBM_DATA_ERROR. -/
def stHbmData : Status := 0x0301

/-- R305, R306: whether a read meets an HBM word whose parity fails, and fails again at each replay. -/
def Mem.lost (m : Mem) (a n : Nat) : Bool := decide (a < hbmTop) && parityHit m.badHbm a n

/-- R306: an admission that also refuses reads of lost words. -/
def Mem.guard (m : Mem) (ok : Admit) : Admit := fun write a n => (ok write a n).or (if !write && m.lost a n then some stHbmData else none)

/-- A read of the core's scratchpad by a unit (R108). -/
def Work.rdSpad (w : Work) (a n : Nat) : Except Status (List Byte) :=
  if spadSize < a + n then .error stAddr
  else if parityHit w.bad a n then .error stParity
  else .ok (readBytes w.spad a n)

/-- A read of module space by a unit (R140, R298, R306). -/
def Work.rdMod (ok : Admit) (w : Work) (a n : Nat) : Except Status (List Byte) :=
  match w.mem.guard ok false a n with
  | some st => .error st
  | none => .ok (w.mem.read a n)

/-- A read in a descriptor's SPACE (R87). -/
def Work.rd (ok : Admit) (w : Work) (space a n : Nat) : Except Status (List Byte) :=
  if space = 1 then w.rdSpad a n else w.rdMod ok a n

/-- A write in a descriptor's SPACE (R87); it makes the words' parity good (R108). -/
def Work.wr (ok : Admit) (w : Work) (space a : Nat) (bs : List Byte) : Except Status Work :=
  if space = 1 then
    if spadSize < a + bs.length then .error stAddr
    else .ok { w with spad := writeBytes w.spad a bs, bad := freshParity w.bad a bs.length }
  else match ok true a bs.length with
    | some st => .error st
    | none => .ok { w with mem := w.mem.write a bs }

/-- A tile as a consumer sees it: the values' format, scale and element areas as bit strings, and whether it takes the direct path (R65, R140). -/
structure Tile where
  hdr : Header
  fmt : Nat
  layout : Nat
  scales : Nat
  elems : Nat
  direct : Bool
  /-- Slag entries: slot and BF16 value (R207). -/
  slag : List (Nat × Nat)
  deriving DecidableEq, Repr

/-- Field `i` of a bit string of `w`-bit fields (R52). -/
def field (x w i : Nat) : Nat := (x >>> (w * i)) % 2 ^ w

/-- R52: the scale field of a block. -/
def scaleField (fmt scales j : Nat) : Nat := if isE8M0 fmt then field scales 8 j else field scales 16 j

/-- R32: the element at a slot, without scales. -/
def Tile.elem (t : Tile) (slot : Nat) : Num := decodeElem t.fmt (field t.elems (fmtWidth t.fmt) slot)

/-- R36, R37: the value of the block scale at a slot; `none` for a NaN block. -/
def Tile.scaleAt (t : Tile) (slot : Nat) : Option Rat := decodeScale t.fmt (scaleField t.fmt t.scales (slot / 32))

/-- R39 with t = 1: the value `e × b`. -/
def Tile.value (t : Tile) (slot : Nat) : Num :=
  match t.scaleAt slot with
  | none => .nan
  | some b => (t.elem slot).mul (.fin false b)

/-- R208: the slag value where a slot has an entry, else `e × b`. -/
def Tile.full (t : Tile) (slot : Nat) : Num :=
  match t.slag.find? fun e => decide (e.1 = slot) with
  | some e => bf16.decode e.2
  | none => t.value slot

/-- The areas of a record's bytes (R51). -/
def parseTile (hdr : Header) (fmt layout : Nat) (direct : Bool) (bs : List Byte) : Tile :=
  ⟨hdr, fmt, layout, leNat ((bs.drop 32).take (scaleArea fmt)), leNat ((bs.drop (32 + scaleArea fmt)).take (elemArea fmt)), direct, []⟩

/-- R207: the entries of a byte string: slot, VALUE, TAG. -/
def parseSlag : Nat → List Byte → List (Nat × Nat × Nat)
  | 0, _ => []
  | n + 1, bs =>
    let x := leAt bs 0 8
    (x % 4096, (x >>> 32) % 65536, (x >>> 12) % 4096) :: parseSlag n (bs.drop 8)

/-- R142, R208, R209: a tile's slag entries from its descriptor's pool, each TAG checked. -/
def readSlag (ok : Admit) (w : Work) (d : Desc) (h : Header) (idx : Nat) : Except Status (List (Nat × Nat)) :=
  if hSlagCount h = 0 then .ok []
  else do
    let bs ← w.rdMod ok (dPool d + 8 * hSlagFirst h) (8 * hSlagCount h)
    let es := parseSlag (hSlagCount h) bs
    if es.any fun e => decide (e.2.2 ≠ idx % 4096) then .error stHeader else .ok (es.map fun e => (e.1, e.2.1))

/-- R56, R57, R140: a consumer's read of the tile with an index at an address of the descriptor's SPACE: the header check, then the record, its BF16 escape copy, or its alternate record. -/
def readTile (ok : Admit) (w : Work) (d : Desc) (idx addr : Nat) (slag : Bool) : Except Status Tile := do
  let hb ← w.rd ok (dSpace d) addr 32
  let h : Header := BitVec.ofNat 256 (leNat hb)
  if !headerOk d idx h then .error stHeader
  else if hEsc h then do
    let bs ← w.rdMod ok (escBase d + hEscIndex h * bf16Rec) bf16Rec
    .ok (parseTile h 1 (dLayout d) true bs)
  else if hWid h then do
    let at_ := if dSpace d = 1 then hAlt h else altBase d + idx * bf16Rec
    if at_ = 0 then .error stHeader
    else do
      let bs ← w.rdMod ok at_ bf16Rec
      .ok (parseTile h 1 (dLayout d) true bs)
  else do
    let bs ← w.rd ok (dSpace d) addr (recSize (dFmt d))
    let es ← if slag then readSlag ok w d h idx else .ok []
    .ok { parseTile h (dFmt d) (dLayout d) (isPlain (dFmt d)) bs with slag := es }

/-- The tile at coordinates of a descriptor's window. -/
def readWinTile (ok : Admit) (w : Work) (d : Desc) (o r : Nat) (slag : Bool) : Except Status Tile :=
  readTile ok w d (tileIndex d o r) (tileAddr d o r) slag

/-! Writing part of a tile -/

/-- What writes a tile: core, its epoch, the job seed, the write's CONV, and the tensor's alternate region (R48, R54, R215). -/
structure Writer where
  core : Nat
  epoch : BitVec 16
  seed : Nat
  conv : BitVec 4
  alt : Option Nat
  deriving DecidableEq, Repr

/-- R54, R55: EMAX, ZERO and NONFIN of values. -/
def summary (vs : List Num) : Option Int × Bool × Bool :=
  (vs.foldl (fun e v => match v with
      | .fin _ m => if m = 0 then e else maxE e (some (ilog2 m))
      | _ => e) none,
    vs.all fun v => match v with | .fin _ m => decide (m = 0) | _ => false,
    vs.any fun v => !v.isFin)

/-- Consecutive fields packed as a little-endian bit string (R52). -/
def packFields (w : Nat) : List Nat → Nat
  | [] => 0
  | x :: r => x % 2 ^ w + 2 ^ w * packFields w r

/-- R205: whether a write under the descriptor selects slag. -/
def slagging (d : Desc) : Bool := dSlagEn d && isE8M0 (dFmt d)

/-- R41 to R47, R205, R206: the blocks of a slot range converted; each slot's value is `none` where the element is padding (R53, R178). Answers the scale fields, the element fields and the slag. -/
def convertSlots (d : Desc) (o r : Nat) (wr : Writer) (lo n : Nat) (val : Nat → Option Num) :
    List Nat × List Nat × List SlagItem :=
  let rho (s : Nat) : Nat := match logicalIndex d o r s with
    | some i => if convRnd wr.conv = .sr then rhoOf wr.seed (dTid d) i else 0
    | none => 0
  match isPlain (dFmt d), fltOf (dFmt d) with
  | true, some f =>
    ([], (List.range n).map fun i => match val (lo + i) with
      | none => 0
      | some x => f.convert wr.conv (rho (lo + i)) (x.mul (.fin false (1 / dScale d))), [])
  | _, _ =>
    let bs := (List.range (n / 32)).map fun b =>
      let slots := (List.range 32).map fun i => lo + 32 * b + i
      convertBlock (dFmt d) wr.conv (dScale d) (if slagging d then some (dSlagK d) else none)
        (slots.map fun s => ((val s).getD (.fin false 0), s, rho s))
    (bs.map (·.scale), bs.flatMap (·.elems), bs.flatMap (·.slag))

/-- R212: the BF16 image of a narrow value, under RNE and SAT. -/
def bf16Image (x : Num) : Nat := bf16.convert 0 0 x

/-- R207: an entry's 8 bytes. -/
def slagBytes (idx : Nat) (e : SlagItem) : List Byte :=
  toLE (e.pos % 4096 + 4096 * (idx % 4096) + (if e.inexact then 2 ^ 24 else 0) + 2 ^ 32 * (e.value % 65536)) 8

/-- A core's directory record of a pool (R210). -/
structure PoolDir where
  slagBase : Nat
  slagLim : Nat
  slagUsed : Nat
  slagNeed : Nat
  escBase : Nat
  escLim : Nat
  escUsed : Nat
  escNeed : Nat
  ovf : Bool
  flags : Nat
  deriving DecidableEq, Repr

/-- R210: the record of a core. -/
def readDir (ok : Admit) (w : Work) (d : Desc) (core : Nat) : Except Status PoolDir := do
  let bs ← w.rdMod ok (dPool d + 64 * core) 64
  .ok ⟨leAt bs 0 4, leAt bs 4 4, leAt bs 8 4, leAt bs 12 4, leAt bs 16 4, leAt bs 20 4, leAt bs 24 4, leAt bs 28 4, (leAt bs 32 1).testBit 0, leAt bs 32 1⟩

/-- R210: the fields a core writes, stored back. -/
def writeDir (ok : Admit) (w : Work) (d : Desc) (core : Nat) (p : PoolDir) : Except Status Work := do
  let a := dPool d + 64 * core
  let w ← w.wr ok 0 (a + 8) (toLE (min p.slagUsed (2 ^ 32 - 1)) 4 ++ toLE (min p.slagNeed (2 ^ 32 - 1)) 4)
  let w ← w.wr ok 0 (a + 24) (toLE (min p.escUsed (2 ^ 32 - 1)) 4 ++ toLE (min p.escNeed (2 ^ 32 - 1)) 4)
  w.wr ok 0 (a + 32) (toLE (p.flags / 2 * 2 + p.ovf.toNat) 1)

/-- A record written at an address: header, then the given scale and element bytes of a slot range, then the padding (R51). -/
def writeRecord (ok : Admit) (w : Work) (space addr fmt lo : Nat) (hdr : List Byte) (scales elems : List Nat) : Except Status Work := do
  let w ← w.wr ok space addr hdr
  let sw := if isE8M0 fmt then 1 else 2
  let w ← if scales = [] then .ok w else w.wr ok space (addr + 32 + sw * (lo / 32)) (scales.flatMap fun x => toLE x sw)
  let ew := fmtWidth fmt
  let w ← w.wr ok space (addr + 32 + scaleArea fmt + lo * ew / 8) (toLE (packFields ew elems) (elems.length * ew / 8))
  let used := 32 + scaleArea fmt + elemArea fmt
  w.wr ok space (addr + used) (toLE 0 (recSize fmt - used))

/-- The BF16 fields of a slot range for an escape or alternate record (R212): a half that escapes holds its source values under the write's CONV, any other half the image of its narrow values. -/
def imageFields (d : Desc) (o r : Nat) (wr : Writer) (lo : Nat) (val : Nat → Option Num) (scales elems : List Nat) (slag : List SlagItem) : List Nat :=
  let full (h : Nat) : Bool := decide (32 < (slag.filter fun e => decide (e.pos / 2048 = h)).length)
  (List.range elems.length).map fun i =>
    let s := lo + i
    if full (s / 2048) then
      match val s with
      | none => 0
      | some x => bf16.convert wr.conv (match logicalIndex d o r s with
          | some n => if convRnd wr.conv = .sr then rhoOf wr.seed (dTid d) n else 0
          | none => 0) (x.mul (.fin false (1 / dScale d)))
    else match slag.find? fun e => decide (e.pos = s) with
      | some e => bf16Image (bf16.decode e.value)
      | none => bf16Image (blockValue (dFmt d) (scales.getD (i / 32) 0) (elems.getD i 0))

/-- R212, R215: the tile stored whole as a BF16 record at `ra`: the written range in `fields`, the rest from the record where it exists (`old`), else as the image of the tile's narrow values. Answers the record's EMAX, ZERO and NONFIN. -/
def writeImage (ok : Admit) (w : Work) (d : Desc) (idx ra : Nat) (wid : Bool) (wr : Writer) (lo : Nat) (fields : List Nat) (old : Bool) (cur : Tile) :
    Except Status (Work × Option Int × Bool × Bool) := do
  let base ← if old then do
      let bs ← w.rdMod ok ra bf16Rec
      let t := parseTile 0 1 (dLayout d) true bs
      .ok ((List.range 4096).map fun s => field t.elems 16 s)
    else .ok ((List.range 4096).map fun s => bf16Image (cur.full s))
  let all := base.take lo ++ fields ++ base.drop (lo + fields.length)
  let (em, zero, nonfin) := summary (all.map bf16.decode)
  let h : HeaderInfo := ⟨1, dLayout d, false, wid, zero, nonfin, em, 0, 0, 0, wr.epoch, wr.core, idx⟩
  let w ← writeRecord ok w 0 ra 1 0 h.bytes [] all
  .ok (w, em, zero, nonfin)

/-- R215 step 3: the tensor enters the widen list, one entry each. -/
def Work.addWiden (w : Work) (d : Desc) : Work :=
  let tid := BitVec.ofNat 32 (dTid d)
  if w.widen.any fun e => decide (e.1 = tid) then w else { w with widen := w.widen ++ [(tid, d)] }

/-- R217: the tensor is noted as overflowed in this epoch. -/
def Work.addOver (w : Work) (d : Desc) : Work :=
  let e := (BitVec.ofNat 32 (dTid d), BitVec.ofNat 48 (dPool d))
  if w.overs.contains e then w else { w with overs := w.overs ++ [e] }

/-- R215 steps 1 and 2: a write that goes to the tile's alternate record. `prev` says the record already holds the tile. -/
def writeWidened (ok : Admit) (w : Work) (d : Desc) (o r addr : Nat) (wr : Writer) (lo : Nat) (fields : List Nat) (prev : Bool) (cur : Tile) : Except Status Work := do
  let idx := tileIndex d o r
  let alt := if dSpace d = 1 then wr.alt.getD 0 else altBase d
  let (w, em, zero, nonfin) ← writeImage ok w d idx (alt + idx * bf16Rec) true wr lo fields prev cur
  let h : HeaderInfo := ⟨1, dLayout d, false, true, zero, nonfin, em, 0, 0, 0, wr.epoch, wr.core, idx⟩
  let w ← w.wr ok (dSpace d) addr h.bytes
  .ok (w.addWiden d)

/-- R212, R144: the tile as it stands before a write that may need it whole: the narrow record, with its slag where the write merges. -/
def currentTile (ok : Admit) (w : Work) (d : Desc) (idx addr : Nat) (h0 : Header) (merge : Bool) : Except Status Tile := do
  let bs ← w.rd ok (dSpace d) addr (recSize (dFmt d))
  let t := parseTile h0 (dFmt d) (dLayout d) false bs
  let es ← if merge && !hEsc h0 then readSlag ok w d h0 idx else .ok []
  .ok { t with slag := es }

/-- R212: an escaped tile: its BF16 record is at `i` of the escape area, and its header says so. -/
def writeEscaped (ok : Admit) (w : Work) (d : Desc) (idx addr i : Nat) (wr : Writer) (em : Option Int) (zero nonfin : Bool) : Except Status Work :=
  let h : HeaderInfo := ⟨dFmt d, dLayout d, true, false, zero, nonfin, em, 0, 0, i, wr.epoch, wr.core, idx⟩
  w.wr ok (dSpace d) addr h.bytes

/-- R206, R207, R210, R217: the slag of a write, after the entries of the header that it merges into, and the directory's fields; entries beyond the limit are dropped. -/
def writeSlag (ok : Admit) (w : Work) (d : Desc) (idx : Nat) (wr : Writer) (dir : PoolDir) (h0 : Header) (oldN : Nat) (slag : List SlagItem) : Except Status Work := do
  let k := oldN + slag.length
  let room := dir.slagLim - dir.slagUsed
  let fits := decide (dir.slagUsed + k ≤ dir.slagLim)
  let old ← if oldN = 0 then .ok [] else w.rdMod ok (dPool d + 8 * hSlagFirst h0) (8 * oldN)
  let bs := (old ++ slag.flatMap (slagBytes idx)).take (8 * room)
  let w ← w.wr ok 0 (dPool d + 8 * (dir.slagBase + dir.slagUsed)) bs
  let w ← writeDir ok w d wr.core { dir with slagUsed := dir.slagUsed + min k room, slagNeed := dir.slagNeed + k, ovf := dir.ovf || !fits }
  .ok (if fits then w else w.addOver d)

/-- R144, R178: a write that keeps the tensor's own format: its slag, then the record's part. A merge under SLAG_EN = 0 has no entries of its own and leaves those of the tile where they are (log 47). -/
def writeNarrow (ok : Admit) (w : Work) (d : Desc) (idx addr : Nat) (wr : Writer) (lo n : Nat) (merge : Bool) (h0 : Header) (dir : PoolDir)
    (scales elems : List Nat) (slag : List SlagItem) : Except Status Work := do
  let oldN := if merge then hSlagCount h0 else 0
  let k := oldN + slag.length
  let first := if k = 0 then 0 else if slagging d then dir.slagBase + dir.slagUsed else hSlagFirst h0
  let w ← if k = 0 || !slagging d then .ok w else writeSlag ok w d idx wr dir h0 oldN slag
  let vals := (List.range n).map fun i => blockValue (dFmt d) (scales.getD (i / 32) 0) (elems.getD i 0)
  let (em, zero, nonfin) := summary (vals ++ slag.map fun e => bf16.decode e.value)
  let h : HeaderInfo :=
    if merge then ⟨dFmt d, dLayout d, false, false, hZero h0 && zero, hNonfin h0 || nonfin, maxE (hEmax h0) em, k, first, 0, wr.epoch, wr.core, idx⟩
    else ⟨dFmt d, dLayout d, false, false, zero, nonfin, em, k, first, 0, wr.epoch, wr.core, idx⟩
  writeRecord ok w (dSpace d) addr (dFmt d) lo h.bytes scales elems

/-- R212, R217: a write whose tile escapes: a place of the escape area, the alternate record, or, where neither is, only the header. -/
def writeEscape (ok : Admit) (w : Work) (d : Desc) (o r addr : Nat) (wr : Writer) (lo : Nat) (dir : PoolDir) (fields : List Nat) (cur : Tile) : Except Status Work := do
  let idx := tileIndex d o r
  if dir.escUsed < dir.escLim then do
    let i := dir.escBase + dir.escUsed
    let x ← writeImage ok w d idx (escBase d + i * bf16Rec) false wr lo fields false cur
    let w ← writeDir ok x.1 d wr.core { dir with escUsed := dir.escUsed + 1, escNeed := dir.escNeed + 1 }
    writeEscaped ok w d idx addr i wr x.2.1 x.2.2.1 x.2.2.2
  else do
    let w ← writeDir ok w d wr.core { dir with escNeed := dir.escNeed + 1, ovf := true }
    if dAutoWiden d then writeWidened ok w d o r addr wr lo fields false cur
    else do
      let x ← writeImage ok w d idx (escBase d) false wr lo fields false cur
      let w ← writeEscaped ok w d idx addr (dir.escBase + dir.escLim) wr x.2.1 x.2.2.1 x.2.2.2
      .ok (w.addOver d)

/-- R212: a later write of an escaped tile goes to the existing record; one that did not fit was never stored (R217). -/
def writeAgain (ok : Admit) (w : Work) (d : Desc) (idx addr : Nat) (wr : Writer) (lo : Nat) (h0 : Header) (dir : PoolDir) (fields : List Nat) (cur : Tile) : Except Status Work := do
  let x ← writeImage ok w d idx (escBase d + hEscIndex h0 * bf16Rec) false wr lo fields true cur
  let stored := !(dir.ovf && decide (hEscIndex h0 = dir.escBase + dir.escLim))
  writeEscaped ok (if stored then x.1 else w) d idx addr (hEscIndex h0) wr x.2.1 x.2.2.1 x.2.2.2

/-- R215: a write to a widened tensor, or one that is being widened; a merge into an escaped tile starts from its BF16 record. -/
def writeWide (ok : Admit) (w : Work) (d : Desc) (o r addr : Nat) (wr : Writer) (lo : Nat) (merge : Bool) (h0 : Header) (fields : List Nat) (cur : Tile) : Except Status Work := do
  if merge && hEsc h0 then do
    let bs ← w.rdMod ok (escBase d + hEscIndex h0 * bf16Rec) bf16Rec
    writeWidened ok w d o r addr wr lo fields false (parseTile h0 1 (dLayout d) true bs)
  else writeWidened ok w d o r addr wr lo fields (merge && hWid h0) cur

/-- R144, R212, R215: the write as the tile's header, its slag and the pool's directory have it: widened, to an existing BF16 record, escaping, widening now, or in the tensor's own format. -/
def writeAs (ok : Admit) (w : Work) (d : Desc) (o r addr : Nat) (wr : Writer) (lo n : Nat) (merge escapes : Bool) (h0 : Header) (dir : PoolDir)
    (scales elems : List Nat) (slag : List SlagItem) (fields : List Nat) (cur : Tile) : Except Status Work :=
  let idx := tileIndex d o r
  let widens := slagging d && dAutoWiden d
  let slagN := (if merge then hSlagCount h0 else 0) + slag.length
  if (merge && hWid h0) || (widens && dir.ovf) then writeWide ok w d o r addr wr lo merge h0 fields cur
  else if merge && hEsc h0 then writeAgain ok w d idx addr wr lo h0 dir fields cur
  else if escapes then writeEscape ok w d o r addr wr lo dir fields cur
  else if slagN ≠ 0 ∧ dir.slagLim < dir.slagUsed + slagN ∧ widens then do
    let w ← writeDir ok w d wr.core { dir with slagNeed := dir.slagNeed + slagN, ovf := true }
    writeWidened ok w d o r addr wr lo fields false cur
  else writeNarrow ok w d idx addr wr lo n merge h0 dir scales elems slag

/-- R144, R178, R205 to R217: slots `lo` to `lo + n - 1` of the tile at (o, r) written with values, `merge` being HMERGE. -/
def writeTile (ok : Admit) (w : Work) (d : Desc) (o r addr : Nat) (wr : Writer) (lo n : Nat) (merge : Bool) (val : Nat → Option Num) : Except Status Work := do
  let (scales, elems, slag) := convertSlots d o r wr lo n val
  let hb ← w.rd ok (dSpace d) addr 32
  let h0 : Header := BitVec.ofNat 256 (leNat hb)
  let dir ← (if slagging d then readDir ok w d wr.core else .ok ⟨0, 0, 0, 0, 0, 0, 0, 0, false, 0⟩)
  let escapes := (List.range 2).any fun h => decide (32 < (slag.filter fun e => decide (e.pos / 2048 = h)).length)
  let cur ← (if merge && hWid h0 || !(escapes || (slagging d && dAutoWiden d)) then .ok (parseTile h0 (dFmt d) (dLayout d) false [])
    else currentTile ok w d (tileIndex d o r) addr h0 merge)
  writeAs ok w d o r addr wr lo n merge escapes h0 dir scales elems slag (imageFields d o r wr lo val scales elems slag) cur

end Sys2Proof.Machine
end

