-- ==== Sys2Proof/Machine/Matrix.lean ====
section
/-! DEFINITION. What the matrix, fold and epilogue units compute: MXA, FOLD, SPARK and BRND over a core's work memories (R137 to R146, R171 to R178, R196 to R198, R208, R232 to R235, R280 to R291). -/

namespace Sys2Proof.Machine

/-- BILLET_ANCHOR_MISMATCH. -/
def stAnchor : Status := 0x0107
/-- ACC_OVERCOMMIT. -/
def stOvercommit : Status := 0x0102
/-- ACC_SLOT_EMPTY. -/
def stSlotEmpty : Status := 0x010C
/-- TAP_WINDOW_MISS. -/
def stTapMiss : Status := 0x0111
/-- ILLEGAL_INSTRUCTION. -/
def stIllegal : Status := 0x0104

/-- What an M-slot instruction leaves: its work memories, the slots, the register results that its completion makes visible, and its counts. -/
structure MRes where
  work : Work
  slots : Vector Slot 5
  writes : List RegWrite
  stat : CoreStat
  deriving DecidableEq, Repr

/-! The tap extension (R282) -/

/-- R282: TRANSPOSED. -/
def xTransposed (e : Desc) : Bool := bit e 0
/-- R282: PAD_REPL. -/
def xRepl (e : Desc) : Bool := bit e 1
/-- R282: KW. -/
def xKW (e : Desc) : Nat := bytesField e 1 1
/-- R282: KH. -/
def xKH (e : Desc) : Nat := bytesField e 2 2
/-- R282: KD. -/
def xKD (e : Desc) : Nat := bytesField e 3 3
/-- R282: SW. -/
def xSW (e : Desc) : Nat := bytesField e 4 4
/-- R282: SH. -/
def xSH (e : Desc) : Nat := bytesField e 5 5
/-- R282: SD. -/
def xSD (e : Desc) : Nat := bytesField e 6 6
/-- R282: DW. -/
def xDW (e : Desc) : Nat := bytesField e 8 8
/-- R282: DH. -/
def xDH (e : Desc) : Nat := bytesField e 9 9
/-- R282: DD. -/
def xDD (e : Desc) : Nat := bytesField e 10 10
/-- R282: PW. -/
def xPW (e : Desc) : Nat := bytesField e 13 12
/-- R282: PH. -/
def xPH (e : Desc) : Nat := bytesField e 15 14
/-- R282: PD. -/
def xPD (e : Desc) : Nat := bytesField e 17 16
/-- R282: OW. -/
def xOW (e : Desc) : Nat := bytesField e 19 18
/-- R282: OH. -/
def xOH (e : Desc) : Nat := bytesField e 21 20
/-- R282: OD. -/
def xOD (e : Desc) : Nat := bytesField e 23 22
/-- R282: OT0. -/
def xOT0 (e : Desc) : Nat := bytesField e 31 28
/-- R282: OTN. -/
def xOTN (e : Desc) : Nat := bytesField e 35 32
/-- R282: RT0. -/
def xRT0 (e : Desc) : Nat := bytesField e 39 36
/-- R282: RTN. -/
def xRTN (e : Desc) : Nat := bytesField e 43 40
/-- R282: BOX_D0. -/
def xBoxD0 (e : Desc) : Nat := bytesField e 45 44
/-- R282: BOX_DN. -/
def xBoxDN (e : Desc) : Nat := bytesField e 47 46
/-- R282: BOX_H0. -/
def xBoxH0 (e : Desc) : Nat := bytesField e 49 48
/-- R282: BOX_HN. -/
def xBoxHN (e : Desc) : Nat := bytesField e 51 50

/-- R280: T, the number of taps. -/
def tapCount (e : Desc) : Nat := xKD e * xKH e * xKW e
/-- R280: Cp. -/
def tapCp (d : Desc) : Nat := roundUp (dC d) (layoutB (dLayout d))
/-- R281: WB_o. -/
def tapWB (e : Desc) : Nat := ceilDiv (xOW e) 128
/-- R281: row tiles of one sample. -/
def tapPerSample (e : Desc) : Nat := xOD e * xOH e * tapWB e

/-- R283: whether an extension and its descriptor are fit for use. -/
def tapOk (d e : Desc) : Bool :=
  isCB d
  && decide (bits e 7 2 = 0) && decide (bytesField e 7 7 = 0) && decide (bytesField e 11 11 = 0)
  && decide (bytesField e 27 24 = 0) && decide (bytesField e 63 52 = 0)
  && [xKW e, xKH e, xKD e].all (fun k => decide (1 ≤ k) && decide (k ≤ 7))
  && [xSW e, xSH e, xSD e].all (fun k => decide (1 ≤ k) && decide (k ≤ 4))
  && [xDW e, xDH e, xDD e].all (fun k => decide (1 ≤ k))
  && [xOW e, xOH e, xOD e].all (fun k => decide (1 ≤ k))
  && !(xTransposed e && xRepl e)
  && decide (xOTN e ≠ 0) && decide (xOT0 e + xOTN e ≤ dN d * tapPerSample e)
  && decide (xOT0 e / tapPerSample e = (xOT0 e + xOTN e - 1) / tapPerSample e)
  && decide (xRTN e ≠ 0) && decide (xRT0 e + xRTN e ≤ ceilDiv (tapCount e * tapCp d) 32)
  && decide (xBoxDN e ≠ 0) && decide (xBoxHN e ≠ 0)
  && decide (xBoxD0 e + xBoxDN e ≤ dD d) && decide (xBoxH0 e + xBoxHN e ≤ dH d)
  && decide (dBase d + xBoxDN e * xBoxHN e * dWB d * dRN d * recSize (dFmt d) ≤ spadSize)
  && decide (dO0 d = 0) && decide (dON d = 0)

/-- R284: the input position that an output position reads under a tap, along one axis. -/
def tapSrc (o kk s dl p dim : Nat) (transposed repl : Bool) : Option Nat :=
  let pick (i : Int) : Option Nat :=
    if i < 0 ∨ (dim : Int) ≤ i then (if repl then some (min (max i 0) ((dim : Int) - 1)).toNat else none) else some i.toNat
  if transposed then
    let num : Int := (o : Int) + p - kk * dl
    if num % (s : Int) ≠ 0 then none else pick (num / (s : Int))
  else pick ((o : Int) * s - p + kk * dl)

/-- An input element that a read names: other-axis tile, channel block, line frame and row, slot. -/
structure TapRead where
  o : Nat
  cb : Nat
  d : Nat
  h : Nat
  slot : Nat
  deriving DecidableEq, Repr

/-- R280, R281: whether row `j` of output row tile `rt` at reduction element `k` is a padding row or a padding element. -/
def tapPad (d e : Desc) (rt j k : Nat) : Bool := decide (xOW e ≤ 128 * (rt % tapWB e) + j) || decide (tapCount e * tapCp d ≤ k)

/-- R281, R284, R285: what row `j` of output row tile `rt` reads at reduction element `k`; `none` for a padding row, a padding element or a suppressed read. -/
def tapRead (d e : Desc) (rt j k : Nat) : Option TapRead :=
  let cp := tapCp d
  let line := rt / tapWB e
  let ow := 128 * (rt % tapWB e) + j
  let oh := line % xOH e
  let od := (line / xOH e) % xOD e
  let n := line / xOH e / xOD e
  let tau := k / cp
  let c := k % cp
  if tapPad d e rt j k then none
  else
    let kw := tau % xKW e
    let kh := (tau / xKW e) % xKH e
    let kd := tau / xKW e / xKH e
    match tapSrc od kd (xSD e) (xDD e) (xPD e) (dD d) (xTransposed e) (xRepl e),
      tapSrc oh kh (xSH e) (xDH e) (xPH e) (dH d) (xTransposed e) (xRepl e),
      tapSrc ow kw (xSW e) (xDW e) (xPW e) (dW d) (xTransposed e) (xRepl e) with
    | some zd, some zh, some zw =>
      let l := (n * dD d + zd) * dH d + zh
      some ⟨l * dWB d + zw / layoutP (dLayout d), c / layoutB (dLayout d), zd, zh,
        slotOf (dLayout d) (zw % layoutP (dLayout d)) (c % layoutB (dLayout d))⟩
    | _, _, _ => none

/-- R286: where the tile of a read lies in the box. -/
def tapAddr (d e : Desc) (r : TapRead) : Nat :=
  let q := (r.d % xBoxDN e) * xBoxHN e + r.h % xBoxHN e
  dBase d + ((q * dWB d + r.o % dWB d) * dRN d + r.cb - dR0 d) * recSize (dFmt d)

/-- R287: whether a read misses the box or the channel window. -/
def tapMiss (d e : Desc) (r : TapRead) : Bool :=
  decide (r.d < xBoxD0 e) || decide (xBoxD0 e + xBoxDN e ≤ r.d) || decide (r.h < xBoxH0 e) || decide (xBoxH0 e + xBoxHN e ≤ r.h)
  || decide (r.cb < dR0 d) || decide (dR0 d + dRN d ≤ r.cb)

/-! Operands -/

/-- Tiles by coordinates. -/
abbrev TileSet := List ((Nat × Nat) × Tile)

/-- The tile at coordinates, where it was read. -/
def TileSet.get (ts : TileSet) (c : Nat × Nat) : Option Tile := (ts.find? fun t => decide (t.1 = c)).map (·.2)

/-- R138: every tile of a window read, header checks first in index order. -/
def readWindow (ok : Admit) (w : Work) (d : Desc) (slag : Bool) : List (Nat × Nat) → Except Status TileSet
  | [] => .ok []
  | c :: r => do
    let t ← readWinTile ok w d c.1 c.2 slag
    let ts ← readWindow ok w d slag r
    .ok ((c, t) :: ts)

/-- R286, R287: the input tiles that reads name, each once. -/
def readTaps (ok : Admit) (w : Work) (d e : Desc) (slag : Bool) : List TapRead → TileSet → Except Status TileSet
  | [], acc => .ok acc
  | r :: rs, acc =>
    if (acc.get (r.o, r.cb)).isSome then readTaps ok w d e slag rs acc
    else if tapMiss d e r then .error stTapMiss
    else do
      let t ← readTile ok w d (tileIndex d r.o r.cb) (tapAddr d e r) slag
      readTaps ok w d e slag rs (acc ++ [((r.o, r.cb), t)])

/-- Operand a or b as the block pairs see it: window geometry, tiles, and for TAP the extension. -/
structure Operand where
  d : Desc
  ext : Option Desc
  /-- First row tile and their count, first reduction tile and their count. -/
  o0 : Nat
  on : Nat
  r0 : Nat
  rn : Nat
  /-- The reduction length and its tiles. -/
  red : Nat
  tiles : TileSet
  deriving DecidableEq, Repr

/-- R281: the geometry that the product rules use for a descriptor. -/
def opGeom (d : Desc) (ext : Option Desc) : Nat × Nat × Nat × Nat × Nat :=
  match ext with
  | some e => (xOT0 e, xOTN e, xRT0 e, xRTN e, tapCount e * tapCp d)
  | none => (dO0 d, dON d, dR0 d, dRN d, dRed d)

/-- The reads of a TAP operand's window, for the row tiles of a list. -/
def tapReads (d e : Desc) (tiles : List Nat) : List TapRead :=
  tiles.flatMap fun i => (List.range (xRTN e)).flatMap fun r =>
    (List.range 128).flatMap fun j => (List.range 32).filterMap fun k => tapRead d e i j (32 * (xRT0 e + r) + k)

/-- An operand with its tiles read (R138, R287): the whole window, or the span of one row tile alone (R146). -/
def loadOperand (ok : Admit) (w : Work) (d : Desc) (ext : Option Desc) (slag : Bool) (one : Option Nat) : Except Status Operand := do
  let (o0, on, r0, rn, red) := opGeom d ext
  let ts ← match ext with
    | some e => readTaps ok w d e slag (tapReads d e (match one with
        | some i => [i]
        | none => (List.range on).map (o0 + ·))) []
    | none => readWindow ok w d slag ((winTiles d).filter fun (c : Nat × Nat) => one.all fun i => decide (c.1 = i))
  .ok ⟨d, ext, o0, on, r0, rn, red, ts⟩

/-- The tile and slot that row (or column) `j` of tile `i` reads at reduction element `k`. -/
def Operand.at_ (p : Operand) (i j k : Nat) : Option (Tile × Nat) :=
  match p.ext with
  | some e => (tapRead p.d e i j k).bind fun r => (p.tiles.get (r.o, r.cb)).map fun t => (t, r.slot)
  | none => (p.tiles.get (i, k / 32)).map fun t => (t, slotOf 0 j (k % 32))

/-- R61, R288: E of a span: the largest EMAX of its tiles, and whether any has NONFIN. -/
def Operand.span (p : Operand) (i : Nat) : Option Int × Bool :=
  let hs : List Header := match p.ext with
    | some e =>
      let rs := (List.range p.rn).flatMap fun r => (List.range 128).flatMap fun j =>
        (List.range 32).filterMap fun k => (tapRead p.d e i j (32 * (p.r0 + r) + k)).map fun (x : TapRead) => (x.o, x.cb)
      rs.dedup.filterMap fun c => (p.tiles.get c).map fun (t : Tile) => t.hdr
    | none => (List.filter (fun (t : (Nat × Nat) × Tile) => decide (t.1.1 = i)) p.tiles).map fun t => t.2.hdr
  (hs.foldl (fun e h => maxE e (hEmax h)) none, hs.any hNonfin)

/-- R64 to R67: the partial of one block pair for row `j` of row tile `i` and column `c` of column tile `n`, at reduction tile `kt`. -/
def pairPartial (a b : Operand) (anchor : Int) (i j n c kt : Nat) : Bil :=
  let at_ (p : Operand) (x y k : Nat) := p.at_ x y (32 * kt + k)
  let ps := (List.range 32).map fun k => (at_ a i j k, at_ b n c k)
  let isDirect := ps.any fun p => (p.1.elim false fun t => t.1.direct) || (p.2.elim false fun t => t.1.direct)
  if isDirect then
    blockPartial anchor none (ps.map fun p =>
      (p.1.elim (Num.fin false 0) fun t => t.1.value t.2).mul (p.2.elim (Num.fin false 0) fun t => t.1.value t.2))
  else
    let sc (f : (Option (Tile × Nat)) × (Option (Tile × Nat)) → Option (Tile × Nat)) : Option Rat :=
      match ps.findSome? f with
      | some t => t.1.scaleAt t.2
      | none => some 1
    match sc (·.1), sc (·.2) with
    | some x, some y => blockPartial anchor (some (x, y)) (ps.map fun p =>
        (p.1.elim (Num.fin false 0) fun t => t.1.elem t.2).mul (p.2.elim (Num.fin false 0) fun t => t.1.elem t.2))
    | _, _ => .nan

/-- R141, R281: the formats that the operand of a block pair at tile `x` and reduction tile `kt` brings: of its tiles that rows `j0` to `j0 + 63` read, or its descriptor's where they read none (R285). -/
def Operand.formats (p : Operand) (x j0 kt : Nat) : List Nat :=
  let fs := match p.ext with
    | some e => ((List.range 64).flatMap fun j => (List.range 32).filterMap fun k =>
        (tapRead p.d e x (j0 + j) (32 * kt + k)).bind fun r => (p.tiles.get (r.o, r.cb)).map (·.fmt)).dedup
    | none => ((p.tiles.get (x, kt)).map (·.fmt)).toList
  if fs = [] then [dFmt p.d] else fs

/-- R141, R290: cycles of a block pair of a group at a reduction tile. -/
def pairCycles (a b : Operand) (g : Group) (kt : Nat) : Nat :=
  let all := a.formats g.row (64 * g.half.toNat) kt ++ b.formats g.col 0 kt
  if all.any fun f => decide (f = 0) then 256
  else if all.any isPlain then 64
  else if all.all fun f => decide (5 ≤ f ∧ f ≤ 7) then 16
  else if all.all fun f => decide (f = 9) then 16
  else 32

/-- R175: the two-axis slot order: whether n is the outer axis. -/
def nOuter (code : Nat) : Bool := decide (code = 2) || decide (code = 3) || decide (code = 5)

/-- R174, R175: the groups (m, n) of an instruction in slot order; m counts row halves. -/
def groupOrder (code ms ns : Nat) : List (Nat × Nat) :=
  if nOuter code then (List.range ns).flatMap fun n => (List.range ms).map fun m => (m, n)
  else (List.range ms).flatMap fun m => (List.range ns).map fun n => (m, n)

/-- R88, R173: the block pairs (m, n, k) of a window in the order of a loop code, its axes from outermost to innermost. -/
def pairOrder (code ms ns ks : Nat) : List (Nat × Nat × Nat) :=
  let (rm, rn, rk) := (List.range ms, List.range ns, List.range ks)
  match code with
  | 0 => rm.flatMap fun m => rn.flatMap fun n => rk.map fun k => (m, n, k)
  | 1 => rm.flatMap fun m => rk.flatMap fun k => rn.map fun n => (m, n, k)
  | 2 => rn.flatMap fun n => rm.flatMap fun m => rk.map fun k => (m, n, k)
  | 3 => rn.flatMap fun n => rk.flatMap fun k => rm.map fun m => (m, n, k)
  | 4 => rk.flatMap fun k => rm.flatMap fun m => rn.map fun n => (m, n, k)
  | _ => rk.flatMap fun k => rn.flatMap fun n => rm.map fun m => (m, n, k)

/-- R84: the open slot of a group among the slots of a mask, else the lowest empty one. -/
def findSlot (slots : Vector Slot 5) (mask : Nat) (g : Group) : Option (Fin 5) × Option (Fin 5) :=
  let ids := (List.finRange 5).filter fun i => mask.testBit i.val
  (ids.find? fun i => match slots[i].tag with | some t => decide (t.group = g) | none => false,
   ids.find? fun i => slots[i].tag.isNone)

/-- R83, R84, R139: the slot a group uses: kept where open with equal anchor and scales, else opened. -/
def takeSlot (slots : Vector Slot 5) (mask : Nat) (t : SlotTag) : Except Status (Fin 5 × Vector Slot 5) :=
  match findSlot slots mask t.group with
  | (some i, _) =>
    match slots[i].tag with
    | some u => if u.anchor ≠ t.anchor ∨ u.null ≠ t.null ∨ u.ta ≠ t.ta ∨ u.tb ≠ t.tb then .error stAnchor
      else if slots[i].parityHit 0 8192 then .error stParity else .ok (i, slots)
    | none => .error stSlotEmpty
  | (none, some i) => .ok (i, slots.set i ⟨some t, [], []⟩)
  | (none, none) => .error stOvercommit

/-- R174: every group takes its slot before any block pair adds. -/
def takeSlots (mask : Nat) : List SlotTag → Vector Slot 5 → Except Status (List (Fin 5 × SlotTag) × Vector Slot 5)
  | [], s => .ok ([], s)
  | t :: r, s => do
    let (i, s) ← takeSlot s mask t
    let (l, s) ← takeSlots mask r s
    .ok ((i, t) :: l, s)

/-- The number of open slots. -/
def openCount (slots : Vector Slot 5) : Nat := (slots.toList.filter fun s => s.tag.isSome).length

/-- R191: HIGH_WATER after an instruction. -/
def CoreStat.water (st : CoreStat) (n : Nat) : CoreStat := { st with highWater := BitVec.ofNat 3 (max st.highWater.toNat n) }

/-- A slot with a partial at every position added. -/
def Slot.addAll (s : Slot) (f : Nat → Bil) : Slot :=
  { s with billets := (List.range 8192).filterMap fun p =>
      let b := ((Bil.ofBillet (s.get p)).add (f p)).toBillet
      if b = 0 then none else some (p, b) }

/-- R59, R63, R65, R137, R280, R283: the descriptor conditions of MXA, FOLD and SPARK. -/
def productOk (a b dd : Desc) (ext : Option Desc) (asrc : Bool) : Bool :=
  let (_, on, r0, rn, red) := opGeom a ext
  decide (dSpace a = 1) && decide (dSpace b = 1)
  && (match ext with
      | some e => decide (dMode a = 1) && tapOk a e
      | none => decide (dMode a = 0) && decide (dLayout a = 0))
  && decide (dMode b = 0) && decide (dLayout b = 0)
  && decide (red = dRed b) && decide (r0 = dR0 b) && decide (rn = dRN b) && decide (red ≤ 2 ^ 30)
  && !(isE8M0 (dFmt a) && isInt (dFmt b)) && !(isInt (dFmt a) && isE8M0 (dFmt b))
  && decide (dAccMask dd ≠ 0)
  && (if asrc then decide (on = 1) && decide (dON b = 1) else decide (r0 = 0) && decide (rn = ceilDiv red 32))

/-- R61, R62, R139: the tag of a group's slot. -/
def groupTag (a b : Operand) (asrc : Bool) (rs : W64) (epoch : BitVec 16) (m n : Nat) : SlotTag :=
  let i := a.o0 + m / 2
  let j := b.o0 + n
  let (ea, na) := a.span i
  let (eb, nb) := b.span j
  let (ea, eb) := if asrc then (emaxOf (bits rs 15 0), emaxOf (bits rs 31 16)) else (ea, eb)
  let an := groupAnchor ea eb (na || nb)
  ⟨⟨i, decide (m % 2 = 1), j⟩, an.isNone, an.getD 0, dTscale a.d, dTscale b.d, epoch⟩

/-- R64 to R68: the block pair of a group at the `r`-th reduction tile of the window added to its slot. A null-anchored group adds nothing (R62). -/
def addPair (a b : Operand) (t : SlotTag) (r : Nat) (s : Slot) : Slot :=
  if t.null then s
  else s.addAll fun p => pairPartial a b t.anchor t.group.row (64 * t.group.half.toNat + p / 128) t.group.col (p % 128) (a.r0 + r)

/-- R285, R296: whether reads of a group's a slice at a reduction tile were suppressed and nothing else was read. -/
def sliceSuppressed (a : Operand) (g : Group) (kt : Nat) : Bool := match a.ext with
  | none => false
  | some e =>
    let ps := (List.range 64).flatMap fun x => (List.range 32).filterMap fun k =>
      if tapPad a.d e g.row (64 * g.half.toNat + x) (32 * kt + k) then none else some (tapRead a.d e g.row (64 * g.half.toNat + x) (32 * kt + k)).isNone
    ps ≠ [] && ps.all id

/-- R192, R296: the counts of a group's block pair. -/
def pairStat (a b : Operand) (t : SlotTag) (r : Nat) (st : CoreStat) : CoreStat :=
  { st with busy := st.busy + pairCycles a b t.group (a.r0 + r), tapSkip := satAdd st.tapSkip (sliceSuppressed a t.group (a.r0 + r)).toNat }

/-- R173: the block pairs of an instruction formed in LOOP_SPAD order, each in its group's slot. -/
def formPairs (code : Nat) (a b : Operand) (gs : List ((Nat × Nat) × Fin 5 × SlotTag)) (slots : Vector Slot 5) (st : CoreStat) : Vector Slot 5 × CoreStat :=
  (pairOrder code (2 * a.on) b.on a.rn).foldl (fun acc x => match gs.find? fun y => decide (y.1 = (x.1, x.2.1)) with
    | some (_, i, t) => (acc.1.set i (addPair a b t x.2.2 acc.1[i]), pairStat a b t x.2.2 acc.2)
    | none => acc) (slots, st)

/-- MXA (R137 to R141, R173, R174). -/
def runMxa (ok : Admit) (w : Work) (slots : Vector Slot 5) (st : CoreStat) (epoch : BitVec 16)
    (a b dd : Desc) (ext : Option Desc) (asrc : Bool) (rs : W64) : Except Status MRes := do
  if !productOk a b dd ext asrc then .error stDesc
  else
    let pa ← loadOperand ok w a ext false none
    let pb ← loadOperand ok w b none false none
    let order := groupOrder (dLoopAcc dd) (2 * pa.on) pb.on
    let (gs, slots) ← takeSlots (dAccMask dd) (order.map fun g => groupTag pa pb asrc rs epoch g.1 g.2) slots
    let (slots2, st) := formPairs (dLoopSpad dd) pa pb (order.zip gs) slots st
    .ok ⟨w, slots2, [], st.water (openCount slots2)⟩

/-- R208, R289: the products that FOLD adds at one billet, as addends. SIDE 0: a's entries by the full value of b. SIDE 1: b's entries by a's `e × b`. -/
def foldProducts (a b : Operand) (side : Bool) (i j n c : Nat) : List Num :=
  (List.range (32 * a.rn)).filterMap fun x =>
    let k := 32 * a.r0 + x
    let pa := a.at_ i j k
    let pb := b.at_ n c k
    let hit (p : Option (Tile × Nat)) : Bool := p.elim false fun t => t.1.slag.any fun e => decide (e.1 = t.2)
    if side then
      if hit pb then some ((pa.elim (Num.fin false 0) fun t => t.1.value t.2).mul (pb.elim (Num.fin false 0) fun t => t.1.full t.2)) else none
    else
      if hit pa then some ((pa.elim (Num.fin false 0) fun t => t.1.full t.2).mul (pb.elim (Num.fin false 0) fun t => t.1.full t.2)) else none

/-- FOLD (R142, R208, R289). -/
def runFold (ok : Admit) (w : Work) (slots : Vector Slot 5) (st : CoreStat) (epoch : BitVec 16)
    (a b dd : Desc) (ext : Option Desc) (asrc : Bool) (rs : W64) (side : Bool) : Except Status MRes := do
  if !productOk a b dd ext asrc then .error stDesc
  else
    let pa ← loadOperand ok w a ext true none
    let pb ← loadOperand ok w b none true none
    let tags := (groupOrder (dLoopAcc dd) (2 * pa.on) pb.on).map fun g => groupTag pa pb asrc rs epoch g.1 g.2
    let (gs, slots) ← takeSlots (dAccMask dd) tags slots
    let slots2 := gs.foldl (fun sl (g : Fin 5 × SlotTag) =>
      let t := g.2
      if t.null then sl
      else sl.set g.1 (sl[g.1].addAll fun p => blockPartial t.anchor none
        (foldProducts pa pb side t.group.row (64 * t.group.half.toNat + p / 128) t.group.col (p % 128)))) slots
    .ok ⟨w, slots2, [], st.water (openCount slots2)⟩

/-- The exact value of a slot's billet (R58, R70). -/
def Slot.value (s : Slot) (p : Nat) : Num :=
  match s.tag with
  | some t => (Bil.ofBillet (s.get p)).value t.anchor ((ofF32 t.ta).toRat * (ofF32 t.tb).toRat)
  | none => .fin false 0

/-- R198: the error exponent of the low and wide slots. -/
def errorExponent (lo wi : Slot) : Int :=
  let ps := List.range 8192
  if ps.any fun p => !(lo.value p).isFin || !(wi.value p).isFin then 32767
  else
    let abs (x : Rat) : Rat := if x < 0 then -x else x
    let d := (ps.map fun p => abs ((lo.value p).toRat - (wi.value p).toRat)).foldl max 0
    let w := (ps.map fun p => abs (wi.value p).toRat).foldl max 0
    if d = 0 then -32768
    else if w = 0 then 32767
    else max (-32767) (min 32767 (ilog2 d - ilog2 w))

/-- SPARK (R146, R196 to R198): the wide product of the low slot's group alone, compared. -/
def runSpark (ok : Admit) (w : Work) (slots : Vector Slot 5) (st : CoreStat) (epoch : BitVec 16)
    (a b dd : Desc) (ext : Option Desc) (f : SparkOp) (rs rt : W64) : Except Status MRes := do
  if !productOk a b dd ext f.asrc then .error stDesc
  else
    match (slots.toList.getD f.slotLo.toNat Slot.empty).tag with
    | none => .error stSlotEmpty
    | some lt =>
      let (o0, on, _, _, _) := opGeom a ext
      if (slots.toList.getD f.slotLo.toNat Slot.empty).parityHit 0 8192 then .error stParity
      else if lt.group.row < o0 ∨ o0 + on ≤ lt.group.row ∨ lt.group.col < dO0 b ∨ dO0 b + dON b ≤ lt.group.col then .error stAnchor
      else
        match (List.finRange 5).find? fun i => (dAccMask dd).testBit i.val && slots[i].tag.isNone with
        | none => .error stOvercommit
        | some _ => do
          let pa ← loadOperand ok w a ext false (some lt.group.row)
          let pb ← loadOperand ok w b none false (some lt.group.col)
          let t := groupTag pa pb f.asrc rs epoch (2 * (lt.group.row - o0) + lt.group.half.toNat) (lt.group.col - dO0 b)
          let ks := List.range pa.rn
          let wide := ks.foldl (fun x r => addPair pa pb t r x) ⟨some t, [], []⟩
          let eps := errorExponent (slots.toList.getD f.slotLo.toNat Slot.empty) wide
          let hit := decide (toSigned 16 (bits rt 15 0) < eps)
          .ok ⟨w, slots, [⟨.s f.rd, .s (BitVec.ofInt 64 eps), 0⟩, ⟨.p f.pd, .p (if hit then BitVec.allOnes 256 else 0), 0⟩], ks.foldl (fun x r => pairStat pa pb t r x) st⟩

/-- R233, R234: the epilogue of one billet value. -/
def epilogue (f : BrndOp) (bias scale : Num) (v : Num) : Num :=
  let x := if f.epiB then v.add bias else v
  let x := if f.epiA then f32.decode (sfnRound f32 (sfnEval f.epiF.toNat (ofF32 (rne32 x)))) else x
  if f.epiS then x.mul scale else x

/-- A part of an output tile that a BRND writes: other-axis and reduction coordinate, first slot, slots, the billet of an element slot, and whether the part holds padding alone. -/
structure BrndPart where
  o : Nat
  r : Nat
  lo : Nat
  n : Nat
  billet : Nat → Nat
  pad : Bool

/-- R177, R291: the parts of output tiles that a slot touches. Positions 128 to 255 of a CB16 tile that no row tile reaches are padding, which the BRND of the tile's last row tile writes +0 as R53 asks of a producer (log 48). -/
def brndTiles (d : Desc) (g : Group) : List BrndPart :=
  if isCB d then
    let wb := ceilDiv (dW d) 128
    let line := if wb = 0 then 0 else g.row / wb
    let w0 := if wb = 0 then 0 else 128 * (g.row % wb) + 64 * g.half.toNat
    let p := layoutP (dLayout d)
    let b := layoutB (dLayout d)
    let last := decide (p = 256) && decide (g.row % wb + 1 = wb) && decide (wb % 2 = 1)
    (List.range (128 / b)).flatMap fun q =>
      let x : BrndPart := ⟨line * dWB d + w0 / p, 128 * g.col / b + q, (w0 % p) * b, 64 * b, fun s => (s / b - w0 % p) * 128 + q * b + s % b, false⟩
      x :: (if last then [{ x with lo := (w0 % p + 128) * b, pad := true }] else [])
  else
    (List.range 4).map fun q =>
      ⟨g.row, 4 * g.col + q, 2048 * g.half.toNat, 2048, fun s => (s / 32 - 64 * g.half.toNat) * 128 + 32 * q + s % 32, false⟩

/-- R177, R291: whether an output tile lies in the tile grid: a row or line tile and a reduction or channel tile that exist. -/
def brndInGrid (d : Desc) (g : Group) (o r : Nat) : Bool :=
  if isCB d then
    let wb := ceilDiv (dW d) 128
    decide (wb ≠ 0) && decide (g.row / wb < gridLines d) && decide (r < gridR d) && decide (o < gridO d)
  else decide (o < gridO d) && decide (r < gridR d)

/-- BRND (R143 to R145, R177, R178, R232 to R235, R291). -/
def runBrnd (ok : Admit) (w : Work) (slots : Vector Slot 5) (st : CoreStat) (wr : Writer) (d : Desc) (f : BrndOp) (rb rsc : W64) : Except Status MRes := do
  let slot := slots.toList.getD f.slot.toNat Slot.empty
  match slot.tag with
  | none => .error stSlotEmpty
  | some t =>
    if dSpace d ≠ 1 ∨ (dSlagEn d ∧ isInt (dFmt d)) then .error stDesc
    else if f.epiB ∧ (rb.toNat % 64 ≠ 0 ∨ spadSize < rb.toNat + 512) then .error stAddr
    else
      let ts := (brndTiles d t.group).filter fun x => brndInGrid d t.group x.o x.r
      if ts.any fun x => !inWindow d x.o x.r then .error stDesc
      else do
        if slot.parityHit 0 8192 then throw stParity
        let bb ← if f.epiB then w.rdSpad rb.toNat 512 else .ok []
        let scale := ofF32 (BitVec.ofNat 32 rsc.toNat)
        let w ← ts.foldlM (fun w x => writeTile ok w d x.o x.r (tileAddr d x.o x.r) { wr with conv := f.conv } x.lo x.n (f.hmerge || x.pad)
          (fun s => if x.pad || (logicalIndex d x.o x.r s).isNone then none
            else some (epilogue f (ofF32 (BitVec.ofNat 32 (leAt bb (4 * (x.billet s % 128)) 4))) scale (slot.value (x.billet s))))) w
        let slots := if f.rel then slots.toList.mapIdx fun i x => if i = f.slot.toNat then Slot.empty else x else slots.toList
        .ok ⟨w, Vector.ofFn fun i => slots.getD i.val Slot.empty, [], st⟩

end Sys2Proof.Machine
end

