-- ==== Sys2Proof/Machine/Norm.lean ====
section
/-! DEFINITION. What the normalisation path computes: NORM STAT and NORM APPLY (R149, R236 to R244). -/

namespace Sys2Proof.Machine

/-- NORM_COUNT_MISMATCH. -/
def stNormCount : Status := 0x010E

/-- The running sums of a statistic set (R239, R240). -/
structure SetSum where
  s1 : Bil
  s2 : Bil
  n : Nat
  e : Option Int
  trunc : Bool
  nonfin : Bool
  deriving DecidableEq, Repr

/-- R237: PADDR. -/
def gPaddr (g : W64) : Nat := bits g 53 32
/-- R237: PART_N. -/
def gPartN (g : W64) : Nat := bits g 21 18
/-- R237: PART_OUT. -/
def gPartOut (g : W64) : Bool := bit g 17
/-- R237: GSIZE. -/
def gSize (g : W64) : Nat := bits g 15 0

/-- R236: the first channel of the window and one past its last. -/
def chanRange (d : Desc) : Nat × Nat :=
  let b := layoutB (dLayout d)
  (dR0 d * b, min ((dR0 d + dRN d) * b) (dC d))

/-- R236: the number of sets a window names. -/
def setCount (d : Desc) (group : Bool) (gs : Nat) : Nat :=
  if group then ceilDiv ((chanRange d).2 - (chanRange d).1) gs
  else min 128 (dRows d - 128 * dO0 d)

/-- R236, R237, R244: the window conditions of STAT and APPLY. -/
def normWindowOk (d : Desc) (group : Bool) (gs : Nat) : Bool :=
  decide (dSpace d = 1) && decide (dMode d = 0) &&
  (if group then
    isCB d && decide (gs ≠ 0) && decide (dC d % gs = 0)
    && decide (dON d ≠ 0) && decide (dO0 d / (dD d * dH d) = (dO0 d + dON d - 1) / (dD d * dH d))
    && decide ((chanRange d).1 % gs = 0) && (decide ((chanRange d).2 % gs = 0) || decide ((chanRange d).2 = dC d))
    && decide (setCount d true gs ≤ 128)
  else decide (dLayout d = 0) && decide (dON d = 1))

/-- R236: the set and the index (reduction position or channel) of an element slot of a window tile; `none` for padding. -/
def normSet (d : Desc) (group : Bool) (gs : Nat) (c : Nat × Nat) (slot : Nat) : Option (Nat × Nat) :=
  if (logicalIndex d c.1 c.2 slot).isNone then none
  else if group then
    let ch := c.2 * layoutB (dLayout d) + slot % layoutB (dLayout d)
    some ((ch - (chanRange d).1) / gs, ch)
  else some (slot / 32, c.2 * 32 + slot % 32)

/-- R238: whether a window tile holds elements of a set. -/
def tileOfSet (d : Desc) (group : Bool) (gs : Nat) (c : Nat × Nat) (r : Nat) : Bool :=
  if group then
    let lo := (chanRange d).1 + r * gs
    let b := layoutB (dLayout d)
    decide (c.2 * b < lo + gs) && decide (lo < (c.2 + 1) * b)
  else true

/-- R239: one element's value added to its set. -/
def SetSum.addElem (s : SetSum) (y : Num) : SetSum :=
  match y with
  | .fin _ m =>
    match s.e with
    | none => { s with n := s.n + 1 }
    | some e =>
      let a := y.toRat * pow2 (159 - e)
      let b := m * m * pow2 (158 - 2 * e)
      { s with s1 := s.s1.add (.fin (rneInt a)), s2 := s.s2.add (.fin (rneInt b)), n := s.n + 1,
               trunc := s.trunc || decide (a ≠ a.floor) || decide (b ≠ b.floor) }
  | .inf n => { s with s1 := s.s1.add (.inf n), s2 := s.s2.add (.inf false), n := s.n + 1, nonfin := true }
  | .nan => { s with s1 := s.s1.add .nan, s2 := s.s2.add .nan, n := s.n + 1, nonfin := true }

/-- R241: two sums combined: a null side adopts the other's E; differing E do not combine. -/
def SetSum.merge (a b : SetSum) : Except Status SetSum :=
  let e := match a.e, b.e with
    | none, y => some y
    | x, none => some x
    | some x, some y => if x = y then some (some x) else none
  match e with
  | none => .error stAnchor
  | some e => .ok ⟨a.s1.add b.s1, a.s2.add b.s2, a.n + b.n, e, a.trunc || b.trunc, a.nonfin || b.nonfin⟩

/-- R240: the 64-byte record of a set. -/
def SetSum.bytes (s : SetSum) : List Byte :=
  billetBytes s.s1.toBillet ++ billetBytes s.s2.toBillet ++ toLE s.n 4 ++ toLE (emaxField s.e) 2
  ++ toLE (s.trunc.toNat + 2 * s.nonfin.toNat + 4) 1 ++ toLE 0 9

/-- R240: a set of a partial block; `none` where VALID is 0. -/
def parseSet (bs : List Byte) : Option SetSum :=
  let fl := leAt bs 54 1
  if fl.testBit 2 then
    some ⟨.ofBillet (BitVec.ofNat 192 (leAt bs 0 24)), .ofBillet (BitVec.ofNat 192 (leAt bs 24 24)), leAt bs 48 4,
      emaxOf (leAt bs 52 2), fl.testBit 0, fl.testBit 1⟩
  else none

/-- R241: the records of partial blocks added to the sets, block by block. -/
def mergeBlocks (w : Work) (paddr : Nat) : Nat → List SetSum → Except Status (List SetSum)
  | 0, ss => .ok ss
  | k + 1, ss => do
    let ss ← mergeBlocks w paddr k ss
    let bs ← w.rdSpad (paddr + 8192 * k) 8192
    (ss.zipIdx).mapM fun x => match parseSet ((bs.drop (64 * x.2)).take 64) with
      | none => .ok x.1
      | some p => x.1.merge p

/-- The square root of a positive rational, inverted and correctly rounded to FP32 (R242). -/
def rsqrt32 (q : Rat) : W32 :=
  if q ≤ 0 then BitVec.ofNat 32 (f32.infCode false)
  else
    let y := 1 / q
    let e := ilog2 y / 2
    let u := max e (-126) - 23
    let z := y * pow2 (-2 * u)
    let n := Nat.sqrt z.floor.toNat
    let h : Rat := ((2 * n + 1 : Nat) : Rat) * ((2 * n + 1 : Nat) : Rat) / 4
    let r : Nat := if z < h then n else if h < z then n + 1 else if n % 2 = 0 then n else n + 1
    let v : Rat := (r : Rat) * pow2 u
    BitVec.ofNat 32 (if f32.maxFinite < v then f32.infCode false else f32.encode false v)

/-- R242, R247: a set's mu and rstd, and whether v was clamped, which an RMS set counts too. -/
def setStats (rms : Bool) (t eps : Rat) (s : SetSum) : W32 × W32 × Bool :=
  let nan := BitVec.ofNat 32 f32.nanCode
  if s.nonfin then (nan, nan, false)
  else match s.e, s.s1, s.s2 with
    | some e, .fin n1, .fin n2 =>
      let n : Rat := s.n
      let v : Int := s.n * n2 * 2 ^ 160 - n1 * n1
      let vc := if v < 0 then 0 else v
      let (mu, q) := if rms then (0, t * t * n2 * pow2 (2 * e - 158) / n)
        else (rne32 (Num.ofRat (t * n1 * pow2 (e - 159) / n)), t * t * vc * pow2 (2 * e - 318) / (n * n))
      (mu, rsqrt32 (q + eps), decide (v < 0))
    | _, _, _ => (0, rsqrt32 eps, false)

/-- NORM STAT (R149, R236 to R243). -/
def runNormStat (ok : Admit) (w : Work) (slots : Vector Slot 5) (st : CoreStat) (x y : Desc) (f : NormOp) (rs rg : W64) : Except Status MRes := do
  let group := decide (f.kind = 2)
  let rms := decide (f.kind = 1)
  let gs := gSize rg
  let eps := ofF32 (BitVec.ofNat 32 (bits rs 31 0))
  let esrc := bit rs 32
  let ee := emaxOf (bits rs 63 48)
  if !normWindowOk x group gs || decide (dSpace y ≠ 1) || decide (dMode y ≠ 0) || decide (gPaddr rg % 64 ≠ 0)
    || decide (spadSize < gPaddr rg + 8192 * (gPartN rg + (gPartOut rg).toNat)) || !eps.isFin || decide (eps.toRat < 0) then .error stDesc
  else if ((List.finRange 5).find? fun i => (dAccMask y).testBit i.val && slots[i].tag.isNone).isNone then .error stOvercommit
  else
    let ts ← readWindow ok w x true (winTiles x)
    if esrc && ts.any (fun t => decide (maxE (hEmax t.2.hdr) ee ≠ ee)) then .error stAnchor
    else
      let sums := (List.range (setCount x group gs)).map fun r =>
        let e := if esrc then ee else ts.foldl (fun e t => if tileOfSet x group gs t.1 r then maxE e (hEmax t.2.hdr) else e) none
        ts.foldl (fun s t => (List.range 4096).foldl (fun s i =>
          if (normSet x group gs t.1 i).map (·.1) = some r then s.addElem (t.2.full i) else s) s) (⟨.fin 0, .fin 0, 0, e, false, false⟩ : SetSum)
      let sums2 ← mergeBlocks w (gPaddr rg) (gPartN rg) sums
      let full := if group then gs * dD x * dH x * dW x else dRed x
      if sums2.any fun s => decide (2 ^ 30 < s.n) then .error stDesc
      else if !gPartOut rg && sums2.any fun s => decide (s.n ≠ full) then .error stNormCount
      else do
        let w ← if gPartOut rg then
            w.wr ok 1 (gPaddr rg + 8192 * gPartN rg) ((sums2.flatMap SetSum.bytes) ++ toLE 0 (64 * (128 - sums2.length)))
          else .ok w
        let rs := sums2.map (setStats rms (dScale x) eps.toRat)
        let v : VReg := Vector.ofFn fun i => if i.val < 128 then (rs.map (·.1)).getD i.val 0 else (rs.map (·.2.1)).getD (i.val - 128) 0
        let st := { st with clamped := satAdd st.clamped (rs.filter (·.2.2)).length, trunc := satAdd st.trunc (sums.filter (·.trunc)).length }
        .ok ⟨w, slots, [⟨.v f.vs, .v v, 0⟩], st⟩

/-- R244: one element normalised. -/
def normElem (rms : Bool) (x : Num) (mu rstd gamma beta : W32) : Num :=
  let xf := ofF32 (rne32 x)
  let d := if rms then xf else ofF32 (rne32 (xf.add (ofF32 mu).neg))
  let w := ofF32 (rne32 (d.mul (ofF32 rstd)))
  ofF32 (rne32 ((w.mul (ofF32 gamma)).add (ofF32 beta)))

/-- R244: the element of td_x's window that an element slot of td_y's tile takes: with one LAYOUT the slot itself; else the one of the same logical index (R54), none outside the window (log 38). -/
def applyFrom (x y : Desc) (ts : List ((Nat × Nat) × Tile)) (c : Nat × Nat) (slot : Nat) : Option (((Nat × Nat) × Tile) × Nat) :=
  if dLayout y = dLayout x then (ts.find? fun t => decide (t.1 = c)).map fun t => (t, slot)
  else (logicalIndex y c.1 c.2 slot).bind fun i => ts.findSome? fun t =>
    ((List.range 4096).find? fun s => decide (logicalIndex x t.1.1 t.1.2 s = some i)).map fun s => (t, s)

/-- NORM APPLY (R149, R244). -/
def runNormApply (ok : Admit) (w : Work) (slots : Vector Slot 5) (st : CoreStat) (wr : Writer) (x y : Desc) (f : NormOp) (rs rg : W64) (vs : VReg) : Except Status MRes := do
  let group := decide (f.kind = 2)
  let rms := decide (f.kind = 1)
  let gs := gSize rg
  let len := if group then dC x else dRed x
  let a := rs.toNat
  if !normWindowOk x group gs || decide (dSpace y ≠ 1) || decide (dMode y ≠ 0)
    || decide (bytesField x 25 16 ≠ bytesField y 25 16) || decide (bytesField x 47 32 ≠ bytesField y 47 32) then .error stDesc
  else if a % 64 ≠ 0 ∨ spadSize < a + 8 * len then .error stAddr
  else
    let ts ← readWindow ok w x true (winTiles x)
    let par ← w.rdSpad a (8 * len)
    let at_ (k : Nat) : W32 := BitVec.ofNat 32 (leAt par (4 * k) 4)
    let out (c : Nat × Nat) (slot : Nat) : Option Num := (applyFrom x y ts c slot).bind fun (t, s) => (normSet x group gs t.1 s).map fun p =>
      normElem rms ((t.2.full s).mul (.fin false (dScale x))) (vs.toList.getD p.1 0) (vs.toList.getD (128 + p.1) 0) (at_ p.2) (at_ (len + p.2))
    let w ← (winTiles y).foldlM (fun w c => writeTile ok w y c.1 c.2 (tileAddr y c.1 c.2) { wr with conv := f.conv } 0 4096 false (out c)) w
    .ok ⟨w, slots, [], st⟩

end Sys2Proof.Machine
end

