-- ==== Sys2Proof/Machine/Attn.lean ====
section
/-! DEFINITION. Attention steps and page translation: R147, R248 to R273. -/

namespace Sys2Proof.Machine

/-- KV_PAGE_INVALID. -/
def stPageInvalid : Status := 0x010F
/-- KV_PAGE_FAULT. -/
def stPageFault : Status := 0x0110

/-! The PAGED extension (R265) -/

/-- R265: PMODE, true for LIST. -/
def pList (e : Desc) : Bool := bit e 0
/-- R265: SEL. -/
def pSel (e : Desc) : Nat := bits e 2 1
/-- R265: HEAD. -/
def pHead (e : Desc) : Nat := bytesField e 3 2
/-- R265: SEQ. -/
def pSeq (e : Desc) : Nat := bytesField e 7 4
/-- R265: POOL_BASE. -/
def pPool (e : Desc) : Nat := bytesField e 13 8
/-- R265: PAGE_COUNT. -/
def pCount (e : Desc) : Nat := bytesField e 19 16
/-- R265: TABLE. -/
def pTable (e : Desc) : Nat := bytesField e 25 20
/-- R265: LIST_ORG. -/
def pOrg (e : Desc) : Nat := bytesField e 31 28
/-- R265: LIST_LEN. -/
def pLen (e : Desc) : Nat := bytesField e 35 32

/-- R262: bytes of a frame. -/
def frameSize (fmt : Nat) : Nat := if fmt = 9 then 40960 else 73728

/-- R265, R267: whether a PAGED descriptor and its extension may be used in a partition of so many hearths. -/
def pagedOk (d e : Desc) (hearths : Nat) : Bool :=
  decide (dLayout d = 0) && decide (dSpace d = 0) && decide (dRed d = 128) && decide (dBase d = 0)
  && (decide (dFmt d = 3) || isInt (dFmt d))
  && decide (pSel e ≠ 3) && decide (bits e 7 3 = 0) && decide (bytesField e 1 1 = 0) && decide (pPool e % 4096 = 0)
  && decide (bytesField e 15 14 = 0) && decide (bytesField e 27 26 = 0) && decide (bytesField e 63 36 = 0)
  && (if pList e then decide (pTable e % 64 = 0) else decide (pTable e % 4 = 0) && decide (pOrg e = 0))
  && (if pList e then decide (4 ≤ hearths) else decide (hearths ≤ 2))

/-- R271: whether a page index is one that the extension translates. -/
def pageInRange (e : Desc) (k : Nat) : Bool := decide (pOrg e ≤ k) && decide (k < pOrg e + pLen e)

/-- R271: the frame of a page-table entry, or KV_PAGE_FAULT. -/
def entryFrame (e : Desc) (x : W32) : Except Status Nat :=
  if !bit x 31 || decide (bits x 30 24 ≠ 0) || decide (pCount e ≤ bits x 23 0) then .error stPageFault else .ok (bits x 23 0)

/-- R270: the staged entry of a page index in list mode. -/
def listEntry (w : Work) (e : Desc) (k : Nat) : Except Status W32 :=
  if !pageInRange e k then .error stPageFault
  else do
    let bs ← w.rdSpad (pTable e + 4 * (k - pOrg e)) 4
    .ok (BitVec.ofNat 32 (leNat bs))

/-- R262, R271: the module address of a frame; it lies in HBM whole. -/
def frameAddr (d e : Desc) (f : Nat) : Except Status Nat :=
  let a := pPool e + f * frameSize (dFmt d)
  if hbmTop < a + frameSize (dFmt d) then .error stAddr else .ok a

/-- R264: the page header's check; answers COUNT. -/
def pageHeader (ok : Admit) (w : Work) (d e : Desc) (k a : Nat) : Except Status Nat := do
  let bs ← w.rdMod ok a 64
  if leAt bs 0 4 ≠ pSeq e ∨ leAt bs 4 2 ≠ pHead e ∨ leAt bs 6 1 % 16 ≠ dFmt d ∨ leAt bs 8 4 ≠ k ∨ 256 < leAt bs 12 2 then .error stPageInvalid
  else .ok (leAt bs 12 2)

/-- R262, R263: where page row tile `t`'s tile `r` of K (SEL 0) or V (SEL 1) lies in a frame. -/
def pageTileAddr (d : Desc) (sel a t r : Nat) : Nat := a + 1088 + (8 * sel + 4 * t + r) * recSize (dFmt d)

/-- R263, R272: a tile read straight from a frame, with the header checked against its expected index. -/
def readPageTile (ok : Admit) (w : Work) (d : Desc) (sel k a t r : Nat) : Except Status Tile :=
  readTile ok w d (k * 8 + 4 * t + r) (pageTileAddr d sel a t r) true

/-! Masks (R252 to R255) -/

/-- The mask descriptor of R252. -/
structure Mask where
  d : Desc
  deriving DecidableEq, Repr

/-- R252: SEG_EN. -/
def Mask.seg (m : Mask) : Bool := bit m.d 0
/-- R252: WIN_EN. -/
def Mask.win (m : Mask) : Bool := bit m.d 1
/-- R252: GLB_EN. -/
def Mask.glb (m : Mask) : Bool := bit m.d 2
/-- R252: a field by its bytes. -/
def Mask.get (m : Mask) (hi lo : Nat) : Nat := bytesField m.d hi lo

/-- R255: the check of the mask descriptor. -/
def Mask.ok (m : Mask) : Bool :=
  decide (bits m.d 7 3 = 0) && decide (m.get 7 5 = 0) && decide (m.get 63 40 = 0)
  && decide (m.get 1 1 ≤ 62) && decide (m.get 2 2 ≤ 62) && decide (m.get 1 1 + m.get 2 2 ≤ 62)
  && decide (m.get 3 3 ≤ 31) && decide (m.get 4 4 ≤ 31)
  && decide (m.get 11 8 ≤ 65535) && decide (m.get 15 12 ≤ 65535)
  && (!m.win || (decide (m.get 11 8 ≠ 0) && decide (m.get 15 12 ≠ 0)))
  && (let e := bits m.d 318 311; decide (0 < e) && decide (e < 255))

/-- R252: SIGMA's value. -/
def Mask.sigma (m : Mask) : Rat := (ofF32 (BitVec.ofNat 32 (m.get 39 36))).toRat

/-- R254: whether a key at position `pk` with attribute word `ak` is unmasked for a query at `pq` with word `aq`, the row and page limits apart. -/
def Mask.admits (m : Mask) (pq pk aq ak : Nat) : Bool :=
  let gw := m.get 11 8
  let gh := m.get 15 12
  let near (a b r : Nat) : Bool := decide (a ≤ b + r) && decide (b ≤ a + r)
  let tq := pq / (gw * gh)
  let tk := pk / (gw * gh)
  (!m.seg || decide (aq % 65536 = ak % 65536))
  && (!m.win
      || (decide (tq ≤ tk + m.get 1 1) && decide (tk ≤ tq + m.get 2 2) && near ((pk / gw) % gh) ((pq / gw) % gh) (m.get 3 3) && near (pk % gw) (pq % gw) (m.get 4 4))
      || (m.glb && (aq.testBit 16 || ak.testBit 16)))

/-! The online softmax (R256 to R260) -/

/-- The state of a query row (R147). -/
structure AttnRow where
  m : W32
  l : W32
  o : List W32
  deriving DecidableEq, Repr

/-- The canonical FP32 NaN (R34). -/
def nan32 : W32 := BitVec.ofNat 32 f32.nanCode
/-- FP32 −infinity. -/
def ninf32 : W32 := BitVec.ofNat 32 (f32.infCode true)

/-- The larger of two values that are not NaN; the first where they are equal. -/
def maxNum (a b : W32) : W32 :=
  match ofF32 a, ofF32 b with
  | .inf false, _ => a
  | _, .inf false => b
  | .inf true, _ => b
  | _, .inf true => a
  | x, y => if x.toRat < y.toRat then b else a

/-- A quotient by IEEE 754 rules on exact values (R259). -/
def Num.div : Num → Num → Num
  | .nan, _ => .nan
  | _, .nan => .nan
  | .inf _, .inf _ => .nan
  | .inf a, .fin b _ => .inf (a != b)
  | .fin a _, .inf b => .fin (a != b) 0
  | .fin a x, .fin b y => if y = 0 then (if x = 0 then .nan else .inf (a != b)) else .fin (a != b) (x / y)

/-- exp2 with FP32 output (R257). -/
def exp2lane (x : W32) : W32 := sfnLane 0 0 x

/-- R256: the score of a pair from its 128 products: scale `c = σ × t_q × t_k`; an exact zero is +0. -/
def score (c : Rat) (ps : List Num) : W32 :=
  match ps.foldl Num.add (.fin false 0) with
  | .fin n x => rne32 (Num.ofRat (signed n x * c))
  | .inf s => rne32 (.inf (s != decide (c < 0)))
  | .nan => nan32

/-- R257, R258, R260: a row's update by one key block. R147 and R260 say that an XMAX step changes the maximum alone, R260 that it includes R258, whose NaN row is m, l and every o: an XMAX step that meets a NaN or +infinity makes all three NaN (DESIGN CHOICE, log 49). `ss` holds the unmasked scores with their value rows (already times t_v). Answers the row and whether it was rescaled. -/
def updateRow (first xmax : Bool) (row : AttnRow) (ss : List (W32 × List Num)) : AttnRow × Bool :=
  let row := if first then ⟨ninf32, 0, List.replicate 128 0⟩ else row
  if ofF32 row.m = .nan then (row, false)
  else if ss.any fun s => decide (ofF32 s.1 = .nan) || decide (ofF32 s.1 = .inf false) then (⟨nan32, nan32, List.replicate 128 nan32⟩, false)
  else
    let ss := ss.filter fun s => !decide (s.1 = ninf32)
    let mn := ss.foldl (fun m s => maxNum m s.1) row.m
    if mn = ninf32 then (row, false)
    else if xmax then ({ row with m := mn }, false)
    else
      let rises := decide (row.m ≠ ninf32) && decide ((ofF32 row.m).toRat < (ofF32 mn).toRat)
      let a := exp2lane (rne32 ((ofF32 row.m).add (ofF32 mn).neg))
      let mulA (x : W32) : W32 := if rises then rne32 ((ofF32 x).mul (ofF32 a)) else x
      let ps := ss.map fun s => (ofF32 (exp2lane (rne32 ((ofF32 s.1).add (ofF32 mn).neg))), s.2)
      let l := rne32 (ps.foldl (fun x p => x.add p.1) (ofF32 (mulA row.l)))
      let o := row.o.mapIdx fun i x => rne32 (ps.foldl (fun y p => y.add (p.1.mul (p.2.getD i (.fin false 0)))) (ofF32 (mulA x)))
      (⟨mn, l, o⟩, rises)

/-- R147, R251: the rows of a state. -/
def parseRows (bs : List Byte) : List AttnRow :=
  (List.range 64).map fun i =>
    ⟨BitVec.ofNat 32 (leAt bs (0x8000 + 4 * i) 4), BitVec.ofNat 32 (leAt bs (0x8100 + 4 * i) 4),
      (List.range 128).map fun d => BitVec.ofNat 32 (leAt bs (512 * i + 4 * d) 4)⟩

/-- R147: the bytes of a state. -/
def rowsBytes (rs : List AttnRow) : List Byte :=
  (rs.flatMap fun r => r.o.flatMap fun x => toLE x.toNat 4) ++ (rs.flatMap fun r => toLE r.m.toNat 4) ++ (rs.flatMap fun r => toLE r.l.toNat 4)

/-- R249: QH. -/
def rmQH (rm : W64) : Nat := bits rm 32 32
/-- R249: HNEW. -/
def rmHNew (rm : W64) : Bool := bit rm 33
/-- R249: KPOS. -/
def rmKpos (rm : W64) : Nat := bits rm 31 0
/-- R249: the address of the mask descriptor. -/
def rmMask (rm : W64) : Nat := bits rm 63 48 * 64

/-- R248, R265, R267, R272: the descriptor conditions of an ATTN. -/
def attnOk (q k v o : Desc) (kExt vExt : Option Desc) (hearths : Nat) : Bool :=
  let plainMat (d : Desc) : Bool := decide (dLayout d = 0) && decide (dMode d = 0) && decide (dSpace d = 1)
  plainMat q && [1, 2, 3, 4].contains (dFmt q) && decide (dON q = 1) && decide (dRN q = 4)
  && plainMat o && decide (dON o = 1) && decide (dRN o = 4)
  && decide (dFmt k = dFmt v)
  && (match kExt, vExt with
      | some ke, some ve =>
        decide (dMode k = 2) && decide (dMode v = 2) && pagedOk k ke hearths && pagedOk v ve hearths
        && decide (pSel ke = 0) && decide (pSel ve = 1) && decide (pSeq ke = pSeq ve) && decide (pHead ke = pHead ve)
        && decide (pPool ke = pPool ve) && decide (pCount ke = pCount ve) && decide (pTable ke = pTable ve) && decide (pList ke = pList ve)
      | none, none =>
        plainMat k && plainMat v && [1, 2, 3, 8, 9].contains (dFmt k) && decide (dRN k = 4) && decide (dRN v = 4)
        && decide (dRows k = dRows v) && decide (dO0 k = dO0 v) && decide (dON k = dON v)
      | _, _ => false)

/-- The key block as a step reads it: K and V tiles by head reduction tile, the row index of key 0 in its tile, keys present, attribute words. -/
structure KeyBlock where
  ks : List Tile
  vs : List Tile
  half : Nat
  valid : Nat
  words : List Nat
  deriving DecidableEq, Repr

/-- R250, R253, R262 to R264, R270, R272: the key block of a step. `entry` is the walker's translation. -/
def readKeys (ok : Admit) (w : Work) (m : Mask) (k v : Desc) (kExt : Option Desc) (f : AttnOp) (kpos : Nat) (entry : Option W32) : Except Status KeyBlock := do
  let attr := m.seg || m.glb
  match kExt with
  | some e =>
    let pi := kpos / 256
    let x ← match entry with
      | some x => .ok x
      | none => listEntry w e pi
    let fr ← entryFrame e x
    let a ← frameAddr k e fr
    let count ← pageHeader ok w k e pi a
    let u := kpos % 256
    let ks ← (List.range 4).mapM fun r => readPageTile ok w k 0 pi a (u / 128) r
    let vs ← if f.xmax then .ok [] else (List.range 4).mapM fun r => readPageTile ok w v 1 pi a (u / 128) r
    let wb ← if attr then w.rdMod ok (a + 64 + 4 * u) 256 else .ok []
    .ok ⟨ks, vs, (u / 64) % 2, min (count - u) (dRows k - kpos), (List.range 64).map fun j => leAt wb (4 * j) 4⟩
  | none =>
    let kbase := m.get 23 20
    let u := kpos - kbase
    if kpos < kbase ∨ u / 128 < dO0 k ∨ dO0 k + dON k ≤ u / 128 then .error stDesc
    else do
      let ks ← (List.range 4).mapM fun r => readWinTile ok w k (u / 128) (dR0 k + r) true
      let vs ← if f.xmax then .ok [] else (List.range 4).mapM fun r => readWinTile ok w v (u / 128) (dR0 v + r) true
      let a : Int := (m.get 31 28 : Int) + 4 * ((kpos : Int) - m.get 35 32)
      if attr && (decide (a < 0) || decide ((spadSize : Int) < a + 256)) then .error stAddr
      else do
        let wb ← if attr then w.rdSpad a.toNat 256 else .ok []
        .ok ⟨ks, vs, (u / 64) % 2, dRows k - 64 * (u / 64), (List.range 64).map fun j => leAt wb (4 * j) 4⟩

/-- ATTN (R147, R248 to R260, R272). -/
def runAttn (ok : Admit) (w : Work) (slots : Vector Slot 5) (st : CoreStat) (wr : Writer) (hearths : Nat)
    (q k v : Desc) (kExt vExt : Option Desc) (o : Desc) (f : AttnOp) (rs rm : W64) (entry : Option W32) : Except Status MRes := do
  let a := rs.toNat
  let kpos := rmKpos rm
  let qh := rmQH rm
  if !attnOk q k v o kExt vExt hearths || decide (kpos % 64 ≠ 0) then .error stDesc
  else if a % 64 ≠ 0 ∨ spadSize < a + 33280 then .error stAddr
  else
    let mb ← w.rdSpad (rmMask rm) 64
    let m : Mask := ⟨BitVec.ofNat 512 (leNat mb)⟩
    if !m.ok then .error stDesc
    else
      let attr := m.seg || m.glb
      if attr && decide (spadSize < m.get 27 24 + 4 * (64 * qh) + 256) then .error stAddr
      else do
        let qw ← if attr then w.rdSpad (m.get 27 24 + 4 * (64 * qh)) 256 else .ok []
        let qs ← (List.range 4).mapM fun r => readWinTile ok w q (dO0 q) (dR0 q + r) true
        let kb ← readKeys ok w m k v kExt f kpos entry
        let sb ← w.rdSpad a 33280
        let elemOf (ts : List Tile) (row d : Nat) : Num := ((ts[d / 32]?).map fun t => t.full (slotOf 0 row (d % 32))).getD (.fin false 0)
        let c := m.sigma * dScale q * dScale k
        let live (i : Nat) : Bool := decide (128 * dO0 q + 64 * qh + i < dRows q)
        let out := (parseRows sb).mapIdx fun i row =>
          if !live i then (row, false)
          else
            let pq := m.get 19 16 + 128 * dO0 q + 64 * qh + i
            updateRow f.first f.xmax row ((List.range 64).filterMap fun j =>
              if j < kb.valid ∧ m.admits pq (kpos + j) (leAt qw (4 * i) 4) (kb.words.getD j 0) then
                some (score c ((List.range 128).map fun d => (elemOf qs (64 * qh + i) d).mul (elemOf kb.ks (64 * kb.half + j) d)),
                  if f.xmax then [] else (List.range 128).map fun d => (elemOf kb.vs (64 * kb.half + j) d).mul (.fin false (dScale v)))
              else none)
        let rows := out.map (·.1)
        let w ← w.wr ok 1 a (rowsBytes rows)
        let st := { st with rescale := satAdd st.rescale (out.filter (·.2)).length }
        if !f.last then .ok ⟨w, slots, [], st⟩
        else
          let w ← (List.range 4).foldlM (fun w r => writeTile ok w o (dO0 o) (dR0 o + r) (tileAddr o (dO0 o) (dR0 o + r)) { wr with conv := 0 } (2048 * qh) 2048 (!rmHNew rm)
            (fun s =>
              let i := s / 32 - 64 * qh
              if !live i || (logicalIndex o (dO0 o) (dR0 o + r) s).isNone then none
              else
                let row := rows.getD i ⟨0, 0, []⟩
                some (if row.m = ninf32 then .fin false 0 else (ofF32 (row.o.getD (32 * r + s % 32) 0)).div (ofF32 row.l)))) w
          let st := { st with empty := satAdd st.empty ((List.range 64).filter fun i => live i && decide ((rows.getD i ⟨0, 0, []⟩).m = ninf32)).length }
          .ok ⟨w, slots, [], st⟩

end Sys2Proof.Machine
end

