-- ==== Sys2Proof/Machine/Ops.lean ====
section
/-! DEFINITION. The shared operations: cores and partitions, module time, admission of accesses, the event log, the end of a task and the result record (R97, R102, R110, R111, R298 to R301, R388 to R390, R401 to R403, R539 to R545). -/

namespace Sys2Proof.Machine

/-! Statuses (R538) not named elsewhere -/

/-- CANCELLED. -/
def stCancelled : Status := 0x0001
/-- WCTR_DOUBLE_CLAIM. -/
def stDoubleClaim : Status := 0x0103
/-- TOKEN_INVALID. -/
def stToken : Status := 0x0109
/-- WAIT_TIMEOUT. -/
def stWaitTimeout : Status := 0x010A
/-- BARRIER_MISMATCH. -/
def stBarrier : Status := 0x010B
/-- ACC_PLAN_INFEASIBLE. -/
def stAccPlan : Status := 0x010D
/-- SLAG_POOL_FULL. -/
def stPoolFull : Status := 0x0201
/-- REHEAT_LADDER_EXHAUSTED. -/
def stLadder : Status := 0x0202
/-- POOL_LAYOUT_INVALID. -/
def stPoolLayout : Status := 0x0203
/-- PRECISION_DECL_INVALID. -/
def stPrecision : Status := 0x0204
/-- HBM_STACK_FENCED. -/
def stFenced : Status := 0x0302
/-- QUENCH. -/
def stQuench : Status := 0x0303
/-- TIER_ERROR. -/
def stTier : Status := 0x0304
/-- VAULT_DENIED. -/
def stVault : Status := 0x0305
/-- COLL_MISMATCH. -/
def stCollMismatch : Status := 0x0401
/-- COLL_TIMEOUT. -/
def stCollTimeout : Status := 0x0402
/-- LINK_DOWN. -/
def stLinkDown : Status := 0x0403
/-- LINK_AUTH_FAIL. -/
def stLinkAuth : Status := 0x0404
/-- LINK_PROTO_MISMATCH. -/
def stLinkProto : Status := 0x0405
/-- REFUSED_QUEUE_FULL. -/
def stQueueFull : Status := 0x0501
/-- REFUSED_TOO_LARGE. -/
def stTooLarge : Status := 0x0502
/-- REFUSED_NOT_PERMITTED. -/
def stNotPermitted : Status := 0x0503
/-- PARTITION_CHANGING. -/
def stPartChanging : Status := 0x0504
/-- SCHEDULE_IMAGE_INVALID. -/
def stImage : Status := 0x0505
/-- GANG_START_TIMEOUT. -/
def stGang : Status := 0x0506
/-- QUEUE_WAIT_EXPIRED. -/
def stQueueWait : Status := 0x0507
/-- SESSION_AUTH_FAIL. -/
def stSession : Status := 0x0803
/-- DRAW_BUDGET_INFEASIBLE. -/
def stDraw : Status := 0x0901
/-- THERMAL_TRIP. -/
def stThermal : Status := 0x0902

/-! Cores and hearths (R3) -/

/-- A core. -/
def State.core (s : State) (g : Fin 512) : Core := s.cores[g]

/-- The state with a core replaced. -/
def State.setCore (s : State) (g : Fin 512) (c : Core) : State := { s with cores := s.cores.set g c }

/-- The state with a core changed. -/
def State.modCore (s : State) (g : Fin 512) (f : Core → Core) : State := s.setCore g (f (s.core g))

/-- The state with a hearth changed. -/
def State.modHearth (s : State) (h : Fin 8) (f : Hearth → Hearth) : State := { s with hearths := s.hearths.set h (f s.hearths[h]) }

/-- The state with a partition changed. -/
def State.modPart (s : State) (p : Fin 8) (f : Part → Part) : State := { s with parts := s.parts.set p (f s.parts[p]) }

/-- The hearth of a core. -/
def hearthOf (g : Fin 512) : Fin 8 := ⟨g.val / 64, by omega⟩

/-- The core with a global id, the id taken modulo 512. -/
def coreId (n : Nat) : Fin 512 := ⟨n % 512, by omega⟩

/-! Partitions (R388) -/

/-- R388: the partition that holds a hearth. -/
def State.partOf (s : State) (h : Fin 8) : Option (Fin 8) :=
  (List.finRange 8).reverse.find? fun p => decide (p ≤ h) && decide (s.parts[p].mode ≠ .none)

/-- R388: the hearths of the partition that begins at `p`. -/
def State.partSize (s : State) (p : Fin 8) : Nat :=
  match (List.finRange 8).find? fun q => decide (p < q) && decide (s.parts[q].mode ≠ .none) with
  | some q => q.val - p.val
  | none => 8 - p.val

/-- Whether a hearth lies in the partition that begins at `p`. -/
def State.inPart (s : State) (p h : Fin 8) : Bool := decide (p ≤ h) && decide (h.val < p.val + s.partSize p)

/-- The partition of a core. -/
def State.partOfCore (s : State) (g : Fin 512) : Option (Fin 8) := s.partOf (hearthOf g)

/-- R102: the cores that belong to the task of a partition. -/
def State.members (s : State) (p : Fin 8) : List (Fin 512) :=
  (List.finRange 512).filter fun g => s.inPart p (hearthOf g) && (s.core g).member

/-- The cores of a partition. -/
def State.partCores (s : State) (p : Fin 8) : List (Fin 512) := (List.finRange 512).filter fun g => s.inPart p (hearthOf g)

/-- The state with a change applied to each core of a list. -/
def State.modCores (s : State) (gs : List (Fin 512)) (f : Fin 512 → Core → Core) : State := gs.foldl (fun s g => s.modCore g (f g)) s

/-- The task that a core's partition runs. -/
def State.taskOf (s : State) (g : Fin 512) : Option (Fin 8 × Task) :=
  (s.partOfCore g).bind fun p => s.parts[p].task.map fun t => (p, t)

/-- The state with a partition's task changed. -/
def State.modTask (s : State) (p : Fin 8) (f : Task → Task) : State := s.modPart p fun x => { x with task := x.task.map f }

/-- R110, R111: whether an end of a task was detected in an earlier cycle than this one; work that meets a fault in the same cycle still counts. -/
def Task.over (t : Task) (now : Nat) : Bool := t.ending.any fun e => decide (e.at_ ≠ now)

/-- R110, R111: whether a core's task runs, and no end of it was detected before this cycle. -/
def State.live (s : State) (g : Fin 512) : Bool :=
  (s.core g).member && (match s.taskOf g with
    | some (_, t) => decide (t.phase = .running) && !t.over s.now
    | none => false)

/-- R110, R170: whether the units of a core still act: it is live and has detected no fault itself. -/
def State.acts (s : State) (g : Fin 512) : Bool := s.live g && decide ((s.core g).stat.faultStatus = 0)

/-- Whether a core may take an instruction: it acts, and no WAIT or barrier holds it (R124). -/
def State.canIssue (s : State) (g : Fin 512) : Bool := s.acts g && decide ((s.core g).mode = .run)

/-! Time (R23, R401): the clock counts CCLK periods of 0.4 ns -/

/-- Module time in ns at a clock value. -/
def State.nsAt (s : State) (t : Nat) : Nat := (t - s.pwr.readyAt) * 2 / 5

/-- Clock periods in a number of ns. -/
def nsTicks (n : Nat) : Nat := ceilDiv (n * 5) 2
/-- Clock periods in a number of µs. -/
def usTicks (n : Nat) : Nat := n * 2500
/-- Clock periods in a number of ms. -/
def msTicks (n : Nat) : Nat := n * 2500000

/-- A fresh free value (log 3). -/
def State.draw (s : State) : BitVec 256 × State := (Config.freeValue s.freeCtr, { s with freeCtr := s.freeCtr + 1 })

/-! Admission of accesses (R95, R298, R299, R323, R326 to R328, R478) -/

/-- R443, R444: whether host-tier requests reach the host. -/
def State.hostUp (s : State) : Bool := s.larcy.up && !s.larcy.d3hot

/-- R321: the place of a byte at an offset of the vault window: its vault stack, and the offset within that stack. -/
def vaultPlace (v : Nat) : Nat × Nat := (v / 65536 % 8, v / 65536 / 8 * 65536 + v % 65536)

/-- R326: whether every 64 KiB granule of a vault range lies on a stack in service. -/
def State.vaultUp (s : State) (v n : Nat) : Bool :=
  (List.range ((v + n - 1) / 65536 - v / 65536 + 1)).all fun i => s.glb.vaultPresent.getLsbD (vaultPlace (65536 * (v / 65536 + i))).1

/-- The admission of an access by a core's task. -/
def State.admits (s : State) (g : Fin 512) : Admit := fun write a n =>
  if n = 0 then none
  else if a < hbmTop then
    match s.partOfCore g with
    | none => some stAddr
    | some p =>
      let lo := p.val * 2 ^ 38
      if lo ≤ a ∧ a + n ≤ lo + s.partSize p * 2 ^ 38 then none else some stAddr
  else if a < vaultBase then some stAddr
  else if a < vaultTop then
    if vaultTop < a + n then some stAddr
    else if write then some stVault
    else
      let v := a - vaultBase
      let granted := match s.taskOf g with
        | some (_, t) => t.vault.any fun r => decide (r.1.toNat ≤ v) && decide (v + n ≤ r.1.toNat + r.2.toNat)
        | none => false
      if !granted then some stVault else if !s.vaultUp v n then some stTier else none
  else if a < hostBase then some stAddr
  else if hostTop < a + n then some stAddr
  else
    match s.taskOf g with
    | some (_, t) => if t.job.secure then some stAddr else if s.hostUp then none else some stTier
    | none => some stAddr

/-! The event log (R541 to R546) -/

/-- An entry before it has its sequence number (R543). -/
structure Event where
  status : Status
  event : Nat
  source : Nat
  unit : Nat
  flags : Nat
  part : Nat
  job : Nat
  detail : Nat
  deriving DecidableEq, Repr

/-- R543: the PART byte of a partition. -/
def State.partByte (s : State) (p : Fin 8) : Nat := p.val + 16 * s.partSize p

/-- R541, R543: the order of an entry among those of its cycle: SOURCE, then UNIT. -/
def entryKey (x : BitVec 256) : Nat := ((x >>> 24).setWidth 8).toNat * 65536 + ((x >>> 32).setWidth 16).toNat

/-- R543: an entry with a sequence number. -/
def withSeq (x : BitVec 256) (seq : W32) : BitVec 256 := (x &&& ~~~(0xFFFFFFFF#256 <<< 64)) ||| (seq.setWidth 256 <<< 64)

/-- R541: an entry at its place among those of its cycle. -/
def insertEntry (x : BitVec 256) : List (BitVec 256) → List (BitVec 256)
  | [] => [x]
  | y :: r => if entryKey y ≤ entryKey x then y :: insertEntry x r else x :: y :: r

/-- R543: the 32 bytes of an event of this moment, without its sequence number. -/
def State.entryOfEvent (s : State) (e : Event) : BitVec 256 :=
  let early := decide (s.pwr.phase ≠ .ready)
  let time := if early then 0 else s.nsAt s.now
  BitVec.ofNat 256 (e.status.toNat + e.event * 2 ^ 16 + e.source * 2 ^ 24 + e.unit * 2 ^ 32
    + (e.flags + if early then 8 else 0) * 2 ^ 48 + e.part * 2 ^ 56 + (time % 2 ^ 64) * 2 ^ 96 + e.job * 2 ^ 160 + e.detail * 2 ^ 192)

/-- R541: how many of the newest entries are of this clock period. -/
def State.evNow (s : State) : Nat := if s.glb.evAt = s.now then min s.glb.evSame s.glb.evlog.length else 0

/-- R541, R546: the entries that a selection can see: those of the periods that have passed. -/
def State.evShown (s : State) : List (BitVec 256) := s.glb.evlog.take (s.glb.evlog.length - s.evNow)

/-- R541, R543: an event takes the next sequence number, those of one clock period in the order of SOURCE and UNIT; the ring keeps the 4,096 most recent. -/
def State.log (s : State) (e : Event) : State :=
  let k := s.evNow
  let same := insertEntry (s.entryOfEvent e) (s.glb.evlog.drop (s.glb.evlog.length - k))
  let ring := s.evShown ++ same.mapIdx fun i x => withSeq x (s.glb.evNext - BitVec.ofNat 32 k + BitVec.ofNat 32 i)
  let full := decide (4096 < ring.length)
  { s with glb := { s.glb with
      evlog := if full then ring.drop 1 else ring
      evNext := s.glb.evNext + 1
      evAt := s.now
      evSame := k + 1
      evOver := satAdd s.glb.evOver full.toNat } }

/-! The end of a task (R109 to R111, R367, R540) -/

/-- R540: the order of statuses detected in one cycle; the rank of R367 among a core's fabric faults. -/
def statusRank (st : Status) : Nat :=
  if st = stQuench then 0 else if st = stThermal then 1 else if st = stFenced then 2
  else if st = stLinkAuth then 4 else if st = stLinkDown then 5 else if st = stCollMismatch then 6 else if st = stCollTimeout then 7
  else if st = stCancelled then 10 else 3

/-- Whether an ending takes the place of one already found: only in the same cycle, by R540, then R111. -/
def Ending.beats (x y : Ending) : Bool :=
  decide (x.at_ = y.at_) &&
  (let cls (e : Ending) : Nat := if e.remote.isSome then 9 else if 3 ≤ e.rank ∧ e.rank ≤ 7 then 3 else e.rank
   let core (e : Ending) : Nat := (e.core.map (·.val)).getD 512
   decide (cls x < cls y) || (decide (cls x = cls y) && decide (cls x = 3) &&
     (decide (core x < core y) || (decide (core x = core y) && decide (x.rank < y.rank)))))

/-- R111, R540: an end of a partition's task is detected. The first detected decides. -/
def State.endTask (s : State) (p : Fin 8) (e : Ending) : State :=
  s.modTask p fun t => match t.ending with
    | none => { t with ending := some e }
    | some y => if e.beats y then { t with ending := some e } else t

/-- An ending detected at a core (R110, R545): its bundle and, for a transfer, its queue. -/
def State.coreEnding (s : State) (g : Fin 512) (st : Status) (bundle : Option (BitVec 13)) (q : Nat) (detail : Nat) : Ending :=
  ⟨st, s.now, statusRank st, some g, bundle, 1, BitVec.ofNat 16 g.val,
    BitVec.ofNat 64 ((bundle.map (·.toNat)).getD 0xFFFF + q * 2 ^ 16), none, BitVec.ofNat 192 detail⟩

/-- R110, R113, R170: a core detects a fault, keeps its own status and bundle, and its task ends. -/
def State.coreFault (s : State) (g : Fin 512) (st : Status) (bundle : BitVec 13) (q : Nat := 0xFF) (detail : Nat := 0) : State :=
  let first := decide ((s.core g).stat.faultStatus = 0)
  -- R367: of several faults that one core detects in one cycle, the one of the higher order is its own.
  let better := match s.taskOf g with
    | some (_, t) => t.ending.any fun y => decide (y.core = some g) && (s.coreEnding g st (some bundle) q detail).beats y
    | none => false
  let s := s.modCore g fun c => if first || better then { c with stat := { c.stat with faultStatus := st, faultBundle := bundle } } else c
  match s.partOfCore g with
  | some p => s.endTask p (s.coreEnding g st (some bundle) q detail)
  | none => s

/-- An ending detected by a hearth, a stack, a link or another unit. -/
def State.unitEnding (s : State) (st : Status) (source unit logDetail : Nat) : Ending :=
  ⟨st, s.now, statusRank st, none, none, BitVec.ofNat 8 source, BitVec.ofNat 16 unit, BitVec.ofNat 64 logDetail, none, 0⟩

/-! The work memories of a core's units -/

/-- What the units of a core act on. -/
def State.work (s : State) (g : Fin 512) : Work :=
  ⟨(s.core g).spad, (s.core g).badParity, s.mem,
    match s.partOfCore g with | some p => s.hearths[p].widen | none => [],
    match s.taskOf g with | some (_, t) => t.overs | none => []⟩

/-- R214: the alternate region of a tensor, by the image's POOLS section. -/
def State.altOf (s : State) (g : Fin 512) (tid : Nat) : Option Nat :=
  match s.taskOf g with
  | some (_, t) => (t.pools.find? fun x => decide (x.1.toNat = tid)).bind fun x => x.2.2.map (·.toNat)
  | none => none

/-- The writer of tiles that a core is (R48, R54). -/
def State.writer (s : State) (g : Fin 512) (tid : Nat) : Writer :=
  ⟨g.val, (s.core g).epoch, match s.taskOf g with | some (_, t) => t.job.seed.toNat | none => 0, 0, s.altOf g tid⟩

/-- The memories that the units of a core leave. -/
def State.storeWork (s : State) (g : Fin 512) (w : Work) : State :=
  { s.modCore g (fun c => { c with spad := w.spad, badParity := w.bad }) with mem := w.mem }

/-- R215, R222: the widen list of a partition as the units leave it: at most 16 tensors, the last appended one named. -/
def State.storeWiden (s : State) (p : Fin 8) (l : List (BitVec 32 × Desc)) : State :=
  if l = s.hearths[p].widen then s
  else s.modHearth p fun h => { h with widen := l.take 16, widenTid := ((l.take 16).getLast?.map (·.1)).getD h.widenTid }

/-- The first core of a partition, which its units' control messages name (log 18). -/
def partCore (p : Fin 8) : Fin 512 := ⟨64 * p.val, by omega⟩

/-- R217, R402: what the record says of an overflowed tensor: its id, the needs of every core, the largest need of a core, that core. -/
def State.overflowDetail (s : State) (p : Fin 8) (tid : W32) (pool : BitVec 48) : Nat × Fin 512 :=
  let needs := (s.partCores p).map fun g =>
    let a := pool.toNat + 64 * g.val
    (g, leNat (s.mem.read (a + 12) 4), leNat (s.mem.read (a + 28) 4))
  let sat (n : Nat) : Nat := min n (2 ^ 32 - 1)
  let worst := needs.foldl (fun (b : Fin 512 × Nat) x => if b.2 < x.2.1 + x.2.2 then (x.1, x.2.1 + x.2.2) else b) (partCore p, 0)
  (leNat (toLE tid.toNat 4 ++ toLE (sat (needs.map (·.2.1)).sum) 4 ++ toLE (sat (needs.map (·.2.2)).sum) 4 ++ toLE (sat worst.2) 4 ++ toLE worst.1.val 2), worst.1)

/-- R215, R402: DETAIL of a 17th tensor that would enter the widen list; 0 where the list has room. -/
def State.widenOver (s : State) (g : Fin 512) (w : Work) : Option Nat :=
  (w.widen[16]?).map fun x => match s.partOfCore g with
    | some p => (s.overflowDetail p x.1 (BitVec.ofNat 48 (dPool x.2))).1
    | none => 0

/-- What the units leave, stored back, with the widen list's new tensors (R215). -/
def State.putWork (s : State) (g : Fin 512) (w : Work) : State :=
  let s1 := s.storeWork g w
  match s.partOfCore g with
  | none => s1
  | some p =>
    let more := (w.widen.take 16).length - s.hearths[p].widen.length
    (s1.storeWiden p w.widen).modTask p fun t => { t with overs := w.overs, widened := satAdd t.widened more }

/-! The result record (R401 to R403, R486) -/

/-- A write of bytes to host physical memory by the module, where HP0 reaches it. -/
def State.hostWrite (s : State) (a : Nat) (bs : List Byte) : State :=
  if s.hostUp then { s with mem := { s.mem with host := writeBytes s.mem.host a bs } } else s

/-- The bytes of a digest. -/
def digestBytes (d : Digest) : List Byte := toLE d.toNat 32

/-- R220: the reheat count and the latch, from the precision log where the image has one, else as the reheat branches went. -/
def State.reheatFacts (s : State) (t : Task) : Nat × Option (Nat × Nat) :=
  match t.plog with
  | some (a, n) =>
    let es := (List.range (n / 16)).map fun i => s.mem.read (a.toNat + 16 * i) 16
    ((es.map fun e => leAt e 2 1).sum, (es.find? fun e => (leAt e 9 1).testBit 1).map fun e => (leAt e 0 2, leAt e 4 4))
  | none => (t.reheats.length, t.latched.map fun x => (x.1.toNat, x.2.toNat))

/-- What a record says of how its job ended. -/
structure RecordEnd where
  status : Status
  core : Option (Fin 512)
  bundle : Option (BitVec 13)
  detail : BitVec 192
  refused : Bool
  deriving DecidableEq, Repr

/-- R401: the 256 bytes of a job's record. -/
def State.recordBytes (s : State) (j : Job) (t : Option Task) (e : RecordEnd) : List Byte :=
  let size := s.partSize j.part
  let hs := (List.finRange 8).filter fun h => s.inPart j.part h
  let sat (w n : Nat) : List Byte := toLE (min n (2 ^ (8 * w) - 1)) w
  let run (f : Task → Nat) : Nat := (t.map f).getD 0
  let reheat := (t.map s.reheatFacts).getD (0, none)
  let flags := j.sign.toNat + 2 * (run fun x => x.balEn.toNat) + 4 * j.secure.toNat + 8 * reheat.2.isSome.toNat + 16 * j.hostWeights.toNat + 32 * t.isNone.toNat
  let started := run (·.started)
  let wait := (match t with | some x => x.started | none => s.now) - j.arrived
  let elapsed := run fun x => (s.now - x.started) * size
  let slow := run fun x => if elapsed = 0 then 4096 else if elapsed ≤ x.runInterference then 2 ^ 32 - 1 else elapsed * 4096 / (elapsed - x.runInterference)
  let digests := if e.refused then toLE 0 96
    else digestBytes ((t.map (·.schedDigest)).getD 0) ++ digestBytes ((t.map (·.manifestDigest)).getD (if j.hostWeights then j.manifest else (s.sec.manifest.map (·.2)).getD 0))
      ++ digestBytes ((t.map (·.inputDigest)).getD 0)
  toLE e.status.toNat 2 ++ toLE flags 1 ++ toLE (if j.lc then 0 else 1) 1 ++ toLE j.id.toNat 4
  ++ toLE s.fab.moduleId.toNat 2 ++ toLE (j.part.val + 16 * size) 1 ++ toLE 1 1
  ++ toLE ((e.core.map (·.val)).getD 0xFFFF) 2 ++ toLE ((e.bundle.map (·.toNat)).getD 0xFFFF) 2
  ++ toLE (s.nsAt j.arrived) 8 ++ toLE (if t.isSome then s.nsAt started else 0) 8 ++ toLE (s.nsAt s.now) 8
  ++ sat 4 (wait / 2500) ++ toLE j.overtaken.toNat 4 ++ toLE (run (·.ordinal.toNat)) 4 ++ sat 4 reheat.1
  ++ toLE (run (·.tdc.toNat)) 8
  ++ sat 8 (if t.isSome then (hs.map fun h => s.hearths[h].bellowsStall).sum else 0)
  ++ sat 8 (if t.isSome then (hs.map fun h => s.hearths[h].drawStall).sum else 0)
  ++ sat 4 (run fun x => x.throttled / 2500) ++ sat 4 (if t.isSome then slow else 0)
  ++ toLE ((reheat.2.map (·.1)).getD 0xFFFFFFFF) 4 ++ toLE ((reheat.2.map (·.2)).getD 0xFFFFFFFF) 4
  ++ toLE (run (·.widened.toNat)) 4 ++ toLE j.tag.toNat 2 ++ toLE 0 2 ++ toLE e.detail.toNat 24
  ++ digests ++ (if e.refused then toLE 0 32 else digestBytes (Config.sha3 digests))

/-! Snoop ports and register writes (R443, R498 to R501) -/

/-- R500: an entry of a port's result queue: result, token or MSG_ID, byte count. -/
def snoopEntry (result : BitVec 64) (tag count : Nat) : BitVec 128 := BitVec.ofNat 128 (result.toNat + tag % 65536 * 2 ^ 64 + count * 2 ^ 80)

/-- R499, R500: a completed transfer or message reaches the ports attached to its stream. -/
def State.snoopDone (s : State) (stream : SnoopStream) (fold : BitVec 64) (bs : List Byte) (tag : Nat) : State :=
  { s with snoop := s.snoop.map fun p =>
      if p.stream ≠ some stream then p
      else if 64 ≤ p.results.length ∨ 2 ^ 32 < bs.length then { p with lost := satAdd p.lost 1 }
      else { p with results := p.results ++ [snoopEntry (crcFolded p.poly fold bs) tag bs.length] } }

/-- R498, R500: a transfer of a tuyere's services reaches its ports; the spec names no token for one, so the entry's tag is a free value (log 3). -/
def State.serviceDone (s : State) (t1 : Bool) (a : Nat) (bs : List Byte) : State :=
  if s.snoop.toList.any fun p => decide (p.stream = some (.service t1)) then
    let (r, s) := s.draw
    s.snoopDone (.service t1) (BitVec.ofNat 64 a) bs r.toNat
  else s

/-- R443: a write of a BAR0 register acts unless the function is in D3hot. -/
def State.barWrite (s : State) (f : State → State) : State := if s.larcy.d3hot then s else f s

/-- R403, R455: a record delivered to its address, signed where SIGN asks, and kept with the partition's last 64. The precision log is delivered with it; R220 and R403 name no address for it, and it is kept beside the record (DESIGN CHOICE, log 58). -/
def State.deliver (s : State) (j : Job) (bs : List Byte) (plog : List Byte := []) : State :=
  let (r, s) := if j.sign then s.draw else (0, s)
  let sig := if j.sign then sized 2420 (Config.mldsaSign (ascii "BROAMET-RESULT") bs r) else []
  let s := s.hostWrite j.resultAddr.toNat (bs ++ sig)
  let s := if j.secure || !s.hostUp then s else s.serviceDone false j.resultAddr.toNat (bs ++ sig)
  s.modPart j.part fun p => { p with records := (p.records ++ [KeptRecord.mk j.id j.ctx bs plog]).drop (p.records.length + 1 - 64) }

/-! Larcy contexts (R447, R449 to R452) -/

/-- R447: whether a completion queue has room for an entry. -/
def LCtx.room (c : LCtx) : Bool := decide ((c.cqTail + 1) % 2 ^ c.cqLog ≠ c.cqHead)

/-- R450: whether a context has an entry to post. -/
def LCtx.posts (c : LCtx) : Bool := c.done.isSome || !c.events.isEmpty

/-- R447, R454: whether a context has an unconsumed command; those of a closing context are discarded. -/
def LCtx.waits (c : LCtx) : Bool := decide (c.sqHead ≠ c.sqTail) && c.closing.isEmpty

/-- R450: Idle. -/
def LCtx.idle (c : LCtx) : Bool := !c.posts && c.busy.isNone && !c.waits

/-- R450: Runnable. -/
def LCtx.runnable (c : LCtx) : Bool := c.room && (c.posts || (c.waits && c.busy.isNone))

/-- R451: when a context became idle or blocked, as its clock and 1; 0 while it is neither. -/
def LCtx.refresh (c : LCtx) (now : Nat) : LCtx :=
  { c with
    idleSince := if c.idle then (if c.idleSince = 0 then now + 1 else c.idleSince) else 0
    blockedSince := if !c.idle && !c.runnable then (if c.blockedSince = 0 then now + 1 else c.blockedSince) else 0 }

/-- The open context of a number. -/
def State.ctx (s : State) (n : Fin 4096) : Option LCtx := s.larcy.ctxs.find? fun c => decide (c.num = n)

/-- The state with the command engine changed. -/
def State.modLarcy (s : State) (f : Larcy → Larcy) : State := { s with larcy := f s.larcy }

/-- R451, R452: a change of a context, which joins the list of waiting contexts where it becomes runnable and is not resident. -/
def State.modCtx (s : State) (n : Fin 4096) (f : LCtx → LCtx) : State :=
  let s := s.modLarcy fun l => { l with ctxs := l.ctxs.map fun c => if c.num = n then (f c).refresh s.now else c }
  match s.ctx n with
  | none => s
  | some c => if c.runnable && !c.resident && !s.larcy.waiting.contains n then s.modLarcy fun l => { l with waiting := l.waiting ++ [n] } else s

/-- R449: an event pends for the context that issued the work, while it is open. -/
def State.pushEvent (s : State) (n : Option (Fin 4096)) (e : LEvent) : State :=
  match n with
  | some n => s.modCtx n fun c => { c with events := c.events ++ [e] }
  | none => s

/-- R393, R396, R537: a queued job ends with a record, a JOB_END event and a log entry. -/
def State.endQueued (s : State) (j : Job) (st : Status) (detail : BitVec 192 := 0) : State :=
  let bs := s.recordBytes j none ⟨st, none, none, detail, false⟩
  let s := s.modPart j.part fun p => { p with lc := p.lc.filter (·.id ≠ j.id), be := p.be.filter (·.id ≠ j.id) }
  let s := s.deliver j bs
  let s := s.pushEvent j.ctx ⟨false, st, j.id⟩
  s.log ⟨st, 1, 0, 0, 1, s.partByte j.part, j.id.toNat, if j.lc then 0 else 1⟩

/-! Stacks and partitions out of service (R314, R319, R389, R539) -/

/-- Whether a partition holds a fenced or absent hearth or a quenched stack. -/
def State.partSick (s : State) (p : Fin 8) : Bool :=
  (List.finRange 8).any fun h => s.inPart p h && (!s.glb.hrtPresent.getLsbD h.val
    || (List.range 4).any fun k => decide ((s.mem.stk.toList[4 * h.val + k]?.map (·.mode)) ≠ some .inService))

/-- R539: the state a partition enters when its task ends, or when it goes out of service while it runs no job. -/
def State.restState (s : State) (p : Fin 8) : PartMode :=
  if s.pwr.dieTrip then .outOfService
  else if s.parts[p].mode = .stopping ∨ s.parts[p].mode = .stopped then .stopped
  else if s.partSick p then .outOfService
  else .idle

/-! Held registers (R533) -/

/-- Whether any partition holds a job, running or suspended. -/
def State.jobHeld (s : State) : Bool := s.parts.toList.any fun p => p.task.isSome

/-- R17, R10: SVC_SHARE of a written value, unless reserved. -/
def State.setBridge (s : State) (v : W32) : State :=
  let x := bits v 7 4
  if 1 ≤ x ∧ x ≤ 8 then { s with glb := { s.glb with svcShare := BitVec.ofNat 4 x } } else s

/-- R374: the module id of a written value. -/
def State.setModuleId (s : State) (v : W32) : State := { s with fab := { s.fab with moduleId := BitVec.ofNat 16 v.toNat } }

end Sys2Proof.Machine
end

