-- ==== Sys2Proof/Machine/FabricOps.lean ====
section
/-! DEFINITION. What the link layers do for a sender: rails, link pairs, packets, messages, acknowledgement, and the end of a pair (R342 to R359, R367, R373). -/

namespace Sys2Proof.Machine

/-- The state with the fabric changed. -/
def State.modFab (s : State) (f : Fabric → Fabric) : State := { s with fab := f s.fab }

/-- R343: the link of a hearth on a rail. -/
def linkOf (h : Fin 8) (r : Nat) : Fin 128 := ⟨(16 * h.val + r % 16) % 128, by omega⟩

/-- The hearth of a link. -/
def linkHearth (l : Fin 128) : Fin 8 := ⟨l.val / 16, by omega⟩

/-- Whether a pair joins a link to a peer's link on hearth `far` (R353). -/
def LinkPair.is (p : LinkPair) (l : Fin 128) (peer : BitVec 16) (far : Fin 8) : Bool :=
  decide (p.link = l) && decide (p.peer = peer) && decide (p.far = far)

/-- The pair between a link and a peer's link, where the table has it. -/
def State.findPair (s : State) (l : Fin 128) (peer : BitVec 16) (far : Fin 8) : Option LinkPair := s.fab.pairs.find? (·.is l peer far)

/-- The state with a pair changed. -/
def State.modPair (s : State) (l : Fin 128) (peer : BitVec 16) (far : Fin 8) (f : LinkPair → LinkPair) : State :=
  s.modFab fun x => { x with pairs := x.pairs.map fun p => if p.is l peer far then f p else p }

/-- A pair that is not set up yet. -/
def LinkPair.fresh (l : Fin 128) (peer : BitVec 16) (far : Fin 8) (now : Nat) : LinkPair :=
  ⟨l, peer, far, false, false, false, 0, none, none, 0, 0, 0, 0, 0, 0, [], 0, now, 0, [], 0, none, 0, now⟩

/-- The pair used longest ago. -/
def oldestPair : List LinkPair → Option LinkPair
  | [] => none
  | p :: r => match oldestPair r with
    | none => some p
    | some q => if p.lastUse ≤ q.lastUse then some p else some q

/-- R353: a place in the link's table of 1,024 pairs; `none` where every pair has unacknowledged packets. -/
def State.ensurePair (s : State) (l : Fin 128) (peer : BitVec 16) (far : Fin 8) : Option State :=
  if (s.findPair l peer far).isSome then some s
  else
    let table := s.fab.pairs.filter fun p => decide (p.link = l)
    let add (x : Fabric) : Fabric := { x with pairs := x.pairs ++ [LinkPair.fresh l peer far s.now] }
    if table.length < 1024 then some (s.modFab add)
    else match oldestPair (table.filter fun p => p.unacked.isEmpty) with
      | none => none
      | some v => some (s.modFab fun x => add { x with pairs := x.pairs.filter fun p => !p.is v.link v.peer v.far })

/-- R299 to R301: the hearth that owns an HBM address. -/
def State.ownerHearth (s : State) (a : Nat) : Fin 8 :=
  let h : Fin 8 := ⟨a / 2 ^ 38 % 8, by omega⟩
  match s.partOf h with
  | some p => if s.mem.spread.getLsbD p.val then ⟨(p.val + (a - p.val * 2 ^ 38) / 65536 % s.partSize p) % 8, by omega⟩ else h
  | none => h

/-- R344: the hearth that a packet goes to. -/
def State.destHearth (s : State) (src : Fin 512) (core : BitVec 9) (space : BitVec 3) (a : Nat) : Fin 8 :=
  if space ≠ 0 then hearthOf (coreId core.toNat) else if a < hbmTop then s.ownerHearth a else hearthOf src

/-- R344: whether a rail can carry a packet from hearth `h` to hearth `far` of a peer. -/
def State.railUsable (s : State) (h far : Fin 8) (peer : BitVec 16) (r : Nat) : Bool :=
  decide (s.fab.links[linkOf h r].mode = .up) && !((s.findPair (linkOf h r) peer far).any (·.down))

/-- R344: the rail of packet `k` of a message. -/
def State.pickRail (s : State) (src : Fin 512) (far : Fin 8) (peer : BitVec 16) (striped : Bool) (k : Nat) : Option Nat :=
  if striped then
    let us := (List.range 16).filter (s.railUsable (hearthOf src) far peer)
    us[k % us.length]?
  else ((List.range 16).map fun i => (src.val % 64 + i) % 16).find? (s.railUsable (hearthOf src) far peer)

/-- R345: bytes of the frame that carries a packet. -/
def TxPkt.size (p : TxPkt) : Nat := 70 + p.payload.length

/-- R354: packets leave in order while the replay buffer has room, each with the ACK_PSN of that moment. Answers the packets, those that leave now, and the room left. -/
def flushPkts (ack : BitVec 32) : Nat → List TxPkt → List TxPkt × List TxPkt × Nat
  | room, [] => ([], [], room)
  | room, p :: r =>
    if p.left then let x := flushPkts ack room r; (p :: x.1, x.2.1, x.2.2)
    else if p.size ≤ room then
      let q := { p with left := true, ackPsn := ack }
      let x := flushPkts ack (room - p.size) r
      (q :: x.1, q :: x.2.1, x.2.2)
    else (p :: r, [], 0)

/-- R346, R373: the ACK_PSN that a pair's packets carry; version 1 writes 0. -/
def LinkPair.ackPsn (p : LinkPair) : BitVec 32 := if p.version = 2 then BitVec.ofNat 32 p.rxNext else 0

/-- R345, R346: the frame of a packet of a pair. -/
def Fabric.frameOf (x : Fabric) (p : LinkPair) (k : TxPkt) : SentFrame :=
  ⟨p.link, p.peer, p.far, x.macPrefix, x.etherType, x.moduleId, some (p.txKey, p.txSalt), p.version.setWidth 4, k.ackPsn, k⟩

/-- R354: every pair of a link sends what its link's 256 KiB replay buffer takes. -/
def State.flushLink (s : State) (l : Fin 128) : State :=
  let used := (s.fab.pairs.flatMap fun p => if p.link = l then (p.unacked.filter (·.left)).map (·.size) else []).sum
  let r := s.fab.pairs.foldl (fun (acc : Nat × List LinkPair × List SentFrame) p =>
    if p.link = l ∧ p.up then
      let x := flushPkts p.ackPsn acc.1 p.unacked
      let idle := !(p.unacked.any (·.left))
      (x.2.2, acc.2.1 ++ [{ p with unacked := x.1, progressAt := if idle then s.now else p.progressAt }], acc.2.2 ++ x.2.1.map (s.fab.frameOf p))
    else (acc.1, acc.2.1 ++ [p], acc.2.2)) (262144 - used, [], [])
  s.modFab fun x => { x with pairs := r.2.1, sent := x.sent ++ r.2.2 }

/-- R351: a packet joins a pair's sequence. -/
def State.queuePkt (s : State) (l : Fin 128) (peer : BitVec 16) (far : Fin 8) (k : TxPkt) : State :=
  (s.modPair l peer far fun p => { p with txNext := p.txNext + 1, lastUse := s.now, unacked := p.unacked ++ [{ k with ctr := p.txNext, left := false }] }).flushLink l

/-! Setting a pair up (R353, R479, R480) -/

/-- R350: the payload of a control message. -/
def ctrlBytes (kind b1 : Nat) (fields : List Byte) : List Byte := toLE kind 1 ++ toLE b1 1 ++ toLE 0 2 ++ fields

/-- R479: a SETUP message, unencrypted, in as many packets as it needs; VER carries this module's offer (R373). -/
def State.sendSetup (s : State) (l : Fin 128) (peer : BitVec 16) (far : Fin 8) (kind : Nat) (content : List Byte) : State :=
  let bs := ctrlBytes kind 0 content
  let n := ceilDiv bs.length 4096
  s.modFab fun x => { x with sent := x.sent ++ (List.range n).map fun i =>
    ⟨l, peer, far, x.macPrefix, x.etherType, x.moduleId, none, x.protoMax.setWidth 4, 0,
      ⟨0, 6, 0, decide (i + 1 = n), 0, 0, 0, 0, 0, false, 0, 0, 0, BitVec.ofNat 16 i, 0, (bs.drop (4096 * i)).take 4096, true, 0, none, 0, none⟩⟩ }

/-- The agreement or secret with a peer. -/
def State.secretOf (s : State) (peer : BitVec 16) : Option Secret := s.fab.secrets.find? fun x => decide (x.peer = peer)

/-- The state with the entry of a peer replaced. -/
def State.putSecret (s : State) (x : Secret) : State :=
  s.modFab fun f => { f with secrets := f.secrets.filter (fun y => decide (y.peer ≠ x.peer)) ++ [x] }

/-- R479: this module's HELLO to a peer with which it has no agreement. -/
def State.sendHello (s : State) (l : Fin 128) (peer : BitVec 16) (far : Fin 8) : State :=
  if (s.secretOf peer).isSome then s
  else
    let (r, s) := s.draw
    let (n, s) := s.draw
    let hello := certificate ++ sized 1184 (Config.kemPublic r) ++ toLE n.toNat 32
    (s.putSecret ⟨peer, false, false, true, s.now, r, hello, 0, 0⟩).sendSetup l peer far 0x10 hello

/-- R480: this module's nonce for a link pair, once the secret is agreed. -/
def State.sendPair (s : State) (l : Fin 128) (peer : BitVec 16) (far : Fin 8) : State :=
  match s.findPair l peer far with
  | none => s
  | some p =>
    if p.nonce.isSome || p.up then s
    else
      let (r, s) := s.draw
      (s.modPair l peer far fun p => { p with nonce := some (r.setWidth 128) }).sendSetup l peer far 0x13 (toLE r.toNat 16)

/-- R353: a pair that is not up begins its setup: the agreement first, then the nonces. -/
def State.beginPair (s : State) (l : Fin 128) (peer : BitVec 16) (far : Fin 8) : State :=
  if (s.secretOf peer).any (·.agreed) then s.sendPair l peer far else s.sendHello l peer far

/-- R353 to R355, R373, R479: a packet sent on a rail's pair. The error is a status, or `none` for a stall. -/
def State.postPkt (s : State) (src : Fin 512) (peer : BitVec 16) (far : Fin 8) (striped : Bool) (k : TxPkt) : Except (Option Status) State :=
  match s.pickRail src far peer striped k.pktIndex.toNat with
  | none => .error (some stLinkDown)
  | some r =>
    let l := linkOf (hearthOf src) r
    if s.fab.secrets.any fun x => decide (x.peer = peer) && x.failed then .error (some stLinkAuth)
    else if (s.findPair l peer far).any (·.noVersion) then .error (some stLinkProto)
    else match s.ensurePair l peer far with
      | none => .error none
      | some s => .ok ((s.beginPair l peer far).queuePkt l peer far k)

/-- Packets sent one after another, all or none. -/
def State.postPkts (s : State) (src : Fin 512) (peer : BitVec 16) (striped : Bool) (ps : List (Fin 8 × TxPkt)) : Except (Option Status) State :=
  ps.foldlM (fun s x => s.postPkt src peer x.1 striped x.2) s

/-- The job tag of a core's task (R356). -/
def State.jobTag (s : State) (g : Fin 512) : BitVec 16 := ((s.taskOf g).map fun t => t.2.job.tag).getD 0

/-- What all packets of a DMA transfer or collective step have in common (R346, R348). -/
structure MsgHead where
  src : Fin 512
  peer : BitVec 16
  type : BitVec 4
  vc : BitVec 3
  core : BitVec 9
  space : BitVec 3
  token : Option (Fin 64 × BitVec 9)
  queue : Option (Fin 8)
  group : Option W32
  seq : Nat
  bundle : BitVec 13
  deriving DecidableEq, Repr

/-- R344: bytes cut at the 4 KiB boundaries of their destination address. -/
def cutPackets : Nat → Nat → List Byte → List (Nat × List Byte)
  | 0, _, _ => []
  | fuel + 1, a, bs =>
    if bs.isEmpty then []
    else
      let n := 4096 - a % 4096
      (a, bs.take n) :: cutPackets fuel (a + n) (bs.drop n)

/-- R346: packet `i` of a message of `n` packets; its MSG_ID is given when the message starts. -/
def MsgHead.pkt (m : MsgHead) (s : State) (final : Bool) (i n : Nat) (x : Nat × List Byte) : TxPkt where
  ctr := 0
  type := m.type
  vc := m.vc
  last := decide (i + 1 = n)
  dstAddr := BitVec.ofNat 48 x.1
  dstCore := m.core
  dstSpace := m.space
  tokenId := BitVec.ofNat 6 ((m.token.map (·.1.val)).getD 0)
  tokenCore := (m.token.map (·.2)).getD 0
  tv := m.token.isSome && final
  srcCore := BitVec.ofNat 9 m.src.val
  msgId := 0
  jobTag := s.jobTag m.src
  pktIndex := BitVec.ofNat 16 i
  epoch := (s.core m.src).epoch
  payload := x.2
  left := false
  ackPsn := 0
  busyAt := none
  bundle := m.bundle
  queue := m.queue

/-- A list cut into pieces of at most 65,536 (R349). -/
def messagePieces {α : Type} : Nat → List α → List (List α)
  | 0, _ => []
  | fuel + 1, xs => if xs.isEmpty then [] else xs.take 65536 :: messagePieces fuel (xs.drop 65536)

/-- The lowest MSG_ID that no message under way of the core carries. -/
def freeMsgId (used : List OutMsg) : BitVec 7 := BitVec.ofNat 7 (((List.range 128).find? fun i => !used.any fun m => m.started && decide (m.id.toNat = i)).getD 0)

/-- R349: whether two messages carry parts of one transfer or step. -/
def OutMsg.same (m n : OutMsg) : Bool := decide (m.seq = n.seq) && decide (m.queue = n.queue) && decide (m.group = n.group) && decide (m.bundle = n.bundle)

/-- R348, R349: the first message of a core that may start: fewer than 64 are under way, and a last message's earlier ones are acknowledged whole. -/
def Core.nextMsg (c : Core) : Option OutMsg :=
  if 64 ≤ (c.msgs.filter (·.started)).length then none
  else c.msgs.find? fun m => !m.started && !(m.lastOf && c.msgs.any fun n => n.same m && !n.lastOf)

/-- The first message that has not started, of the transfer of `m`, takes its MSG_ID; its packets have left it. -/
def startMsg (m : OutMsg) (id : BitVec 7) : List OutMsg → List OutMsg
  | [] => []
  | n :: r => if n = m then { n with id := id, started := true, held := [] } :: r else n :: startMsg m id r

/-- R348, R349, R353: the messages of a core start as far as they can. -/
def State.startMsgs (s : State) (g : Fin 512) : Nat → State
  | 0 => s
  | fuel + 1 =>
    match (s.core g).nextMsg with
    | none => s
    | some m =>
      let id := freeMsgId (s.core g).msgs
      let striped := decide (s.fab.stripe.toNat * 1024 < (m.held.map (·.2.payload.length)).sum)
      match s.postPkts g m.peer striped (m.held.map fun x => (x.1, { x.2 with msgId := id })) with
      | .ok s => (s.modCore g fun c => { c with msgs := startMsg m id c.msgs }).startMsgs g fuel
      | .error (some st) => if s.live g then s.coreFault g st m.bundle ((m.queue.map (·.val)).getD 0xFF) else s
      | .error none => s

/-- R350, R368: whether a packet is an END notice, which leaves although its task has ended. -/
def isEndNotice (k : TxPkt) : Bool := decide (k.type = 6) && decide (leAt k.payload 0 1 = 6)

/-- R355, R373: packets that can no longer be delivered end the tasks that sent them; an END notice's task has ended. -/
def State.failPkts (s : State) (ks : List TxPkt) (st : Status) : State :=
  ((ks.filter fun k => !isEndNotice k).map fun k => (coreId k.srcCore.toNat, k.bundle, k.queue, k.jobTag)).dedup.foldl (fun s x =>
    if s.live x.1 ∧ s.jobTag x.1 = x.2.2.2 then s.coreFault x.1 st x.2.1 ((x.2.2.1.map (·.val)).getD 0xFF) else s) s

/-- R353, R357: the stalled control packets of a core leave in order, as far as they can. -/
def State.startCtrls (s : State) (g : Fin 512) : Nat → State
  | 0 => s
  | fuel + 1 =>
    match (s.core g).ctrls with
    | [] => s
    | (peer, k) :: r =>
      match s.postPkt g peer (hearthOf (coreId k.dstCore.toNat)) false k with
      | .ok s => (s.modCore g fun c => { c with ctrls := r }).startCtrls g fuel
      | .error (some st) => ((s.modCore g fun c => { c with ctrls := r }).failPkts [k] st).startCtrls g fuel
      | .error none => s

/-- R348, R353: what a core has to send and has not sent starts; what must still wait is remembered. -/
def State.pumpCore (s : State) (g : Fin 512) : State :=
  let s := s.startCtrls g ((s.core g).ctrls.length + 1)
  let s := s.startMsgs g ((s.core g).msgs.length + 1)
  if (s.core g).ctrls.isEmpty && (s.core g).msgs.all (·.started) then s
  else s.modFab fun x => { x with stalled := if x.stalled.contains g then x.stalled else x.stalled ++ [g] }

/-- R348, R353: room appeared: the cores that wait for it send. -/
def State.pumpStalled (s : State) : State := s.fab.stalled.foldl State.pumpCore (s.modFab fun x => { x with stalled := [] })

/-- R348, R349: the packets of a transfer or step are to leave as messages. -/
def State.sendMsg (s : State) (m : MsgHead) (ps : List (Nat × List Byte)) : State :=
  let pieces := messagePieces (ps.length / 65536 + 1) ps
  let outs : List OutMsg := pieces.mapIdx fun j piece =>
    let final := decide (j + 1 = pieces.length)
    ⟨0, m.peer, m.seq, piece.length, m.queue, m.group, m.bundle, false, final && decide (1 < pieces.length),
      piece.mapIdx fun i x => (s.destHearth m.src m.core m.space x.1, m.pkt s final i piece.length x)⟩
  (s.modCore m.src fun c => { c with msgs := c.msgs ++ outs }).pumpCore m.src

/-- R348: a packet is acknowledged: its message has one packet less to go. -/
def State.ackPkt (s : State) (k : TxPkt) : State :=
  if k.type = 1 ∨ k.type = 2 then
    let g := coreId k.srcCore.toNat
    (s.modCore g fun c => { c with msgs := (c.msgs.map fun m => if m.started ∧ m.id = k.msgId then { m with packetsLeft := m.packetsLeft - 1 } else m).filter fun m => decide (m.packetsLeft ≠ 0) }).pumpCore g
  else s

/-- R354: every packet below counter `n` is acknowledged. -/
def State.ackBelow (s : State) (l : Fin 128) (peer : BitVec 16) (far : Fin 8) (n : Nat) : State :=
  match s.findPair l peer far with
  | none => s
  | some p =>
    let done := p.unacked.filter fun k => k.left && decide (k.ctr < n)
    if done.isEmpty then s
    else
      let s := s.modPair l peer far fun p => { p with unacked := p.unacked.filter (fun k => !(k.left && decide (k.ctr < n))), resends := 0, progressAt := s.now }
      ((done.foldl State.ackPkt s).flushLink l).pumpStalled

/-- R379: resends of a link since reset. -/
def State.countReplay (s : State) (l : Fin 128) (n : Nat) : State :=
  s.modFab fun x => { x with links := x.links.set l { x.links[l] with replays := satAdd x.links[l].replays n } }

/-- R351, R354: packets of a pair sent again, byte for byte. -/
def State.resend (s : State) (l : Fin 128) (peer : BitVec 16) (far : Fin 8) (ks : List TxPkt) : State :=
  match s.findPair l peer far with
  | none => s
  | some p => (s.modFab fun x => { x with sent := x.sent ++ ks.map (x.frameOf p) }).countReplay l ks.length

/-- R351, R354: an ACK or NAK leaves, with the next counter of its own series. A version 1 NAK writes ACK_PSN 0 (R373). -/
def State.sendAck (s : State) (l : Fin 128) (peer : BitVec 16) (far : Fin 8) (nak : Bool) (dstAddr : Nat) : State :=
  match s.findPair l peer far with
  | none => s
  | some p =>
    let ack := if nak then p.ackPsn else BitVec.ofNat 32 p.rxNext
    let k : TxPkt := ⟨2 ^ 63 + p.ackSeq, if nak then 5 else 4, 0, true, BitVec.ofNat 48 dstAddr, 0, 0, 0, 0, false, 0, 0, 0, 0, 0, [], true, ack, none, 0, none⟩
    let f := s.fab.frameOf p k
    (s.modPair l peer far fun p => { p with ackSeq := p.ackSeq + 1, rxCount := if nak then p.rxCount else 0, rxSince := if nak then p.rxSince else none }).modFab
      fun x => { x with sent := x.sent ++ [f] }

/-- R355: a pair goes down; each message with an unacknowledged packet on it fails. A tag failure also discards the module-pair secret. -/
def State.pairDown (s : State) (l : Fin 128) (peer : BitVec 16) (far : Fin 8) (auth : Bool) : State :=
  match s.findPair l peer far with
  | none => s
  | some p =>
    let st := if auth then stLinkAuth else stLinkDown
    let s := s.modPair l peer far fun p => { p with up := false, down := true, unacked := [], rxAhead := [], rxCount := 0, rxSince := none, nonce := none, peerNonce := none }
    let s := if auth then s.modFab fun x => { x with secrets := x.secrets.filter fun y => decide (y.peer ≠ peer) } else s
    ((s.failPkts p.unacked st).flushLink l).pumpStalled

/-- R355, R544: a pair goes down by itself. -/
def State.pairLost (s : State) (l : Fin 128) (peer : BitVec 16) (far : Fin 8) (auth : Bool) : State :=
  (s.log ⟨if auth then stLinkAuth else stLinkDown, 6, 5, l.val, 0, 0, 0, peer.toNat + s.fab.links[l].speed.toNat * 2 ^ 16⟩).pairDown l peer far auth

/-- R355, R544: a link goes down with all its pairs; the event log names the link. -/
def State.linkDown (s : State) (l : Fin 128) (m : LinkMode) : State :=
  let ps := s.fab.pairs.filter fun p => decide (p.link = l) && !p.down
  let s := s.log ⟨stLinkDown, 6, 5, l.val, 0, 0, 0, s.fab.links[l].speed.toNat * 2 ^ 16⟩
  let s := s.modFab fun x => { x with links := x.links.set l { x.links[l] with mode := m, speed := 0, tryMode := 0, since := s.now } }
  ps.foldl (fun s p => s.pairDown l p.peer p.far false) s

/-! Control messages (R350) -/

/-- A packet on VC0 that belongs to no message: SIGNAL or CTRL (R347, R350, R357). It waits behind those that stall (R353); where it cannot be sent, the task ends (R355). -/
def State.sendControl (s : State) (src : Fin 512) (peer : BitVec 16) (type : BitVec 4) (dst : BitVec 9) (addr : Nat) (tok : BitVec 6) (epoch : BitVec 16) (bundle : BitVec 13) (bs : List Byte) : State :=
  let k : TxPkt := ⟨0, type, 0, true, BitVec.ofNat 48 addr, dst, 1, tok, dst, false, BitVec.ofNat 9 src.val, 0, s.jobTag src, 0, epoch, bs, false, 0, none, bundle, none⟩
  (s.modCore src fun c => { c with ctrls := c.ctrls ++ [(peer, k)] }).pumpCore src

/-- A control message of a core's task (R350). -/
def State.control (s : State) (src : Fin 512) (peer : BitVec 16) (dst : BitVec 9) (bundle : BitVec 13) (bs : List Byte) : State :=
  s.sendControl src peer 6 dst 0 0 (s.core src).epoch bundle bs

/-- The other modules of a partition's job (R366, R368). -/
def State.otherModules (s : State) (p : Fin 8) : List (BitVec 16) :=
  match s.parts[p].task with
  | some t => t.job.modules.filter (· ≠ s.fab.moduleId)
  | none => []

/-- R366, R368, R370: a control message of a partition's unit to another module of its job; it belongs to the bundle of its core's barrier instruction where that is pending. -/
def State.unitControl (s : State) (p : Fin 8) (peer : BitVec 16) (bs : List Byte) : State :=
  let c := s.core (partCore p)
  s.control (partCore p) peer (BitVec.ofNat 9 (partCore p).val) ((c.arrival.map (·.bundle)).getD c.pc) bs

end Sys2Proof.Machine
end

