-- ==== Sys2Proof/Machine/Collect.lean ====
section
/-! DEFINITION. Collectives: the descriptor, the signature, RTS and CTS, data and reduction on receive (R72 to R74, R165, R356, R360 to R367). -/

namespace Sys2Proof.Machine

/-! The collective descriptor (R360) -/

/-- R360: ETYPE. -/
def cType (d : Desc) : Nat := bits d 1 0
/-- R360: NAXES. -/
def cAxes (d : Desc) : Nat := bytesField d 1 1
/-- R360: VC. -/
def cVc (d : Desc) : BitVec 3 := BitVec.ofNat 3 (bytesField d 3 2)
/-- R360: GROUP_ID. -/
def cGroup (d : Desc) : W32 := BitVec.ofNat 32 (bytesField d 7 4)
/-- R360: SEQ. -/
def cSeq (d : Desc) : W32 := BitVec.ofNat 32 (bytesField d 11 8)
/-- R360: ELEM_COUNT. -/
def cCount (d : Desc) : Nat := bytesField d 15 12
/-- R360: SEND_ADDR. -/
def cSend (d : Desc) : Nat := bytesField d 21 16
/-- R360: SEND_SPACE. -/
def cSendSpace (d : Desc) : Nat := bytesField d 22 22
/-- R360: RECV_SPACE. -/
def cRecvSpace (d : Desc) : Nat := bytesField d 23 23
/-- R360: RECV_ADDR. -/
def cRecv (d : Desc) : Nat := bytesField d 29 24
/-- R360: TIMEOUT_MS. -/
def cTimeout (d : Desc) : Nat := bytesField d 31 30
/-- R360: the size of an axis. -/
def cDim (d : Desc) (a : Nat) : Nat := bytesField d (33 + 2 * a) (32 + 2 * a)
/-- R360: RANK. -/
def cRank (d : Desc) : Nat := bytesField d 43 40
/-- R360: MEMBERS. -/
def cMembers (d : Desc) : Nat := bytesField d 53 48
/-- R360: PERM. -/
def cPerm (d : Desc) : Nat := bytesField d 61 56

/-- R361: the number of members. -/
def cSize (d : Desc) : Nat := cDim d 0 * cDim d 1 * cDim d 2 * cDim d 3

/-- R360, R361: the checks on the descriptor alone; that RED fits ETYPE is DEDUCED (log 19). -/
def collOk (d : Desc) (perm : Bool) (red : BitVec 2) : Bool :=
  decide (cType d ≠ 3) && decide (bits d 7 2 = 0) && decide (1 ≤ cAxes d) && decide (cAxes d ≤ 4)
  && decide (bytesField d 3 2 < 8) && !([0, 2, 3].contains (cVc d).toNat)
  && (decide (cType d ≠ 0) || decide (cCount d % 64 = 0))
  && decide (cSendSpace d ≤ 1) && decide (cRecvSpace d ≤ 1)
  && ((List.range 4).all fun a => decide (a < cAxes d) || decide (cDim d a = 1))
  && decide (cSize d ≤ 2 ^ 25) && decide (cRank d < cSize d)
  && decide (bytesField d 47 44 = 0) && decide (bytesField d 55 54 = 0) && decide (bytesField d 63 62 = 0)
  && (perm || decide (cPerm d = 0))
  && decide (red.toNat = match cType d with | 2 => 1 | 1 => 2 | _ => 0)

/-- R361: coordinates of a rank with coordinate `axis` moved by `up`. -/
def shiftRank (d : Desc) (axis : Nat) (up : Bool) : Nat :=
  let stride := ((List.range axis).map (cDim d)).foldl (· * ·) 1
  let n := cDim d axis
  let c := cRank d / stride % n
  cRank d - c * stride + (if up then (c + 1) % n else (c + n - 1) % n) * stride

/-- R361: the member that an entry of the table names; `none` where a reserved bit is set. -/
def memberEntry (x : W32) : Option (BitVec 16 × BitVec 9) :=
  if bits x 31 25 = 0 then some (BitVec.ofNat 16 (bits x 15 0), BitVec.ofNat 9 (bits x 24 16)) else none

/-- R364: the OPC byte. -/
def collOpc (perm : Bool) (red : BitVec 2) (axis : BitVec 2) (dir : Bool) : Byte :=
  BitVec.ofNat 8 (perm.toNat + 2 * red.toNat + if perm then 0 else 8 * axis.toNat + 32 * dir.toNat)

/-- R364: the signature. -/
def collSign (d : Desc) (opc : Byte) : W32 :=
  crc32c (toLE (cGroup d).toNat 4 ++ toLE (cSeq d).toNat 4 ++ [opc] ++ toLE (cType d) 1 ++ toLE 0 2 ++ toLE (cCount d) 4)

/-! Tokens in flight -/

/-- R94, R165: the completion token of a core's own work is on its way. -/
def State.ownToken (s : State) (g : Fin 512) (q : Option (Fin 8)) (dst : BitVec 9) (t : Fin 64) (bundle : BitVec 13) : State :=
  { s with tokens := s.tokens ++ [⟨g, q, 0, none, dst, t, 1, (s.core g).epoch, bundle⟩] }

/-! What arrives at a core (R347, R356, R363) -/

/-- How the receiver turns a packet away (R347, R354). -/
inductive Nak where
  | busy | denied | ended
  deriving DecidableEq, Repr

/-- R356: the partition of a destination. -/
def State.destPart (s : State) (core : BitVec 9) (space : BitVec 3) (a : Nat) : Option (Fin 8) :=
  if space = 0 then (if a < hbmTop then s.partOf ⟨a / 2 ^ 38 % 8, by omega⟩ else none)
  else s.partOfCore (coreId core.toNat)

/-- R356: whether a partition runs the job with a tag; else how the packet is refused. -/
def State.tagCheck (s : State) (p : Option (Fin 8)) (tag : BitVec 16) : Except Nak (Fin 8) :=
  match p with
  | none => .error .denied
  | some p =>
    match s.parts[p].task with
    | some t => if t.job.tag ≠ tag then .error .denied else if t.over s.now then .error .ended else .ok p
    | none =>
      match s.parts[p].records.getLast? with
      | some r => if leAt r.bytes 100 2 = tag.toNat ∧ leAt r.bytes 2 1 < 32 then .error .ended else .error .denied
      | none => .error .denied

/-- R356: whether `n` bytes at a place of this module are open to a job: its tag, and the bounds of its partition's memories. -/
def State.placeCheck (s : State) (core : BitVec 9) (space : BitVec 3) (a n : Nat) (tag : BitVec 16) : Except Nak Unit := do
  let p ← s.tagCheck (s.destPart core space a) tag
  let inside := if space = 0 then decide (p.val * 2 ^ 38 ≤ a) && decide (a + n ≤ (p.val + s.partSize p) * 2 ^ 38)
    else if space = 1 then decide (a + n ≤ spadSize)
    else decide (space = 2) && decide (a + n ≤ imemSize)
  if inside then .ok () else .error .denied

/-- A core with bytes written into its scratchpad. -/
def Core.putSpad (c : Core) (a : Nat) (bs : List Byte) : Core := { c with spad := writeBytes c.spad a bs, badParity := freshParity c.badParity a bs.length }

/-- A core with bytes written into its instruction memory. -/
def Core.putImem (c : Core) (a : Nat) (bs : List Byte) : Core := { c with imem := writeBytes c.imem a bs, badImem := freshParity c.badImem a bs.length }

/-- R347, R356: bytes written at a place of this module for a job. -/
def State.placeIn (s : State) (core : BitVec 9) (space : BitVec 3) (a : Nat) (bs : List Byte) (tag : BitVec 16) : Except Nak State := do
  s.placeCheck core space a bs.length tag
  .ok (if space = 0 then { s with mem := s.mem.write a bs }
    else if space = 1 then s.modCore (coreId core.toNat) fun c => c.putSpad a bs
    else s.modCore (coreId core.toNat) fun c => c.putImem a bs)

/-- R73: bytes of a run in the combine stage: its 32-byte header counts with its elements (DESIGN CHOICE, log 51: R73 gives the stage's size and not what of a run it holds). -/
def runSize (r : BilletRun) : Nat := 32 + (if r.kind = 1 then 24 else 4) * r.elems.length

/-- R73: whether the combine stage of a core takes a run. -/
def Core.stageRoom (c : Core) (r : BilletRun) : Bool := decide ((c.stage.map fun x => runSize x.run).sum + runSize r ≤ 65536)

/-- A change of the first collective that satisfies a test. -/
def modColl (t : Coll → Bool) (f : Coll → Coll) : List Coll → List Coll
  | [] => []
  | c :: r => if t c then f c :: r else c :: modColl t f r

/-- R363: whether data from a member belongs to a collective. -/
def Coll.takes (c : Coll) (srcMod : BitVec 16) (srcCore : BitVec 9) : Bool :=
  decide (c.srcMod = srcMod) && decide (c.srcCore = srcCore) && c.rtsGot && decide (c.recvLeft ≠ 0)

/-- R363: a WRITE of a collective counts toward its receive. -/
def State.countBytes (s : State) (core : BitVec 9) (space : BitVec 3) (a n : Nat) (srcMod : BitVec 16) (srcCore : BitVec 9) : State :=
  let isIts (x : Coll) : Bool := x.takes srcMod srcCore && decide (cType x.desc = 0) && decide (space.toNat = cRecvSpace x.desc)
    && decide (cRecv x.desc ≤ a) && decide (a + n ≤ cRecv x.desc + cCount x.desc)
  s.modCore (coreId core.toNat) fun c => { c with colls := modColl isIts (fun x => { x with recvLeft := x.recvLeft - n }) c.colls }

/-- R363: elements of a collective counted as received. -/
def State.countElems (s : State) (g : Fin 512) (ty n : Nat) (srcMod : BitVec 16) (srcCore : BitVec 9) : State :=
  s.modCore g fun c => { c with colls := modColl (fun x => x.takes srcMod srcCore && decide (cType x.desc = ty)) (fun x => { x with recvLeft := x.recvLeft - n }) c.colls }

/-- R74: one binary32 addition, rounded to nearest even. -/
def addF32 (a b : W32) : W32 := rne32 ((ofF32 a).add (ofF32 b))

/-- R71: a run read from its bytes; `none` where the header holds a reserved encoding or names more than the bytes hold. -/
def parseRun (bs : List Byte) : Option BilletRun :=
  let kind := leAt bs 0 1
  let n := leAt bs 22 2
  let w := if kind = 1 then 24 else 4
  if (kind ≠ 1 ∧ kind ≠ 2) ∨ leAt bs 1 1 / 2 ≠ 0 ∨ n = 0 ∨ 8192 < leAt bs 20 2 + n ∨ leAt bs 26 2 / 512 ≠ 0 ∨ leAt bs 28 4 ≠ 0 ∨ bs.length < 32 + w * n then none
  else some ⟨BitVec.ofNat 8 kind, (leAt bs 1 1).testBit 0, BitVec.ofNat 16 (leAt bs 2 2), BitVec.ofNat 32 (leAt bs 4 4), BitVec.ofNat 32 (leAt bs 8 4),
    BitVec.ofNat 32 (leAt bs 12 4), BitVec.ofNat 32 (leAt bs 16 4), BitVec.ofNat 16 (leAt bs 20 2), BitVec.ofNat 16 (leAt bs 24 2), BitVec.ofNat 9 (leAt bs 26 2),
    (List.range n).map fun i => BitVec.ofNat 192 (leAt bs (32 + w * i) w)⟩

/-- R71: the bytes of a run. -/
def runBytes (r : BilletRun) : List Byte :=
  [r.kind] ++ toLE r.null.toNat 1 ++ toLE r.anchor.toNat 2 ++ toLE r.ta.toNat 4 ++ toLE r.tb.toNat 4 ++ toLE r.row.toNat 4 ++ toLE r.col.toNat 4
  ++ toLE r.first.toNat 2 ++ toLE r.elems.length 2 ++ toLE r.epoch.toNat 2 ++ toLE r.producer.toNat 2 ++ toLE 0 4
  ++ r.elems.flatMap fun e => toLE e.toNat (if r.kind = 1 then 24 else 4)

/-- R73, R363: a billet run enters a core's combine stage. -/
def State.stageIn (s : State) (core : BitVec 9) (r : BilletRun) (src : Option (BitVec 16 × BitVec 9)) (tag : BitVec 16) : Except Nak State := do
  s.placeCheck core 1 0 0 tag
  let g := coreId core.toNat
  if (s.core g).stageRoom r then .ok (s.modCore g fun c => { c with stage := c.stage ++ [⟨r, src, false⟩] }) else .error .busy

/-- R108, R306: the task that would consume a lost word of a place ends. -/
def State.sumLost (s : State) (core : BitVec 9) (space : BitVec 3) (a : Nat) : State :=
  if space = 0 then match s.partOf (s.ownerHearth a) with
    | some p => s.endTask p (s.unitEnding stHbmData 2 (s.ownerHearth a).val 0xFFFF)
    | none => s
  else s.coreFault (coreId core.toNat) stParity (s.core (coreId core.toNat)).pc

/-- R74, R108, R306, R363: FP32 values added at a place, one after another in address order. -/
def State.addIn (s : State) (core : BitVec 9) (space : BitVec 3) (a : Nat) (vs : List W32) (tag : BitVec 16) : Except Nak State :=
  let old (i : Nat) : W32 := BitVec.ofNat 32 (leNat (if space = 0 then readBytes s.mem.hbm (a + 4 * i) 4 else readBytes (s.core (coreId core.toNat)).spad (a + 4 * i) 4))
  let lost := if space = 0 then s.mem.lost a (4 * vs.length) else parityHit (s.core (coreId core.toNat)).badParity a (4 * vs.length)
  if space = 2 then .error .denied
  else if lost then (s.placeCheck core space a (4 * vs.length) tag).map fun _ => s.sumLost core space a
  else s.placeIn core space a ((vs.mapIdx fun i v => toLE (addF32 (old i) v).toNat 4).flatten) tag

/-! Sending -/

/-- A read of a core's send buffer. -/
def State.readSend (s : State) (g : Fin 512) (space a n : Nat) : Except Status (List Byte) := (s.work g).rd (s.admits g) space a n

/-- R363: the runs of a send buffer, in order, up to the element count. -/
def State.readRuns (s : State) (g : Fin 512) (space : Nat) : Nat → Nat → Nat → Except Status (List BilletRun)
  | 0, _, _ => .ok []
  | fuel + 1, a, left =>
    if left = 0 then .ok []
    else do
      let h ← s.readSend g space a 32
      let w := if leAt h 0 1 = 1 then 24 else 4
      let n := leAt h 22 2
      let bs ← s.readSend g space a (32 + w * n)
      match parseRun bs with
      | none => .error stDesc
      | some r =>
        if left < n then .error stDesc
        else do
          let rest ← s.readRuns g space fuel (a + 32 + w * n) (left - n)
          .ok (r :: rest)

/-- R363: a run split into packet runs of at most `lim` elements, each with its own header. -/
def splitRun (lim : Nat) : Nat → BilletRun → List BilletRun
  | 0, _ => []
  | fuel + 1, r =>
    if r.elems.length ≤ lim then [r]
    else { r with elems := r.elems.take lim } :: splitRun lim fuel { r with first := r.first + BitVec.ofNat 16 lim, elems := r.elems.drop lim }

/-- R344, R363: FP32 runs split so that none crosses 4 KiB of its destination; each with the place of its first element. -/
def splitFp32 : Nat → Nat → List BilletRun → List (Nat × BilletRun)
  | 0, _, _ => []
  | _, _, [] => []
  | fuel + 1, a, r :: rs =>
    let n := min 1016 (max 1 ((4096 - a % 4096) / 4))
    if r.elems.length ≤ n then (a, r) :: splitFp32 fuel (a + 4 * r.elems.length) rs
    else (a, { r with elems := r.elems.take n }) :: splitFp32 fuel (a + 4 * n) ({ r with first := r.first + BitVec.ofNat 16 n, elems := r.elems.drop n } :: rs)

/-- R73: a collective's billet runs that a core of this module has not taken go into its stage as it has room. -/
def pumpRuns (src : Fin 512) (dst : BitVec 9) (tag : BitVec 16) : State → List BilletRun → Except Nak (State × List BilletRun)
  | s, [] => .ok (s, [])
  | s, r :: rs => match s.stageIn dst r (some (s.fab.moduleId, BitVec.ofNat 9 src.val)) tag with
    | .ok s => pumpRuns src dst tag s rs
    | .error .busy => .ok (s, r :: rs)
    | .error n => .error n

/-- Whether a collective of a core is the one issued with an order number. -/
def Coll.isSeq (c : Coll) (n : Nat) : Bool := decide (c.seq = n)

/-- R110: a collective ends its task. -/
def State.collFault (s : State) (g : Fin 512) (c : Coll) (st : Status) (detail : Nat := 0) : State := s.coreFault g st c.bundle 0xFF detail

/-- R73: the waiting runs of a core's collectives to cores of this module move on. -/
def State.pumpColl (s : State) (g : Fin 512) (c : Coll) : State :=
  match pumpRuns g c.dstCore (s.jobTag g) s c.todo with
  | .ok (s, left) => s.modCore g fun k => { k with colls := modColl (·.isSeq c.seq) (fun x => { x with todo := left }) k.colls }
  | .error _ => s.collFault g c stAddr

/-- R362, R363: the data of a collective leaves for its destination member. -/
def State.sendData (s : State) (g : Fin 512) (c : Coll) (recv : Nat) (space : BitVec 3) : State :=
  let d := c.desc
  let sent (s : State) : State := s.modCore g fun k => { k with colls := modColl (·.isSeq c.seq) (fun x => { x with dataSent := true }) k.colls }
  let head (ty : BitVec 4) : MsgHead := ⟨g, c.dstMod, ty, cVc d, c.dstCore, space, none, none, some (cGroup d), c.seq, c.bundle⟩
  let remote (ty : BitVec 4) (ps : List (Nat × List Byte)) : State := sent (s.sendMsg (head ty) ps)
  if cType d = 0 then
    match s.readSend g (cSendSpace d) (cSend d) (cCount d) with
    | .error st => s.collFault g c st
    | .ok bs =>
      if c.dstMod ≠ s.fab.moduleId then remote 1 (cutPackets (bs.length + 1) recv bs)
      else match s.placeIn c.dstCore space recv bs (s.jobTag g) with
        | .ok s => sent (s.countBytes c.dstCore space recv bs.length s.fab.moduleId (BitVec.ofNat 9 g.val))
        | .error _ => s.collFault g c stAddr
  else
    match s.readRuns g (cSendSpace d) (cCount d + 1) (cSend d) (cCount d) with
    | .error st => s.collFault g c st
    | .ok rs =>
      if rs.any fun r => decide (r.kind.toNat ≠ (if cType d = 2 then 1 else 2)) then s.collFault g c stDesc
      else if cType d = 2 then
        let ps := rs.flatMap fun r => splitRun 169 r.elems.length r
        if c.dstMod ≠ s.fab.moduleId then remote 2 (ps.map fun r => (0, runBytes r))
        else
          let s := s.modCore g fun k => { k with colls := modColl (·.isSeq c.seq) (fun x => { x with dataSent := true, todo := ps }) k.colls }
          s.pumpColl g { c with todo := ps }
      else
        let ps := splitFp32 (2 * cCount d + 2) recv rs
        if c.dstMod ≠ s.fab.moduleId then remote 2 (ps.map fun x => (x.1, runBytes x.2))
        else
          match ps.foldlM (fun s x => s.addIn c.dstCore space x.1 (x.2.elems.map fun e => e.setWidth 32) (s.jobTag g)) s with
          | .ok s => sent (s.countElems (coreId c.dstCore.toNat) 1 (cCount d) s.fab.moduleId (BitVec.ofNat 9 g.val))
          | .error _ => s.collFault g c stAddr

/-- R362: a CTS arrives: the collective that waits for it sends its data. -/
def State.ctsArrive (s : State) (g : Fin 512) (group seq : W32) (rank recv : Nat) (space : BitVec 3) : State :=
  match (s.core g).colls.find? fun c => decide (cGroup c.desc = group) && decide (cSeq c.desc = seq) && decide (c.dstRank = rank) && c.rtsSent && !c.ctsGot with
  | none => s
  | some c =>
    let s := s.modCore g fun k => { k with colls := modColl (·.isSeq c.seq) (fun x => { x with ctsGot := true, ctsAddr := BitVec.ofNat 48 recv, ctsSpace := space }) k.colls }
    s.sendData g c recv space

/-- R364, R402: the DETAIL of a mismatch. -/
def mismatchDetail (r : Rts) (rank : Nat) (mod : BitVec 16) (g : Fin 512) : Nat :=
  leNat (toLE r.rank 4 ++ toLE r.srcMod.toNat 2 ++ toLE r.srcCore.toNat 2 ++ toLE rank 4 ++ toLE mod.toNat 2 ++ toLE g.val 2)

/-- R362, R364: an RTS meets the collective it is for: signatures are compared, and a CTS answers. -/
def State.matchRts (s : State) (g : Fin 512) (c : Coll) (r : Rts) : State :=
  if collSign c.desc c.opc ≠ r.sign then s.collFault g c stCollMismatch (mismatchDetail r (cRank c.desc) s.fab.moduleId g)
  else
    let s := s.modCore g fun k => { k with colls := modColl (·.isSeq c.seq) (fun x => { x with rtsGot := true }) k.colls }
    if r.srcMod = s.fab.moduleId then s.ctsArrive (coreId r.srcCore.toNat) r.group r.seq (cRank c.desc) (cRecv c.desc) (BitVec.ofNat 3 (cRecvSpace c.desc))
    else s.control g r.srcMod r.srcCore c.bundle (ctrlBytes 2 0 (toLE r.group.toNat 4 ++ toLE r.seq.toNat 4 ++ toLE (cRank c.desc) 4 ++ toLE (cRecv c.desc) 6 ++ toLE (cRecvSpace c.desc) 1))

/-- R362: whether an RTS is for a collective: the same GROUP_ID, and its source is the sender. -/
def Coll.awaits (c : Coll) (r : Rts) : Bool :=
  decide (cGroup c.desc = r.group) && decide (c.srcMod = r.srcMod) && decide (c.srcCore = r.srcCore) && !c.rtsGot

/-- R362: an RTS arrives at a core; unmatched ones wait, up to 64. `none` where the core holds no more. -/
def State.rtsArrive (s : State) (g : Fin 512) (r : Rts) : Option State :=
  match (s.core g).colls.find? fun c => c.awaits r with
  | some c => some (s.matchRts g c r)
  | none => if (s.core g).rts.length < 64 then some (s.modCore g fun c => { c with rts := c.rts ++ [r] }) else none

/-- R362: the sender's RTS. -/
def State.sendRts (s : State) (g : Fin 512) (c : Coll) : State :=
  let d := c.desc
  let done (s : State) : State := s.modCore g fun k => { k with colls := modColl (·.isSeq c.seq) (fun x => { x with rtsSent := true }) k.colls }
  if c.dstMod = s.fab.moduleId then
    let s1 := done s
    match s1.rtsArrive (coreId c.dstCore.toNat) ⟨cGroup d, cSeq d, cRank d, collSign d c.opc, s.fab.moduleId, BitVec.ofNat 9 g.val⟩ with
    | some s2 => s2
    | none => s
  else
    (done s).control g c.dstMod c.dstCore c.bundle (ctrlBytes 1 0 (toLE (cGroup d).toNat 4 ++ toLE (cSeq d).toNat 4 ++ toLE (cRank d) 4 ++ toLE (collSign d c.opc).toNat 4))

/-- R362: the RTS of this module's cores that found core `g` full are sent again. -/
def State.retryRts (s : State) (g : Fin 512) : State :=
  (List.finRange 512).foldl (fun s k => (s.core k).colls.foldl (fun s c =>
    if !c.rtsSent && decide (c.dstMod = s.fab.moduleId) && decide (coreId c.dstCore.toNat = g) then s.sendRts k c else s) s) s

/-- R361, R362: a collective starts: its RTS leaves, and an RTS that waited for it is matched. -/
def State.collStart (s : State) (g : Fin 512) (c : Coll) : State :=
  let s := s.modCore g fun k => { k with colls := k.colls ++ [c] }
  let s := s.sendRts g c
  match (s.core g).rts.find? fun r => c.awaits r, (s.core g).colls.find? (·.isSeq c.seq) with
  | some r, some c2 =>
    if c2.rtsGot then s
    else
      let full := decide (64 ≤ (s.core g).rts.length)
      let s := (s.modCore g fun k => { k with rts := k.rts.erase r }).matchRts g c2 r
      if full then s.retryRts g else s
  | _, _ => s

/-- R73: the runs of a collective that wait for a combine stage of this module are tried again. -/
def State.collRetry (s : State) (g : Fin 512) (c : Coll) : State := if c.todo.isEmpty then s else s.pumpColl g c

/-- R363: whether a member's part of a collective is complete. -/
def Coll.complete (c : Coll) (k : Core) : Bool :=
  c.dataSent && c.todo.isEmpty && decide (c.recvLeft = 0) && !(k.msgs.any fun m => decide (m.group = some (cGroup c.desc)) && decide (m.seq = c.seq))

/-- R365: what a member still awaits, lowest rank first: rank, module, core. -/
def Coll.awaited (c : Coll) : Nat × BitVec 16 × BitVec 9 :=
  let needSrc := !c.rtsGot || decide (c.recvLeft ≠ 0)
  let needDst := !c.ctsGot
  if needSrc && (!needDst || decide (c.srcRank ≤ c.dstRank)) then (c.srcRank, c.srcMod, c.srcCore) else (c.dstRank, c.dstMod, c.dstCore)

end Sys2Proof.Machine
end

