-- ==== Sys2Proof/Machine/MUnit.lean ====
section
/-! DEFINITION. The draw governor, the page walker, and how the M queue starts and completes its entries (R128, R268 to R272, R517, R518). -/

namespace Sys2Proof.Machine

/-! The draw governor (R517, R518), in half amperes -/

/-- R517: the draw of an M-slot instruction. -/
def mDraw : MOp → Nat
  | .mxa a b _ _ _ _ => productDraw a b
  | .fold a b _ _ _ _ _ => if dFmt a = 0 ∨ dFmt b = 0 then 12 else 20
  | .brnd _ _ _ _ => 4
  | .spark a w _ _ _ _ _ => productDraw a w
  | .attn .. => 24
  | .normStat .. => 6
  | .normApply .. => 6
where
  /-- R517: the draw of an MXA or SPARK by its operands' formats. -/
  productDraw (a b : Desc) : Nat :=
    let small (d : Desc) : Bool := [5, 6, 7, 9].contains (dFmt d)
    if dFmt a = 0 ∨ dFmt b = 0 then 12
    else if isPlain (dFmt a) || isPlain (dFmt b) then 20
    else if small a && small b then 28
    else 22

/-- R510: whether THROTTLE_N is asserted. -/
def State.throttled (s : State) : Bool := !s.pwr.pins[(3 : Fin 4)].level

/-- R518: the effective budget of a hearth, in A. -/
def State.effBudget (s : State) (h : Fin 8) : Nat :=
  let b := s.hearths[h].budget.toNat
  if s.throttled then b * s.glb.fraction.toNat / 16 else b

/-- R517: what the running engines of a core draw. -/
def Core.draws (c : Core) (now : Nat) : Nat :=
  ((c.mq.filter (·.started)).map fun e => mDraw e.op).sum + (c.inflight.map (·.draw)).sum + (if now < c.sfuFreeAt then 2 else 0)
  + (c.q.toList.filter fun q => match q.xfers.head? with | some x => decide (x.phase = .moved) | none => false).length

/-- R517: base and running draw of a hearth, with starts granted and not yet taken. -/
def State.hearthDraw (s : State) (h : Fin 8) : Nat :=
  240 + (((List.finRange 512).filter fun g => decide (hearthOf g = h)).map fun g => (s.core g).draws s.now).sum
  + ((s.hearths[h].drawReqs.filter (·.granted)).map (·.draw)).sum

/-- R518, R521: whether the budget admits a start. -/
def State.drawAdmits (s : State) (h : Fin 8) (d : Nat) : Bool := !s.pwr.dieTrip && decide (s.hearthDraw h + d ≤ 2 * s.effBudget h)

/-- R518: whether a request has waited 256 cycles. -/
def DrawReq.aged (r : DrawReq) (now : Nat) : Bool := !r.granted && decide (256 ≤ now - r.since)

/-- R518: an engine asks to start: granted now, or already; else it waits. -/
def State.requestStart (s : State) (g : Fin 512) (u : DrawUnit) (d : Nat) : Bool × State :=
  let h := hearthOf g
  match s.hearths[h].drawReqs.find? fun r => decide (r.core = g) && decide (r.unit = u) with
  | some r => if r.granted then (true, s.modHearth h fun x => { x with drawReqs := x.drawReqs.erase r }) else (false, s)
  | none =>
    if !(s.hearths[h].drawReqs.any (·.aged s.now)) && s.drawAdmits h d then (true, s)
    else (false, s.modHearth h fun x => { x with drawReqs := x.drawReqs ++ [⟨g, u, d, s.now, false⟩] })

/-- The waiting request that comes first: the lower clock, then the lower core. -/
def firstReq (byCore : Bool) : List DrawReq → Option DrawReq
  | [] => none
  | r :: rs => match firstReq byCore rs with
    | none => some r
    | some x => if (if byCore then decide (r.core ≤ x.core) else decide (r.since < x.since) || (decide (r.since = x.since) && decide (r.core ≤ x.core))) then some r else some x

/-- R518: the request that is granted next: an aged one before any other; else the lowest core whose draw fits. -/
def State.nextGrant (s : State) (h : Fin 8) : Option DrawReq :=
  let ws := s.hearths[h].drawReqs.filter fun r => !r.granted
  match firstReq false (ws.filter (·.aged s.now)) with
  | some r => if s.drawAdmits h r.draw then some r else none
  | none => firstReq true (ws.filter fun r => s.drawAdmits h r.draw)

/-! The page walker (R268) -/

/-- R268: a look-up of (TABLE, k) by a requester of a core: the entry on a hit; else the read is started or joined. -/
def State.walkRequest (s : State) (g : Fin 512) (q : Option (Fin 8)) (table : BitVec 48) (k : Nat) : Option W32 × State :=
  let h := hearthOf g
  match s.hearths[h].lab.find? fun e => decide (e.table = table) && decide (e.k = k) with
  | some e => (some e.entry, s.modHearth h fun x => { x with lab := e :: x.lab.erase e, kvHit := satAdd x.kvHit 1 })
  | none =>
    if s.hearths[h].walks.any fun w => decide (w.table = table) && decide (w.k = k) then
      (none, s.modHearth h fun x => { x with walks := x.walks.map fun w => if w.table = table ∧ w.k = k ∧ (g, q) ∉ w.who then { w with who := w.who ++ [(g, q)] } else w })
    else (none, s.modHearth h fun x => { x with walks := x.walks ++ [⟨table, k, [(g, q)]⟩], kvMiss := satAdd x.kvMiss 1 })

/-- R271: why a page index cannot be walked for: outside the table, or a table address outside the partition's HBM. -/
def State.walkFault (s : State) (g : Fin 512) (e : Desc) (k : Nat) : Option Status :=
  if !pageInRange e k then some stPageFault
  else if hbmTop ≤ pTable e + 4 * k then some stAddr
  else s.admits g false (pTable e + 4 * k) 4

/-- The translation of a page index that a transfer or step has received. -/
def pageOf (ps : List (Nat × W32)) (k : Nat) : Option W32 := (ps.find? fun p => decide (p.1 = k)).map (·.2)

/-! The M queue (R128) -/

/-- The hearths of a core's partition (R267). -/
def State.hearthsOf (s : State) (g : Fin 512) : Nat := match s.partOfCore g with | some p => s.partSize p | none => 1

/-- What an M-slot instruction computes. -/
def State.mRun (s : State) (g : Fin 512) (op : MOp) (entry : Option W32) : Except Status MRes :=
  let c := s.core g
  let ok := s.admits g
  let w := s.work g
  match op with
  | .mxa a b d ext asrc rs => runMxa ok w c.slots c.stat c.epoch a b d ext asrc rs
  | .fold a b d ext asrc rs side => runFold ok w c.slots c.stat c.epoch a b d ext asrc rs side
  | .brnd o f rb rsc => runBrnd ok w c.slots c.stat (s.writer g (dTid o)) o f rb rsc
  | .spark a x d ext f rs rt => runSpark ok w c.slots c.stat c.epoch a x d ext f rs rt
  | .attn q k v ke ve o f rs rm => runAttn ok w c.slots c.stat (s.writer g (dTid o)) (s.hearthsOf g) q k v ke ve o f rs rm entry
  | .normStat x y f rs rg => runNormStat ok w c.slots c.stat x y f rs rg
  | .normApply x y f rs rg vs => runNormApply ok w c.slots c.stat (s.writer g (dTid y)) x y f rs rg vs

/-- A core with the head of its M queue changed. -/
def Core.modHead (c : Core) (f : MEntry → MEntry) : Core := { c with mq := modifyAt f c.mq 0 }

/-- R128, R169: the head of the M queue acts; a fault ends the task, and the entry writes nothing. -/
def State.runHead (s : State) (g : Fin 512) (e : MEntry) (entry : Option W32) : State :=
  match s.mRun g e.op entry with
  | .error st => s.coreFault g st e.bundle
  | .ok r =>
    match s.widenOver g r.work with
    | some d => s.coreFault g stPoolFull e.bundle 0xFF d
    | none =>
      let s := s.modCore g fun c => { c with slots := r.slots, stat := r.stat }
      let s := s.modCore g fun c => c.modHead fun x => { x with started := true, fetch := false, writes := r.writes }
      s.putWork g r.work

/-- R272: a paged step reaches the head: its page is translated and its fetch begins. -/
def State.startFetch (s : State) (g : Fin 512) (e : MEntry) (ke : Desc) (kpos : Nat) : State :=
  let begun (s : State) (f : MEntry → MEntry) : State := s.modCore g fun c => c.modHead fun x => f { x with started := true, fetch := true }
  if pList ke then begun s id
  else
    let k := kpos / 256
    match s.walkFault g ke k with
    | some st => s.coreFault g st e.bundle
    | none =>
      match s.walkRequest g none (BitVec.ofNat 48 (pTable ke)) k with
      | (some x, s) => begun s fun y => { y with pages := [(k, x)] }
      | (none, s) => begun s id

/-- R128, R518: the head of the M queue starts once the governor admits it. -/
def State.startHead (s : State) (g : Fin 512) : State :=
  match (s.core g).mq.head? with
  | none => s
  | some e =>
    if e.started || !s.acts g then s
    else match s.requestStart g .m (mDraw e.op) with
      | (false, s) => s
      | (true, s) => match e.op with
        | .attn q k v (some ke) (some ve) o _ _ rm =>
          if attnOk q k v o (some ke) (some ve) (s.hearthsOf g) && decide (rmKpos rm % 64 = 0) then s.startFetch g e ke (rmKpos rm)
          else s.coreFault g stDesc e.bundle
        | _ => s.runHead g e none

/-- R272: the fetch of the paged step at the head is complete. -/
def State.fetchDone (s : State) (g : Fin 512) : State :=
  match (s.core g).mq.head? with
  | none => s
  | some e =>
    if !e.fetch || !s.acts g then s
    else match e.op with
      | .attn _ _ _ (some ke) _ _ _ _ rm =>
        if pList ke then s.runHead g e none
        else match pageOf e.pages (rmKpos rm / 256) with
          | some x => s.runHead g e (some x)
          | none => s
      | _ => s

/-! Registers (R77, R127) -/

/-- R77: a scalar register; s0 reads 0. -/
def Core.getS (c : Core) (n : Fin 32) : W64 := if n = 0 then 0 else c.s[n]
/-- R77: a vector register. -/
def Core.getV (c : Core) (n : Fin 32) : VReg := c.v[n]
/-- R77: a predicate register; p0 reads all ones. -/
def Core.getP (c : Core) (n : Fin 8) : PReg := if n = 0 then BitVec.allOnes 256 else c.p[n]

/-- R77, R127: a register write takes effect; writes to s0 and p0 are discarded. -/
def Core.applyWrite (c : Core) (w : RegWrite) : Core :=
  match w.reg, w.val with
  | .s n, .s x => if n = 0 then c else { c with s := c.s.set n x }
  | .v n, .v x => { c with v := c.v.set n x }
  | .p n, .p x => if n = 0 then c else { c with p := c.p.set n x }
  | .td n, .td x => { c with td := c.td.set n (some x) }
  | _, _ => c

/-- R128: the head of the M queue completes: its results become visible, its entry is released, and the next may start. -/
def State.completeHead (s : State) (g : Fin 512) : State :=
  match (s.core g).mq.head? with
  | none => s
  | some e =>
    if !e.started || e.fetch then s
    else (s.modCore g fun c => { e.writes.foldl Core.applyWrite c with mq := c.mq.drop 1 }).startHead g

/-- R518: the governor grants a start; an M-slot instruction starts with it. -/
def State.grantNext (s : State) (h : Fin 8) : State :=
  match s.nextGrant h with
  | none => s
  | some r =>
    let s := s.modHearth h fun x => { x with drawReqs := x.drawReqs.map fun y => if y = r then { y with granted := true } else y }
    if r.unit = .m then s.startHead r.core else s

end Sys2Proof.Machine
end

