-- ==== Sys2Proof/Machine/Clock.lean ====
section
/-! DEFINITION. The passing of time: what a clock period counts, and the moment that a dated command stands for (log 2; R23, R518, R524, R528). -/

namespace Sys2Proof.Machine

/-- R514, R512: whether the module's clocks run. -/
def State.clocked (s : State) : Bool := s.pwr.railsOn && s.pwr.refclk

/-- R518: whether a start of a hearth's cores waits for the governor. -/
def Hearth.drawWaits (h : Hearth) : Bool := h.drawReqs.any fun r => !r.granted

/-- `n` clock periods pass: throttled time (R528, R401) and draw stall cycles (R518, R524) are counted. -/
def State.advance (s : State) (n : Nat) : State :=
  if s.clocked then
    let thr := if s.throttled && decide (s.pwr.phase = .ready) then n else 0
    { s with now := s.now + n, glb := { s.glb with throttle := s.glb.throttle + thr },
             hearths := s.hearths.map fun h => if h.drawWaits then { h with drawStall := h.drawStall + n } else h,
             parts := s.parts.map fun p => { p with task := p.task.map fun t => { t with throttled := t.throttled + thr } } }
  else { s with now := s.now + n }

/-- A command that stands for a moment moves the clock up to it, where the clock has not reached it. -/
def State.reach (s : State) (t : Nat) : State := s.advance (t - s.now)

/-! Parity (R82, R108, R305): where and when a word is upset or a bus transfer fails is a free value (log 55) -/

/-- What an upset strikes: a word of the scratchpad or of instruction memory, a word of an accumulator slot, a run in the combine stage, the transfer at the head of a DMA queue on a hearth or bridge bus, or a word that is in HBM. -/
inductive Upset where
  | none | hbm (w : Nat) | spad (w : Nat) | imem (w : Nat) | slot (i : Fin 5) (k : Nat) | stage (k : Nat) | bus (q : Fin 8)
  deriving DecidableEq, Repr

/-- The upset that a free value stands for. -/
def upsetOf (r : BitVec 256) : Upset :=
  let k := (r.toNat >>> 12) % 2 ^ 64
  match r.toNat % 8 with
  | 1 => .spad (k % (spadSize / 4))
  | 2 => .imem (k % (imemSize / 4))
  | 3 => .slot ⟨k % 5, by omega⟩ (k / 5 % 8192)
  | 4 => .stage k
  | 5 => .bus ⟨k % 8, by omega⟩
  | 6 => .hbm (k % (hbmTop / 4))
  | _ => .none

/-- A run of a combine stage whose parity is lost. -/
def StageRun.upset (x : StageRun) : StageRun := { x with bad := true }

/-- A core whose memories an upset strikes. -/
def Core.upset (c : Core) : Upset → Core
  | .spad w => { c with badParity := if c.badParity.contains w then c.badParity else c.badParity ++ [w] }
  | .imem w => { c with badImem := if c.badImem.contains w then c.badImem else c.badImem ++ [w] }
  | .slot i k => if (c.slots[i]).tag.isSome then { c with slots := c.slots.set i { c.slots[i] with bad := k :: (c.slots[i]).bad } } else c
  | .stage k => { c with stage := modifyAt StageRun.upset c.stage k }
  | .hbm _ | .bus _ | .none => c

/-- R305: a word in HBM whose parity bit fails from now on. -/
def Mem.upset (m : Mem) (w : Nat) : Mem := { m with badHbm := if m.badHbm.contains w then m.badHbm else m.badHbm ++ [w] }

/-- R82, R108, R305: an upset, at a core or in HBM. A word that is read before it is written again then ends its task; a bus transfer that has failed its third replay ends it at once. -/
def State.upset (s : State) (g : Fin 512) (u : Upset) : State :=
  match u with
  | .bus q => match (s.core g).q[q].xfers.head? with
    | some x => if x.phase = .moved ∧ s.live g then s.coreFault g stParity x.bundle q.val else s
    | none => s
  | .hbm w => { s with mem := s.mem.upset w }
  | .none => s
  | u => s.modCore g fun c => c.upset u

/-- On an empty queue one clock period passes (log 2), in which a word may be upset (log 55). -/
def tick (s : State) : State :=
  let (r, s) := (s.advance 1).draw
  if s.clocked then s.upset (coreId (r.toNat >>> 3)) (upsetOf r) else s

end Sys2Proof.Machine
end

