-- ==== Sys2Proof/Machine/SyncOps.lean ====
section
/-! DEFINITION. Tokens, waits, barrier arrival and the rounds of a barrier between modules (R96 to R104, R135, R163, R370, R394). -/

namespace Sys2Proof.Machine

/-! Release (R97) -/

/-- R161: whether an M-slot instruction writes the scratchpad. -/
def MOp.writesSpad : MOp → Bool
  | .brnd .. | .attn .. | .normStat .. | .normApply .. => true
  | .mxa .. | .fold .. | .spark .. => false

/-- R97, R161: whether every write that a core issued before bundle order `n` has completed. -/
def Core.released (c : Core) (n : Nat) : Bool :=
  (c.q.toList.all fun q => q.xfers.all fun x => decide (n ≤ x.seq)) && (c.msgs.all fun m => decide (n ≤ m.seq))
  && (c.colls.all fun x => decide (n ≤ x.seq)) && (c.mq.all fun e => decide (n ≤ e.seq) || !e.op.writesSpad)

/-! Tokens (R96, R98, R100) -/

/-- R96: the current counter of a cell. -/
def TokenCell.current (t : TokenCell) (epoch : BitVec 16) : BitVec 16 := if epoch.getLsbD 0 then t.odd else t.even

/-- A cell with the counter of an epoch's parity replaced. -/
def TokenCell.put (t : TokenCell) (epoch x : BitVec 16) : TokenCell := if epoch.getLsbD 0 then { t with odd := x } else { t with even := x }

/-- R96: a WAIT that finds its count completes and subtracts it. -/
def Core.tryWait (c : Core) : Core :=
  match c.wait with
  | none => c
  | some w =>
    let x := (c.tok[w.tok]).current c.epoch
    if w.cnt.toNat ≤ x.toNat then { c with tok := c.tok.set w.tok ((c.tok[w.tok]).put c.epoch (x - w.cnt.setWidth 16)), wait := none, mode := if c.mode = .wait then .run else c.mode }
    else c

/-- R86, R216: the last bundle that a core may use. -/
def State.lastBundle (s : State) (g : Fin 512) : BitVec 13 := if (s.taskOf g).any (·.2.reserve) then 8127 else 8191

/-- R86: a core that runs fetches past the last bundle where nothing left the sequence: its task ends, and the last bundle issued is the one recorded. -/
def State.fetchPast (s : State) (g : Fin 512) : State :=
  if (s.core g).pastEnd && decide ((s.core g).mode = .run) then s.coreFault g stIllegal (s.lastBundle g) else s

/-- R98: a count of a sender in epoch `es` reaches a cell; a WAIT is tested after it (R100). -/
def State.tokenAdd (s : State) (g : Fin 512) (t : Fin 64) (cnt : Nat) (es : BitVec 16) : State :=
  let c := s.core g
  let d := es - c.epoch
  let e := c.epoch + d
  let x := ((c.tok[t]).current e).toNat + cnt
  if (d ≠ 0 ∧ d ≠ 1) ∨ 65535 < x then s.coreFault g stToken c.pc
  else (s.setCore g ({ c with tok := c.tok.set t ((c.tok[t]).put e (BitVec.ofNat 16 x)) }.tryWait)).fetchPast g

/-! Barriers (R102 to R104) -/

/-- R102, R135: the barrier that a kind names: 0 HBAR, 1 MBAR, 2 the epoch barrier, which END shares. -/
def barrierClass (kind : BitVec 2) : Nat := min kind.toNat 2

/-- R103, R163: whether a core's pending barrier instruction may arrive. -/
def Core.canArrive (c : Core) (a : Arrival) : Bool :=
  c.mq.isEmpty && c.released a.seq
  && (decide (barrierClass a.kind < 2) || ((c.q.toList.all fun q => q.xfers.isEmpty) && c.colls.isEmpty))

/-- R102: the participants of a core's barrier of a class. -/
def State.participants (s : State) (p : Fin 8) (cls : Nat) (h : Fin 8) : List (Fin 512) :=
  (s.members p).filter fun g => decide (cls ≠ 0) || decide (hearthOf g = h)

/-- The arrival of a core at a barrier of a class, once it has arrived. -/
def State.arrivedAt (s : State) (cls : Nat) (g : Fin 512) : Option Arrival :=
  (s.core g).arrival.filter fun a => decide (barrierClass a.kind = cls) && a.order.isSome

/-- R104: the number of the first arrival. -/
def firstNum : List Arrival → Option (BitVec 16)
  | [] => none
  | a :: r => if a.order = some 0 then some a.num else firstNum r

/-- R104, R545: a barrier number that differs ends the task; the record names the core, the log its hearth and number. -/
def State.barrierMismatch (s : State) (p : Fin 8) (g : Fin 512) (a : Arrival) : State :=
  s.endTask p { s.coreEnding g stBarrier (some a.bundle) 0xFF 0 with source := 2, unit := BitVec.ofNat 16 (hearthOf g).val, logDetail := a.num.setWidth 64 }

/-- R103, R104: a core arrives where it may, and its number is compared with the first arrival's. -/
def State.arriveOne (s : State) (p : Fin 8) (g : Fin 512) : State :=
  match (s.core g).arrival with
  | none => s
  | some a =>
    if a.order.isSome || !(s.core g).canArrive a then s
    else
      let cls := barrierClass a.kind
      let as := (s.participants p cls (hearthOf g)).filterMap (s.arrivedAt cls)
      let s := s.modCore g fun c => { c with arrival := some { a with order := some as.length } }
      match firstNum as with
      | some n => if n = a.num then s else s.barrierMismatch p g a
      | none => s

/-- R104: every core of a task that may arrive does, in ascending global id. -/
def State.arriveAll (s : State) (p : Fin 8) : State := (s.members p).foldl (fun s g => s.arriveOne p g) s

/-- R102: whether every participant of a barrier has arrived. -/
def State.allArrived (s : State) (p : Fin 8) (cls : Nat) (h : Fin 8) : Bool :=
  let gs := s.participants p cls h
  !gs.isEmpty && gs.all fun g => (s.arrivedAt cls g).isSome

/-- R370: the rounds of a barrier among `n` modules. -/
def barrierRounds (n : Nat) : Nat := if n ≤ 1 then 0 else Nat.log2 (n - 1) + 1

/-- R370: one round after another: a round is sent, and the next waits for that round's message from the other side. -/
def State.roundStep (s : State) (p : Fin 8) (num epoch : BitVec 16) (start : Bool) : Nat → State
  | 0 => s
  | fuel + 1 =>
    match s.parts[p].task with
    | none => s
    | some t =>
      let n := t.job.modules.length
      let j := t.job.modules.idxOf s.fab.moduleId
      let send (s : State) (k : Nat) : State :=
        s.unitControl p (t.job.modules.getD ((j + 2 ^ k) % n) 0) (ctrlBytes 5 0 (toLE num.toNat 2 ++ toLE epoch.toNat 2 ++ toLE k 1))
      if t.rounds = 0 then ((send s 0).modTask p fun t => { t with rounds := 1 }).roundStep p num epoch start fuel
      else if barrierRounds n < t.rounds then s
      else
        let k := t.rounds - 1
        let src := t.job.modules.getD ((j + n - 2 ^ k % n) % n) 0
        match s.parts[p].rounds.find? fun r => decide (r.1 = t.job.tag) && decide (r.2.2.1 = epoch) && decide (r.2.2.2.1.toNat = k) && decide (r.2.2.2.2 = src) && (!start || decide (r.2.1 = num)) with
        | none => s
        | some r =>
          let s := s.modPart p fun x => { x with rounds := x.rounds.erase r }
          if r.2.1 ≠ num then s.endTask p { s.unitEnding stBarrier 2 p.val num.toNat with core := some (partCore p) }
          else
            let s := s.modTask p fun t => { t with rounds := t.rounds + 1 }
            (if t.rounds < barrierRounds n then send s t.rounds else s).roundStep p num epoch start fuel

/-- R370: whether the rounds of the barrier in progress are done. -/
def State.roundsDone (s : State) (p : Fin 8) : Bool :=
  match s.parts[p].task with
  | some t => decide (t.job.modules.length ≤ 1) || decide (barrierRounds t.job.modules.length < t.rounds)
  | none => false

/-- R370, R394: the rounds of a partition's start barrier or of its epoch barrier go as far as they can. -/
def State.pumpRounds (s : State) (p : Fin 8) : State :=
  match s.parts[p].task with
  | none => s
  | some t =>
    if t.job.modules.length ≤ 1 || t.over s.now then s
    else if t.phase = .startBarrier then s.roundStep p 0xFFFF t.startEpoch true (2 * barrierRounds t.job.modules.length + 2)
    else if t.phase = .running ∧ s.allArrived p 2 p then
      match (s.members p).head?.bind fun g => (s.arrivedAt 2 g).map fun a => (a.num, (s.core g).epoch) with
      | some (n, e) => s.roundStep p n e false (2 * barrierRounds t.job.modules.length + 2)
      | none => s
    else s

/-- What a completion in a partition may let arrive. -/
def State.settle (s : State) (g : Fin 512) : State :=
  match s.partOfCore g with
  | some p => if (s.parts[p].task.any fun t => !t.over s.now) then (s.arriveAll p).pumpRounds p else s
  | none => s

end Sys2Proof.Machine
end

