-- ==== Sys2Proof/Machine/Operands.lean ====
section
/-! DEFINITION. How a slot of a bundle is presented and how a bundle issues: decode faults, guards, operands, stalls, and the commit of what its instructions do (R86, R118 to R128, R155, R170, R216). -/

namespace Sys2Proof.Machine

/-- How the guard of an instruction decides (R120, R153). -/
inductive GuardKind where
  | lane0 | perLane | combine
  deriving DecidableEq, Repr

/-- What decoding a slot's instruction gives: slot, guard, whether it is illegal (R123), registers read and written. -/
structure SlotOp where
  slot : SlotId
  guard : GuardKind
  illegal : Bool
  reads : List Reg
  dests : List Reg
  deriving DecidableEq, Repr

/-- What an instruction that executes asks for: data effects, control effects, a fault detected at issue (R170), a stall (R124). -/
structure Act where
  eff : Staged
  ctl : List Ctl
  fault : Option Status
  stall : Bool
  deriving DecidableEq, Repr

/-- No effect. -/
def Act.none : Act := ⟨Staged.empty, [], .none, false⟩
/-- Register writes. -/
def Act.writes (ws : List RegWrite) : Act := { Act.none with eff := { Staged.empty with writes := ws } }
/-- A fault at issue. -/
def Act.faults (st : Status) : Act := { Act.none with fault := some st }
/-- A stall. -/
def Act.stalls : Act := { Act.none with stall := true }
/-- One control effect. -/
def Act.control (c : Ctl) : Act := { Act.none with ctl := [c] }

/-- R77: s0 and p0 are never written. -/
def regReal : Reg → Bool
  | .s n => decide (n ≠ 0)
  | .p n => decide (n ≠ 0)
  | _ => true

/-- R126: the registers that two instructions of a bundle may not both write. -/
def regSingle : Reg → Bool
  | .td _ => false
  | r => regReal r

/-- R127: whether a write of a register is outstanding. -/
def Core.busy (c : Core) (r : Reg) : Bool :=
  regReal r && ((c.inflight.any fun w => decide (w.reg = r)) || (c.mq.any fun e => e.regs.contains r)
    || (c.claims.any fun x => decide (r = .s x.rd) || decide (r = .p x.pd)))

/-- R118, R120: the guard of an instruction, per lane. -/
def guardMask (c : Core) (i : Issue) : PReg := if i.gneg then ~~~(c.getP i.gp) else c.getP i.gp

/-- R120, R153: whether an instruction executes. -/
def GuardKind.executes (k : GuardKind) (i : Issue) (m : PReg) : Bool :=
  match k with
  | .lane0 => m.getLsbD 0
  | .perLane => decide (m ≠ 0)
  | .combine => !(decide (i.gp = 0) && i.gneg)

/-- Data effects of two slots together. -/
def Staged.join (a b : Staged) : Staged :=
  ⟨a.writes ++ b.writes, a.stores ++ b.stores, a.mop.or b.mop, a.mregs ++ b.mregs, a.xfers ++ b.xfers, a.dqst ++ b.dqst, a.sfn || b.sfn⟩

/-- A slot's instruction joins the bundle. Decoding precedes the guard (R123); an illegal encoding, a reserved one among them, or two writers of one register (R126) come before any other fault. -/
def Bundle.add (b : Bundle) (c : Core) (i : Issue) (o : SlotOp) (act : PReg → Act) : Bundle :=
  let m := guardMask c i
  let run := o.guard.executes i m
  let dup := o.dests.any fun r => regSingle r && b.dests.contains r
  let wait := c.busy (.p i.gp) || (run && (o.reads ++ o.dests).any c.busy)
  let a := if run && !wait && !o.illegal && !i.reserved then act m else Act.none
  { used := b.used ++ [o.slot], dests := b.dests ++ o.dests, eff := b.eff.join a.eff, ctl := b.ctl ++ a.ctl,
    fault := if o.illegal || i.reserved || dup then some stIllegal else if b.fault.isSome then b.fault else a.fault,
    stall := b.stall || wait || a.stall }

/-! Issue -/

/-- Parity is good again in every word that a store covers (R108). -/
def clearParity (bad : List Nat) (a : Nat) (bs : List (Option Byte)) : List Nat :=
  bad.filter fun w => !((List.range 4).all fun i => decide (a ≤ 4 * w + i) && ((bs[4 * w + i - a]?).bind id).isSome)

/-- The data effects of a bundle act on its core (R125): stores at once, register writes outstanding (R127), entries queued. -/
def Core.commit (c : Core) (e : Staged) (now : Nat) : Core :=
  let c := { c with inflight := c.inflight ++ e.writes, seq := c.seq + 1,
                    spad := e.stores.foldl (fun m x => writeMasked m x.1 x.2) c.spad,
                    badParity := e.stores.foldl (fun b x => clearParity b x.1 x.2) c.badParity,
                    sfuFreeAt := if e.sfn then now + 4 else c.sfuFreeAt,
                    mq := match e.mop with
                      | some op => c.mq ++ [⟨op, c.pc, c.seq, e.mregs, [], false, false, []⟩]
                      | none => c.mq }
  let c := e.dqst.foldl (fun c q => { c with q := c.q.set q { c.q[q] with lastStatus := 0 } }) c
  e.xfers.foldl (fun c x => { c with q := c.q.set x.1 { c.q[x.1] with xfers := c.q[x.1].xfers ++ [{ x.2 with seq := c.seq - 1, bundle := c.pc, started := now }] } }) c

/-! Reheat (R193, R195, R199 to R203) -/

/-- R193: the precision declaration of a layer. -/
def Task.decl (t : Task) (layer : BitVec 16) : Option (BitVec 128) := t.precision.find? fun d => decide (bytesField d 1 0 = layer.toNat)
/-- R193: WIDE. -/
def declWide (d : BitVec 128) : Bool := bit d 24
/-- R193: STICKY. -/
def declSticky (d : BitVec 128) : Bool := bit d 25
/-- R193: RUNGS. -/
def declRungs (d : BitVec 128) : Nat := bytesField d 6 6
/-- R193: the FMT code of a rung. -/
def declFmt (d : BitVec 128) (r : Nat) : Nat := bytesField d 8 7 >>> (4 * r) % 16

/-- The rung that stands for the wide copy (R195). -/
def wideRung : Nat := 4

/-- R202: the highest rung that an execution of a layer before execution `exec` reached. -/
def Task.highest (t : Task) (layer : BitVec 16) (exec : BitVec 32) : Nat :=
  (t.reheats.filterMap fun x => if x.1 = layer ∧ x.2.1.toNat < exec.toNat then some x.2.2.2 else none).foldl max 0

/-- R195, R202, R203: the rung at which a layer execution starts: the wide copy for a WIDE layer and for every execution after the job latched wide, the highest rung of earlier executions for a STICKY one, else rung 0. -/
def Task.startRung (t : Task) (d : BitVec 128) (rp : ReheatPoint) : Nat :=
  let mine (x : BitVec 16 × BitVec 32) : Bool := decide (x = (rp.layer, rp.exec))
  if declWide d then wideRung
  else if t.latched.any (fun x => !mine x) && !(t.reheats.any fun x => mine (x.1, x.2.1)) then wideRung
  else if declSticky d then t.highest rp.layer rp.exec
  else 0

/-- R200, R202: the rung at which a core runs a layer execution. -/
def Task.rungOf (t : Task) (g : Fin 512) (d : BitVec 128) (rp : ReheatPoint) : Nat :=
  match t.rungAt.find? fun x => decide (x.1 = g) && decide (x.2.1 = rp.layer) && decide (x.2.2.1 = rp.exec) with
  | some x => x.2.2.2
  | none => t.startRung d rp

/-- R200, R203: the step that a reheat branch takes from a rung: the one that a core of the job took before, else the next rung, or the wide copy where the reheat count would pass the cap. -/
def Task.climb (t : Task) (rp : ReheatPoint) (r : Nat) : Nat :=
  match t.reheats.find? fun x => decide (x.1 = rp.layer) && decide (x.2.1 = rp.exec) && decide (x.2.2.1 = r) with
  | some x => x.2.2.2
  | none => if t.job.reheatCap ≠ 0xFFFF ∧ t.job.reheatCap.toNat < t.reheats.length + 1 then wideRung else r + 1

/-- R200, R203: a core takes the reheat branch of a layer execution at a rung. The step counts once for the execution, and latches the job where it passes the cap. -/
def Task.reheat (t : Task) (g : Fin 512) (rp : ReheatPoint) (r : Nat) : Task :=
  let n := t.climb rp r
  let known := t.reheats.any fun x => decide (x.1 = rp.layer) && decide (x.2.1 = rp.exec) && decide (x.2.2.1 = r)
  { t with reheats := if known then t.reheats else t.reheats ++ [(rp.layer, rp.exec, r, n)],
           latched := if t.latched.isNone && !known && decide (n = wideRung) then some (rp.layer, rp.exec) else t.latched,
           rungAt := (t.rungAt.filter fun x => !(decide (x.1 = g) && decide (x.2.1 = rp.layer) && decide (x.2.2.1 = rp.exec))) ++ [(g, rp.layer, rp.exec, n)] }

/-- A control effect of a bundle that issued with order number `n`. -/
def State.applyCtl (s : State) (g : Fin 512) (bundle : BitVec 13) (n : Nat) : Ctl → State
  | .branch t => s.modCore g fun c => { c with pc := t }
  | .reheat rp r t =>
    let s := s.modCore g fun c => { c with pc := t }
    match s.partOfCore g with
    | some p => s.modTask p fun t => t.reheat g rp r
    | none => s
  | .ladderExhausted rp => s.coreFault g stLadder bundle 0xFF (rp.layer.toNat + 2 ^ 32 * rp.exec.toNat)
  | .signal m core tok cnt => { s with tokens := s.tokens ++ [⟨g, none, n, m, core, tok, cnt, (s.core g).epoch, bundle⟩] }
  | .wait tok cnt =>
    let limit := s.hearths[hearthOf g].waitLimit.toNat
    s.modCore g fun c => { c with wait := some ⟨tok, cnt, s.now, limit, bundle⟩, mode := .wait }.tryWait
  | .claim h ctr inc rd pd =>
    s.modCore g fun c => { c with claims := c.claims ++ [⟨h, ctr, inc, rd, pd, BitVec.ofNat 16 (128 * g.val + c.claimSeq.toNat), false, 0, bundle⟩], claimSeq := c.claimSeq + 1 }
  | .barrier kind num => (s.modCore g fun c => { c with arrival := some ⟨kind, num, bundle, n, none⟩, mode := .barrier }).settle g
  | .coll c =>
    -- R361: a fixed point completes at issue.
    if c.dataSent then (if c.sig then s.ownToken g none (BitVec.ofNat 9 g.val) c.token bundle else s)
    else s.collStart g { c with seq := n, bundle := bundle }

/-- Whether a control effect leaves no next bundle to fetch in sequence: a branch taken, or END (R86, R135). -/
def Ctl.leaves : Ctl → Bool
  | .branch _ | .reheat _ _ _ => true
  | .barrier k _ => decide (k = 3)
  | _ => false

/-- R517: the draw of a bundle's V-slot instruction, in half amperes. -/
def Staged.vDraw (e : Staged) : Nat := (e.writes.map (·.draw)).sum + if e.sfn then 2 else 0

/-- R125, R170: a bundle issues: its effects act together, then the sequencer moves on. Sequential fetch past the last bundle ends the task (R86, R216), once no WAIT or barrier holds the core. -/
def State.commitBundle (s : State) (g : Fin 512) (b : Bundle) : State :=
  let c := s.core g
  let s := s.setCore g ({ c.commit b.eff s.now with pc := c.pc + 1 })
  let s := b.ctl.foldl (fun s x => s.applyCtl g c.pc c.seq x) s
  let s := if b.eff.mop.isSome then s.startHead g else s
  if c.pc = s.lastBundle g ∧ !(b.ctl.any Ctl.leaves) then (s.modCore g fun c => { c with pastEnd := true }).fetchPast g else s

/-- R124: the presented bundle issues, or stalls whole and is to be presented again. -/
def State.issue (s : State) (g : Fin 512) : State :=
  let c := s.core g
  let b := c.bundle
  let s := s.modCore g fun c => { c with bundle := Bundle.empty }
  -- R108: the fetch of the bundle met a word whose parity is lost.
  if parityHit c.badImem (32 * c.pc.toNat) 32 then s.coreFault g stParity c.pc
  else if b.stall then s
  else match b.fault with
    | some st => s.coreFault g st c.pc
    | none =>
      if b.eff.vDraw = 0 then s.commitBundle g b
      else match s.requestStart g .v b.eff.vDraw with
        | (true, s) => s.commitBundle g b
        | (false, s) => s

/-- A slot's instruction is presented; with the last slot the bundle issues (log 1). A core that cannot issue, or whose slot is taken, ignores it. -/
def present (i : Issue) (o : SlotOp) (act : Core → PReg → Act) (s : State) : Host.Outcome State Fault Refusal :=
  let c := s.core i.core
  if !s.canIssue i.core || c.bundle.used.contains o.slot then .next s
  else
    let s := s.setCore i.core { c with bundle := c.bundle.add c i o (act c) }
    .next (if i.close then s.issue i.core else s)

/-- R122: HBAR, MBAR, EBAR and END carry no guard. -/
def guarded (i : Issue) : Bool := decide (i.gp ≠ 0) || i.gneg

/-- A scalar result; a write to s0 is discarded when it takes effect. -/
def wS (n : Fin 32) (x : W64) (draw : Nat := 0) : List RegWrite := [⟨.s n, .s x, draw⟩]
/-- A predicate result; a write to p0 is discarded when it takes effect. -/
def wP (n : Fin 8) (x : PReg) (draw : Nat := 0) : List RegWrite := [⟨.p n, .p x, draw⟩]
/-- A vector result. -/
def wV (n : Fin 32) (x : VReg) (draw : Nat := 0) : List RegWrite := [⟨.v n, .v x, draw⟩]

end Sys2Proof.Machine
end

