-- ==== Sys2Proof/Machine/MSlot.lean ====
section
/-! DEFINITION. The M slot: what each instruction reads at issue, and the events of the M queue, the draw governor and the page walker (R136 to R149, R128, R268, R272, R518). -/

namespace Sys2Proof.Machine

/-- R89, R91: a register used as a tile descriptor; one that was loaded as an extension is held to the checks of R91 here (log 46). -/
def Core.tdUse (c : Core) (n : Fin 16) : Option Desc := (c.td[n]).filter (descOk n)

/-- R89: the extension in the next register, where a descriptor's MODE takes one; the outer `none` is an unloaded register. -/
def Core.ext (c : Core) (n : Fin 16) (mode : Nat) : Option (Option Desc) :=
  (c.tdUse n).bind fun d => if dMode d = mode then (c.td[n + 1]).map some else some none

/-- The registers that a descriptor with a possible extension occupies. -/
def Core.tdRegs (c : Core) (n : Fin 16) (mode : Nat) : List Reg :=
  match c.td[n] with
  | some d => if dMode d = mode then [.td n, .td (n + 1)] else [.td n]
  | none => [.td n]

/-- R78, R128: an M-slot instruction enters the queue with its copies; it stalls while the queue is full, and an unloaded descriptor faults. -/
def mEnter (c : Core) (regs : List Reg) (op : Option MOp) : Act :=
  if 4 ≤ c.mq.length then Act.stalls
  else match op with
    | none => Act.faults stDesc
    | some x => { Act.none with eff := { Staged.empty with mop := some x, mregs := regs } }

/-- An M-slot instruction. -/
def mOp (reads dests : List Reg) (illegal : Bool) : SlotOp := ⟨.m, .lane0, illegal, reads, dests⟩

/-- MXA (R137 to R141). -/
def execMxa (i : Issue) (tdA tdB tdD : Fin 16) (asrc : Bool) (rs : Fin 32) (s : State) : Host.Outcome State Fault Refusal :=
  present i (mOp ((s.core i.core).tdRegs tdA 1 ++ [.td tdB, .td tdD, .s rs]) [] false) (fun c _ => mEnter c [] (do
    let a ← c.tdUse tdA
    let e ← c.ext tdA 1
    let b ← c.tdUse tdB
    let d ← c.tdUse tdD
    some (.mxa a b d e asrc (c.getS rs)))) s

/-- FOLD (R142). -/
def execFold (i : Issue) (tdA tdB tdD : Fin 16) (asrc : Bool) (rs : Fin 32) (side : Bool) (s : State) : Host.Outcome State Fault Refusal :=
  present i (mOp ((s.core i.core).tdRegs tdA 1 ++ [.td tdB, .td tdD, .s rs]) [] false) (fun c _ => mEnter c [] (do
    let a ← c.tdUse tdA
    let e ← c.ext tdA 1
    let b ← c.tdUse tdB
    let d ← c.tdUse tdD
    some (.fold a b d e asrc (c.getS rs) side))) s

/-- R40, R136, R232: BRND's reserved encodings. -/
def brndIllegal (b : BrndOp) : Bool :=
  decide (5 ≤ b.slot.toNat) || convReserved b.conv || (!b.epiA && decide (b.epiF ≠ 0)) || decide (12 ≤ b.epiF.toNat)

/-- BRND (R143 to R145). -/
def execBrnd (i : Issue) (b : BrndOp) (s : State) : Host.Outcome State Fault Refusal :=
  present i (mOp [.td b.tdO, .s b.rb, .s b.rsc] [] (brndIllegal b)) (fun c _ => mEnter c [] (do
    let o ← c.tdUse b.tdO
    some (.brnd o b (c.getS b.rb) (c.getS b.rsc)))) s

/-- SPARK (R146). -/
def execSpark (i : Issue) (k : SparkOp) (s : State) : Host.Outcome State Fault Refusal :=
  present i (mOp ((s.core i.core).tdRegs k.tdA 1 ++ [.td k.tdW, .td k.tdD, .s k.rs, .s k.rt]) [.s k.rd, .p k.pd] (decide (5 ≤ k.slotLo.toNat)))
    (fun c _ => mEnter c [.s k.rd, .p k.pd] (do
      let a ← c.tdUse k.tdA
      let e ← c.ext k.tdA 1
      let w ← c.tdUse k.tdW
      let d ← c.tdUse k.tdD
      some (.spark a w d e k (c.getS k.rs) (c.getS k.rt)))) s

/-- ATTN (R147, R259). -/
def execAttn (i : Issue) (a : AttnOp) (s : State) : Host.Outcome State Fault Refusal :=
  let c0 := s.core i.core
  present i (mOp ([.td a.tdQ, .td a.tdO, .s a.rs, .s a.rm] ++ c0.tdRegs a.tdK 2 ++ c0.tdRegs a.tdV 2) [] (a.last && a.xmax))
    (fun c _ => mEnter c [] (do
      let q ← c.tdUse a.tdQ
      let k ← c.tdUse a.tdK
      let ke ← c.ext a.tdK 2
      let v ← c.tdUse a.tdV
      let ve ← c.ext a.tdV 2
      let o ← c.tdUse a.tdO
      some (.attn q k v ke ve o a (c.getS a.rs) (c.getS a.rm)))) s

/-- R40, R149: NORM's reserved encodings. -/
def normIllegal (n : NormOp) : Bool := decide (n.kind = 3) || convReserved n.conv

/-- NORM STAT (R149, R243). -/
def execNormStat (i : Issue) (n : NormOp) (s : State) : Host.Outcome State Fault Refusal :=
  present i (mOp [.td n.tdX, .td n.tdY, .s n.rs, .s n.rg] [.v n.vs] (normIllegal n)) (fun c _ => mEnter c [.v n.vs] (do
    let x ← c.tdUse n.tdX
    let y ← c.tdUse n.tdY
    some (.normStat x y n (c.getS n.rs) (c.getS n.rg)))) s

/-- NORM APPLY (R149, R244). -/
def execNormApply (i : Issue) (n : NormOp) (s : State) : Host.Outcome State Fault Refusal :=
  present i (mOp [.td n.tdX, .td n.tdY, .s n.rs, .s n.rg, .v n.vs] [] (normIllegal n)) (fun c _ => mEnter c [] (do
    let x ← c.tdUse n.tdX
    let y ← c.tdUse n.tdY
    some (.normApply x y n (c.getS n.rs) (c.getS n.rg) (c.getV n.vs)))) s

/-- M_INSTRUCTION_COMPLETE (R128). -/
def execMInstructionComplete (g : Fin 512) (s : State) : Host.Outcome State Fault Refusal :=
  .next (if s.acts g then (s.completeHead g).settle g else s)

/-- DRAW_GRANT (R518). -/
def execDrawGrant (h : Fin 8) (s : State) : Host.Outcome State Fault Refusal := .next (s.grantNext h)

/-- ATTN_FETCH_COMPLETE (R272). -/
def execAttnFetchComplete (g : Fin 512) (s : State) : Host.Outcome State Fault Refusal := .next (s.fetchDone g)

/-- R268: a translation reaches a requester: the step at the head of its M queue, or the transfer at the head of a queue. -/
def Core.servePage (c : Core) (who : Option (Fin 8)) (k : Nat) (x : W32) : Core :=
  match who with
  | none => c.modHead fun e => if e.fetch then { e with pages := e.pages ++ [(k, x)] } else e
  | some q => { c with q := c.q.set q { c.q[q] with xfers := modifyAt (fun t => { t with pages := t.pages ++ [(k, x)] }) c.q[q].xfers 0 } }

/-- R268, R306: a requester whose page-table read is lost. -/
def State.pageLost (s : State) (g : Fin 512) (who : Option (Fin 8)) : State :=
  let c := s.core g
  if !s.live g then s
  else match who with
    | none => s.coreFault g stHbmData ((c.mq.head?.map (·.bundle)).getD c.pc)
    | some q => s.coreFault g stHbmData (((c.q[q]).xfers.head?.map (·.bundle)).getD c.pc) q.val

/-- KV_WALK_READ_DONE (R268, R306): a valid entry is cached as the most recently used of 512, and every merged requester is served. -/
def execKvWalkReadDone (h : Fin 8) (table : BitVec 48) (k : Nat) (s : State) : Host.Outcome State Fault Refusal :=
  .next (match s.hearths[h].walks.find? fun w => decide (w.table = table) && decide (w.k = k) with
    | none => s
    | some w =>
      if s.mem.lost (table.toNat + 4 * k) 4 then
        w.who.foldl (fun s r => s.pageLost r.1 r.2) (s.modHearth h fun y => { y with walks := y.walks.erase w })
      else
      let x : W32 := BitVec.ofNat 32 (leNat (s.mem.read (table.toNat + 4 * k) 4))
      let s := s.modHearth h fun y =>
        { y with walks := y.walks.erase w, lab := if bit x 31 then (⟨table, k, x⟩ :: y.lab).take 512 else y.lab }
      w.who.foldl (fun s r => s.modCore r.1 fun c => c.servePage r.2 k x) s)

end Sys2Proof.Machine
end

