-- ==== Sys2Proof/Machine/DSlot.lean ====
section
/-! DEFINITION. The D slot: transfers, descriptor loads, vector loads and stores, signals, waits, claims, barriers and collectives as they issue (R89, R91, R93, R156 to R165, R360, R361). -/

namespace Sys2Proof.Machine

/-- A D-slot instruction. -/
def dOp (reads dests : List Reg) (illegal : Bool) : SlotOp := ⟨.d, .lane0, illegal, reads, dests⟩

/-- A transfer at rest (R93). -/
def Xfer.blank (kind : XferKind) : Xfer :=
  ⟨kind, false, true, 0, 0, 0, ⟨0, 0, 0⟩, ⟨0, 0, 0⟩, false, 0, 0, 0, none, false, 0, 0, .queued, 0, 0, 0, [], none⟩

/-- R94: a transfer enters a queue; a full queue stalls. -/
def enqueue (c : Core) (q : Fin 8) (x : Except Status Xfer) : Act :=
  if 32 ≤ (c.q[q]).xfers.length then Act.stalls
  else match x with
    | .error st => Act.faults st
    | .ok x => { Act.none with eff := { Staged.empty with xfers := [(q, x)] } }

/-- R547, R157, R265, R273, R280: the copy of a descriptor that a TILE transfer takes, with its extension where it is PAGED. -/
def tileSource (c : Core) (hearths : Nat) (n : Fin 16) : Except Status (Desc × Option Desc) :=
  match c.tdUse n, c.ext n 2 with
  | some d, some e =>
    if dMode d = 1 then .error stDesc
    else match e with
      | none => .ok (d, none)
      | some x => if pagedOk d x hearths && decide (dR0 d = 0) && decide (dRN d = 4) then .ok (d, some x) else .error stDesc
  | _, _ => .error stDesc

/-- The part of a register that a 48-bit offset holds; a larger value becomes one that no memory has. -/
def offset48 (x : W64) : BitVec 48 := BitVec.ofNat 48 (min x.toNat (2 ^ 48 - 1))

/-- R157, R205: the transfer that LDT or STT enqueues. -/
def streamXfer (c : Core) (g : Fin 512) (hearths : Nat) (td : Fin 16) (rs : W64) (sig : Bool) (tok : Fin 64) (store : Bool) (conv sf : BitVec 4) : Except Status Xfer := do
  let (d, e) ← tileSource c hearths td
  if dSpace d = 1 ∨ (store ∧ (!admits (dLayout d) sf.toNat ∨ (isInt (dFmt d) ∧ dSlagEn d))) then .error stDesc
  else .ok { Xfer.blank .tile with sig := sig, token := tok, tokenCore := BitVec.ofNat 9 g.val, td := d, ext := e, store := store, sf := sf, conv := conv,
                                   dst := ⟨1, BitVec.ofNat 9 g.val, offset48 rs⟩ }

/-- LDT (R157). -/
def execLdt (i : Issue) (q : Fin 8) (td : Fin 16) (rs : Fin 32) (sig : Bool) (tok : Fin 64) (s : State) : Host.Outcome State Fault Refusal :=
  present i (dOp ((s.core i.core).tdRegs td 2 ++ [.s rs]) [] false) (fun c _ =>
    enqueue c q (streamXfer c i.core (s.hearthsOf i.core) td (c.getS rs) sig tok false 0 0)) s

/-- STT (R157). -/
def execStt (i : Issue) (q : Fin 8) (td : Fin 16) (rs : Fin 32) (sig : Bool) (tok : Fin 64) (conv sf : BitVec 4) (s : State) : Host.Outcome State Fault Refusal :=
  present i (dOp ((s.core i.core).tdRegs td 2 ++ [.s rs]) [] (convReserved conv || fmtReserved sf.toNat)) (fun c _ =>
    enqueue c q (streamXfer c i.core (s.hearthsOf i.core) td (c.getS rs) sig tok true conv sf)) s

/-- R93: a place named by 8 bytes. -/
def locOf (n : Nat) : Loc := ⟨BitVec.ofNat 3 (n >>> 57), BitVec.ofNat 9 (n >>> 48), BitVec.ofNat 48 n⟩

/-- R93, R158, R547: the transfer that a 32-byte descriptor names. -/
def parseDma (c : Core) (g : Fin 512) (hearths : Nat) (bs : List Byte) : Except Status Xfer := do
  let op := leAt bs 0 1
  let flags := leAt bs 1 1
  let tok := leAt bs 2 2
  let len := leAt bs 4 4
  let src := leAt bs 8 8
  let dst := leAt bs 16 8
  let flags2 := leAt bs 26 1
  let td : Fin 16 := ⟨leAt bs 27 1 % 16, by omega⟩
  let locOk (n : Nat) : Bool := decide (n >>> 60 = 0) && decide ((n >>> 57) % 8 ≤ 2)
  if flags / 4 ≠ 0 ∨ tok.testBit 15 ∨ !locOk dst ∨ flags2 / 16 ≠ 0 ∨ leAt bs 27 1 / 16 ≠ 0 ∨ leAt bs 28 4 ≠ 0 then .error stDesc
  else
    let x (k : XferKind) : Xfer := { Xfer.blank k with
      sig := flags.testBit 0, stream := flags.testBit 1, token := ⟨tok % 64, by omega⟩, tokenCore := BitVec.ofNat 9 (tok / 64),
      length := len, src := locOf src, dst := locOf dst, remote := flags2.testBit 0, module := BitVec.ofNat 16 (leAt bs 24 2), vc := BitVec.ofNat 3 (flags2 / 2) }
    match op with
    | 1 => if len % 64 ≠ 0 ∨ !locOk src then .error stDesc else .ok (x .copy)
    | 2 => do
      let (d, e) ← tileSource c hearths td
      .ok { x .tile with td := d, ext := e }
    | 3 => if len % 32 ≠ 0 ∨ src >>> 60 ≠ 0 ∨ (src >>> 57) % 8 ≠ 1 ∨ (src >>> 48) % 512 ≠ g.val then .error stDesc else .ok (x .narrow)
    | _ => .error stDesc

/-- R158: the descriptor that DMAQ reads. -/
def dmaRead (c : Core) (rs : W64) : Except Status (List Byte) :=
  if rs.toNat % 32 ≠ 0 ∨ spadSize < rs.toNat + 32 then .error stAddr
  else if parityHit c.badParity rs.toNat 32 then .error stParity
  else .ok (readBytes c.spad rs.toNat 32)

/-- R89: the registers that a descriptor's bytes at an address name. -/
def dmaTdRegs (c : Core) (rs : W64) : List Reg :=
  match dmaRead c rs with
  | .ok bs => if leAt bs 0 1 = 2 then c.tdRegs ⟨leAt bs 27 1 % 16, by omega⟩ 2 else []
  | .error _ => []

/-- DMAQ (R158, R93, R547). -/
def execDmaq (i : Issue) (q : Fin 8) (rs : Fin 32) (s : State) : Host.Outcome State Fault Refusal :=
  let c0 := s.core i.core
  present i (dOp (.s rs :: dmaTdRegs c0 (c0.getS rs)) [] false) (fun c _ =>
    enqueue c q ((dmaRead c (c.getS rs)).bind (parseDma c i.core (s.hearthsOf i.core)))) s

/-- DQST (R158). -/
def execDqst (i : Issue) (rd : Fin 32) (q : Fin 8) (s : State) : Host.Outcome State Fault Refusal :=
  present i (dOp [] [.s rd] false) (fun c _ =>
    { Act.none with eff := { Staged.empty with writes := wS rd ((c.q[q]).lastStatus.setWidth 64), dqst := [q] } }) s

/-- R127: the content that a descriptor register has once its outstanding loads have completed. -/
def Core.tdLatest (c : Core) (n : Fin 16) : Option Desc :=
  ((c.inflight.filter fun w => decide (w.reg = .td n)).getLast?.bind fun w => match w.val with | .td d => some d | _ => none).or c.td[n]

/-- R89, R91: whether a register is loaded as the extension of the register before it, which is in MODE TAP or PAGED: its bytes are then no tile descriptor, and the instruction that uses them checks them (R265, R283; DESIGN CHOICE, log 46). -/
def Core.loadsExt (c : Core) (n : Fin 16) : Bool :=
  decide (n ≠ 0) && (c.tdLatest (n - 1)).any fun d => decide (dMode d = 1) || decide (dMode d = 2)

/-- R89, R91: a checked descriptor, or an extension, becomes a register's new content. -/
def loadTd (c : Core) (n : Fin 16) (d : Desc) : Act := if c.loadsExt n || descOk n d then Act.writes [⟨.td n, .td d, 0⟩] else Act.faults stDesc

/-- TDL (R159). -/
def execTdl (i : Issue) (td : Fin 16) (rs : Fin 32) (s : State) : Host.Outcome State Fault Refusal :=
  present i (dOp [.s rs] [.td td] false) (fun c _ =>
    let a := (c.getS rs).toNat
    if a % 64 ≠ 0 ∨ spadSize < a + 64 then Act.faults stAddr
    else if parityHit c.badParity a 64 then Act.faults stParity
    else loadTd c td (readDesc c.spad a)) s

/-- A descriptor with one 32-bit word replaced. -/
def setDescWord (d : Desc) (w : Fin 16) (x : W32) : Desc := (d &&& ~~~((0xFFFFFFFF : Desc) <<< (32 * w.val))) ||| (x.setWidth 512 <<< (32 * w.val))

/-- TDW (R159). -/
def execTdw (i : Issue) (td : Fin 16) (word : Fin 16) (rs : Fin 32) (s : State) : Host.Outcome State Fault Refusal :=
  present i (dOp [.s rs, .td td] [.td td] false) (fun c _ =>
    match c.td[td] with
    | none => Act.faults stDesc
    | some d => loadTd c td (setDescWord d word ((c.getS rs).setWidth 32))) s

/-- R160: whether a vector access is aligned and in the scratchpad. -/
def vectorAddrOk (a : W64) : Bool := decide (a.toNat % 64 = 0) && decide (a.toNat + 1024 ≤ spadSize)

/-- VLD (R160). -/
def execVld (i : Issue) (vd rs : Fin 32) (imm : BitVec 32) (s : State) : Host.Outcome State Fault Refusal :=
  present i (dOp [.s rs] [.v vd] false) (fun c _ =>
    let a := c.getS rs + sext imm
    if !vectorAddrOk a then Act.faults stAddr
    else if parityHit c.badParity a.toNat 1024 then Act.faults stParity
    else Act.writes (wV vd (Vector.ofFn fun k => BitVec.ofNat 32 (leNat (readBytes c.spad (a.toNat + 4 * k.val) 4))))) s

/-- VST (R160, R120). -/
def execVst (i : Issue) (vd rs : Fin 32) (imm : BitVec 32) (s : State) : Host.Outcome State Fault Refusal :=
  present i ⟨.d, .perLane, false, [.s rs, .v vd], []⟩ (fun c m =>
    let a := c.getS rs + sext imm
    if !vectorAddrOk a then Act.faults stAddr
    else
      let bs := (List.finRange 256).flatMap fun k =>
        if m.getLsbD k.val then (toLE ((c.getV vd)[k]).toNat 4).map some else List.replicate 4 none
      { Act.none with eff := { Staged.empty with stores := [(a.toNat, bs)] } }) s

/-- SIGNAL (R161). -/
def execSignal (i : Issue) (rt : Fin 32) (tok : Fin 64) (cnt : BitVec 8) (s : State) : Host.Outcome State Fault Refusal :=
  present i (dOp [.s rt] [] (decide (cnt = 0))) (fun c _ =>
    let x := c.getS rt
    let core := BitVec.ofNat 9 x.toNat
    let m := BitVec.ofNat 16 (bits x 31 16)
    if bit x 32 ∧ m ≠ s.fab.moduleId then Act.control (.signal (some m) core tok cnt)
    else if s.partOfCore (coreId core.toNat) = s.partOfCore i.core then Act.control (.signal none core tok cnt)
    else Act.faults stAddr) s

/-- WAIT (R96, R161). -/
def execWait (i : Issue) (tok : Fin 64) (cnt : BitVec 8) (s : State) : Host.Outcome State Fault Refusal :=
  present i (dOp [] [] (decide (cnt = 0))) (fun _ _ => Act.control (.wait tok cnt)) s

/-- WCLAIM (R105, R106, R162). -/
def execWclaim (i : Issue) (rd : Fin 32) (pd : Fin 8) (hrt : Fin 8) (ctr : Fin 64) (inc : BitVec 16) (rs : Fin 32) (s : State) : Host.Outcome State Fault Refusal :=
  present i (dOp (if inc = 0 then [.s rs] else []) [.s rd, .p pd] false) (fun c _ =>
    let n := if inc = 0 then bits (c.getS rs) 15 0 else inc.toNat
    let bal := ((s.taskOf i.core).map (·.2.balEn)).getD false
    if n = 0 || !bal || decide (s.partOf hrt ≠ s.partOfCore i.core) then Act.faults stIllegal
    else if c.claims.any fun x => decide (x.h = hrt) && decide (x.ctr = ctr) then Act.stalls
    else Act.control (.claim hrt ctr n rd pd)) s

/-- HBAR (R102, R122, R163). -/
def execHbar (i : Issue) (num : BitVec 16) (s : State) : Host.Outcome State Fault Refusal :=
  present i (dOp [] [] (guarded i)) (fun _ _ => Act.control (.barrier 0 num)) s

/-- MBAR (R102, R122, R163). -/
def execMbar (i : Issue) (num : BitVec 16) (s : State) : Host.Outcome State Fault Refusal :=
  present i (dOp [] [] (guarded i)) (fun _ _ => Act.control (.barrier 1 num)) s

/-- EBAR (R103, R122, R163). -/
def execEbar (i : Issue) (num : BitVec 16) (s : State) : Host.Outcome State Fault Refusal :=
  present i (dOp [] [] (guarded i)) (fun _ _ => Act.control (.barrier 2 num)) s

/-- MSYNC (R164). -/
def execMsync (i : Issue) (s : State) : Host.Outcome State Fault Refusal :=
  present i (dOp [] [] false) (fun c _ => if c.mq.isEmpty then Act.none else Act.stalls) s

/-! Collectives -/

/-- R361: the member that a rank names, by the member table. -/
def State.memberOf (s : State) (g : Fin 512) (d : Desc) (rank : Nat) : Except Status (BitVec 16 × BitVec 9) := do
  let bs ← (s.work g).rdMod (s.admits g) (cMembers d + 4 * rank) 4
  match memberEntry (BitVec.ofNat 32 (leNat bs)) with
  | some m => .ok m
  | none => .error stDesc

/-- R360, R361: the collective that a descriptor starts, once the ranks sent to and received from are known. -/
def State.collOf (s : State) (g : Fin 512) (d : Desc) (opc : Byte) (sig : Bool) (tok : Fin 64) (dst src : Nat) : Except Status Coll := do
  let me ← s.memberOf g d (cRank d)
  let (dm, dc) ← s.memberOf g d dst
  let (sm, sc) ← s.memberOf g d src
  if me ≠ (s.fab.moduleId, BitVec.ofNat 9 g.val) then .error stDesc
  else
    let ms := if cTimeout d = 0 then s.fab.collTimeout.toNat else cTimeout d
    .ok ⟨d, opc, sig, tok, 0, s.now, msTicks ms, dst, src, dm, dc, sm, sc, 0, false, false, 0, 0, false, false, cCount d, []⟩

/-- R165, R360: the descriptor that XSHIFT and XPERM read. -/
def collRead (c : Core) (rs : W64) : Except Status Desc :=
  if rs.toNat % 64 ≠ 0 ∨ spadSize < rs.toNat + 64 then .error stDesc
  else if parityHit c.badParity rs.toNat 64 then .error stParity
  else .ok (readDesc c.spad rs.toNat)

/-- A collective starts, or its check faults. -/
def collAct (x : Except Status Coll) : Act :=
  match x with
  | .ok c => Act.control (.coll c)
  | .error st => Act.faults st

/-- XSHIFT (R165, R360, R361). -/
def execXshift (i : Issue) (rs : Fin 32) (red axis : BitVec 2) (dir sig : Bool) (tok : Fin 64) (s : State) : Host.Outcome State Fault Refusal :=
  present i (dOp [.s rs] [] (decide (red = 3))) (fun c _ => collAct (do
    let d ← collRead c (c.getS rs)
    if !collOk d false red then .error stDesc
    else s.collOf i.core d (collOpc false red axis dir) sig tok (shiftRank d axis.toNat !dir) (shiftRank d axis.toNat dir))) s

/-- XPERM (R165, R360, R361). -/
def execXperm (i : Issue) (rs : Fin 32) (red : BitVec 2) (sig : Bool) (tok : Fin 64) (s : State) : Host.Outcome State Fault Refusal :=
  present i (dOp [.s rs] [] (decide (red = 3))) (fun c _ => collAct (do
    let d ← collRead c (c.getS rs)
    if !collOk d true red then .error stDesc
    else
      let bs ← (s.work i.core).rdMod (s.admits i.core) (cPerm d + 8 * cRank d) 8
      let dst := leAt bs 0 4
      let src := leAt bs 4 4
      if cSize d ≤ dst ∨ cSize d ≤ src ∨ decide (dst = cRank d) ≠ decide (src = cRank d) then .error stDesc
      else do
        let x ← s.collOf i.core d (collOpc true red 0 false) sig tok dst src
        .ok (if dst = cRank d then { x with dataSent := true, recvLeft := 0 } else x))) s

end Sys2Proof.Machine
end

