-- ==== Sys2Proof/Machine/SlotWalk.lean ====
section
/-! DEFINITION. The loader's accumulator-slot check: every path of a core's instruction stream followed with its open groups (R183 to R186), over the slot encodings of R117 to R165. -/

namespace Sys2Proof.Machine

/-- What the loader knows of a scalar register on a path: its value, whether immediates and s0 alone formed it, whether a CALL placed it in s31 (R183). -/
structure Known where
  val : W64
  det : Bool
  ret : Bool
  deriving DecidableEq, Repr

/-- A path's state: scalar registers, tile descriptors taken from the image (`none` where the loader does not know a register's content, `some none` where it is unloaded), scratchpad ranges that the core has written (`none`: anywhere), and the group that each accumulator slot holds. -/
structure PathState where
  regs : List (Option Known)
  tds : List (Option (Option Desc))
  dirty : Option (List (Nat × Nat))
  slots : List (Option Group)
  deriving DecidableEq, Repr

/-- A record of SLOT_PLAN (R548): core, bundle, groups opened, groups continued, branch targets. -/
structure SlotPlan where
  core : Nat
  bundle : Nat
  opens : List Group
  conts : List Group
  targets : List Nat
  deriving DecidableEq, Repr

/-- What the image gives the walk of one core: its global id, placed bundles by index, its scratchpad pieces (address, data, image offset), its slot plans. -/
structure WalkCtx where
  gid : Nat
  hearths : Nat
  last : Nat
  code : List (Nat × List Byte)
  spad : List (Nat × List Byte × Nat)
  plans : List SlotPlan
  deriving DecidableEq, Repr

/-- What the walk finds: bundles that fail R183, and the tile descriptors that a TDL loads from the image, with their offsets in it (R59, R184, R214). -/
structure WalkFound where
  bad : List Nat
  descs : List (Desc × Nat)
  deriving DecidableEq, Repr

/-- A field of a slot (R118). -/
def fld (w hi lo : Nat) : Nat := (w >>> lo) % 2 ^ (hi + 1 - lo)

/-- A signed 32-bit immediate of a slot. -/
def fldImm (w : Nat) : W64 := sext (BitVec.ofNat 32 (fld w 41 10))

/-- R120: whether a slot's guard never executes. -/
def neverRuns (w : Nat) : Bool := decide (fld w 55 52 = 8)

/-- R120: whether a slot's guard always executes. -/
def alwaysRuns (w : Nat) : Bool := decide (fld w 55 52 = 0)

/-- A register's knowledge after a write that may not execute. -/
def Known.either (a b : Option Known) : Option Known :=
  match a, b with
  | some x, some y => if x.val = y.val then some ⟨x.val, x.det && y.det, x.ret && y.ret⟩ else none
  | _, _ => none

/-- A scalar register on a path; s0 reads 0. -/
def PathState.getR (p : PathState) (n : Nat) : Option Known := if n = 0 then some ⟨0, true, false⟩ else (p.regs[n]?).join

/-- A scalar register written on a path. -/
def PathState.setR (p : PathState) (n : Nat) (k : Option Known) : PathState := { p with regs := p.regs.set n k }

/-- The value of the C-slot arithmetic operations (R130). -/
def walkOp (op : Nat) (a b : W64) : Option W64 :=
  match op with
  | 0x01 => some (a + b) | 0x02 => some (a - b) | 0x03 => some (a &&& b) | 0x04 => some (a ||| b) | 0x05 => some (a ^^^ b)
  | 0x06 => some (a <<< (b.toNat % 64)) | 0x07 => some (a >>> (b.toNat % 64)) | 0x08 => some (a.sshiftRight (b.toNat % 64))
  | 0x09 => some (a * b) | 0x0A => some (BitVec.ofNat 64 (a.toNat * b.toNat / 2 ^ 64))
  | 0x0B => some (if a.slt b then a else b) | 0x0C => some (if a.slt b then b else a)
  | 0x1A => some ((b <<< 32) ||| (a &&& 0xFFFFFFFF))
  | _ => none

/-- The register operation that an immediate form performs. -/
def walkImmOp (op : Nat) : Nat := if op = 0x1A then op else op - 0x10

/-- The arithmetic result of a C slot, where its operands are known. -/
def PathState.arith (p : PathState) (w : Nat) : Option Known :=
  let op := fld w 63 56
  let imm := decide (0x11 ≤ op)
  match p.getR (fld w 46 42), (if imm then some ⟨fldImm w, true, false⟩ else p.getR (fld w 41 37)) with
  | some a, some b => (walkOp (if imm then walkImmOp op else op) a.val b.val).map fun v => ⟨v, a.det && b.det, false⟩
  | _, _ => none

/-- A range of the scratchpad, written by the core from an address that may be unknown. -/
def PathState.wrote (p : PathState) (at_ : Option Known) (imm : W64) (n : Nat) : PathState :=
  match at_, p.dirty with
  | some k, some ds =>
    let r := ((k.val + imm).toNat, n)
    if n = 0 ∨ ds.contains r then p else { p with dirty := some (ds ++ [r]) }
  | _, _ => { p with dirty := none }

/-- The bytes that a window's records take (R90). -/
def winBytes (d : Desc) : Nat := winCount d * recSize (dFmt d)

/-- The scratchpad that a destination descriptor's window covers. -/
def PathState.wroteWin (p : PathState) (d : Option Desc) : PathState :=
  match d with
  | none => { p with dirty := none }
  | some d => if dSpace d = 1 then p.wrote (some ⟨BitVec.ofNat 64 (dBase d), true, false⟩) 0 (winBytes d) else p

/-- A tile descriptor register on a path. -/
def PathState.getTd (p : PathState) (n : Nat) : Option Desc := ((p.tds[n]?).join).join

/-- R89: whether a descriptor loaded into a register is the extension of the register before it; where that register's content is not known, whether it is no tile descriptor by R91. -/
def PathState.loadsExt (p : PathState) (n : Nat) (ok : Bool) : Bool :=
  decide (n ≠ 0) && (match (p.tds[n - 1]?).join with
    | some (some d) => decide (dMode d = 1) || decide (dMode d = 2)
    | some none => false
    | none => !ok)

/-- R184, R91: the descriptor that the image places at an address, unwritten by the core; with its offset in the image. -/
def WalkCtx.imageDesc (c : WalkCtx) (p : PathState) (a : Nat) : Option (Desc × Nat) :=
  match p.dirty with
  | none => none
  | some ds =>
    if a % 64 ≠ 0 ∨ ds.any (fun r => decide (r.1 < a + 64) && decide (a < r.1 + r.2)) then none
    else (c.spad.find? fun x => decide (x.1 ≤ a) && decide (a + 64 ≤ x.1 + x.2.1.length)).map fun x =>
      (BitVec.ofNat 512 (leNat ((x.2.1.drop (a - x.1)).take 64)), x.2.2 + (a - x.1))

/-- R89: a descriptor register with its extension, where its MODE has one. -/
def PathState.operand (p : PathState) (n : Nat) : Option (Desc × Option Desc) :=
  (p.getTd n).bind fun d => if dMode d = 0 then some (d, none) else (p.getTd (n + 1)).map fun e => (d, some e)

/-- R138, R174: the groups of an accumulating instruction in slot order, from its descriptors. -/
def descGroups (a : Desc × Option Desc) (b dd : Desc) : List Group :=
  let (o0, on, _, _, _) := opGeom a.1 a.2
  (groupOrder (dLoopAcc dd) (2 * on) (dON b)).map fun x => ⟨o0 + x.1 / 2, decide (x.1 % 2 = 1), dO0 b + x.2⟩

/-- R84: the groups take slots of a mask one after another; `none` where one finds no slot. -/
def walkTake (mask : Nat) : List Group → List (Option Group) → Option (List (Option Group))
  | [], ss => some ss
  | g :: r, ss =>
    let ids := (List.range 5).filter mask.testBit
    if ids.any fun i => decide (ss[i]? = some (some g)) then walkTake mask r ss
    else match ids.find? fun i => decide (ss[i]? = some none) with
      | some i => walkTake mask r (ss.set i (some g))
      | none => none

/-- Whether a slot of a mask is empty. -/
def walkFree (mask : Nat) (ss : List (Option Group)) : Bool := (List.range 5).any fun i => mask.testBit i && decide (ss[i]? = some none)

/-- R184: the plan declared for a bundle. -/
def WalkCtx.plan (c : WalkCtx) (pc : Nat) : Option SlotPlan := c.plans.find? fun x => decide (x.bundle = pc)

/-- R183, R184: an accumulating instruction: its groups from a declared plan, those that it opens and those that it continues, else from the image's descriptors. -/
def WalkCtx.accumulate (c : WalkCtx) (pc : Nat) (a : Option (Desc × Option Desc)) (b dd : Option Desc) (use : List Group → List Group → Nat → Option PathState) : Option PathState :=
  match c.plan pc, a, b, dd with
  | some x, a, b, dd => if x.opens.isEmpty && x.conts.isEmpty then
      (match a, b, dd with
      | some a, some b, some dd => use (descGroups a b dd) [] (dAccMask dd)
      | _, _, _ => none)
    else use x.opens x.conts ((dd.map dAccMask).getD 31)
  | none, some a, some b, some dd => use (descGroups a b dd) [] (dAccMask dd)
  | none, _, _, _ => none

/-- R183: whether a BRND's destination, where the loader knows it, is one for the group that its slot holds: every output tile of the group that the BRND writes lies in the window (R178, R291; DEDUCED, log 66). -/
def brndFits (d : Option Desc) (g : Group) : Bool :=
  d.all fun d => ((brndTiles d g).filter fun x => brndInGrid d g x.o x.r).all fun x => inWindow d x.o x.r

/-- R149, R241: the partial block that a NORM STAT writes; nothing where PART_OUT is 0. -/
def PathState.wroteStat (p0 p : PathState) (rg : Nat) : PathState :=
  match p0.getR rg with
  | some k => if gPartOut k.val then p.wrote (some ⟨BitVec.ofNat 64 (gPaddr k.val + 8192 * gPartN k.val), true, false⟩) 0 8192 else p
  | none => { p with dirty := none }

/-- The M slot on a path; `none` where it fails R183. -/
def WalkCtx.mStep (c : WalkCtx) (pc w : Nat) (p0 p : PathState) : Option PathState :=
  if neverRuns w then some p
  else match fld w 63 56 with
    | 0x01 | 0x02 => c.accumulate pc (p0.operand (fld w 51 48)) (p0.getTd (fld w 47 44)) (p0.getTd (fld w 43 40)) fun gs _ mask =>
        (walkTake mask gs p0.slots).map fun ss => { p with slots := ss }
    | 0x03 => match (p0.slots[fld w 51 49]?).join with
      | none => none
      | some g => if !brndFits (p0.getTd (fld w 48 45)) g then none else some ((if fld w 40 40 = 1 then { p with slots := p0.slots.set (fld w 51 49) none } else p).wroteWin (p0.getTd (fld w 48 45)))
    | 0x04 => (c.accumulate pc (p0.operand (fld w 51 48)) (p0.getTd (fld w 47 44)) (p0.getTd (fld w 43 40)) fun gs cs mask =>
        match (p0.slots[fld w 33 31]?).join with
        | some g => if (gs ++ cs).contains g && walkFree mask p0.slots then some p else none
        | none => none).map fun p => p.setR (fld w 30 26) none
    | 0x08 => some ((p.wrote (p0.getR (fld w 39 35)) 0 0x8200).wroteWin (p0.getTd (fld w 26 23)))
    | 0x09 =>
      if fld w 51 50 = 0 then
        if walkFree (((p0.getTd (fld w 43 40)).map dAccMask).getD 31) p0.slots then some (p0.wroteStat p (fld w 25 21)) else none
      else some (p.wroteWin (p0.getTd (fld w 43 40)))
    | _ => some p

/-- R93: the scratchpad that a DMAQ's transfer writes on its own core. -/
def WalkCtx.dmaq (c : WalkCtx) (p0 p : PathState) (rs : Nat) : PathState :=
  match p0.getR rs with
  | none => { p with dirty := none }
  | some k =>
    let a := k.val.toNat
    match c.imageDesc p0 (a / 64 * 64) with
    | none => { p with dirty := none }
    | some (d, _) =>
      let bs := (toLE d.toNat 64).drop (a % 64)
      let dst := locOf (leAt bs 16 8)
      if (leAt bs 26 1).testBit 0 ∨ dst.space ≠ 1 ∨ dst.core.toNat ≠ c.gid then p
      else
        let to_ : Option Known := some ⟨dst.off.setWidth 64, true, false⟩
        if leAt bs 0 1 = 2 then (match p0.getTd (leAt bs 27 1 % 16) with
          | some d => p.wrote to_ 0 (winBytes d)
          | none => { p with dirty := none })
        else p.wrote to_ 0 (leAt bs 4 4)

/-- The D slot on a path, with the descriptor that a TDL loads from the image. -/
def WalkCtx.dStep (c : WalkCtx) (w : Nat) (p0 p : PathState) : PathState × List (Desc × Nat) :=
  if neverRuns w then (p, [])
  else match fld w 63 56 with
    | 0x01 => (match p0.getTd (fld w 48 45) with
        | some d => p.wrote (p0.getR (fld w 44 40)) 0 (winBytes d)
        | none => { p with dirty := none }, [])
    | 0x03 => (c.dmaq p0 p (fld w 44 40), [])
    | 0x04 =>
      let n := fld w 51 48
      match (p0.getR (fld w 44 40)).bind fun k => c.imageDesc p0 k.val.toNat with
      | some (d, off) =>
        let x : Option (Option Desc) := if alwaysRuns w || decide ((p0.tds[n]?).join = some (some d)) then some (some d) else none
        ({ p with tds := p.tds.set n x }, if p0.loadsExt n (descOk ⟨n % 16, by omega⟩ d) then [] else [(d, off)])
      | none => ({ p with tds := p.tds.set n none }, [])
    | 0x05 => ({ p with tds := p.tds.set (fld w 51 48) none }, [])
    | 0x06 | 0x18 => (p.setR (fld w 51 47) none, [])
    | 0x09 => (p.wrote (p0.getR (fld w 46 42)) (fldImm w) 1024, [])
    | _ => (p, [])

/-- R183: the targets of a BRR: determined on the path, else declared; `none` where it is neither. -/
def WalkCtx.brrTargets (c : WalkCtx) (pc ra : Nat) (p0 : PathState) : Option (List Nat) :=
  match p0.getR ra with
  | some k => if k.det ∨ (k.ret ∧ ra = 31) then some [k.val.toNat % 8192] else declared
  | none => declared
where
  declared : Option (List Nat) := (c.plans.filter fun x => decide (x.bundle = pc) && !x.targets.isEmpty).head?.map (·.targets)

/-- The C slot on a path: the path's state, its next bundles, and whether its BRR is undetermined. -/
def WalkCtx.cStep (c : WalkCtx) (pc w : Nat) (p0 p : PathState) : PathState × List Nat × Bool :=
  let on (ts : List Nat) : List Nat := if alwaysRuns w then ts else (pc + 1) :: ts
  let put (r : Nat) (k : Option Known) : PathState := p.setR r (if alwaysRuns w then k else Known.either k (p0.getR r))
  if neverRuns w then (p, [pc + 1], false)
  else match fld w 63 56 with
    | 0x28 => (p, on [fld w 12 0], false)
    | 0x29 => (match c.brrTargets pc (fld w 46 42) p0 with
        | some ts => (p, on ts, false)
        | none => (p, on [], true))
    | 0x2A => (put (fld w 51 47) ((p0.getR (fld w 51 47)).map fun k => ⟨k.val - 1, k.det, false⟩), [pc + 1, fld w 12 0], false)
    | 0x2B => (put 31 (some ⟨BitVec.ofNat 64 (pc + 1), false, true⟩), on [fld w 12 0], false)
    | 0x31 => (p.wrote (p0.getR (fld w 46 42)) (fldImm w) 8, [pc + 1], false)
    | 0x30 | 0x38 | 0x39 => (put (fld w 51 47) none, [pc + 1], false)
    | 0x3F => (p, [], false)
    | op => (if (1 ≤ op ∧ op ≤ 0x0C) ∨ (0x11 ≤ op ∧ op ≤ 0x1A) then put (fld w 51 47) (p0.arith w) else p, [pc + 1], false)

/-- The V slot on a path: VEXT writes a scalar register. -/
def vStep (w : Nat) (p : PathState) : PathState := if fld w 63 56 = 0x2A ∧ !neverRuns w then p.setR (fld w 51 47) none else p

/-- The smallest number of a list. -/
def lowest : List Nat → Option Nat
  | [] => none
  | x :: r => match lowest r with
    | none => some x
    | some y => some (min x y)

/-- Whether CODE places a bundle. -/
def WalkCtx.placed (c : WalkCtx) (pc : Nat) : Bool := c.code.any fun x => decide (x.1 = pc)

/-- R78, R183: where a path that runs through the loader's NOPs next meets a bundle of CODE, or passes the last one. -/
def WalkCtx.gapEnd (c : WalkCtx) (pc : Nat) : Nat := (lowest ((c.code.map (·.1)).filter fun x => decide (pc < x))).getD (c.last + 1)

/-- R183: the bundle at which a path at `pc` joins one at `qc`: the same one, or the later of two in one run of NOPs. -/
def WalkCtx.join (c : WalkCtx) (pc qc : Nat) : Option Nat :=
  if pc = qc ∨ (!c.placed pc ∧ !c.placed qc ∧ c.gapEnd pc = c.gapEnd qc) then some (max pc qc) else none

/-- One bundle of a path: its next bundles with the path's state there, and what fails. A path goes on past a bundle that fails R183, so that the earlier check of R59 meets every descriptor of it. -/
def WalkCtx.step (c : WalkCtx) (pc : Nat) (p : PathState) (f : WalkFound) : List (Nat × PathState) × WalkFound :=
  match (c.code.find? fun x => decide (x.1 = pc)).map (·.2) with
  | none => ([(c.gapEnd pc, p)], f)
  | some bs =>
    let m := c.mStep pc (leAt bs 8 8) p p
    let (q, ds) := c.dStep (leAt bs 24 8) p (vStep (leAt bs 16 8) (m.getD p))
    let x := c.cStep pc (leAt bs 0 8) p q
    (x.2.1.map fun t => (t, x.1),
      ⟨if m.isNone || x.2.2 then pc :: f.bad else f.bad, f.descs ++ ds.filter fun x => !f.descs.contains x⟩)

/-- What two paths have in common where they meet. -/
def PathState.meet (a b : PathState) : PathState where
  regs := List.zipWith Known.either a.regs b.regs
  tds := List.zipWith (fun x y => if x = y then x else none) a.tds b.tds
  dirty := match a.dirty, b.dirty with
    | some x, some y => some (x ++ y.filter fun r => !x.contains r)
    | _, _ => none
  slots := a.slots

/-- The path states seen at a bundle with another one; `none` where it adds nothing. More than 4,096 are merged into what they have in common (DESIGN CHOICE, log 56). -/
def seeState (ss : List PathState) (p : PathState) : Option (List PathState × PathState) :=
  if ss.any fun s => decide (s.meet p = s) then none
  else if ss.length < 4096 then some (p :: ss, p)
  else
    let m := ss.foldl PathState.meet p
    some ([m], m)

/-- R183: every path followed; bundles that join with other open groups fail (R185), and the path goes on with the groups that were there first. -/
def WalkCtx.walk (c : WalkCtx) : Nat → List (Nat × PathState) → List (Nat × List PathState) → WalkFound → WalkFound
  | 0, _, _, f => f
  | _ + 1, [], _, f => f
  | fuel + 1, (pc, p) :: r, seen, f =>
    if c.last < pc then c.walk fuel r seen f
    else
      let clash := seen.filterMap fun x => if x.2.any fun s => decide (s.slots ≠ p.slots) then c.join pc x.1 else none
      let f := { f with bad := clash ++ f.bad }
      let ss := ((seen.find? fun x => decide (x.1 = pc)).map (·.2)).getD []
      match seeState ss { p with slots := (ss.head?.map (·.slots)).getD p.slots } with
      | none => c.walk fuel r seen f
      | some (ss, p) =>
        let (nx, f) := c.step pc p f
        c.walk fuel (nx ++ r) ((pc, ss) :: seen.filter fun x => decide (x.1 ≠ pc)) f

/-- R78: a path's state at bundle 0. -/
def PathState.start : PathState := ⟨List.replicate 32 (some ⟨0, false, false⟩), List.replicate 16 (some none), some [], List.replicate 5 none⟩

/-- R183 to R185: the check of one core. -/
def WalkCtx.check (c : WalkCtx) : WalkFound := c.walk (2 ^ 40) [(0, PathState.start)] [] ⟨[], []⟩

end Sys2Proof.Machine
end

