-- ==== Sys2Proof/Machine/Loader.lean ====
section
/-! DEFINITION. The loader: the schedule image with its sections and records, the checks of R384 in order, secure objects, and what a started task finds in place (R59, R78, R193, R194, R210, R214, R216, R381 to R384, R475 to R477, R485, R548). -/

namespace Sys2Proof.Machine

/-- Why the loader refuses a job: status, DETAIL (R402), core and bundle. -/
structure LoadFail where
  status : Status
  detail : Nat
  core : Option (Fin 512)
  bundle : Option (BitVec 13)
  deriving DecidableEq, Repr

/-- A schedule image: its SIZE bytes and its section table (type, offset, length). -/
structure Image where
  bytes : List Byte
  secs : List (Nat × Nat × Nat)
  deriving DecidableEq, Repr

/-- A record of a section, with its offset in the image. -/
abbrev ImgRec := Nat × List Byte

/-- The first failing condition of a list: its offset. -/
def firstFail (cs : List (Bool × Nat)) : Option Nat := (cs.find? fun c => !c.1).map (·.2)

/-- PART_HEARTHS. -/
def imgHearths (bs : List Byte) : Nat := leAt bs 16 1
/-- MODULES. -/
def imgModules (bs : List Byte) : Nat := leAt bs 20 4
/-- PEAK_A. -/
def imgPeak (bs : List Byte) : Nat := leAt bs 24 2
/-- HBM_GIB. -/
def imgHbm (bs : List Byte) : Nat := leAt bs 28 4
/-- BAL_EN. -/
def imgBal (bs : List Byte) : Bool := (leAt bs 6 1).testBit 0

/-- R381: the checks of the header; `n` is the size that SUBMIT gave. -/
def headerFail (bs : List Byte) (n : Nat) : Option Nat :=
  firstFail [(decide (64 ≤ n ∧ leAt bs 0 4 = 0x54485957), 0), (decide (leAt bs 4 2 = 1), 4), (decide (leAt bs 6 2 < 4), 6),
    (decide (64 ≤ leAt bs 8 8 ∧ leAt bs 8 8 ≤ n), 8), (decide (imgHearths bs = 1 ∨ imgHearths bs = 2 ∨ imgHearths bs = 4 ∨ imgHearths bs = 8), 16),
    (decide (1 ≤ leAt bs 17 1 ∧ leAt bs 17 1 ≤ 32), 17), (decide (leAt bs 18 2 = 0), 18), (decide (1 ≤ imgModules bs ∧ imgModules bs ≤ 65536), 20),
    (decide (leAt bs 26 2 = 0), 26), (decide (leAt bs 32 32 = 0), 32)]

/-- R382: the checks of the section table. -/
def tableFail (bs : List Byte) : Option Nat :=
  let n := leAt bs 17 1
  let e (i : Nat) := 64 + 16 * i
  let types := (List.range n).map fun i => leAt bs (e i) 2
  if bs.length < e n then some 17
  else (firstFail ((List.range n).map fun i =>
      (decide (1 ≤ leAt bs (e i) 2 ∧ leAt bs (e i) 2 ≤ 9) && decide (leAt bs (e i + 2) 2 = 0) && !((types.take i).contains (leAt bs (e i) 2))
        && decide (e n ≤ leAt bs (e i + 8) 8) && decide (leAt bs (e i + 8) 8 + leAt bs (e i + 4) 4 ≤ bs.length), e i))).or
    (firstFail ([1, 2, 3, 6, 7].map fun t => (types.contains t, 64)))

/-- R381, R382: the image of a byte list, or the offset of the failing item. -/
def parseImage (raw : List Byte) (n : Nat) : Except Nat Image :=
  match headerFail raw n with
  | some o => .error o
  | none =>
    let bs := raw.take (leAt raw 8 8)
    match tableFail bs with
    | some o => .error o
    | none => .ok ⟨bs, (List.range (leAt bs 17 1)).map fun i => (leAt bs (64 + 16 * i) 2, leAt bs (64 + 16 * i + 8) 8, leAt bs (64 + 16 * i + 4) 4)⟩

/-- A section: its offset and bytes. -/
def Image.section (img : Image) (t : Nat) : Option (Nat × List Byte) :=
  (img.secs.find? fun x => decide (x.1 = t)).map fun x => (x.2.1, (img.bytes.drop x.2.1).take x.2.2)

/-- R548: bytes of a record by its section, read from its own first bytes. -/
def recLen (t hearths : Nat) (bs : List Byte) : Option Nat :=
  match t with
  | 1 => if bs.length < 8 then none else some (8 + 32 * leAt bs 4 4)
  | 2 => if bs.length < 16 then none else some (16 + leAt bs 4 4)
  | 3 => some 16
  | 4 => if bs.length < 8 then none else some (8 + 16 * (leAt bs 4 1 + leAt bs 5 1) + 2 * leAt bs 6 1)
  | 5 => some (40 + 1024 * hearths)
  | 6 => some 48
  | 7 => if bs.length < 8 then none else some (8 + 2 * leAt bs 2 2)
  | 8 => some 16
  | _ => if bs.length < 8 then none else some (8 + 2 * leAt bs 0 4)

/-- R548: records one after another, each at a multiple of 8. -/
def splitRecs (len : List Byte → Option Nat) : Nat → Nat → List Byte → Except Nat (List ImgRec)
  | 0, _, _ => .ok []
  | fuel + 1, off, bs =>
    if bs.isEmpty then .ok []
    else match len bs with
      | none => .error off
      | some n =>
        if n = 0 ∨ bs.length < n then .error off
        else do
          let r ← splitRecs len fuel (off + roundUp n 8) (bs.drop (roundUp n 8))
          .ok ((off, bs.take n) :: r)

/-- R548: the records of a section; EPOCHS, PLOG and PEERS hold one record and nothing after its padding. -/
def Image.records (img : Image) (t : Nat) : Except Nat (List ImgRec) :=
  match img.section t with
  | none => .ok []
  | some (off, bs) =>
    if 7 ≤ t then
      match recLen t 0 bs with
      | some n => if bs.length < n ∨ roundUp n 8 < bs.length then .error off else .ok [(off, bs.take n)]
      | none => .error off
    else splitRecs (recLen t (imgHearths img.bytes)) (bs.length + 1) off bs

/-- The records of a section that parses. -/
def Image.recs (img : Image) (t : Nat) : List ImgRec := match img.records t with | .ok rs => rs | .error _ => []

/-- R548: whether a record's fields lie in their ranges. -/
def recOk (t hearths : Nat) (hostWeights : Bool) (r : List Byte) : Bool :=
  let core := decide (leAt r 0 2 < 64 * hearths)
  match t with
  | 1 => core && decide (1 ≤ leAt r 4 4) && decide (leAt r 2 2 + leAt r 4 4 ≤ 8192)
  | 2 => core && decide (leAt r 2 2 = 0) && decide (leAt r 4 4 % 64 = 0) && decide (leAt r 8 8 % 64 = 0) && decide (leAt r 8 8 + leAt r 4 4 ≤ spadSize)
  | 4 =>
    let n := leAt r 4 1 + leAt r 5 1
    core && decide (leAt r 2 2 < 8192) && decide (leAt r 7 1 = 0) && (decide (leAt r 6 1 = 0) || decide (n = 0))
    && ((List.range n).all fun i => decide (leAt r (8 + 16 * i + 8) 1 ≤ 1) && decide (leAt r (8 + 16 * i + 9) 7 = 0))
    && ((List.range (leAt r 6 1)).all fun i => decide (leAt r (8 + 16 * n + 2 * i) 2 < 8192))
  | 5 => decide (leAt r 4 1 ≤ 1) && decide (leAt r 5 3 = 0) && decide (leAt r 8 8 % 64 = 0) && decide (leAt r 8 8 < 2 ^ 48)
    && (decide (leAt r 4 1 = 1) || (decide (leAt r 24 8 = 0) && decide (leAt r 32 8 = 0)))
  | 6 => (decide (leAt r 2 1 ≤ 3) || decide (leAt r 2 1 = 0xFF)) && decide (leAt r 3 1 ≤ 1) && decide (leAt r 8 8 + leAt r 16 8 ≤ hbmTop)
    && (!hostWeights || (decide (leAt r 24 16 = 0) && decide (hostBase ≤ leAt r 40 8) && decide (leAt r 40 8 + leAt r 16 8 ≤ hostTop)))
  | 7 => decide (leAt r 4 4 = 0)
  | 8 => decide (leAt r 0 8 + leAt r 8 8 ≤ 2 ^ 48)
  | 9 => decide (leAt r 4 4 = 0) && decide (1 ≤ leAt r 0 4) && decide (leAt r 0 4 ≤ 65535)
  | _ => true

/-- R548: whether two records of a section place one bundle, write one byte, or come out of layer order. -/
def recsClash (t : Nat) (a b : List Byte) : Bool :=
  let meets (x n y m : Nat) : Bool := decide (x < y + m) && decide (y < x + n)
  match t with
  | 1 => decide (leAt a 0 2 = leAt b 0 2) && meets (leAt a 2 2) (leAt a 4 4) (leAt b 2 2) (leAt b 4 4)
  | 2 => decide (leAt a 0 2 = leAt b 0 2) && meets (leAt a 8 8) (leAt a 4 4) (leAt b 8 8) (leAt b 4 4)
  | 3 => decide (leAt b 0 2 ≤ leAt a 0 2)
  | _ => false

/-- R548: the first record of a section that clashes with an earlier one. -/
def firstClash (t : Nat) : List ImgRec → List ImgRec → Option Nat
  | _, [] => none
  | seen, r :: rs => if seen.any fun x => recsClash t x.2 r.2 then some r.1 else firstClash t (seen ++ [r]) rs

/-- R548: the failing record of a section. -/
def Image.sectionFail (img : Image) (hostWeights : Bool) (t : Nat) : Option Nat :=
  match img.records t with
  | .error o => some o
  | .ok rs => (firstFail (rs.map fun r => (recOk t (imgHearths img.bytes) hostWeights r.2, r.1))).or (firstClash t [] rs)

/-! What the walk of R183 takes from an image -/

/-- R548: a slot plan record. -/
def planOf (r : List Byte) : SlotPlan :=
  let k := leAt r 4 1
  let n := k + leAt r 5 1
  let gs : List Group := (List.range n).map fun i => ⟨leAt r (8 + 16 * i) 4, decide (leAt r (8 + 16 * i + 8) 1 = 1), leAt r (8 + 16 * i + 4) 4⟩
  ⟨leAt r 0 2, leAt r 2 2, gs.take k, gs.drop k,
    (List.range (leAt r 6 1)).map fun i => leAt r (8 + 16 * n + 2 * i) 2⟩

/-- R216: whether POOLS reserves an alternate region. -/
def Image.reserves (img : Image) : Bool := (img.recs 5).any fun r => (leAt r.2 4 1).testBit 0

/-- R183: the walk's view of image core `k`, on a partition whose first core is `g0`. -/
def Image.walkCtx (img : Image) (g0 k : Nat) : WalkCtx where
  gid := g0 + k
  hearths := imgHearths img.bytes
  last := if img.reserves then 8127 else 8191
  code := (img.recs 1).flatMap fun r => if leAt r.2 0 2 = k then (List.range (leAt r.2 4 4)).map fun i => (leAt r.2 2 2 + i, (r.2.drop (8 + 32 * i)).take 32) else []
  spad := (img.recs 2).filterMap fun r => if leAt r.2 0 2 = k then some (leAt r.2 8 8, r.2.drop 16, r.1 + 16) else none
  plans := (img.recs 4).filterMap fun r => if leAt r.2 0 2 = k then some (planOf r.2) else none

/-- The image cores to which CODE gives bundles, ascending. -/
def Image.codeCores (img : Image) : List Nat :=
  let named := (img.recs 1).map fun r => leAt r.2 0 2
  (List.range (64 * imgHearths img.bytes)).filter fun k => named.contains k

/-- The offset of a bundle of an image core: where CODE places it, else the section. -/
def Image.bundleAt (img : Image) (k b : Nat) : Nat :=
  (((img.recs 1).find? fun r => decide (leAt r.2 0 2 = k) && decide (leAt r.2 2 2 ≤ b) && decide (b < leAt r.2 2 2 + leAt r.2 4 4)).map fun r =>
    r.1 + 8 + 32 * (b - leAt r.2 2 2)).getD (((img.section 1).map (·.1)).getD 64)

/-- The bundle that CODE places at an index of an image core. -/
def Image.codeAt (img : Image) (k b : Nat) : Option (List Byte) :=
  ((img.recs 1).find? fun r => decide (leAt r.2 0 2 = k) && decide (leAt r.2 2 2 ≤ b) && decide (b < leAt r.2 2 2 + leAt r.2 4 4)).map fun r =>
    (r.2.drop (8 + 32 * (b - leAt r.2 2 2))).take 32

/-- R548: whether a slot plan's NTGT is 0, or its bundle holds a BRR. -/
def Image.planTargetsOk (img : Image) (r : List Byte) : Bool :=
  decide (leAt r 6 1 = 0) || (img.codeAt (leAt r 0 2) (leAt r 2 2)).any fun bs => decide (fld (leAt bs 0 8) 63 56 = 0x29)

/-- The walks of every core, each with its image core number. -/
def Image.walks (img : Image) (g0 : Nat) : List (Nat × WalkFound) := img.codeCores.map fun k => (k, (img.walkCtx g0 k).check)

/-- A refusal that names an offset of the image. -/
def failAt (st : Status) (o : Nat) : LoadFail := ⟨st, o % 2 ^ 64, none, none⟩

/-- R216: a CODE record that places a bundle that the widening routine reserves: where the image holds it, its core and index. -/
def Image.highCode (img : Image) (g0 : Nat) : Option LoadFail :=
  ((img.recs 1).find? fun r => img.reserves && decide (8128 < leAt r.2 2 2 + leAt r.2 4 4)).map fun r =>
    let b := max 8128 (leAt r.2 2 2)
    ⟨stImage, r.1 + 8 + 32 * (b - leAt r.2 2 2), some (coreId (g0 + leAt r.2 0 2)), some (BitVec.ofNat 13 b)⟩

/-- R384, step 1: bounds, layouts (R548), reduction lengths (R59), reserved bundles (R216), and that some core has code. -/
def Image.step1 (img : Image) (g0 : Nat) (hostWeights : Bool) (ws : List (Nat × WalkFound)) : Option LoadFail :=
  let long := (ws.flatMap fun w => w.2.descs).find? fun d => decide (dLayout d.1 = 0) && decide (2 ^ 30 < dRed d.1)
  ((((((List.range 9).findSome? fun i => img.sectionFail hostWeights (i + 1)).or
    (firstFail ((img.recs 4).map fun r => (img.planTargetsOk r.2, r.1)))).or (long.map (·.2))).map (failAt stImage)).or
    (img.highCode g0)).or
    (if (img.recs 1).isEmpty then some (failAt stImage (((img.section 1).map (·.1)).getD 64)) else none)

/-- R194: the next step of the precision chain. -/
def nextRung (a b : Nat) : Bool :=
  (decide (a = 7) && (decide (b = 5) || decide (b = 6))) || ((decide (a = 5) || decide (a = 6)) && decide (b = 3)) || (decide (a = 3) && decide (b = 1))

/-- R193, R194: whether a precision declaration is valid. -/
def precisionOk (r : List Byte) : Bool :=
  let sp := leAt r 2 1
  let n := leAt r 6 1
  let nib (i : Nat) := leAt r 7 2 / 16 ^ i % 16
  decide (1 ≤ n ∧ n ≤ 4)
  && ((List.range 4).all fun i => decide (i < n) || decide (nib i = 0))
  && ((List.range (n - 1)).all fun i => nextRung (nib i) (nib (i + 1)))
  && (decide (sp % 32 ≤ 16) || sp.testBit 7)
  && !fmtReserved (nib 0)
  && ([1, 3, 5, 6, 7].contains (nib 0) || (leAt r 3 1).testBit 0 || sp.testBit 7)
  && decide (sp / 32 % 4 = 0) && decide (leAt r 3 1 < 4) && decide (leAt r 9 7 = 0)

/-- R195: what the weight manifest of an image installs for a layer: a tensor for each declared rung, and a wide copy in BF16, which is the top rung where that is BF16. No check of R384 names it; the execution of a layer that it leaves out is outside what the spec gives. -/
def Image.weightsPlaced (img : Image) (r : List Byte) : Bool :=
  let n := leAt r 6 1
  let top := leAt r 7 2 / 16 ^ (n - 1) % 16
  let copies := (img.recs 6).filterMap fun w => if leAt w.2 0 2 = leAt r 0 2 then some (leAt w.2 2 1) else none
  ((List.range n).all fun k => copies.contains k) && (decide (top = 1) || copies.contains 0xFF)

/-- R384, step 2. -/
def Image.step2 (img : Image) : Option LoadFail := (firstFail ((img.recs 3).map fun r => (precisionOk r.2, r.1))).map (failAt stPrecision)

/-- R210: the extents of a pool record: offset in the image, slag base and limit, escape base and limit. -/
def poolExtents (r : ImgRec) : List (Nat × Nat × Nat × Nat × Nat) :=
  (List.range ((r.2.length - 40) / 16)).map fun k =>
    let e := 40 + 16 * k
    (r.1 + e, leAt r.2 e 4, leAt r.2 (e + 4) 4, leAt r.2 (e + 8) 4, leAt r.2 (e + 12) 4)

/-- R210: the first extent outside its area, or over an earlier one. -/
def extentFail (lo cap : Nat) : List (Nat × Nat) → List (Nat × Nat × Nat) → Option Nat
  | _, [] => none
  | seen, (o, b, n) :: r =>
    if n ≠ 0 ∧ (b < lo ∨ cap < b + n ∨ seen.any fun x => decide (x.1 < b + n) && decide (b < x.1 + x.2)) then some o
    else extentFail lo cap (if n = 0 then seen else (b, n) :: seen) r

/-- R214: whether POOLS reserves a descriptor's alternate region. -/
def Image.altOk (img : Image) (d : Desc) : Bool :=
  (img.recs 5).any fun r => decide (leAt r.2 0 4 = dTid d) && (leAt r.2 4 1).testBit 0
    && (decide (dSpace d ≠ 0) || decide (leAt r.2 24 8 = altBase d)) && decide (gridO d * gridR d * bf16Rec ≤ leAt r.2 32 8)

/-- R384, step 3 (R210, R214). -/
def Image.step3 (img : Image) (ws : List (Nat × WalkFound)) : Option LoadFail :=
  let ext := (img.recs 5).findSome? fun r =>
    (extentFail 4096 (leAt r.2 16 4) [] ((poolExtents r).map fun x => (x.1, x.2.1, x.2.2.1))).or
      (extentFail 0 (leAt r.2 20 4) [] ((poolExtents r).map fun x => (x.1, x.2.2.2.1, x.2.2.2.2)))
  let alt := (ws.flatMap fun w => w.2.descs).find? fun d => dAutoWiden d.1 && !img.altOk d.1
  (ext.or (alt.map fun _ => ((img.section 5).map (·.1)).getD 64)).map (failAt stPoolLayout)

/-- R384, step 4 (R183 to R185). -/
def Image.step4 (img : Image) (g0 : Nat) (ws : List (Nat × WalkFound)) : Option LoadFail :=
  (ws.findSome? fun w => (lowest w.2.bad).map fun b => (w.1, b)).map fun x =>
    ⟨stAccPlan, img.bundleAt x.1 x.2, some (coreId (g0 + x.1)), some (BitVec.ofNat 13 x.2)⟩

/-- The hearth with the lowest budget of a list. -/
def lowestBudget : List (Nat × Nat) → Option (Nat × Nat)
  | [] => none
  | x :: r => match lowestBudget r with
    | none => some x
    | some y => some (if x.2 ≤ y.2 then x else y)

/-- R384, step 5 (R398, R402, R519). -/
def State.step5 (s : State) (p : Fin 8) (img : Image) : Option LoadFail :=
  let bs := ((List.finRange 8).filter (s.inPart p)).map fun h => (h.val, s.hearths[h].budget.toNat)
  match lowestBudget bs with
  | none => none
  | some (h, b) => if b < imgPeak img.bytes then some ⟨stDraw, leNat (toLE (imgPeak img.bytes) 2 ++ toLE b 2 ++ toLE h 1), none, none⟩ else none

/-- R384: the first failing check of an image, on the partition that begins at `p`. -/
def State.imageFail (s : State) (p : Fin 8) (hostWeights : Bool) (img : Image) : Option LoadFail :=
  let ws := img.walks (64 * p.val)
  ((((img.step1 (64 * p.val) hostWeights ws).or img.step2).or (img.step3 ws)).or (img.step4 (64 * p.val) ws)).or (s.step5 p img)

/-! Reading what a job names (R384, R475 to R477) -/

/-- R300, R301: the offset of an HBM byte within the 256 GiB of the hearth that owns it. -/
def State.hearthOffset (s : State) (a : Nat) : Nat :=
  match s.partOf ⟨a / 2 ^ 38 % 8, by omega⟩ with
  | some p =>
    if s.mem.spread.getLsbD p.val then let o := a - p.val * 2 ^ 38; o / 65536 / s.partSize p * 65536 + o % 65536
    else a % 2 ^ 38
  | none => a % 2 ^ 38

/-- R300: the place of an HBM byte: its stack, the channel of that stack, and the offset within the channel. -/
def State.hbmPlace (s : State) (a : Nat) : Fin 32 × Nat × Nat :=
  let o := s.hearthOffset a
  let c := o / 4096 % 128
  (⟨(4 * (s.ownerHearth a).val + c % 4) % 32, by omega⟩, c / 4, o / 4096 / 128 * 4096 + o % 4096)

/-- R300, R301: the stack on which an HBM byte lies. -/
def State.stackOf (s : State) (a : Nat) : Fin 32 := (s.hbmPlace a).1

/-- R306, R319: whether an HBM byte lies on a stack in service. -/
def State.hbmServed (s : State) (a : Nat) : Bool :=
  s.glb.hrtPresent.getLsbD (s.ownerHearth a).val && decide (s.mem.stk[s.stackOf a].mode = .inService)

/-- Whether every byte of an HBM range lies on a stack in service. -/
def State.hbmUp (s : State) (a n : Nat) : Bool := (List.range ((a + n - 1) / 4096 - a / 4096 + 1)).all fun i => s.hbmServed (4096 * (a / 4096 + i))

/-- R384: bytes that the loader reads; `fail` is an address whose read fails at its tier. -/
def State.loadRead (s : State) (fail : Option (BitVec 64)) (a n : Nat) : Except Status (List Byte) :=
  let hit := match fail with | some x => decide (a ≤ x.toNat) && decide (x.toNat < a + n) | none => false
  if n = 0 then .ok []
  else if a + n ≤ hbmTop then
    if hit || !s.hbmUp a n || s.mem.lost a n then .error stHbmData else .ok (s.mem.read a n)
  else if vaultBase ≤ a ∧ a + n ≤ vaultTop then
    if hit || !s.vaultUp (a - vaultBase) n then .error stTier else .ok (s.mem.read a n)
  else if hostBase ≤ a ∧ a + n ≤ hostTop then
    if hit || !s.hostUp then .error stTier else .ok (s.mem.read a n)
  else .error stTier

/-- R475: the key of a label. -/
def sessionKey (label : String) (ss : List Byte) (boot : BitVec 64) : Digest := Config.sha3 (ascii label ++ ss ++ toLE boot.toNat 8)

/-- R475: the entries of an opened object table. -/
def sealEntries (bs : List Byte) : List SealEntry :=
  (List.range (bs.length / 32)).map fun i =>
    let e := bs.drop (32 * i)
    ⟨leAt e 0 1, leAt e 4 4, leAt e 8 8, leAt e 16 8, leAt e 24 8⟩

/-- R475, R476: the session that a session object opens on this boot; `none` where the tag fails or it names another boot. -/
def State.openSession (s : State) (bs : List Byte) : Option Session :=
  let n := leAt bs 6 2
  let ss := Config.kemDecap s.sec.kemDraw ((bs.drop 16).take 1088)
  if leAt bs 0 4 ≠ 0x4E534553 ∨ leAt bs 4 2 ≠ 1 ∨ n = 0 ∨ 4096 < n ∨ bs.length < 1104 + 32 * n + 16 ∨ leAt bs 8 8 ≠ s.sec.bootId.toNat then none
  else (Config.gcmOpen (sessionKey "BROAMET-CTL" ss s.sec.bootId) (toLE 0 12) (bs.take 1104) ((bs.drop 1104).take (32 * n + 16))).map fun t =>
    ⟨sealEntries t, sessionKey "BROAMET-IN" ss s.sec.bootId, sessionKey "BROAMET-OUT" ss s.sec.bootId⟩

/-- R477: the IV of a sealed object. -/
def sealIv (kind index : Nat) : List Byte := toLE kind 1 ++ toLE 0 3 ++ (toLE index 8).reverse

/-- R477: whether a sealed object's header agrees with its entry. -/
def sealHeaderOk (e : SealEntry) (h : List Byte) : Bool :=
  decide (leAt h 0 1 = e.kind) && decide (leAt h 4 4 = e.index) && decide (leAt h 16 8 = e.len) && decide (leAt h Config.sealMagicAt 4 = 0x4C414553)

/-- R477: a sealed object opened; `none` is a tag failure or a header that disagrees. -/
def openSealed (x : Session) (e : SealEntry) (bs : List Byte) : Option (List Byte) :=
  let h := bs.take 32
  if sealHeaderOk e h then Config.gcmOpen x.keyIn (sealIv e.kind e.index) h ((bs.drop 32).take (e.len + 16)) else none

/-- R477: a sealed output: header, ciphertext, tag. -/
def sealOutput (x : Session) (e : SealEntry) (pt : List Byte) : List Byte :=
  let h0 := toLE e.kind 1 ++ toLE 0 3 ++ toLE e.index 4 ++ toLE 0 8 ++ toLE e.len 8 ++ toLE 0 8
  let h := h0.take Config.sealMagicAt ++ (toLE 0x4C414553 4 ++ h0.drop (Config.sealMagicAt + 4)).take (32 - Config.sealMagicAt)
  h ++ Config.gcmSeal x.keyOut (sealIv e.kind e.index) h pt

/-- The entry of a session's table of a kind and index. -/
def Session.entry (x : Session) (kind index : Nat) : Option SealEntry := x.entries.find? fun e => decide (e.kind = kind) && decide (e.index = index)

/-- R477: a sealed object read, opened and written to its MODULE_ADDR. -/
def State.loadSealed (s : State) (fail : Option (BitVec 64)) (x : Session) (kind index a n : Nat) : Except Status (List Byte × State) :=
  match x.entry kind index with
  | none => .error stSession
  | some e => do
    let bs ← s.loadRead fail a n
    match openSealed x e bs with
    | none => .error stSession
    | some pt => .ok (pt, { s with mem := s.mem.write e.addr pt })

/-- R383, R401, R477: the image's bytes and the inputs' concatenation, in list order. -/
def State.loadObjects (s : State) (fail : Option (BitVec 64)) (j : Job) : Except Status (List Byte × List Byte × State) :=
  match j.session with
  | none => do
    let img ← s.loadRead fail j.image.toNat j.imageSize.toNat
    let ins ← j.inputs.mapM fun i => s.loadRead fail i.1.toNat i.2.toNat
    .ok (img, ins.flatten, s)
  | some x => do
    let (img, s) ← s.loadSealed fail x 1 0 j.image.toNat j.imageSize.toNat
    let (ins, s) ← ((List.range j.inputs.length).drop 1).foldlM (fun (acc : List Byte × State) i => do
      let a := j.inputs.getD i (0, 0)
      let (pt, s) ← acc.2.loadSealed fail x 2 i a.1.toNat a.2.toNat
      .ok (acc.1 ++ pt, s)) ([], s)
    .ok (img, ins, s)

/-! What the loader puts in place (R78, R210, R216) -/

/-- R485: the vault regions that the image's WEIGHTS section names, of the recorded manifest. -/
def State.policy (s : State) (img : Image) : List (BitVec 64 × BitVec 64) :=
  match s.sec.manifest with
  | none => []
  | some (rs, _) => (rs.filter fun r => (img.recs 6).any fun w => decide (leAt w.2 24 16 = r.name.toNat) && decide (r.name ≠ 0)).map fun r => (r.offset, r.len)

/-- R210: the loader's fields of the pool directories. -/
def poolWrites (img : Image) (p : Fin 8) : List (Nat × List Byte) :=
  (img.recs 5).flatMap fun r =>
    ((poolExtents r).mapIdx fun k x =>
      let a := leAt r.2 8 8 + 64 * (64 * p.val + k)
      [(a, toLE x.2.1 4 ++ toLE x.2.2.1 4), (a + 16, toLE x.2.2.2.1 4 ++ toLE x.2.2.2.2 4)]).flatten

/-- R78: a core as a task finds it: its code, its scratchpad, the starting epoch; the rest as after reset. -/
def Image.core (img : Image) (k : Nat) (epoch : BitVec 16) : Core :=
  let mine (t : Nat) : List (List Byte) := ((img.recs t).filter fun r => decide (leAt r.2 0 2 = k)).map (·.2)
  let code := (mine 1).foldl (fun m r => writeBytes m (32 * leAt r 2 2) ((r.drop 8).take (32 * leAt r 4 4))) []
  let code := if img.reserves then writeBytes code (32 * 8128) ((List.range 2048).map Config.widenByte) else code
  { Core.reset with epoch := epoch, imem := code, spad := (mine 2).foldl (fun m r => writeBytes m (leAt r 8 8) (r.drop 16)) [] }

/-- R548: the starting epoch number. -/
def Image.epoch (img : Image) : BitVec 16 := BitVec.ofNat 16 (((img.recs 7).head?.map fun r => leAt r.2 0 2).getD 0)

/-- The peers that PEERS lists. -/
def Image.peers (img : Image) : List (BitVec 16) :=
  ((img.recs 9).head?.map fun r => (List.range (leAt r.2 0 4)).map fun i => BitVec.ofNat 16 (leAt r.2 (8 + 2 * i) 2)).getD []

/-- R381 to R385, R393: the task of a job whose image is loaded. -/
def State.makeTask (s : State) (p : Fin 8) (j : Job) (img : Image) (inputDigest : Digest) : Task where
  job := j
  phase := if 1 < imgModules img.bytes then .startBarrier else .loaded
  hearths := imgHearths img.bytes
  started := s.now
  coresAt := s.now
  balEn := imgBal img.bytes
  startEpoch := img.epoch
  reserve := img.reserves
  codeCores := img.codeCores.map fun k => coreId (64 * p.val + k)
  precision := (img.recs 3).map fun r => BitVec.ofNat 128 (leNat r.2)
  plog := (img.recs 8).head?.map fun r => (BitVec.ofNat 48 (leAt r.2 0 8), leAt r.2 8 8)
  pools := (img.recs 5).map fun r => (BitVec.ofNat 32 (leAt r.2 0 4), BitVec.ofNat 48 (leAt r.2 8 8), if (leAt r.2 4 1).testBit 0 then some (BitVec.ofNat 48 (leAt r.2 24 8)) else none)
  overs := []
  vault := if j.hostWeights then [] else s.policy img
  peers := img.peers
  schedDigest := Config.sha3 img.bytes
  manifestDigest := if j.hostWeights then j.manifest else (s.sec.manifest.map (·.2)).getD 0
  inputDigest := inputDigest
  ordinal := 0
  suspendAt := j.suspendAt
  cancel := false
  ending := none
  tdc := 0
  widened := 0
  reheats := []
  latched := none
  rungAt := []
  throttled := 0
  runInterference := 0
  rounds := 0

/-- The task of a job that the loader ends: digests of what was read, nothing else. -/
def State.failedTask (s : State) (j : Job) (sched input : Digest) (bal : Bool) : Task :=
  { s.makeTask 0 j ⟨[], []⟩ input with balEn := bal, schedDigest := sched, phase := .loaded, vault := [] }

/-- R78: the cores that an image gives code or a scratchpad. -/
def Image.namedCores (img : Image) : List Nat :=
  let named := (img.recs 1 ++ img.recs 2).map fun r => leAt r.2 0 2
  (List.range (64 * imgHearths img.bytes)).filter fun k => named.contains k

/-- R78: the cores of a task put in place. -/
def State.placeCores (s : State) (p : Fin 8) (img : Image) : State :=
  img.namedCores.foldl (fun s k => s.setCore (coreId (64 * p.val + k)) (img.core k img.epoch)) s

/-- R210: the loader's fields of the pool directories put in place. -/
def State.placePools (s : State) (p : Fin 8) (img : Image) : State :=
  { s with mem := (poolWrites img p).foldl (fun m x => m.write x.1 x.2) s.mem }

/-- R78, R210: the cores of a task, and the pool directories, put in place. -/
def State.placeImage (s : State) (p : Fin 8) (img : Image) : State := (s.placeCores p img).placePools p img

end Sys2Proof.Machine
end

