-- ==== Sys2Proof/Machine/Media.lean ====
section
/-! DEFINITION. The media engines' contexts: descriptors, opening and closing, the two rings, conversion to and from tensors, and the end of a context (R410, R414 to R420, R426, R427, R430 to R432). -/

namespace Sys2Proof.Machine

/-- MEDIA_BITSTREAM_ERROR. -/
def stBitstream : Status := 0x0601
/-- MEDIA_CONTEXT_LIMIT. -/
def stMediaLimit : Status := 0x0602
/-- MEDIA_CONFIG_INVALID. -/
def stMediaConfig : Status := 0x0603
/-- MEDIA_FB_EXHAUSTED. -/
def stFb : Status := 0x0604
/-- MEDIA_ADDRESS_INVALID. -/
def stMediaAddr : Status := 0x0605

/-! The context descriptor (R414, R415, R417, R418) -/

/-- DIR: whether a descriptor encodes. -/
def mEncode (d : List Byte) : Bool := (leAt d 0 1).testBit 0
/-- CODEC. -/
def mCodec (d : List Byte) : BitVec 2 := BitVec.ofNat 2 (leAt d 0 1 / 16)
/-- LIVE. -/
def mLive (d : List Byte) : Bool := (leAt d 1 1).testBit 0
/-- RESYNC. -/
def mResync (d : List Byte) : Bool := (leAt d 1 1).testBit 1
/-- WEIGHT. -/
def mWeight (d : List Byte) : Nat := leAt d 1 1 / 16 + 1
/-- DEPTH. -/
def mDepth (d : List Byte) : Nat := leAt d 2 1
/-- FB_BASE. -/
def mFbBase (d : List Byte) : Nat := leAt d 8 8
/-- FB_STRIDE. -/
def mFbStride (d : List Byte) : Nat := leAt d 16 4
/-- REFS. -/
def mRefs (d : List Byte) : Nat := leAt d 3 1
/-- WIDTH. -/
def mWidth (d : List Byte) : Nat := leAt d 4 2
/-- HEIGHT. -/
def mHeight (d : List Byte) : Nat := leAt d 6 2
/-- BS_BASE. -/
def mBsBase (d : List Byte) : Nat := leAt d 20 8
/-- BS_SIZE. -/
def mBsSize (d : List Byte) : Nat := leAt d 28 4
/-- TENSOR. -/
def mTensor (d : List Byte) : Desc := BitVec.ofNat 512 (leAt d 64 64)
/-- PW, PH, PT. -/
def mPatch (d : List Byte) : Nat × Nat × Nat := (leAt d 129 1, leAt d 130 1, leAt d 131 1)
/-- SLOTS. -/
def mSlots (d : List Byte) : Nat := leAt d 134 2
/-- ROI_BASE. -/
def mRoi (d : List Byte) : Nat := leAt d 184 8
/-- STATUS_BASE. -/
def mStatusBase (d : List Byte) : Nat := leAt d 208 8

/-- R417: bytes from one tensor slot to the next. -/
def slotStride (t : Desc) : Nat := roundUp (recSize (dFmt t) * winCount t) 4096

/-- R417: the tile descriptor of a slot. -/
def slotDesc (t : Desc) (s : Nat) : Desc :=
  (t &&& ~~~(((2 ^ 48 - 1 : Nat) : Desc) <<< 64)) ||| (BitVec.ofNat 512 ((dBase t + s * slotStride t) % 2 ^ 48) <<< 64)

/-- R415: bytes that one frame buffer needs. -/
def frameNeed (d : List Byte) : Nat :=
  let px := roundUp (mWidth d) 64 * roundUp (mHeight d) 64
  let b := if mDepth d = 8 then 1 else 2
  px * 3 * b / 2 + px / 16

/-- R418: whether the tensor holds what the direction needs. -/
def tensorOk (d : List Byte) : Bool :=
  let t := mTensor d
  let (pw, ph, pt) := mPatch d
  let half := decide (dFmt t = 1) || decide (dFmt t = 2)
  descOk 0 t && decide (dSpace t = 0) && decide (dMode t = 0) && !dSlagEn t
  && decide (dO0 t = 0) && decide (dR0 t = 0) && decide (dON t = gridLines t) && decide (dRN t = gridR t)
  && (if mEncode d then
      isCB t && half && decide (3 ≤ dC t) && decide (dD t = 1) && decide (dN t = 1) && decide (dW t = mWidth d) && decide (dH t = mHeight d)
    else if dLayout t = 0 then
      (half || decide (dFmt t = 3)) && decide (dRows t = ceilDiv (mWidth d) pw * ceilDiv (mHeight d) ph) && decide (dRed t = 3 * pw * ph * pt)
    else
      (half || (decide (dFmt t = 3) && decide (dLayout t = 1))) && decide (dC t = 3) && decide (dD t = pt) && decide (dN t = 1)
      && decide (dW t = mWidth d) && decide (dH t = mHeight d) && decide (pw = 1 ∧ ph = 1))

/-- R414, R416: the fields that both directions use. -/
def commonOk (d : List Byte) : Bool :=
  decide (leAt d 0 1 / 2 % 8 = 0) && decide (leAt d 0 1 / 64 = 0) && decide (mCodec d ≠ 3) && decide (leAt d 1 1 / 4 % 4 = 0)
  && (decide (mDepth d = 8) || decide (mDepth d = 10)) && decide (1 ≤ mRefs d ∧ mRefs d ≤ 64)
  && decide (mWidth d % 2 = 0 ∧ 64 ≤ mWidth d ∧ mWidth d ≤ 8192) && decide (mHeight d % 2 = 0 ∧ 64 ≤ mHeight d ∧ mHeight d ≤ 4352)
  && decide (leAt d 8 8 % 4096 = 0) && decide (leAt d 16 4 % 4096 = 0) && decide (frameNeed d ≤ leAt d 16 4)
  && decide (mBsBase d % 64 = 0) && decide (mBsSize d % 4096 = 0) && decide (mBsSize d ≠ 0) && decide (leAt d 32 32 = 0)
  && decide (leAt d 128 1 < 16) && decide (1 ≤ mSlots d) && decide (leAt d 218 38 = 0)

/-- R414, R416: the fields of a decoder. -/
def decodeOk (d : List Byte) : Bool :=
  let (pw, ph, pt) := mPatch d
  decide (1 ≤ pw ∧ pw ≤ 16 ∧ 1 ≤ ph ∧ ph ≤ 16 ∧ 1 ≤ pt ∧ pt ≤ 4) && decide (leAt d 132 1 < 8) && decide (leAt d 132 1 % 4 < 2)
  && decide (leAt d 133 1 = 0) && decide (mStatusBase d % 64 = 0)

/-- R414, R416, R428, R429: the fields of an encoder. -/
def encodeOk (d : List Byte) : Bool :=
  let rc := leAt d 160 1
  let nref := leAt d 161 1
  decide (mDepth d = 8 ∨ mCodec d ≠ 0) && decide (rc < 16) && decide (rc % 4 ≠ 3) && decide (1 ≤ nref ∧ nref ≤ 4) && decide (leAt d 163 1 = 0)
  && decide (2 ≤ leAt d 172 2 ∧ leAt d 172 2 ≤ 256) && !(rc.testBit 2 && rc.testBit 3)
  && (if rc.testBit 3 then decide (12 ≤ mRefs d) else decide (nref + 2 + (decide (leAt d 176 2 ≠ 0)).toNat ≤ mRefs d))
  && decide (leAt d 178 2 ≠ 0) && decide (leAt d 180 2 ≠ 0) && decide (leAt d 182 2 = 0) && decide (mRoi d % 64 = 0)

/-- R416: whether a context descriptor opens. -/
def contextOk (d : List Byte) : Bool := commonOk d && (if mEncode d then encodeOk d else decodeOk d) && tensorOk d

/-- The module ranges that a context uses. -/
def mediaRanges (addr : Nat) (d : List Byte) : List (Nat × Nat) :=
  [(addr, 256), (leAt d 8 8, mRefs d * leAt d 16 4), (mBsBase d, mBsSize d), (dBase (mTensor d), mSlots d * slotStride (mTensor d))]
  ++ (if mEncode d then (if mRoi d = 0 then [] else [(mRoi d, 1024 * mSlots d)]) else [(mStatusBase d, 16 * mSlots d)])

/-- Whether a range meets the HBM of the partition that begins at `p`. -/
def State.meetsPart (s : State) (p : Fin 8) (a n : Nat) : Bool :=
  decide (a < (p.val + s.partSize p) * 2 ^ 38) && decide (p.val * 2 ^ 38 < a + n)

/-- R329, R478: whether a partition is closed to the host: a secure job runs there, or its HBM is still to be zeroed. -/
def State.secret (s : State) (p : Fin 8) : Bool := decide (s.parts[p].mode ≠ .none) && (s.parts[p].zeroing || s.parts[p].task.any (·.job.secure))

/-- R416: whether every range of a context lies in HBM that no secure job runs on; a partition whose secure job has ended runs none. -/
def State.mediaAddrOk (s : State) (rs : List (Nat × Nat)) : Bool :=
  rs.all fun r => decide (r.1 + r.2 ≤ hbmTop) && (List.finRange 8).all fun p => !(s.parts[p].task.any (·.job.secure) && s.meetsPart p r.1 r.2)

/-! Engines and contexts -/

/-- The state with an engine changed. -/
def State.modEngine (s : State) (e : Fin 2) (f : MediaEngine → MediaEngine) : State := { s with media := s.media.set e (f s.media[e]) }

/-- A context of an engine. -/
def State.mediaCtx (s : State) (e : Fin 2) (id : Fin 256) : Option MediaCtx := s.media[e].ctxs.find? fun c => decide (c.id = id)

/-- The state with a context changed. -/
def State.modMedia (s : State) (e : Fin 2) (id : Fin 256) (f : MediaCtx → MediaCtx) : State :=
  s.modEngine e fun x => { x with ctxs := x.ctxs.map fun c => if c.id = id then f c else c }

/-- R457: STREAM_ID. -/
def streamId (e : Fin 2) (id : Fin 256) : Nat := e.val * 256 + id.val

/-- A 32-bit counter of the descriptor in HBM (R420): BS_WR, BS_RD, TS_WR and TS_RD at bytes 192, 196, 200 and 204. -/
def State.mediaCounter (s : State) (c : MediaCtx) (i : Nat) : W32 := BitVec.ofNat 32 (leNat (s.mem.read (c.descAddr.toNat + 192 + 4 * i) 4))

/-- R420: the engine's own counters written to the descriptor. -/
def State.putPointers (s : State) (c : MediaCtx) : State :=
  let at_ (i : Nat) := c.descAddr.toNat + 192 + 4 * i
  let (b, t) := if mEncode c.desc then (0, 3) else (1, 2)
  { s with mem := (s.mem.write (at_ b) (toLE c.bsPtr.toNat 4)).write (at_ t) (toLE c.tsPtr.toNat 4) }

/-- R431, R432, R542: a context ends: CTX_STATUS, its pointers, the STREAM_END event; the context is freed. -/
def State.endMedia (s : State) (e : Fin 2) (id : Fin 256) (st : Status) : State :=
  match s.mediaCtx e id with
  | none => s
  | some c =>
    let s := { s with mem := s.mem.write (c.descAddr.toNat + 216) (toLE st.toNat 2) }
    let s := { s with mem := { s.mem with replays := s.mem.replays.filter fun r => decide (r.reader ≠ HbmReader.media e id) } }
    let s := (s.putPointers c).modEngine e fun x => { x with ctxs := x.ctxs.filter fun c => decide (c.id ≠ id), running := if x.running = some id then none else x.running }
    let s := s.pushEvent c.owner ⟨true, st, BitVec.ofNat 32 (streamId e id)⟩
    if st = 0 then s else s.log ⟨st, 1, 7, streamId e id, 1, 0, 0, if c.bandsLeft = 0 then 0xFFFFFFFF else c.pictures.toNat⟩

/-- R432: contexts that use HBM of the ranges that a test picks end at once. -/
def State.endMediaOn (s : State) (t : Nat → Nat → Bool) (st : Status) : State :=
  (List.finRange 2).foldl (fun s e => (s.media[e].ctxs).foldl (fun s c =>
    if (mediaRanges c.descAddr.toNat c.desc).any fun r => t r.1 r.2 then s.endMedia e c.id st else s) s) s

/-- R432: a secure job starts: contexts with buffers in its partition end at their next access. -/
def State.barMedia (s : State) (p : Fin 8) : State :=
  { s with media := s.media.map fun x => { x with ctxs := x.ctxs.map fun c =>
      if (mediaRanges c.descAddr.toNat c.desc).any fun r => s.meetsPart p r.1 r.2 then { c with pendingStatus := c.pendingStatus.or (some stMediaAddr) } else c } }

/-! Opening and closing (R414, R416, R431) -/

/-- R414: the engine that a STREAM_OPEN takes; `none` where it or both hold 256 contexts. -/
def State.pickEngine (s : State) (named : Nat) : Option (Fin 2) :=
  let n (e : Fin 2) := s.media[e].ctxs.length
  match named with
  | 0 => if n 0 < 256 then some 0 else none
  | 1 => if n 1 < 256 then some 1 else none
  | _ => if 256 ≤ n 0 ∧ 256 ≤ n 1 then none else if n 0 ≤ n 1 then some 0 else some 1

/-- R414, R424: a context as it opens: its own counters from the descriptor, its frame pool free. -/
def MediaCtx.opened (id : Fin 256) (owner : Option (Fin 4096)) (addr : BitVec 48) (d : List Byte) (bs ts : W32) : MediaCtx where
  id := id
  owner := owner
  descAddr := addr
  desc := d
  bsPtr := bs
  tsPtr := ts
  bsSeen := 0
  tsSeen := 0
  units := []
  bufs := List.replicate (mRefs d) none
  numbered := 0
  waiting := []
  group := []
  pictures := 0
  bandsLeft := 0
  discarding := false
  eos := false
  close := none
  pendingStatus := none

/-- R414, R416: a context opens; its stream id. -/
def State.openMedia (s : State) (owner : Option (Fin 4096)) (addr named : Nat) : Except Status (Nat × State) :=
  match s.pickEngine named with
  | none => .error stMediaLimit
  | some e =>
    if hbmTop < addr + 256 then .error stMediaAddr
    else
      let d := s.mem.read addr 256
      if !contextOk d then .error stMediaConfig
      else if !s.mediaAddrOk (mediaRanges addr d) then .error stMediaAddr
      else match (List.finRange 256).find? fun i => (s.mediaCtx e i).isNone with
        | none => .error stMediaLimit
        | some id =>
          let c (i : Nat) : W32 := BitVec.ofNat 32 (leAt d (192 + 4 * i) 4)
          let (b, t) := if mEncode d then (c 0, c 3) else (c 1, c 2)
          .ok (streamId e id, s.modEngine e fun y => { y with ctxs := y.ctxs ++ [MediaCtx.opened id owner (BitVec.ofNat 48 addr) d b t] })

/-- R431: a context is asked to close; with DRAIN it keeps the input that software's counter counts now. -/
def State.closeMedia (s : State) (e : Fin 2) (id : Fin 256) (drain : Bool) : State :=
  match s.mediaCtx e id with
  | none => s
  | some c => s.modMedia e id fun x => { x with close := some (if drain then some (s.mediaCounter c (if mEncode c.desc then 2 else 0)) else none) }

/-! The bitstream ring (R420, R421) -/

/-- Bytes of the ring from a counter on. -/
def State.ringRead (s : State) (c : MediaCtx) (at_ : W32) (n : Nat) : List Byte :=
  (List.range n).flatMap fun i => s.mem.read (mBsBase c.desc + (at_.toNat + i) % mBsSize c.desc) 1

/-- R306, R432: whether a read of the ring from a counter on meets a lost word. -/
def State.ringLost (s : State) (c : MediaCtx) (at_ : W32) (n : Nat) : Bool :=
  (List.range n).any fun i => s.mem.lost (mBsBase c.desc + (at_.toNat + i) % mBsSize c.desc) 1

/-- Bytes written into the ring from a counter on. -/
def State.ringWrite (s : State) (c : MediaCtx) (at_ : W32) (bs : List Byte) : State :=
  { s with mem := (bs.mapIdx fun i b => (mBsBase c.desc + (at_.toNat + i) % mBsSize c.desc, b)).foldl (fun m x => m.write x.1 [x.2]) s.mem }

/-- R420: a context that reads software's counters at the start of a work unit: BS_WR and TS_RD of a decoder, BS_RD and TS_WR of an encoder. -/
def State.seen (s : State) (c : MediaCtx) : MediaCtx :=
  let (b, t) := if mEncode c.desc then (1, 2) else (0, 3)
  { c with bsSeen := s.mediaCounter c b, tsSeen := s.mediaCounter c t }

/-- R421: the decoder's next access record: flags, payload, bytes of the ring it takes; `none` while it is not whole. -/
def State.nextUnit (s : State) (c : MediaCtx) : Option (Nat × List Byte × Nat) :=
  let avail := (c.bsSeen - c.bsPtr).toNat
  let h := s.ringRead c c.bsPtr 16
  let n := roundUp (16 + leAt h 0 4) 16
  if avail < 16 ∨ avail < n then none else some (leAt h 4 1, s.ringRead c (c.bsPtr + 16) (leAt h 0 4), n)

/-- R420: whether a decoder may write its next slot. -/
def MediaCtx.slotRoom (c : MediaCtx) : Bool := decide ((c.tsPtr - c.tsSeen).toNat < mSlots c.desc)

/-- R420: bytes an encoder may write. -/
def MediaCtx.ringRoom (c : MediaCtx) : Nat := mBsSize c.desc - (c.bsPtr - c.bsSeen).toNat

/-! From pictures to tensors (R418, R419, R426) -/

/-- R426: Kr and Kb. -/
def matrixK (d : List Byte) : Rat × Rat := if (leAt d 128 1).testBit 1 then (2627 / 10000, 593 / 10000) else (2126 / 10000, 722 / 10000)

/-- R426, step 1: a luma sample. -/
def normY (full : Bool) (depth y : Nat) : Rat :=
  if full then (y : Rat) / (2 ^ depth - 1) else ((y : Rat) - 16 * 2 ^ (depth - 8)) / (219 * 2 ^ (depth - 8))

/-- R426, step 1: a chroma sample. -/
def normC (full : Bool) (depth c : Nat) : Rat :=
  if full then ((c : Rat) - 2 ^ (depth - 1)) / (2 ^ depth - 1) else ((c : Rat) - 128 * 2 ^ (depth - 8)) / (224 * 2 ^ (depth - 8))

/-- R426, steps 1 to 3: the value of a channel at a position of a picture. -/
def channelValue (d : List Byte) (p : Picture) (c x y : Nat) : Rat :=
  let full := (leAt d 128 1).testBit 2
  let ch := (y / 2) * (p.width / 2) + x / 2
  let yy := normY full p.depth (p.y.getD (y * p.width + x) 0)
  let pb := normC full p.depth (p.cb.getD ch 0)
  let pr := normC full p.depth (p.cr.getD ch 0)
  let (kr, kb) := matrixK d
  if (leAt d 128 1).testBit 0 then (match c with | 0 => 2 * yy - 1 | 1 => 2 * pb | _ => 2 * pr)
  else
    let r := yy + 2 * (1 - kr) * pr
    let b := yy + 2 * (1 - kb) * pb
    let g := (yy - kr * r - kb * b) / (1 - kr - kb)
    match c with | 0 => 2 * r - 1 | 1 => 2 * g - 1 | _ => 2 * b - 1

/-- R418, R419, R426, step 4: an element of a group: channel, frame, column and row; outside the picture PAD decides. -/
def groupElem (d : List Byte) (ps : List Picture) (c t x y : Nat) : Num :=
  let replicate := (leAt d 128 1).testBit 3
  let p? := if t < ps.length then ps[t]? else if replicate then ps.getLast? else none
  match p? with
  | none => .fin false 0
  | some p =>
    if (p.width ≤ x ∨ p.height ≤ y) ∧ !replicate then .fin false 0
    else
      let v := Num.ofRat (channelValue d p c (min x (p.width - 1)) (min y (p.height - 1)))
      ((ofF32 (BitVec.ofNat 32 (leAt d (136 + 4 * c) 4))).mul v).add (ofF32 (BitVec.ofNat 32 (leAt d (148 + 4 * c) 4)))

/-- R418: the element that a slot of a tile holds; `none` where it is padding. -/
def slotElem (d : List Byte) (ps : List Picture) (t : Desc) (o r k : Nat) : Option Num :=
  if (logicalIndex t o r k).isNone then none
  else if isCB t then
    let line := o / dWB t
    some (groupElem d ps (r * layoutB (dLayout t) + k % layoutB (dLayout t)) (line / dH t)
      ((o % dWB t) * layoutP (dLayout t) + k / layoutB (dLayout t)) (line % dH t))
  else
    let (pw, ph, pt) := mPatch d
    let row := o * 128 + k / 32
    let col := r * 32 + k % 32
    let across := ceilDiv (mWidth d) pw
    some (groupElem d ps (col / (pw * ph * pt)) (col / (pw * ph) % pt) (row % across * pw + col % pw) (row / across * ph + col / pw % ph))

/-- Media traffic is service traffic: its ranges are checked at STREAM_OPEN. -/
def admitAll : Admit := fun _ _ _ => none

/-- R417, R426: a group converted into a slot. -/
def State.writeGroup (s : State) (c : MediaCtx) (ps : List Picture) : State :=
  let t := slotDesc (mTensor c.desc) (c.tsPtr.toNat % mSlots c.desc)
  let wr : Writer := ⟨0, 0, 0, BitVec.ofNat 4 (leAt c.desc 132 1), none⟩
  match (winTiles t).foldlM (fun w x => writeTile admitAll w t x.1 x.2 (tileAddr t x.1 x.2) wr 0 4096 false (slotElem c.desc ps t x.1 x.2)) (⟨[], [], s.mem, [], []⟩ : Work) with
  | .ok w => { s with mem := w.mem }
  | .error _ => s

/-! From tensors to pictures (R427, R430) -/

/-- R427: a channel value: NaN is 0, the rest clamped to [-1, 1]; whether it was replaced. -/
def clampValue (x : Num) : Rat × Bool :=
  match x with
  | .fin _ _ => let q := x.toRat; if 1 < q then (1, true) else if q < -1 then (-1, true) else (q, false)
  | .inf neg => (if neg then -1 else 1, true)
  | .nan => (0, true)

/-- R427, step 4: a sample rounded once and clipped to its nominal range. -/
def toSample (x : Rat) (lo hi : Nat) : Nat := if x < 0 then lo else max lo (min hi (roundQ .rne 0 x))

/-- R427: the clipping range of luma or chroma samples. -/
def sampleRange (full : Bool) (depth : Nat) (chroma : Bool) : Nat × Nat :=
  if full then (0, 2 ^ depth - 1) else (16 * 2 ^ (depth - 8), (if chroma then 240 else 235) * 2 ^ (depth - 8))

/-- R427: Y', Pb and Pr of three channel values. -/
def toYuv (d : List Byte) (v0 v1 v2 : Rat) : Rat × Rat × Rat :=
  if (leAt d 128 1).testBit 0 then ((v0 + 1) / 2, v1 / 2, v2 / 2)
  else
    let (kr, kb) := matrixK d
    let r := (v0 + 1) / 2
    let g := (v1 + 1) / 2
    let b := (v2 + 1) / 2
    let y := kr * r + (1 - kr - kb) * g + kb * b
    (y, (b - y) / (2 * (1 - kb)), (r - y) / (2 * (1 - kr)))

/-- R427: the picture of a frame's channel values, and how many values were replaced. -/
def framePicture (d : List Byte) (val : Nat → Nat → Nat → Num) : Picture × Nat :=
  let w := mWidth d
  let h := mHeight d
  let full := (leAt d 128 1).testBit 2
  let dep := mDepth d
  let vals := (List.range (w * h)).map fun i => (clampValue (val 0 (i % w) (i / w)), clampValue (val 1 (i % w) (i / w)), clampValue (val 2 (i % w) (i / w)))
  let yuv := (vals.map fun v => toYuv d v.1.1 v.2.1.1 v.2.2.1).toArray
  let at_ (x y : Nat) : Rat × Rat × Rat := yuv.getD (y * w + x) (0, 0, 0)
  let lum (p : Rat) : Rat := if full then p * (2 ^ dep - 1) else p * (219 * 2 ^ (dep - 8)) + 16 * 2 ^ (dep - 8)
  let chr (p : Rat) : Rat := if full then p * (2 ^ dep - 1) + 2 ^ (dep - 1) else p * (224 * 2 ^ (dep - 8)) + 128 * 2 ^ (dep - 8)
  let mean (f : Rat × Rat × Rat → Rat) (i : Nat) : Rat :=
    let x := 2 * (i % (w / 2))
    let y := 2 * (i / (w / 2))
    (f (at_ x y) + f (at_ (x + 1) y) + f (at_ x (y + 1)) + f (at_ (x + 1) (y + 1))) / 4
  let (yl, yh) := sampleRange full dep false
  let (cl, ch) := sampleRange full dep true
  (⟨w, h, dep, (List.range (w * h)).map fun i => toSample (lum (at_ (i % w) (i / w)).1) yl yh,
    (List.range (w * h / 4)).map fun i => toSample (chr (mean (·.2.1) i)) cl ch,
    (List.range (w * h / 4)).map fun i => toSample (chr (mean (·.2.2) i)) cl ch⟩,
   (vals.map fun v => v.1.2.toNat + v.2.1.2.toNat + v.2.2.2.toNat).sum)

/-- R430: whether an entry of a region block is valid or unused. -/
def regionOk (codec : BitVec 2) (r : List Byte) : Bool :=
  let off := toSigned 8 (leAt r 8 1)
  let lim : Int := if codec = 2 then 127 else 31
  !(leAt r 9 1).testBit 0 ||
  (((List.range 4).all fun i => decide (leAt r (2 * i) 2 % 16 = 0)) && decide (leAt r 0 2 < leAt r 4 2) && decide (leAt r 2 2 < leAt r 6 2)
    && decide (-lim ≤ off ∧ off ≤ lim) && decide (leAt r 9 1 < 2) && decide (leAt r 10 6 = 0))

/-- R39, R427, R430: the frame and the region block of the encoder's next slot. -/
def State.readFrame (s : State) (c : MediaCtx) : Except Status (Picture × Nat × List Byte) := do
  let slot := c.tsPtr.toNat % mSlots c.desc
  let t := slotDesc (mTensor c.desc) slot
  let ts ← (winTiles t).mapM fun x => (readWinTile admitAll ⟨[], [], s.mem, [], []⟩ t x.1 x.2 false).map fun y => (x, y)
  let val (ch x y : Nat) : Num :=
    let o := y * dWB t + x / layoutP (dLayout t)
    match TileSet.get ts (o, ch / layoutB (dLayout t)) with
    | some y => (y.full (x % layoutP (dLayout t) * layoutB (dLayout t) + ch % layoutB (dLayout t))).mul (.fin false (dScale t))
    | none => .nan
  let roi := if mRoi c.desc = 0 then [] else s.mem.read (mRoi c.desc + 1024 * slot) 1024
  if mRoi c.desc ≠ 0 ∧ s.mem.lost (mRoi c.desc + 1024 * slot) 1024 then .error stHbmData
  else if !((List.range (roi.length / 16)).all fun i => regionOk (mCodec c.desc) ((roi.drop (16 * i)).take 16)) then .error stMediaConfig
  else let p := framePicture c.desc val; .ok (p.1, p.2, roi)

/-! The frame pool (R415) -/

/-- R415: the two planes of a picture, as offset and bytes of each row: a luma row of 1 or 2 bytes a sample; a chroma row with Cb and Cr in turn (PRESUMED, log 57: R415 gives the plane's pitch and size). -/
def frameRows (d : List Byte) (p : Picture) : List (Nat × List Byte) :=
  let b := if mDepth d = 8 then 1 else 2
  let wa := roundUp (mWidth d) 64
  let ha := roundUp (mHeight d) 64
  ((List.range p.height).map fun y => (y * wa * b, (List.range p.width).flatMap fun x => toLE (p.y.getD (y * p.width + x) 0) b))
  ++ (List.range (p.height / 2)).map fun y => ((ha + y) * wa * b, (List.range (p.width / 2)).flatMap fun x =>
    toLE (p.cb.getD (y * (p.width / 2) + x) 0) b ++ toLE (p.cr.getD (y * (p.width / 2) + x) 0) b)

/-- R415: the metadata area of a picture's buffer. -/
def frameMetadata (d : List Byte) (p : Picture) : Nat × List Byte :=
  let b := if mDepth d = 8 then 1 else 2
  let px := roundUp (mWidth d) 64 * roundUp (mHeight d) 64
  (px * 3 * b / 2, (List.range (px / 16)).map (Config.frameMeta p))

/-- R415: a picture stored in frame buffer `i` of a context. -/
def State.storeFrame (s : State) (c : MediaCtx) (i : Nat) (p : Picture) : State :=
  { s with mem := (frameRows c.desc p ++ [frameMetadata c.desc p]).foldl (fun m x => m.write (mFbBase c.desc + i * mFbStride c.desc + x.1) x.2) s.mem }

/-- R415: pictures stored one after another. -/
def State.storeFrames (s : State) (c : MediaCtx) (fs : List (Nat × Picture)) : State := fs.foldl (fun s x => s.storeFrame c x.1 x.2) s

end Sys2Proof.Machine
end

