-- ==== Sys2Proof/Machine/Codec.lean ====
section
/-! DEFINITION. The media engines at work: what the decoder supports, frame buffers and their marks, groups, the encoder's pictures, work units and turns (R410 to R412, R419 to R425, R428 to R431). -/

namespace Sys2Proof.Machine

/-! What a stream may declare (R410, R411) -/

/-- R410: the profiles, tiers and bit depths of a codec's row. -/
def profileOk (codec : BitVec 2) (q : SeqInfo) : Bool :=
  match codec.toNat, q.profile with
  | 0, .high | 0, .main | 0, .constrainedBaseline => decide (q.depth = 8)
  | 1, .main => decide (q.depth = 8)
  | 1, .main10 => decide (q.depth = 8) || decide (q.depth = 10)
  | 2, .main => decide (q.depth = 8) || decide (q.depth = 10)
  | _, _ => false

/-- R410: the highest level of a codec, in tenths. -/
def topLevel (codec : BitVec 2) : Nat := if codec = 2 then 63 else 62

/-- R410: even sizes from 64 × 64 to 8192 × 4352 luma samples. -/
def sizeOk (w h : Nat) : Bool := decide (w % 2 = 0 ∧ 64 ≤ w ∧ w ≤ 8192) && decide (h % 2 = 0 ∧ 64 ≤ h ∧ h ≤ 4352)

/-- R410, R411: whether a sequence header or parameter set declares no unsupported tool and nothing beyond R410. -/
def sequenceOk (codec : BitVec 2) (q : SeqInfo) : Bool :=
  q.tools.isEmpty && profileOk codec q && decide (q.level ≤ topLevel codec) && sizeOk q.width q.height

/-- R410, R425: whether a decoded picture keeps to R410 and the context. -/
def pictureOk (d : List Byte) (p : Picture) : Bool :=
  sizeOk p.width p.height && decide (p.width ≤ mWidth d) && decide (p.height ≤ mHeight d) && decide (p.depth ≤ mDepth d)
  && (decide (p.depth = 8) || (decide (p.depth = 10) && decide (mCodec d ≠ 0)))

/-! The frame pool's marks (R424) -/

/-- R424: the mark that a list of kept pictures gives a number. -/
def keptMark (kept : List (Nat × Bool)) (n : Option Nat) : BufMark :=
  match n.bind fun n => kept.find? fun k => decide (k.1 = n) with
  | some (_, true) => .long
  | some (_, false) => .short
  | none => .unused

/-- R424: a buffer that is unused and carries no hold is free. -/
def FrameBuf.keep (b : FrameBuf) : Option FrameBuf := if b.mark = .unused ∧ b.hold = false then none else some b

/-- R424: the pool once the reference process keeps the named pictures. -/
def remark (bufs : List (Option FrameBuf)) (kept : List (Nat × Bool)) : List (Option FrameBuf) :=
  bufs.map fun b => b.bind fun b => FrameBuf.keep { b with mark := keptMark kept b.num }

/-- R424: the output hold of a buffer ends: its picture has been written to a slot. -/
def unhold (bufs : List (Option FrameBuf)) (i : Nat) : List (Option FrameBuf) :=
  modifyAt (fun b => b.bind fun b => FrameBuf.keep { b with hold := false }) bufs i

/-- R424: a picture takes a free buffer; which one is DESIGN CHOICE (log 63): the lowest. -/
def takeBuf (bufs : List (Option FrameBuf)) (b : FrameBuf) : Option (Nat × List (Option FrameBuf)) :=
  ((List.range bufs.length).find? fun i => decide (bufs[i]? = some none)).map fun i => (i, bufs.set i (some b))

/-- A stream in progress ends: no picture is referred to any more, and numbers begin again. -/
def MediaCtx.restart (c : MediaCtx) : MediaCtx :=
  { c with units := [], numbered := 0, bufs := c.bufs.map fun b => b.bind fun b => FrameBuf.keep { b with num := none, mark := .unused } }

/-! Decoding a unit (R411, R424, R425) -/

/-- What becomes of a decoder's unit: the context ends, the unit is in error, or a context with the frames to store in the pool. -/
inductive Decoded where
  | ends (st : Status) | error | done (c : MediaCtx) (frames : List (Nat × Picture))
  deriving DecidableEq, Repr

/-- R424: the pictures of a unit take their buffers, in decoding order; `none` where one finds none free. -/
def MediaCtx.takePics (c : MediaCtx) : List DecPic → Option (MediaCtx × List (Nat × Picture))
  | [] => some (c, [])
  | d :: r =>
    match takeBuf (remark c.bufs d.kept) ⟨some c.numbered, .short, d.shown, d.pic, d.grain⟩ with
    | none => none
    | some (i, bufs) => (MediaCtx.takePics { c with bufs := bufs, numbered := c.numbered + 1 } r).map fun x => (x.1, (i, d.pic) :: x.2)

/-- The place of groups that an output picture takes. -/
def MediaCtx.outPic (c : MediaCtx) (n : Nat) : Option GroupPic :=
  (List.range c.bufs.length).findSome? fun i => match (c.bufs[i]?).join with
    | some b => if b.num = some n ∧ b.hold = true then some (.pic i b.pic b.grain) else none
    | none => none

/-- Pictures that become output join the groups. -/
def MediaCtx.output (c : MediaCtx) (outs : List Nat) : MediaCtx := { c with group := c.group ++ outs.filterMap c.outPic }

/-- The pictures that the output process still holds leave, and the stream in progress ends. -/
def MediaCtx.flush (c : MediaCtx) : MediaCtx := (c.output (Config.decodeFlush (mCodec c.desc) c.units)).restart

/-- R411, R424, R425: what a decoder makes of an access unit with record flags. -/
def MediaCtx.decode (c : MediaCtx) (flags : Nat) (u : List Byte) : Decoded :=
  if !(Config.unitSequences (mCodec c.desc) u).all (sequenceOk (mCodec c.desc)) then .ends stMediaConfig
  else match Config.decodeUnit (mCodec c.desc) c.units u with
    | none => .error
    | some x =>
      if !x.pics.all fun p => pictureOk c.desc p.pic then .error
      else match c.takePics x.pics with
        | none => .ends stFb
        | some (c, fs) =>
          let c := { c.output x.outs with units := c.units ++ [u] }
          let c := { c with bufs := remark c.bufs x.kept }
          .done (if flags.testBit 0 then c.flush else c) fs

/-! Groups (R419, R425) -/

/-- PT. -/
def MediaCtx.groupSize (c : MediaCtx) : Nat := (mPatch c.desc).2.2

/-- R419: the picture of a place of a group, where it has one. -/
def GroupPic.picture : GroupPic → Option Picture
  | .pic _ p _ => some p
  | _ => none

/-- R419: GRAIN of a group. -/
def groupGrain (g : List GroupPic) : Bool := g.any fun x => match x with | .pic _ _ grain => grain | _ => false

/-- R419: how many output pictures a group's places stand for; the filling of a lost group stands for none. -/
def groupCount (g : List GroupPic) : Nat := (g.filter fun x => decide (x ≠ .pad)).length

/-- R419, R425: the status record of a slot. -/
def State.slotStatus (s : State) (c : MediaCtx) (st : Status) (short grain : Bool) (frames : Nat) : State :=
  let bs := toLE st.toNat 2 ++ toLE (short.toNat + 2 * grain.toNat) 1 ++ toLE frames 1 ++ toLE c.pictures.toNat 4 ++ toLE 0 8
  { s with mem := s.mem.write (mStatusBase c.desc + 16 * (c.tsPtr.toNat % mSlots c.desc)) bs }

/-- R419, R420, R424, R425: one group leaves the decoder: its slot and its status record, then TS_WR; its pictures' holds end. -/
def State.emitGroup (s : State) (e : Fin 2) (c : MediaCtx) : State :=
  let g := c.group.take c.groupSize
  let ps := g.filterMap GroupPic.picture
  let s := if ps.length < g.length then s.slotStatus c stBitstream false (groupGrain g) 0
    else (s.writeGroup c ps).slotStatus c 0 (decide (g.length < c.groupSize)) (groupGrain g) g.length
  let bufs := g.foldl (fun b x => match x with | .pic i _ _ => unhold b i | _ => b) c.bufs
  let c := { c with group := c.group.drop c.groupSize, tsPtr := c.tsPtr + 1, pictures := c.pictures + BitVec.ofNat 32 (groupCount g), bufs := bufs }
  (s.modMedia e c.id fun _ => c).putPointers c

/-- Whether a decoder has a group that is ready to leave: a whole one, or the final part of a stream. -/
def MediaCtx.emits (c : MediaCtx) : Bool := decide (c.groupSize ≤ c.group.length) || (c.eos && !c.group.isEmpty)

/-- Groups leave as long as there is room for them. -/
def State.emitAll (s : State) (e : Fin 2) (id : Fin 256) : Nat → State
  | 0 => s
  | fuel + 1 =>
    match s.mediaCtx e id with
    | none => s
    | some c =>
      if c.emits && c.slotRoom then (s.emitGroup e c).emitAll e id fuel
      else if c.eos && c.group.isEmpty then s.modMedia e id fun c => { c with eos := false } else s

/-- R435: decoded luma samples. -/
def MediaEngine.countDecoded (x : MediaEngine) (fs : List (Nat × Picture)) : MediaEngine := { x with decoded := x.decoded + (fs.map fun f => f.2.width * f.2.height).sum }

/-- R425: a unit in error: the context ends; or the pictures decoded before it leave, its own is lost, and later units are discarded. -/
def State.unitError (s : State) (e : Fin 2) (c : MediaCtx) : State :=
  let s := s.modEngine e fun x => { x with bitstream := satAdd x.bitstream 1 }
  if mResync c.desc then s.modMedia e c.id fun x => let y := x.flush; { y with discarding := true, group := y.group ++ [.lost] }
  else (s.slotStatus c stBitstream false false 0).endMedia e c.id stBitstream

/-- R425: decoding resumes at a random-access point; the group in progress, which lost a picture, leaves as lost, and a new group starts. -/
def MediaCtx.resync (c : MediaCtx) : MediaCtx :=
  let n := c.groupSize
  { c with discarding := false, group := c.group ++ List.replicate (if c.group.isEmpty then 0 else (n - c.group.length % n) % n) .pad }

/-- R425: a context as it takes an access unit: it resumes at a random-access point. -/
def MediaCtx.resumed (c : MediaCtx) (u : List Byte) : MediaCtx := if c.discarding && Config.unitRandomAccess (mCodec c.desc) u then c.resync else c

/-- R411, R424, R425: the decoder takes a unit of `n` bytes of the ring. -/
def State.takeUnit (s : State) (e : Fin 2) (c : MediaCtx) (flags : Nat) (u : List Byte) (n : Nat) : State :=
  let c := MediaCtx.resumed { c with bsPtr := c.bsPtr + BitVec.ofNat 32 n } u
  let s := s.modMedia e c.id fun _ => c
  let s := if c.discarding then s.modMedia e c.id fun x => { x with group := x.group ++ [.lost] }
    else match c.decode flags u with
      | .ends st => s.endMedia e c.id st
      | .error => s.unitError e c
      | .done c fs => ((s.storeFrames c fs).modEngine e fun x => x.countDecoded fs).modMedia e c.id fun _ => c
  s.modMedia e c.id fun x => { x with eos := x.eos || flags.testBit 0 }

/-- R419, R420: the groups that are ready leave, and the pointers are written. -/
def State.emitReady (s : State) (e : Fin 2) (i : Fin 256) : State :=
  match s.mediaCtx e i with
  | some c => (s.putPointers c).emitAll e i (c.group.length + 2)
  | none => s

/-- R411, R424, R425: the decoder's unit, once its last band is done. -/
def State.decodeDone (s : State) (e : Fin 2) (c : MediaCtx) : State :=
  match s.nextUnit c with
  | none => s
  | some (flags, u, n) => (s.takeUnit e c flags u n).emitReady e c.id

/-- R422: whether the last band of a decoder's next unit completes a group, which then needs a slot. -/
def State.completesGroup (s : State) (c : MediaCtx) : Bool :=
  match s.nextUnit c with
  | none => false
  | some (flags, u, _) =>
    let c := c.resumed u
    if c.discarding then decide (c.groupSize ≤ c.group.length + 1) || flags.testBit 0
    else match c.decode flags u with
      | .done d _ => decide (d.groupSize ≤ d.group.length) || (flags.testBit 0 && !d.group.isEmpty)
      | .error => mResync c.desc && (decide (c.groupSize ≤ c.flush.group.length + 1) || flags.testBit 0)
      | .ends _ => false

/-! Encoding a picture (R412, R421, R424, R428 to R430) -/

/-- KEY_INTERVAL. -/
def mKeyInterval (d : List Byte) : Nat := leAt d 174 2
/-- GIR. -/
def mGir (d : List Byte) : Bool := (leAt d 160 1).testBit 2
/-- REORDER. -/
def mReorder (d : List Byte) : Bool := (leAt d 160 1).testBit 3
/-- GIR_PERIOD. -/
def mGirPeriod (d : List Byte) : Nat := leAt d 172 2

/-- R414, R428: the number of a picture after the latest key picture; 0 for a key picture. -/
def sinceKey (d : List Byte) (pic : Nat) : Nat := if mKeyInterval d = 0 then pic else pic % mKeyInterval d

/-- R421, R429: KEY and REFRESH of a picture. -/
def recordFlags (d : List Byte) (pic : Nat) : Nat :=
  let n := sinceKey d pic
  (if n = 0 then 2 else 0) + (if mGir d ∧ n ≠ 0 ∧ (n - 1) % mGirPeriod d = 0 then 4 else 0)

/-- R429, R430: samples of a coding block's side. -/
def blockSide (d : List Byte) : Nat := if mCodec d = 0 then 16 else 64

/-- R429: the columns of coding blocks that a picture codes as intra, from the first to the one past the last. -/
def girColumns (d : List Byte) (pic : Nat) : Option (Nat × Nat) :=
  let n := sinceKey d pic
  let nb := ceilDiv (mWidth d) (blockSide d)
  let w := ceilDiv nb (mGirPeriod d)
  let k := (n - 1) % mGirPeriod d
  if mGir d ∧ n ≠ 0 then some (min nb (k * w), min nb ((k + 1) * w)) else none

/-- R429: the recovery frame count of a picture's SEI. -/
def girSei (d : List Byte) (pic : Nat) : Option Nat := if 4 ≤ recordFlags d pic ∧ mCodec d ≠ 2 then some (mGirPeriod d - 1) else none

/-- R430: the offset of the lowest-numbered valid region that holds a sample; 0 where none does. -/
def regionOffset (roi : List Byte) (x y : Nat) : Int :=
  (((List.range (roi.length / 16)).map fun i => (roi.drop (16 * i)).take 16).findSome? fun r =>
    if (leAt r 9 1).testBit 0 ∧ leAt r 0 2 ≤ x ∧ x < leAt r 4 2 ∧ leAt r 2 2 ≤ y ∧ y < leAt r 6 2 then some (toSigned 8 (leAt r 8 1)) else none).getD 0

/-- R430: the range of a coding block's QP or q-index. -/
def qpRange (d : List Byte) : Int × Int := if mCodec d = 2 then (1, 255) else if mCodec d = 1 ∧ mDepth d = 10 then (-12, 51) else (0, 51)

/-- R430: the QP of each coding block, in raster order. -/
def blockQps (d roi : List Byte) (qp : Nat) : List Int :=
  let b := blockSide d
  let across := ceilDiv (mWidth d) b
  (List.range (across * ceilDiv (mHeight d) b)).map fun i =>
    max (qpRange d).1 (min (qpRange d).2 ((qp : Int) + regionOffset roi (b * (i % across)) (b * (i / across))))

/-- R428: the QP of a picture before its regions: BASE_QP under CQP and for the first picture. -/
def MediaCtx.pictureQp (c : MediaCtx) : Nat :=
  let d := c.desc
  let mode := leAt d 160 1 % 4
  if mode = 0 ∨ c.units.isEmpty then leAt d 162 1
  else Config.rateQp mode (leAt d 164 4) (leAt d 168 4) (leAt d 178 2) (leAt d 180 2) (c.units.map List.length)

/-- R428: the lowest level that admits the picture size, the frame rate and the rate. -/
def lowestLevel (d : List Byte) : Nat :=
  let mode := leAt d 160 1 % 4
  let rate := if mode = 1 then leAt d 164 4 else if mode = 2 then leAt d 168 4 else 0
  (((List.range (topLevel (mCodec d) + 1)).find? fun l => Config.levelAdmits (mCodec d) l (mWidth d) (mHeight d) (leAt d 178 2) (leAt d 180 2) rate)).getD (topLevel (mCodec d))

/-- R424, R428 to R430: the plan of a picture. -/
def MediaCtx.plan (c : MediaCtx) (kind : CodeKind) (x : Nat × Picture × List Byte) : CodePlan where
  codec := mCodec c.desc
  kind := kind
  number := x.1
  pic := x.2.1
  refs := if kind = .key then [] else c.bufs.filterMap fun b => b.bind fun b => if b.mark = .unused then none else b.num
  intra := girColumns c.desc x.1
  refreshed := ((girColumns c.desc x.1).map (·.1)).getD 0
  sei := girSei c.desc x.1
  qps := blockQps c.desc x.2.2 c.pictureQp
  level := lowestLevel c.desc
  fpsNum := leAt c.desc 178 2
  fpsDen := leAt c.desc 180 2

/-- R424: the numbers of the pictures that stay marked once picture `n` in coding order, `pic` in input order, is coded: the NREF most recent, and the latest long-term one. -/
def MediaCtx.encodeKept (c : MediaCtx) (n pic : Nat) : List (Nat × Bool) :=
  let nref := leAt c.desc 161 1
  let period := leAt c.desc 176 2
  let long := if period ≠ 0 ∧ (pic + 1) % period = 0 then some n else
    c.bufs.findSome? fun b => b.bind fun b => if b.mark = .long then b.num else none
  let shorts := ((List.range (n + 1)).drop (n + 1 - nref)).filter fun k => decide (some k ≠ long)
  shorts.map (·, false) ++ (long.map (·, true)).toList

/-- R421: the access record of a picture. -/
def accessRecord (d : List Byte) (pic : Nat) (bs : List Byte) : List Byte :=
  toLE bs.length 4 ++ toLE (recordFlags d pic) 1 ++ toLE 0 3 ++ toLE pic 4 ++ toLE 0 4 ++ bs ++ toLE 0 (roundUp bs.length 16 - bs.length)

/-- R424, R428: the picture that a decoder of the stream reconstructs from a coded access unit, which the encoder keeps as a reference. -/
def MediaCtx.reconstructed (c : MediaCtx) (bs : List Byte) (p : Picture) : Picture :=
  ((Config.decodeUnit (mCodec c.desc) c.units bs).bind fun x => x.pics.head?.map (·.pic)).getD p

/-- R421, R424, R428: a picture is coded: the context after it, the frame that its buffer takes, and its record. -/
def MediaCtx.code (c : MediaCtx) (kind : CodeKind) (x : Nat × Picture × List Byte) : MediaCtx × List (Nat × Picture) × List Byte :=
  let bs := Config.codePicture (c.plan kind x) c.units
  let p := c.reconstructed bs x.2.1
  let rec_ := accessRecord c.desc x.1 bs
  let c1 := { c with units := c.units ++ [bs], numbered := c.numbered + 1 }
  match takeBuf c.bufs ⟨some c.numbered, .short, false, p, false⟩ with
  | some (i, bufs) => ({ c1 with bufs := remark bufs (c.encodeKept c.numbered x.1) }, [(i, p)], rec_)
  | none => (c1, [], rec_)

/-- R428: the pictures of a hierarchical structure between two coded ones, the middle one first (PRESUMED, log 64). -/
def hierOrder : Nat → List (Nat × Picture × List Byte) → List (Nat × Picture × List Byte)
  | 0, _ => []
  | fuel + 1, l =>
    let k := (l.length - 1) / 2
    match l[k]? with
    | none => []
    | some x => x :: (hierOrder fuel (l.take k) ++ hierOrder fuel (l.drop (k + 1)))

/-- R428: a hierarchical structure in coding order: its last picture from the past, the others between. -/
def hierCode (l : List (Nat × Picture × List Byte)) : List (CodeKind × (Nat × Picture × List Byte)) :=
  match l.getLast? with
  | none => []
  | some x => (.p, x) :: (hierOrder l.length l.dropLast).map fun y => (.b, y)

/-- R428: what is coded once the newest frame has been read, in coding order, and the frames that wait on. -/
def codeNow (d : List Byte) (waiting : List (Nat × Picture × List Byte)) : List (CodeKind × (Nat × Picture × List Byte)) × List (Nat × Picture × List Byte) :=
  match waiting.getLast? with
  | none => ([], [])
  | some x =>
    if sinceKey d x.1 = 0 then (hierCode waiting.dropLast ++ [(.key, x)], [])
    else if !mReorder d then ([(.p, x)], [])
    else if waiting.length = 8 then (hierCode waiting, [])
    else ([], waiting)

/-- Pictures coded one after another. -/
def MediaCtx.codeAll (c : MediaCtx) : List (CodeKind × (Nat × Picture × List Byte)) → MediaCtx × List (Nat × Picture) × List Byte
  | [] => (c, [], [])
  | x :: r =>
    let a := c.code x.1 x.2
    let b := a.1.codeAll r
    (b.1, a.2.1 ++ b.2.1, a.2.2 ++ b.2.2)

/-- The picture in progress is coded: the context after it, frames for the pool, and the records for the ring. -/
def MediaCtx.coded (c : MediaCtx) : MediaCtx × List (Nat × Picture) × List Byte :=
  let x := codeNow c.desc c.waiting
  let y := c.codeAll x.1
  ({ y.1 with waiting := x.2 }, y.2)

/-- A context that has read its next frame. -/
def MediaCtx.withFrame (c : MediaCtx) (p : Picture) (roi : List Byte) : MediaCtx := { c with waiting := c.waiting ++ [(c.pictures.toNat, p, roi)] }

/-- R420, R421: records written to the ring, then BS_WR and TS_RD. -/
def State.encodeDone (s : State) (e : Fin 2) (c : MediaCtx) : State :=
  let (d, fs, bs) := c.coded
  let c1 := { d with bsPtr := c.bsPtr + BitVec.ofNat 32 bs.length, tsPtr := c.tsPtr + 1, pictures := c.pictures + 1, bandsLeft := 0 }
  let s := ((s.storeFrames c fs).ringWrite c c.bsPtr bs).modEngine e fun x => { x with encoded := x.encoded + mWidth c.desc * mHeight c.desc }
  (s.modMedia e c.id fun _ => c1).putPointers c1

/-! Work units and turns (R422, R423, R431) -/

/-- R422: bands of a picture of a height. -/
def bandsOf (h : Nat) : Nat := ceilDiv h 64

/-- R422: the bands of a decoder's next unit: those of its first picture. -/
def State.unitBands (s : State) (c : MediaCtx) : Nat :=
  let h := match s.nextUnit c with
    | some (_, u, _) => ((Config.decodeUnit (mCodec c.desc) c.units u).bind fun x => x.pics.head?.map (·.pic.height)).getD (mHeight c.desc)
    | none => mHeight c.desc
  max 1 (bandsOf h)

/-- R420, R422: whether a context's next unit has its input and room for its output, by software's counters as they stand. -/
def State.mediaReady (s : State) (c0 : MediaCtx) : Bool :=
  let c := s.seen c0
  if mEncode c.desc then
    if c.bandsLeft = 0 then
      decide (c.tsSeen ≠ c.tsPtr) && (decide (bandsOf (mHeight c.desc) ≠ 1) || (match s.readFrame c with
        | .ok (p, _, roi) => decide ((c.withFrame p roi).coded.2.2.length ≤ c.ringRoom)
        | .error _ => true))
    else decide (1 < c.bandsLeft) || decide (c.coded.2.2.length ≤ c.ringRoom)
  else if c.emits then c.slotRoom
  else if c.bandsLeft = 0 then (s.nextUnit c).isSome && (decide (1 < s.unitBands c) || !s.completesGroup c || c.slotRoom)
  else decide (1 < c.bandsLeft) || !s.completesGroup c || c.slotRoom

/-- R431: whether a draining context has finished the input that was counted. -/
def State.drained (s : State) (c : MediaCtx) (to_ : W32) : Bool :=
  decide (c.bandsLeft = 0) && (if mEncode c.desc then decide (c.tsPtr = to_) else !c.emits && (decide (c.bsPtr = to_) || (s.nextUnit c).isNone))

/-- R431: the pictures that a reordering decoder still holds leave, a final partial group among them. -/
def State.flushUnits (s : State) (e : Fin 2) (c : MediaCtx) : State :=
  let x := if c.eos then c else c.flush
  (s.modMedia e c.id fun _ => { x with eos := true }).emitAll e c.id (x.group.length + 2)

/-- R431: a context whose pictures have all left ends. -/
def State.endEmpty (s : State) (e : Fin 2) (i : Fin 256) : State :=
  match s.mediaCtx e i with
  | some c => if c.group.isEmpty then s.endMedia e i 0 else s
  | none => s

/-- R431: a drained context ends: a final partial group, or the frames a reordering encoder still holds, leave first. -/
def State.finishDrain (s : State) (e : Fin 2) (c : MediaCtx) : State :=
  if mEncode c.desc then
    let (_, fs, bs) := c.codeAll (hierCode c.waiting)
    if c.ringRoom < bs.length then s
    else (((s.storeFrames c fs).ringWrite c c.bsPtr bs).modMedia e c.id fun x => { x with bsPtr := x.bsPtr + BitVec.ofNat 32 bs.length }).endMedia e c.id 0
  else (s.flushUnits e c).endEmpty e c.id

/-- R431, R432: what ends contexts at a unit boundary. -/
def State.mediaBoundary (s : State) (e : Fin 2) : State :=
  (s.media[e].ctxs).foldl (fun s c =>
    match c.pendingStatus, c.close with
    | some st, _ => s.endMedia e c.id st
    | none, some none => s.endMedia e c.id stCancelled
    | none, some (some to_) => if s.drained (s.seen c) to_ then s.finishDrain e (s.seen c) else s
    | none, none => s) s

/-- R422: the context of a class whose turn it is: the one in its turn, else the next ready one in cyclic order. -/
def nextTurn (ready : List (Fin 256 × Nat)) (turn : Fin 256 × Nat) : Option (Fin 256 × Nat) :=
  match ready.find? fun r => decide (r.1 = turn.1) && decide (turn.2 ≠ 0) with
  | some r => some (r.1, turn.2 - 1)
  | none =>
    (((List.range 256).filterMap fun i => ready.find? fun r => decide (r.1.val = (turn.1.val + 1 + i) % 256)).head?).map fun r => (r.1, r.2 - 1)

/-- R422, R423: the engine's choice of the next unit's context. -/
def State.pickMedia (s : State) (e : Fin 2) : Option (Fin 256 × MediaEngine) :=
  let x := s.media[e]
  let ready (live : Bool) := (x.ctxs.filter fun c => decide (mLive c.desc = live) && s.mediaReady c).map fun c => (c.id, mWeight c.desc)
  let l := nextTurn (ready true) x.liveTurn
  let b := nextTurn (ready false) x.batchTurn
  match l, b with
  | none, none => none
  | some l, none => some (l.1, { x with liveTurn := l, running := some l.1 })
  | none, some b => some (b.1, { x with batchTurn := b, running := some b.1 })
  | some l, some b =>
    let n := x.unitsIn16 % 16
    let k := if n = 0 then 0 else x.batchIn16
    if 16 - n ≤ x.batchMin.toNat - k then some (b.1, { x with batchTurn := b, running := some b.1, unitsIn16 := n + 1, batchIn16 := k + 1 })
    else some (l.1, { x with liveTurn := l, running := some l.1, unitsIn16 := n + 1, batchIn16 := k })

/-- R422, R427, R430: a context's next picture is begun. -/
def State.beginPicture (s : State) (e : Fin 2) (c : MediaCtx) : State :=
  if mEncode c.desc then
    match s.readFrame c with
    | .error st => s.endMedia e c.id st
    | .ok (p, n, roi) =>
      (s.modEngine e fun x => { x with clamped := satAdd x.clamped n }).modMedia e c.id fun x => { x.withFrame p roi with bandsLeft := bandsOf (mHeight c.desc) }
  else if c.emits then s
  else if s.ringLost c c.bsPtr (match s.nextUnit c with | some (_, _, n) => n | none => 0) then s.endMedia e c.id stHbmData
  else s.modMedia e c.id fun x => { x with bandsLeft := s.unitBands c }

/-- R420, R422: a context that runs reads software's counters, and begins a picture unless bands of one are left. -/
def State.beginUnit (s : State) (e : Fin 2) (i : Fin 256) : State :=
  match s.mediaCtx e i with
  | some c =>
    let c := s.seen c
    let s := s.modMedia e i fun _ => c
    if c.bandsLeft = 0 then s.beginPicture e c else s
  | none => s

/-- R422, R423: an idle engine's next unit. -/
def State.startUnit (s : State) (e : Fin 2) : State :=
  match s.pickMedia e with
  | none => s
  | some (i, x) => (s.modEngine e fun _ => x).beginUnit e i

/-- MEDIA_UNIT_START (R422, R423). -/
def execMediaUnitStart (e : Fin 2) (s : State) : Host.Outcome State Fault Refusal :=
  .next (if s.media[e].running.isSome then s else (s.mediaBoundary e).startUnit e)

/-- R422: what a context's unit leaves when it is done: a band fewer, or the picture. -/
def State.unitDone (s : State) (e : Fin 2) (i : Fin 256) : State :=
  match s.mediaCtx e i with
  | none => s
  | some c =>
    if 1 < c.bandsLeft then s.modMedia e i fun x => { x with bandsLeft := x.bandsLeft - 1 }
    else if mEncode c.desc then s.encodeDone e c
    else if c.bandsLeft = 0 then s.emitAll e i (c.group.length + 2)
    else (s.modMedia e i fun x => { x with bandsLeft := 0 }).decodeDone e { c with bandsLeft := 0 }

/-- MEDIA_UNIT_COMPLETE (R422). -/
def execMediaUnitComplete (e : Fin 2) (s : State) : Host.Outcome State Fault Refusal :=
  .next (match s.media[e].running with
    | none => s
    | some i => (((s.modEngine e fun x => { x with running := none }).unitDone e i).mediaBoundary e))

end Sys2Proof.Machine
end

