-- ==== Sys2Proof/Machine/Flags.lean ====
section
/-! DEFINITION. The tests that set predicates: CMP, CMPI, VCMP and PLOG (R131, R152), and the ordering of FP values (R151). -/

namespace Sys2Proof.Machine

/-- R131: the conditions of CMP and CMPI. -/
def scalarCond (cond : BitVec 4) (a b : W64) : Bool :=
  match cond.toNat with
  | 0 => decide (a = b)
  | 1 => decide (a ≠ b)
  | 2 => a.slt b
  | 3 => !a.slt b
  | 4 => a.ult b
  | _ => !a.ult b

/-- Whether a value lies below another; false where either is NaN, and +0 equals −0. -/
def Num.lt : Num → Num → Bool
  | .nan, _ => false
  | _, .nan => false
  | .inf a, .inf b => a && !b
  | .inf a, .fin _ _ => a
  | .fin _ _, .inf b => !b
  | .fin a x, .fin b y => decide (signed a x < signed b y)

/-- Whether two values are equal; false where either is NaN, and +0 equals −0. -/
def Num.feq : Num → Num → Bool
  | .inf a, .inf b => decide (a = b)
  | .fin a x, .fin b y => decide (signed a x = signed b y)
  | _, _ => false

/-- Whether a value is NaN. -/
def Num.isNan : Num → Bool
  | .nan => true
  | _ => false

/-- R152: whether a VCMP condition is reserved. -/
def vectorCondReserved (cond : BitVec 4) : Bool := !([0, 1, 2, 3, 4, 8, 9, 10, 11].contains cond.toNat)

/-- R152: the conditions of VCMP on one lane. -/
def vectorCond (cond : BitVec 4) (a b : W32) : Bool :=
  let x := ofF32 a
  let y := ofF32 b
  match cond.toNat with
  | 0 => x.feq y
  | 1 => !x.feq y
  | 2 => x.lt y
  | 3 => x.lt y || x.feq y
  | 4 => x.isNan || y.isNan
  | 8 => decide (a = b)
  | 9 => decide (a ≠ b)
  | 10 => a.slt b
  | _ => !b.slt a

/-- R152: the functions of PLOG. -/
def predFn (fn : BitVec 2) (a b : PReg) : PReg :=
  match fn.toNat with
  | 0 => a &&& b
  | 1 => a ||| b
  | 2 => a ^^^ b
  | _ => a &&& ~~~b

/-- A predicate that holds in every lane, or in none. -/
def predAll (b : Bool) : PReg := if b then BitVec.allOnes 256 else 0

/-- R151: VMIN and VMAX: NaN if either is NaN; −0 lies below +0. -/
def fpPick (greater : Bool) (a b : W32) : W32 :=
  let x := ofF32 a
  let y := ofF32 b
  if x.isNan || y.isNan then nan32
  else if x.feq y then (if a.getLsbD 31 = greater then b else a)
  else if x.lt y = greater then b else a

end Sys2Proof.Machine
end

