-- ==== Sys2Proof/Machine/Sync.lean ====
section
/-! DEFINITION. The synchronisation units at work: barriers completing, tokens arriving, claims executing and returning, waits and collectives ending (R96 to R107, R116, R127, R215 to R218, R363, R365, R396, R397). -/

namespace Sys2Proof.Machine

/-- Whether a partition's task runs with no end of it detected before this cycle. -/
def State.partLive (s : State) (p : Fin 8) : Bool :=
  match s.parts[p].task with
  | some t => decide (t.phase = .running) && !t.over s.now
  | none => false

/-- Whether a partition holds a task that has started, running or suspended, with no end of it detected before this cycle. -/
def State.partHeld (s : State) (p : Option (Fin 8)) : Bool :=
  match p with
  | none => false
  | some p => match s.parts[p].task with
    | some t => (decide (t.phase = .running) || decide (t.phase = .suspended)) && !t.over s.now
    | none => false

/-! HBAR and MBAR (R102) -/

/-- A core leaves a barrier and runs on. -/
def Core.leave (c : Core) : Core := { c with arrival := none, mode := if c.mode = .barrier then .run else c.mode }

/-- R102: a barrier of a hearth or of a partition releases its participants, once all have arrived. -/
def State.releaseBarrier (s : State) (h : Fin 8) (cls : Nat) : State :=
  match s.partOf h with
  | none => s
  | some p =>
    if s.partLive p && s.allArrived p cls h then
      let gs := s.participants p cls h
      gs.foldl State.fetchPast (s.modCores gs fun _ => Core.leave)
    else s

/-- R215: whether the epoch barrier of a partition must first meet the MBAR that the barrier unit inserts: every participant has arrived, and tensors are listed for widening. -/
def State.passDue (s : State) (p : Fin 8) : Bool :=
  s.partLive p && s.allArrived p 2 p && !(s.hearths[p].widen).isEmpty && !s.hearths[p].widenPass

/-- HBAR_COMPLETE (R102). -/
def execHbarComplete (h : Fin 8) (s : State) : Host.Outcome State Fault Refusal := .next (s.releaseBarrier h 0)

/-- MBAR_COMPLETE (R102, R215): where an epoch barrier waits for the inserted MBAR, the widening pass begins. -/
def execMbarComplete (h : Fin 8) (s : State) : Host.Outcome State Fault Refusal :=
  .next (match s.partOf h with
    | some p => if s.passDue p then s.modHearth p fun x => { x with widenPass := true } else s.releaseBarrier h 1
    | none => s)

/-! The widening pass (R215) -/

/-- R215: the module-space descriptor through which the pass reaches a listed tensor: the listed one, or the first that a core of the partition holds (log 21). -/
def State.widenDesc (s : State) (p : Fin 8) (d : Desc) : Option Desc :=
  if dSpace d = 0 then some d
  else ((s.partCores p).flatMap fun g => (s.core g).td.toList.filterMap id).find? fun x => decide (dSpace x = 0) && decide (dTid x = dTid d) && decide (dMode x = 0)

/-- R215: one tile, where it is still narrow, rewritten as its BF16 image. A tile whose header fails the check of R57 is no written tile of the tensor; the pass leaves it and raises no TILE_HEADER_INVALID (DESIGN CHOICE, log 21: R57 speaks of a consumer, and R215 does not call the pass one). -/
def widenTile (ok : Admit) (w : Work) (d : Desc) (wr : Writer) (i : Nat) : Except Status Work := do
  let (o, r) := tileCoords d i
  let a := tileAddr d o r
  let hb ← w.rdMod ok a 32
  let h : Header := BitVec.ofNat 256 (leNat hb)
  if hWid h || !headerOk d i h then .ok w
  else do
    let t ← readTile ok w d i a true
    writeWidened ok w d o r a wr 0 ((List.range 4096).map fun s => bf16Image (t.full s)) false t

/-- R215: the widening routine of a partition's cores over the widen list: tile `i` goes to core `i` modulo the core count. -/
def State.widenPass (s : State) (p : Fin 8) : State :=
  let gs := s.partCores p
  (s.hearths[p].widen).foldl (fun s e =>
    match s.widenDesc p e.2 with
    | none => s
    | some d =>
      (List.range (gridO d * gridR d)).foldl (fun s i =>
        let g := gs.getD (i % gs.length) (partCore p)
        match widenTile (s.admits g) (s.work g) d (s.writer g (dTid d)) i with
        | .ok w => s.putWork g { w with widen := s.hearths[p].widen }
        | .error st => s.coreFault g st 8128) s) s

/-! EBAR (R99, R103, R135, R217, R396, R397) -/

/-- R99, R103, R135: a core leaves the epoch barrier; one that reached it by END leaves the task. -/
def Core.leaveEpoch (c : Core) : Core :=
  let left := (c.tok.toList.map fun (t : TokenCell) => (t.current c.epoch).toNat).sum
  let c1 := { c with tok := c.tok.map (fun (t : TokenCell) => t.put c.epoch 0), epoch := c.epoch + 1, stat := { c.stat with tokenLeft := satAdd c.stat.tokenLeft left } }
  match c.arrival.map (·.kind.toNat) with
  | some 3 => { c1 with arrival := none, mode := .idle, member := false }
  | _ => c1.leave

/-- R217: the tensor named when several overflowed: the lowest id. -/
def lowestOver : List (W32 × BitVec 48) → Option (W32 × BitVec 48)
  | [] => none
  | x :: r => match lowestOver r with
    | none => some x
    | some y => if x.1.toNat ≤ y.1.toNat then some x else some y

/-- R217: an overflow without AUTOWIDEN ends the task at the epoch's EBAR. -/
def State.poolFull (s : State) (p : Fin 8) (x : W32 × BitVec 48) : State :=
  let d := s.overflowDetail p x.1 x.2
  s.endTask p { s.unitEnding stPoolFull 2 p.val 0xFFFF with core := some d.2, detail := BitVec.ofNat 192 d.1 }

/-- R396: whether a pending SUSPEND acts at the barrier that leaves an epoch. -/
def Task.suspends (t : Task) : Bool :=
  match t.suspendAt with
  | some e => decide (e = 0) || decide (e.toNat ≤ t.ordinal.toNat)
  | none => false

/-- R396: the partition of a suspended task; STOPPING stays (R389). -/
def Part.suspended (x : Part) : Part := { x with mode := if x.mode = .stopping then .stopping else .suspended }

/-- R103, R135, R396, R397: the epoch barrier of a partition completes. -/
def State.leaveEbar (s : State) (p : Fin 8) (t : Task) : State :=
  let gs := s.participants p 2 p
  let s := s.modCores gs fun _ => Core.leaveEpoch
  let s := (List.finRange 8).foldl (fun s h => if s.inPart p h then s.modHearth h fun x => { x with lab := [] } else s) s
  let s := s.modTask p fun t => { t with ordinal := satAdd t.ordinal 1, rounds := 0, overs := [] }
  let left := s.members p
  if t.cancel then s.endTask p (s.unitEnding stCancelled 0 0 0)
  else if left.isEmpty then s.endTask p (s.unitEnding 0 2 p.val 0)
  else if t.suspends then
    let s := s.modCores left fun _ c => { c with mode := .suspended }
    (s.modTask p fun t => { t with phase := .suspended, suspendAt := none }).modPart p Part.suspended
  else left.foldl State.fetchPast s

/-- EBAR_COMPLETE (R103, R370): first the widening pass that an inserted MBAR began (R215, R218), then an overflow's end (R217), then the barrier itself. -/
def execEbarComplete (h : Fin 8) (s : State) : Host.Outcome State Fault Refusal :=
  .next (match s.partOf h with
    | none => s
    | some p =>
      if s.partLive p && s.allArrived p 2 p && s.roundsDone p && !s.passDue p then
        let s := (s.widenPass p).modHearth p fun x => { x with widenPass := false }
        match s.parts[p].task with
        | none => s
        | some t =>
          if t.ending.isSome then s
          else match lowestOver t.overs with
            | some x => s.poolFull p x
            | none => s.leaveEbar p t
      else s)

/-! Tokens (R96 to R101) -/

/-- R97: whether nothing that the sender did before holds a token back; R94 keeps a queue's tokens in order, R14 the others of one core to one core. -/
def State.tokenFree (s : State) (n : Nat) (m : TokMsg) : Bool :=
  match m.queue with
  | none => (s.core m.src).released m.seq
    && !((s.tokens.take n).any fun x => decide (x.src = m.src) && x.queue.isNone && decide (x.module = m.module) && decide (x.dst = m.dst))
  | some q => !((s.tokens.take n).any fun x => decide (x.src = m.src) && decide (x.queue = some q))

/-- R98: a token that has left the list reaches its cell, or goes to its module as a SIGNAL packet (R347). -/
def State.tokenGo (s : State) (m : TokMsg) : State :=
  match m.module with
  | none =>
    let g := coreId m.dst.toNat
    if s.partOfCore g = s.partOfCore m.src then s.tokenAdd g m.tok m.cnt.toNat m.epoch else s
  | some x => s.sendControl m.src x 3 m.dst m.cnt.toNat (BitVec.ofNat 6 m.tok.val) m.epoch m.bundle []

/-- TOKEN_SIGNAL_ARRIVE (R98): the count at position `n` of the tokens on their way. -/
def execTokenSignalArrive (n : Nat) (s : State) : Host.Outcome State Fault Refusal :=
  .next (match s.tokens[n]? with
    | none => s
    | some m =>
      let s1 := { s with tokens := s.tokens.eraseIdx n }
      if !s.partHeld (s.partOfCore m.src) then s1
      else if !s.tokenFree n m then s
      else s1.tokenGo m)

/-- WAIT_TIMEOUT (R101). -/
def execWaitTimeout (g : Fin 512) (s : State) : Host.Outcome State Fault Refusal :=
  .next (match (s.core g).wait with
    | none => s
    | some w => if s.live g then (s.reach (w.since + usTicks w.limitUs)).coreFault g stWaitTimeout w.bundle else s)

/-! Work counters (R105 to R107, R116) -/

/-- A change of a work counter. -/
def State.modWctr (s : State) (h : Fin 8) (ctr : Fin 64) (f : WorkCounter → WorkCounter) : State :=
  s.modHearth h fun x => { x with wctr := x.wctr.set ctr (f x.wctr[ctr]) }

/-- R105: the items that a claim is granted. -/
def WorkCounter.grant (w : WorkCounter) (inc : Nat) : Nat :=
  if w.value.toNat < w.limit.toNat then min inc (w.limit.toNat - w.value.toNat) else 0

/-- R116: the claim bitmap's address. -/
def WorkCounter.bmap (w : WorkCounter) : Nat := w.bmapHi.toNat * 2 ^ 32 + w.bmapLo.toNat * 64

/-- A bit of a bitmap in HBM. -/
def bmapBit (m : Mem) (a i : Nat) : Bool := (readByte m.hbm (a + i / 8)).getLsbD (i % 8)

/-- A bitmap with a bit set. -/
def setBmapBit (m : Mem) (a i : Nat) : Mem :=
  m.write (a + i / 8) [readByte m.hbm (a + i / 8) ||| (1 <<< (i % 8))]

/-- The change of a core's claim on a counter. -/
def Core.modClaim (c : Core) (h : Fin 8) (ctr : Fin 64) (f : Claim → Claim) : Core :=
  { c with claims := c.claims.map fun x => if x.h = h ∧ x.ctr = ctr then f x else x }

/-- R107, R306: the claim bitmap takes a grant, or the status with which the claim ends its task. -/
def State.markBmap (s : State) (g : Fin 512) (w : WorkCounter) (v n : Nat) : Except Status State :=
  let a := w.bmap
  if hbmTop ≤ a then .error stAddr
  else match s.admits g true (a + v / 8) ((v + n - 1) / 8 - v / 8 + 1) with
    | some st => .error st
    | none =>
      if s.mem.lost (a + v / 8) ((v + n - 1) / 8 - v / 8 + 1) then .error stHbmData
      else if (List.range n).any fun i => bmapBit s.mem a (v + i) then .error stDoubleClaim
      else .ok { s with mem := (List.range n).foldl (fun m i => setBmapBit m a (v + i)) s.mem }

/-- R105: a claim takes its grant: the counter advances by it, and the counter's log holds the old value for the response. -/
def State.takeGrant (s : State) (g : Fin 512) (h : Fin 8) (ctr : Fin 64) (token : BitVec 16) (n : Nat) : State :=
  s.modWctr h ctr fun y => { y with value := y.value + BitVec.ofNat 32 n, log := (y.log.filter fun e => decide (e.1 ≠ g)) ++ [(g, token, y.value, BitVec.ofNat 32 n)] }

/-- R105: each claim with a grant adds 1 to the TDC_COUNT of the task. -/
def State.countGrant (s : State) (g : Fin 512) (n : Nat) : State :=
  match s.taskOf g with
  | some (p, _) => if n = 0 then s else s.modTask p fun t => { t with tdc := satAdd t.tdc 1 }
  | none => s

/-- WCLAIM_EXECUTE (R105, R106, R107). A claim that finds an item claimed before ends its task and writes nothing (R169). -/
def execWclaimExecute (g : Fin 512) (h : Fin 8) (ctr : Fin 64) (s : State) : Host.Outcome State Fault Refusal :=
  .next (match (s.core g).claims.find? fun x => decide (x.h = h) && decide (x.ctr = ctr) && !x.executed with
    | none => s
    | some x =>
      let w := s.hearths[h].wctr[ctr]
      if w.clearing || !s.acts g then s
      else
        let n := w.grant x.inc
        match (if w.bmapEn && decide (n ≠ 0) then s.markBmap g w w.value.toNat n else .ok s) with
        | .ok s => ((s.takeGrant g h ctr x.token n).countGrant g n).modCore g fun c => c.modClaim h ctr fun y => { y with executed := true }
        | .error st => s.coreFault g st x.bundle)

/-- WCLAIM_RESPONSE (R105, R106): the old value and the grant predicate are written; a fourth parity failure ends the task. -/
def execWclaimResponse (g : Fin 512) (h : Fin 8) (ctr : Fin 64) (parityOk : Bool) (s : State) : Host.Outcome State Fault Refusal :=
  .next (match (s.core g).claims.find? fun x => decide (x.h = h) && decide (x.ctr = ctr) && x.executed with
    | none => s
    | some x =>
      if !s.acts g then s
      else if parityOk then
        match s.hearths[h].wctr[ctr].log.find? fun e => decide (e.1 = g) && decide (e.2.1 = x.token) with
        | none => s
        | some e =>
          s.modCore g fun c => { ((wS x.rd (e.2.2.1.setWidth 64)) ++ wP x.pd (predAll (decide (e.2.2.2 ≠ 0)))).foldl Core.applyWrite c with
            claims := c.claims.filter fun y => !(decide (y.h = h) && decide (y.ctr = ctr)) }
      else if x.failures = 3 then s.coreFault g stParity x.bundle
      else s.modCore g fun c => c.modClaim h ctr fun y => { y with failures := y.failures + 1 })

/-- A write of HRT_WCTR_CTL (R116); the block of a hearth that is not in service discards it (R535). -/
def State.writeWctrCtl (s : State) (h : Fin 8) (ctr : Fin 64) (v : W32) : State :=
  if s.glb.hrtPresent.getLsbD h.val then s.modWctr h ctr fun w => { w with bmapEn := v.getLsbD 0, clearing := w.clearing || v.getLsbD 1 } else s

/-- BMAP_CLR (R116): a write of HRT_WCTR_CTL. -/
def execBmapClr (h : Fin 8) (ctr : Fin 64) (v : BitVec 32) (s : State) : Host.Outcome State Fault Refusal :=
  .next (s.barWrite fun s => s.writeWctrCtl h ctr v)

/-- Bits 0 to `n - 1` of a bitmap cleared. -/
def clearBmap (m : Mem) (a n : Nat) : Mem :=
  let hbm := clearRange m.hbm a (a + n / 8)
  let b := a + n / 8
  { m.fresh a (n / 8) with hbm := writeByte hbm b (readByte hbm b &&& ~~~BitVec.ofNat 8 (2 ^ (n % 8) - 1)) }

/-- BMAP_CLEAR_DONE (R116): the clear ends, and bits 0 to LIMIT − 1 of the bitmap are 0. DESIGN CHOICE (log 54), where R116 is silent: the bits go at this moment, by the LIMIT and the address that stand then; a bitmap outside HBM changes no memory. -/
def execBmapClearDone (h : Fin 8) (ctr : Fin 64) (s : State) : Host.Outcome State Fault Refusal :=
  let w := s.hearths[h].wctr[ctr]
  .next (if w.clearing then
    let s := s.modWctr h ctr fun w => { w with clearing := false }
    if w.bmap < hbmTop then { s with mem := clearBmap s.mem w.bmap w.limit.toNat } else s
  else s)

/-! The scoreboard (R127) -/

/-- SCOREBOARD_CLEAR (R127): the oldest outstanding write of a register takes effect. -/
def execScoreboardClear (g : Fin 512) (r : Reg) (s : State) : Host.Outcome State Fault Refusal :=
  .next (match (s.core g).inflight.find? fun w => decide (w.reg = r) with
    | none => s
    | some w => s.modCore g fun c => { c.applyWrite w with inflight := c.inflight.erase w })

/-! Collectives (R363, R365) -/

/-- The collective in progress of a group on a core. -/
def Core.collOf (c : Core) (group : W32) (t : Coll → Bool) : Option Coll := c.colls.find? fun x => decide (cGroup x.desc = group) && t x

/-- COLLECTIVE_COMPLETE (R363, R165). -/
def execCollectiveComplete (g : Fin 512) (group : BitVec 32) (s : State) : Host.Outcome State Fault Refusal :=
  .next (match (s.core g).collOf group fun x => x.complete (s.core g) with
    | none => s
    | some x =>
      if !s.live g then s
      else
        let s := s.modCore g fun c => { c with colls := c.colls.filter fun y => !y.isSeq x.seq }
        let s := if x.sig then s.ownToken g none (BitVec.ofNat 9 g.val) x.token x.bundle else s
        s.settle g)

/-- COLL_TIMEOUT (R365, R402). -/
def execCollTimeout (g : Fin 512) (group : BitVec 32) (s : State) : Host.Outcome State Fault Refusal :=
  .next (match (s.core g).collOf group fun x => !x.complete (s.core g) with
    | none => s
    | some x =>
      if !s.live g then s
      else
        let a := x.awaited
        (s.reach (x.since + x.limit)).collFault g x stCollTimeout (leNat (toLE a.1 4 ++ toLE a.2.1.toNat 2 ++ toLE a.2.2.toNat 2 ++ toLE group.toNat 4)))

end Sys2Proof.Machine
end

