-- ==== Sys2Proof/Machine/Dma.lean ====
section
/-! DEFINITION. DMA transfers: how the transfer at the head of a queue starts, moves its bytes and completes (R93 to R95, R157, R209, R215, R216, R273, R328, R331, R344 to R349, R498 to R501, R547). -/

namespace Sys2Proof.Machine

/-- Bytes that a transfer reads for its destination, each piece with its place there, in the order in which they are requested (R172); the status of the line at which it fails (R331). -/
abbrev Moved := List (Nat × List Byte) × Option Status

/-- Bytes of one place up to the first failing line. -/
abbrev Part1 := List Byte × Option Status

/-- A piece at a place of the destination. -/
def Part1.at_ (x : Part1) (off : Nat) : Moved := (if x.1.isEmpty then [] else [(off, x.1)], x.2)

/-- R331: how many of `n` bytes at `a` come before the first 64 B line that is not admitted. -/
def linePrefix (ok : Nat → Nat → Option Status) (a n : Nat) : Nat → Nat → Nat × Option Status
  | 0, off => (off, none)
  | fuel + 1, off =>
    if n ≤ off then (n, none)
    else
      let m := min (64 - (a + off) % 64) (n - off)
      match ok (a + off) m with
      | some st => (off, some st)
      | none => linePrefix ok a n fuel (off + m)

/-- The bytes of `n` at a module address that come before the first failing line. -/
def readLines (ok : Admit) (m : Mem) (a n : Nat) : Part1 :=
  let x := linePrefix (m.guard ok false) a n (n / 64 + 2) 0
  (m.read a x.1, x.2)

/-- One part of a transfer after another, up to the first failure. -/
def chain {α : Type} (f : α → Moved) : List α → Moved
  | [] => ([], none)
  | i :: is =>
    let x := f i
    match x.2 with
    | some st => (x.1, some st)
    | none =>
      let y := chain f is
      (x.1 ++ y.1, y.2)

/-- R93: the bytes at a place of this module. -/
def State.readLoc (s : State) (g : Fin 512) (l : Loc) (n : Nat) : Part1 :=
  let c := s.core (coreId l.core.toNat)
  let a := l.off.toNat
  match l.space.toNat with
  | 0 => readLines (s.admits g) s.mem a n
  | 1 => if spadSize < a + n then ([], some stAddr) else if parityHit c.badParity a n then ([], some stParity) else (readBytes c.spad a n, none)
  | _ => if imemSize < a + n then ([], some stAddr) else if parityHit c.badImem a n then ([], some stParity) else (readBytes c.imem a n, none)

/-- R215: a record staged from module space into a scratchpad names its alternate record where it is widened. -/
def stageAlt (d : Desc) (idx : Nat) (bs : List Byte) : List Byte :=
  if (leAt bs 1 1).testBit 1 ∧ 32 ≤ bs.length then bs.take 24 ++ toLE (altBase d + idx * bf16Rec) 6 ++ bs.drop 30 else bs

/-- R262 to R264, R270, R271, R273: the frame of a row tile's page, translated and checked. -/
def pageFrame (ok : Admit) (w : Work) (x : Xfer) (e : Desc) (o : Nat) : Except Status Nat := do
  let k := o / 2
  let ent ← if pList e then listEntry w e k else match pageOf x.pages k with
    | some y => .ok y
    | none => .error stPageFault
  let f ← entryFrame e ent
  let a ← frameAddr x.td e f
  let _ ← pageHeader ok w x.td e k a
  .ok a

/-- R547, R157, R172, R273: what a TILE transfer whose window is the source reads, in LOOP_HBM order; each record has its place in the window's index order. -/
def State.tileBytes (s : State) (g : Fin 512) (x : Xfer) : Moved :=
  let d := x.td
  let ok := s.admits g
  let w := s.work g
  let n := recSize (dFmt d)
  match x.ext with
  | some e =>
    if pSel e = 2 then
      chain (fun j => match pageFrame ok w x e (dO0 d + j) with
        | .error st => ([], some st)
        | .ok a => Part1.at_ (readLines ok s.mem (a + 64 + 512 * ((dO0 d + j) % 2)) 512) (512 * j)) (List.range (dON d))
    else
      chain (fun t => match pageFrame ok w x e t.1 with
        | .error st => ([], some st)
        | .ok a => Part1.at_ (readLines ok s.mem (pageTileAddr d (pSel e) a (t.1 % 2) t.2) n) (winPos d t.1 t.2 * n)) (reqTiles d)
  | none =>
    chain (fun t =>
      let a := tileAddr d t.1 t.2
      let off := winPos d t.1 t.2 * n
      if dSpace d = 1 then match w.rdSpad a n with
        | .ok bs => ([(off, bs)], none)
        | .error st => ([], some st)
      else
        let y := readLines ok s.mem a n
        Part1.at_ (if x.dst.space = 1 then stageAlt d (tileIndex d t.1 t.2) y.1 else y.1, y.2) off) (reqTiles d)

/-- R547: the bytes of a NARROW transfer, each read by its entry of the address list. -/
def State.narrowBytes (s : State) (g : Fin 512) (x : Xfer) : Moved :=
  let n := x.length / 32
  match s.readLoc g x.src (8 * n) with
  | (_, some st) => ([], some st)
  | (es, none) =>
    chain (fun i =>
      let e := leAt es (8 * i) 8
      if e >>> 48 ≠ 0 ∨ e % 32 ≠ 0 then ([], some stDesc)
      else match s.mem.guard (s.admits g) false e 32 with
        | some st => ([], some st)
        | none => ([(32 * i, s.mem.read e 32)], none)) (List.range n)

/-- What a transfer whose source is not STT's scratchpad reads. -/
def State.xferBytes (s : State) (g : Fin 512) (x : Xfer) : Moved :=
  match x.kind with
  | .copy => Part1.at_ (s.readLoc g x.src x.length) 0
  | .tile => s.tileBytes g x
  | .narrow => s.narrowBytes g x

/-- The bytes that a whole transfer writes at its destination. -/
def Xfer.total (x : Xfer) : Nat :=
  match x.kind with
  | .tile => if x.ext.any fun e => decide (pSel e = 2) then 512 * dON x.td else winCount x.td * recSize (dFmt x.td)
  | _ => x.length

/-- R216: whether bytes of instruction memory touch a reserved bundle. -/
def State.reservedCode (s : State) (g : Fin 512) (a n : Nat) : Bool := (s.taskOf g).any (·.2.reserve) && decide (8128 * 32 < a + n)

/-- R95, R216: whether the whole destination of a transfer to this module's scratchpads or instruction memories lies in its memory. -/
def State.destOk (s : State) (g : Fin 512) (x : Xfer) : Bool :=
  match x.dst.space.toNat with
  | 0 => true
  | 1 => decide (x.total = 0) || decide (x.dst.off.toNat + x.total ≤ spadSize)
  | _ => decide (x.total = 0) || (decide (x.dst.off.toNat + x.total ≤ imemSize) && !s.reservedCode g x.dst.off.toNat x.total)

/-- R93, R331: bytes written at an address of a place's memory, up to the first failing line. -/
def State.writeLoc (s : State) (g : Fin 512) (l : Loc) (a : Nat) (bs : List Byte) : State × Option Status :=
  let k := coreId l.core.toNat
  match l.space.toNat with
  | 0 =>
    let x := linePrefix (s.admits g true) a bs.length (bs.length / 64 + 2) 0
    ({ s with mem := s.mem.write a (bs.take x.1) }, x.2)
  | 1 => (s.modCore k fun c => c.putSpad a bs, none)
  | _ => (s.modCore k fun c => c.putImem a bs, none)

/-- R331: pieces written one after another, up to the first failing line. -/
def State.writePieces (g : Fin 512) (l : Loc) : List (Nat × List Byte) → State → State × Option Status
  | [], s => (s, none)
  | (o, bs) :: r, s => match s.writeLoc g l (l.off.toNat + o) bs with
    | (s, some st) => (s, some st)
    | (s, none) => State.writePieces g l r s

/-- Pieces that follow one another joined into one. -/
def joinPieces : List (Nat × List Byte) → List (Nat × List Byte)
  | [] => []
  | (o, bs) :: r => match joinPieces r with
    | (p, cs) :: r => if p = o + bs.length then (o, bs ++ cs) :: r else (o, bs) :: (p, cs) :: r
    | [] => [(o, bs)]

/-- A piece at its place among pieces in ascending order. -/
def insertPiece (x : Nat × List Byte) : List (Nat × List Byte) → List (Nat × List Byte)
  | [] => [x]
  | y :: r => if x.1 ≤ y.1 then x :: y :: r else y :: insertPiece x r

/-- The bytes of pieces in ascending order of their places (R498). -/
def ascending (ps : List (Nat × List Byte)) : List Byte := (ps.foldr insertPiece []).flatMap (·.2)

/-! STT (R157, R209, R215, R273) -/

/-- The bytes of a record with ALT_ADDR 0 (R215). -/
def clearAlt (bs : List Byte) : List Byte := bs.take 24 ++ toLE 0 6 ++ bs.drop 30

/-- Bytes written in module space up to the first failing line. -/
def Work.wrLines (ok : Admit) (w : Work) (a : Nat) (bs : List Byte) : Work × Option Status :=
  let x := linePrefix (ok true) a bs.length (bs.length / 64 + 2) 0
  ({ w with mem := w.mem.write a (bs.take x.1) }, x.2)

/-- R157, R209: one record of the scratchpad goes to the tile at (o, r), converted where the formats differ. -/
def storeTile (ok : Admit) (w : Work) (x : Xfer) (wr : Writer) (src o r a : Nat) : Work × Option Status :=
  let d := x.td
  let sf := x.sf.toNat
  match w.rdSpad src (recSize sf) with
  | .error st => (w, some st)
  | .ok bs =>
    if sf = dFmt d then w.wrLines ok a (clearAlt bs)
    else
      let h : Header := BitVec.ofNat 256 (leNat (bs.take 32))
      if hSlagCount h ≠ 0 ∨ hEsc h then (w, some stDesc)
      else
        let t := parseTile h sf (dLayout d) (isPlain sf) bs
        let run (ok : Admit) : Except Status Work := writeTile ok w d o r a { wr with conv := x.conv } 0 4096 false
          (fun s => if (logicalIndex d o r s).isNone then none else some ((t.value s).mul (.fin false (dScale d))))
        match run ok with
        | .ok w => (w, none)
        | .error st => match run fun _ _ _ => none with
          -- R331: the record's lines before the failing one stay.
          | .ok v => ((w.wrLines ok a (v.mem.read a (recSize (dFmt d)))).1, some st)
          | .error _ => (w, some st)

/-- A list of writes, up to the first failure. -/
def storeAll {α : Type} (f : Work → α → Work × Option Status) : List α → Work → Work × Option Status
  | [], w => (w, none)
  | i :: is, w => match f w i with
    | (w, some st) => (w, some st)
    | (w, none) => storeAll f is w

/-- An admission under which a write that meets address `a` fails at its tier. -/
def Admit.failing (ok : Admit) (a : Option Nat) : Admit := fun write b n =>
  match ok write b n with
  | some st => some st
  | none => if write && a.any (fun a => decide (b ≤ a) && decide (a < b + n)) then some stTier else none

/-- The module address of byte `n` of what an STT writes, in its request order. -/
def Xfer.storeAddr (x : Xfer) (n : Nat) : Option Nat :=
  (reqTiles x.td)[n / recSize (dFmt x.td)]?.map fun t => tileAddr x.td t.1 t.2 + n % recSize (dFmt x.td)

/-- STT's transfer, tile by tile in LOOP_HBM order (R172): the work memories it leaves and the status it fails with; `fail` is the byte at which the host fails a write. -/
def State.storeTiles (s : State) (g : Fin 512) (x : Xfer) (fail : Option Nat) : Work × Option Status :=
  let d := x.td
  let ok := (s.admits g).failing (fail.bind x.storeAddr)
  let wr := s.writer g (dTid d)
  let src := x.dst.off.toNat
  let n := recSize x.sf.toNat
  match x.ext with
  | some e =>
    if pSel e = 2 then
      storeAll (fun w j => match pageFrame ok w x e (dO0 d + j) with
        | .error st => (w, some st)
        | .ok a => match w.rdSpad (src + 512 * j) 512 with
          | .error st => (w, some st)
          | .ok bs => w.wrLines ok (a + 64 + 512 * ((dO0 d + j) % 2)) bs) (List.range (dON d)) (s.work g)
    else
      storeAll (fun w t => match pageFrame ok w x e t.1 with
        | .error st => (w, some st)
        | .ok a => storeTile ok w x wr (src + winPos d t.1 t.2 * n) t.1 t.2 (pageTileAddr d (pSel e) a (t.1 % 2) t.2)) (reqTiles d) (s.work g)
  | none => storeAll (fun w t => storeTile ok w x wr (src + winPos d t.1 t.2 * n) t.1 t.2 (tileAddr d t.1 t.2)) (reqTiles d) (s.work g)

/-! Snoop ports on a queue (R498, R501) -/

/-- R501: whether a secure job runs on a core's partition. -/
def State.secureAt (s : State) (g : Fin 512) : Bool := (s.taskOf g).any (·.2.job.secure)

/-- R498: whether a port computes on a queue's transfers. -/
def State.snooped (s : State) (g : Fin 512) (q : Fin 8) : Bool :=
  !s.secureAt g && s.snoop.toList.any fun p => decide (p.stream = some (.dmaQueue g q))

/-- R498: what an STT wrote: the destination's first address and the records in ascending address. -/
def State.storeImage (s : State) (x : Xfer) : Nat × List Byte :=
  let d := x.td
  let n := recSize (dFmt d)
  match (winTiles d).head? with
  | none => (0, [])
  | some t => (tileAddr d t.1 t.2, (winTiles d).flatMap fun t => s.mem.read (tileAddr d t.1 t.2) n)

/-! The start of a transfer -/

/-- Whether a transfer's destination is on another module. -/
def State.xferFar (s : State) (x : Xfer) : Bool := x.remote && decide (x.module ≠ s.fab.moduleId)

/-- R95: with REMOTE = 0, the cores that a transfer names lie in the task's partition; without SIG it names no token's core (DEDUCED, log 53). -/
def State.xferCoresOk (s : State) (g : Fin 512) (x : Xfer) : Bool :=
  let mine (c : BitVec 9) : Bool := decide (s.partOfCore (coreId c.toNat) = s.partOfCore g)
  (decide (x.kind = .tile) || decide (x.src.space = 0) || x.remote || mine x.src.core)
  && (s.xferFar x || ((decide (x.dst.space = 0) || mine x.dst.core) && (!x.sig || mine x.tokenCore)))

/-- R95, R328: whether a transfer reaches module space at or above a limit: beyond HBM, the vault or the host. -/
def State.touchesTier (s : State) (g : Fin 512) (x : Xfer) (lim : Nat := hbmTop) : Bool :=
  let high (l : Loc) : Bool := decide (l.space = 0) && decide (lim ≤ l.off.toNat)
  match x.kind with
  | .copy => high x.src || (!x.remote && high x.dst)
  | .tile => (decide (dSpace x.td = 0) && decide (lim ≤ dBase x.td)) || (!x.store && !x.remote && high x.dst)
  | .narrow => (!x.remote && high x.dst) || (List.range (x.length / 32)).any fun i => decide (lim ≤ leAt (s.readLoc g x.src (x.length / 4)).1 (8 * i) 6)

/-- A change of the transfer at the head of a queue. -/
def State.modXfer (s : State) (g : Fin 512) (q : Fin 8) (f : Xfer → Xfer) : State :=
  s.modCore g fun c => { c with q := c.q.set q { c.q[q] with xfers := modifyAt f c.q[q].xfers 0 } }

/-- R268, R273: the page indices of a PAGED window in walker mode that a transfer has no translation for. -/
def Xfer.missingPages (x : Xfer) : List Nat :=
  match x.ext with
  | some e => if pList e then [] else (((List.range (dON x.td)).map fun j => (dO0 x.td + j) / 2).dedup).filter fun k => (pageOf x.pages k).isNone
  | none => []

/-- R268, R271: the walker is asked for the pages of a transfer. -/
def State.walkPages (s : State) (g : Fin 512) (q : Fin 8) (e : Desc) : List Nat → Except Status State
  | [] => .ok s
  | k :: ks =>
    match s.walkFault g e k with
    | some st => .error st
    | none => match s.walkRequest g (some q) (BitVec.ofNat 48 (pTable e)) k with
      | (some y, s) => (s.modXfer g q fun x => { x with pages := x.pages ++ [(k, y)] }).walkPages g q e ks
      | (none, s) => s.walkPages g q e ks

/-- R95: a transfer fails at a tier, or ends the task. -/
def State.xferFail (s : State) (g : Fin 512) (q : Fin 8) (x : Xfer) (st : Status) : State :=
  if st = stTier ∧ !x.stream then
    (s.modCore g fun c => { c with q := c.q.set q { c.q[q] with lastStatus := stTier } }).modXfer g q fun x => { x with phase := .failed }
  else s.coreFault g st x.bundle q.val

/-- The pieces before byte `n` of a transfer, whole lines only; `none` where it has no byte `n`. -/
def cutPieces : Nat → List (Nat × List Byte) → Option (List (Nat × List Byte))
  | _, [] => none
  | n, (o, bs) :: r => if n < bs.length then some [(o, bs.take (n / 64 * 64))] else (cutPieces (n - bs.length) r).map ((o, bs) :: ·)

/-- R95, R326, R328: an access that the vault or the host fails at a byte of the transfer cuts it at that line. -/
def cutMoved (fail : Option Nat) (m : Moved) : Moved :=
  match fail.bind fun n => cutPieces n m.1 with
  | some ps => (ps, some stTier)
  | none => m

/-- R169, R279, R331: the statuses under which a transfer writes nothing at all; the others leave the lines before the failing one. -/
def voids (st : Status) : Bool := [stDesc, stPageInvalid, stPageFault, stPoolFull, stParity].contains st

/-- R348: the message that carries a transfer to a peer. -/
def xferHead (g : Fin 512) (q : Fin 8) (x : Xfer) : MsgHead :=
  ⟨g, x.module, 1, x.vc, x.dst.core, x.dst.space, if x.sig then some (x.token, x.tokenCore) else none, some q, none, x.seq, x.bundle⟩

/-- R94: a transfer has moved its bytes; its snoop image is kept where a port computes on its queue. -/
def State.begun (s : State) (g : Fin 512) (q : Fin 8) (im : Option (Nat × List Byte)) : State := s.modXfer g q fun y => { y with phase := .moved, image := im }

/-- R157: an STT moves its tiles. -/
def State.moveStore (s : State) (g : Fin 512) (q : Fin 8) (x : Xfer) (fail : Option Nat) : State :=
  let (w, st) := s.storeTiles g x (if s.touchesTier g x then fail else none)
  match s.widenOver g w, st with
  | some d, _ => s.coreFault g stPoolFull x.bundle q.val d
  | none, some st => (if voids st then s else s.putWork g w).xferFail g q x st
  | none, none =>
    let s := s.putWork g w
    s.begun g q (if s.snooped g q then some (s.storeImage x) else none)

/-- R344, R348: what a transfer to a peer sends: its pieces as packets, or its token alone where no byte was read. -/
def Xfer.packets (x : Xfer) (ps : List (Nat × List Byte)) : List (Nat × List Byte) :=
  if ps.isEmpty then [(x.dst.off.toNat, [])] else (joinPieces ps).flatMap fun p => cutPackets (p.2.length + 1) (x.dst.off.toNat + p.1) p.2

/-- R93, R95, R344: a transfer to a peer sends what it has read. Where it fails so that its task ends, no token goes with it. -/
def State.moveFar (s : State) (g : Fin 512) (q : Fin 8) (x : Xfer) (m : Moved) : State :=
  let goesOn := m.2.all fun st => decide (st = stTier) && !x.stream
  let head := if goesOn then xferHead g q x else { xferHead g q x with token := none }
  let s := if m.1.isEmpty && !goesOn then s else s.sendMsg head (x.packets m.1)
  match m.2 with
  | some st => s.xferFail g q x st
  | none => s.begun g q (if s.snooped g q && decide (x.kind ≠ .narrow) then some (x.dst.off.toNat, ascending m.1) else none)

/-- R93, R331: a transfer to this module writes what it has read. -/
def State.moveNear (s : State) (g : Fin 512) (q : Fin 8) (x : Xfer) (m : Moved) : State :=
  if !s.destOk g x then s.xferFail g q x stAddr
  else
    let (s, st) := State.writePieces g x.dst m.1 s
    match st.or m.2 with
    | some st => s.xferFail g q x st
    | none => s.begun g q (if s.snooped g q && decide (x.kind ≠ .narrow) then some (x.dst.off.toNat, ascending m.1) else none)

/-- A transfer that has its grant and its pages moves its bytes. -/
def State.moveXfer (s : State) (g : Fin 512) (q : Fin 8) (x : Xfer) (fail : Option Nat) : State :=
  if x.store then s.moveStore g q x fail
  else
    let m := if s.touchesTier g x then cutMoved fail (s.xferBytes g x) else s.xferBytes g x
    if m.2.any voids then s.xferFail g q x (m.2.getD 0)
    else if s.xferFar x then s.moveFar g q x m
    else s.moveNear g q x m

/-- R268, R271: the reads for the pages that an external source or destination still misses. -/
def State.walkExt (s : State) (g : Fin 512) (q : Fin 8) (x : Xfer) : Except Status State :=
  match x.ext with
  | some e => s.walkPages g q e x.missingPages
  | none => .ok s

/-- R94, R518: a transfer whose pages are known moves its bytes once a current request is granted. -/
def State.moveReady (s : State) (g : Fin 512) (q : Fin 8) (fail : Option Nat) : State :=
  match (s.core g).q[q].xfers.head? with
  | none => s
  | some x =>
    if !x.missingPages.isEmpty then s
    else match s.requestStart g (.dma q) 1 with
      | (false, s1) => s1
      | (true, s1) => s1.moveXfer g q x fail

/-- R94, R518: the transfer at a queue's head starts, if it is of the kind that the command names. -/
def State.startXfer (s : State) (g : Fin 512) (q : Fin 8) (kind : XferKind) (fail : Option Nat) : State :=
  match (s.core g).q[q].xfers.head? with
  | none => s
  | some x =>
    if x.kind ≠ kind ∨ x.phase ≠ .queued ∨ !s.partHeld (s.partOfCore g) then s
    else if !s.xferCoresOk g x then s.coreFault g stAddr x.bundle q.val
    else match s.walkExt g q x with
      | .error st => s.coreFault g st x.bundle q.val
      | .ok s1 => s1.moveReady g q fail

/-- DMA_COPY (R93, R94). `fail` is the byte at which the vault or the host fails an access. -/
def execDmaCopy (g : Fin 512) (q : Fin 8) (fail : Option Nat) (s : State) : Host.Outcome State Fault Refusal := .next (s.startXfer g q .copy fail)
/-- DMA_TILE (R547, R157). -/
def execDmaTile (g : Fin 512) (q : Fin 8) (fail : Option Nat) (s : State) : Host.Outcome State Fault Refusal := .next (s.startXfer g q .tile fail)
/-- DMA_NARROW (R547). -/
def execDmaNarrow (g : Fin 512) (q : Fin 8) (fail : Option Nat) (s : State) : Host.Outcome State Fault Refusal := .next (s.startXfer g q .narrow fail)

/-! Completion (R94, R348, R500) -/

/-- R94, R348: whether the transfer at a queue's head has completed: every byte written, every packet acknowledged. -/
def Core.xferDone (c : Core) (q : Fin 8) (x : Xfer) : Bool :=
  (decide (x.phase = .failed) || decide (x.phase = .moved)) && !(c.msgs.any fun m => decide (m.queue = some q))

/-- DMA_COMPLETE (R94, R95): the head leaves its queue and its completion token is on its way; a remote transfer's token is signalled at the peer. -/
def execDmaComplete (g : Fin 512) (q : Fin 8) (s : State) : Host.Outcome State Fault Refusal :=
  .next (match (s.core g).q[q].xfers.head? with
    | none => s
    | some x =>
      if !(s.core g).xferDone q x || !s.partHeld (s.partOfCore g) then s
      else
        let s := s.modCore g fun c => { c with q := c.q.set q { c.q[q] with xfers := modifyAt (fun y => { y with started := s.now }) (c.q[q].xfers.drop 1) 0 } }
        let s := match x.image with
          | some (a, bs) => s.snoopDone (.dmaQueue g q) (BitVec.ofNat 64 a) bs x.token.val
          | none => s
        let s := if x.sig && !s.xferFar x then s.ownToken g (some q) x.tokenCore x.token x.bundle else s
        s.settle g)

/-- R328: the host accesses of the transfer at a queue's head fail; the token of a remote transfer that goes on is still signalled at the peer (R95). -/
def State.hostFail (s : State) (g : Fin 512) (q : Fin 8) (x : Xfer) : State :=
  if s.xferFar x && !x.stream && !x.store then s.moveFar g q x ([], some stTier) else s.xferFail g q x stTier

/-- R328: whether the transfer at a queue's head has host accesses outstanding: it has reached the head and has not moved. -/
def State.hostPending (s : State) (g : Fin 512) (x : Xfer) : Bool :=
  decide (x.phase = .queued) && s.touchesTier g x hostBase && s.partHeld (s.partOfCore g)

/-- HOST_ACCESS_TIMEOUT (R328): a host access of the transfer at a queue's head has had no completion for 10 ms since the transfer reached the head. -/
def execHostAccessTimeout (g : Fin 512) (q : Fin 8) (s : State) : Host.Outcome State Fault Refusal :=
  .next (match (s.core g).q[q].xfers.head? with
    | none => s
    | some x => if s.hostPending g x then (s.reach (x.started + msTicks 10)).hostFail g q x else s)

/-- R328: HP0 goes down: every outstanding host access of a transfer fails. -/
def State.failHostXfers (s : State) : State :=
  ((List.finRange 512).zip s.cores.toList).foldl (fun s y =>
    if y.2.q.toList.all fun q => q.xfers.isEmpty then s
    else (List.finRange 8).foldl (fun s q => match (s.core y.1).q[q].xfers.head? with
      | some x => if s.hostPending y.1 x then s.hostFail y.1 q x else s
      | none => s) s) s

end Sys2Proof.Machine
end

