-- ==== Sys2Proof/Machine/FabricEv.lean ====
section
/-! DEFINITION. What the links receive and what their timers do: the checks of a frame, sequencing, the seven packet types, control messages, key agreement and training (R340 to R373, R479, R480). -/

namespace Sys2Proof.Machine

/-! The checks of a frame (R341, R342, R345, R352, R354) -/

/-- R342: the MAC address of a link. -/
def State.linkMac (s : State) (l : Fin 128) : BitVec 48 :=
  BitVec.ofNat 48 (s.fab.macPrefix.toNat * 2 ^ 32 + s.fab.moduleId.toNat * 2 ^ 16 + l.val)

/-- R341, R352: steps 1 to 3, and that the sending link is on the receiver's rail (R343). -/
def State.frameOk (s : State) (l : Fin 128) (f : Frame) : Bool :=
  f.fcsOk && decide (f.etherType = s.fab.etherType) && !f.tagged && decide (f.dstMac = s.linkMac l) && f.crcOk
  && decide (f.srcLink.val % 16 = l.val % 16) && decide (s.fab.links[l].mode = .up)

/-- R352: a frame that fails a check is discarded and counted. -/
def State.discard (s : State) : State := s.modFab fun x => { x with discarded := x.discarded + 1 }

/-- R351: the counter with the given low 32 bits that lies nearest to the expected one. -/
def nearest (expected low : Nat) : Nat :=
  let base := expected / 2 ^ 32 * 2 ^ 32 + low
  if base + 2 ^ 31 < expected then base + 2 ^ 32
  else if expected + 2 ^ 31 < base ∧ 2 ^ 32 ≤ base then base - 2 ^ 32
  else base

/-- The pair of a frame, where it is known and set up (R352). -/
def State.framePair (s : State) (l : Fin 128) (f : Frame) : Option LinkPair := (s.findPair l f.srcMod (linkHearth f.srcLink)).filter (·.up)

/-- R354: the expected counter after a counter has been taken, and those taken ahead of it. -/
def takeCtr : Nat → Nat → List Nat → Nat × List Nat
  | 0, n, as => (n, as)
  | fuel + 1, n, as => if as.contains n then takeCtr fuel (n + 1) (as.filter (· ≠ n)) else (n, as)

/-- R354: a counter is taken; the eighth in-order packet is acknowledged at once. -/
def State.rxTake (s : State) (l : Fin 128) (p : LinkPair) (ctr : Nat) : State :=
  let inOrder := decide (ctr = p.rxNext)
  let x := takeCtr (p.rxAhead.length + 2) p.rxNext (ctr :: p.rxAhead)
  let s := s.modPair l p.peer p.far fun y =>
    { y with rxNext := x.1, rxAhead := x.2, rxCount := y.rxCount + inOrder.toNat, rxSince := y.rxSince.or (some s.now), lastUse := s.now }
  if 8 ≤ p.rxCount + inOrder.toNat then s.sendAck l p.peer p.far false 0 else s

/-- R354: a NAK of each missing counter that an arrival ahead of the expected one shows. -/
def State.nakMissing (s : State) (l : Fin 128) (p : LinkPair) (ctr : Nat) : State :=
  let top := (p.rxAhead.foldl max p.rxNext) + (if p.rxAhead.isEmpty then 0 else 1)
  ((List.range (ctr - top)).map (top + ·)).foldl (fun s m => s.sendAck l p.peer p.far true (m % 2 ^ 32)) s

/-- R354: an ACK or the acknowledgement that a version 2 packet carries. -/
def State.rxAcks (s : State) (l : Fin 128) (p : LinkPair) (f : Frame) : State :=
  s.ackBelow l p.peer p.far (nearest ((p.unacked.head?.map (·.ctr)).getD p.txNext) f.ackPsn.toNat)

/-- R347: the reason code of a NAK that the receiver answers. -/
def Nak.code : Nak → Nat
  | .busy => 1
  | .denied => 2
  | .ended => 3

/-- R352, R354, R359: a sequenced packet is checked in order and acted on. A refused one is answered by a NAK; one that finds no room is not taken. -/
def State.receive (s : State) (l : Fin 128) (f : Frame) (act : State → Except Nak State) : State :=
  if !s.frameOk l f then s.discard
  else match s.framePair l f with
    | none => s.discard
    | some p =>
      let ctr := nearest p.rxNext f.psn.toNat
      if ctr < p.rxNext ∨ ctr ∈ p.rxAhead then s.sendAck l p.peer p.far false 0
      else if p.version = 1 ∧ ctr ≠ p.rxNext then s.sendAck l p.peer p.far true (p.rxNext % 2 ^ 32)
      else if p.rxNext + 64 < ctr then s.discard
      else if !f.tagOk then s.pairLost l p.peer p.far true
      else
        let s := if p.version = 2 then s.rxAcks l p f else s
        let s := if p.rxNext < ctr then s.nakMissing l p ctr else s
        match act s with
        | .ok s => match s.findPair l p.peer p.far with
          | some p => s.rxTake l p ctr
          | none => s
        | .error n =>
          let s := s.sendAck l p.peer p.far true (ctr % 2 ^ 32 + n.code * 2 ^ 40)
          match n, s.findPair l p.peer p.far with
          | .busy, _ => s
          | _, some p => s.rxTake l p ctr
          | _, none => s

/-! Messages (R348, R498) -/

/-- R96, R98: a count that a packet brings to the cell of TOKEN's target core, in the partition of the job with its tag. -/
def State.frameToken (s : State) (f : Frame) (cnt : Nat) : Except Nak State := do
  let g := coreId f.tokenCore.toNat
  let _ ← s.tagCheck (s.partOfCore g) f.jobTag
  .ok (s.tokenAdd g ⟨f.tokenId.toNat % 64, by omega⟩ cnt f.epoch)

/-- R98, R348: a token that a completed message carries. -/
def State.msgToken (s : State) (f : Frame) : State :=
  match s.frameToken f 1 with
  | .ok s => s
  | .error _ => s

/-- R348: a packet of a message has been applied; with the last of them the message is complete. -/
def State.msgPart (s : State) (f : Frame) : State :=
  let mine (m : RxMsg) : Bool := decide (m.srcMod = f.srcMod) && decide (m.srcCore = f.srcCore) && decide (m.msgId = f.msgId)
  let stream := SnoopStream.fabric (coreId f.dstCore.toNat) f.jobTag
  let keep := !s.secureAt (coreId f.dstCore.toNat) && s.snoop.toList.any fun p => decide (p.stream = some stream)
  let old := (s.fab.rxMsgs.find? mine).getD ⟨f.srcMod, f.srcCore, f.msgId, 0, none, f.dstCore, f.jobTag, []⟩
  let m := { old with applied := old.applied + 1, total := if f.last then some (f.pktIndex.toNat + 1) else old.total,
                      parts := if keep then old.parts ++ [(f.pktIndex.toNat, f.dstAddr, f.payload)] else old.parts }
  let rest := s.fab.rxMsgs.filter fun x => !mine x
  if m.total = some m.applied then
    let s := s.modFab fun x => { x with rxMsgs := rest }
    let s := if m.parts.length = m.applied then
        let at_ (i : Nat) := m.parts.find? fun x => decide (x.1 = i)
        let bs := (List.range m.applied).flatMap fun i => ((at_ i).map (·.2.2)).getD []
        let a := ((at_ 0).map (·.2.1.toNat)).getD 0
        s.snoopDone stream (BitVec.ofNat 64 (a + f.srcMod.toNat * 2 ^ 48)) bs f.msgId.toNat
      else s
    if f.tv then s.msgToken f else s
  else s.modFab fun x => { x with rxMsgs := rest ++ [m] }

/-- What a WRITE or REDUCE packet asks for: bytes at its place, a billet run for a combine stage, FP32 values to add, or nothing where its run cannot be read. -/
inductive PktData where
  | bytes (bs : List Byte) | billets (r : BilletRun) | fp32 (vs : List W32) | unreadable
  deriving DecidableEq, Repr

/-- R347, R71: what a data packet carries. -/
def frameData (f : Frame) : PktData :=
  if f.type = 1 then .bytes f.payload
  else match parseRun f.payload with
    | none => .unreadable
    | some r => if r.kind = 1 then .billets r else .fp32 (r.elems.map fun e => e.setWidth 32)

/-- R356: whether a data packet may act: the tag of the job at its place, and the place itself. -/
def State.dataCheck (s : State) (f : Frame) : Except Nak Unit :=
  match frameData f with
  | .bytes bs => s.placeCheck f.dstCore f.dstSpace f.dstAddr.toNat bs.length f.jobTag
  | .fp32 vs => s.placeCheck f.dstCore f.dstSpace f.dstAddr.toNat (4 * vs.length) f.jobTag
  | _ => s.placeCheck f.dstCore 1 0 0 f.jobTag

/-- R347, R363: a WRITE or REDUCE packet is applied. A run whose header holds a reserved encoding, or names more than the packet holds, is taken without effect (DESIGN CHOICE, log 52: R71, R347 and R10 give it no status). -/
def State.applyData (s : State) (f : Frame) : Except Nak State := do
  s.dataCheck f
  match frameData f with
  | .bytes bs =>
    let s ← s.placeIn f.dstCore f.dstSpace f.dstAddr.toNat bs f.jobTag
    .ok ((s.countBytes f.dstCore f.dstSpace f.dstAddr.toNat bs.length f.srcMod f.srcCore).msgPart f)
  | .billets r =>
    let s ← s.stageIn f.dstCore r (some (f.srcMod, f.srcCore)) f.jobTag
    .ok (s.msgPart f)
  | .fp32 vs =>
    let s ← s.addIn f.dstCore f.dstSpace f.dstAddr.toNat vs f.jobTag
    .ok ((s.countElems (coreId f.dstCore.toNat) 1 vs.length f.srcMod f.srcCore).msgPart f)
  | .unreadable => .ok s

/-- R345: bytes of a received frame. -/
def frameSize4 (f : Frame) : Nat := 70 + f.payload.length

/-- R359: packets that wait in a link's receive queue of a VC. -/
def State.rxWaiting (s : State) (l : Fin 128) (vc : BitVec 3) : List Frame :=
  (s.fab.rxQueue.filter fun x => decide (x.1 = l) && decide (x.2.vc = vc)).map (·.2)

/-- R73, R356, R359: a data packet is applied, or waits in its VC's 32 KiB queue while a combine stage is full; one that may not act does not wait. -/
def State.takeData (s : State) (l : Fin 128) (f : Frame) : Except Nak State := do
  s.dataCheck f
  let wait : Except Nak State :=
    if ((s.rxWaiting l f.vc).map frameSize4).sum + frameSize4 f ≤ 32768 then .ok (s.modFab fun x => { x with rxQueue := x.rxQueue ++ [(l, f)] }) else .error .busy
  if !(s.rxWaiting l f.vc).isEmpty then wait
  else match s.applyData f with
    | .error .busy => wait
    | y => y

/-- R73, R359: what waits in the receive queues is applied as far as it can be; a packet refused by then is dropped and answered by a NAK (R356). -/
def State.pumpRx : State → List (Fin 128 × Frame) → List (Fin 128 × BitVec 3) → State
  | s, [], _ => s
  | s, (l, f) :: r, held =>
    if held.contains (l, f.vc) then (s.modFab fun x => { x with rxQueue := x.rxQueue ++ [(l, f)] }).pumpRx r held
    else match s.applyData f with
      | .ok s => s.pumpRx r held
      | .error .busy => (s.modFab fun x => { x with rxQueue := x.rxQueue ++ [(l, f)] }).pumpRx r ((l, f.vc) :: held)
      | .error n => (s.sendAck l f.srcMod (linkHearth f.srcLink) true (f.psn.toNat + n.code * 2 ^ 40)).pumpRx r held

/-- What a freed place in a combine stage lets move: queued packets, and the waiting runs of collectives. -/
def State.stageFreed (s : State) : State :=
  let q := s.fab.rxQueue
  let s := (s.modFab fun x => { x with rxQueue := [] }).pumpRx q []
  (List.finRange 512).foldl (fun s g => (s.core g).colls.foldl (fun s c => s.collRetry g c) s) s

/-- WRITE_RECEIVE (R347, R356). -/
def execWriteReceive (l : Fin 128) (f : Frame) (s : State) : Host.Outcome State Fault Refusal :=
  .next (if f.type = 1 then s.receive l f fun s => s.takeData l f else s)

/-- REDUCE_RECEIVE (R347, R363). -/
def execReduceReceive (l : Fin 128) (f : Frame) (s : State) : Host.Outcome State Fault Refusal :=
  .next (if f.type = 2 then s.receive l f fun s => s.takeData l f else s)

/-- SIGNAL_PACKET_RECEIVE (R347, R96, R98, R356). -/
def execSignalPacketReceive (l : Fin 128) (f : Frame) (s : State) : Host.Outcome State Fault Refusal :=
  .next (if f.type = 3 then s.receive l f fun s => do
    s.placeCheck f.dstCore 1 0 0 f.jobTag
    s.frameToken f (f.dstAddr.toNat % 256)
  else s)

/-! ACK and NAK (R351, R354, R356, R359) -/

/-- R352: an unsequenced packet of a known pair, past its checks. -/
def State.receiveAck (s : State) (l : Fin 128) (f : Frame) (act : State → LinkPair → State) : State :=
  if !s.frameOk l f then s.discard
  else match s.framePair l f with
    | none => s.discard
    | some p =>
      if !f.tagOk then s.pairLost l p.peer p.far true
      else act (s.modPair l p.peer p.far fun y => { y with rxAckSeq := nearest (2 ^ 63 + y.rxAckSeq) f.psn.toNat - 2 ^ 63 + 1 }) p

/-- ACK_RECEIVE (R354). -/
def execAckReceive (l : Fin 128) (f : Frame) (s : State) : Host.Outcome State Fault Refusal :=
  .next (if f.type = 4 then s.receiveAck l f fun s p => s.rxAcks l p f else s)

/-- A packet leaves a pair's list without having been acknowledged. -/
def State.dropPkt (s : State) (l : Fin 128) (p : LinkPair) (ctr : Nat) : State :=
  ((s.modPair l p.peer p.far fun y => { y with unacked := y.unacked.filter fun k => decide (k.ctr ≠ ctr) }).flushLink l).pumpStalled

/-- R354, R355: packets of a pair are sent again; one more resend of the oldest after eight without progress takes the pair down. -/
def State.resendFrom (s : State) (l : Fin 128) (p : LinkPair) (ks : List TxPkt) : State :=
  let oldest := decide ((ks.head?.map (·.ctr)) = (p.unacked.find? (·.left)).map (·.ctr))
  if oldest && decide (8 ≤ p.resends) then s.pairLost l p.peer p.far false
  else (s.modPair l p.peer p.far fun y => { y with resends := y.resends + oldest.toNat }).resend l p.peer p.far ks

/-- NAK_RECEIVE (R354, R356, R359): SEQUENCE resends, BUSY delays, DENIED ends the sending task, ENDED stops resending. -/
def execNakReceive (l : Fin 128) (f : Frame) (s : State) : Host.Outcome State Fault Refusal :=
  .next (if f.type = 5 then s.receiveAck l f fun s p =>
    let s := if p.version = 2 then s.rxAcks l p f else s
    let ctr := nearest ((p.unacked.head?.map (·.ctr)).getD p.txNext) (f.dstAddr.toNat % 2 ^ 32)
    match (s.findPair l p.peer p.far).bind fun y => (y.unacked.find? fun k => k.left && decide (k.ctr = ctr)).map fun k => (y, k) with
    | none => s
    | some (y, k) =>
      match f.dstAddr.toNat / 2 ^ 40 with
      | 0 => s.resendFrom l y (if p.version = 1 then y.unacked.filter fun x => x.left && decide (ctr ≤ x.ctr) else [k])
      | 1 => s.modPair l p.peer p.far fun y => { y with unacked := y.unacked.map fun x => if x.ctr = ctr then { x with busyAt := some s.now } else x }
      | 2 =>
        let g := coreId k.srcCore.toNat
        let s := s.dropPkt l p ctr
        if s.jobTag g = k.jobTag ∧ s.partHeld (s.partOfCore g) then s.coreFault g stAddr k.bundle ((k.queue.map (·.val)).getD 0xFF) else s
      | 3 => s.dropPkt l p ctr
      | _ => s
  else s)

/-! Control messages (R350, R362, R366, R368, R370) -/

/-- R350: the kind of a control message. -/
def ctrlKind (f : Frame) : Nat := if f.type = 6 then leAt f.payload 0 1 else 0

/-- The partition whose task has a fabric tag. -/
def State.partOfTag (s : State) (tag : BitVec 16) : Option (Fin 8) :=
  (List.finRange 8).find? fun p => (s.parts[p].task.map fun t => t.job.tag) = some tag

/-- R362: whether the partition of a core holds the task with a tag, whose cores take or will take collectives. -/
def State.holdsTag (s : State) (g : Fin 512) (tag : BitVec 16) : Bool := (s.taskOf g).any fun t => decide (t.2.job.tag = tag) && !t.2.over s.now

/-- RTS_RECEIVE (R362, R364). -/
def execRtsReceive (l : Fin 128) (f : Frame) (s : State) : Host.Outcome State Fault Refusal :=
  .next (if ctrlKind f = 1 then s.receive l f fun s =>
    let g := coreId f.dstCore.toNat
    if s.holdsTag g f.jobTag then
      match s.rtsArrive g ⟨BitVec.ofNat 32 (leAt f.payload 4 4), BitVec.ofNat 32 (leAt f.payload 8 4), leAt f.payload 12 4, BitVec.ofNat 32 (leAt f.payload 16 4), f.srcMod, f.srcCore⟩ with
      | some s => .ok s
      | none => .error .busy
    else .ok s
  else s)

/-- CTS_RECEIVE (R362). -/
def execCtsReceive (l : Fin 128) (f : Frame) (s : State) : Host.Outcome State Fault Refusal :=
  .next (if ctrlKind f = 2 then s.receive l f fun s =>
    let g := coreId f.dstCore.toNat
    .ok (if s.holdsTag g f.jobTag then
      s.ctsArrive g (BitVec.ofNat 32 (leAt f.payload 4 4)) (BitVec.ofNat 32 (leAt f.payload 8 4)) (leAt f.payload 12 4) (leAt f.payload 16 6) (BitVec.ofNat 3 (leAt f.payload 22 1))
    else s)
  else s)

/-- R318, R366: the WAIT limits of a partition's cores restart, and the timers of the collectives that pass a test. -/
def State.restartLimits (s : State) (p : Fin 8) (t : Coll → Bool) : State :=
  s.modCores (s.members p) fun _ c =>
    { c with wait := c.wait.map fun w => { w with since := s.now }, colls := c.colls.map fun x => if t x then { x with since := s.now } else x }

/-- DELAY_RECEIVE (R366, R101). -/
def execDelayReceive (l : Fin 128) (f : Frame) (s : State) : Host.Outcome State Fault Refusal :=
  .next (if ctrlKind f = 4 then s.receive l f fun s =>
    match s.partOfTag f.jobTag with
    | none => .ok s
    | some p =>
      let groups := (List.range (min 8 (leAt f.payload 1 1))).map fun i => BitVec.ofNat 32 (leAt f.payload (4 + 4 * i) 4)
      .ok (s.restartLimits p fun c => groups.contains (cGroup c.desc))
  else s)

/-- BARRIER_RECEIVE (R370, R394): a round's message is kept for its barrier, or for the start barrier of a job still queued. -/
def execBarrierReceive (l : Fin 128) (f : Frame) (s : State) : Host.Outcome State Fault Refusal :=
  .next (if ctrlKind f = 5 then s.receive l f fun s =>
    let r := (f.jobTag, BitVec.ofNat 16 (leAt f.payload 4 2), BitVec.ofNat 16 (leAt f.payload 6 2), BitVec.ofNat 8 (leAt f.payload 8 1), f.srcMod)
    let queued := (List.finRange 8).find? fun p => (s.parts[p].lc ++ s.parts[p].be).any fun j => decide (j.tag = f.jobTag)
    match (s.partOfTag f.jobTag).or queued with
    | none => .ok s
    | some p => .ok ((s.modPart p fun x => { x with rounds := x.rounds ++ [r] }).pumpRounds p)
  else s)

/-- END_NOTICE_RECEIVE (R368, R394). -/
def execEndNoticeReceive (l : Fin 128) (f : Frame) (s : State) : Host.Outcome State Fault Refusal :=
  .next (if ctrlKind f = 6 then s.receive l f fun s =>
    let st : Status := BitVec.ofNat 16 (leAt f.payload 4 2)
    let m := leAt f.payload 6 2
    let c := leAt f.payload 8 2
    match s.partOfTag f.jobTag with
    | some p => .ok (s.endTask p { s.unitEnding st 0 0 0 with remote := some (BitVec.ofNat 16 m, BitVec.ofNat 16 c), detail := BitVec.ofNat 192 (m + c * 2 ^ 16) })
    | none =>
      match (s.parts.toList.flatMap fun p => p.lc ++ p.be).find? fun j => decide (j.tag = f.jobTag) with
      | some j => .ok (s.endQueued j st (BitVec.ofNat 192 (m + c * 2 ^ 16)))
      | none => .ok s
  else s)

/-! Key agreement (R479, R480) -/

/-- R479: the agreement with a peer ends without a secret; the pairs that wait for it fail their messages with LINK_AUTH_FAIL. -/
def State.agreeFail (s : State) (peer : BitVec 16) : State :=
  let ps := s.fab.pairs.filter fun p => decide (p.peer = peer) && !p.up
  let s := ps.foldl (fun s p => s.pairDown p.link peer p.far true) s
  s.putSecret ⟨peer, false, true, false, s.now, 0, [], 0, 0⟩

/-- R353, R479: a secret is agreed: the peer's pairs may be set up, and those in use send their nonces. -/
def State.agreed (s : State) (x : Secret) : State :=
  let s := (s.putSecret { x with agreed := true }).modFab fun f => { f with pairs := f.pairs.map fun p => if p.peer = x.peer then { p with down := false } else p }
  (s.fab.pairs.filter fun p => decide (p.peer = x.peer)).foldl (fun s p => s.sendPair p.link p.peer p.far) s

/-- R479: a SETUP message that passed the checks of a frame: its content. -/
def State.setup (s : State) (l : Fin 128) (f : Frame) (kind : Nat) (act : List Byte → State) : State :=
  if ctrlKind f ≠ kind then s else if !s.frameOk l f then s.discard else act (f.payload.drop 4)

/-- R467: the identity public key in a certificate. -/
def certKey (cert : List Byte) : List Byte := (cert.drop 24).take 1312

/-- R383: a digest of bytes, as the 32 bytes of a message. -/
def digestOf (bs : List Byte) : List Byte := digestBytes (Config.sha3 bs)

/-- R479: the module-pair secret. -/
def pairSecret (ss : List Byte) (t : Digest) : Digest := Config.sha3 (ascii "BROAMET-PAIR" ++ ss ++ digestBytes t)

/-- HELLO (R479): the responder verifies the certificate and answers ACCEPT; the lower-id module discards a HELLO that crosses its own. -/
def execHello (l : Fin 128) (f : Frame) (s : State) : Host.Outcome State Fault Refusal :=
  .next (s.setup l f 0x10 fun bs =>
    let crossed := (s.secretOf f.srcMod).any fun x => x.initiator && !x.agreed && !x.failed
    if crossed ∧ s.fab.moduleId.toNat < f.srcMod.toNat then s
    else if bs.length ≠ 4972 ∨ !Config.certificateOk (bs.take 3756) then s.agreeFail f.srcMod
    else
      let (r, s) := s.draw
      let (n, s) := s.draw
      let (h, s) := s.draw
      let (ct, ss) := Config.kemEncap ((bs.drop 3756).take 1184) r
      let acc := certificate ++ sized 1088 ct ++ toLE n.toNat 32
      let t := Config.sha3 (bs ++ acc)
      let sig := sized 2420 (Config.mldsaSign (ascii "BROAMET-LINK") (digestBytes t) h)
      (s.putSecret ⟨f.srcMod, false, false, false, s.now, r, bs, t, pairSecret ss t⟩).sendSetup l f.srcMod (linkHearth f.srcLink) 0x11 (acc ++ sig))

/-- ACCEPT (R479): the initiator verifies it and answers FINISH. -/
def execAccept (l : Fin 128) (f : Frame) (s : State) : Host.Outcome State Fault Refusal :=
  .next (s.setup l f 0x11 fun bs =>
    match (s.secretOf f.srcMod).filter fun x => x.initiator && !x.agreed && !x.failed with
    | none => s
    | some x =>
      let acc := bs.take 4876
      let t := Config.sha3 (x.hello ++ acc)
      if bs.length ≠ 7296 ∨ !Config.certificateOk (bs.take 3756) ∨ !Config.mldsaVerify (certKey bs) (ascii "BROAMET-LINK") (digestBytes t) (bs.drop 4876) then s.agreeFail f.srcMod
      else
        let (h, s) := s.draw
        let s := s.sendSetup l f.srcMod (linkHearth f.srcLink) 0x12 (sized 2420 (Config.mldsaSign (ascii "BROAMET-LINK") (digestBytes t) h))
        s.agreed { x with transcript := t, secret := pairSecret (Config.kemDecap x.draw ((bs.drop 3756).take 1088)) t })

/-- FINISH (R479): the responder verifies it, and the secret is agreed. -/
def execFinish (l : Fin 128) (f : Frame) (s : State) : Host.Outcome State Fault Refusal :=
  .next (s.setup l f 0x12 fun bs =>
    match (s.secretOf f.srcMod).filter fun x => !x.initiator && !x.agreed && !x.failed with
    | none => s
    | some x =>
      if Config.mldsaVerify (certKey x.hello) (ascii "BROAMET-LINK") (digestBytes x.transcript) bs then s.agreed x else s.agreeFail f.srcMod)

/-- PAIR (R480, R373): the peer's nonce and its offer; this module's nonce answers it. -/
def execPair (l : Fin 128) (f : Frame) (s : State) : Host.Outcome State Fault Refusal :=
  .next (s.setup l f 0x13 fun bs =>
    let far := linkHearth f.srcLink
    if !(s.secretOf f.srcMod).any (·.agreed) ∨ bs.length ≠ 16 then s
    else match s.ensurePair l f.srcMod far with
      | none => s
      | some s =>
        let offer := min f.ver.toNat s.fab.protoMax.toNat
        let s := s.modPair l f.srcMod far fun p =>
          { p with up := false, down := false, nonce := if p.up then none else p.nonce, peerNonce := some (BitVec.ofNat 128 (leNat bs)), version := BitVec.ofNat 2 offer, noVersion := decide (offer = 0) }
        s.sendPair l f.srcMod far)

/-- KEY_AGREEMENT_TIMEOUT (R479): a step has not arrived within 5 ms. -/
def execKeyAgreementTimeout (peer : BitVec 16) (s : State) : Host.Outcome State Fault Refusal :=
  .next (match (s.secretOf peer).filter fun x => !x.agreed && !x.failed with
    | none => s
    | some x => (s.reach (x.since + msTicks 5)).agreeFail peer)

/-- R480: a direction key or salt from the secret, the nonces of the lower and the higher id, and the direction byte. -/
def pairDigest (label : String) (secret : Digest) (lo hi : BitVec 128) (d : Nat) : Digest :=
  Config.sha3 (ascii label ++ digestBytes secret ++ toLE lo.toNat 16 ++ toLE hi.toNat 16 ++ toLE d 1)

/-- R353, R480: a pair with fresh keys for both directions. -/
def LinkPair.keyed (p : LinkPair) (own : BitVec 16) (secret : Digest) : LinkPair :=
  let low := decide (own.toNat < p.peer.toNat)
  let mine := p.nonce.getD 0
  let far := p.peerNonce.getD 0
  let lo := if low then mine else far
  let hi := if low then far else mine
  let tx := if low then 0 else 1
  let rx := 1 - tx
  let salt (d : Nat) : BitVec 32 := (pairDigest "BROAMET-SALT" secret lo hi d).setWidth 32
  { p with txKey := pairDigest "BROAMET-LINK" secret lo hi tx, txSalt := salt tx, rxKey := pairDigest "BROAMET-LINK" secret lo hi rx, rxSalt := salt rx }

/-- R353: a pair that is set up: its counters at 0, what waits on it renumbered in order. -/
def LinkPair.opened (p : LinkPair) (now : Nat) : LinkPair :=
  { p with up := true, down := false, txNext := p.unacked.length, ackSeq := 0,
           unacked := p.unacked.mapIdx (fun i k => { k with ctr := i, left := false, busyAt := none }),
           resends := 0, progressAt := now, rxNext := 0, rxAhead := [], rxCount := 0, rxSince := none, rxAckSeq := 0, lastUse := now }

/-- LINK_PAIR_SETUP (R353, R373, R480): both nonces are known: fresh keys, counters at 0, and what waits is sent. -/
def execLinkPairSetup (l : Fin 128) (peer : BitVec 16) (far : Fin 8) (s : State) : Host.Outcome State Fault Refusal :=
  .next (match s.findPair l peer far with
    | none => s
    | some p =>
      if p.up || p.nonce.isNone || p.peerNonce.isNone || !(s.secretOf peer).any (·.agreed) || decide (s.fab.links[l].mode ≠ .up) then s
      else if p.noVersion then
        -- R373: the pair stays down, and what waits on it ends its task.
        ((s.modPair l peer far fun p => { p with unacked := [] }).failPkts p.unacked stLinkProto).pumpStalled
      else
        let secret := ((s.secretOf peer).map fun x => x.secret).getD 0
        (s.modPair l peer far fun p => (p.keyed s.fab.moduleId secret).opened s.now).flushLink l)

/-! Timers (R354, R355, R359) -/

/-- ACK_TIMER (R354): 1 µs after the oldest unacknowledged arrival. -/
def execAckTimer (l : Fin 128) (peer : BitVec 16) (far : Fin 8) (s : State) : Host.Outcome State Fault Refusal :=
  .next (match (s.findPair l peer far).bind fun p => if p.up then p.rxSince else none with
    | none => s
    | some t => (s.reach (t + usTicks 1)).sendAck l peer far false 0)

/-- RESEND_TIMER (R354, R355): 16 µs without acknowledgement progress: the oldest packet again, or after eight resends the pair goes down. -/
def execResendTimer (l : Fin 128) (peer : BitVec 16) (far : Fin 8) (s : State) : Host.Outcome State Fault Refusal :=
  .next (match (s.findPair l peer far).filter (·.up) with
    | none => s
    | some p => match p.unacked.find? (·.left) with
      | none => s
      | some k =>
        let s := s.reach (p.progressAt + usTicks 16)
        (s.modPair l peer far fun y => { y with progressAt := s.now }).resendFrom l p [k])

/-- BUSY_RESEND_TIMER (R359): 2 µs after a NAK BUSY the packet goes again, outside the count of eight. -/
def execBusyResendTimer (l : Fin 128) (peer : BitVec 16) (far : Fin 8) (s : State) : Host.Outcome State Fault Refusal :=
  .next (match (s.findPair l peer far).filter (·.up) with
    | none => s
    | some p => match p.unacked.find? fun k => k.busyAt.isSome with
      | none => s
      | some k =>
        let s := s.reach (k.busyAt.getD 0 + usTicks 2)
        (s.modPair l peer far fun y => { y with unacked := y.unacked.map fun x => if x.ctr = k.ctr then { x with busyAt := none } else x }).resend l peer far [k])

/-! Training (R340, R355, R379) -/

/-- R340: the modes that a value of MODES enables, fastest first. -/
def enabledModes (modes : BitVec 3) : List (BitVec 2) := [3, 2, 1].filter fun m => modes.getLsbD (m.toNat - 1)

/-- A change of a link. -/
def State.modLink (s : State) (l : Fin 128) (f : Link → Link) : State := s.modFab fun x => { x with links := x.links.set l (f x.links[l]) }

/-- R340, R376: a link that is down begins to train, in the fastest mode that FAB_CTL.MODES enables now; a later write acts at its next training. -/
def State.trainLink (s : State) (l : Fin 128) : State :=
  s.modLink l fun k => { k with mode := .training, speed := 0, tryMode := (enabledModes s.fab.modes).headD 0, modes := s.fab.modes, since := s.now }

/-- LINK_UP (R340): the mode being tried has held for 10 ms. -/
def execLinkUp (l : Fin 128) (s : State) : Host.Outcome State Fault Refusal :=
  .next (let k := s.fab.links[l]
    if k.mode = .training ∧ k.tryMode ≠ 0 then
      let s := (s.reach (k.since + msTicks 10)).modLink l fun k => { k with mode := .up, speed := k.tryMode }
      let s := s.modFab fun x => { x with pairs := x.pairs.map fun p => if p.link = l ∧ (s.secretOf p.peer).any (·.agreed) then { p with down := false } else p }
      s.log ⟨0, 5, 5, l.val, 0, 0, 0, k.tryMode.toNat * 2 ^ 16⟩
    else s)

/-- LINK_MODE_TIMEOUT (R340): the next mode is tried after 250 ms; after the last, training waits. -/
def execLinkModeTimeout (l : Fin 128) (s : State) : Host.Outcome State Fault Refusal :=
  .next (let k := s.fab.links[l]
    if k.mode = .training ∧ k.tryMode ≠ 0 then
      let s := s.reach (k.since + msTicks 250)
      s.modLink l fun k => { k with tryMode := (((enabledModes k.modes).filter fun m => decide (m.toNat < k.tryMode.toNat)).headD 0), since := s.now }
    else s)

/-- LINK_TRAIN_RETRY (R340): training starts again 1 s after no mode succeeded. -/
def execLinkTrainRetry (l : Fin 128) (s : State) : Host.Outcome State Fault Refusal :=
  .next (let k := s.fab.links[l]
    if k.mode = .training ∧ k.tryMode = 0 then (s.reach (k.since + msTicks 1000)).trainLink l else s)

/-- LINK_DOWN_DETECT (R340, R355): a link that was up goes down with its pairs, and trains again. -/
def execLinkDownDetect (l : Fin 128) (s : State) : Host.Outcome State Fault Refusal :=
  .next (if s.fab.links[l].mode = .up then (s.linkDown l .down).trainLink l else s)

/-! Billet runs (R72, R73, R85) -/

/-- R85: whether a run's epoch is earlier than the core's. -/
def runStale (r : BilletRun) (epoch : BitVec 16) : Bool := (r.epoch - epoch).slt 0

/-- R71: a run that the combine stage can hold. -/
def runOk (r : BilletRun) : Bool := decide (r.kind = 1) && !r.elems.isEmpty && decide (r.first.toNat + r.elems.length ≤ 8192)

/-- BILLET_RUN_ARRIVE (R73, R85): a run of a core of this module enters the combine stage; while the stage is full the sender stalls. -/
def execBilletRunArrive (g : Fin 512) (r : BilletRun) (s : State) : Host.Outcome State Fault Refusal :=
  .next (let c := s.core g
    if !s.live g || !runOk r then s
    else if runStale r c.epoch then s.coreFault g stAnchor c.pc
    else if c.stageRoom r then s.modCore g fun c => { c with stage := c.stage ++ [⟨r, none, false⟩] } else s)

/-- R85, log 16: the slot that is open for a run's group in its epoch. -/
def Core.runSlot (c : Core) (r : BilletRun) : Option (Fin 5 × SlotTag) :=
  (List.finRange 5).findSome? fun i => match c.slots[i].tag with
    | some t => if runGroup t r ∧ t.epoch = r.epoch then some (i, t) else none
    | none => none

/-- BILLET_RUN_COMBINE (R72, R73, R85): run `n` of the stage is checked against its open slot and added; it waits while no slot is open. -/
def execBilletRunCombine (g : Fin 512) (n : Nat) (s : State) : Host.Outcome State Fault Refusal :=
  .next (match (s.core g).stage[n]? with
    | none => s
    | some ⟨r, src, bad⟩ =>
      let c := s.core g
      if !s.live g then s
      else if runStale r c.epoch then s.coreFault g stAnchor c.pc
      else match c.runSlot r with
        | none => s
        | some (i, t) =>
          if !runMatches t r then s.coreFault g stAnchor c.pc
          else if bad || (c.slots[i]).parityHit r.first.toNat r.elems.length then s.coreFault g stParity c.pc
          else
            let s := s.setCore g { c with stage := c.stage.eraseIdx n, slots := c.slots.set i ((c.slots[i]).addRun r.first.toNat r.elems) }
            let s := match src with
              | some m => s.countElems g 2 r.elems.length m.1 m.2
              | none => s
            s.stageFreed)

end Sys2Proof.Machine
end

