-- ==== Sys2Proof/Machine/Jobs.lean ====
section
/-! DEFINITION. Jobs on partitions: starting and loading one, its start barrier, its cores' start, its end with what it leaves behind, and the queues (R78, R110, R353, R368, R384, R389 to R399, R478, R533, R537 to R539). -/

namespace Sys2Proof.Machine

/-! Held registers (R17, R336, R374, R376, R533) -/

/-- R336: whether a window of GiB is one that MEM_HDM_CTL takes: the pair is taken or left whole. -/
def hdmOk (v : W32) : Bool := decide (bits v 27 16 ≤ 2047) && decide (bits v 27 16 + bits v 11 0 ≤ 2048)

/-- R336: a window that takes effect. -/
def State.setHdm (s : State) (v : W32) : State :=
  if hdmOk v then { s with mem := { s.mem with hdmBase := BitVec.ofNat 12 (bits v 27 16), hdmSize := BitVec.ofNat 12 (bits v 11 0) } } else s

/-- R376, R10: the fields of FAB_CTL, each unless its value is reserved. -/
def State.setFabCtl (s : State) (v : W32) : State :=
  s.modFab fun x => { x with
    stripe := if bits v 15 8 = 0 then x.stripe else BitVec.ofNat 8 (bits v 15 8)
    protoMax := if bits v 5 4 = 1 ∨ bits v 5 4 = 2 then BitVec.ofNat 2 (bits v 5 4) else x.protoMax
    modes := if bits v 2 0 = 0 then x.modes else BitVec.ofNat 3 (bits v 2 0) }

/-- R533: a held write of the bridge control. -/
def State.applyBridge (s : State) : State :=
  match s.glb.bridgeHeld with
  | some v => { s.setBridge v with glb := { (s.setBridge v).glb with bridgeHeld := none } }
  | none => s

/-- R533: a held write of the host-managed window. -/
def State.applyHdm (s : State) : State :=
  match s.mem.hdmHeld with
  | some v => { s.setHdm v with mem := { (s.setHdm v).mem with hdmHeld := none } }
  | none => s

/-- R533: a held write of the module id. -/
def State.applyModuleId (s : State) : State :=
  match s.fab.idHeld with
  | some v => (s.setModuleId v).modFab fun x => { x with idHeld := none }
  | none => s

/-- R533: a held write of the fabric's control register. -/
def State.applyFabCtl (s : State) : State :=
  match s.fab.ctlHeld with
  | some v => (s.setFabCtl v).modFab fun x => { x with ctlHeld := none }
  | none => s

/-- R533: held values take effect where no partition holds a job. -/
def State.applyHeld (s : State) : State :=
  if s.jobHeld then s else s.applyBridge.applyHdm.applyModuleId.applyFabCtl

/-! The end of a task (R110, R368, R477, R478, R537, R539) -/

/-- R478: the outputs of a secure job sealed and written; whether every write reached the host. -/
def State.packageOutputs (s : State) (x : Session) : State × Bool :=
  let outs := x.entries.filter fun e => decide (e.kind = 3)
  (outs.foldl (fun s e => s.hostWrite e.host (sealOutput x e (s.mem.read e.addr e.len))) s, outs.isEmpty || s.hostUp)

/-- R110: what an abandoned core keeps. -/
def Core.abandon (c : Core) (stop : Bool) : Core :=
  { c with
    mode := if stop then .stopped else .idle
    member := false
    q := c.q.map fun (x : DmaQueue) => { x with xfers := [] }
    tok := Vector.replicate 64 ⟨0, 0⟩
    slots := Vector.replicate 5 Slot.empty
    stage := []
    inflight := []
    bundle := Bundle.empty
    mq := []
    wait := none
    arrival := none
    claims := []
    colls := []
    rts := []
    msgs := []
    ctrls := c.ctrls.filter fun x => isEndNotice x.2
    pastEnd := false }

/-- R110: what a task's cores hold, and the token messages that they sent. -/
def State.abandonCores (s : State) (p : Fin 8) (stop : Bool) : State :=
  { s.modCores (s.partCores p) (fun _ c => c.abandon stop) with
    mem := { s.mem with replays := s.mem.replays.filter fun r => match r.reader with | .core g => !s.inPart p (hearthOf g) | _ => true }
    tokens := s.tokens.filter fun m => !s.inPart p (hearthOf m.src) }

/-- R110: what a hearth's walker and current allocator hold of a partition's cores. -/
def State.abandonHearths (s : State) (p : Fin 8) : State :=
  (List.finRange 8).foldl (fun s h => s.modHearth h fun x => { x with
    walks := (x.walks.map fun w => { w with who := w.who.filter fun y => !s.inPart p (hearthOf y.1) }).filter fun w => !w.who.isEmpty
    drawReqs := x.drawReqs.filter fun r => !s.inPart p (hearthOf r.core) }) s

/-- R110: what a task's units hold of a partition is abandoned. -/
def State.abandon (s : State) (p : Fin 8) (tag : BitVec 16) (stop : Bool) : State :=
  (((s.abandonCores p stop).abandonHearths p).modPart p fun x => { x with rounds := x.rounds.filter fun r => decide (r.1 ≠ tag) }).modFab
    fun x => { x with rxMsgs := x.rxMsgs.filter fun m => !(decide (m.tag = tag) && s.inPart p (hearthOf (coreId m.dst.toNat))) }

/-- R368: an END notice to every other module of a job; it names the module and core where the end began. -/
def State.sendEnd (s : State) (p : Fin 8) (e : Ending) : State :=
  let origin := match e.remote with
    | some (m, c) => (m.toNat, c.toNat)
    | none => (s.fab.moduleId.toNat, match e.core with | some g => g.val | none => 0xFFFF)
  let bs := ctrlBytes 6 0 (toLE e.status.toNat 2 ++ toLE origin.1 2 ++ toLE origin.2 2)
  (s.otherModules p).foldl (fun s m => s.unitControl p m bs) s

/-- R542, R543, R545: the entry of a task that a status ended. -/
def State.logEnd (s : State) (p : Fin 8) (j : Job) (e : Ending) : State :=
  if e.status = 0 then s
  else s.log ⟨e.status, 1, e.source.toNat, e.unit.toNat, 1 + 2 * (decide (e.status = stFenced) && e.remote.isNone).toNat + 4 * e.remote.isSome.toNat, s.partByte p, j.id.toNat, e.logDetail.toNat⟩

/-- R477, R478: the outputs of a secure job that ended well leave; whether they all reached the host. -/
def State.outputsOf (s : State) (t : Task) (e : Ending) : State × Bool :=
  match t.job.session with
  | some x => if e.status = 0 then s.packageOutputs x else (s, true)
  | none => (s, true)

/-- R478: a task whose outputs did not reach the host ends with TIER_ERROR. -/
def Ending.afterOutputs (e : Ending) (sent : Bool) : Ending :=
  if sent then e else { e with status := stTier, source := 6, unit := 0, logDetail := 4, detail := 0, core := none, bundle := none }

/-- R219, R220, R403: the bytes of a task's precision log, as its schedule left them. -/
def State.precisionLog (s : State) (t : Task) : List Byte :=
  match t.plog with
  | some (a, n) => s.mem.read a.toNat n
  | none => []

/-- R368, R401, R537, R543: who is told of a task's end: the other modules, the log, the host's record and event. -/
def State.announceEnd (s : State) (p : Fin 8) (t : Task) (e : Ending) : State :=
  let s := (if e.status ≠ 0 then s.sendEnd p e else s).logEnd p t.job e
  (s.deliver t.job (s.recordBytes t.job (some t) ⟨e.status, e.core, e.bundle, e.detail, false⟩) (s.precisionLog t)).pushEvent t.job.ctx ⟨false, e.status, t.job.id⟩

/-- R110, R539: the partition has no task, and takes the state that its jobs give it. -/
def State.leaveTask (s : State) (p : Fin 8) (j : Job) (stop : Bool) : State :=
  let s := (s.abandon p j.tag stop).modPart p fun x => { x with task := none, zeroing := j.secure }
  s.modPart p fun x => { x with mode := s.restState p }

/-- R110, R368, R397, R401, R478, R537, R539: a task ends: outputs, notices, log, record, event; the partition takes its state. -/
def State.finishTask (s : State) (p : Fin 8) (t : Task) (e : Ending) (stop : Bool) : State :=
  let r := s.outputsOf t e
  ((r.1.announceEnd p t (e.afterOutputs r.2)).leaveTask p t.job stop).applyHeld

/-- TASK_STOPPED (R110): the end that was detected takes effect. -/
def execTaskStopped (h : Fin 8) (s : State) : Host.Outcome State Fault Refusal :=
  .next (match s.partOf h with
    | none => s
    | some p => match s.parts[p].task with
      | none => s
      | some t => match t.ending with
        | none => s
        | some e => s.finishTask p t e (decide (e.status ≠ 0)))

/-! Starting a job (R393, R384, R78) -/

/-- R393: LC before BE, then the lower key, then the earlier arrival. -/
def Job.before (a b : Job) : Bool :=
  (a.lc && !b.lc) || (decide (a.lc = b.lc) && (decide (a.key < b.key) || (decide (a.key = b.key) && decide (a.id < b.id))))

/-- R393: the job that starts first. -/
def firstJob : List Job → Option Job
  | [] => none
  | x :: r => match firstJob r with
    | none => some x
    | some y => some (if y.before x then y else x)

/-- R393: a job leaves its queue; those that arrived before it have been overtaken. -/
def Part.take (x : Part) (j : Job) : Part :=
  let go (l : List Job) : List Job := (l.filter fun y => decide (y.id ≠ j.id)).map fun y => if y.id < j.id then { y with overtaken := satAdd y.overtaken 1 } else y
  { x with mode := .running, lc := go x.lc, be := go x.be }

/-- Counters and lists of a hearth that a task's start clears (R113, R215, R247, R268, R275 to R278, R296, R334, R524). -/
def Hearth.clearForTask (x : Hearth) : Hearth :=
  { x with widen := [], widenTid := 0, widenPass := false, lab := [], walks := [], kvHit := 0, kvMiss := 0, drawStall := 0, bellowsStall := 0 }

/-- Counters and lists that a task's start clears (R113, R114, R191, R192, R215, R221, R222, R247, R268, R275 to R278, R296, R334, R524). -/
def State.clearForTask (s : State) (p : Fin 8) : State :=
  ((List.finRange 8).foldl (fun s h => if s.inPart p h then s.modHearth h Hearth.clearForTask else s) s).modCores (s.partCores p)
    fun _ c => { c with mode := .idle, member := false, stat := CoreStat.zero }

/-- R384, R537: the loader ends a job before any core starts. -/
def State.loadFail (s : State) (p : Fin 8) (t : Task) (f : LoadFail) : State :=
  let s := s.modPart p fun x => { x with task := some t }
  s.finishTask p t ⟨f.status, s.now, 3, f.core, f.bundle, 6, 0, 3, none, BitVec.ofNat 192 f.detail⟩ false

/-- R353, R479: agreement with the peers that an image lists begins. -/
def State.callPeers (s : State) (p : Fin 8) (peers : List (BitVec 16)) : State :=
  match ((List.range 16).map (linkOf p)).find? fun l => decide (s.fab.links[l].mode = .up) with
  | none => s
  | some l => peers.foldl (fun s m => if m = s.fab.moduleId then s else s.sendHello l m 0) s

/-- R78, R353, R394, R478: a checked image is put in place and its task begins. -/
def State.beginTask (s : State) (p : Fin 8) (j : Job) (img : Image) (inputDigest : Digest) : State :=
  let t := s.makeTask p j img inputDigest
  let s := (s.placeImage p img).modPart p fun x => { x with task := some t }
  ((if j.secure then s.barMedia p else s).callPeers p t.peers).pumpRounds p

/-- R383, R384, R393, R477, R478: the loader reads and checks a job's image and puts it in place. -/
def State.loadJob (s : State) (p : Fin 8) (fail : Option (BitVec 64)) (j : Job) : State :=
  match s.loadObjects fail j with
  | .error st => s.loadFail p (s.failedTask j 0 0 false) ⟨st, 0, none, none⟩
  | .ok (raw, ins, s) =>
    match parseImage raw raw.length with
    | .error o => s.loadFail p (s.failedTask j (Config.sha3 raw) (Config.sha3 ins) false) (failAt stImage o)
    | .ok img =>
      match s.imageFail p j.hostWeights img with
      | some f => s.loadFail p (s.failedTask j (Config.sha3 img.bytes) (Config.sha3 ins) (imgBal img.bytes)) f
      | none => s.beginTask p j img (Config.sha3 ins)

/-- JOB_START (R393, R384): an IDLE partition starts its first queued job. -/
def execJobStart (h : Fin 8) (fail : Option (BitVec 64)) (s : State) : Host.Outcome State Fault Refusal :=
  .next (let x := s.parts[h]
    if x.mode ≠ .idle ∨ x.zeroing ∨ x.task.isSome then s
    else match firstJob (x.lc ++ x.be) with
      | none => s
      | some j => ((s.modPart h fun y => y.take j).clearForTask h).loadJob h fail j)

/-- START_BARRIER_COMPLETE (R394): every round is done; the cores may start. -/
def execStartBarrierComplete (h : Fin 8) (s : State) : Host.Outcome State Fault Refusal :=
  .next (match s.partOf h with
    | none => s
    | some p => match s.parts[p].task with
      | none => s
      | some t => if t.phase = .startBarrier ∧ t.ending.isNone ∧ s.roundsDone p then s.modTask p fun t => { t with phase := .loaded, rounds := 0 } else s)

/-- GANG_START_TIMEOUT (R394, R545). -/
def execGangStartTimeout (h : Fin 8) (s : State) : Host.Outcome State Fault Refusal :=
  .next (match s.partOf h with
    | none => s
    | some p => match s.parts[p].task with
      | none => s
      | some t =>
        if t.phase = .startBarrier ∧ t.ending.isNone then
          let s := s.reach (t.started + msTicks (1000 * s.glb.gangLimit.toNat))
          s.finishTask p t (s.unitEnding stGang 2 p.val 0xFFFF) false
        else s)

/-- CORES_START (R78): the task's cores begin to fetch. -/
def execCoresStart (h : Fin 8) (s : State) : Host.Outcome State Fault Refusal :=
  .next (match s.partOf h with
    | none => s
    | some p => match s.parts[p].task with
      | none => s
      | some t =>
        if t.phase = .loaded ∧ t.ending.isNone then
          (s.modCores t.codeCores fun _ c => { c with member := true, mode := .run }).modTask p fun t => { t with phase := .running, coresAt := s.now }
        else s)

/-! Queues, zeroing and interference (R393, R399, R478) -/

/-- QUEUE_WAIT_EXPIRED (R393). -/
def execQueueWaitExpired (job : BitVec 32) (s : State) : Host.Outcome State Fault Refusal :=
  .next (match (s.parts.toList.flatMap fun p => p.lc ++ p.be).find? fun j => decide (j.id = job) && decide (j.maxWaitMs ≠ 0) with
    | none => s
    | some j => (s.reach (j.arrived + msTicks j.maxWaitMs.toNat)).endQueued j stQueueWait)

/-- R478: the HBM of a partition set to zero. -/
def State.zeroPart (s : State) (p : Fin 8) : State :=
  { s with mem := { s.mem.fresh (p.val * 2 ^ 38) (s.partSize p * 2 ^ 38) with hbm := clearRange s.mem.hbm (p.val * 2 ^ 38) ((p.val + s.partSize p) * 2 ^ 38) } }

/-- PARTITION_ZEROED (R478). -/
def execPartitionZeroed (h : Fin 8) (s : State) : Host.Outcome State Fault Refusal :=
  .next (match s.partOf h with
    | none => s
    | some p => if s.parts[p].zeroing then (s.zeroPart p).modPart p fun x => { x with zeroing := false } else s)

/-- R399: E / (E − I) in units of 1/4,096. -/
def slowdownRatio (e i : Nat) : Nat := if e ≤ i then 2 ^ 32 - 1 else min (e * 4096 / (e - i)) (2 ^ 32 - 1)

/-- R399: the slowdown of a partition over a window of `w` periods. -/
def State.slowdownOf (s : State) (w : Nat) (p : Fin 8) : W32 :=
  BitVec.ofNat 32 (slowdownRatio (w * s.partSize p) (((List.finRange 8).filter (s.inPart p)).map fun h => s.hearths[h].interference).sum)

/-- R399: a window of interference ends and the next begins. -/
def State.endWindow (s : State) (w : Nat) : State :=
  { s with
    glb := { s.glb with windowAt := s.now, slowdown := Vector.ofFn (s.slowdownOf w) }
    hearths := s.hearths.map fun (h : Hearth) => { h with interference := 0 } }

/-- SLOWDOWN_WINDOW (R399, R407): a 100 ms window ends. -/
def execSlowdownWindow (s : State) : Host.Outcome State Fault Refusal :=
  .next ((s.reach (s.glb.windowAt + msTicks 100)).endWindow (msTicks 100))

end Sys2Proof.Machine
end

