-- ==== Sys2Proof/Machine/Regs.lean ====
section
/-! DEFINITION. What a read of each register of BAR0 returns (R2, R5 to R9, R530 to R536, and the rules they name). -/

namespace Sys2Proof.Machine

/-- A register's value from its fields, each with its lowest bit. -/
def fieldsAt (fs : List (Nat × Nat)) : W32 := BitVec.ofNat 32 ((fs.map fun f => f.2 * 2 ^ f.1).sum)

/-- A count in units, saturating at 32 bits. -/
def satUnits (n unit : Nat) : W32 := BitVec.ofNat 32 (min (n / unit) (2 ^ 32 - 1))

/-- R405: the code of a partition's state. -/
def PartMode.code : PartMode → Nat
  | .none => 0 | .idle => 1 | .running => 2 | .suspended => 3 | .stopping => 4 | .stopped => 5 | .outOfService => 6

/-- R112: the code of a core's state. -/
def CoreMode.code : CoreMode → Nat
  | .idle => 0 | .run => 1 | .wait => 2 | .barrier => 3 | .stopped => 4 | .suspended => 5

/-- R332: the code of a stack's state. -/
def StackMode.code : StackMode → Nat
  | .inService => 0 | .fenced => 1 | .quenched => 2 | .notPresent => 3

/-- R379: the code of a link's state. -/
def LinkMode.code : LinkMode → Nat
  | .down => 0 | .training => 1 | .up => 2 | .fenced => 3

/-- GLB_PART_STATE (R405). -/
def State.partStateReg (s : State) : W32 := fieldsAt ((List.finRange 8).map fun h => (4 * h.val, s.parts[h].mode.code))

/-- R404: START, bit h where a partition begins at Hh. -/
def State.startBits (s : State) : Nat := ((List.finRange 8).map fun h => if s.parts[h].mode = .none then 0 else 2 ^ h.val).sum

/-- GLB_PART_RESV (R408). -/
def State.resvReg (s : State) (h : Fin 8) : W32 := fieldsAt [(16, (s.glb.hbmSlots[h]).toNat), (0, (s.glb.tyWays[h]).toNat)]

/-- GLB_IDENT (R2). -/
def identReg : W32 := if Config.isA1 then 0x013201B0 else 0x013204B0

/-- GLB_GEOMETRY (R22). -/
def State.geometryReg (s : State) : W32 :=
  fieldsAt [(24, s.glb.vaultPresent.toNat), (16, s.glb.hrtPresent.toNat), (12, ((List.range 8).filter s.glb.hrtPresent.getLsbD).length), (8, s.glb.tyPresent.toNat)]

/-- GLB_PINS (R526); without REFCLK every filtered input reads asserted (R510). -/
def State.pinsReg (s : State) : W32 :=
  let pin (i : Fin 4) := s.pwr.pins[i]
  fieldsAt (((List.finRange 4).map fun i => (8 + i.val, (pin i).racing.toNat)) ++ ((List.finRange 4).map fun i => (i.val, ((pin i).level && s.pwr.refclk).toNat))
    ++ [(16, s.glb.raceCount.toNat), (4, (!s.pwr.thermTrip).toNat), (5, (!s.pwr.faultN).toNat), (6, s.pwr.ready.toNat)])

/-- The GLOBAL block (R534). -/
def State.globalReg (s : State) (x : Nat) : W32 :=
  if x = 0x000 then identReg
  else if x = 0x004 then s.geometryReg
  else if x = 0x008 then fieldsAt [(8, s.glb.bridgeHeld.isSome.toNat), (4, s.glb.svcShare.toNat)]
  else if x = 0x010 then fieldsAt [(31, s.glb.reject.toNat), (0, s.startBits)]
  else if x = 0x014 then s.partStateReg
  else if x = 0x018 then fieldsAt [(16, s.glb.staticOnly.toNat), (0, s.glb.gangLimit.toNat)]
  else if x = 0x020 then fieldsAt [(0, s.glb.fraction.toNat)]
  else if x = 0x024 then s.pinsReg
  else if x = 0x028 then fieldsAt [(0, s.glb.cause.toNat)]
  else if x = 0x02C then satUnits s.glb.throttle 2500000
  else if 0x030 ≤ x ∧ x < 0x058 then
    let t := s.glb.dieTemp.toList.getD ((x - 0x030) / 4) (0, 0)
    fieldsAt [(24, t.1.toNat), (16, t.2.toNat)]
  else if 0x100 ≤ x ∧ x < 0x120 then
    let h : Fin 8 := ⟨(x - 0x100) / 4 % 8, by omega⟩
    if s.parts[h].mode = .none then 0 else s.glb.slowdown[h]
  else if 0x140 ≤ x ∧ x < 0x160 then s.resvReg ⟨(x - 0x140) / 4 % 8, by omega⟩
  else if x = 0x200 then s.glb.evNext - BitVec.ofNat 32 s.evNow
  else if x = 0x204 then fieldsAt [(31, s.glb.evMiss.toNat), (0, s.glb.evOver.toNat)]
  else if x = 0x208 then s.glb.evSel
  else if 0x220 ≤ x ∧ x < 0x240 then (s.glb.evData >>> (8 * (x - 0x220))).setWidth 32
  else 0

/-- A core's block (R535). -/
def State.coreReg (s : State) (g : Fin 512) (x : Nat) : W32 :=
  let c := s.core g
  if x = 0x000 then fieldsAt [(16, c.epoch.toNat), (0, c.mode.code)]
  else if x = 0x004 then fieldsAt [(16, c.stat.faultStatus.toNat), (0, c.stat.faultBundle.toNat)]
  else if x = 0x008 then c.stat.tokenLeft
  else if x = 0x00C then fieldsAt (((List.finRange 5).map fun i => (16 + i.val, (c.slots[i]).tag.isSome.toNat)) ++ [(8, c.stat.highWater.toNat)])
  else if x = 0x010 then satUnits c.stat.busy 4096
  else if x = 0x014 then fieldsAt [(16, c.stat.clamped.toNat), (0, c.stat.trunc.toNat)]
  else if x = 0x018 then c.stat.rescale
  else if x = 0x01C then c.stat.empty
  else if x = 0x020 then c.stat.tapSkip
  else 0

/-- A work counter's registers (R116). -/
def wctrReg (w : WorkCounter) (x : Nat) : W32 :=
  if x = 0x00 then w.value
  else if x = 0x04 then w.limit
  else if x = 0x08 then fieldsAt [(6, w.bmapLo.toNat)]
  else if x = 0x0C then fieldsAt [(0, w.bmapHi.toNat)]
  else if x = 0x10 then fieldsAt [(2, w.clearing.toNat), (0, w.bmapEn.toNat)]
  else 0

/-- A HEARTH block (R535); those of a hearth that is not in service follow R7. -/
def State.hearthReg (s : State) (h : Fin 8) (x : Nat) : W32 :=
  let y := s.hearths[h]
  if !s.glb.hrtPresent.getLsbD h.val then 0
  else if 0x40000 ≤ x ∧ x < 0x80000 then s.coreReg (coreId (64 * h.val + (x - 0x40000) / 0x1000)) (x % 0x1000)
  else if 0x10000 ≤ x ∧ x < 0x10800 then wctrReg (y.wctr[(⟨(x - 0x10000) / 0x20 % 64, by omega⟩ : Fin 64)]) (x % 0x20)
  else if x = 0x00100 then y.waitLimit
  else if x = 0x00200 then fieldsAt [(16, y.widenPass.toNat), (0, min y.widen.length 16)]
  else if x = 0x00204 then y.widenTid
  else if x = 0x00300 then fieldsAt [(10, y.sfnTable.toNat), (4, y.sfnSegment.toNat), (0, y.sfnWord.toNat)]
  else if x = 0x00304 then coeffWord y.sfnTable.toNat y.sfnSegment.toNat y.sfnWord.toNat
  else if x = 0x00400 then y.kvHit
  else if x = 0x00404 then y.kvMiss
  else if x = 0x00500 then fieldsAt [(0, y.budget.toNat)]
  else if x = 0x00504 then satUnits y.drawStall 4096
  else 0

/-- The T0 block (R459, R461 to R464, R443); doorbells read 0. -/
def State.tuyereReg (s : State) (x : Nat) : W32 :=
  let l := s.larcy
  if x = 0x00 then fieldsAt [(31, l.enable.toNat), (30, l.verFail.toNat), (16, l.ver.toNat), (8, l.verMax.toNat), (4, l.cqLog2.toNat), (0, l.sqLog2.toNat)]
  else if x = 0x04 then fieldsAt [(12, l.sq0Lo.toNat)]
  else if x = 0x08 then l.sq0Hi
  else if x = 0x0C then fieldsAt [(12, l.cq0Lo.toNat)]
  else if x = 0x10 then l.cq0Hi
  else if x = 0x14 then fieldsAt [(16, l.ctxs.length), (0, (l.ctxs.filter (·.resident)).length)]
  else if x = 0x18 then fieldsAt [(16, l.queueFaults.toNat), (0, l.evictions.toNat)]
  else if x = 0x20 then fieldsAt [(24, l.drops.toNat), (16, l.proto.toNat), (8, l.width.toNat), (4, l.rate.toNat), (0, l.up.toNat)]
  else if 0x20000 ≤ x ∧ x < 0x21000 then ((l.msixTable.find? fun e => decide (e.1 = x)).map (·.2)).getD 0
  else 0

/-- MEM_HDM_CTL (R336). -/
def State.hdmReg (s : State) : W32 := fieldsAt [(31, s.mem.hdmHeld.isSome.toNat), (16, s.mem.hdmBase.toNat), (0, s.mem.hdmSize.toNat)]

/-- The MEMORY block (R332 to R338). -/
def State.memoryReg (s : State) (x : Nat) : W32 :=
  if x < 0x080 then
    match s.mem.stk.toList[x / 4]? with
    | some k => fieldsAt [(24, k.temp.toNat), (18, k.level.val), (16, k.mode.code), (8, k.sppr.toNat)]
    | none => 0
  else if x = 0x100 then fieldsAt [(0, s.mem.periodMs.toNat)]
  else if 0x140 ≤ x ∧ x < 0x160 then satUnits (s.hearths[(⟨(x - 0x140) / 4 % 8, by omega⟩ : Fin 8)]).bellowsStall 4096
  else if x = 0x180 then fieldsAt [(0, s.mem.spread.toNat)]
  else if x = 0x1C0 then s.hdmReg
  else if x = 0x1C4 then s.mem.hdmDenied
  else if x = 0x200 then fieldsAt [(16, s.mem.repairLost.toNat), (0, s.mem.repairLog.length)]
  else 0

/-- FAB_MODULE_ID (R374). -/
def State.moduleIdReg (s : State) : W32 := fieldsAt [(31, s.fab.idHeld.isSome.toNat), (0, s.fab.moduleId.toNat)]

/-- FAB_FRAME_CFG (R375). -/
def State.frameCfgReg (s : State) : W32 := fieldsAt [(16, s.fab.macPrefix.toNat), (0, s.fab.etherType.toNat)]

/-- FAB_CTL (R376). -/
def State.fabCtlReg (s : State) : W32 :=
  fieldsAt [(31, s.fab.ctlHeld.isSome.toNat), (8, s.fab.stripe.toNat), (4, s.fab.protoMax.toNat), (0, s.fab.modes.toNat)]

/-- The FABRIC block (R374 to R379). -/
def State.fabricReg (s : State) (x : Nat) : W32 :=
  if x = 0x000 then s.moduleIdReg
  else if x = 0x004 then s.frameCfgReg
  else if x = 0x008 then s.fabCtlReg
  else if x = 0x00C then fieldsAt [(0, s.fab.collTimeout.toNat)]
  else if x = 0x010 then s.fab.vcLo
  else if x = 0x014 then s.fab.vcHi ||| fieldsAt [(31, s.fab.vcBad.toNat)]
  else if 0x400 ≤ x ∧ x < 0x600 then
    let l : Fin 128 := ⟨(x - 0x400) / 4 % 128, by omega⟩
    let k := s.fab.links[l]
    fieldsAt [(24, k.replays.toNat), (8, (s.fab.pairs.filter fun p => decide (p.link = l) && p.up).length), (2, k.speed.toNat), (0, k.mode.code)]
  else 0

/-- The SECURITY block (R487). -/
def State.securityReg (s : State) (x : Nat) : W32 :=
  let c := s.sec
  if x = 0x000 then fieldsAt [(16, c.bootStatus.toNat), (8, c.counter.toNat), (2, c.fallback.toNat), (1, c.slotB.toNat), (0, c.fwOk.toNat)]
  else if x = 0x010 then fieldsAt [(6, c.stageLo.toNat)]
  else if x = 0x014 then c.stageHi
  else if x = 0x018 then c.stageSize
  else if x = 0x01C then fieldsAt [(16, c.fwResult.toNat), (1, c.fwBusy.toNat)]
  else if x = 0x020 then fieldsAt [(16, c.instResult.toNat), (1, c.instActive.toNat), (0, c.instMode.toNat)]
  else if x = 0x024 then c.progress
  else 0

/-- The MEDIA block (R433 to R436). -/
def State.mediaReg (s : State) (x : Nat) : W32 :=
  if 0x200 ≤ x then 0
  else
    let e : Fin 2 := ⟨x / 0x100 % 2, by omega⟩
    let y := s.media[e]
    if x % 0x100 = 0x00 then
      let live := (y.ctxs.filter fun c => mLive c.desc && s.mediaReady c).length
      fieldsAt [(16, y.ctxs.length), (8, y.running.isSome.toNat), (0, min live 255)]
    else if x % 0x100 = 0x04 then fieldsAt [(0, y.batchMin.toNat)]
    else if x % 0x100 = 0x08 then BitVec.ofNat 32 (y.decoded / 2 ^ 20)
    else if x % 0x100 = 0x0C then BitVec.ofNat 32 (y.encoded / 2 ^ 20)
    else if x % 0x100 = 0x10 then fieldsAt [(16, y.clamped.toNat), (0, y.bitstream.toNat)]
    else 0

/-- R496: the bits of a running value below the active width. -/
def crcMask (poly : BitVec 2) (v : BitVec 64) : BitVec 64 := v &&& crcInit poly

/-- R494: bytes absorbed, and counted. -/
def ChkSlot.absorb (c : ChkSlot) (bs : List Byte) : ChkSlot :=
  { c with value := crcBytes c.active c.value bs, count := satAdd c.count bs.length }

/-- R493: a computation begins. -/
def ChkSlot.start (c : ChkSlot) (poly : BitVec 2) : ChkSlot :=
  ChkSlot.absorb { c with active := poly, value := crcInit poly, count := 0 } (toLE c.fold.toNat 8)

/-- R493 to R497: a write leaves the queue and is applied. -/
def ChkSlot.apply (c : ChkSlot) (r : ChkReg) (v : W32) : ChkSlot :=
  match r with
  | .ctl =>
    let c := { c with poly := v.setWidth 2 }
    if v.getLsbD 8 then c.start c.poly else c
  | .foldLo => { c with fold := (c.fold >>> 32) <<< 32 ||| v.setWidth 64 }
  | .foldHi => { c with fold := (c.fold.setWidth 32).setWidth 64 ||| v.setWidth 64 <<< 32 }
  | .data8 => c.absorb (toLE v.toNat 1)
  | .data16 => c.absorb (toLE v.toNat 2)
  | .data32 => c.absorb (toLE v.toNat 4)
  | .valLo => { c with value := crcMask c.active ((c.value >>> 32) <<< 32 ||| v.setWidth 64) }
  | .valHi => { c with value := crcMask c.active ((c.value.setWidth 32).setWidth 64 ||| v.setWidth 64 <<< 32) }
  | .resultLo => c
  | .resultHi => c
  | .count => c

/-- R495: every write accepted is applied. -/
def ChkSlot.flush (c : ChkSlot) : ChkSlot := c.queue.foldl (fun c w => c.apply w.1 w.2) { c with queue := [] }

/-- R495: the registers whose read waits for the queue. -/
def chkWaits (r : ChkReg) : Bool :=
  match r with
  | .valLo => true
  | .valHi => true
  | .resultLo => true
  | .resultHi => true
  | .count => true
  | _ => false

/-- R497: the offset of a check register in its slot. -/
def chkRegOffset : ChkReg → Nat
  | .ctl => 0x00 | .foldLo => 0x04 | .foldHi => 0x08 | .data8 => 0x0C | .data16 => 0x10 | .data32 => 0x14
  | .valLo => 0x18 | .valHi => 0x1C | .resultLo => 0x20 | .resultHi => 0x24 | .count => 0x28

/-- R491: whether the die of a check slot is in service. -/
def State.chkServed (s : State) (n : Fin 256) : Bool := decide (n.val < 128) || s.glb.hrtPresent.getLsbD ((n.val - 128) / 16)

/-- R494 to R497: what a register of a slot reads once the writes it waits for are applied. -/
def chkView (c : ChkSlot) (r : ChkReg) : W32 :=
  match r with
  | .ctl => fieldsAt [(16, (!c.queue.isEmpty).toNat), (4, c.active.toNat), (0, c.poly.toNat)]
  | .foldLo => c.fold.setWidth 32
  | .foldHi => (c.fold >>> 32).setWidth 32
  | .data8 => 0
  | .data16 => 0
  | .data32 => 0
  | .valLo => c.value.setWidth 32
  | .valHi => (c.value >>> 32).setWidth 32
  | .resultLo => (crcResult c.active c.value).setWidth 32
  | .resultHi => (crcResult c.active c.value >>> 32).setWidth 32
  | .count => c.count

/-- R501: whether a port is held by a secure job of the partition its stream belongs to. -/
def State.snoopHeld (s : State) (p : Snoop) : Bool :=
  match p.stream with
  | some (.dmaQueue g _) => s.secureAt g
  | some (.fabric g _) => s.secureAt g
  | _ => false

/-- CHK_SNOOP_STATE (R502). -/
def State.snoopReg (s : State) (p : Snoop) : W32 :=
  let kind := match p.stream with | none => 0 | some (.dmaQueue _ _) => 1 | some (.service _) => 2 | some (.fabric _ _) => 3
  fieldsAt [(16, p.lost.toNat), (8, min p.results.length 63), (7, (decide (p.results.length = 64)).toNat), (5, p.poly.toNat), (2, kind), (1, (s.snoopHeld p).toNat), (0, p.stream.isSome.toNat)]

/-- The CHECK block (R491, R495, R497, R502): a value register reads as after every write that waits in its queue. -/
def State.checkReg (s : State) (x : Nat) : W32 :=
  if x < 0x4000 then
    let n : Fin 256 := ⟨x / 0x40 % 256, by omega⟩
    match [ChkReg.ctl, .foldLo, .foldHi, .valLo, .valHi, .resultLo, .resultHi, .count].find? fun r => decide (chkRegOffset r = x % 0x40) with
    | some r => if s.chkServed n then chkView (if chkWaits r then s.chk[n].flush else s.chk[n]) r else 0
    | none => 0
  else if 0x8000 ≤ x ∧ x < 0x8200 ∧ x % 0x20 = 0 then s.snoopReg s.snoop[(⟨(x - 0x8000) / 0x20 % 16, by omega⟩ : Fin 16)]
  else 0

/-- R5, R7: what a naturally aligned 32-bit read of BAR0 returns; the firmware-only range reads 0. -/
def State.readReg (s : State) (off : Nat) : W32 :=
  if off % 4 ≠ 0 ∨ 0x1000000 ≤ off then 0
  else
    let b := off / 0x100000
    let x := off % 0x100000
    if b = 0 then s.globalReg x
    else if b ≤ 8 then s.hearthReg ⟨(b - 1) % 8, by omega⟩ x
    else if b = 9 then s.tuyereReg x
    else if b = 0xB then s.memoryReg x
    else if b = 0xC then s.fabricReg x
    else if b = 0xD then s.securityReg x
    else if b = 0xE then s.mediaReg x
    else if b = 0xF then s.checkReg x
    else 0

/-- R6: what a host read of `size` bytes of BAR0 returns: 0 but for a naturally aligned one of 32 bits. -/
def State.readAccess (s : State) (off size : Nat) : W32 := if size = 4 ∧ off % 4 = 0 then s.readReg off else 0

end Sys2Proof.Machine
end

