-- ==== Sys2Proof/Machine/Larcy.lean ====
section
/-! DEFINITION. The Larcy command engine: contexts and queues, the checks of R458, completions and events, residency, and what each command does (R386, R390 to R392, R396, R400, R403, R444 to R463, R473, R474, R476, R481 to R485). -/

namespace Sys2Proof.Machine

/-- CMD_VERSION_UNSUPPORTED. -/
def stCmdVersion : Status := 0x0701
/-- CMD_MALFORMED. -/
def stCmdMalformed : Status := 0x0702
/-- CMD_PARAM_FAULT. -/
def stCmdParam : Status := 0x0703
/-- CMD_TARGET_UNKNOWN. -/
def stCmdTarget : Status := 0x0704
/-- CMD_NOT_PERMITTED. -/
def stCmdNotPermitted : Status := 0x0705
/-- CMD_CONTEXT_LIMIT. -/
def stCmdLimit : Status := 0x0706
/-- SIGNATURE_INVALID. -/
def stSignature : Status := 0x0801
/-- ROLLBACK_REJECTED. -/
def stRollback : Status := 0x0802
/-- OWNER_MISMATCH. -/
def stOwner : Status := 0x0804
/-- VAULT_DIGEST_MISMATCH. -/
def stVaultDigest : Status := 0x0805

/-! Contexts (R444, R446, R448, R449, R451, R454, R460) -/

/-- R449: what a context issued belongs to no open context once it has closed. -/
def State.disown (s : State) (n : Fin 4096) : State :=
  let own (x : Option (Fin 4096)) : Option (Fin 4096) := if x = some n then none else x
  let job (j : Job) : Job := { j with ctx := own j.ctx }
  { s with
    parts := s.parts.map fun (p : Part) => { p with
      lc := p.lc.map job
      be := p.be.map job
      task := p.task.map fun t => { t with job := job t.job }
      records := p.records.map fun (r : KeptRecord) => { r with ctx := own r.ctx } }
    media := s.media.map fun (e : MediaEngine) => { e with ctxs := e.ctxs.map fun (c : MediaCtx) => { c with owner := own c.owner } } }

/-- A context is removed with its unconsumed commands, unposted completions and events; context 0 leaves TY0_LARCY_CTL. -/
def State.dropCtx (s : State) (n : Fin 4096) : State :=
  (s.disown n).modLarcy fun l => { l with
    ctxs := l.ctxs.filter fun c => decide (c.num ≠ n)
    waiting := l.waiting.filter fun m => decide (m ≠ n)
    enable := if n = 0 then false else l.enable
    ver := if n = 0 then 0 else l.ver }

/-- R449: a command's completion waits to be posted. -/
def State.putDone (s : State) (n : Fin 4096) (cid : BitVec 16) (opc : Nat) (st : Status) (r : BitVec 128) : State :=
  s.modCtx n fun c => { c with busy := none, done := some ⟨cid, st, BitVec.ofNat 8 opc, r⟩ }

/-- R446, R454: a context closes; the CTX_CLOSE commands that wait for it complete. -/
def State.closeCtx (s : State) (n : Fin 4096) : State :=
  match s.ctx n with
  | none => s
  | some c => c.closing.foldl (fun s x => s.putDone x.1 x.2 0x02 0 0) (s.dropCtx n)

/-- R449, R454: a command in progress has ended: its completion waits, or the close that waited for it acts. -/
def State.complete (s : State) (n : Fin 4096) (st : Status) (r : BitVec 128 := 0) : State :=
  match s.ctx n with
  | none => s
  | some c => match c.busy with
    | none => s
    | some (cid, opc) => if c.closing.isEmpty then s.putDone n cid opc.toNat st r else s.closeCtx n

/-- R446, R463: an access to a queue of the context failed at the host tier. -/
def State.queueFault (s : State) (n : Fin 4096) : State :=
  (s.closeCtx n).modLarcy fun l => { l with queueFaults := satAdd l.queueFaults 1 }

/-- R444: every context closes. -/
def State.closeAll (s : State) : State := (s.larcy.ctxs.map (·.num)).foldl State.dropCtx s

/-- A context that has just opened. -/
def LCtx.fresh (n : Fin 4096) (sq cq : BitVec 64) (sl ql : Nat) (v : Byte) (admin irq : Bool) (vec : Byte) (now : Nat) : LCtx :=
  LCtx.refresh ⟨n, sq, cq, sl, ql, v, admin, irq, vec, 0, 0, 0, 0, true, none, [], none, [], false, 0, 0, 0, false⟩ now

/-- R448, R460: the highest supported version in a range. -/
def bestVersion (lo hi : Nat) : Option Byte := ([0x30, 0x20, 0x10].find? fun v => decide (lo ≤ v) && decide (v ≤ hi)).map (BitVec.ofNat 8)

/-! The checks of a submission entry (R448, R453, R454, R458) -/

/-- R454: the opcodes. -/
def knownOpcodes : List Nat := [0x01, 0x02, 0x10, 0x11, 0x12, 0x13, 0x14, 0x20, 0x21, 0x22, 0x30, 0x40, 0x50, 0x51]

/-- R453, R454: the bits of an operand byte that an opcode assigns. -/
def operandMask (opc b : Nat) : Nat :=
  let within (lo hi : Nat) : Bool := decide (lo ≤ b) && decide (b ≤ hi)
  match opc with
  | 0x01 => if within 24 43 || within 45 46 then 0xFF else if b = 44 then 0x03 else 0
  | 0x02 => if within 24 25 then 0xFF else 0
  | 0x10 => if b = 25 || within 28 35 || within 40 63 then 0xFF else if b = 24 || b = 26 then 0x07 else 0
  | 0x11 => if within 24 31 then 0xFF else 0
  | 0x12 => if within 24 27 then 0xFF else 0
  | 0x13 => if within 24 27 then 0xFF else if b = 28 then 0x01 else 0
  | 0x14 => if within 24 27 || within 32 39 then 0xFF else 0
  | 0x20 => if b = 24 then 0x07 else 0
  | 0x22 => if b = 24 then 0x07 else 0
  | 0x40 => 0xFF
  | 0x50 => if within 24 32 then 0xFF else 0
  | 0x51 => if within 24 25 then 0xFF else if b = 26 then 0x01 else 0
  | _ => 0

/-- R454: the opcodes that take a parameter block. -/
def takesParam (opc : Nat) : Bool := decide (opc = 0x10) || decide (opc = 0x21) || decide (opc = 0x30)

/-- R448: whether a version lacks an opcode or a non-zero field. -/
def versionLacks (v : Byte) (opc : Nat) (e : List Byte) : Bool :=
  let old := decide (v.toNat < 0x20)
  let mid := decide (v.toNat < 0x30)
  (old && (decide (opc = 0x50) || decide (opc = 0x51)))
  || (decide (opc = 0x10) && ((old && (decide (leAt e 32 4 ≠ 0) || decide (leAt e 40 8 ≠ 0))) || (mid && (leAt e 26 1).testBit 1)))
  || (decide (opc = 0x11) && mid && decide (leAt e 28 4 ≠ 0))

/-- R453: PARAM_LEN. -/
def paramLen (e : List Byte) : Nat := leAt e 16 4

/-- R447, R454, R455: whether the operands of an entry lie in range. -/
def operandsOk (opc : Nat) (e : List Byte) : Bool :=
  match opc with
  | 0x01 => decide (leAt e 24 8 % 4096 = 0) && decide (leAt e 32 8 % 4096 = 0) && decide (4 ≤ leAt e 40 1 ∧ leAt e 40 1 ≤ 12)
      && decide (4 ≤ leAt e 41 1 ∧ leAt e 41 1 ≤ 12) && decide (leAt e 45 2 ≤ 255)
  | 0x02 => decide (leAt e 24 2 < 4096)
  | 0x10 => decide (leAt e 25 1 ≤ 1) && decide (leAt e 56 8 % 64 = 0)
  | 0x21 => decide (paramLen e = 64)
  | 0x50 => decide (leAt e 24 8 % 256 = 0) && decide (leAt e 32 1 ≤ 2)
  | 0x51 => decide (leAt e 24 2 < 512)
  | _ => true

/-- R453, R454, R458 step 3: whether the entry by itself is malformed. -/
def entryBad (opc : Nat) (e : List Byte) : Bool :=
  decide (leAt e 1 1 ≠ 0) || decide (leAt e 4 4 ≠ 0) || decide (leAt e 20 4 ≠ 0)
  || ((List.range 40).any fun i => decide (leAt e (24 + i) 1 &&& (0xFF - operandMask opc (24 + i)) ≠ 0))
  || (if takesParam opc then decide (leAt e 8 8 % 64 ≠ 0) || decide (paramLen e % 64 ≠ 0) || decide (paramLen e = 0) || decide (2 ^ 20 < paramLen e)
      else decide (leAt e 8 8 ≠ 0) || decide (paramLen e ≠ 0))
  || !operandsOk opc e

/-- R388, R404: whether a set of first hearths, bit h for Hh, is one of whole partitions. -/
def startOk (start : Nat) : Bool :=
  (List.range 8).all fun h => !start.testBit h ||
    (let next := ((List.range 8).find? fun k => decide (h < k) && start.testBit k).getD 8
     [1, 2, 4, 8].contains (next - h) && decide (h % (next - h) = 0))

/-- R454: the START value of a PARTITION_SET block. -/
def setStart (pb : List Byte) : Nat := 1 + 2 * leAt pb 0 1

/-- R454: whether a PARTITION_SET block is malformed. -/
def setBad (pb : List Byte) : Bool :=
  decide (128 ≤ leAt pb 0 1) || !startOk (setStart pb) || decide (leAt pb 2 2 ≠ 0) || decide (leAt pb 36 28 ≠ 0)
  || (List.range 8).any fun h => decide (leAt pb (4 + 4 * h + 2) 2 > 8)

/-- R298, R384: whether an image or an input lies in a range that the loader reads. -/
def objectOk (a n : Nat) : Bool :=
  decide (a + n ≤ hbmTop) || (decide (vaultBase ≤ a) && decide (a + n ≤ vaultTop)) || (decide (hostBase ≤ a) && decide (a + n ≤ hostTop))

/-- R455: the INPUTS of a SUBMIT block. -/
def submitInputs (pb : List Byte) : List (BitVec 64 × BitVec 64) :=
  (List.range (leAt pb 48 4)).map fun i => (BitVec.ofNat 64 (leAt pb (64 + 16 * i) 8), BitVec.ofNat 64 (leAt pb (72 + 16 * i) 8))

/-- R455: the MODULE_LIST of a SUBMIT block. -/
def submitModules (pb : List Byte) : List (BitVec 16) :=
  (List.range (leAt pb 52 4)).map fun i => BitVec.ofNat 16 (leAt pb (64 + 16 * leAt pb 48 4 + 2 * i) 2)

/-- R455: whether a SUBMIT block is malformed. -/
def submitBad (e pb : List Byte) : Bool :=
  let n := leAt pb 48 4
  let m := leAt pb 52 4
  !decide (1 ≤ n ∧ n ≤ 4096 ∧ 1 ≤ m ∧ m ≤ 65536) || decide (leAt pb 56 8 ≠ 0) || decide (paramLen e ≠ roundUp (64 + 16 * n + 2 * m) 64)
  || (!(leAt e 26 1).testBit 2 && decide (leAt pb 16 32 ≠ 0)) || !(pb.drop (64 + 16 * n + 2 * m)).all (· = 0)
  || !objectOk (leAt pb 0 8) (leAt pb 8 8) || !(submitInputs pb).all fun x => objectOk x.1.toNat x.2.toNat

/-- R482: the regions of a manifest. -/
def manifestRegions (pb : List Byte) : List Region :=
  (List.range (leAt pb 4 4)).map fun i =>
    let b := 64 + 64 * i
    ⟨BitVec.ofNat 128 (leAt pb b 16), BitVec.ofNat 64 (leAt pb (b + 16) 8), BitVec.ofNat 64 (leAt pb (b + 24) 8), BitVec.ofNat 64 (leAt pb (b + 32) 8),
     BitVec.ofNat 8 (leAt pb (b + 40) 1), BitVec.ofNat 128 (leAt pb (b + 48) 16)⟩

/-- R482: whether a VAULT_INSTALL block is malformed. -/
def manifestBad (e pb : List Byte) : Bool :=
  let n := leAt pb 4 4
  decide (leAt pb 0 4 ≠ 0x54464E4D) || !decide (1 ≤ n ∧ n ≤ 4096) || decide (leAt pb 40 24 ≠ 0)
  || decide (paramLen e ≠ roundUp (64 + 64 * n + 1312 + 2420) 64)
  || (List.range n).any fun i => decide (leAt pb (64 + 64 * i + 16) 8 % 65536 ≠ 0) || decide (2 < leAt pb (64 + 64 * i + 40) 1) || decide (leAt pb (64 + 64 * i + 41) 7 ≠ 0)

/-- R458 step 3: whether a parameter block that could be read is malformed. -/
def blockBad (opc : Nat) (e pb : List Byte) : Bool :=
  match opc with
  | 0x10 => submitBad e pb
  | 0x21 => setBad pb
  | 0x30 => manifestBad e pb
  | _ => false

/-- R446, R458 step 4, R481: whether a context may not issue a command. -/
def State.cmdBarred (s : State) (c : LCtx) (opc : Nat) (e : List Byte) : Bool :=
  (!c.admin && ([0x01, 0x20, 0x21, 0x22, 0x30].contains opc || (decide (opc = 0x02) && decide (leAt e 24 2 ≠ c.num.val))))
  || (decide (opc = 0x02) && decide (leAt e 24 2 = 0)) || (decide (opc = 0x30) && !s.sec.instMode)

/-- R458 steps 1 to 5: the parameter block, or the status of the first check that fails. -/
def State.checkEntry (s : State) (c : LCtx) (x : HostFate) (e : List Byte) : Except Status (List Byte) :=
  let opc := leAt e 0 1
  let pb := if takesParam opc then readBytes s.mem.host (leAt e 8 8) (paramLen e) else []
  let lost := takesParam opc && decide (x = .paramFails)
  if !knownOpcodes.contains opc then .error stCmdMalformed
  else if versionLacks c.version opc e then .error stCmdVersion
  else if entryBad opc e || (!lost && blockBad opc e pb) then .error stCmdMalformed
  else if s.cmdBarred c opc e then .error stCmdNotPermitted
  else if lost then .error stCmdParam
  else .ok pb

/-- R449, R450: the context whose next command may be consumed: resident, with a command, room and no earlier one unanswered; firmware runs the engine (R20). -/
def State.consumer (s : State) (n : Fin 4096) : Option LCtx :=
  (s.ctx n).filter fun c => s.sec.fwOk && c.resident && c.waits && c.busy.isNone && c.done.isNone && c.room

/-- R447, R449: the entry at a context's submission head. -/
def State.entryOf (s : State) (c : LCtx) : List Byte := readBytes s.mem.host (c.sqAddr.toNat + 64 * c.sqHead) 64

/-- R447, R449: an entry leaves its submission queue and is the context's command in progress. -/
def State.takeEntry (s : State) (n : Fin 4096) (e : List Byte) : State :=
  s.modCtx n fun c => { c with sqHead := (c.sqHead + 1) % 2 ^ c.sqLog, busy := some (BitVec.ofNat 16 (leAt e 2 2), BitVec.ofNat 8 (leAt e 0 1)), served := true }

/-- R458: a consumed command acts once its checks pass. -/
def State.judge (s : State) (n : Fin 4096) (c : LCtx) (x : HostFate) (e : List Byte) (act : State → LCtx → List Byte → List Byte → State) : State :=
  match s.checkEntry c x e with
  | .error st => s.complete n st
  | .ok pb => act s c e pb

/-- R447, R449, R458: a context's next command is consumed, where its entry holds an opcode or a reserved one, and acts once its checks pass. -/
def State.consume (s : State) (n : Fin 4096) (x : HostFate) (opc : Nat) (act : State → LCtx → List Byte → List Byte → State) : State :=
  match s.consumer n with
  | none => s
  | some c =>
    if x = .queueFails ∨ !s.hostUp then s.queueFault n
    else if leAt (s.entryOf c) 0 1 ≠ opc ∧ knownOpcodes.contains (leAt (s.entryOf c) 0 1) then s
    else (s.takeEntry n (s.entryOf c)).judge n c x (s.entryOf c) act

/-! CTX_OPEN and CTX_CLOSE (R446, R448, R454) -/

/-- R448, R454: the context that a CTX_OPEN entry describes. -/
def State.newCtx (s : State) (m : Fin 4096) (v : BitVec 8) (e : List Byte) : LCtx :=
  LCtx.fresh m (BitVec.ofNat 64 (leAt e 24 8)) (BitVec.ofNat 64 (leAt e 32 8)) (leAt e 40 1) (leAt e 41 1) v
    ((leAt e 44 1).testBit 0) ((leAt e 44 1).testBit 1) (BitVec.ofNat 8 (leAt e 45 2)) s.now

/-- R446, R448, R454: the lowest context number not in use opens. -/
def State.ctxOpen (s : State) (n : Fin 4096) (e : List Byte) : State :=
  match (List.finRange 4096).find? fun m => decide (m ≠ 0) && (s.ctx m).isNone with
  | none => s.complete n stCmdLimit
  | some m => match bestVersion (leAt e 42 1) (leAt e 43 1) with
    | none => s.complete n stCmdVersion
    | some v => (s.modLarcy fun l => { l with ctxs := l.ctxs ++ [s.newCtx m v e] }).complete n 0 (BitVec.ofNat 128 (m.val + v.toNat * 2 ^ 16))

/-- CTX_OPEN (R446, R448, R454). -/
def execCtxOpen (n : Fin 4096) (x : HostFate) (s : State) : Host.Outcome State Fault Refusal :=
  .next (s.consume n x 0x01 fun s _ e _ => s.ctxOpen n e)

/-- R446, R449, R454: the target's unconsumed entries are discarded; it closes once its command in progress has ended. -/
def State.ctxClose (s : State) (n : Fin 4096) (c : LCtx) (e : List Byte) : State :=
  let m : Fin 4096 := ⟨leAt e 24 2 % 4096, by omega⟩
  match s.ctx m with
  | none => s.complete n stCmdTarget
  | some t =>
    if m = n then s.closeCtx n
    else if t.busy.isNone then (s.closeCtx m).complete n 0
    else s.modCtx m fun t => { t with sqHead := t.sqTail, closing := t.closing ++ [(c.num, BitVec.ofNat 16 (leAt e 2 2))] }

/-- CTX_CLOSE (R446, R449, R454). -/
def execCtxClose (n : Fin 4096) (x : HostFate) (s : State) : Host.Outcome State Fault Refusal :=
  .next (s.consume n x 0x02 fun s c e _ => s.ctxClose n c e)

/-! SUBMIT (R386, R391, R392, R455, R476, R485) -/

/-- R392, step 2: the status of a partition that is out of service. -/
def State.outStatus (s : State) (p : Fin 8) : Status :=
  if s.pwr.dieTrip then stThermal
  else if (List.range 32).any fun k => s.inPart p ⟨k / 4 % 8, by omega⟩ && (s.mem.stk.toList[k]?).any (·.hot) then stQuench
  else stFenced

/-- R476: whether a session object's table is one that SUBMIT takes. -/
def State.sessionOk (s : State) (j : Job) (x : Session) : Bool :=
  let imgs := x.entries.filter fun e => decide (e.kind = 1)
  let ins := x.entries.filter fun e => decide (e.kind = 2)
  decide (imgs.length = 1) && (imgs.all fun e => decide (e.index = 0)) && decide (ins.length = j.inputs.length - 1)
  && (((List.range j.inputs.length).drop 1).all fun i => ins.any fun e => decide (e.index = i))
  && x.entries.all fun e => decide (j.part.val * 2 ^ 38 ≤ e.addr) && decide (e.addr + e.len ≤ (j.part.val + s.partSize j.part) * 2 ^ 38)

/-- R384, R392, R477: the image's bytes that SUBMIT's checks see; `none` where they cannot be read or opened, which the job's load will find. -/
def State.peekBytes (s : State) (j : Job) : Option (List Byte) :=
  match s.loadRead none j.image.toNat j.imageSize.toNat with
  | .error _ => none
  | .ok bs => match j.session with
    | none => some bs
    | some x => (x.entry 1 0).bind fun e => openSealed x e bs

/-- R381, R392: the header that SUBMIT's checks see: 64 bytes that begin an image of a known version, whatever follows. -/
def State.peekHeader (s : State) (j : Job) : Option (List Byte) :=
  (s.peekBytes j).filter fun bs => decide (64 ≤ bs.length) && decide (leAt bs 0 4 = 0x54485957) && decide (leAt bs 4 2 = 1)

/-- R382, R392: the image that SUBMIT's checks see, where its section table is good. -/
def State.peekImage (s : State) (j : Job) : Option Image :=
  (s.peekBytes j).bind fun r => match parseImage r r.length with
    | .ok img => some img
    | .error _ => none

/-- R485: whether the vault read policy refuses a job: a region that its image names, of no manifest, not in it, or not open to the job. -/
def State.policyBars (s : State) (j : Job) (img : Image) : Bool :=
  let names := (img.recs 6).map fun r => BitVec.ofNat 128 (leAt r.2 24 16)
  names.any fun n => decide (n ≠ 0) && (match s.sec.manifest with
    | none => true
    | some (rs, _) => match rs.find? fun r => decide (r.name = n) with
      | none => true
      | some r => decide (r.access ≠ 0) && !(decide (r.access = 1) && j.secure))

/-- R386, R392: whether a header asks for balanced claims where the module's policy is static only. -/
def State.staticBars (s : State) (h : List Byte) : Bool := imgBal h && s.glb.staticOnly

/-- R392, step 4: whether a header asks for more than the partition or the job has. -/
def State.tooLarge (s : State) (j : Job) (h : List Byte) : Bool :=
  decide (s.partSize j.part < imgHearths h) || decide (256 < imgHbm h) || decide (imgModules h ≠ j.modules.length)

/-- R392: whether the client's policy bars a job. The spec says nothing more of it: a free answer (log 61). -/
def clientBars (j : Job) : Bool := Config.clientBars ((j.ctx.map (·.val)).getD 0) j.part.val j.lc j.secure

/-- R392: the first case that refuses a job. -/
def State.refusal (s : State) (j : Job) : Option Status :=
  let part := s.parts[j.part]
  let session := j.secure && (j.hostWeights || !(match j.session with | some x => s.sessionOk j x | none => false))
  if part.mode = .stopping ∨ part.mode = .stopped then some stPartChanging
  else if part.mode = .outOfService then some (s.outStatus j.part)
  else if clientBars j || session || (s.peekImage j).any (s.policyBars j) || (s.peekHeader j).any s.staticBars then some stNotPermitted
  else if (s.peekHeader j).any (s.tooLarge j) then some stTooLarge
  else if (if j.lc then decide (64 ≤ part.lc.length) else decide (1024 ≤ part.be.length)) then some stQueueFull
  else none

/-- R455: the job of a SUBMIT, with its session opened (R475). -/
def State.submitJob (s : State) (c : LCtx) (e pb : List Byte) : Job :=
  let fl := leAt e 26 1
  let ins := submitInputs pb
  let session := if fl.testBit 1 then
      (match ins.head? with
       | some (a, n) => (match s.loadRead none a.toNat n.toNat with | .ok bs => s.openSession bs | .error _ => none)
       | none => none)
    else none
  { id := s.larcy.nextJob
    ctx := some c.num
    part := ⟨leAt e 24 1 % 8, by omega⟩
    lc := decide (leAt e 25 1 = 0)
    key := BitVec.ofNat 64 (leAt e 40 8)
    image := BitVec.ofNat 64 (leAt pb 0 8)
    imageSize := BitVec.ofNat 64 (leAt pb 8 8)
    inputs := ins
    seed := BitVec.ofNat 64 (leAt e 48 8)
    reheatCap := BitVec.ofNat 16 (leAt e 28 2)
    tag := BitVec.ofNat 16 (leAt e 30 2)
    modules := submitModules pb
    maxWaitMs := BitVec.ofNat 32 (leAt e 32 4)
    sign := fl.testBit 0
    secure := fl.testBit 1
    hostWeights := fl.testBit 2
    manifest := BitVec.ofNat 256 (leAt pb 16 32)
    resultAddr := BitVec.ofNat 64 (leAt e 56 8)
    session := session
    arrived := s.now
    overtaken := 0
    suspendAt := none }

/-- R457: a job id as RESULT. -/
def jobResult (id : W32) : BitVec 128 := id.setWidth 128

/-- R392, R401, R457: a job that a check refuses: its record, its log entry, its completion. -/
def State.refuse (s : State) (n : Fin 4096) (j : Job) (st : Status) : State :=
  ((s.deliver j (s.recordBytes j none ⟨st, none, none, 0, true⟩)).log ⟨st, 0x0B, 0, 0, 1, s.partByte j.part, j.id.toNat, if j.lc then 0 else 1⟩).complete n st (jobResult j.id)

/-- R391: a job joins its class's queue. -/
def State.enqueue (s : State) (j : Job) : State :=
  s.modPart j.part fun p => { p with lc := if j.lc then p.lc ++ [j] else p.lc, be := if j.lc then p.be else p.be ++ [j] }

/-- R455: each SUBMIT that reaches a partition uses a job id. -/
def State.countJob (s : State) : State := s.modLarcy fun l => { l with nextJob := l.nextJob + 1 }

/-- R392, R455: a job is queued, or refused. -/
def State.submit (s : State) (n : Fin 4096) (j : Job) : State :=
  if s.parts[j.part].mode = .none then s.complete n stCmdTarget
  else match s.refusal j with
    | some st => s.countJob.refuse n j st
    | none => (s.countJob.enqueue j).complete n 0 (jobResult j.id)

/-- SUBMIT (R392, R455). -/
def execSubmit (n : Fin 4096) (x : HostFate) (s : State) : Host.Outcome State Fault Refusal :=
  .next (s.consume n x 0x10 fun s c e pb => s.submit n (s.submitJob c e pb))

/-! SUSPEND, RESUME, CANCEL, QUERY (R396, R403, R457) -/

/-- R458: the job that a command names: its owner, where it is queued, running or its record is kept. -/
def State.jobOwner (s : State) (id : W32) : Option (Option (Fin 4096)) :=
  s.parts.toList.findSome? fun p =>
    (((p.lc ++ p.be).find? fun j => decide (j.id = id)).map (·.ctx)).or
      (((p.task.filter fun t => decide (t.job.id = id)).map fun t => t.job.ctx).or ((p.records.find? fun r => decide (r.job = id)).map (·.ctx)))

/-- R458, step 6: whether a context may name a job. -/
def State.ownsJob (s : State) (c : LCtx) (id : W32) : Bool :=
  match s.jobOwner id with
  | none => false
  | some o => c.admin || decide (o = some c.num)

/-- The queued job of an id. -/
def State.queuedJob (s : State) (id : W32) : Option Job := (s.parts.toList.flatMap fun p => p.lc ++ p.be).find? fun j => decide (j.id = id)

/-- The partition that holds the job of an id, and its task. -/
def State.heldJob (s : State) (id : W32) : Option (Fin 8 × Task) :=
  (List.finRange 8).findSome? fun p => (s.parts[p].task.filter fun t => decide (t.job.id = id)).map fun t => (p, t)

/-- A command on a job: refused where the issuer may not name it. -/
def State.jobCommand (s : State) (n : Fin 4096) (x : HostFate) (opc : Nat) (act : State → List Byte → W32 → State) : State :=
  s.consume n x opc fun s c e _ =>
    let id := BitVec.ofNat 32 (leAt e 24 4)
    if s.ownsJob c id then act s e id else s.complete n stCmdTarget

/-- R396: a job is to stop at an epoch; a later SUSPEND replaces a pending one; a pending CANCEL stands. -/
def State.suspendJob (s : State) (id ep : W32) : State :=
  match s.heldJob id with
  | some (p, _) => s.modTask p fun t => if t.cancel then t else { t with suspendAt := some ep }
  | none => match s.queuedJob id with
    | some j => s.modPart j.part fun q =>
        let f (y : Job) : Job := if y.id = id then { y with suspendAt := some ep } else y
        { q with lc := q.lc.map f, be := q.be.map f }
    | none => s

/-- SUSPEND (R396). -/
def execSuspend (n : Fin 4096) (x : HostFate) (s : State) : Host.Outcome State Fault Refusal :=
  .next (s.jobCommand n x 0x11 fun s e id => (s.suspendJob id (BitVec.ofNat 32 (leAt e 28 4))).complete n 0)

/-- R396: the cores of a suspended job go on into the next epoch. -/
def State.resume (s : State) (p : Fin 8) : State :=
  ((s.modCores (s.members p) fun _ (c : Core) => { c with mode := if c.mode = CoreMode.suspended then CoreMode.run else c.mode }).modTask p
    fun t => { t with phase := .running }).modPart p
    fun (x : Part) => { x with mode := if x.mode = PartMode.suspended then PartMode.running else x.mode }

/-- R396: a suspended job goes on. -/
def State.resumeJob (s : State) (id : W32) : State :=
  match s.heldJob id with
  | some (p, t) => if t.phase = TaskPhase.suspended ∧ t.ending.isNone then s.resume p else s
  | none => s

/-- RESUME (R396). -/
def execResume (n : Fin 4096) (x : HostFate) (s : State) : Host.Outcome State Fault Refusal :=
  .next (s.jobCommand n x 0x12 fun s _ id => (s.resumeJob id).complete n 0)

/-- R396: a job ends at once, or at its next epoch; a queued job leaves its queue. -/
def State.cancelJob (s : State) (id : W32) (atOnce : Bool) : State :=
  match s.heldJob id with
  | some (p, t) =>
    if t.phase = TaskPhase.suspended ∨ atOnce then s.endTask p (s.unitEnding stCancelled 0 0 0)
    else s.modTask p fun t => { t with cancel := true, suspendAt := none }
  | none => match s.queuedJob id with
    | some j => s.endQueued j stCancelled
    | none => s

/-- CANCEL (R396). -/
def execCancel (n : Fin 4096) (x : HostFate) (s : State) : Host.Outcome State Fault Refusal :=
  .next (s.jobCommand n x 0x13 fun s e id => (s.cancelJob id ((leAt e 28 1).testBit 0)).complete n 0)

/-- R457: the record of a job that has not ended: STATUS, T_END and the digests 0. -/
def State.liveRecord (s : State) (j : Job) (t : Option Task) : List Byte :=
  let bs := s.recordBytes j t ⟨0, none, none, 0, true⟩
  bs.take 2 ++ [(bs.getD 2 0) &&& 0xDF] ++ (bs.drop 3).take 29 ++ toLE 0 8 ++ bs.drop 40

/-- R457: RESULT of a QUERY. -/
def queryResult (id : W32) (state : Nat) : BitVec 128 := BitVec.ofNat 128 (id.toNat + state * 2 ^ 32)

/-- R396, R457: the status, the state and the record that a QUERY answers with. -/
def State.queryOf (s : State) (id : W32) : Option (Status × Nat × List Byte) :=
  match s.heldJob id with
  | some (_, t) => if t.phase = TaskPhase.suspended then some (0x0002, 2, s.liveRecord t.job (some t)) else some (0, 1, s.liveRecord t.job (some t))
  | none => match s.queuedJob id with
    | some j => some (0, 0, s.liveRecord j none)
    | none => ((s.parts.toList.flatMap (·.records)).find? fun r => decide (r.job = id)).map fun r => (0, 3, r.bytes)

/-- QUERY (R396, R403, R457). -/
def execQuery (n : Fin 4096) (x : HostFate) (s : State) : Host.Outcome State Fault Refusal :=
  .next (s.jobCommand n x 0x14 fun s e id =>
    match s.queryOf id with
    | some (st, k, bs) => (if leAt e 32 8 = 0 then s else s.hostWrite (leAt e 32 8) bs).complete n st (queryResult id k)
    | none => s.complete n stCmdTarget)

/-! Partitions (R388, R390, R400, R404, R408, R454, R481) -/

/-- R457: GLB_PART_STATE as RESULT. -/
def State.completePart (s : State) (n : Fin 4096) (st : Status) : State := s.complete n st (s.partStateReg.setWidth 128)

/-- The partition that an entry names. -/
def entryPart (e : List Byte) : Fin 8 := ⟨leAt e 24 1 % 8, by omega⟩

/-- A partition's state. -/
def State.setMode (s : State) (p : Fin 8) (m : PartMode) : State := s.modPart p fun y => { y with mode := m }

/-- R390: a partition takes no job, at once or when the one that it holds has ended. -/
def State.stopPart (s : State) (n : Fin 4096) (p : Fin 8) : State :=
  match s.parts[p].mode with
  | .none => s.complete n stCmdTarget
  | .idle => (s.setMode p .stopped).completePart n 0
  | .running => (s.setMode p .stopping).completePart n 0
  | .suspended => (s.setMode p .stopping).completePart n 0
  | .outOfService => if s.pwr.dieTrip then s.completePart n 0 else (s.setMode p .stopped).completePart n 0
  | .stopping => s.completePart n 0
  | .stopped => s.completePart n 0

/-- PARTITION_STOP (R390). -/
def execPartitionStop (n : Fin 4096) (x : HostFate) (s : State) : Host.Outcome State Fault Refusal :=
  .next (s.consume n x 0x20 fun s _ e _ => s.stopPart n (entryPart e))

/-- R390, R481: a STOPPED partition takes jobs again, unless what it rests on is out of service. -/
def State.startPart (s : State) (n : Fin 4096) (p : Fin 8) : State :=
  match s.parts[p].mode with
  | .none => s.complete n stCmdTarget
  | .stopped =>
    if s.sec.instMode then s.completePart n stPartChanging
    else (s.setMode p (if s.pwr.dieTrip || s.partSick p then .outOfService else .idle)).completePart n 0
  | _ => if s.sec.instMode then s.completePart n stPartChanging else s.completePart n 0

/-- PARTITION_START (R390, R481). -/
def execPartitionStart (n : Fin 4096) (x : HostFate) (s : State) : Host.Outcome State Fault Refusal :=
  .next (s.consume n x 0x22 fun s _ e _ => s.startPart n (entryPart e))

/-- R388: the size of the partition that a START value begins at a hearth; 0 where it begins none. -/
def startSize (start h : Nat) : Nat := if start.testBit h then (((List.range 8).find? fun k => decide (h < k) && start.testBit k).getD 8) - h else 0

/-- R390: the partitions whose hearths a START value changes. -/
def State.changedParts (s : State) (start : Nat) : List (Fin 8) :=
  (List.finRange 8).filter fun p => decide (s.parts[p].mode ≠ .none) && decide (startSize start p.val ≠ s.partSize p)

/-- R390: whether every partition whose hearths change is STOPPED. -/
def State.layoutOk (s : State) (start : Nat) : Bool := (s.changedParts start).all fun p => decide (s.parts[p].mode = .stopped)

/-- R390: the jobs that wait for a partition that changes end. -/
def State.endWaiting (s : State) (gone : List (Fin 8)) : State :=
  gone.foldl (fun s p => (s.parts[p].lc ++ s.parts[p].be).foldl (fun s j => s.endQueued j stPartChanging) s) s

/-- R478: partitions that change are zeroed at once where their zeroing is due. -/
def State.zeroGone (s : State) (gone : List (Fin 8)) : State := gone.foldl (fun s p => if s.parts[p].zeroing then s.zeroPart p else s) s

/-- R390, R478: a partition under a START value: gone, formed (STOPPED) or as it was. -/
def Part.under (y : Part) (begins changes : Bool) : Part :=
  if !begins then { Part.reset .none with records := y.records }
  else if y.mode = .none ∨ changes then { Part.reset .stopped with records := y.records }
  else y

/-- R221: a hearth that is not the first of a partition holds no widen list. -/
def Hearth.noWiden (x : Hearth) : Hearth := { x with widen := [], widenTid := 0, widenPass := false }

/-- R221, R390, R478: the partitions of a START value; those that are gone lose their queues, those that are formed are STOPPED. -/
def State.setLayout (s : State) (start : Nat) : State :=
  let gone := s.changedParts start
  let s := (s.endWaiting gone).zeroGone gone
  { s with
    parts := Vector.ofFn fun p : Fin 8 => s.parts[p].under (start.testBit p.val) (gone.contains p)
    hearths := Vector.ofFn fun h : Fin 8 => if start.testBit h.val && !gone.contains h then s.hearths[h] else s.hearths[h].noWiden }

/-- R400, R408: reservations written for some hearths' partitions, together; ways beyond 12 of a tuyere leave TY_WAYS as it was. -/
def State.setResv (s : State) (vs : List (Fin 8 × Nat)) : State :=
  let want (h : Fin 8) : Option Nat := (vs.find? fun v => decide (v.1 = h)).map (·.2)
  let ways (h : Fin 8) : Nat := match want h with | some v => v % 65536 | none => (s.glb.tyWays[h]).toNat
  let used (sh : Nat) : Nat := (((List.finRange 8).filter fun h => decide (s.parts[h].mode ≠ .none)).map fun h => ways h / 2 ^ sh % 256).sum
  let over_ := decide (12 < used 0) || decide (12 < used 8)
  { s with glb := { s.glb with
      tyWays := Vector.ofFn fun h => if over_ then s.glb.tyWays[h] else BitVec.ofNat 16 (ways h)
      hbmSlots := Vector.ofFn fun h => match want h with
        | some v => if v / 65536 % 16 ≤ 8 then BitVec.ofNat 4 (v / 65536) else s.glb.hbmSlots[h]
        | none => s.glb.hbmSlots[h] } }

/-- R390, R400: whether PARTITION_SET changes nothing of a partition that is not STOPPED. -/
def State.setAllowed (s : State) (start : Nat) (spread : BitVec 8) (resv : Fin 8 → Nat) : Bool :=
  let kept := (List.finRange 8).filter fun p => decide (s.parts[p].mode ≠ .none) && decide (startSize start p.val = s.partSize p)
  s.layoutOk start && kept.all fun p =>
    decide (s.parts[p].mode = .stopped) || (decide (spread.getLsbD p.val = s.mem.spread.getLsbD p.val) && decide (resv p = (s.resvReg p).toNat))

/-- R302: the spread of every partition. -/
def State.setSpread (s : State) (spread : BitVec 8) : State := { s with mem := { s.mem with spread := spread } }

/-- The first hearths of the partitions. -/
def State.firsts (s : State) : List (Fin 8) := (List.finRange 8).filter fun p => decide (s.parts[p].mode ≠ .none)

/-- R390, R400, R454: START_HI, SPREAD and the reservations together, or nothing. -/
def State.partitionSet (s : State) (n : Fin 4096) (pb : List Byte) : State :=
  let spread := BitVec.ofNat 8 (leAt pb 1 1)
  let resv (h : Fin 8) : Nat := leAt pb (4 + 4 * h.val) 4
  if s.setAllowed (setStart pb) spread resv then
    let s := (s.setLayout (setStart pb)).setSpread spread
    (s.setResv (s.firsts.map fun p => (p, resv p))).completePart n 0
  else s.completePart n stPartChanging

/-- PARTITION_SET (R390, R400, R454). -/
def execPartitionSet (n : Fin 4096) (x : HostFate) (s : State) : Host.Outcome State Fault Refusal :=
  .next (s.consume n x 0x21 fun s _ _ pb => s.partitionSet n pb)

/-! VAULT_INSTALL (R481 to R484) -/

/-- R1: bytes of the vault window. -/
def vaultBytes : Nat := if Config.isA1 then 2 ^ 40 else 4 * 2 ^ 40

/-- R483, step 3: whether regions overlap or reach beyond the vault. -/
def regionsBad (rs : List Region) : Bool :=
  (rs.any fun r => decide (vaultBytes < r.offset.toNat + r.len.toNat))
  || (List.range rs.length).any fun i => (List.range i).any fun k =>
      match rs[i]?, rs[k]? with
      | some a, some b => decide (a.offset.toNat < b.offset.toNat + b.len.toNat) && decide (b.offset.toNat < a.offset.toNat + a.len.toNat)
      | _, _ => false

/-- R484, R544: an installation ends: SEC_INSTALL_CTL, the event log. -/
def State.installEnd (s : State) (st : Status) : State :=
  { s with sec := { s.sec with instResult := st, instActive := false, install := none } }.log ⟨st, 0x0C, 6, 0, if st = 0 then 0 else 1, 0, 0, 2⟩

/-- R484: an installation ends, and with it the command that began it. -/
def State.installStop (s : State) (n : Fin 4096) (st : Status) : State := (s.installEnd st).complete n st

/-- R470, R483: the owner of the vault. -/
def State.setOwner (s : State) (d : Digest) : State := { s with sec := { s.sec with owner := some d } }

/-- R483, R484: an installation begins; the recorded manifest goes. -/
def State.installBegin (s : State) (i : Install) : State :=
  { s with sec := { s.sec with manifest := none, instActive := true, progress := 0, install := some i } }

/-- R482: the signed bytes of a manifest. -/
def manifestBody (pb : List Byte) : List Byte := pb.take (64 + 64 * leAt pb 4 4 + 1312)
/-- R482: the public key in a manifest. -/
def manifestKey (pb : List Byte) : List Byte := (pb.drop (64 + 64 * leAt pb 4 4)).take 1312
/-- R482: the signature of a manifest. -/
def manifestSig (pb : List Byte) : List Byte := (pb.drop (64 + 64 * leAt pb 4 4 + 1312)).take 2420
/-- R482: the owner digest that a manifest names. -/
def manifestOwner (pb : List Byte) : Digest := BitVec.ofNat 256 (leAt pb 8 32)

/-- R483, step 2: whether the owner of record, or the digest named where there is none, is not that of the manifest's key. -/
def State.ownerDiffers (s : State) (pb : List Byte) : Bool :=
  match s.sec.owner with
  | some o => decide (o ≠ Config.sha3 (manifestKey pb))
  | none => decide (manifestOwner pb ≠ Config.sha3 (manifestKey pb))

/-- R482, R483: a manifest's checks in order, then the installation, or the change of owner. -/
def State.installCheck (s : State) (n : Fin 4096) (pb : List Byte) : State :=
  if !Config.mldsaVerify (manifestKey pb) (ascii "BROAMET-MANIFEST") (manifestBody pb) (manifestSig pb) then s.installStop n stSignature
  else if s.ownerDiffers pb then s.installStop n stOwner
  else if s.sec.owner.isSome ∧ manifestOwner pb ≠ Config.sha3 (manifestKey pb) then (s.setOwner (manifestOwner pb)).installStop n 0
  else if regionsBad (manifestRegions pb) then s.installStop n stCmdMalformed
  else s.installBegin ⟨n, manifestRegions pb, Config.sha3 (manifestBody pb), Config.sha3 (manifestKey pb)⟩

/-- VAULT_INSTALL (R482, R483, R484). One installation runs at a time. -/
def execVaultInstall (n : Fin 4096) (x : HostFate) (s : State) : Host.Outcome State Fault Refusal :=
  .next (if s.sec.instActive then s else s.consume n x 0x30 fun s _ _ pb => s.installCheck n pb)

/-- R484: a region's bytes at the host. -/
def State.regionBytes (s : State) (r : Region) : List Byte := readBytes s.mem.host r.host.toNat r.len.toNat

/-- R484: a region's bytes written to the vault. -/
def State.writeRegion (s : State) (r : Region) : State := { s with mem := { s.mem with vault := writeBytes s.mem.vault r.offset.toNat (s.regionBytes r) } }

/-- R484: regions read from the host and written to the vault, up to the first whose digest does not match. -/
def State.writeRegions : State → List Region → State × Nat × Bool
  | s, [] => (s, 0, true)
  | s, r :: rs =>
    if (Config.sha3 (s.regionBytes r)).setWidth 128 = r.digest then
      let x := (s.writeRegion r).writeRegions rs
      (x.1, x.2.1 + r.len.toNat, x.2.2)
    else (s.writeRegion r, r.len.toNat, false)

/-- R484: the GiB that an installation has written. -/
def State.setProgress (s : State) (bytes : Nat) : State := { s with sec := { s.sec with progress := BitVec.ofNat 32 (bytes / 2 ^ 30) } }

/-- R484: the manifest of an installation that succeeded is of record, and its owner enrolled. -/
def State.recordManifest (s : State) (i : Install) : State := { s with sec := { s.sec with manifest := some (i.regions, i.digest), owner := some i.owner } }

/-- VAULT_INSTALL_DONE (R484). -/
def execVaultInstallDone (hostOk : Bool) (s : State) : Host.Outcome State Fault Refusal :=
  .next (match s.sec.install with
    | none => s
    | some i =>
      if !hostOk || !s.hostUp then s.installStop i.ctx stTier
      else
        let x := s.writeRegions i.regions
        let s := x.1.setProgress x.2.1
        if x.2.2 then (s.recordManifest i).installStop i.ctx 0 else s.installStop i.ctx stVaultDigest)

/-! ATTEST (R473, R474) -/

/-- R474: CONFIG_DIGEST. -/
def State.configDigest (s : State) : Digest :=
  let regs := [0x0000010, 0x0B00180] ++ (List.range 8).map (fun h => 0x0000140 + 4 * h) ++ [0x0000018, 0x0B001C0, 0x0C00000, 0x0C00004, 0x0C00008, 0x0000008]
  let held := [0x0B001C0, 0x0C00000, 0x0C00008]
  let value (o : Nat) : W32 := if held.contains o then s.readReg o &&& 0x7FFFFFFF else if o = 0x0000008 then s.readReg o &&& 0xFFFFFEFF else s.readReg o
  let budgets := (List.finRange 8).map fun h => (s.hearths[h].budget).setWidth 32
  Config.sha3 ((regs.map value ++ budgets).flatMap fun v => toLE v.toNat 4)

/-- R473: the report that a nonce asks for, without its signature. -/
def State.report (s : State) (nonce : List Byte) : List Byte :=
  let fw := s.sec.fwRunning
  toLE 0x54535441 4 ++ toLE 1 2 ++ toLE (s.sec.instMode.toNat + 2 * s.sec.manifest.isSome.toNat + 4 * s.sec.fallback.toNat) 2 ++ nonce
  ++ toLE Config.serial.toNat 16 ++ toLE identReg.toNat 4 ++ toLE s.fab.moduleId.toNat 2 ++ toLE s.sec.counter.toNat 1
  ++ toLE ((fw.map (·.svn.toNat)).getD 0) 1
  ++ digestBytes ((fw.map fun f => Config.sha3 (f.bytes.take (64 + leAt f.bytes 8 8))).getD 0)
  ++ digestBytes s.configDigest ++ digestBytes ((s.sec.manifest.map (·.2)).getD 0) ++ digestBytes (s.sec.owner.getD 0)
  ++ toLE s.sec.bootId.toNat 8 ++ toLE (s.nsAt s.now) 8 ++ sized 1184 (Config.kemPublic s.sec.kemDraw) ++ certificate

/-- R473: a report and its signature are written to the host. -/
def State.attest (s : State) (n : Fin 4096) (e : List Byte) : State :=
  let r := s.report ((e.drop 24).take 32)
  (s.draw.2.hostWrite (leAt e 56 8) (r ++ sized 2420 (Config.mldsaSign (ascii "BROAMET-ATTEST") r s.draw.1))).complete n 0 (BitVec.ofNat 128 7568)

/-- ATTEST (R473). -/
def execAttest (n : Fin 4096) (x : HostFate) (s : State) : Host.Outcome State Fault Refusal :=
  .next (s.consume n x 0x40 fun s _ e _ => s.attest n e)

/-! STREAM_OPEN and STREAM_CLOSE (R414, R416, R431) -/

/-- STREAM_OPEN (R414, R416). -/
def execStreamOpen (n : Fin 4096) (x : HostFate) (s : State) : Host.Outcome State Fault Refusal :=
  .next (s.consume n x 0x50 fun s c e _ =>
    match s.openMedia (some c.num) (leAt e 24 8) (leAt e 32 1) with
    | .error st => s.complete n st
    | .ok (id, s) => s.complete n 0 (BitVec.ofNat 128 id))

/-- R431: a stream that its owner, or an administrator, closes: at once where no unit of its engine runs. -/
def State.streamClose (s : State) (n : Fin 4096) (c : LCtx) (k : Fin 2) (id : Fin 256) (drop : Bool) : State :=
  match s.mediaCtx k id with
  | none => s.complete n stCmdTarget
  | some m =>
    if !c.admin && decide (m.owner ≠ some c.num) then s.complete n stCmdTarget
    else
      let s := (s.closeMedia k id drop).complete n 0
      if s.media[k].running.isNone then s.mediaBoundary k else s

/-- STREAM_CLOSE (R431). -/
def execStreamClose (n : Fin 4096) (x : HostFate) (s : State) : Host.Outcome State Fault Refusal :=
  .next (s.consume n x 0x51 fun s c e _ => s.streamClose n c ⟨leAt e 24 2 / 256 % 2, by omega⟩ ⟨leAt e 24 2 % 256, by omega⟩ ((leAt e 26 1).testBit 0))

/-! Posting (R446, R447, R449, R456, R457) -/

/-- R456: a completion queue entry. -/
def queueEntry (c : LCtx) (cid : BitVec 16) (st : Status) (opc kind : Nat) (r : BitVec 128) : List Byte :=
  toLE cid.toNat 2 ++ toLE st.toNat 2 ++ toLE opc 1 ++ toLE kind 1 ++ toLE c.phase.toNat 1 ++ toLE 0 1 ++ toLE c.sqHead 2 ++ toLE 0 6 ++ toLE r.toNat 16

/-- R447: the completion tail moves past an entry; the phase inverts at each wrap. -/
def LCtx.posted (c : LCtx) : LCtx :=
  let tail := (c.cqTail + 1) % 2 ^ c.cqLog
  { c with cqTail := tail, phase := if tail = 0 then !c.phase else c.phase, served := true }

/-- R447: with IRQ_EN one message is sent. -/
def State.sendMsix (s : State) (c : LCtx) : State := if c.irq then s.modLarcy fun l => { l with msixSent := l.msixSent ++ [c.vector] } else s

/-- R447: an entry is written at the completion tail. -/
def State.post (s : State) (n : Fin 4096) (c : LCtx) (bs : List Byte) (f : LCtx → LCtx) : State :=
  ((s.hostWrite (c.cqAddr.toNat + 32 * c.cqTail) bs).modCtx n fun c => (f c).posted).sendMsix c

/-- The resident context with room whose entry may be posted. -/
def State.poster (s : State) (n : Fin 4096) : Option LCtx := (s.ctx n).filter fun c => s.sec.fwOk && c.resident && c.room

/-- COMPLETION_POST (R446, R449, R456). -/
def execCompletionPost (n : Fin 4096) (ok : Bool) (s : State) : Host.Outcome State Fault Refusal :=
  .next (match s.poster n with
    | none => s
    | some c => match c.done with
      | none => s
      | some d => if !ok || !s.hostUp then s.queueFault n else s.post n c (queueEntry c d.cid d.status d.opc.toNat 0 d.result) fun c => { c with done := none })

/-- EVENT_POST (R446, R449, R456). -/
def execEventPost (n : Fin 4096) (ok : Bool) (s : State) : Host.Outcome State Fault Refusal :=
  .next (match s.poster n with
    | none => s
    | some c => match c.events with
      | [] => s
      | d :: r => if !ok || !s.hostUp then s.queueFault n else s.post n c (queueEntry c 0 d.status 0 (1 + d.stream.toNat) (d.id.setWidth 128)) fun c => { c with events := r })

/-! Residency (R450 to R452) -/

/-- The entry of a list with the least measure; the first of equals. -/
def leastBy (f : LCtx → Nat) : List LCtx → Option LCtx
  | [] => none
  | x :: r => match leastBy f r with
    | none => some x
    | some y => some (if f y < f x then y else x)

/-- R451: the resident context that is evicted. -/
def State.victim (s : State) : Option LCtx :=
  let rs := s.larcy.ctxs.filter (·.resident)
  ((leastBy (·.idleSince) (rs.filter fun c => c.idle)).or
    (leastBy (·.blockedSince) (rs.filter fun c => !c.idle && !c.runnable))).or
    (leastBy (·.loadedAt) (rs.filter fun c => c.runnable && c.served))

/-- R451: the head of the waiting list becomes resident. -/
def State.loadHead (s : State) (n : Fin 4096) : State :=
  (s.modLarcy fun l => { l with waiting := l.waiting.drop 1 }).modCtx n fun c => { c with resident := true, loadedAt := s.now, served := false }

/-- R451: a resident context leaves. -/
def State.evict (s : State) (v : Fin 4096) : State :=
  (s.modLarcy fun l => { l with evictions := satAdd l.evictions 1 }).modCtx v fun c => { c with resident := false }

/-- CONTEXT_SWAP (R451): a context that stopped being runnable leaves the list. -/
def execContextSwap (s : State) : Host.Outcome State Fault Refusal :=
  .next (match s.larcy.waiting with
    | [] => s
    | n :: _ =>
      if (s.larcy.ctxs.filter (·.resident)).length < 256 then s.loadHead n
      else match s.victim with
        | none => s
        | some v => (s.loadHead n).evict v.num)

/-! Doorbells and context 0 (R447, R452, R459 to R461) -/

/-- A write of TY0_LQ_SQ_TAIL or TY0_LQ_CQ_HEAD (R461). -/
def State.writeDoorbell (s : State) (n : Fin 4096) (head : Bool) (v : W32) : State :=
  match s.ctx n with
  | none => s
  | some c =>
    if head then (if v.toNat % 4096 < 2 ^ c.cqLog then s.modCtx n fun c => { c with cqHead := v.toNat % 4096 } else s)
    else (if v.toNat % 4096 < 2 ^ c.sqLog then s.modCtx n fun c => { c with sqTail := v.toNat % 4096 } else s)

/-- SQ_TAIL_DOORBELL (R447, R452, R461). -/
def execSqTailDoorbell (n : Fin 4096) (v : BitVec 32) (s : State) : Host.Outcome State Fault Refusal := .next (s.barWrite fun s => s.writeDoorbell n false v)

/-- CQ_HEAD_DOORBELL (R447, R452, R461). -/
def execCqHeadDoorbell (n : Fin 4096) (v : BitVec 32) (s : State) : Host.Outcome State Fault Refusal := .next (s.barWrite fun s => s.writeDoorbell n true v)

/-- R459: the fields of TY0_LARCY_CTL other than ENABLE, stored by any write. -/
def State.storeLarcyCtl (s : State) (v : W32) : State :=
  let log (x : Nat) (old : BitVec 4) : BitVec 4 := if 4 ≤ x ∧ x ≤ 12 then BitVec.ofNat 4 x else old
  s.modLarcy fun l => { l with verMax := BitVec.ofNat 8 (bits v 15 8), cqLog2 := log (bits v 7 4) l.cqLog2, sqLog2 := log (bits v 3 0) l.sqLog2 }

/-- R460: context 0 opens, or VER_FAIL. -/
def State.openZero (s : State) : State :=
  match bestVersion 0 s.larcy.verMax.toNat with
  | none => s.modLarcy fun l => { l with verFail := true, ver := 0 }
  | some v =>
    let l := s.larcy
    let sq : BitVec 64 := BitVec.ofNat 64 (l.sq0Hi.toNat * 2 ^ 32 + l.sq0Lo.toNat * 4096)
    let cq : BitVec 64 := BitVec.ofNat 64 (l.cq0Hi.toNat * 2 ^ 32 + l.cq0Lo.toNat * 4096)
    s.modLarcy fun l => { l with enable := true, verFail := false, ver := v, ctxs := LCtx.fresh 0 sq cq l.sqLog2.toNat l.cqLog2.toNat v true true 0 s.now :: l.ctxs }

/-- A write of TY0_LARCY_CTL (R459, R460). -/
def State.writeLarcyCtl (s : State) (v : W32) : State :=
  if v.getLsbD 31 then (if s.larcy.enable then s.storeLarcyCtl v else (s.storeLarcyCtl v).openZero)
  else if s.larcy.enable then (s.storeLarcyCtl v).closeCtx 0 else s.storeLarcyCtl v

/-- CONTEXT0_OPEN (R459, R460): a write of TY0_LARCY_CTL with ENABLE = 1. -/
def execContext0Open (v : BitVec 32) (s : State) : Host.Outcome State Fault Refusal :=
  .next (if v.getLsbD 31 then s.barWrite fun s => s.writeLarcyCtl v else s)

/-- CONTEXT0_CLOSE (R459): a write of TY0_LARCY_CTL with ENABLE = 0. -/
def execContext0Close (v : BitVec 32) (s : State) : Host.Outcome State Fault Refusal :=
  .next (if v.getLsbD 31 then s else s.barWrite fun s => s.writeLarcyCtl v)

end Sys2Proof.Machine
end

