-- ==== Sys2Proof/Machine/Hbm.lean ====
section
/-! DEFINITION. HBM stacks in service: temperature, bellows and quench, replays, row repair, fences, and the host's window (R305 to R320, R329, R331, R332, R366, R442). -/

namespace Sys2Proof.Machine

/-- The hearth of a stack. -/
def stackHearth (n : Fin 32) : Fin 8 := ⟨n.val / 4, by omega⟩

/-- The state with a stack changed. -/
def State.modStack (s : State) (n : Fin 32) (f : Stack → Stack) : State := { s with mem := { s.mem with stk := s.mem.stk.set n (f s.mem.stk[n]) } }

/-- R545: DETAIL of an entry that a stack makes: address, level (4 for quench) and TEMP. -/
def State.stackDetail (s : State) (n : Fin 32) (a : Nat) : Nat :=
  let k := s.mem.stk[n]
  a % 2 ^ 48 + (if k.mode = .quenched then 4 else k.level.val) * 2 ^ 48 + k.temp.toNat * 2 ^ 56

/-- R544: an event of a stack. -/
def State.logStack (s : State) (n : Fin 32) (event : Nat) (st : Status) (flags a : Nat) : State :=
  s.log ⟨st, event, 3, n.val, flags, 0, 0, s.stackDetail n a⟩

/-- R313, R319, R539: what a stack that goes out of service ends: the task of its partition, or, where none runs, the partition's service. -/
def State.stackEnd (s : State) (n : Fin 32) (st : Status) : State :=
  match s.partOf (stackHearth n) with
  | none => s
  | some p =>
    if s.parts[p].task.isSome then s.endTask p (s.unitEnding st 3 n.val (s.stackDetail n 0))
    else let m := s.restState p; s.modPart p fun x => { x with mode := m }

/-- R432: whether a range of HBM has bytes on a stack of a list. -/
def State.onStacks (s : State) (ks : List (Fin 32)) (a n : Nat) : Bool :=
  decide (n ≠ 0) && (List.range ((a + n - 1) / 4096 - a / 4096 + 1)).any fun i => ks.contains (s.stackOf (4096 * (a / 4096 + i)))

/-! Bellows (R315, R318, R366) -/

/-- R315: the level whose threshold a sample meets, in units of 0.5 °C; 4 is quench. -/
def sampleLevel (t : Nat) : Nat := if 210 ≤ t then 4 else if 190 ≤ t then 3 else if 180 ≤ t then 2 else if 170 ≤ t then 1 else 0

/-- R315: the threshold of a level. -/
def levelThreshold (l : Nat) : Nat := match l with | 0 => 0 | 1 => 170 | 2 => 180 | _ => 190

/-- R315: the next level: up to the one that the sample meets, or down by one where it lies more than 3 °C below. -/
def nextLevel (l t : Nat) : Nat := if l < sampleLevel t then sampleLevel t else if t + 6 < levelThreshold l then l - 1 else l

/-- R318, R366: a hearth's delay notice: limits restart here, and the job's other modules are told of the collectives in progress. -/
def State.delayNotice (s : State) (h : Fin 8) : State :=
  let s := { s with mem := { s.mem with noticeAt := s.mem.noticeAt.set h s.now } }
  match s.partOf h with
  | none => s
  | some p =>
    let s := s.restartLimits p fun _ => true
    let groups := ((s.members p).flatMap fun g => (s.core g).colls.map fun c => cGroup c.desc).dedup
    let notices := (List.range (max 1 (ceilDiv groups.length 8))).map fun i =>
      let gs := (groups.drop (8 * i)).take 8
      ctrlBytes 4 gs.length (gs.flatMap fun g => toLE g.toNat 4)
    (s.otherModules p).foldl (fun s m => notices.foldl (fun s bs => s.unitControl p m bs) s) s

/-- R320: a stack that stops: a soft repair in progress ends, its row logged (R310) and not remapped. DESIGN CHOICE (log 59): a repair's counts stand from its start, for the 3 µs of R308, and are taken back here. -/
def State.stopRepair (s : State) (n : Fin 32) : State :=
  match s.mem.stk[n].repair with
  | none => s
  | some r =>
    if s.now < r.till then (s.modStack n fun k => { k with repair := none, sppr := r.sppr, repairs := r.repairs }).logStack n 0x03 0 (2 * r.kept.toNat) r.addr.toNat
    else s.modStack n fun k => { k with repair := none }

/-- R319, R521: a quench ends the task of the stack's partition; it decides over a die trip of the same sample period. -/
def State.quenchEnd (s : State) (n : Fin 32) : State :=
  match (s.partOf (stackHearth n)).bind fun p => s.parts[p].task.bind fun t => t.ending.bind fun y => if y.status = stThermal ∧ s.now < y.at_ + usTicks 100 then some (p, y.at_) else none with
  | some (p, c) => s.endTask p { s.unitEnding stQuench 3 n.val (s.stackDetail n 0) with at_ := c }
  | none => s.stackEnd n stQuench

/-- R319, R320: a stack is quenched. -/
def State.quench (s : State) (n : Fin 32) : State :=
  let s := (s.stopRepair n).modStack n fun k => { k with mode := .quenched, stoppedAt := some s.now, hot := true }
  let s := { s with pwr := { s.pwr with thermTrip := true }, mem := { s.mem with replays := s.mem.replays.filter fun r => decide (s.stackOf r.addr.toNat ≠ n) } }
  (s.quenchEnd n).endMediaOn (fun a k => s.onStacks [n] a k) stQuench

/-- R320: whether a stack was itself stopped in the sample period that runs. -/
def State.stoppedThisPeriod (s : State) (k : Stack) : Bool := k.stoppedAt.any fun t => decide (s.now < t + usTicks 100)

/-- STACK_TEMP_SAMPLE (R315, R318, R319, R320, R332): a sample in units of 0.5 °C. At quench level it quenches any stack that has not been quenched, a fenced one too. -/
def execStackTempSample (n : Fin 32) (t : Nat) (s : State) : Host.Outcome State Fault Refusal :=
  .next (let k := s.mem.stk[n]
    let s := s.modStack n fun k => { k with temp := BitVec.ofNat 8 (min t 255) }
    if sampleLevel t = 4 then (if k.hot then s else s.quench n)
    else if k.mode ≠ .inService then s
    else
      let l := nextLevel k.level.val t
      let s := s.modStack n fun k => { k with level := ⟨l % 4, by omega⟩ }
      if l ≠ k.level.val ∧ 2 ≤ l then (s.logStack n 0x04 0 0 0).delayNotice (stackHearth n) else s)

/-- BELLOWS_NOTICE_PERIOD (R318, R333). -/
def execBellowsNoticePeriod (h : Fin 8) (s : State) : Host.Outcome State Fault Refusal :=
  .next (if (List.finRange 32).any fun n => decide (stackHearth n = h) && decide (s.mem.stk[n].mode = .inService) && decide (2 ≤ s.mem.stk[n].level.val) then
      (s.reach (s.mem.noticeAt[h] + msTicks s.mem.periodMs.toNat)).delayNotice h
    else s)

/-! Replay (R306, R307, R432) -/

/-- Whether the transfer at a queue's head reads an HBM byte. -/
def Xfer.reads (x : Xfer) (a : Nat) : Bool :=
  !x.store && (match x.kind with
    | .copy => decide (x.src.space = 0) && decide (x.src.off.toNat ≤ a) && decide (a < x.src.off.toNat + x.length)
    | .tile => x.ext.isSome || (decide (dSpace x.td = 0) && (winTiles x.td).any fun t =>
        decide (tileAddr x.td t.1 t.2 ≤ a) && decide (a < tileAddr x.td t.1 t.2 + recSize (dFmt x.td)))
    | .narrow => true)

/-- R170: the bundle and DMA queue of the work of a core that reads an HBM byte: a transfer at a queue's head, else the M queue's head, else the bundle it stands at. -/
def Core.readerOf (c : Core) (a : Nat) : BitVec 13 × Nat :=
  match (List.finRange 8).find? fun q => (c.q[q]).xfers.head?.any fun x => decide (x.phase = .queued) && x.reads a with
  | some q => (((c.q[q]).xfers.head?.map (·.bundle)).getD c.pc, q.val)
  | none => ((c.mq.head?.map (·.bundle)).getD c.pc, 0xFF)

/-- R170, R306, R307, R432: a read that fails after two replays ends what would consume it. -/
def State.readLost (s : State) (r : HbmReader) (a : BitVec 48) : State :=
  match r with
  | .core g => if s.live g then s.coreFault g stHbmData ((s.core g).readerOf a.toNat).1 ((s.core g).readerOf a.toNat).2 else s
  | .media e id => s.endMedia e id stHbmData
  | .host => { s.logStack (s.stackOf a.toNat) 0x07 stHbmData 0 a.toNat with reply := .poison }

/-- HBM_READ_REPLAY (R306): one replay of a read that failed, and whether it succeeds; one of a word whose stored parity fails does not. -/
def execHbmReadReplay (r : HbmReader) (a : BitVec 48) (ok : Bool) (s : State) : Host.Outcome State Fault Refusal :=
  .next (let same (x : Replay) : Bool := decide (x.reader = r) && decide (x.addr = a)
    let n := match s.mem.replays.find? same with | some x => x.count | none => 0
    let rest := s.mem.replays.filter fun x => !same x
    let put (xs : List Replay) : State := { s with mem := { s.mem with replays := xs } }
    if !s.hbmServed a.toNat then s
    else if ok && !s.mem.lost a.toNat 1 then put rest
    else if n = 0 then put (rest ++ [⟨r, a, 1⟩])
    else (put rest).readLost r a)

/-! Row repair (R308 to R311, R338) -/

/-- R308: the corrected reads of a row. -/
def Stack.correctedOf (k : Stack) (bank row : Nat) : Nat := ((k.corrected.find? fun c => decide (c.1 = bank) && decide (c.2.1 = row)).map (·.2.2)).getD 0

/-- R308: the count of a row's corrected reads replaced. -/
def Stack.setCorrected (k : Stack) (bank row n : Nat) : Stack :=
  let rest := k.corrected.filter fun c => !(decide (c.1 = bank) && decide (c.2.1 = row))
  { k with corrected := if n = 0 then rest else rest ++ [(bank, row, n)] }

/-- R309: the soft repairs that a bank has used. -/
def Stack.repairsOf (k : Stack) (bank : Nat) : Nat := ((k.repairs.find? fun c => decide (c.1 = bank)).map (·.2)).getD 0

/-- R310, R311: a failing row is logged, or dropped from a full log; whether it was recorded. -/
def State.logRow (s : State) (r : RowRec) : State × Bool :=
  if s.mem.repairLog.contains r then (s, true)
  else if s.mem.repairLog.length < 4096 then ({ s with mem := { s.mem with repairLog := s.mem.repairLog ++ [r] } }, true)
  else ({ s with mem := { s.mem with repairLost := satAdd s.mem.repairLost 1 } }, false)

/-- R308, R309: a failing row is remapped where its read and a resource allow it, and logged. -/
def State.repairRow (s : State) (e : RowError) : State :=
  let used := (s.mem.stk[e.stack]).repairsOf e.bank
  let remap := e.rowReadOk && Config.softRepairLeft e.stack.val e.bank used
  let (s, kept) := s.logRow ⟨e.stack, e.bank, e.row⟩
  let s := if remap then s.modStack e.stack fun k =>
      { k.setCorrected e.bank e.row 0 with
        sppr := satAdd k.sppr 1
        repairs := (k.repairs.filter fun c => decide (c.1 ≠ e.bank)) ++ [(e.bank, used + 1)]
        repair := some ⟨s.now + usTicks 3, e.addr, kept, k.sppr, k.repairs⟩ }
    else s
  s.logStack e.stack (if remap then 0x02 else 0x03) 0 (2 * kept.toNat) e.addr.toNat

/-- ROW_REPAIR (R308 to R311): an error report of a row; an uncorrectable error, or the fourth corrected read, makes it failing. -/
def execRowRepair (e : RowError) (s : State) : Host.Outcome State Fault Refusal :=
  .next (let k := s.mem.stk[e.stack]
    if k.mode ≠ .inService then s
    else if e.uncorrectable then s.repairRow e
    else
      let n := k.correctedOf e.bank e.row + 1
      let s := s.modStack e.stack fun k => k.setCorrected e.bank e.row n
      if n = 4 then s.repairRow e else s)

/-! Fences (R312 to R314, R320, R332, R522) -/

/-- R313, R332: the links of a hearth go out of service. -/
def State.fenceLinks (s : State) (h : Fin 8) : State :=
  (List.range 16).foldl (fun s r =>
    let l := linkOf h r
    if s.fab.links[l].mode = .up then s.linkDown l .fenced
    else s.modFab fun x => { x with links := x.links.set l { x.links[l] with mode := .fenced, speed := 0, tryMode := 0 } }) s

/-- The stacks of a hearth. -/
def hearthStacks (h : Fin 8) : List (Fin 32) := (List.finRange 32).filter fun n => decide (stackHearth n = h)

/-- R313, R320, R332: the stacks of a hearth are fenced; one that was quenched in this same sample period stays QUENCHED. -/
def State.fenceStacks (s : State) (h : Fin 8) : State :=
  (hearthStacks h).foldl (fun s k => (s.stopRepair k).modStack k fun x => { x with mode := if x.mode = .quenched ∧ s.stoppedThisPeriod x then x.mode else .fenced }) s

/-- R313, R522: a hearth leaves service: its HRT_PRESENT bit, FAULT_N, the replays of its stacks. -/
def State.dropHearth (s : State) (h : Fin 8) : State :=
  { s with
    glb := { s.glb with hrtPresent := s.glb.hrtPresent &&& ~~~(1#8 <<< h.val) }
    pwr := { s.pwr with faultN := true }
    mem := { s.mem with replays := s.mem.replays.filter fun r => decide (stackHearth (s.stackOf r.addr.toNat) ≠ h) } }

/-- R313: a hearth goes out of service in operation. -/
def State.fenceHearth (s : State) (n : Fin 32) : State :=
  let h := stackHearth n
  ((((s.fenceStacks h).dropHearth h).stackEnd n stFenced).fenceLinks h).endMediaOn (fun a k => s.onStacks (hearthStacks h) a k) stFenced

/-- R312: a fence's record in the management partition. -/
def State.recordFence (s : State) (n : Fin 32) : State :=
  if s.mem.fenceRecords.contains n then s else { s with mem := { s.mem with fenceRecords := s.mem.fenceRecords ++ [n] } }

/-- STACK_FENCE (R312, R313, R320): none for a stack that an earlier sample period quenched; with a quench of this period only the record. -/
def execStackFence (n : Fin 32) (_cause : FenceCause) (s : State) : Host.Outcome State Fault Refusal :=
  .next (match s.mem.stk[n].mode with
    | .inService => ((s.fenceHearth n).modStack n fun k => { k with stoppedAt := some s.now }).recordFence n
    | .quenched => if s.stoppedThisPeriod s.mem.stk[n] ∧ s.glb.hrtPresent.getLsbD (stackHearth n).val then (s.fenceHearth n).recordFence n else s
    | .fenced => s
    | .notPresent => s)

/-! The host's window (R307, R329, R337, R442) -/

/-- R329: the HBM address of a BAR2 offset; `none` at or beyond the window's size. -/
def State.hdmAddr (s : State) (x : Nat) : Option Nat := if x < s.mem.hdmSize.toNat * 2 ^ 30 then some (s.mem.hdmBase.toNat * 2 ^ 30 + x) else none

/-- R329, R478: whether an HBM byte lies in a partition that is closed to the host. -/
def State.hdmSecret (s : State) (a : Nat) : Bool :=
  match s.partOf ⟨a / 2 ^ 38 % 8, by omega⟩ with
  | some p => s.secret p
  | none => false

/-- R337: a refused host access is counted. -/
def State.countDenied (s : State) : State := { s with mem := { s.mem with hdmDenied := satAdd s.mem.hdmDenied 1 } }

/-- HOST_HDM_READ (R329): data, zeros, or poison; an access lies within one 64 B line. -/
def execHostHdmRead (x : BitVec 64) (len : Nat) (s : State) : Host.Outcome State Fault Refusal :=
  .next (if !s.hostUp then { s with reply := .none }
    else match s.hdmAddr x.toNat with
      | none => { s with reply := .data (List.replicate len 0) }
      | some a =>
        if s.hdmSecret a then { s.countDenied with reply := .data (List.replicate len 0) }
        else if !s.hbmServed a || s.mem.lost a len then { s.logStack (s.stackOf a) 0x07 stHbmData 0 a with reply := .poison }
        else { s with reply := .data (s.mem.read a len) })

/-- HOST_HDM_WRITE (R329): stored, or discarded. -/
def execHostHdmWrite (x : BitVec 64) (bs : List (BitVec 8)) (s : State) : Host.Outcome State Fault Refusal :=
  .next (if !s.hostUp then s
    else match s.hdmAddr x.toNat with
      | none => s
      | some a =>
        if s.hdmSecret a then s.countDenied
        else if !s.hbmServed a then s
        else ({ s with mem := s.mem.write a bs } : State).serviceDone false a bs)

/-- HOST_SNOOP (R442): the module holds no host line. -/
def execHostSnoop (_a : BitVec 64) (s : State) : Host.Outcome State Fault Refusal :=
  .next (if s.larcy.up && decide (4 ≤ s.larcy.proto.toNat) then { s with reply := .snoopMiss } else s)

end Sys2Proof.Machine
end

