-- ==== Sys2Proof/Machine/HostPort.lean ====
section
/-! DEFINITION. The host port: training, going down, and the function's power states (R441, R443, R444, R464, R484, R514, R516). -/

namespace Sys2Proof.Machine

/-- R441: the highest rate code of a protocol. -/
def maxRate (proto : BitVec 4) : Nat := match proto.toNat with | 1 => 1 | 2 => 2 | 3 => 3 | 4 => 2 | 5 => 2 | 6 => 3 | _ => 0

/-- R441: the widest of x16, x8 and x4 that a host offers. -/
def bestWidth (w : BitVec 5) : Nat := if 16 ≤ w.toNat then 16 else if 8 ≤ w.toNat then 8 else if 4 ≤ w.toNat then 4 else 0

/-- R514: whether HP0 may train: start-up has begun and HOST_PERST_N is high. -/
def State.canTrain (s : State) : Bool :=
  (decide (s.pwr.phase = .starting) || decide (s.pwr.phase = .ready)) && s.pwr.pins[(2 : Fin 4)].level && !s.larcy.up

/-- HP0_LINK_UP (R441, R464). -/
def execHp0LinkUp (o : HostOffer) (s : State) : Host.Outcome State Fault Refusal :=
  .next (let rate := min o.rate.toNat (maxRate o.proto)
    if s.canTrain && decide (rate ≠ 0) && decide (bestWidth o.width ≠ 0) then
      s.modLarcy fun l => { l with up := true, d3hot := false, proto := o.proto, width := BitVec.ofNat 5 (bestWidth o.width), rate := BitVec.ofNat 4 rate }
    else s)

/-- R471: a firmware update ends. -/
def State.updateEnd (s : State) (st : Status) : State :=
  { s with sec := { s.sec with fwResult := st, fwBusy := false } }.log ⟨st, 0x0C, 6, 0, if st = 0 then 0 else 1, 0, 0, 1⟩

/-- R328, R444, R471, R484: HP0 goes down: outstanding host accesses fail, contexts close, an installation and an update end; jobs and media contexts go on. -/
def State.portDown (s : State) : State :=
  if !s.larcy.up then s
  else
    let s := s.failHostXfers.closeAll.modLarcy fun l => { l with up := false, d3hot := false, proto := 0, width := 0, rate := 0, drops := satAdd l.drops 1 }
    let s := s.log ⟨0, 0x0A, 0, 0, 0, 0, 0, 0⟩
    let s := if s.sec.instActive then s.installEnd stTier else s
    if s.sec.fwBusy then s.updateEnd stTier else s

/-- HP0_DOWN (R444). -/
def execHp0Down (s : State) : Host.Outcome State Fault Refusal := .next s.portDown

/-- POWER_STATE_CHANGE (R443): D0 or D3hot. -/
def execPowerStateChange (d3hot : Bool) (s : State) : Host.Outcome State Fault Refusal :=
  .next (if s.larcy.up then s.modLarcy fun l => { l with d3hot := d3hot } else s)

end Sys2Proof.Machine
end

