-- ==== Sys2Proof/Machine/PowerEv.lean ====
section
/-! DEFINITION. Slow pins, rails, reset and start-up, and the thermal trip (R310, R312, R314, R326, R340, R466 to R472, R503 to R529). -/

namespace Sys2Proof.Machine

/-! Reset (R505, R515) -/

/-- R505, R22: what a reset leaves: the vault with its management partition, the eFuses and the reset cause, and a fenced hearth's cleared HRT_PRESENT bit until a start brings it back; the host's memory is not the module's. -/
def State.wipe (s : State) : State :=
  { State.reset with
    pending := s.pending
    now := s.now
    freeCtr := s.freeCtr
    reply := s.reply
    glb := { Glb.reset with cause := s.glb.cause, hrtPresent := s.glb.hrtPresent }
    mem := { Mem.reset with vault := s.mem.vault, host := s.mem.host, repairLog := s.mem.repairLog, fenceRecords := s.mem.fenceRecords }
    sec := { Security.reset with counter := s.sec.counter, fwSlots := s.sec.fwSlots, preferB := s.sec.preferB, manifest := s.sec.manifest, owner := s.sec.owner }
    pwr := s.pwr }

/-- R527: the causes that a reset by a pin adds for the next start. -/
def State.resetCauses (s : State) (first : Nat) (forced : Bool) : BitVec 6 :=
  let p := s.pwr
  BitVec.ofNat 6 (first + 4 * forced.toNat + 8 * p.refclkStop.toNat + 16 * p.railFault.toNat + 32 * p.thermTrip.toNat)

/-- R515, R522, R527: an accepted fall of PWR_GOOD or assertion of RESET_N resets the module. -/
def State.moduleReset (s : State) (first : Nat) (forced : Bool) : State :=
  let c := s.resetCauses first forced
  let s := s.wipe
  { s with pwr := { s.pwr with nextCause := s.pwr.nextCause ||| c, thermTrip := false, dieTrip := false, faultN := s.pwr.railFault, ready := false, phase := .reset, refclkStop := false } }

/-! Slow inputs (R506 to R510, R516, R526) -/

/-- GLB_PINS bit of an input. -/
def pinIndex : Pin → Fin 4
  | .pwrGood => 0 | .resetN => 1 | .hostPerstN => 2 | .throttleN => 3

/-- The state with a filter changed. -/
def State.modPin (s : State) (p : Pin) (f : Filter → Filter) : State :=
  { s with pwr := { s.pwr with pins := s.pwr.pins.set (pinIndex p) (f s.pwr.pins[pinIndex p]) } }

/-- R504, R510, R514 to R516: what a change of a filtered level does. -/
def State.pinEffect (s : State) (p : Pin) (level forced : Bool) : State :=
  match p, level with
  | .pwrGood, false => s.moduleReset 1 forced
  | .pwrGood, true =>
    { s with pwr := { s.pwr with t0 := s.now + msTicks 20, railsOn := s.pwr.inputOk, railFault := false, faultN := s.pwr.faultN && !s.pwr.railFault,
                                 phase := if s.pwr.phase = .off && s.pwr.inputOk then .reset else s.pwr.phase } }
  | .resetN, false => s.moduleReset 2 forced
  | .resetN, true => { s with pwr := { s.pwr with t0 := max s.pwr.t0 s.now } }
  | .hostPerstN, false => s.portDown
  | .hostPerstN, true => s
  | .throttleN, _ => s

/-- R527: RACING together with POWER or RESET_N, where racing forces the asserted level. -/
def racingCauses : Pin → BitVec 6
  | .pwrGood => 5 | .resetN => 6 | .hostPerstN => 0 | .throttleN => 0

/-- R527: causes added for the next start. -/
def State.addCauses (s : State) (c : BitVec 6) : State := { s with pwr := { s.pwr with nextCause := s.pwr.nextCause ||| c } }

/-- R508: a filter takes a level. -/
def Filter.take (f : Filter) (level : Bool) (now : Nat) : Filter :=
  { f with level := level, holdUntil := some (now + usTicks 100), changes := (f.changes.filter fun c => decide (now ≤ c + msTicks 10)) ++ [now] }

/-- R509, R544: an input becomes racing: its count and its entry in the event log. -/
def State.logRace (s : State) (p : Pin) : State :=
  { s with glb := { s.glb with raceCount := satAdd s.glb.raceCount 1 } }.log ⟨0, 0x09, 8, (pinIndex p).val, 0, 0, 0, 0⟩

/-- R508, R509: an accepted change; the 17th within 10 ms makes the input racing, at its asserted level. A racing input does not take a rise: only the causes change. -/
def State.acceptPin (s : State) (p : Pin) (level : Bool) : State :=
  let f := (s.pwr.pins[pinIndex p]).take level s.now
  if 16 < f.changes.length then
    let s := (s.modPin p fun _ => { f with level := false, racing := true, changes := [] }).logRace p
    if level then s.addCauses (racingCauses p) else s.pinEffect p false true
  else (s.modPin p fun _ => f).pinEffect p level false

/-- SLOW_INPUT_ACCEPT (R508, R509, R515): a level held for 1 µs; a filter that accepts has REFCLK. -/
def execSlowInputAccept (p : Pin) (level : Bool) (s : State) : Host.Outcome State Fault Refusal :=
  .next (let f := s.pwr.pins[pinIndex p]
    if !s.pwr.inputOk || f.racing || f.holdUntil.isSome || decide (f.level = level) then s
    else { s with pwr := { s.pwr with refclk := true } }.acceptPin p level)

/-- FILTER_HOLDOFF_END (R508): the level held over the last 1 µs, if any, is taken. -/
def execFilterHoldoffEnd (p : Pin) (held : Option Bool) (s : State) : Host.Outcome State Fault Refusal :=
  .next (match (s.pwr.pins[pinIndex p]).holdUntil with
    | none => s
    | some t =>
      let s := (s.reach t).modPin p fun f => { f with holdUntil := none }
      let f := s.pwr.pins[pinIndex p]
      match held with
      | none => s
      | some level => if f.racing || decide (f.level = level) then s else s.acceptPin p level)

/-- RACING_END (R509): one level held for 10 ms. -/
def execRacingEnd (p : Pin) (level : Bool) (s : State) : Host.Outcome State Fault Refusal :=
  .next (let f := s.pwr.pins[pinIndex p]
    if !f.racing then s
    else
      let s := s.modPin p fun f => { f with level := level, racing := false, changes := [], holdUntil := some (s.now + usTicks 100) }
      if f.level = level then s else s.pinEffect p level false)

/-! Start-up (R514, R466 to R472) -/

/-- R469: what a firmware image's bytes hold; `none` where they are no image. -/
def parseFw (bs : List Byte) : Option FwImage :=
  let n := leAt bs 8 8
  if leAt bs 0 4 = 0x57524946 ∧ leAt bs 4 1 ≤ 64 ∧ bs.length = 64 + n + 2420 + 1312 then
    some ⟨bs, BitVec.ofNat 8 (leAt bs 4 1), (leAt bs 5 1).testBit 0⟩
  else none

/-- R469: the checks of an image, in order. -/
def State.fwStatus (s : State) (f : FwImage) : Status :=
  let n := leAt f.bytes 8 8
  let key := (f.bytes.drop (64 + n + 2420)).take 1312
  if Config.sha3 key ≠ Config.firmwareKeyDigest then stSignature
  else if !Config.mldsaVerify key (ascii "BROAMET-FW") (f.bytes.take (64 + n)) ((f.bytes.drop (64 + n)).take 2420) then stSignature
  else if Config.sha3 ((f.bytes.drop 64).take n) ≠ BitVec.ofNat 256 (leAt f.bytes 16 32) then stSignature
  else if f.svn.toNat < s.sec.counter.toNat then stRollback
  else 0

/-- R468: the firmware slot. -/
def State.fwSlot (s : State) (b : Bool) : Option FwImage := if b then s.sec.fwSlots.2 else s.sec.fwSlots.1

/-- R469: the status of a slot's image. -/
def State.fwSlotStatus (s : State) (b : Bool) : Status := match s.fwSlot b with | some f => s.fwStatus f | none => stSignature

/-- R541, R544: the entry of a boot attempt. -/
def State.logBoot (s : State) (st : Status) : State := s.log ⟨st, 0x0C, 6, 0, if st = 0 then 0 else 1, 0, 0, 0⟩

/-- R469: the firmware of a slot runs. -/
def State.runFw (s : State) (b fall : Bool) : State :=
  { s with sec := { s.sec with bootStatus := 0, fallback := fall, slotB := b, fwOk := true, fwRunning := s.fwSlot b } }

/-- R469, R522: no slot boots. -/
def State.noBoot (s : State) (st : Status) : State := { s with sec := { s.sec with bootStatus := st }, pwr := { s.pwr with faultN := true } }

/-- R469, R544: the boot ROM tries the preferred slot, then the other; each attempt has its entry. -/
def State.boot (s : State) : State :=
  let b := s.sec.preferB
  let st := s.fwSlotStatus b
  let st2 := s.fwSlotStatus (!b)
  if st = 0 then (s.logBoot st).runFw b false
  else if st2 = 0 then ((s.logBoot st).logBoot st2).runFw (!b) true
  else ((s.logBoot st).logBoot st2).noBoot st

/-- R510, R514: whether a start may begin. -/
def State.canStart (s : State) : Bool :=
  decide (s.pwr.phase = .reset) && s.pwr.railsOn && s.pwr.refclk && !s.pwr.refclkStop && s.pwr.pins[(0 : Fin 4)].level && s.pwr.pins[(1 : Fin 4)].level

/-- R527: the causes of the start that begins. -/
def State.startCause (s : State) : BitVec 6 := if s.pwr.lostInput then 1 else s.pwr.nextCause

/-- R514, R527: start-up begins: the causes are latched. -/
def State.latchCause (s : State) : State :=
  { s with glb := { s.glb with cause := s.startCause }, pwr := { s.pwr with phase := .starting, nextCause := 0, lostInput := false } }

/-- R544: the entry of a start. -/
def State.logStart (s : State) (cause : BitVec 6) : State := s.log ⟨0, 0x0D, 0, 0, 0, 0, 0, cause.toNat⟩

/-- R472: BOOT_ID and the boot's key pair are drawn. -/
def State.drawBoot (s : State) : State :=
  { s.draw.2.draw.2 with sec := { s.sec with bootId := s.draw.1.setWidth 64, kemDraw := s.draw.2.draw.1 } }

/-- STARTUP_BEGIN (R469, R472, R514, R527, R544): at t0 the causes are latched, the ROM runs; firmware that boots draws BOOT_ID and trains the links. -/
def execStartupBegin (s : State) : Host.Outcome State Fault Refusal :=
  .next (if !s.canStart then s
    else
      let s := ((s.reach s.pwr.t0).latchCause.logStart s.startCause).boot
      if s.sec.fwOk then (List.finRange 128).foldl State.trainLink s.drawBoot else s)

/-- R310: the logged rows that start-up cannot hard-repair. -/
def badRows (rs : List RowRec) : List RowRec := rs.filter fun r => !Config.hardRepairWorks r.stack.val r.bank r.row

/-- R312, R314: the stack for which a start fences a hearth: one with a record, one that does not train, or one with a row that cannot be repaired. -/
def State.startFence (s : State) (t : TrainResult) (h : Fin 8) : Option (Fin 32) :=
  (hearthStacks h).find? fun n => s.mem.fenceRecords.contains n || !t.stackTrained.getLsbD n.val || ((badRows s.mem.repairLog).any fun r => decide (r.stack = n))

/-- R22, R310, R326, R332: every hearth and stack, and the vault stacks that trained, as a start finds them; the rows repaired. -/
def State.trained (s : State) (t : TrainResult) : State :=
  { s with
    glb := { s.glb with hrtPresent := 0xFF, vaultPresent := t.vaultTrained, tyPresent := t.tyPresent }
    mem := { s.mem with
      repairLog := badRows s.mem.repairLog
      stk := s.mem.stk.map fun k => { k with mode := if k.hot then k.mode else .inService } } }

/-- R21, R310, R312, R314, R326, R332: what a start brings into service: all that trains, but the hearths that it fences, with their cores, stacks and links. -/
def State.bringUp (s : State) (t : TrainResult) : State :=
  (List.finRange 8).foldl (fun r h => match s.startFence t h with | some n => r.fenceHearth n | none => r) (s.trained t)

/-- R470: the counter fuses that a booted image blows. -/
def State.blowFuses (s : State) : State :=
  match s.sec.fwRunning with
  | some f => if f.advance ∧ s.sec.counter.toNat < f.svn.toNat then { s with sec := { s.sec with counter := BitVec.ofNat 7 f.svn.toNat } } else s
  | none => s

/-- R522: FAULT_N where a hearth is absent. -/
def State.flagAbsent (s : State) : State := if s.glb.hrtPresent = 0xFF then s else { s with pwr := { s.pwr with faultN := true } }

/-- R22, R514: READY rises, and the HBM holds zeros. -/
def State.raiseReady (s : State) : State :=
  { s with
    mem := { s.mem with hbm := [], badHbm := [], replays := [] }
    pwr := { s.pwr with ready := true, phase := .ready, readyAt := s.now }
    glb := { s.glb with windowAt := s.now, throttle := 0 } }

/-- R390, R539: a partition that rests on what did not come into service is out of service. -/
def State.settleParts (s : State) : State :=
  (List.finRange 8).foldl (fun s p => if s.parts[p].mode = .idle then s.setMode p (s.restState p) else s) s

/-- READY_ASSERT (R514, R22, R470, R522): start-up completes where firmware runs, both tuyeres are present and a hearth trains. -/
def execReadyAssert (t : TrainResult) (s : State) : Host.Outcome State Fault Refusal :=
  .next (if s.pwr.phase ≠ .starting then s
    else
      let s := (s.bringUp t).flagAbsent
      if !s.sec.fwOk || decide (t.tyPresent ≠ 3) || decide (s.glb.hrtPresent = 0) then s
      else s.raiseReady.settleParts.blowFuses)

/-! Rails and clock (R503, R504, R512) -/

/-- What is lost when the module stops where it stands: everything that R505 does not keep. -/
def State.stop (s : State) : State :=
  let s := s.wipe
  { s with pwr := { s.pwr with ready := false, phase := .off } }

/-- INPUT_LOSS (R503, R505). -/
def execInputLoss (s : State) : Host.Outcome State Fault Refusal :=
  .next (let s := s.stop
    { s with
      glb := { s.glb with cause := 0 }
      pwr := { s.pwr with inputOk := false, railsOn := false, railFault := false, faultN := false, thermTrip := false, dieTrip := false, refclkStop := false,
                          nextCause := 0, lostInput := true, pins := Vector.replicate 4 (Filter.reset false) } })

/-- INPUT_RESTORE (R503): the rails ramp again. -/
def execInputRestore (s : State) : Host.Outcome State Fault Refusal :=
  .next (if s.pwr.inputOk then s else { s with pwr := { s.pwr with inputOk := true, railsOn := true, phase := .reset, t0 := max s.pwr.t0 s.now } })

/-- RAIL_FAULT (R504, R522): a rail by its hearth, or another one. -/
def execRailFault (_rail : Option (Fin 8)) (s : State) : Host.Outcome State Fault Refusal :=
  .next (if s.pwr.railsOn then
      let s := s.stop
      { s with pwr := { s.pwr with railsOn := false, railFault := true, faultN := true } }
    else s)

/-- REFCLK_LOSS (R512, R522). -/
def execRefclkLoss (s : State) : Host.Outcome State Fault Refusal :=
  .next (if s.pwr.inputOk then
      let s := s.stop
      { s with pwr := { s.pwr with refclk := false, refclkStop := true, faultN := true } }
    else s)

/-! The thermal trip (R521, R528, R539) -/

/-- R521, R539: every partition goes out of service; tasks and media contexts end. -/
def State.dieTrip (s : State) (d : Fin 10) : State :=
  let s := { s with pwr := { s.pwr with dieTrip := true, thermTrip := true } }
  let e := if d.val < 8 then s.unitEnding stThermal 2 d.val 0xFFFF else s.unitEnding stThermal 0 0 0
  let s := (List.finRange 8).foldl (fun s p =>
    if s.parts[p].task.isSome then s.endTask p e
    else if s.parts[p].mode = .none then s
    else s.modPart p fun x => { x with mode := .outOfService }) s
  s.endMediaOn (fun _ _ => true) stThermal

/-- DIE_TEMP_SAMPLE (R30, R521, R528): a sample in units of 0.5 °C of a die, H0 to H7, T0, T1. -/
def execDieTempSample (d : Fin 10) (t : Nat) (s : State) : Host.Outcome State Fault Refusal :=
  .next (let x : BitVec 8 := BitVec.ofNat 8 (min t 255)
    let s : State := { s with glb := { s.glb with dieTemp := s.glb.dieTemp.set d (x, if s.glb.dieTemp[d].2 < x then x else s.glb.dieTemp[d].2) } }
    if 230 ≤ t ∧ s.pwr.dieTrip = false then s.dieTrip d else s)

end Sys2Proof.Machine
end

