-- ==== Sys2Proof/Machine/SecurityEv.lean ====
section
/-! DEFINITION. Firmware updates and installation mode (R469, R471, R481, R487). -/

namespace Sys2Proof.Machine

/-- A write of SEC_FW_CTL (R471): GO starts an update unless one runs. -/
def State.writeFwCtl (s : State) (v : W32) : State :=
  if v.getLsbD 0 && !s.sec.fwBusy then
    { s with sec := { s.sec with
        fwBusy := true
        fwFrom := BitVec.ofNat 64 (s.sec.stageHi.toNat * 2 ^ 32 + s.sec.stageLo.toNat * 64)
        fwSize := s.sec.stageSize } }
  else s

/-- FW_UPDATE_GO (R471). -/
def execFwUpdateGo (v : BitVec 32) (s : State) : Host.Outcome State Fault Refusal := .next (s.barWrite fun s => s.writeFwCtl v)

/-- R471: a checked image goes to the slot that is not preferred, which becomes the preferred one. -/
def State.storeFw (s : State) (f : FwImage) : State :=
  { s with sec := { s.sec with
      fwSlots := if s.sec.preferB then (some f, s.sec.fwSlots.2) else (s.sec.fwSlots.1, some f)
      preferB := !s.sec.preferB } }

/-- FW_UPDATE_DONE (R469, R471): the update ends; `readOk` tells whether the host answered every read of the image. -/
def execFwUpdateDone (readOk : Bool) (s : State) : Host.Outcome State Fault Refusal :=
  .next (if !s.sec.fwBusy then s
    else if !readOk || !s.hostUp then s.updateEnd stTier
    else match parseFw (readBytes s.mem.host s.sec.fwFrom.toNat s.sec.fwSize.toNat) with
      | none => s.updateEnd stSignature
      | some f => if s.fwStatus f = 0 then (s.storeFw f).updateEnd 0 else s.updateEnd (s.fwStatus f))

/-- A write of SEC_INSTALL_CTL (R481): MODE rises only where every partition is STOPPED, and does not fall while an installation runs. -/
def State.writeInstallCtl (s : State) (v : W32) : State :=
  if v.getLsbD 0 then
    (if s.parts.toList.all fun p => decide (p.mode = .none) || decide (p.mode = .stopped) then { s with sec := { s.sec with instMode := true } } else s)
  else if s.sec.instActive then s
  else { s with sec := { s.sec with instMode := false } }

/-- INSTALL_MODE_WRITE (R481). -/
def execInstallModeWrite (v : BitVec 32) (s : State) : Host.Outcome State Fault Refusal := .next (s.barWrite fun s => s.writeInstallCtl v)

end Sys2Proof.Machine
end

