-- ==== Sys2Proof/Machine/CheckUnits.lean ====
section
/-! DEFINITION. The check-value units: context slots with their queues of writes, and snoop ports (R489 to R502). -/

namespace Sys2Proof.Machine

/-- The state with a check slot changed. -/
def State.modChk (s : State) (n : Fin 256) (f : ChkSlot → ChkSlot) : State := { s with chk := s.chk.set n (f s.chk[n]) }

/-- R492: whether a queued write costs no cycle, so that it is applied as it reaches the head. -/
def chkFree (w : ChkReg × W32) : Bool :=
  match w.1 with
  | .ctl => !w.2.getLsbD 8
  | .foldLo => true
  | .foldHi => true
  | _ => false

/-- R492: the writes of a queue that cost no cycle are applied from its head on. -/
def ChkSlot.settle (c : ChkSlot) : List (ChkReg × W32) → ChkSlot
  | [] => { c with queue := [] }
  | w :: r => if chkFree w then (c.apply w.1 w.2).settle r else { c with queue := w :: r }

/-- R492: the head of the queue is applied. -/
def ChkSlot.pop (c : ChkSlot) : ChkSlot :=
  match c.queue with
  | [] => c
  | w :: r => (c.apply w.1 w.2).settle r

/-- R492: a write enters the queue; where it holds 16, the oldest is applied first, as the host port holds the write until an entry frees. -/
def ChkSlot.push (c : ChkSlot) (r : ChkReg) (v : W32) : ChkSlot :=
  let c := if c.queue.length < 16 then c else c.pop
  c.settle (c.queue ++ [(r, v)])

/-- R497, R8: the registers that a write acts on. -/
def chkWritable (r : ChkReg) : Bool :=
  match r with
  | .resultLo => false
  | .resultHi => false
  | .count => false
  | _ => true

/-- R491, R492: a write of a slot's register. -/
def State.writeChk (s : State) (n : Fin 256) (r : ChkReg) (v : W32) : State :=
  if s.chkServed n && chkWritable r then s.modChk n fun c => c.push r v else s

/-- CHK_SLOT_WRITE (R491, R492). -/
def execChkSlotWrite (n : Fin 256) (reg : ChkReg) (v : BitVec 32) (s : State) : Host.Outcome State Fault Refusal :=
  .next (s.barWrite fun s => s.writeChk n reg v)

/-- The head of a slot's queue is applied if it is a write that the command names. -/
def State.chkHead (s : State) (n : Fin 256) (is : ChkReg → Bool) : State :=
  match s.chk[n].queue with
  | [] => s
  | w :: _ => if is w.1 then s.modChk n ChkSlot.pop else s

/-- CHK_START (R493). -/
def execChkStart (n : Fin 256) (s : State) : Host.Outcome State Fault Refusal := .next (s.chkHead n fun r => decide (r = .ctl))
/-- CHK_DATA8 (R494). -/
def execChkData8 (n : Fin 256) (s : State) : Host.Outcome State Fault Refusal := .next (s.chkHead n fun r => decide (r = .data8))
/-- CHK_DATA16 (R494). -/
def execChkData16 (n : Fin 256) (s : State) : Host.Outcome State Fault Refusal := .next (s.chkHead n fun r => decide (r = .data16))
/-- CHK_DATA32 (R494). -/
def execChkData32 (n : Fin 256) (s : State) : Host.Outcome State Fault Refusal := .next (s.chkHead n fun r => decide (r = .data32))
/-- CHK_VAL_WRITE (R495, R496). -/
def execChkValWrite (n : Fin 256) (s : State) : Host.Outcome State Fault Refusal :=
  .next (s.chkHead n fun r => decide (r = .valLo) || decide (r = .valHi))

/-- CHK_READ (R495, R491): the value that a read returns. -/
def execChkRead (n : Fin 256) (reg : ChkReg) (s : State) : Host.Outcome State Fault Refusal :=
  .next (if s.larcy.d3hot then { s with reply := .none }
    else if !s.chkServed n then { s with reply := .word 0 }
    else
      let s := if chkWaits reg then s.modChk n ChkSlot.flush else s
      { s with reply := .word (chkView s.chk[n] reg) })

/-! Snoop ports (R498, R500, R502) -/

/-- SNOOP_PORT_ATTACH (R498): firmware attaches a port, or detaches it. -/
def execSnoopPortAttach (p : Fin 16) (a : Option SnoopStream) (poly : BitVec 2) (s : State) : Host.Outcome State Fault Refusal :=
  .next { s with snoop := s.snoop.set p { s.snoop[p] with stream := a, poly := poly } }

/-- SNOOP_RESULT_DEQUEUE (R500, R502): the oldest entry is taken. -/
def execSnoopResultDequeue (p : Fin 16) (s : State) : Host.Outcome State Fault Refusal :=
  .next (match s.snoop[p].results with
    | [] => { s with reply := .none }
    | x :: r => { s with reply := .data (toLE x.toNat 16), snoop := s.snoop.set p { s.snoop[p] with results := r } })

end Sys2Proof.Machine
end

