-- ==== Sys2Proof/Machine/RegWrite.lean ====
section
/-! DEFINITION. Writes of the registers of BAR0: those with a command of their own and the rest (R5 to R10, R17, R115, R116, R230, R333 to R337, R374 to R378, R404 to R408, R434, R436, R459 to R463, R487, R523 to R528, R530 to R536, R546). -/

namespace Sys2Proof.Machine

/-- A written field, kept where the value written is reserved (R10). -/
def fieldOr {w : Nat} (ok : Bool) (v : Nat) (old : BitVec w) : BitVec w := if ok then BitVec.ofNat w v else old

/-- A field of which each 1 written clears its bit (R8). -/
def clearOnes {w : Nat} (old : BitVec w) (v : Nat) : BitVec w := old &&& ~~~BitVec.ofNat w v

/-! GLOBAL (R17, R404, R406, R408, R525 to R527, R546) -/

/-- A write of GLB_BRIDGE_CTL (R17): held while a partition holds a job. -/
def State.writeBridge (s : State) (v : W32) : State :=
  if bits v 7 4 = 0 ∨ 8 < bits v 7 4 then s
  else if s.jobHeld then { s with glb := { s.glb with bridgeHeld := some v } }
  else s.setBridge v

/-- A write of GLB_PART_CFG (R404, R390). -/
def State.writePartCfg (s : State) (v : W32) : State :=
  let start := 1 + 2 * bits v 7 1
  let s : State := { s with glb := { s.glb with reject := s.glb.reject && !v.getLsbD 31 } }
  if !startOk start then s
  else if s.layoutOk start then s.setLayout start
  else { s with glb := { s.glb with reject := true } }

/-- A write of GLB_JOB_POLICY (R406). -/
def State.writeJobPolicy (s : State) (v : W32) : State :=
  { s with glb := { s.glb with staticOnly := v.getLsbD 16, gangLimit := fieldOr (decide (bits v 7 0 ≠ 0)) (bits v 7 0) s.glb.gangLimit } }

/-- A write of GLB_EVLOG_SEL (R541, R546). -/
def State.selectEvent (s : State) (v : W32) : State :=
  match s.evShown.find? fun (x : BitVec 256) => decide ((x >>> 64).setWidth 32 = v) with
  | some x => { s with glb := { s.glb with evSel := v, evData := x, evMiss := false } }
  | none => { s with glb := { s.glb with evSel := v, evData := 0, evMiss := true } }

/-- Writes of the GLOBAL block (R534). -/
def State.writeGlobal (s : State) (x : Nat) (v : W32) : State :=
  if x = 0x008 then s.writeBridge v
  else if x = 0x010 then s.writePartCfg v
  else if x = 0x018 then s.writeJobPolicy v
  else if x = 0x020 then { s with glb := { s.glb with fraction := fieldOr (decide (4 ≤ bits v 3 0)) (bits v 3 0) s.glb.fraction } }
  else if x = 0x024 then { s with glb := { s.glb with raceCount := clearOnes s.glb.raceCount (bits v 31 16) } }
  else if x = 0x028 then { s with glb := { s.glb with cause := clearOnes s.glb.cause (bits v 5 0) } }
  else if 0x140 ≤ x ∧ x < 0x160 then
    let h : Fin 8 := ⟨(x - 0x140) / 4 % 8, by omega⟩
    if s.parts[h].mode = .stopped then s.setResv [(h, v.toNat)] else s
  else if x = 0x204 then { s with glb := { s.glb with evOver := clearOnes s.glb.evOver (bits v 15 0) } }
  else if x = 0x208 then s.selectEvent v
  else s

/-! HEARTH (R115, R116, R230, R523) -/

/-- A write of a work counter's register (R116). -/
def State.writeWctr (s : State) (h : Fin 8) (n : Fin 64) (x : Nat) (v : W32) : State :=
  if x = 0x00 then s.modWctr h n fun w => { w with value := v }
  else if x = 0x04 then s.modWctr h n fun w => { w with limit := v }
  else if x = 0x08 then s.modWctr h n fun w => { w with bmapLo := BitVec.ofNat 26 (bits v 31 6) }
  else if x = 0x0C then s.modWctr h n fun w => { w with bmapHi := BitVec.ofNat 16 (bits v 15 0) }
  else if x = 0x10 then s.writeWctrCtl h n v
  else s

/-- Writes of a HEARTH block (R535). -/
def State.writeHearth (s : State) (h : Fin 8) (x : Nat) (v : W32) : State :=
  if !s.glb.hrtPresent.getLsbD h.val then s
  else if 0x10000 ≤ x ∧ x < 0x10800 then s.writeWctr h ⟨(x - 0x10000) / 0x20 % 64, by omega⟩ (x % 0x20) v
  else if x = 0x00100 then s.modHearth h fun y => { y with waitLimit := if v = 0 then y.waitLimit else v }
  else if x = 0x00300 then s.modHearth h fun y => { y with
      sfnTable := fieldOr (decide (bits v 13 10 ≤ 0xB)) (bits v 13 10) y.sfnTable
      sfnSegment := BitVec.ofNat 6 (bits v 9 4)
      sfnWord := fieldOr (decide (bits v 3 0 ≤ 0xB)) (bits v 3 0) y.sfnWord }
  else if x = 0x00500 then s.modHearth h fun y => { y with budget := fieldOr (decide (600 ≤ bits v 10 0 ∧ bits v 10 0 ≤ 1100)) (bits v 10 0) y.budget }
  else s

/-! T0 (R443, R459 to R463) -/

/-- Writes of the T0 block (R536); the pending-bit array is the module's to write. -/
def State.writeTuyere (s : State) (x : Nat) (v : W32) : State :=
  if x = 0x00 then s.writeLarcyCtl v
  else if x = 0x04 then s.modLarcy fun l => { l with sq0Lo := BitVec.ofNat 20 (bits v 31 12) }
  else if x = 0x08 then s.modLarcy fun l => { l with sq0Hi := v }
  else if x = 0x0C then s.modLarcy fun l => { l with cq0Lo := BitVec.ofNat 20 (bits v 31 12) }
  else if x = 0x10 then s.modLarcy fun l => { l with cq0Hi := v }
  else if x = 0x18 then s.modLarcy fun l => { l with queueFaults := clearOnes l.queueFaults (bits v 31 16), evictions := clearOnes l.evictions (bits v 15 0) }
  else if 0x10000 ≤ x ∧ x < 0x18000 then s.writeDoorbell ⟨(x - 0x10000) / 8 % 4096, by omega⟩ (decide (x % 8 = 4)) v
  else if 0x20000 ≤ x ∧ x < 0x21000 then s.modLarcy fun l => { l with msixTable := tset 0 l.msixTable x v }
  else s

/-! MEMORY (R333, R335 to R337) -/

/-- A write of MEM_SPREAD (R335). -/
def State.writeSpread (s : State) (v : W32) : State :=
  let free (h : Fin 8) : Bool := decide (s.parts[h].mode = .none) || decide (s.parts[h].mode = .stopped)
  let n := ((List.finRange 8).map fun h => if (if free h then v.getLsbD h.val else s.mem.spread.getLsbD h.val) then 2 ^ h.val else 0).sum
  { s with mem := { s.mem with spread := BitVec.ofNat 8 n } }

/-- A write of MEM_HDM_CTL (R336): held while a partition holds a job. -/
def State.writeHdm (s : State) (v : W32) : State :=
  if !hdmOk v then s
  else if s.jobHeld then { s with mem := { s.mem with hdmHeld := some v } }
  else s.setHdm v

/-- Writes of the MEMORY block (R536). -/
def State.writeMemory (s : State) (x : Nat) (v : W32) : State :=
  if x = 0x100 then { s with mem := { s.mem with periodMs := fieldOr (decide (1 ≤ bits v 4 0 ∧ bits v 4 0 ≤ 0x14)) (bits v 4 0) s.mem.periodMs } }
  else if x = 0x180 then s.writeSpread v
  else if x = 0x1C0 then s.writeHdm v
  else if x = 0x1C4 then { s with mem := { s.mem with hdmDenied := clearOnes s.mem.hdmDenied v.toNat } }
  else s

/-! FABRIC (R374 to R378) -/

/-- A write of FAB_MODULE_ID (R374): held while a partition holds a job. -/
def State.writeModuleId (s : State) (v : W32) : State :=
  if s.jobHeld then s.modFab fun x => { x with idHeld := some v } else s.setModuleId v

/-- A write of FAB_CTL (R376): held as FAB_MODULE_ID is. DESIGN CHOICE (log 60): a held write stands whole for the next one that is held, so a field with a reserved value keeps, when the write is applied, the value then in force. -/
def State.writeFabCtl (s : State) (v : W32) : State :=
  if s.jobHeld then s.modFab fun x => { x with ctlHeld := some v } else s.setFabCtl v

/-- A write of FAB_FRAME_CFG (R375): discarded while any link pair is up. -/
def State.writeFrameCfg (s : State) (v : W32) : State :=
  if s.fab.pairs.any (·.up) then s
  else s.modFab fun x => { x with
    macPrefix := fieldOr (!v.getLsbD 24 && v.getLsbD 25) (bits v 31 16) x.macPrefix
    etherType := fieldOr (decide (0x0600 ≤ bits v 15 0)) (bits v 15 0) x.etherType }

/-- R378: the weight at a bit of a register. -/
def weightAt (v : W32) (lo : Nat) : Nat := bits v (lo + 6) lo

/-- R378, R10: the four weights of a written register, each kept where the value written is above 64. -/
def writeWeights (old v : W32) : W32 :=
  fieldsAt ([0, 8, 16, 24].map fun i => (i, if weightAt v i ≤ 64 then weightAt v i else weightAt old i))

/-- A write of FAB_VC_WEIGHT_HI (R378): the eight weights take effect together, or BAD reads 1. -/
def State.writeVcHi (s : State) (v : W32) : State :=
  let hi := writeWeights s.fab.vcHi v
  let ws := [0, 8, 16, 24].map (weightAt s.fab.vcLo) ++ [0, 8, 16, 24].map (weightAt hi)
  let ok := decide (ws.sum = 64) && decide (1 ≤ ws.getD 0 0)
  s.modFab fun x => { x with
    vcHi := hi
    vcBad := !ok
    vcSet := if ok then Vector.ofFn fun i : Fin 8 => BitVec.ofNat 7 (ws.getD i.val 0) else x.vcSet }

/-- Writes of the FABRIC block (R536). -/
def State.writeFabric (s : State) (x : Nat) (v : W32) : State :=
  if x = 0x000 then s.writeModuleId v
  else if x = 0x004 then s.writeFrameCfg v
  else if x = 0x008 then s.writeFabCtl v
  else if x = 0x00C then s.modFab fun y => { y with collTimeout := fieldOr (decide (bits v 15 0 ≠ 0)) (bits v 15 0) y.collTimeout }
  else if x = 0x010 then s.modFab fun y => { y with vcLo := writeWeights y.vcLo v }
  else if x = 0x014 then s.writeVcHi v
  else s

/-! SECURITY, MEDIA, CHECK (R434, R436, R487, R497) -/

/-- Writes of the SECURITY block (R487). -/
def State.writeSecurity (s : State) (x : Nat) (v : W32) : State :=
  if x = 0x010 then { s with sec := { s.sec with stageLo := BitVec.ofNat 26 (bits v 31 6) } }
  else if x = 0x014 then { s with sec := { s.sec with stageHi := v } }
  else if x = 0x018 then { s with sec := { s.sec with stageSize := v } }
  else if x = 0x01C then s.writeFwCtl v
  else if x = 0x020 then s.writeInstallCtl v
  else s

/-- Writes of the MEDIA block (R434, R436). -/
def State.writeMedia (s : State) (x : Nat) (v : W32) : State :=
  if 0x200 ≤ x then s
  else
    let e : Fin 2 := ⟨x / 0x100 % 2, by omega⟩
    let y := s.media[e]
    if x % 0x100 = 0x04 then
      { s with media := s.media.set e { y with batchMin := fieldOr (decide (1 ≤ bits v 3 0 ∧ bits v 3 0 ≤ 8)) (bits v 3 0) y.batchMin } }
    else if x % 0x100 = 0x10 then
      { s with media := s.media.set e { y with clamped := clearOnes y.clamped (bits v 31 16), bitstream := clearOnes y.bitstream (bits v 15 0) } }
    else s

/-- R497: the registers of a slot. -/
def chkRegs : List ChkReg := [.ctl, .foldLo, .foldHi, .data8, .data16, .data32, .valLo, .valHi, .resultLo, .resultHi, .count]

/-- Writes of the CHECK block (R497); CHK_SNOOP_STATE is read only. -/
def State.writeCheck (s : State) (x : Nat) (v : W32) : State :=
  if x < 0x4000 then
    match chkRegs.find? fun r => decide (chkRegOffset r = x % 0x40) with
    | some r => s.writeChk ⟨x / 0x40 % 256, by omega⟩ r v
    | none => s
  else s

/-- R5 to R8: what a naturally aligned 32-bit write of BAR0 does. -/
def State.writeReg (s : State) (off : Nat) (v : W32) : State :=
  let b := off / 0x100000
  let x := off % 0x100000
  if b = 0 then s.writeGlobal x v
  else if b ≤ 8 then s.writeHearth ⟨(b - 1) % 8, by omega⟩ x v
  else if b = 9 then s.writeTuyere x v
  else if b = 0xB then s.writeMemory x v
  else if b = 0xC then s.writeFabric x v
  else if b = 0xD then s.writeSecurity x v
  else if b = 0xE then s.writeMedia x v
  else if b = 0xF then s.writeCheck x v
  else s

/-! The commands -/

/-- REGISTER_WRITE (R6, R8): `size` in bytes. -/
def execRegisterWrite (off size : Nat) (v : BitVec 64) (s : State) : Host.Outcome State Fault Refusal :=
  .next (s.barWrite fun s => if size = 4 ∧ off % 4 = 0 then s.writeReg off (v.setWidth 32) else s)

/-- GLB_BRIDGE_CTL_WRITE (R17). -/
def execGlbBridgeCtlWrite (v : BitVec 32) (s : State) : Host.Outcome State Fault Refusal := .next (s.barWrite fun s => s.writeBridge v)
/-- GLB_PART_CFG_WRITE (R404, R390). -/
def execGlbPartCfgWrite (v : BitVec 32) (s : State) : Host.Outcome State Fault Refusal := .next (s.barWrite fun s => s.writePartCfg v)
/-- MEM_SPREAD_WRITE (R335). -/
def execMemSpreadWrite (v : BitVec 32) (s : State) : Host.Outcome State Fault Refusal := .next (s.barWrite fun s => s.writeSpread v)
/-- MEM_HDM_CTL_WRITE (R336). -/
def execMemHdmCtlWrite (v : BitVec 32) (s : State) : Host.Outcome State Fault Refusal := .next (s.barWrite fun s => s.writeHdm v)
/-- FAB_MODULE_ID_WRITE (R374). -/
def execFabModuleIdWrite (v : BitVec 32) (s : State) : Host.Outcome State Fault Refusal := .next (s.barWrite fun s => s.writeModuleId v)
/-- FAB_CTL_WRITE (R376). -/
def execFabCtlWrite (v : BitVec 32) (s : State) : Host.Outcome State Fault Refusal := .next (s.barWrite fun s => s.writeFabCtl v)
/-- FAB_FRAME_CFG_WRITE (R375). -/
def execFabFrameCfgWrite (v : BitVec 32) (s : State) : Host.Outcome State Fault Refusal := .next (s.barWrite fun s => s.writeFrameCfg v)
/-- FAB_VC_WEIGHT_HI_WRITE (R378). -/
def execFabVcWeightHiWrite (v : BitVec 32) (s : State) : Host.Outcome State Fault Refusal := .next (s.barWrite fun s => s.writeVcHi v)
/-- GLB_EVLOG_SEL_WRITE (R546). -/
def execGlbEvlogSelWrite (v : BitVec 32) (s : State) : Host.Outcome State Fault Refusal := .next (s.barWrite fun s => s.selectEvent v)

end Sys2Proof.Machine
end

