-- ==== Sys2Proof/Machine/Scalar.lean ====
section
/-! DEFINITION. The C slot: scalar arithmetic, comparison, branches, scalar scratchpad access, SYSR, EMBER and END, with NOP in any slot (R119, R130 to R135). -/

namespace Sys2Proof.Machine

/-- A C-slot instruction that reads and writes registers. -/
def cOp (reads dests : List Reg) (illegal : Bool := false) : SlotOp := ⟨.c, .lane0, illegal, reads, dests⟩

/-- R130: a scalar operation on two registers. -/
def scalarRR (i : Issue) (rd ra rb : Fin 32) (f : W64 → W64 → W64) (s : State) : Host.Outcome State Fault Refusal :=
  present i (cOp [.s ra, .s rb] [.s rd]) (fun c _ => Act.writes (wS rd (f (c.getS ra) (c.getS rb)))) s

/-- R130: a scalar operation on a register and a sign-extended immediate. -/
def scalarRI (i : Issue) (rd ra : Fin 32) (imm : BitVec 32) (f : W64 → W64 → W64) (s : State) : Host.Outcome State Fault Refusal :=
  present i (cOp [.s ra] [.s rd]) (fun c _ => Act.writes (wS rd (f (c.getS ra) (sext imm)))) s

/-- R130: shift amounts are the low 6 bits. -/
def shiftAmount (b : W64) : Nat := b.toNat % 64

/-- NOP (R119). -/
def execNop (i : Issue) (slot : SlotId) (s : State) : Host.Outcome State Fault Refusal :=
  present i ⟨slot, .lane0, guarded i, [], []⟩ (fun _ _ => Act.none) s

/-- ADD (R130). -/
def execAdd (i : Issue) (rd ra rb : Fin 32) (s : State) : Host.Outcome State Fault Refusal := scalarRR i rd ra rb (fun a b => a + b) s
/-- SUB (R130). -/
def execSub (i : Issue) (rd ra rb : Fin 32) (s : State) : Host.Outcome State Fault Refusal := scalarRR i rd ra rb (fun a b => a - b) s
/-- AND (R130). -/
def execAnd (i : Issue) (rd ra rb : Fin 32) (s : State) : Host.Outcome State Fault Refusal := scalarRR i rd ra rb (fun a b => a &&& b) s
/-- OR (R130). -/
def execOr (i : Issue) (rd ra rb : Fin 32) (s : State) : Host.Outcome State Fault Refusal := scalarRR i rd ra rb (fun a b => a ||| b) s
/-- XOR (R130). -/
def execXor (i : Issue) (rd ra rb : Fin 32) (s : State) : Host.Outcome State Fault Refusal := scalarRR i rd ra rb (fun a b => a ^^^ b) s
/-- SHL (R130). -/
def execShl (i : Issue) (rd ra rb : Fin 32) (s : State) : Host.Outcome State Fault Refusal := scalarRR i rd ra rb (fun a b => a <<< shiftAmount b) s
/-- SHR (R130). -/
def execShr (i : Issue) (rd ra rb : Fin 32) (s : State) : Host.Outcome State Fault Refusal := scalarRR i rd ra rb (fun a b => a >>> shiftAmount b) s
/-- SRA (R130). -/
def execSra (i : Issue) (rd ra rb : Fin 32) (s : State) : Host.Outcome State Fault Refusal := scalarRR i rd ra rb (fun a b => a.sshiftRight (shiftAmount b)) s
/-- MUL (R130). -/
def execMul (i : Issue) (rd ra rb : Fin 32) (s : State) : Host.Outcome State Fault Refusal := scalarRR i rd ra rb (fun a b => a * b) s
/-- MULHU (R130). -/
def execMulhu (i : Issue) (rd ra rb : Fin 32) (s : State) : Host.Outcome State Fault Refusal :=
  scalarRR i rd ra rb (fun a b => BitVec.ofNat 64 (a.toNat * b.toNat / 2 ^ 64)) s
/-- MIN (R130). -/
def execMin (i : Issue) (rd ra rb : Fin 32) (s : State) : Host.Outcome State Fault Refusal := scalarRR i rd ra rb (fun a b => if b.slt a then b else a) s
/-- MAX (R130). -/
def execMax (i : Issue) (rd ra rb : Fin 32) (s : State) : Host.Outcome State Fault Refusal := scalarRR i rd ra rb (fun a b => if a.slt b then b else a) s
/-- ADDI (R130). -/
def execAddi (i : Issue) (rd ra : Fin 32) (imm : BitVec 32) (s : State) : Host.Outcome State Fault Refusal := scalarRI i rd ra imm (fun a b => a + b) s
/-- ANDI (R130). -/
def execAndi (i : Issue) (rd ra : Fin 32) (imm : BitVec 32) (s : State) : Host.Outcome State Fault Refusal := scalarRI i rd ra imm (fun a b => a &&& b) s
/-- ORI (R130). -/
def execOri (i : Issue) (rd ra : Fin 32) (imm : BitVec 32) (s : State) : Host.Outcome State Fault Refusal := scalarRI i rd ra imm (fun a b => a ||| b) s
/-- XORI (R130). -/
def execXori (i : Issue) (rd ra : Fin 32) (imm : BitVec 32) (s : State) : Host.Outcome State Fault Refusal := scalarRI i rd ra imm (fun a b => a ^^^ b) s
/-- SHLI (R130). -/
def execShli (i : Issue) (rd ra : Fin 32) (imm : BitVec 32) (s : State) : Host.Outcome State Fault Refusal := scalarRI i rd ra imm (fun a b => a <<< shiftAmount b) s
/-- SHRI (R130). -/
def execShri (i : Issue) (rd ra : Fin 32) (imm : BitVec 32) (s : State) : Host.Outcome State Fault Refusal := scalarRI i rd ra imm (fun a b => a >>> shiftAmount b) s
/-- SRAI (R130). -/
def execSrai (i : Issue) (rd ra : Fin 32) (imm : BitVec 32) (s : State) : Host.Outcome State Fault Refusal := scalarRI i rd ra imm (fun a b => a.sshiftRight (shiftAmount b)) s
/-- LUI (R130). -/
def execLui (i : Issue) (rd ra : Fin 32) (imm : BitVec 32) (s : State) : Host.Outcome State Fault Refusal :=
  scalarRI i rd ra imm (fun a b => (b <<< 32) ||| (a &&& 0xFFFFFFFF)) s

/-- CMP (R130, R131). -/
def execCmp (i : Issue) (pd : Fin 8) (cond : BitVec 4) (ra rb : Fin 32) (s : State) : Host.Outcome State Fault Refusal :=
  present i (cOp [.s ra, .s rb] [.p pd] (decide (5 < cond.toNat))) (fun c _ => Act.writes (wP pd (predAll (scalarCond cond (c.getS ra) (c.getS rb))))) s

/-- CMPI (R130, R131). -/
def execCmpi (i : Issue) (pd : Fin 8) (cond : BitVec 4) (ra : Fin 32) (imm : BitVec 32) (s : State) : Host.Outcome State Fault Refusal :=
  present i (cOp [.s ra] [.p pd] (decide (5 < cond.toNat))) (fun c _ => Act.writes (wP pd (predAll (scalarCond cond (c.getS ra) (sext imm))))) s

/-! Branches -/

/-- R86, R216: a taken branch; one to a reserved bundle faults. -/
def State.branchTo (s : State) (g : Fin 512) (t : BitVec 13) : Act := if s.lastBundle g < t then Act.faults stIllegal else Act.control (.branch t)

/-- What a reheat point of a core's task decides: nothing, where the execution has no reheat (R195, R203) or the layer no declaration; the end of an exhausted ladder (R201); or a step from a rung. -/
inductive ReheatStep where
  | noReheat | exhausted | climbs (rung : Nat)
  deriving DecidableEq, Repr

/-- R195, R200 to R203: an execution at the wide copy, or at a BF16 rung, has no reheat; at the top declared rung the ladder is exhausted. -/
def State.reheatStep (s : State) (g : Fin 512) (rp : ReheatPoint) : ReheatStep :=
  match (s.taskOf g).bind fun t => (t.2.decl rp.layer).map fun d => (d, t.2.rungOf g d rp) with
  | none => .noReheat
  | some (d, r) =>
    if r = wideRung ∨ declFmt d r = 1 then .noReheat
    else if declRungs d ≤ r + 1 then .exhausted
    else .climbs r

/-- BR (R130, R195, R199 to R203). Where a reheat point decides no reheat, the branch is that of R130. -/
def execBr (i : Issue) (target : BitVec 13) (rp : Option ReheatPoint) (s : State) : Host.Outcome State Fault Refusal :=
  present i (cOp [] []) (fun _ _ => match rp with
    | none => s.branchTo i.core target
    | some p => match s.reheatStep i.core p with
      | .noReheat => s.branchTo i.core target
      | .exhausted => Act.control (.ladderExhausted p)
      | .climbs r => if s.lastBundle i.core < target then Act.faults stIllegal else Act.control (.reheat p r target)) s

/-- BRR (R130). -/
def execBrr (i : Issue) (ra : Fin 32) (s : State) : Host.Outcome State Fault Refusal :=
  present i (cOp [.s ra] []) (fun c _ => s.branchTo i.core ((c.getS ra).setWidth 13)) s

/-- LOOP (R130). -/
def execLoop (i : Issue) (rc : Fin 32) (target : BitVec 13) (s : State) : Host.Outcome State Fault Refusal :=
  present i (cOp [.s rc] [.s rc]) (fun c _ =>
    let n := c.getS rc - 1
    let a := if n ≠ 0 then s.branchTo i.core target else Act.none
    { a with eff := { a.eff with writes := wS rc n } }) s

/-- CALL (R130). -/
def execCall (i : Issue) (target : BitVec 13) (s : State) : Host.Outcome State Fault Refusal :=
  present i (cOp [] [.s 31]) (fun c _ =>
    let a := s.branchTo i.core target
    { a with eff := { a.eff with writes := wS 31 (BitVec.ofNat 64 (c.pc.toNat + 1)) } }) s

/-! Memory -/

/-- R132: whether a scalar access is aligned and in the scratchpad. -/
def scalarAddrOk (a : W64) : Bool := decide (a.toNat % 8 = 0) && decide (a.toNat + 8 ≤ spadSize)

/-- SLD (R130, R132, R108). -/
def execSld (i : Issue) (rd ra : Fin 32) (imm : BitVec 32) (s : State) : Host.Outcome State Fault Refusal :=
  present i (cOp [.s ra] [.s rd]) (fun c _ =>
    let a := c.getS ra + sext imm
    if !scalarAddrOk a then Act.faults stAddr
    else if parityHit c.badParity a.toNat 8 then Act.faults stParity
    else Act.writes (wS rd (BitVec.ofNat 64 (leNat (readBytes c.spad a.toNat 8))))) s

/-- SST (R130, R132). -/
def execSst (i : Issue) (rd ra : Fin 32) (imm : BitVec 32) (s : State) : Host.Outcome State Fault Refusal :=
  present i (cOp [.s ra, .s rd] []) (fun c _ =>
    let a := c.getS ra + sext imm
    if !scalarAddrOk a then Act.faults stAddr
    else { Act.none with eff := { Staged.empty with stores := [(a.toNat, (toLE (c.getS rd).toNat 8).map some)] } }) s

/-! System values -/

/-- R18: the hearths of a partition in module-ring order. -/
def ringOrder (first size : Nat) : List Nat :=
  match size with
  | 8 => [0, 2, 4, 6, 7, 5, 3, 1]
  | 4 => if first = 0 then [0, 2, 3, 1] else [4, 6, 7, 5]
  | 2 => [first, first + 1]
  | _ => [first]

/-- R133, R187: the index of a core within its partition. -/
def ringIndex (first size : Nat) (g : Fin 512) : Nat := (ringOrder first size).idxOf (g.val / 64) * 64 + g.val % 64

/-- R133: the system values. -/
def State.sysValue (s : State) (g : Fin 512) (code : Nat) : W64 :=
  let p := (s.partOfCore g).getD 0
  match code with
  | 0 => BitVec.ofNat 64 g.val
  | 1 => s.fab.moduleId.setWidth 64
  | 2 => (s.core g).epoch.setWidth 64
  | 3 => BitVec.ofNat 64 (p.val + 16 * s.partSize p)
  | 4 => BitVec.ofNat 64 (ringIndex p.val (s.partSize p) g)
  | _ => BitVec.ofNat 64 (s.now - ((s.taskOf g).map (·.2.coresAt)).getD 0)

/-- SYSR (R130, R133). -/
def execSysr (i : Issue) (rd : Fin 32) (imm : BitVec 32) (s : State) : Host.Outcome State Fault Refusal :=
  present i (cOp [] [.s rd] (!([0, 1, 2, 3, 4, 8].contains imm.toNat))) (fun _ _ => Act.writes (wS rd (s.sysValue i.core imm.toNat))) s

/-- EMBER (R130, R134, R48). -/
def execEmber (i : Issue) (rd ra rb : Fin 32) (dom : BitVec 8) (s : State) : Host.Outcome State Fault Refusal :=
  present i (cOp [.s ra, .s rb] [.s rd] (decide (1 < dom.toNat))) (fun c _ =>
    let seed := ((s.taskOf i.core).map fun t => t.2.job.seed.toNat).getD 0
    Act.writes (wS rd (BitVec.ofNat 64 (ember seed ((c.getS rb).toNat % 2 ^ 32) (c.getS ra).toNat dom.toNat)))) s

/-- END (R130, R135, R122). -/
def execEndCore (i : Issue) (num : BitVec 16) (s : State) : Host.Outcome State Fault Refusal :=
  present i (cOp [] [] (guarded i)) (fun _ _ => Act.control (.barrier 3 num)) s

end Sys2Proof.Machine
end

