-- ==== Sys2Proof/Machine/VectorUnit.lean ====
section
/-! DEFINITION. The V slot: vector arithmetic, predicates, lane movement, reduction, conversion and special functions (R120, R121, R151 to R155). -/

namespace Sys2Proof.Machine

/-- R517: the draw of a V-slot instruction for its latency, in half amperes. -/
def vDrawHalf : Nat := 6

/-- A V-slot instruction guarded per lane. -/
def vOp (reads dests : List Reg) (illegal : Bool := false) : SlotOp := ⟨.v, .perLane, illegal, reads, dests⟩

/-- R121: enabled lanes take the new value, the others keep the old. -/
def mergeLanes (m : PReg) (old : VReg) (f : Fin 256 → W32) : VReg := Vector.ofFn fun k => if m.getLsbD k.val then f k else old[k]

/-- R121: enabled lanes of a predicate take the new bit, the others keep the old. -/
def mergePred (m old new : PReg) : PReg := (m &&& new) ||| (~~~m &&& old)

/-- The predicate whose bit `k` is `f k`. -/
def predOf (f : Fin 256 → Bool) : PReg := BitVec.ofNat 256 (((List.finRange 256).map fun k => if f k then 2 ^ k.val else 0).sum)

/-- R151: an operation on two vectors, per enabled lane. -/
def vector2 (i : Issue) (vd va vb : Fin 32) (f : W32 → W32 → W32) (s : State) : Host.Outcome State Fault Refusal :=
  present i (vOp [.v va, .v vb] [.v vd]) (fun c m => Act.writes (wV vd (mergeLanes m (c.getV vd) fun k => f (c.getV va)[k] (c.getV vb)[k]) vDrawHalf)) s

/-- R151: an operation on one vector, per enabled lane. -/
def vector1 (i : Issue) (vd va : Fin 32) (f : W32 → W32) (s : State) : Host.Outcome State Fault Refusal :=
  present i (vOp [.v va] [.v vd]) (fun c m => Act.writes (wV vd (mergeLanes m (c.getV vd) fun k => f (c.getV va)[k]) vDrawHalf)) s

/-- R151: binary32 multiplication, rounded to nearest even. -/
def mulF32 (a b : W32) : W32 := rne32 ((ofF32 a).mul (ofF32 b))
/-- R151: binary32 subtraction, rounded to nearest even. -/
def subF32 (a b : W32) : W32 := rne32 ((ofF32 a).add (ofF32 b).neg)
/-- R151: binary32 fused multiply-add, rounded once. -/
def fmaF32 (a b c : W32) : W32 := rne32 (((ofF32 a).mul (ofF32 b)).add (ofF32 c))

/-- VADD (R151). -/
def execVadd (i : Issue) (vd va vb : Fin 32) (s : State) : Host.Outcome State Fault Refusal := vector2 i vd va vb addF32 s
/-- VSUB (R151). -/
def execVsub (i : Issue) (vd va vb : Fin 32) (s : State) : Host.Outcome State Fault Refusal := vector2 i vd va vb subF32 s
/-- VMUL (R151). -/
def execVmul (i : Issue) (vd va vb : Fin 32) (s : State) : Host.Outcome State Fault Refusal := vector2 i vd va vb mulF32 s
/-- VFMA (R151). -/
def execVfma (i : Issue) (vd va vb vc : Fin 32) (s : State) : Host.Outcome State Fault Refusal :=
  present i (vOp [.v va, .v vb, .v vc] [.v vd]) (fun c m =>
    Act.writes (wV vd (mergeLanes m (c.getV vd) fun k => fmaF32 (c.getV va)[k] (c.getV vb)[k] (c.getV vc)[k]) vDrawHalf)) s
/-- VMIN (R151). -/
def execVmin (i : Issue) (vd va vb : Fin 32) (s : State) : Host.Outcome State Fault Refusal := vector2 i vd va vb (fpPick false) s
/-- VMAX (R151). -/
def execVmax (i : Issue) (vd va vb : Fin 32) (s : State) : Host.Outcome State Fault Refusal := vector2 i vd va vb (fpPick true) s
/-- VABS (R151). -/
def execVabs (i : Issue) (vd va : Fin 32) (s : State) : Host.Outcome State Fault Refusal := vector1 i vd va (fun a => a &&& 0x7FFFFFFF) s
/-- VNEG (R151). -/
def execVneg (i : Issue) (vd va : Fin 32) (s : State) : Host.Outcome State Fault Refusal := vector1 i vd va (fun a => a ^^^ 0x80000000) s
/-- VIADD (R151). -/
def execViadd (i : Issue) (vd va vb : Fin 32) (s : State) : Host.Outcome State Fault Refusal := vector2 i vd va vb (fun a b => a + b) s
/-- VISUB (R151). -/
def execVisub (i : Issue) (vd va vb : Fin 32) (s : State) : Host.Outcome State Fault Refusal := vector2 i vd va vb (fun a b => a - b) s
/-- VAND (R151). -/
def execVand (i : Issue) (vd va vb : Fin 32) (s : State) : Host.Outcome State Fault Refusal := vector2 i vd va vb (fun a b => a &&& b) s
/-- VOR (R151). -/
def execVor (i : Issue) (vd va vb : Fin 32) (s : State) : Host.Outcome State Fault Refusal := vector2 i vd va vb (fun a b => a ||| b) s
/-- VXOR (R151). -/
def execVxor (i : Issue) (vd va vb : Fin 32) (s : State) : Host.Outcome State Fault Refusal := vector2 i vd va vb (fun a b => a ^^^ b) s
/-- VSHL (R151). -/
def execVshl (i : Issue) (vd va vb : Fin 32) (s : State) : Host.Outcome State Fault Refusal := vector2 i vd va vb (fun a b => a <<< (b.toNat % 32)) s
/-- VSHR (R151). -/
def execVshr (i : Issue) (vd va vb : Fin 32) (s : State) : Host.Outcome State Fault Refusal := vector2 i vd va vb (fun a b => a >>> (b.toNat % 32)) s
/-- VSRA (R151). -/
def execVsra (i : Issue) (vd va vb : Fin 32) (s : State) : Host.Outcome State Fault Refusal := vector2 i vd va vb (fun a b => a.sshiftRight (b.toNat % 32)) s

/-- VCMP (R151, R152). -/
def execVcmp (i : Issue) (pd : Fin 8) (cond : BitVec 4) (va vb : Fin 32) (s : State) : Host.Outcome State Fault Refusal :=
  present i (vOp [.v va, .v vb] [.p pd] (vectorCondReserved cond)) (fun c m =>
    Act.writes (wP pd (mergePred m (c.getP pd) (predOf fun k => vectorCond cond (c.getV va)[k] (c.getV vb)[k])) vDrawHalf)) s

/-- PLOG (R151, R152). -/
def execPlog (i : Issue) (pd pa pb : Fin 8) (fn : BitVec 2) (s : State) : Host.Outcome State Fault Refusal :=
  present i (vOp [.p pa, .p pb] [.p pd]) (fun c m => Act.writes (wP pd (mergePred m (c.getP pd) (predFn fn (c.getP pa) (c.getP pb))) vDrawHalf)) s

/-- VBCAST (R151). -/
def execVbcast (i : Issue) (vd rs : Fin 32) (s : State) : Host.Outcome State Fault Refusal :=
  present i (vOp [.s rs] [.v vd]) (fun c m => Act.writes (wV vd (mergeLanes m (c.getV vd) fun _ => (c.getS rs).setWidth 32) vDrawHalf)) s

/-- VINS (R151): guarded by lane 0. -/
def execVins (i : Issue) (vd rs : Fin 32) (lane : Fin 256) (s : State) : Host.Outcome State Fault Refusal :=
  present i ⟨.v, .lane0, false, [.s rs], [.v vd]⟩ (fun c _ => Act.writes (wV vd ((c.getV vd).set lane ((c.getS rs).setWidth 32)) vDrawHalf)) s

/-- VEXT (R151): guarded by lane 0. -/
def execVext (i : Issue) (rd va : Fin 32) (lane : Fin 256) (s : State) : Host.Outcome State Fault Refusal :=
  present i ⟨.v, .lane0, false, [.v va], [.s rd]⟩ (fun c _ => Act.writes (wS rd ((c.getV va)[lane].setWidth 64) vDrawHalf)) s

/-- R153: one level of the fixed tree. -/
def pairUp (f : W32 → W32 → W32) : List W32 → List W32
  | a :: b :: r => f a b :: pairUp f r
  | r => r

/-- R153: the fixed tree over 256 lanes. -/
def treeReduce (f : W32 → W32 → W32) (xs : List W32) : W32 := (iterate (pairUp f) 8 xs).headD 0

/-- R153: the value with which a disabled lane enters: +0, −infinity, +infinity. -/
def redIdentity (op : BitVec 2) : W32 := match op.toNat with | 0 => 0 | 1 => ninf32 | _ => BitVec.ofNat 32 (f32.infCode false)

/-- R153: the reductions. -/
def redFn (op : BitVec 2) : W32 → W32 → W32 := match op.toNat with | 0 => addF32 | 1 => fpPick true | _ => fpPick false

/-- VRED (R153): the guard does not mask the write. -/
def execVred (i : Issue) (vd va : Fin 32) (op : BitVec 2) (s : State) : Host.Outcome State Fault Refusal :=
  present i ⟨.v, .combine, decide (op = 3), [.v va], [.v vd]⟩ (fun c m =>
    let xs := (List.finRange 256).map fun k => if m.getLsbD k.val then (c.getV va)[k] else redIdentity op
    Act.writes (wV vd ((Vector.replicate 256 0).set 0 (treeReduce (redFn op) xs)) vDrawHalf)) s

/-- VPERM (R151, R153). -/
def execVperm (i : Issue) (vd va vb : Fin 32) (s : State) : Host.Outcome State Fault Refusal :=
  present i (vOp [.v va, .v vb] [.v vd]) (fun c m =>
    Act.writes (wV vd (mergeLanes m (c.getV vd) fun k => (c.getV va)[(c.getV vb)[k].toNat % 256]) vDrawHalf)) s

/-! VCVT (R154) -/

/-- A vector register as one bit string, byte 0 lowest. -/
def vregNat (v : VReg) : Nat := leNat (v.toList.flatMap fun x => toLE x.toNat 4)

/-- A vector register from a bit string. -/
def vregOf (x : Nat) : VReg := Vector.ofFn fun k => BitVec.ofNat 32 (x >>> (32 * k.val))

/-- R154: whether a format is one of the block formats. -/
def isBlockFmt (f : BitVec 4) : Bool := decide (3 ≤ f.toNat) && decide (f.toNat ≤ 9)

/-- R154: whether a VCVT takes a block form. -/
def VcvtOp.blockForm (c : VcvtOp) : Bool := isBlockFmt c.df || isBlockFmt c.sf

/-- R154: the combinations that VCVT admits, and what its block forms require. -/
def cvtIllegal (i : Issue) (c : VcvtOp) : Bool :=
  let lane := (decide (c.sf = 0) && decide (c.df = 1 ∨ c.df = 2)) || (decide (c.sf = 1 ∨ c.sf = 2) && decide (c.df = 0))
  let toBlock := decide (c.sf = 0) && isBlockFmt c.df
  let ofBlock := isBlockFmt c.sf && decide (c.df = 0)
  convReserved c.conv || !(lane || toBlock || ofBlock) || ((toBlock || ofBlock) && guarded i)
  || (toBlock && decide (c.vd = 31)) || (ofBlock && decide (c.va = 31))

/-- R154, R41: one lane converted between FP32 and a 16-bit format, either way under CONV. -/
def cvtLane (sf df conv : BitVec 4) (rho : Nat) (x : W32) : W32 :=
  if sf = 0 then BitVec.ofNat 32 (((fltOf df.toNat).getD bf16).convert conv rho (ofF32 x))
  else BitVec.ofNat 32 (f32.convert conv rho (((fltOf sf.toNat).getD bf16).decode (x.toNat % 65536)))

/-- R154: eight blocks of FP32 lanes converted: elements, scales. -/
def cvtToBlock (df conv : BitVec 4) (rho : Fin 256 → Nat) (v : VReg) : VReg × VReg :=
  let bs := (List.range 8).map fun j => convertBlock df.toNat conv 1 none
    ((List.finRange 256).filterMap fun k => if k.val / 32 = j then some (ofF32 v[k], k.val, rho k) else none)
  (vregOf (packFields (fmtWidth df.toNat) (bs.flatMap (·.elems))), vregOf (packFields (if isE8M0 df.toNat then 8 else 16) (bs.map (·.scale))))

/-- R154, R41: the inverse: elements and scales to FP32 lanes, each rounded once under CONV. -/
def cvtOfBlock (sf conv : BitVec 4) (rho : Fin 256 → Nat) (elems scales : VReg) : VReg :=
  let e := vregNat elems
  let x := vregNat scales
  Vector.ofFn fun k => BitVec.ofNat 32 <| f32.convert conv (rho k) (blockValue sf.toNat (field x (if isE8M0 sf.toNat then 8 else 16) (k.val / 32)) (field e (fmtWidth sf.toNat) k.val))

/-- VCVT (R154, R40 to R48). -/
def execVcvt (i : Issue) (c : VcvtOp) (s : State) : Host.Outcome State Fault Refusal :=
  let toBlock := isBlockFmt c.df
  let ofBlock := isBlockFmt c.sf
  let seed := ((s.taskOf i.core).map fun t => t.2.job.seed.toNat).getD 0
  let next (n : Fin 32) : Fin 32 := n + 1
  present i ⟨.v, .perLane, cvtIllegal i c, [.v c.va, .s c.rt, .s c.ri] ++ (if ofBlock then [.v (next c.va)] else []), .v c.vd :: (if toBlock then [.v (next c.vd)] else [])⟩ (fun k m =>
    let rho (n : Fin 256) : Nat := if convRnd c.conv = .sr then rhoOf seed ((k.getS c.rt).toNat % 2 ^ 32) ((k.getS c.ri).toNat + n.val) else 0
    if toBlock then
      let x := cvtToBlock c.df c.conv rho (k.getV c.va)
      Act.writes (wV c.vd x.1 vDrawHalf ++ wV (next c.vd) x.2)
    else if ofBlock then Act.writes (wV c.vd (cvtOfBlock c.sf c.conv rho (k.getV c.va) (k.getV (next c.va))) vDrawHalf)
    else Act.writes (wV c.vd (mergeLanes m (k.getV c.vd) fun n => cvtLane c.sf c.df c.conv (rho n) (k.getV c.va)[n]) vDrawHalf)) s

/-- SFN (R155, R223 to R227): it occupies the special function unit for 4 cycles. -/
def execSfn (i : Issue) (vd va : Fin 32) (fn : BitVec 4) (fmt : BitVec 2) (s : State) : Host.Outcome State Fault Refusal :=
  present i (vOp [.v va] [.v vd] (decide (11 < fn.toNat) || decide (fmt = 3))) (fun c m =>
    if s.now < c.sfuFreeAt then Act.stalls
    else
      let a := Act.writes (wV vd (mergeLanes m (c.getV vd) fun k => sfnLane fn.toNat fmt.toNat (c.getV va)[k]))
      { a with eff := { a.eff with sfn := true } }) s

end Sys2Proof.Machine
end

