-- ==== Sys2Proof/Machine/Dispatch.lean ====
section
/-! DEFINITION. One arm per command: a direct call of its meaning. -/

namespace Sys2Proof.Machine

/-- The effect of a command on everything but the queue. -/
def exec (i : Instr) (s : State) : Host.Outcome State Fault Refusal :=
  match i with
  | .nop u slot => Sys2Proof.Machine.execNop u slot s
  | .add u rd ra rb => Sys2Proof.Machine.execAdd u rd ra rb s
  | .sub u rd ra rb => Sys2Proof.Machine.execSub u rd ra rb s
  | .and u rd ra rb => Sys2Proof.Machine.execAnd u rd ra rb s
  | .or u rd ra rb => Sys2Proof.Machine.execOr u rd ra rb s
  | .xor u rd ra rb => Sys2Proof.Machine.execXor u rd ra rb s
  | .shl u rd ra rb => Sys2Proof.Machine.execShl u rd ra rb s
  | .shr u rd ra rb => Sys2Proof.Machine.execShr u rd ra rb s
  | .sra u rd ra rb => Sys2Proof.Machine.execSra u rd ra rb s
  | .mul u rd ra rb => Sys2Proof.Machine.execMul u rd ra rb s
  | .mulhu u rd ra rb => Sys2Proof.Machine.execMulhu u rd ra rb s
  | .min u rd ra rb => Sys2Proof.Machine.execMin u rd ra rb s
  | .max u rd ra rb => Sys2Proof.Machine.execMax u rd ra rb s
  | .addi u rd ra imm => Sys2Proof.Machine.execAddi u rd ra imm s
  | .andi u rd ra imm => Sys2Proof.Machine.execAndi u rd ra imm s
  | .ori u rd ra imm => Sys2Proof.Machine.execOri u rd ra imm s
  | .xori u rd ra imm => Sys2Proof.Machine.execXori u rd ra imm s
  | .shli u rd ra imm => Sys2Proof.Machine.execShli u rd ra imm s
  | .shri u rd ra imm => Sys2Proof.Machine.execShri u rd ra imm s
  | .srai u rd ra imm => Sys2Proof.Machine.execSrai u rd ra imm s
  | .lui u rd ra imm => Sys2Proof.Machine.execLui u rd ra imm s
  | .cmp u pd cond ra rb => Sys2Proof.Machine.execCmp u pd cond ra rb s
  | .cmpi u pd cond ra imm => Sys2Proof.Machine.execCmpi u pd cond ra imm s
  | .br u target rp => Sys2Proof.Machine.execBr u target rp s
  | .brr u ra => Sys2Proof.Machine.execBrr u ra s
  | .loop u rc target => Sys2Proof.Machine.execLoop u rc target s
  | .call u target => Sys2Proof.Machine.execCall u target s
  | .sld u rd ra imm => Sys2Proof.Machine.execSld u rd ra imm s
  | .sst u rd ra imm => Sys2Proof.Machine.execSst u rd ra imm s
  | .sysr u rd imm => Sys2Proof.Machine.execSysr u rd imm s
  | .ember u rd ra rb dom => Sys2Proof.Machine.execEmber u rd ra rb dom s
  | .endCore u num => Sys2Proof.Machine.execEndCore u num s
  | .mxa u tdA tdB tdD asrc rs => Sys2Proof.Machine.execMxa u tdA tdB tdD asrc rs s
  | .fold u tdA tdB tdD asrc rs side => Sys2Proof.Machine.execFold u tdA tdB tdD asrc rs side s
  | .brnd u b => Sys2Proof.Machine.execBrnd u b s
  | .spark u k => Sys2Proof.Machine.execSpark u k s
  | .attn u a => Sys2Proof.Machine.execAttn u a s
  | .normStat u n => Sys2Proof.Machine.execNormStat u n s
  | .normApply u n => Sys2Proof.Machine.execNormApply u n s
  | .mInstructionComplete g => Sys2Proof.Machine.execMInstructionComplete g s
  | .vadd u vd va vb => Sys2Proof.Machine.execVadd u vd va vb s
  | .vsub u vd va vb => Sys2Proof.Machine.execVsub u vd va vb s
  | .vmul u vd va vb => Sys2Proof.Machine.execVmul u vd va vb s
  | .vfma u vd va vb vc => Sys2Proof.Machine.execVfma u vd va vb vc s
  | .vmin u vd va vb => Sys2Proof.Machine.execVmin u vd va vb s
  | .vmax u vd va vb => Sys2Proof.Machine.execVmax u vd va vb s
  | .vabs u vd va => Sys2Proof.Machine.execVabs u vd va s
  | .vneg u vd va => Sys2Proof.Machine.execVneg u vd va s
  | .viadd u vd va vb => Sys2Proof.Machine.execViadd u vd va vb s
  | .visub u vd va vb => Sys2Proof.Machine.execVisub u vd va vb s
  | .vand u vd va vb => Sys2Proof.Machine.execVand u vd va vb s
  | .vor u vd va vb => Sys2Proof.Machine.execVor u vd va vb s
  | .vxor u vd va vb => Sys2Proof.Machine.execVxor u vd va vb s
  | .vshl u vd va vb => Sys2Proof.Machine.execVshl u vd va vb s
  | .vshr u vd va vb => Sys2Proof.Machine.execVshr u vd va vb s
  | .vsra u vd va vb => Sys2Proof.Machine.execVsra u vd va vb s
  | .vcmp u pd cond va vb => Sys2Proof.Machine.execVcmp u pd cond va vb s
  | .plog u pd pa pb fn => Sys2Proof.Machine.execPlog u pd pa pb fn s
  | .vbcast u vd rs => Sys2Proof.Machine.execVbcast u vd rs s
  | .vins u vd rs lane => Sys2Proof.Machine.execVins u vd rs lane s
  | .vext u rd va lane => Sys2Proof.Machine.execVext u rd va lane s
  | .vred u vd va op => Sys2Proof.Machine.execVred u vd va op s
  | .vperm u vd va vb => Sys2Proof.Machine.execVperm u vd va vb s
  | .vcvt u c => Sys2Proof.Machine.execVcvt u c s
  | .sfn u vd va fn fmt => Sys2Proof.Machine.execSfn u vd va fn fmt s
  | .ldt u q td rs sig tok => Sys2Proof.Machine.execLdt u q td rs sig tok s
  | .stt u q td rs sig tok conv sf => Sys2Proof.Machine.execStt u q td rs sig tok conv sf s
  | .dmaq u q rs => Sys2Proof.Machine.execDmaq u q rs s
  | .dqst u rd q => Sys2Proof.Machine.execDqst u rd q s
  | .tdl u td rs => Sys2Proof.Machine.execTdl u td rs s
  | .tdw u td word rs => Sys2Proof.Machine.execTdw u td word rs s
  | .vld u vd rs imm => Sys2Proof.Machine.execVld u vd rs imm s
  | .vst u vd rs imm => Sys2Proof.Machine.execVst u vd rs imm s
  | .signal u rt tok cnt => Sys2Proof.Machine.execSignal u rt tok cnt s
  | .wait u tok cnt => Sys2Proof.Machine.execWait u tok cnt s
  | .wclaim u rd pd hrt ctr inc rs => Sys2Proof.Machine.execWclaim u rd pd hrt ctr inc rs s
  | .hbar u num => Sys2Proof.Machine.execHbar u num s
  | .mbar u num => Sys2Proof.Machine.execMbar u num s
  | .ebar u num => Sys2Proof.Machine.execEbar u num s
  | .xshift u rs red axis dir sig tok => Sys2Proof.Machine.execXshift u rs red axis dir sig tok s
  | .xperm u rs red sig tok => Sys2Proof.Machine.execXperm u rs red sig tok s
  | .msync u => Sys2Proof.Machine.execMsync u s
  | .hbarComplete h => Sys2Proof.Machine.execHbarComplete h s
  | .mbarComplete h => Sys2Proof.Machine.execMbarComplete h s
  | .ebarComplete h => Sys2Proof.Machine.execEbarComplete h s
  | .tokenSignalArrive n => Sys2Proof.Machine.execTokenSignalArrive n s
  | .waitTimeout g => Sys2Proof.Machine.execWaitTimeout g s
  | .wclaimExecute g h ctr => Sys2Proof.Machine.execWclaimExecute g h ctr s
  | .wclaimResponse g h ctr parityOk => Sys2Proof.Machine.execWclaimResponse g h ctr parityOk s
  | .bmapClr h ctr v => Sys2Proof.Machine.execBmapClr h ctr v s
  | .bmapClearDone h ctr => Sys2Proof.Machine.execBmapClearDone h ctr s
  | .dmaCopy g q fail => Sys2Proof.Machine.execDmaCopy g q fail s
  | .dmaTile g q fail => Sys2Proof.Machine.execDmaTile g q fail s
  | .dmaNarrow g q fail => Sys2Proof.Machine.execDmaNarrow g q fail s
  | .dmaComplete g q => Sys2Proof.Machine.execDmaComplete g q s
  | .billetRunArrive g r => Sys2Proof.Machine.execBilletRunArrive g r s
  | .billetRunCombine g n => Sys2Proof.Machine.execBilletRunCombine g n s
  | .drawGrant h => Sys2Proof.Machine.execDrawGrant h s
  | .kvWalkReadDone h table k => Sys2Proof.Machine.execKvWalkReadDone h table k s
  | .attnFetchComplete g => Sys2Proof.Machine.execAttnFetchComplete g s
  | .taskStopped h => Sys2Proof.Machine.execTaskStopped h s
  | .jobStart h fail => Sys2Proof.Machine.execJobStart h fail s
  | .coresStart h => Sys2Proof.Machine.execCoresStart h s
  | .startBarrierComplete h => Sys2Proof.Machine.execStartBarrierComplete h s
  | .gangStartTimeout h => Sys2Proof.Machine.execGangStartTimeout h s
  | .queueWaitExpired job => Sys2Proof.Machine.execQueueWaitExpired job s
  | .partitionZeroed h => Sys2Proof.Machine.execPartitionZeroed h s
  | .slowdownWindow => Sys2Proof.Machine.execSlowdownWindow s
  | .ctxOpen n x => Sys2Proof.Machine.execCtxOpen n x s
  | .ctxClose n x => Sys2Proof.Machine.execCtxClose n x s
  | .submit n x => Sys2Proof.Machine.execSubmit n x s
  | .suspend n x => Sys2Proof.Machine.execSuspend n x s
  | .resume n x => Sys2Proof.Machine.execResume n x s
  | .cancel n x => Sys2Proof.Machine.execCancel n x s
  | .query n x => Sys2Proof.Machine.execQuery n x s
  | .partitionStop n x => Sys2Proof.Machine.execPartitionStop n x s
  | .partitionSet n x => Sys2Proof.Machine.execPartitionSet n x s
  | .partitionStart n x => Sys2Proof.Machine.execPartitionStart n x s
  | .vaultInstall n x => Sys2Proof.Machine.execVaultInstall n x s
  | .vaultInstallDone hostOk => Sys2Proof.Machine.execVaultInstallDone hostOk s
  | .attest n x => Sys2Proof.Machine.execAttest n x s
  | .streamOpen n x => Sys2Proof.Machine.execStreamOpen n x s
  | .streamClose n x => Sys2Proof.Machine.execStreamClose n x s
  | .completionPost n ok => Sys2Proof.Machine.execCompletionPost n ok s
  | .eventPost n ok => Sys2Proof.Machine.execEventPost n ok s
  | .contextSwap => Sys2Proof.Machine.execContextSwap s
  | .sqTailDoorbell n v => Sys2Proof.Machine.execSqTailDoorbell n v s
  | .cqHeadDoorbell n v => Sys2Proof.Machine.execCqHeadDoorbell n v s
  | .context0Open v => Sys2Proof.Machine.execContext0Open v s
  | .context0Close v => Sys2Proof.Machine.execContext0Close v s
  | .mediaUnitStart e => Sys2Proof.Machine.execMediaUnitStart e s
  | .mediaUnitComplete e => Sys2Proof.Machine.execMediaUnitComplete e s
  | .writeReceive l f => Sys2Proof.Machine.execWriteReceive l f s
  | .reduceReceive l f => Sys2Proof.Machine.execReduceReceive l f s
  | .signalPacketReceive l f => Sys2Proof.Machine.execSignalPacketReceive l f s
  | .ackReceive l f => Sys2Proof.Machine.execAckReceive l f s
  | .nakReceive l f => Sys2Proof.Machine.execNakReceive l f s
  | .rtsReceive l f => Sys2Proof.Machine.execRtsReceive l f s
  | .ctsReceive l f => Sys2Proof.Machine.execCtsReceive l f s
  | .delayReceive l f => Sys2Proof.Machine.execDelayReceive l f s
  | .barrierReceive l f => Sys2Proof.Machine.execBarrierReceive l f s
  | .endNoticeReceive l f => Sys2Proof.Machine.execEndNoticeReceive l f s
  | .hello l f => Sys2Proof.Machine.execHello l f s
  | .accept l f => Sys2Proof.Machine.execAccept l f s
  | .finish l f => Sys2Proof.Machine.execFinish l f s
  | .pair l f => Sys2Proof.Machine.execPair l f s
  | .keyAgreementTimeout peer => Sys2Proof.Machine.execKeyAgreementTimeout peer s
  | .ackTimer l peer far => Sys2Proof.Machine.execAckTimer l peer far s
  | .resendTimer l peer far => Sys2Proof.Machine.execResendTimer l peer far s
  | .busyResendTimer l peer far => Sys2Proof.Machine.execBusyResendTimer l peer far s
  | .linkPairSetup l peer far => Sys2Proof.Machine.execLinkPairSetup l peer far s
  | .collectiveComplete g group => Sys2Proof.Machine.execCollectiveComplete g group s
  | .collTimeout g group => Sys2Proof.Machine.execCollTimeout g group s
  | .linkUp l => Sys2Proof.Machine.execLinkUp l s
  | .linkModeTimeout l => Sys2Proof.Machine.execLinkModeTimeout l s
  | .linkTrainRetry l => Sys2Proof.Machine.execLinkTrainRetry l s
  | .linkDownDetect l => Sys2Proof.Machine.execLinkDownDetect l s
  | .stackTempSample n t => Sys2Proof.Machine.execStackTempSample n t s
  | .bellowsNoticePeriod h => Sys2Proof.Machine.execBellowsNoticePeriod h s
  | .hbmReadReplay r a ok => Sys2Proof.Machine.execHbmReadReplay r a ok s
  | .rowRepair e => Sys2Proof.Machine.execRowRepair e s
  | .stackFence n cause => Sys2Proof.Machine.execStackFence n cause s
  | .hostAccessTimeout g q => Sys2Proof.Machine.execHostAccessTimeout g q s
  | .hostHdmRead x len => Sys2Proof.Machine.execHostHdmRead x len s
  | .hostHdmWrite x bs => Sys2Proof.Machine.execHostHdmWrite x bs s
  | .hostSnoop a => Sys2Proof.Machine.execHostSnoop a s
  | .hp0LinkUp o => Sys2Proof.Machine.execHp0LinkUp o s
  | .hp0Down => Sys2Proof.Machine.execHp0Down s
  | .slowInputAccept p level => Sys2Proof.Machine.execSlowInputAccept p level s
  | .filterHoldoffEnd p held => Sys2Proof.Machine.execFilterHoldoffEnd p held s
  | .racingEnd p level => Sys2Proof.Machine.execRacingEnd p level s
  | .startupBegin => Sys2Proof.Machine.execStartupBegin s
  | .readyAssert t => Sys2Proof.Machine.execReadyAssert t s
  | .inputLoss => Sys2Proof.Machine.execInputLoss s
  | .inputRestore => Sys2Proof.Machine.execInputRestore s
  | .railFault rail => Sys2Proof.Machine.execRailFault rail s
  | .refclkLoss => Sys2Proof.Machine.execRefclkLoss s
  | .dieTempSample d t => Sys2Proof.Machine.execDieTempSample d t s
  | .fwUpdateGo v => Sys2Proof.Machine.execFwUpdateGo v s
  | .fwUpdateDone readOk => Sys2Proof.Machine.execFwUpdateDone readOk s
  | .installModeWrite v => Sys2Proof.Machine.execInstallModeWrite v s
  | .glbBridgeCtlWrite v => Sys2Proof.Machine.execGlbBridgeCtlWrite v s
  | .glbPartCfgWrite v => Sys2Proof.Machine.execGlbPartCfgWrite v s
  | .memSpreadWrite v => Sys2Proof.Machine.execMemSpreadWrite v s
  | .memHdmCtlWrite v => Sys2Proof.Machine.execMemHdmCtlWrite v s
  | .fabModuleIdWrite v => Sys2Proof.Machine.execFabModuleIdWrite v s
  | .fabCtlWrite v => Sys2Proof.Machine.execFabCtlWrite v s
  | .fabFrameCfgWrite v => Sys2Proof.Machine.execFabFrameCfgWrite v s
  | .fabVcWeightHiWrite v => Sys2Proof.Machine.execFabVcWeightHiWrite v s
  | .glbEvlogSelWrite v => Sys2Proof.Machine.execGlbEvlogSelWrite v s
  | .chkSlotWrite n reg v => Sys2Proof.Machine.execChkSlotWrite n reg v s
  | .chkStart n => Sys2Proof.Machine.execChkStart n s
  | .chkData8 n => Sys2Proof.Machine.execChkData8 n s
  | .chkData16 n => Sys2Proof.Machine.execChkData16 n s
  | .chkData32 n => Sys2Proof.Machine.execChkData32 n s
  | .chkValWrite n => Sys2Proof.Machine.execChkValWrite n s
  | .chkRead n reg => Sys2Proof.Machine.execChkRead n reg s
  | .registerWrite off size v => Sys2Proof.Machine.execRegisterWrite off size v s
  | .scoreboardClear g r => Sys2Proof.Machine.execScoreboardClear g r s
  | .powerStateChange d3hot => Sys2Proof.Machine.execPowerStateChange d3hot s
  | .snoopPortAttach p a poly => Sys2Proof.Machine.execSnoopPortAttach p a poly s
  | .snoopResultDequeue p => Sys2Proof.Machine.execSnoopResultDequeue p s

end Sys2Proof.Machine
end

