-- ==== Sys2Proof/Safety.lean ====
section
/-! DEFINITION. What claims speak of: the well-formed states, an instruction that executes as a bundle by itself, what an issued bundle leaves, and when the governor admits a start. -/

namespace Sys2Proof.Machine

/-! Well-formed states -/

/-- A core's memories stand in their canonical form. -/
def Core.Wf (c : Core) : Prop := Memory.wf c.spad = true ∧ Memory.wf c.imem = true

/-- R215, R268: a hearth's widen list and look-aside buffer hold at most 16 tensors and 512 translations. -/
def Hearth.Wf (h : Hearth) : Prop := h.widen.length ≤ 16 ∧ h.lab.length ≤ 512

/-- The memories of the tiers stand in their canonical form. -/
def Mem.Wf (m : Mem) : Prop := Memory.wf m.hbm = true ∧ Memory.wf m.host = true ∧ Memory.wf m.vault = true

/-- Every memory stands in its canonical form, and every store that the spec bounds holds no more than its bound: the event log (R541), a partition's kept records (R403), a hearth's lists (R215, R268), a snoop port's results (R500), a check slot's queue (R492). -/
def State.Wf (s : State) : Prop :=
  s.mem.Wf ∧ (∀ g : Fin 512, s.cores[g].Wf) ∧ (∀ h : Fin 8, s.hearths[h].Wf) ∧ s.glb.evlog.length ≤ 4096
  ∧ (∀ p : Fin 8, s.parts[p].records.length ≤ 64) ∧ (∀ p : Fin 16, s.snoop[p].results.length ≤ 64) ∧ (∀ n : Fin 256, s.chk[n].queue.length ≤ 16)

/-! Bundles of one instruction -/

/-- A core that takes instructions and has no slot presented; the instruction at `i`, whose encoding is none of the reserved ones, closes its bundle, which holds its parity (R108) and is not the last of the core's program. -/
def Alone (i : Issue) (s : State) : Prop :=
  s.canIssue i.core = true ∧ (s.core i.core).bundle = Bundle.empty ∧ i.close = true ∧ i.reserved = false
  ∧ parityHit (s.core i.core).badImem (32 * (s.core i.core).pc.toNat) 32 = false ∧ (s.core i.core).pc ≠ s.lastBundle i.core

/-- R120, R124: no write of the guard or of a register of `rs` is outstanding. -/
def Free (i : Issue) (rs : List Reg) (s : State) : Prop := ∀ r ∈ Reg.p i.gp :: rs, (s.core i.core).busy r = false

/-- R120, R124: the instruction at `i`, of guard kind `k` and with the registers `rs`, executes as a bundle by itself. -/
def Executes (k : GuardKind) (i : Issue) (rs : List Reg) (s : State) : Prop :=
  Alone i s ∧ k.executes i (guardMask (s.core i.core) i) = true ∧ Free i rs s

/-- R127: a core after a bundle that only writes registers: the writes are outstanding, and the sequencer stands at the next bundle. -/
def State.issued (s : State) (g : Fin 512) (ws : List RegWrite) : State :=
  s.setCore g { s.core g with inflight := (s.core g).inflight ++ ws, seq := (s.core g).seq + 1, pc := (s.core g).pc + 1 }

/-- R518: the governor admits a start at once: the engine has no request, no request has waited 256 cycles, and the budget holds the draw. -/
def Admitted (g : Fin 512) (u : DrawUnit) (d : Nat) (s : State) : Prop :=
  (∀ r ∈ s.hearths[hearthOf g].drawReqs, ¬(r.core = g ∧ r.unit = u)) ∧ (∀ r ∈ s.hearths[hearthOf g].drawReqs, r.aged s.now = false)
  ∧ s.drawAdmits (hearthOf g) d = true

/-- A command of the issue `i` leaves one scalar register write outstanding, and nothing else but the sequencer moves. -/
abbrev WritesS (i : Issue) (s : State) (rd : Fin 32) (c : Instr) (x : W64) : Prop := exec c s = .next (s.issued i.core [⟨.s rd, .s x, 0⟩])

/-- The same for a vector register, with the draw of a V-slot instruction (R517). -/
abbrev WritesV (i : Issue) (s : State) (vd : Fin 32) (c : Instr) (x : VReg) : Prop := exec c s = .next (s.issued i.core [⟨.v vd, .v x, vDrawHalf⟩])

/-- A branch: the sequencer stands at `t`, with register writes outstanding, and nothing else moves. -/
abbrev Goes (i : Issue) (s : State) (c : Instr) (t : BitVec 13) (ws : List RegWrite) : Prop :=
  exec c s = .next (s.setCore i.core { s.core i.core with inflight := (s.core i.core).inflight ++ ws, seq := (s.core i.core).seq + 1, pc := t })

/-- R131: what a condition code of CMP and CMPI means. -/
def CondHolds (cond : BitVec 4) (a b : W64) : Prop :=
  if cond = 0 then a = b else if cond = 1 then a ≠ b else if cond = 2 then a.toInt < b.toInt else if cond = 3 then b.toInt ≤ a.toInt
  else if cond = 4 then a.toNat < b.toNat else b.toNat ≤ a.toNat

/-- R121, R151: a V-slot instruction writes `f k` to each enabled lane of `vd` and keeps the others. -/
def WritesLanes (i : Issue) (s : State) (vd : Fin 32) (c : Instr) (f : Fin 256 → W32) : Prop :=
  ∃ x, WritesV i s vd c x ∧ ∀ k : Fin 256, x[k] = if (guardMask (s.core i.core) i).getLsbD k.val then f k else ((s.core i.core).getV vd)[k]

/-- R121, R152: a V-slot instruction writes `f k` to each enabled lane of a predicate and keeps the others. -/
def WritesBits (i : Issue) (s : State) (pd : Fin 8) (c : Instr) (f : Fin 256 → Bool) : Prop :=
  ∃ x, exec c s = .next (s.issued i.core [⟨.p pd, .p x, vDrawHalf⟩])
    ∧ ∀ k : Fin 256, x.getLsbD k.val = if (guardMask (s.core i.core) i).getLsbD k.val then f k else ((s.core i.core).getP pd).getLsbD k.val

/-- R128: a core whose bundle put an M-slot instruction at the end of the M queue. -/
def State.queuedM (s : State) (g : Fin 512) (op : MOp) (regs : List Reg) : State :=
  let c := s.core g
  s.setCore g { c with mq := c.mq ++ [⟨op, c.pc, c.seq, regs, [], false, false, []⟩], seq := c.seq + 1, pc := c.pc + 1 }

/-- R94: a core whose bundle put a transfer at the end of a DMA queue. -/
def State.queuedX (s : State) (g : Fin 512) (q : Fin 8) (x : Xfer) : State :=
  let c := s.core g
  s.setCore g { c with q := c.q.set q { c.q[q] with xfers := c.q[q].xfers ++ [{ x with seq := c.seq, bundle := c.pc, started := s.now }] }, seq := c.seq + 1, pc := c.pc + 1 }

/-- A core whose bundle passed with nothing but `f` applied to it. -/
def State.passed (s : State) (g : Fin 512) (f : Core → Core) : State :=
  s.setCore g (f { s.core g with seq := (s.core g).seq + 1, pc := (s.core g).pc + 1 })

/-! The end of a task -/

/-- R111, R367: the ending of a task once `e` is detected: the first detected, and of two of one cycle the one of the higher order. -/
def Ending.decides (e : Ending) : Option Ending → Ending
  | none => e
  | some y => if e.beats y then e else y

/-- R109 to R113: a fault of core `g` with status `st` in bundle `b` is the end of its task, and the core's own fault where it has none yet; no other core, no memory and no register of `g` changes. -/
def TaskEndsAt (s t : State) (g : Fin 512) (st : Status) (b : BitVec 13) : Prop :=
  (∃ p k, ∃ e : Ending, s.taskOf g = some (p, k) ∧ t.parts[p].task = some { k with ending := some (e.decides k.ending) }
    ∧ e.status = st ∧ e.core = some g ∧ e.bundle = some b ∧ e.at_ = s.now)
  ∧ ((s.core g).stat.faultStatus = 0 → (t.core g).stat.faultStatus = st ∧ (t.core g).stat.faultBundle = b)
  ∧ { t.core g with stat := (s.core g).stat } = s.core g ∧ (∀ j, j ≠ g → t.core j = s.core j)
  ∧ t.mem = s.mem ∧ t.hearths = s.hearths ∧ t.tokens = s.tokens ∧ t.now = s.now ∧ t.reply = s.reply

/-- A command answers with the end of the task of core `g`. -/
abbrev EndsTask (c : Instr) (s : State) (g : Fin 512) (st : Status) : Prop := ∃ t, exec c s = .next t ∧ TaskEndsAt s t g st (s.core g).pc

/-- R401, R403: the partition `p` has no task, and its last kept record is of job `j`, with status `st`. -/
def Ended (t : State) (p : Fin 8) (j : Job) (st : Status) : Prop :=
  t.parts[p].task = none ∧ ∃ r, t.parts[p].records.getLast? = some r ∧ r.job = j.id ∧ r.ctx = j.ctx ∧ leAt r.bytes 0 2 = st.toNat ∧ leAt r.bytes 4 4 = j.id.toNat

/-! Commands of Larcy -/

/-- R447, R449, R458: the context `n`, as `c`, may have its next command consumed, and that command is the entry `e` with opcode `opc`; `u` is the state once it has left its queue. -/
def Takes (s : State) (n : Fin 4096) (x : HostFate) (opc : Nat) (c : LCtx) (e : List Byte) (u : State) : Prop :=
  s.consumer n = some c ∧ s.hostUp = true ∧ x ≠ .queueFails ∧ e = s.entryOf c ∧ leAt e 0 1 = opc ∧ u = s.takeEntry n e

/-- R449, R456, R457: the command `e` of context `n` is no longer in progress, and its completion waits, with a status and a result. -/
def Completes (t : State) (n : Fin 4096) (e : List Byte) (st : Status) (r : BitVec 128) : Prop :=
  ∃ c, t.ctx n = some c ∧ c.busy = none ∧ c.done = some ⟨BitVec.ofNat 16 (leAt e 2 2), st, BitVec.ofNat 8 (leAt e 0 1), r⟩

/-- A command answers with a state in which it has completed. -/
abbrev Answers (cmd : Instr) (s : State) (n : Fin 4096) (e : List Byte) (st : Status) (r : BitVec 128) : Prop := ∃ t, exec cmd s = .next t ∧ Completes t n e st r

/-! Packets -/

/-- R341, R351, R352, R354: a frame that passes the checks of its link and of its pair `p`, with the counter that the pair expects, no packet of it missing, and no acknowledgement to act on. -/
def InOrder (s : State) (l : Fin 128) (f : Frame) (p : LinkPair) : Prop :=
  s.frameOk l f = true ∧ s.framePair l f = some p ∧ nearest p.rxNext f.psn.toNat = p.rxNext ∧ p.rxAhead = [] ∧ f.tagOk = true ∧ (p.version = 1 ∨ (p.version = 2 ∧ p.unacked = []))

/-- R354: from `u`, in which a packet of the pair `p` has acted, its counter is taken: the pair expects the next one, and the eighth packet in order is acknowledged. -/
def Accepts (u t : State) (l : Fin 128) (p : LinkPair) : Prop :=
  ∃ q, t.findPair l p.peer p.far = some q ∧ q.rxNext = p.rxNext + 1 ∧ q.rxAhead = [] ∧ t.cores = u.cores ∧ t.mem = u.mem ∧ t.tokens = u.tokens ∧ t.parts = u.parts ∧ t.now = u.now
    ∧ (p.rxCount < 7 → q.rxCount = p.rxCount + 1 ∧ t.fab.sent = u.fab.sent)
    ∧ (7 ≤ p.rxCount → q.rxCount = 0 ∧ ∃ a, t.fab.sent = u.fab.sent ++ [a] ∧ a.pkt.type = 4 ∧ a.ackPsn = BitVec.ofNat 32 (p.rxNext + 1))

/-- A command answers with a state in which a packet of the pair `p` has acted as in `u` and is taken. -/
abbrev Takes1 (cmd : Instr) (s u : State) (l : Fin 128) (p : LinkPair) : Prop := ∃ t, exec cmd s = .next t ∧ Accepts u t l p

/-! Reset -/

/-- R505, R22: a reset keeps the vault, the management partition, the eFuses, the host's memory and the HRT_PRESENT bits, and clears everything else. -/
def Wiped (s t : State) : Prop :=
  t.cores = State.reset.cores ∧ t.hearths = State.reset.hearths ∧ t.parts = State.reset.parts ∧ t.tokens = [] ∧ t.fab = State.reset.fab ∧ t.media = State.reset.media ∧ t.larcy = State.reset.larcy
  ∧ t.chk = State.reset.chk ∧ t.snoop = State.reset.snoop ∧ t.pwr.ready = false ∧ t.now = s.now
  ∧ t.glb.hrtPresent = s.glb.hrtPresent ∧ t.mem = { State.reset.mem with vault := s.mem.vault, host := s.mem.host, repairLog := s.mem.repairLog, fenceRecords := s.mem.fenceRecords }
  ∧ t.sec = { State.reset.sec with counter := s.sec.counter, fwSlots := s.sec.fwSlots, preferB := s.sec.preferB, manifest := s.sec.manifest, owner := s.sec.owner }

/-! Claims -/

/-- R105: from `s` to `t`, the claim `x` of core `g` took `n` items: its counter advanced, its log names the old value and the grant, the task counts a grant, and every other counter and core stands as it was. -/
def ClaimTaken (s t : State) (g : Fin 512) (h : Fin 8) (ctr : Fin 64) (x : Claim) (n : Nat) : Prop :=
  t.hearths[h].wctr[ctr].value = s.hearths[h].wctr[ctr].value + BitVec.ofNat 32 n
  ∧ (g, x.token, s.hearths[h].wctr[ctr].value, BitVec.ofNat 32 n) ∈ t.hearths[h].wctr[ctr].log
  ∧ (∀ (j : Fin 8) (i : Fin 64), (j, i) ≠ (h, ctr) → t.hearths[j].wctr[i] = s.hearths[j].wctr[i]) ∧ (∀ j, j ≠ g → t.core j = s.core j)
  ∧ t.core g = (s.core g).modClaim h ctr (fun y => { y with executed := true }) ∧ t.tokens = s.tokens
  ∧ (n ≠ 0 → ∀ p k, s.taskOf g = some (p, k) → t.parts[p].task.map (·.tdc.toNat) = some (min (k.tdc.toNat + 1) (2 ^ 64 - 1)))

/-! What the spec promises of what it does not print: the coefficient tables (R226, R228, R229; log 10), an image's weights (R195), the encoder's rates (R428) -/

/-- R224: `y` is the exact value of a function at `x`. -/
def ExactFn (fn : Nat) (x y : ℝ) : Prop :=
  match fn with
  | 0 => y = (2 : ℝ) ^ x
  | 1 => y = Real.logb 2 x
  | 2 => y = x⁻¹
  | 3 => y = (Real.sqrt x)⁻¹
  | 4 => y = Real.sqrt x
  | 5 => y = Real.sin x
  | 6 => y = Real.cos x
  | 7 => y = Real.tanh x
  | 8 => y = 1 / (1 + Real.exp (-x))
  | 9 => y = x * (1 / 2 + (Real.sqrt (2 * Real.pi))⁻¹ * ∫ t in (0 : ℝ)..x, Real.exp (-(t ^ 2) / 2))
  | 10 => y = x / (1 + Real.exp (-x))
  | _ => y = Real.log (1 + Real.exp x)

/-- R226: `d` is at most one unit of a format in the last place at `y`: at the binade of `y`, or at that of the smallest normal value below it. -/
def WithinUlp (f : Flt) (y : ℝ) (d : ℝ) : Prop := ∃ e : Int, (e = 1 - f.bias ∨ ((2 : ℝ) ^ e ≤ |y| ∧ 1 - f.bias ≤ e)) ∧ |d| ≤ (2 : ℝ) ^ (e - f.mbits)

/-- R223, step 6: the value that the output rounding gives, before overflow and flush. -/
def sfnRounded (f : Flt) (v : Rat) : Rat := if v < 0 then -(f.round .rne 0 (-v)) else f.round .rne 0 v

/-- R226: the tables give every result within 1 ulp of the exact value. -/
def TablesAccurate : Prop :=
  ∀ fn < 12, ∀ fmt < 3, ∀ (w : W32) (v : Rat) (y : ℝ), w.toNat % 2 ^ 31 ≠ 0 → sfnEval fn (ofF32 w) = .val v → (∃ sg m, ofF32 w = .fin sg m) →
    ExactFn fn ((ofF32 w).toRat : ℝ) y → WithinUlp (sfnOut fmt) y ((sfnRounded (sfnOut fmt) v : ℝ) - y)

/-- R224: the ranges of the tables, each with its segments' width. -/
def tableWidth (t : Nat) : Rat :=
  match t with
  | 3 => 3 / 64 | 4 => 3 / 64 | 7 => 9 / 64 | 8 => 35 / 64 | 9 => 53 / 128 | 10 => 3 / 16 | 11 => 17 / 32 | _ => 1 / 64

/-- R228: adjacent segments meet. -/
def TablesMeet : Prop := ∀ t < 12, ∀ i, i + 1 < tableSegments t → horner t i (tableWidth t) = horner t (i + 1) 0

/-- R229: the functions that are monotone over the inputs between `x` and `y`, and whether they fall. -/
def MonotoneOn (fn : Nat) (falls : Bool) (x y : Rat) : Prop :=
  (fn ∈ [0, 7, 8, 11] ∧ falls = false) ∨ (fn ∈ [1, 4] ∧ falls = false ∧ 0 < x) ∨ (fn = 3 ∧ falls = true ∧ 0 < x) ∨ (fn = 2 ∧ falls = true ∧ (0 < x ∨ y < 0))

/-- R229: the results are monotone wherever the exact function is. -/
def TablesMonotone : Prop :=
  ∀ (fn fmt : Nat) (falls : Bool) (a b : W32) (sa sb : Bool) (ma mb : Rat), fmt < 3 → ofF32 a = .fin sa ma → ofF32 b = .fin sb mb →
    (ofF32 a).toRat ≤ (ofF32 b).toRat → MonotoneOn fn falls (ofF32 a).toRat (ofF32 b).toRat →
    ∀ x y : Rat, (sfnOut fmt).decode (sfnLane fn fmt a).toNat = .fin (decide (x < 0)) (abs x) → (sfnOut fmt).decode (sfnLane fn fmt b).toNat = .fin (decide (y < 0)) (abs y) →
      if falls then y ≤ x else x ≤ y

/-- R195: an image whose weight manifest places what every record of its precision section declares. -/
def Image.Placed (img : Image) : Prop := ∀ r ∈ img.recs 3, img.weightsPlaced r.2 = true

/-- R428: coded pictures, in bits, that meet a rate of `kbps` over a buffer of one second: of any pictures in a row, the bits differ from what their time gives by at most a second's. -/
def MeetsRate (kbps fpsNum fpsDen : Nat) (sizes : List Nat) : Prop :=
  ∀ i n, i + n ≤ sizes.length → |((((sizes.drop i).take n).sum : Nat) : ℝ) - 1000 * kbps * n * fpsDen / fpsNum| ≤ 1000 * kbps

/-- R428: coded pictures, in bits, of which no second's exceed a rate. -/
def NeverExceeds (kbps fpsNum fpsDen : Nat) (sizes : List Nat) : Prop :=
  ∀ i n, n * fpsDen ≤ fpsNum → i + n ≤ sizes.length → ((sizes.drop i).take n).sum ≤ 1000 * kbps

/-- R428: an encoder's coded pictures, in bits, keep its rate control: CBR meets BITRATE; VBR never exceeds MAXRATE and, over the whole, does not exceed BITRATE on average by more than a second's bits. -/
def RateKept (d : List Byte) (sizes : List Nat) : Prop :=
  let fps := (leAt d 178 2, leAt d 180 2)
  (leAt d 160 1 % 4 = 1 → MeetsRate (leAt d 164 4) fps.1 fps.2 sizes)
  ∧ (leAt d 160 1 % 4 = 2 → NeverExceeds (leAt d 168 4) fps.1 fps.2 sizes
      ∧ ((sizes.sum : Nat) : ℝ) ≤ 1000 * leAt d 164 4 * (sizes.length * fps.2 / fps.1 + 1))

end Sys2Proof.Machine
end

