-- ==== Sys2Proof/Certificates/Slice0/Obligations.lean ====
section
/-! DEFINITION. The statements for the provers: one `Obligations.<Name> : Prop` for each entry of OBLIGATIONS.json. -/

open Sys2Proof Sys2Proof.Machine

/-! Commands and steps -/

/-- The queue is first in, first out: a step takes the front command and runs it with the queue's rest. -/
def Obligations.StepRunsFrontCommand : Prop :=
  ∀ (c : Instr) (rest : List Instr) (s : State), s.pending = c :: rest → step s = exec c { s with pending := rest }

/-- The model's choice (logs 2, 55): on an empty queue one clock period passes, in which time and the counters of time move, and, where the clocks run, one memory word of one core or of HBM may lose its parity, or one core's bus transfer fail. No register, no memory byte, no accumulator and no run changes. -/
def Obligations.IdleStepPassesOneClockPeriod : Prop :=
  ∀ s : State, s.pending = [] → ∃ t, step s = .next t ∧ t.pending = [] ∧ t.now = s.now + 1 ∧ t.freeCtr = s.freeCtr + 1
    ∧ t.tokens = s.tokens ∧ t.fab = s.fab ∧ t.sec = s.sec ∧ t.media = s.media ∧ t.larcy = s.larcy
    ∧ t.chk = s.chk ∧ t.snoop = s.snoop ∧ t.pwr = s.pwr ∧ t.reply = s.reply ∧ { t.mem with badHbm := s.mem.badHbm } = s.mem
    ∧ (∀ g, { t.core g with badParity := (s.core g).badParity, badImem := (s.core g).badImem, stat := (s.core g).stat, slots := (s.core g).slots, stage := (s.core g).stage } = s.core g
      ∧ (∀ i : Fin 5, (t.core g).slots[i].tag = (s.core g).slots[i].tag ∧ (t.core g).slots[i].billets = (s.core g).slots[i].billets)
      ∧ (t.core g).stage.map (fun x => (x.run, x.src)) = (s.core g).stage.map (fun x => (x.run, x.src)))
    ∧ (∀ g j, t.core g ≠ s.core g → t.core j ≠ s.core j → g = j)
    ∧ (s.clocked = false → t = { s with now := s.now + 1, freeCtr := s.freeCtr + 1 })
    ∧ (∀ h : Fin 8, t.hearths[h] = { s.hearths[h] with drawStall := s.hearths[h].drawStall + if s.clocked ∧ s.hearths[h].drawWaits then 1 else 0 })
    ∧ t.glb = { s.glb with throttle := s.glb.throttle + if s.clocked ∧ s.throttled ∧ s.pwr.phase = .ready then 1 else 0 }

/-- Every command has a meaning on every state, with no fault and no refusal; none touches the queue of commands; module time never runs backwards. -/
def Obligations.EveryCommandAnswersANextState : Prop :=
  (∀ (c : Instr) (s : State), ∃ t, exec c s = .next t)
  ∧ (∀ (c : Instr) (s t : State), exec c s = .next t → t.pending = s.pending)
  ∧ (∀ s t : State, step s = .next t → s.now ≤ t.now)

/-- Every step keeps the state well-formed: memories in canonical form and bounded stores within their bounds. -/
def Obligations.StepKeepsWellFormed : Prop := ∀ s t : State, s.Wf → step s = .next t → t.Wf

/-- The state after reset is well-formed. -/
def Obligations.ResetIsWellFormed : Prop := State.reset.Wf

/-! Issue (R119 to R127) -/

/-- R119 to R122: NOP, and an instruction whose guard is 0 in every lane it needs, have no effect: the bundle issues and only the sequencer moves. A NOP that carries a guard is illegal. -/
def Obligations.GuardedOffInstructionHasNoEffect : Prop :=
  ∀ (i : Issue) (s : State), Alone i s → (s.core i.core).busy (.p i.gp) = false →
    ((guardMask (s.core i.core) i).getLsbD 0 = false →
      (∀ rd ra rb, exec (.add i rd ra rb) s = .next (s.issued i.core [])) ∧ (∀ rd ra imm, exec (.sld i rd ra imm) s = .next (s.issued i.core []))
      ∧ (∀ rd ra imm, exec (.sst i rd ra imm) s = .next (s.issued i.core [])) ∧ (∀ t rp, exec (.br i t rp) s = .next (s.issued i.core []))
      ∧ (∀ a b d asrc rs, exec (.mxa i a b d asrc rs) s = .next (s.issued i.core [])) ∧ (∀ q rs, exec (.dmaq i q rs) s = .next (s.issued i.core []))
      ∧ (∀ td rs, exec (.tdl i td rs) s = .next (s.issued i.core [])) ∧ (∀ rd pd h ctr inc rs, exec (.wclaim i rd pd h ctr inc rs) s = .next (s.issued i.core []))
      ∧ (∀ rt tok cnt, cnt ≠ 0 → exec (.signal i rt tok cnt) s = .next (s.issued i.core [])) ∧ (∀ tok cnt, cnt ≠ 0 → exec (.wait i tok cnt) s = .next (s.issued i.core [])))
    ∧ (guardMask (s.core i.core) i = 0 →
      (∀ vd va vb, exec (.vadd i vd va vb) s = .next (s.issued i.core [])) ∧ (∀ vd rs imm, exec (.vst i vd rs imm) s = .next (s.issued i.core [])))
    ∧ (∀ slot, (i.gp = 0 → i.gneg = false → exec (.nop i slot) s = .next (s.issued i.core [])) ∧ ((i.gp ≠ 0 ∨ i.gneg = true) → EndsTask (.nop i slot) s i.core 0x0104))

/-- R124: while a write of a register that it reads or writes is outstanding, an instruction does not issue and the core stands as it was; a core that runs no task, waits, or stands at a barrier takes no instruction; a slot that does not close its bundle only joins it (log 1). -/
def Obligations.InstructionsThatDoNotIssue : Prop :=
  (∀ (i : Issue) (s : State) (r : Reg), Alone i s → GuardKind.lane0.executes i (guardMask (s.core i.core) i) = true → (s.core i.core).busy r = true →
      (∀ rd ra rb, r = .s rd ∨ r = .s ra ∨ r = .s rb → exec (.add i rd ra rb) s = .next s)
      ∧ (∀ td rs, r = .s rs ∨ r = .td td → exec (.tdl i td rs) s = .next s)
      ∧ (∀ vd rs lane, r = .s rs ∨ r = .v vd → exec (.vins i vd rs lane) s = .next s)
      ∧ (∀ imm target, r = .s imm → exec (.loop i imm target) s = .next s))
  ∧ (∀ (i : Issue) (s : State), s.canIssue i.core = false →
      (∀ slot, exec (.nop i slot) s = .next s) ∧ (∀ rd ra rb, exec (.add i rd ra rb) s = .next s) ∧ (∀ rd ra imm, exec (.sst i rd ra imm) s = .next s)
      ∧ (∀ b, exec (.brnd i b) s = .next s) ∧ (∀ vd va vb, exec (.vfma i vd va vb vb) s = .next s) ∧ (∀ q rs, exec (.dmaq i q rs) s = .next s)
      ∧ (∀ num, exec (.ebar i num) s = .next s) ∧ (∀ tok cnt, exec (.wait i tok cnt) s = .next s))
  ∧ (∀ (i : Issue) (s : State), s.canIssue i.core = true → i.close = false → ∀ (rd ra rb : Fin 32), (s.core i.core).bundle.used.contains .c = false →
      ∃ t, exec (.add i rd ra rb) s = .next t ∧ (∀ j, j ≠ i.core → t.core j = s.core j) ∧ t = { s with cores := t.cores }
        ∧ { t.core i.core with bundle := (s.core i.core).bundle } = s.core i.core
        ∧ (t.core i.core).bundle.used = (s.core i.core).bundle.used ++ [.c] ∧ (t.core i.core).bundle.dests = (s.core i.core).bundle.dests ++ [.s rd])

/-- R125: two instructions of one bundle read the registers as they stood before it: an ADD and a VINS that name each other's result see the old one. -/
def Obligations.BundleReadsRegistersAsBefore : Prop :=
  ∀ (i : Issue) (s : State) (rd ra rb rs : Fin 32) (vd : Fin 32) (lane : Fin 256), i.close = false →
    Executes .lane0 { i with close := true } [.s rd, .s ra, .s rb, .s rs, .v vd] s → Admitted i.core .v vDrawHalf s → rs = rd →
    ∃ u, exec (.add i rd ra rb) s = .next u
      ∧ exec (.vins { i with close := true } vd rs lane) u = .next (s.issued i.core
          [⟨.s rd, .s ((s.core i.core).getS ra + (s.core i.core).getS rb), 0⟩, ⟨.v vd, .v (((s.core i.core).getV vd).set lane (((s.core i.core).getS rs).setWidth 32)), vDrawHalf⟩])

/-- R126: two instructions of one bundle that write the same register end the task, even where one is guarded off; s0 is exempt. R119, R123: a reserved encoding ends the task whatever its guard. -/
def Obligations.TwoWritersOfOneRegisterEndTheTask : Prop :=
  (∀ (i : Issue) (s : State) (rd ra rb vx : Fin 32) (lane : Fin 256), i.close = false → rd ≠ 0 →
    Executes .lane0 { i with close := true } [.s rd, .s ra, .s rb, .v vx] s →
    ∀ off : Bool, ∃ u t, exec (.add i rd ra rb) s = .next u ∧ exec (.vext { i with close := true, gp := if off then 0 else i.gp, gneg := off || i.gneg } rd vx lane) u = .next t
      ∧ TaskEndsAt s t i.core 0x0104 (s.core i.core).pc)
  ∧ (∀ (i : Issue) (s : State) (a b c : Fin 32) (k l m : Fin 16) (slot : SlotId) (q : Fin 8) (w : BitVec 32), i.reserved = true → Alone { i with reserved := false } s → (∀ r, (s.core i.core).busy r = false) →
    ∀ cmd ∈ ([.nop i slot, .add i a b c, .sld i a b w, .mxa i k l m false a, .vadd i a b c, .vst i a b w, .dmaq i q a, .tdl i k a] : List Instr), EndsTask cmd s i.core 0x0104)

/-- R127: the write of a register takes effect and its scoreboard entry is released; writes to s0 and p0 are discarded. -/
def Obligations.OutstandingWriteTakesEffect : Prop :=
  ∀ (s : State) (g : Fin 512) (w : RegWrite) (rest : List RegWrite), (s.core g).inflight = w :: rest →
    ∃ t, exec (.scoreboardClear g w.reg) s = .next t ∧ t = s.setCore g (t.core g) ∧ (t.core g).inflight = rest
      ∧ (∀ n x, w.reg = .s n → w.val = .s x → (t.core g).getS n = if n = 0 then 0 else x)
      ∧ (∀ n x, w.reg = .v n → w.val = .v x → (t.core g).getV n = x)
      ∧ (∀ n x, w.reg = .p n → w.val = .p x → (t.core g).getP n = if n = 0 then BitVec.allOnes 256 else x)
      ∧ (∀ n x, w.reg = .td n → w.val = .td x → (t.core g).td[n] = some x)
      ∧ (∀ n, w.reg ≠ .s n → (t.core g).getS n = (s.core g).getS n) ∧ (∀ n, w.reg ≠ .v n → (t.core g).getV n = (s.core g).getV n)
      ∧ (∀ n, w.reg ≠ .p n → (t.core g).getP n = (s.core g).getP n) ∧ (∀ n : Fin 16, w.reg ≠ .td n → (t.core g).td[n] = (s.core g).td[n])
      ∧ { t.core g with s := (s.core g).s, v := (s.core g).v, p := (s.core g).p, td := (s.core g).td, inflight := (s.core g).inflight } = s.core g

/-! The C slot (R130 to R135) -/

/-- R130: the scalar operations on two registers; no status, and nothing but the outstanding write. -/
def Obligations.ScalarRegisterResults : Prop :=
  ∀ (i : Issue) (rd ra rb : Fin 32) (s : State) (a b : W64) (k : Nat), Executes .lane0 i [.s ra, .s rb, .s rd] s →
    a = (s.core i.core).getS ra → b = (s.core i.core).getS rb → k = b.toNat % 64 →
    WritesS i s rd (.add i rd ra rb) (a + b) ∧ WritesS i s rd (.sub i rd ra rb) (a - b)
    ∧ WritesS i s rd (.and i rd ra rb) (a &&& b) ∧ WritesS i s rd (.or i rd ra rb) (a ||| b) ∧ WritesS i s rd (.xor i rd ra rb) (a ^^^ b)
    ∧ WritesS i s rd (.shl i rd ra rb) (BitVec.ofNat 64 (a.toNat * 2 ^ k)) ∧ WritesS i s rd (.shr i rd ra rb) (BitVec.ofNat 64 (a.toNat / 2 ^ k))
    ∧ WritesS i s rd (.sra i rd ra rb) (BitVec.ofInt 64 (a.toInt / 2 ^ k))
    ∧ WritesS i s rd (.mul i rd ra rb) (BitVec.ofNat 64 (a.toNat * b.toNat)) ∧ WritesS i s rd (.mulhu i rd ra rb) (BitVec.ofNat 64 (a.toNat * b.toNat / 2 ^ 64))
    ∧ WritesS i s rd (.min i rd ra rb) (BitVec.ofInt 64 (min a.toInt b.toInt)) ∧ WritesS i s rd (.max i rd ra rb) (BitVec.ofInt 64 (max a.toInt b.toInt))

/-- R130: the scalar operations on a register and an immediate, sign-extended to 64 bits. -/
def Obligations.ScalarImmediateResults : Prop :=
  ∀ (i : Issue) (rd ra : Fin 32) (imm : BitVec 32) (s : State) (a b : W64) (k : Nat), Executes .lane0 i [.s ra, .s rd] s →
    a = (s.core i.core).getS ra → b = BitVec.ofInt 64 imm.toInt → k = imm.toNat % 64 →
    WritesS i s rd (.addi i rd ra imm) (a + b) ∧ WritesS i s rd (.andi i rd ra imm) (a &&& b) ∧ WritesS i s rd (.ori i rd ra imm) (a ||| b)
    ∧ WritesS i s rd (.xori i rd ra imm) (a ^^^ b)
    ∧ WritesS i s rd (.shli i rd ra imm) (BitVec.ofNat 64 (a.toNat * 2 ^ k)) ∧ WritesS i s rd (.shri i rd ra imm) (BitVec.ofNat 64 (a.toNat / 2 ^ k))
    ∧ WritesS i s rd (.srai i rd ra imm) (BitVec.ofInt 64 (a.toInt / 2 ^ k))
    ∧ WritesS i s rd (.lui i rd ra imm) (BitVec.ofNat 64 (imm.toNat * 2 ^ 32 + a.toNat % 2 ^ 32))

/-- R131: CMP and CMPI set a predicate to all ones or all zeros by their condition; codes 6 to 15 are reserved. -/
def Obligations.ScalarComparisonConditions : Prop :=
  ∀ (i : Issue) (pd : Fin 8) (cond : BitVec 4) (ra rb : Fin 32) (imm : BitVec 32) (s : State), Executes .lane0 i [.s ra, .s rb, .p pd] s →
    (cond.toNat < 6 →
      (∃ x, exec (.cmp i pd cond ra rb) s = .next (s.issued i.core [⟨.p pd, .p x, 0⟩])
        ∧ (CondHolds cond ((s.core i.core).getS ra) ((s.core i.core).getS rb) → x = BitVec.allOnes 256)
        ∧ (¬CondHolds cond ((s.core i.core).getS ra) ((s.core i.core).getS rb) → x = 0))
      ∧ ∃ x, exec (.cmpi i pd cond ra imm) s = .next (s.issued i.core [⟨.p pd, .p x, 0⟩])
        ∧ (CondHolds cond ((s.core i.core).getS ra) (BitVec.ofInt 64 imm.toInt) → x = BitVec.allOnes 256)
        ∧ (¬CondHolds cond ((s.core i.core).getS ra) (BitVec.ofInt 64 imm.toInt) → x = 0))
    ∧ (6 ≤ cond.toNat → EndsTask (.cmp i pd cond ra rb) s i.core 0x0104 ∧ EndsTask (.cmpi i pd cond ra imm) s i.core 0x0104)

/-- R130, R86, R216: BR, BRR, LOOP and CALL move the sequencer, LOOP and CALL also write a register; a target beyond the last bundle ends the task. -/
def Obligations.BranchesMoveTheSequencer : Prop :=
  ∀ (i : Issue) (s : State) (rd : Fin 32), Executes .lane0 i [.s 31, .s rd] s →
    (∀ t, t ≤ s.lastBundle i.core →
      Goes i s (.br i t none) t [] ∧ Goes i s (.call i t) t [⟨.s 31, .s (BitVec.ofNat 64 ((s.core i.core).pc.toNat + 1)), 0⟩])
    ∧ ((((s.core i.core).getS rd).setWidth 13 : BitVec 13) ≤ s.lastBundle i.core → Goes i s (.brr i rd) (((s.core i.core).getS rd).setWidth 13) [])
    ∧ (∀ t, t ≤ s.lastBundle i.core → (s.core i.core).getS rd ≠ 1 → Goes i s (.loop i rd t) t [⟨.s rd, .s ((s.core i.core).getS rd - 1), 0⟩])
    ∧ (∀ t, (s.core i.core).getS rd = 1 → Goes i s (.loop i rd t) ((s.core i.core).pc + 1) [⟨.s rd, .s 0, 0⟩])
    ∧ (∀ t, s.lastBundle i.core < t → EndsTask (.br i t none) s i.core 0x0104 ∧ EndsTask (.call i t) s i.core 0x0104)
    ∧ s.lastBundle i.core = if (s.taskOf i.core).any (·.2.reserve) then 8127 else 8191

/-- R132: SLD returns the 8 bytes of an aligned address in the scratchpad, low byte first; SST stores the 8 bytes of a register there and leaves every other byte; any other address ends the task. -/
def Obligations.ScalarLoadAndStore : Prop :=
  (∀ (i : Issue) (rd ra : Fin 32) (imm : BitVec 32) (s : State), Executes .lane0 i [.s ra, .s rd] s →
      let a := ((s.core i.core).getS ra + BitVec.ofInt 64 imm.toInt).toNat
      if a % 8 = 0 ∧ a ≤ 0x3FFFF8 then
        ((s.core i.core).badParity = [] → ∃ x : W64, exec (.sld i rd ra imm) s = .next (s.issued i.core [⟨.s rd, .s x, 0⟩])
          ∧ ∀ k : Fin 8, (x >>> (8 * k.val)).setWidth 8 = readByte (s.core i.core).spad (a + k.val))
      else EndsTask (.sld i rd ra imm) s i.core 0x0108)
  ∧ (∀ (i : Issue) (rd ra : Fin 32) (imm : BitVec 32) (s : State), Executes .lane0 i [.s ra, .s rd] s → s.Wf →
      let c := s.core i.core
      let a := (c.getS ra + BitVec.ofInt 64 imm.toInt).toNat
      if a % 8 = 0 ∧ a ≤ 0x3FFFF8 then
        ∃ t, exec (.sst i rd ra imm) s = .next t ∧ t = s.setCore i.core (t.core i.core)
          ∧ (∀ k : Fin 8, readByte (t.core i.core).spad (a + k.val) = (c.getS rd >>> (8 * k.val)).setWidth 8)
          ∧ (∀ b, b < a ∨ a + 8 ≤ b → readByte (t.core i.core).spad b = readByte c.spad b)
          ∧ { t.core i.core with spad := c.spad, badParity := c.badParity } = { c with seq := c.seq + 1, pc := c.pc + 1 }
      else EndsTask (.sst i rd ra imm) s i.core 0x0108)

/-- R133: SYSR returns the numbered system value; every other number is reserved. -/
def Obligations.SystemValues : Prop :=
  ∀ (i : Issue) (rd : Fin 32) (imm : BitVec 32) (s : State) (p : Fin 8) (k : Task), Executes .lane0 i [.s rd] s → s.taskOf i.core = some (p, k) →
    WritesS i s rd (.sysr i rd 0) (BitVec.ofNat 64 i.core.val) ∧ WritesS i s rd (.sysr i rd 1) (s.fab.moduleId.setWidth 64) ∧ WritesS i s rd (.sysr i rd 2) ((s.core i.core).epoch.setWidth 64)
    ∧ WritesS i s rd (.sysr i rd 3) (BitVec.ofNat 64 (p.val + 16 * s.partSize p))
    ∧ WritesS i s rd (.sysr i rd 4) (BitVec.ofNat 64 ((ringOrder p.val (s.partSize p)).idxOf (i.core.val / 64) * 64 + i.core.val % 64))
    ∧ WritesS i s rd (.sysr i rd 8) (BitVec.ofNat 64 (s.now - k.coresAt))
    ∧ (imm ∉ ([0, 1, 2, 3, 4, 8] : List (BitVec 32)) → EndsTask (.sysr i rd imm) s i.core 0x0104)

/-- R134: EMBER evaluates the generator with the job's seed for DOM 0 or 1; any other DOM ends the task. -/
def Obligations.EmberUsesTheJobSeed : Prop :=
  ∀ (i : Issue) (rd ra rb : Fin 32) (dom : BitVec 8) (s : State) (p : Fin 8) (k : Task), Executes .lane0 i [.s ra, .s rb, .s rd] s → s.taskOf i.core = some (p, k) →
    if dom = 0 ∨ dom = 1 then WritesS i s rd (.ember i rd ra rb dom)
      (BitVec.ofNat 64 (ember k.job.seed.toNat (((s.core i.core).getS rb).toNat % 2 ^ 32) ((s.core i.core).getS ra).toNat dom.toNat))
    else EndsTask (.ember i rd ra rb dom) s i.core 0x0104

/-! The V slot (R151 to R155) -/

/-- R151: the FP lanes: binary32, rounded to nearest even, VFMA once; VABS and VNEG change only the sign bit; VMIN and VMAX return NaN for a NaN and order −0 below +0. -/
def Obligations.VectorFloatLanes : Prop :=
  ∀ (i : Issue) (vd va vb vc : Fin 32) (s : State) (a b c : Fin 256 → W32), Executes .perLane i [.v va, .v vb, .v vc, .v vd] s → Admitted i.core .v 6 s →
    (∀ k : Fin 256, a k = ((s.core i.core).getV va)[k] ∧ b k = ((s.core i.core).getV vb)[k] ∧ c k = ((s.core i.core).getV vc)[k]) →
    WritesLanes i s vd (.vadd i vd va vb) (fun k => rne32 ((ofF32 (a k)).add (ofF32 (b k))))
    ∧ WritesLanes i s vd (.vsub i vd va vb) (fun k => rne32 ((ofF32 (a k)).add (ofF32 (b k)).neg))
    ∧ WritesLanes i s vd (.vmul i vd va vb) (fun k => rne32 ((ofF32 (a k)).mul (ofF32 (b k))))
    ∧ WritesLanes i s vd (.vfma i vd va vb vc) (fun k => rne32 (((ofF32 (a k)).mul (ofF32 (b k))).add (ofF32 (c k))))
    ∧ WritesLanes i s vd (.vabs i vd va) (fun k => BitVec.ofNat 32 ((a k).toNat % 2 ^ 31))
    ∧ WritesLanes i s vd (.vneg i vd va) (fun k => a k ^^^ 0x80000000)
    ∧ ∃ lo hi : Fin 256 → W32, WritesLanes i s vd (.vmin i vd va vb) lo ∧ WritesLanes i s vd (.vmax i vd va vb) hi ∧ ∀ k,
        ((ofF32 (a k)).isNan ∨ (ofF32 (b k)).isNan → lo k = 0x7FC00000 ∧ hi k = 0x7FC00000)
        ∧ ((ofF32 (a k)).lt (ofF32 (b k)) → lo k = a k ∧ hi k = b k) ∧ ((ofF32 (b k)).lt (ofF32 (a k)) → lo k = b k ∧ hi k = a k)
        ∧ (a k = 0x80000000 → b k = 0 → lo k = 0x80000000 ∧ hi k = 0) ∧ (a k = 0 → b k = 0x80000000 → lo k = 0x80000000 ∧ hi k = 0)

/-- R151: the integer and bitwise lanes; shift amounts are the low 5 bits of the lane. -/
def Obligations.VectorIntegerLanes : Prop :=
  ∀ (i : Issue) (vd va vb : Fin 32) (s : State) (a b : Fin 256 → W32), Executes .perLane i [.v va, .v vb, .v vd] s → Admitted i.core .v 6 s →
    (∀ k : Fin 256, a k = ((s.core i.core).getV va)[k] ∧ b k = ((s.core i.core).getV vb)[k]) →
    WritesLanes i s vd (.viadd i vd va vb) (fun k => a k + b k) ∧ WritesLanes i s vd (.visub i vd va vb) (fun k => a k - b k)
    ∧ WritesLanes i s vd (.vand i vd va vb) (fun k => a k &&& b k) ∧ WritesLanes i s vd (.vor i vd va vb) (fun k => a k ||| b k)
    ∧ WritesLanes i s vd (.vxor i vd va vb) (fun k => a k ^^^ b k)
    ∧ WritesLanes i s vd (.vshl i vd va vb) (fun k => BitVec.ofNat 32 ((a k).toNat * 2 ^ ((b k).toNat % 32)))
    ∧ WritesLanes i s vd (.vshr i vd va vb) (fun k => BitVec.ofNat 32 ((a k).toNat / 2 ^ ((b k).toNat % 32)))
    ∧ WritesLanes i s vd (.vsra i vd va vb) (fun k => BitVec.ofInt 32 ((a k).toInt / 2 ^ ((b k).toNat % 32)))

/-- R152: VCMP's conditions, lane by lane, its reserved codes, and PLOG's functions. -/
def Obligations.VectorPredicates : Prop :=
  ∀ (i : Issue) (pd pa pb : Fin 8) (va vb : Fin 32) (s : State) (a b : Fin 256 → W32), Executes .perLane i [.v va, .v vb, .p pa, .p pb, .p pd] s → Admitted i.core .v 6 s →
    (∀ k : Fin 256, a k = ((s.core i.core).getV va)[k] ∧ b k = ((s.core i.core).getV vb)[k]) →
    WritesBits i s pd (.vcmp i pd 0 va vb) (fun k => (ofF32 (a k)).feq (ofF32 (b k))) ∧ WritesBits i s pd (.vcmp i pd 1 va vb) (fun k => !(ofF32 (a k)).feq (ofF32 (b k)))
    ∧ WritesBits i s pd (.vcmp i pd 2 va vb) (fun k => (ofF32 (a k)).lt (ofF32 (b k)))
    ∧ WritesBits i s pd (.vcmp i pd 3 va vb) (fun k => (ofF32 (a k)).lt (ofF32 (b k)) || (ofF32 (a k)).feq (ofF32 (b k)))
    ∧ WritesBits i s pd (.vcmp i pd 4 va vb) (fun k => (ofF32 (a k)).isNan || (ofF32 (b k)).isNan)
    ∧ WritesBits i s pd (.vcmp i pd 8 va vb) (fun k => decide (a k = b k)) ∧ WritesBits i s pd (.vcmp i pd 9 va vb) (fun k => decide (a k ≠ b k))
    ∧ WritesBits i s pd (.vcmp i pd 10 va vb) (fun k => decide ((a k).toInt < (b k).toInt)) ∧ WritesBits i s pd (.vcmp i pd 11 va vb) (fun k => decide ((a k).toInt ≤ (b k).toInt))
    ∧ (∀ cond : BitVec 4, cond ∉ ([0, 1, 2, 3, 4, 8, 9, 10, 11] : List (BitVec 4)) → EndsTask (.vcmp i pd cond va vb) s i.core 0x0104)
    ∧ (∀ fn : BitVec 2, WritesBits i s pd (.plog i pd pa pb fn) (fun k =>
        let x := ((s.core i.core).getP pa).getLsbD k.val
        let y := ((s.core i.core).getP pb).getLsbD k.val
        if fn = 0 then x && y else if fn = 1 then x || y else if fn = 2 then x ^^ y else x && !y))
    ∧ (ofF32 0x80000000).feq (ofF32 0) = true ∧ (ofF32 0x80000000).lt (ofF32 0) = false ∧ (ofF32 0).lt (ofF32 0x80000000) = false
    ∧ (∀ x y : Machine.Num, x.isNan = true ∨ y.isNan = true → x.feq y = false ∧ x.lt y = false)

/-- R151, R153: VBCAST and VPERM move lanes under the guard; VINS and VEXT move one lane; VRED SUM adds 256 lanes, disabled ones as +0, in the fixed tree, into lane 0. -/
def Obligations.VectorMovesAndReduction : Prop :=
  ∀ (i : Issue) (vd va vb rs : Fin 32) (lane : Fin 256) (s : State), Admitted i.core .v 6 s →
    (Executes .perLane i [.v va, .v vb, .s rs, .v vd] s →
      WritesLanes i s vd (.vbcast i vd rs) (fun _ => ((s.core i.core).getS rs).setWidth 32)
      ∧ WritesLanes i s vd (.vperm i vd va vb) (fun k => ((s.core i.core).getV va)[((s.core i.core).getV vb)[k].toNat % 256]))
    ∧ (Executes .lane0 i [.v va, .s rs, .v vd] s →
      (∃ x, WritesV i s vd (.vins i vd rs lane) x ∧ x[lane] = ((s.core i.core).getS rs).setWidth 32 ∧ ∀ k : Fin 256, k ≠ lane → x[k] = ((s.core i.core).getV vd)[k])
      ∧ exec (.vext i rs va lane) s = .next (s.issued i.core [⟨.s rs, .s (((s.core i.core).getV va)[lane].setWidth 64), 6⟩]))
    ∧ (Executes .combine i [.v va, .v vd] s → ∀ op : BitVec 2, op ≠ 3 →
      ∃ x, WritesV i s vd (.vred i vd va op) x ∧ (∀ k : Fin 256, k ≠ 0 → x[k] = 0)
        ∧ x[(0 : Fin 256)] = treeReduce (if op = 0 then addF32 else fpPick (decide (op = 1)))
            ((List.finRange 256).map fun k => if (guardMask (s.core i.core) i).getLsbD k.val then ((s.core i.core).getV va)[k]
              else if op = 0 then 0 else if op = 1 then 0xFF800000 else 0x7F800000))
    ∧ (Executes .combine i [.v va, .v vd] s → EndsTask (.vred i vd va 3) s i.core 0x0104)

/-- R154, R155, R41: VCVT's lane form converts each enabled lane under its CONV, its block forms write a register pair or read one, and SFN evaluates its function on each enabled lane; the reserved combinations end the task. -/
def Obligations.VectorConversionsAndFunctions : Prop :=
  ∀ (i : Issue) (c : VcvtOp) (vd va : Fin 32) (fn : BitVec 4) (fmt : BitVec 2) (s : State) (p : Fin 8) (job : Task) (rho : Fin 256 → Nat), s.taskOf i.core = some (p, job) →
    (∀ k : Fin 256, rho k = if convRnd c.conv = .sr then rhoOf job.job.seed.toNat (((s.core i.core).getS c.rt).toNat % 2 ^ 32) (((s.core i.core).getS c.ri).toNat + k.val) else 0) →
    (Executes .perLane i [.v c.va, .s c.rt, .s c.ri, .v c.vd] s → Admitted i.core .v 6 s → convReserved c.conv = false →
      ((c.sf = 0 ∧ c.df = 1 → WritesLanes i s c.vd (.vcvt i c) (fun k => BitVec.ofNat 32 (bf16.convert c.conv (rho k) (ofF32 ((s.core i.core).getV c.va)[k]))))
      ∧ (c.sf = 0 ∧ c.df = 2 → WritesLanes i s c.vd (.vcvt i c) (fun k => BitVec.ofNat 32 (fp16.convert c.conv (rho k) (ofF32 ((s.core i.core).getV c.va)[k]))))
      ∧ (c.sf = 1 ∧ c.df = 0 → WritesLanes i s c.vd (.vcvt i c) (fun k => BitVec.ofNat 32 (f32.convert c.conv (rho k) (bf16.decode (((s.core i.core).getV c.va)[k].toNat % 65536)))))
      ∧ (c.sf = 2 ∧ c.df = 0 → WritesLanes i s c.vd (.vcvt i c) (fun k => BitVec.ofNat 32 (f32.convert c.conv (rho k) (fp16.decode (((s.core i.core).getV c.va)[k].toNat % 65536)))))))
    ∧ (Executes .perLane i [.v c.va, .s c.rt, .s c.ri, .v c.vd, .v (c.vd + 1)] s → Admitted i.core .v 6 s → convReserved c.conv = false → guarded i = false → c.vd ≠ 31 →
      c.sf = 0 → (3 ≤ c.df.toNat ∧ c.df.toNat ≤ 9) → exec (.vcvt i c) s = .next (s.issued i.core
        [⟨.v c.vd, .v (cvtToBlock c.df c.conv rho ((s.core i.core).getV c.va)).1, 6⟩, ⟨.v (c.vd + 1), .v (cvtToBlock c.df c.conv rho ((s.core i.core).getV c.va)).2, 0⟩]))
    ∧ (Executes .perLane i [.v c.va, .s c.rt, .s c.ri, .v (c.va + 1), .v c.vd] s → Admitted i.core .v 6 s → convReserved c.conv = false → guarded i = false → c.va ≠ 31 →
      c.df = 0 → (3 ≤ c.sf.toNat ∧ c.sf.toNat ≤ 9) →
        WritesV i s c.vd (.vcvt i c) (cvtOfBlock c.sf c.conv rho ((s.core i.core).getV c.va) ((s.core i.core).getV (c.va + 1))))
    ∧ (Executes .perLane i [.v c.va, .s c.rt, .s c.ri, .v (c.va + 1), .v c.vd, .v (c.vd + 1)] s → cvtIllegal i c = true → EndsTask (.vcvt i c) s i.core 0x0104)
    ∧ (Executes .perLane i [.v va, .v vd] s → Admitted i.core .v 2 s → (s.core i.core).sfuFreeAt ≤ s.now → fn.toNat ≤ 11 → fmt ≠ 3 →
      ∃ x, exec (.sfn i vd va fn fmt) s = .next ((s.issued i.core [⟨.v vd, .v x, 0⟩]).modCore i.core fun k => { k with sfuFreeAt := s.now + 4 })
        ∧ ∀ k : Fin 256, x[k] = if (guardMask (s.core i.core) i).getLsbD k.val then sfnLane fn.toNat fmt.toNat ((s.core i.core).getV va)[k] else ((s.core i.core).getV vd)[k])
    ∧ (Executes .perLane i [.v va, .v vd] s → (11 < fn.toNat ∨ fmt = 3) → EndsTask (.sfn i vd va fn fmt) s i.core 0x0104)

/-- R160: VLD reads 1,024 bytes of the scratchpad; VST stores the 4 bytes of each lane that its guard enables and no other byte; a misaligned or outside address ends the task. -/
def Obligations.VectorLoadAndStore : Prop :=
  ∀ (i : Issue) (vd rs : Fin 32) (imm : BitVec 32) (s : State) (a : Nat), s.Wf → a = ((s.core i.core).getS rs + BitVec.ofInt 64 imm.toInt).toNat →
    (Executes .lane0 i [.s rs, .v vd] s →
      (a % 64 = 0 → a ≤ 0x3FFC00 → (s.core i.core).badParity = [] → ∃ x : VReg, exec (.vld i vd rs imm) s = .next (s.issued i.core [⟨.v vd, .v x, 0⟩])
        ∧ ∀ (k : Fin 256) (j : Fin 4), (x[k] >>> (8 * j.val)).setWidth 8 = readByte (s.core i.core).spad (a + 4 * k.val + j.val))
      ∧ (a % 64 ≠ 0 ∨ 0x3FFC00 < a → EndsTask (.vld i vd rs imm) s i.core 0x0108))
    ∧ (Executes .perLane i [.s rs, .v vd] s →
      (a % 64 = 0 → a ≤ 0x3FFC00 → ∃ t, exec (.vst i vd rs imm) s = .next t ∧ t = s.setCore i.core (t.core i.core)
        ∧ (∀ (k : Fin 256) (j : Fin 4), readByte (t.core i.core).spad (a + 4 * k.val + j.val) =
            if (guardMask (s.core i.core) i).getLsbD k.val then (((s.core i.core).getV vd)[k] >>> (8 * j.val)).setWidth 8 else readByte (s.core i.core).spad (a + 4 * k.val + j.val))
        ∧ (∀ b, b < a ∨ a + 1024 ≤ b → readByte (t.core i.core).spad b = readByte (s.core i.core).spad b)
        ∧ { t.core i.core with spad := (s.core i.core).spad, badParity := (s.core i.core).badParity } = { s.core i.core with seq := (s.core i.core).seq + 1, pc := (s.core i.core).pc + 1 })
      ∧ (a % 64 ≠ 0 ∨ 0x3FFC00 < a → EndsTask (.vst i vd rs imm) s i.core 0x0108))

/-! The M slot (R128, R136 to R149) -/

/-- R128, R92, R124, R78, R136, R149: an M-slot instruction enters the queue behind the earlier ones with copies of its descriptors and scalars, and the head starts where it may; it stalls while the queue holds four entries; a register that holds no tile descriptor and a reserved field end the task. -/
def Obligations.MatrixInstructionsEnterTheQueue : Prop :=
  (∀ (i : Issue) (s : State) (c : Core), c = s.core i.core → c.mq.length < 4 →
      (∀ (tdA tdB tdD : Fin 16) (asrc side : Bool) (rs : Fin 32) (a b d : Desc) (e : Option Desc),
        Executes .lane0 i (c.tdRegs tdA 1 ++ [.td tdB, .td tdD, .s rs]) s → c.tdUse tdA = some a → c.tdUse tdB = some b → c.tdUse tdD = some d → c.ext tdA 1 = some e →
        exec (.mxa i tdA tdB tdD asrc rs) s = .next ((s.queuedM i.core (.mxa a b d e asrc (c.getS rs)) []).startHead i.core)
        ∧ exec (.fold i tdA tdB tdD asrc rs side) s = .next ((s.queuedM i.core (.fold a b d e asrc (c.getS rs) side) []).startHead i.core))
      ∧ (∀ (b : BrndOp) (o : Desc), Executes .lane0 i [.td b.tdO, .s b.rb, .s b.rsc] s → brndIllegal b = false → c.tdUse b.tdO = some o →
        exec (.brnd i b) s = .next ((s.queuedM i.core (.brnd o b (c.getS b.rb) (c.getS b.rsc)) []).startHead i.core))
      ∧ (∀ (k : SparkOp) (a w d : Desc) (e : Option Desc), Executes .lane0 i (c.tdRegs k.tdA 1 ++ [.td k.tdW, .td k.tdD, .s k.rs, .s k.rt, .s k.rd, .p k.pd]) s →
        k.slotLo.toNat < 5 → c.tdUse k.tdA = some a → c.tdUse k.tdW = some w → c.tdUse k.tdD = some d → c.ext k.tdA 1 = some e →
        exec (.spark i k) s = .next ((s.queuedM i.core (.spark a w d e k (c.getS k.rs) (c.getS k.rt)) [.s k.rd, .p k.pd]).startHead i.core))
      ∧ (∀ (f : AttnOp) (q k v o : Desc) (ke ve : Option Desc), Executes .lane0 i ([.td f.tdQ, .td f.tdO, .s f.rs, .s f.rm] ++ c.tdRegs f.tdK 2 ++ c.tdRegs f.tdV 2) s →
        (f.last && f.xmax) = false → c.tdUse f.tdQ = some q → c.tdUse f.tdK = some k → c.ext f.tdK 2 = some ke → c.tdUse f.tdV = some v → c.ext f.tdV 2 = some ve → c.tdUse f.tdO = some o →
        exec (.attn i f) s = .next ((s.queuedM i.core (.attn q k v ke ve o f (c.getS f.rs) (c.getS f.rm)) []).startHead i.core))
      ∧ (∀ (n : NormOp) (x y : Desc), Executes .lane0 i [.td n.tdX, .td n.tdY, .s n.rs, .s n.rg, .v n.vs] s → normIllegal n = false → c.tdUse n.tdX = some x → c.tdUse n.tdY = some y →
        exec (.normStat i n) s = .next ((s.queuedM i.core (.normStat x y n (c.getS n.rs) (c.getS n.rg)) [.v n.vs]).startHead i.core)
        ∧ exec (.normApply i n) s = .next ((s.queuedM i.core (.normApply x y n (c.getS n.rs) (c.getS n.rg) (c.getV n.vs)) []).startHead i.core)))
  ∧ (∀ (c : Core) (n : Fin 16), c.tdUse n = match c.td[n] with | some d => if descOk n d then some d else none | none => none)
  ∧ (∀ (i : Issue) (s : State) (c : Core) (tdA tdB tdD : Fin 16) (asrc side : Bool) (rs : Fin 32), c = s.core i.core →
      Executes .lane0 i (c.tdRegs tdA 1 ++ [.td tdB, .td tdD, .s rs]) s →
      (4 ≤ c.mq.length → exec (.mxa i tdA tdB tdD asrc rs) s = .next s ∧ exec (.fold i tdA tdB tdD asrc rs side) s = .next s)
      ∧ (c.mq.length < 4 → (c.tdUse tdA = none ∨ c.tdUse tdB = none ∨ c.tdUse tdD = none) → EndsTask (.mxa i tdA tdB tdD asrc rs) s i.core 0x0105)
      ∧ (∀ b : BrndOp, Executes .lane0 i [.td b.tdO, .s b.rb, .s b.rsc] s → (5 ≤ b.slot.toNat ∨ (b.epiA = false ∧ b.epiF ≠ 0) ∨ 12 ≤ b.epiF.toNat) → EndsTask (.brnd i b) s i.core 0x0104)
      ∧ (∀ k : SparkOp, Executes .lane0 i (c.tdRegs k.tdA 1 ++ [.td k.tdW, .td k.tdD, .s k.rs, .s k.rt, .s k.rd, .p k.pd]) s → 5 ≤ k.slotLo.toNat → EndsTask (.spark i k) s i.core 0x0104)
      ∧ (∀ n : NormOp, Executes .lane0 i [.td n.tdX, .td n.tdY, .s n.rs, .s n.rg, .v n.vs] s → n.kind = 3 → EndsTask (.normApply i n) s i.core 0x0104 ∧ EndsTask (.normStat i n) s i.core 0x0104))

/-- R128, R169, R518: the head of the M queue starts once the governor admits it: it computes at its core's slots, counters, scratchpad and memory, its register results wait for its completion, and a fault, a 17th widened tensor among them, ends the task with nothing written. -/
def Obligations.MatrixQueueHeadActs : Prop :=
  ∀ (s : State) (g : Fin 512) (e : MEntry) (rest : List MEntry) (c : Core), c = s.core g → s.acts g = true → c.mq = e :: rest → e.started = false → Admitted g .m (mDraw e.op) s →
    (∀ q k v ke ve o f rs rm, e.op ≠ .attn q k v (some ke) (some ve) o f rs rm) →
    (∀ r, s.mRun g e.op none = .ok r → r.work.widen = (s.work g).widen → r.work.widen.length ≤ 16 →
      ((s.startHead g).core g = { c with slots := r.slots, stat := r.stat, spad := r.work.spad, badParity := r.work.bad, mq := { e with started := true, fetch := false, writes := r.writes } :: rest })
      ∧ (s.startHead g).mem = r.work.mem ∧ (∀ j, j ≠ g → (s.startHead g).core j = s.core j) ∧ (s.startHead g).hearths = s.hearths)
    ∧ (∀ r, s.mRun g e.op none = .ok r → 16 < r.work.widen.length → TaskEndsAt s (s.startHead g) g 0x0201 e.bundle)
    ∧ (∀ st, s.mRun g e.op none = .error st → TaskEndsAt s (s.startHead g) g st e.bundle)

/-- R128, R127: the head of the M queue completes: its entry is released and its register results become visible, in order; what has not started or whose fetch is not complete stays. -/
def Obligations.MatrixInstructionCompletes : Prop :=
  ∀ (s : State) (g : Fin 512) (e : MEntry) (c : Core), c = s.core g → s.acts g = true →
    (c.mq = [e] → e.started = true → e.fetch = false →
      exec (.mInstructionComplete g) s = .next ((s.setCore g { e.writes.foldl Core.applyWrite c with mq := [] }).settle g))
    ∧ (∀ f rest, c.mq = e :: f :: rest → e.started = true → e.fetch = false →
      exec (.mInstructionComplete g) s = .next (((s.setCore g { e.writes.foldl Core.applyWrite c with mq := f :: rest }).startHead g).settle g))
    ∧ (∀ rest, c.mq = e :: rest → (e.started = false ∨ e.fetch = true) → exec (.mInstructionComplete g) s = .next (s.settle g))

/-- R518: the governor grants the lowest core whose waiting start fits the budget, where none has waited 256 cycles, and an M-slot instruction then starts; with no start that fits nothing changes. -/
def Obligations.GovernorGrantsAStart : Prop :=
  ∀ (s : State) (h : Fin 8), (∀ r, s.nextGrant h = some r →
      exec (.drawGrant h) s = .next (let t := s.modHearth h fun x => { x with drawReqs := x.drawReqs.map fun y => if y = r then { y with granted := true } else y }
        if r.unit = .m then t.startHead r.core else t))
    ∧ (s.nextGrant h = none → exec (.drawGrant h) s = .next s)
    ∧ (∀ r, s.nextGrant h = some r → r ∈ s.hearths[h].drawReqs ∧ r.granted = false ∧ s.drawAdmits h r.draw = true
      ∧ (∀ x ∈ s.hearths[h].drawReqs, x.granted = false → x.aged s.now = true → r.aged s.now = true ∧ r.since ≤ x.since)
      ∧ ((∀ x ∈ s.hearths[h].drawReqs, x.aged s.now = false) → ∀ x ∈ s.hearths[h].drawReqs, x.granted = false → s.drawAdmits h x.draw = true → r.core ≤ x.core))

/-- R268, R272, R306: a page-table read ends: a valid entry enters the look-aside buffer first of at most 512, the read is forgotten, and each merged requester has its page; a step whose page is known then computes. A read that is lost ends the task of its requester. -/
def Obligations.PageTableReadServesItsRequesters : Prop :=
  ∀ (s : State) (h : Fin 8) (w : Walk) (x : W32), s.hearths[h].walks.find? (fun y => decide (y.table = w.table) && decide (y.k = w.k)) = some w →
    x = BitVec.ofNat 32 (leNat (s.mem.read (w.table.toNat + 4 * w.k) 4)) →
    (s.mem.lost (w.table.toNat + 4 * w.k) 4 = false → ∃ t, exec (.kvWalkReadDone h w.table w.k) s = .next t ∧ t.hearths[h].walks = s.hearths[h].walks.erase w ∧ t.mem = s.mem ∧ t.tokens = s.tokens
      ∧ (x.getLsbD 31 = true → t.hearths[h].lab = (⟨w.table, w.k, x⟩ :: s.hearths[h].lab).take 512) ∧ (x.getLsbD 31 = false → t.hearths[h].lab = s.hearths[h].lab)
      ∧ (∀ g, (∀ q, (g, q) ∉ w.who) → t.core g = s.core g)
      ∧ (∀ g e rest, w.who = [(g, none)] → (s.core g).mq = e :: rest → e.fetch = true → (t.core g).mq = { e with pages := e.pages ++ [(w.k, x)] } :: rest))
    ∧ (∀ g e rest, s.mem.lost (w.table.toNat + 4 * w.k) 4 = true → w.who = [(g, none)] → s.live g = true → (s.core g).mq = e :: rest →
      ∃ t, exec (.kvWalkReadDone h w.table w.k) s = .next t ∧ TaskEndsAt (s.modHearth h fun y => { y with walks := y.walks.erase w }) t g 0x0301 e.bundle)
    ∧ (∀ g q k v ke ve o f rs rm e rest, s.acts g = true → (s.core g).mq = e :: rest → e.fetch = true → e.op = .attn q k v (some ke) ve o f rs rm →
      (pList ke = true → exec (.attnFetchComplete g) s = .next (s.runHead g e none))
      ∧ (∀ y, pList ke = false → pageOf e.pages (rmKpos rm / 256) = some y → exec (.attnFetchComplete g) s = .next (s.runHead g e (some y))))

/-! The D slot (R157 to R165) -/

/-- R157, R158, R94, R205: LDT, STT and DMAQ enqueue one transfer behind the queue's others; a full queue stalls; an STT to an integer format with slag ends the task. -/
def Obligations.TransfersEnterTheirQueue : Prop :=
  ∀ (i : Issue) (q : Fin 8) (td : Fin 16) (rs : Fin 32) (sig : Bool) (tok : Fin 64) (conv sf : BitVec 4) (s : State) (c : Core) (d : Desc), c = s.core i.core →
    (Executes .lane0 i (c.tdRegs td 2 ++ [.s rs]) s → (c.q[q].xfers.length < 32 →
        c.tdUse td = some d → dMode d = 0 → dSpace d = 0 →
        let x : Xfer := { Xfer.blank .tile with stream := true, sig := sig, token := tok, tokenCore := BitVec.ofNat 9 i.core.val, td := d, dst := ⟨1, BitVec.ofNat 9 i.core.val, offset48 (c.getS rs)⟩ }
        exec (.ldt i q td rs sig tok) s = .next (s.queuedX i.core q x)
        ∧ (convReserved conv = false → fmtReserved sf.toNat = false → isInt (dFmt d) = true → dSlagEn d = true → EndsTask (.stt i q td rs sig tok conv sf) s i.core 0x0105)
        ∧ (convReserved conv = false → fmtReserved sf.toNat = false → admits (dLayout d) sf.toNat = true → ¬(isInt (dFmt d) = true ∧ dSlagEn d = true) →
          exec (.stt i q td rs sig tok conv sf) s = .next (s.queuedX i.core q { x with store := true, sf := sf, conv := conv })))
      ∧ (32 ≤ c.q[q].xfers.length → exec (.ldt i q td rs sig tok) s = .next s)
      ∧ (c.q[q].xfers.length < 32 → (c.tdUse td = none ∨ (c.tdUse td = some d ∧ dSpace d = 1 ∧ dMode d = 0)) → EndsTask (.ldt i q td rs sig tok) s i.core 0x0105))
    ∧ (Executes .lane0 i (.s rs :: dmaTdRegs c (c.getS rs)) s →
      (∀ x, c.q[q].xfers.length < 32 → c.badParity = [] → (c.getS rs).toNat % 32 = 0 → (c.getS rs).toNat ≤ 0x3FFFE0 →
        parseDma c i.core (s.hearthsOf i.core) (readBytes c.spad (c.getS rs).toNat 32) = .ok x → exec (.dmaq i q rs) s = .next (s.queuedX i.core q x))
      ∧ (32 ≤ c.q[q].xfers.length → exec (.dmaq i q rs) s = .next s)
      ∧ (c.q[q].xfers.length < 32 → ((c.getS rs).toNat % 32 ≠ 0 ∨ 0x3FFFE0 < (c.getS rs).toNat) → EndsTask (.dmaq i q rs) s i.core 0x0108))

/-- R158, R159, R91: DQST returns a queue's last status and resets it to OK; TDL and TDW replace a tile descriptor that passes the check, or an extension (R89) of the register before it, held to no check at its load (the model's choice, log 46), and end the task where the check fails or the address is wrong. -/
def Obligations.QueueStatusAndDescriptorLoads : Prop :=
  ∀ (i : Issue) (q : Fin 8) (td word : Fin 16) (rd : Fin 32) (s : State) (c : Core), c = s.core i.core → Executes .lane0 i [.s rd, .td td] s →
    exec (.dqst i rd q) s = .next ((s.issued i.core [⟨.s rd, .s (c.q[q].lastStatus.setWidth 64), 0⟩]).modCore i.core fun k => { k with q := k.q.set q { k.q[q] with lastStatus := 0 } })
    ∧ (∀ d, (c.getS rd).toNat % 64 = 0 → (c.getS rd).toNat ≤ 0x3FFFC0 → c.badParity = [] → d = readDesc c.spad (c.getS rd).toNat →
      (c.loadsExt td = true ∨ descOk td d = true → exec (.tdl i td rd) s = .next (s.issued i.core [⟨.td td, .td d, 0⟩])) ∧ (c.loadsExt td = false → descOk td d = false → EndsTask (.tdl i td rd) s i.core 0x0105))
    ∧ ((c.getS rd).toNat % 64 ≠ 0 ∨ 0x3FFFC0 < (c.getS rd).toNat → EndsTask (.tdl i td rd) s i.core 0x0108)
    ∧ (∀ d, c.td[td] = some d → ∃ x : Desc, (∀ j : Fin 16, x.extractLsb' (32 * j.val) 32 = if j = word then (c.getS rd).setWidth 32 else d.extractLsb' (32 * j.val) 32)
      ∧ (c.loadsExt td = true ∨ descOk td x = true → exec (.tdw i td word rd) s = .next (s.issued i.core [⟨.td td, .td x, 0⟩])) ∧ (c.loadsExt td = false → descOk td x = false → EndsTask (.tdw i td word rd) s i.core 0x0105))
    ∧ (c.td[td] = none → EndsTask (.tdw i td word rd) s i.core 0x0105)
    ∧ ((∀ w ∈ c.inflight, ∀ n, w.reg ≠ .td n) → (c.loadsExt td = true ↔ td ≠ 0 ∧ ∃ d, c.td[td - 1] = some d ∧ (dMode d = 1 ∨ dMode d = 2)))

/-- R161, R96, R97, R101: a SIGNAL puts its count on its way to the named core (a REMOTE that names this module acts as the local form, log 20), as a release with the sender's epoch; a local core outside the partition and a count of 0 end the task. A WAIT whose count stands in the current counter completes and subtracts it; else the core waits, from this moment and with its hearth's limit. -/
def Obligations.SignalsAndWaits : Prop :=
  (∀ (i : Issue) (rt : Fin 32) (tok : Fin 64) (cnt : BitVec 8) (s : State) (c : Core) (x : W64), c = s.core i.core → x = c.getS rt → Executes .lane0 i [.s rt] s →
      let go (m : Option (BitVec 16)) : State := { s.passed i.core id with tokens := s.tokens ++ [⟨i.core, none, c.seq, m, BitVec.ofNat 9 x.toNat, tok, cnt, c.epoch, c.pc⟩] }
      (cnt ≠ 0 → x.getLsbD 32 = false → s.partOfCore ⟨x.toNat % 512, by omega⟩ = s.partOfCore i.core → exec (.signal i rt tok cnt) s = .next (go none))
      ∧ (∀ m : BitVec 16, cnt ≠ 0 → x.getLsbD 32 = true → m = BitVec.ofNat 16 (x.toNat / 2 ^ 16) → m ≠ s.fab.moduleId → exec (.signal i rt tok cnt) s = .next (go (some m)))
      ∧ (cnt ≠ 0 → x.getLsbD 32 = true → BitVec.ofNat 16 (x.toNat / 2 ^ 16) = s.fab.moduleId → s.partOfCore ⟨x.toNat % 512, by omega⟩ = s.partOfCore i.core →
        exec (.signal i rt tok cnt) s = .next (go none))
      ∧ (cnt ≠ 0 → x.getLsbD 32 = false → s.partOfCore ⟨x.toNat % 512, by omega⟩ ≠ s.partOfCore i.core → EndsTask (.signal i rt tok cnt) s i.core 0x0108)
      ∧ (cnt = 0 → EndsTask (.signal i rt tok cnt) s i.core 0x0104))
  ∧ (∀ (i : Issue) (tok : Fin 64) (cnt : BitVec 8) (s : State) (c : Core) (n : BitVec 16), c = s.core i.core → Executes .lane0 i [] s → cnt ≠ 0 →
      n = (if c.epoch.getLsbD 0 then c.tok[tok].odd else c.tok[tok].even) →
      (∀ cell : TokenCell, cell = (if c.epoch.getLsbD 0 then ⟨c.tok[tok].even, BitVec.ofNat 16 (n.toNat - cnt.toNat)⟩ else ⟨BitVec.ofNat 16 (n.toNat - cnt.toNat), c.tok[tok].odd⟩) →
        cnt.toNat ≤ n.toNat → exec (.wait i tok cnt) s = .next (s.passed i.core fun k => { k with wait := none, tok := k.tok.set tok cell }))
      ∧ (n.toNat < cnt.toNat → exec (.wait i tok cnt) s = .next (s.passed i.core fun k => { k with mode := .wait, wait := some ⟨tok, cnt, s.now, s.hearths[hearthOf i.core].waitLimit.toNat, c.pc⟩ })))

/-- R105, R106, R162: a WCLAIM leaves a claim outstanding with its token; an increment of 0, a hearth outside the partition and a job without claims end the task; a second claim on the counter stalls. -/
def Obligations.WclaimLeavesAClaim : Prop :=
  ∀ (i : Issue) (rd rs : Fin 32) (pd : Fin 8) (h : Fin 8) (ctr : Fin 64) (inc : BitVec 16) (s : State) (c : Core) (n : Nat) (p : Fin 8) (k : Task), c = s.core i.core →
    Executes .lane0 i [.s rs, .s rd, .p pd] s → s.taskOf i.core = some (p, k) → n = (if inc = 0 then (c.getS rs).toNat % 2 ^ 16 else inc.toNat) →
    (n ≠ 0 → k.balEn = true → s.partOf h = some p → (∀ x ∈ c.claims, ¬(x.h = h ∧ x.ctr = ctr)) → exec (.wclaim i rd pd h ctr inc rs) s = .next (s.passed i.core fun y =>
        { y with claims := y.claims ++ [⟨h, ctr, n, rd, pd, BitVec.ofNat 16 (i.core.val * 128 + c.claimSeq.toNat), false, 0, c.pc⟩], claimSeq := c.claimSeq + 1 }))
    ∧ (n ≠ 0 → k.balEn = true → s.partOf h = some p → (∃ x ∈ c.claims, x.h = h ∧ x.ctr = ctr) → exec (.wclaim i rd pd h ctr inc rs) s = .next s)
    ∧ (n = 0 ∨ k.balEn = false ∨ s.partOf h ≠ some p → EndsTask (.wclaim i rd pd h ctr inc rs) s i.core 0x0104)

/-- R102, R122, R135, R163: HBAR, MBAR, EBAR and END hold the core at their barrier with their number; any guard on them ends the task. R164: MSYNC stalls while the M queue holds an entry and passes once it is empty. -/
def Obligations.BarrierAndMsyncInstructionsAct : Prop :=
  (∀ (i : Issue) (num : BitVec 16) (s : State), Alone i s →
      (i.gp = 0 → i.gneg = false →
        let held (kind : BitVec 2) : State := s.passed i.core fun c => { c with arrival := some ⟨kind, num, (s.core i.core).pc, (s.core i.core).seq, none⟩, mode := .barrier }
        exec (.hbar i num) s = .next ((held 0).settle i.core) ∧ exec (.mbar i num) s = .next ((held 1).settle i.core)
        ∧ exec (.ebar i num) s = .next ((held 2).settle i.core) ∧ exec (.endCore i num) s = .next ((held 3).settle i.core))
      ∧ ((i.gp ≠ 0 ∨ i.gneg = true) → (s.core i.core).busy (.p i.gp) = false →
        EndsTask (.hbar i num) s i.core 0x0104 ∧ EndsTask (.mbar i num) s i.core 0x0104 ∧ EndsTask (.ebar i num) s i.core 0x0104 ∧ EndsTask (.endCore i num) s i.core 0x0104))
  ∧ (∀ (i : Issue) (s : State), Executes .lane0 i [] s →
      ((s.core i.core).mq ≠ [] → exec (.msync i) s = .next s) ∧ ((s.core i.core).mq = [] → exec (.msync i) s = .next (s.passed i.core id)))

/-- R165, R360, R361: XSHIFT and XPERM start the collective of their descriptor; a misaligned or outside address and a reserved RED end the task; a fixed point completes at once. -/
def Obligations.CollectivesStart : Prop :=
  ∀ (i : Issue) (rs : Fin 32) (red axis : BitVec 2) (dir sig : Bool) (tok : Fin 64) (s : State) (c : Core) (d : Desc), c = s.core i.core → Executes .lane0 i [.s rs] s →
    (∀ x, red ≠ 3 → collRead c (c.getS rs) = .ok d → collOk d false red = true →
      s.collOf i.core d (collOpc false red axis dir) sig tok (shiftRank d axis.toNat !dir) (shiftRank d axis.toNat dir) = .ok x →
      exec (.xshift i rs red axis dir sig tok) s = .next ((s.passed i.core id).collStart i.core { x with seq := c.seq, bundle := c.pc }))
    ∧ (∀ x bs dst src, red ≠ 3 → collRead c (c.getS rs) = .ok d → collOk d true red = true → (s.work i.core).rdMod (s.admits i.core) (cPerm d + 8 * cRank d) 8 = .ok bs →
      dst = leAt bs 0 4 → src = leAt bs 4 4 → dst < cSize d → src < cSize d → s.collOf i.core d (collOpc true red 0 false) sig tok dst src = .ok x →
      (dst ≠ cRank d → src ≠ cRank d → exec (.xperm i rs red sig tok) s = .next ((s.passed i.core id).collStart i.core { x with seq := c.seq, bundle := c.pc }))
      ∧ (dst = cRank d → src = cRank d → exec (.xperm i rs red sig tok) s = .next
          (if sig then { s.passed i.core id with tokens := s.tokens ++ [⟨i.core, none, 0, none, BitVec.ofNat 9 i.core.val, tok, 1, c.epoch, c.pc⟩] } else s.passed i.core id)))
    ∧ (red ≠ 3 → ((c.getS rs).toNat % 64 ≠ 0 ∨ 0x3FFFC0 < (c.getS rs).toNat) → EndsTask (.xshift i rs red axis dir sig tok) s i.core 0x0105)
    ∧ (red = 3 → EndsTask (.xshift i rs red axis dir sig tok) s i.core 0x0104 ∧ EndsTask (.xperm i rs red sig tok) s i.core 0x0104)

/-! Synchronisation events (R96 to R107, R116, R127) -/

/-- R102, R86, R215: once every participant of an HBAR or MBAR has arrived, all of them leave it and nothing else changes; until then nothing happens. A core released past its last bundle ends its task, and an epoch barrier that has tensors to widen first completes the MBAR that the unit inserts. -/
def Obligations.BarriersReleaseTheirParticipants : Prop :=
  ∀ (s : State) (h p : Fin 8) (cls : Nat) (c : Instr), s.partOf h = some p → s.partLive p = true → (cls = 0 ∧ c = .hbarComplete h ∨ cls = 1 ∧ c = .mbarComplete h) →
    (s.allArrived p cls h = true → (cls = 1 → s.passDue p = false) → (∀ g, g ∈ s.participants p cls h → (s.core g).pastEnd = false) → ∃ t, exec c s = .next t ∧ t = { s with cores := t.cores }
      ∧ (∀ g, g ∈ s.participants p cls h → t.core g = { s.core g with arrival := none, mode := if (s.core g).mode = .barrier then .run else (s.core g).mode })
      ∧ (∀ g, g ∉ s.participants p cls h → t.core g = s.core g))
    ∧ (s.allArrived p cls h = true → (cls = 1 → s.passDue p = false) → (∃ g, g ∈ s.participants p cls h ∧ (s.core g).pastEnd = true ∧ (s.core g).mode = .barrier) →
      ∃ t k, exec c s = .next t ∧ t.parts[p].task = some k ∧ k.ending ≠ none)
    ∧ (s.passDue p = true → exec (.mbarComplete h) s = .next (s.modHearth p fun x => { x with widenPass := true }))
    ∧ (s.allArrived p cls h = false → (cls = 1 → s.passDue p = false) → exec c s = .next s)
    ∧ (∀ g, g ∈ s.participants p cls h ↔ (s.core g).member = true ∧ p.val ≤ g.val / 64 ∧ g.val / 64 < p.val + s.partSize p ∧ (cls = 0 → g.val / 64 = h.val))

/-- R99, R103, R135, R396, R397, R217: on leaving EBAR each core of the task steps to the next epoch with that epoch's token counters cleared, those at END leave the task, and the task then ends, is cancelled, suspends or goes on; an overflowed pool without AUTOWIDEN ends it first. -/
def Obligations.EpochBarrierAdvancesTheEpoch : Prop :=
  ∀ (s : State) (h p : Fin 8) (k : Task) (ends : Fin 512 → Bool), s.partOf h = some p → s.parts[p].task = some k → s.partLive p = true → s.allArrived p 2 p = true → s.roundsDone p = true →
    s.hearths[p].widen = [] → k.ending = none → (∀ g, g ∈ s.participants p 2 p → (s.core g).pastEnd = false) → (∀ g, ends g = decide ((s.core g).arrival.map (·.kind) = some 3)) →
    (k.overs = [] → ∃ t k', exec (.ebarComplete h) s = .next t ∧ t.parts[p].task = some k' ∧ t.mem = s.mem ∧ t.tokens = s.tokens ∧ t.now = s.now ∧ t.fab = s.fab
      ∧ (∀ g, g ∉ s.participants p 2 p → t.core g = s.core g)
      ∧ (∀ g, g ∈ s.participants p 2 p → (t.core g).epoch = (s.core g).epoch + 1 ∧ (t.core g).arrival = none ∧ (t.core g).member = ((s.core g).member && !ends g)
        ∧ (∀ n : Fin 64, (t.core g).tok[n] = if (s.core g).epoch.getLsbD 0 then ⟨(s.core g).tok[n].even, 0⟩ else ⟨0, (s.core g).tok[n].odd⟩)
        ∧ (t.core g).spad = (s.core g).spad ∧ (t.core g).s = (s.core g).s ∧ (t.core g).v = (s.core g).v ∧ (t.core g).slots = (s.core g).slots
        ∧ (ends g = true → (t.core g).mode = .idle) ∧ (ends g = false → k.cancel = false → k.suspends = true → (t.core g).mode = .suspended)
        ∧ (ends g = false → k.cancel = false → k.suspends = false → (s.core g).mode = .barrier → (t.core g).mode = .run))
      ∧ k'.ordinal.toNat = min (k.ordinal.toNat + 1) 0xFFFFFFFF
      ∧ (k.cancel = true → k'.ending.map (·.status) = some 0x0001)
      ∧ (k.cancel = false → (∀ g ∈ s.members p, ends g = true) → k'.ending.map (·.status) = some 0)
      ∧ (k.cancel = false → (∃ g ∈ s.members p, ends g = false) → k'.ending = none ∧ k'.phase = if k.suspends then .suspended else k.phase))
    ∧ (k.overs ≠ [] → ∃ t k', exec (.ebarComplete h) s = .next t ∧ t.parts[p].task = some k' ∧ k'.ending.map (·.status) = some 0x0201 ∧ t.cores = s.cores ∧ t.mem = s.mem)

/-- R96, R98, R100, R101: a count that is free reaches its cell of the sender's epoch parity; another epoch or a count past 65,535 ends the receiver's task; what is not free waits, and what has no task or no core of its partition to reach is dropped. A waiting core whose cell holds the count runs on with the count taken; one that has waited its limit ends its task. -/
def Obligations.TokenCountsArriveAndWaitsEnd : Prop :=
  (∀ (s : State) (n : Nat) (m : TokMsg) (g : Fin 512) (u : State) (c : Core) (old : TokenCell) (x : Nat), s.tokens[n]? = some m → g = coreId m.dst.toNat → u = { s with tokens := s.tokens.eraseIdx n } →
      c = s.core g → old = c.tok[m.tok] → x = (if m.epoch.getLsbD 0 then old.odd else old.even).toNat + m.cnt.toNat →
      (s.partHeld (s.partOfCore m.src) = false → exec (.tokenSignalArrive n) s = .next u)
      ∧ (s.partHeld (s.partOfCore m.src) = true → s.tokenFree n m = false → exec (.tokenSignalArrive n) s = .next s)
      ∧ (s.partHeld (s.partOfCore m.src) = true → s.tokenFree n m = true →
        (m.module = none → s.partOfCore g ≠ s.partOfCore m.src → exec (.tokenSignalArrive n) s = .next u)
        ∧ (m.module = none → s.partOfCore g = s.partOfCore m.src →
          ((m.epoch = c.epoch ∨ m.epoch = c.epoch + 1) → x ≤ 65535 → ∀ k : Core,
            k = { c with tok := c.tok.set m.tok (if m.epoch.getLsbD 0 then ⟨old.even, BitVec.ofNat 16 x⟩ else ⟨BitVec.ofNat 16 x, old.odd⟩) } →
            (c.pastEnd = false → exec (.tokenSignalArrive n) s = .next (u.setCore g k.tryWait)) ∧ (c.wait = none → k.tryWait = k)
            ∧ (c.pastEnd = true → k.tryWait.mode = .run → ∃ t, exec (.tokenSignalArrive n) s = .next t ∧ TaskEndsAt (u.setCore g k.tryWait) t g 0x0104 (s.lastBundle g)))
          ∧ ((m.epoch ≠ c.epoch ∧ m.epoch ≠ c.epoch + 1) ∨ 65535 < x → ∃ t, exec (.tokenSignalArrive n) s = .next t ∧ TaskEndsAt u t g 0x0109 c.pc))
        ∧ (∀ y, m.module = some y → exec (.tokenSignalArrive n) s = .next (u.sendControl m.src y 3 m.dst m.cnt.toNat (BitVec.ofNat 6 m.tok.val) m.epoch m.bundle []))))
  ∧ (∀ (s : State) (g : Fin 512) (c : Core) (w : PendingWait) (x : BitVec 16), c = s.core g → c.wait = some w → x = (if c.epoch.getLsbD 0 then c.tok[w.tok].odd else c.tok[w.tok].even) →
      (w.cnt.toNat ≤ x.toNat → c.tryWait = { c with wait := none, mode := if c.mode = .wait then .run else c.mode,
                                                    tok := c.tok.set w.tok (if c.epoch.getLsbD 0 then ⟨c.tok[w.tok].even, x - w.cnt.setWidth 16⟩ else ⟨x - w.cnt.setWidth 16, c.tok[w.tok].odd⟩) })
      ∧ (x.toNat < w.cnt.toNat → c.tryWait = c)
      ∧ (s.live g = true → ∃ t, exec (.waitTimeout g) s = .next t ∧ TaskEndsAt (s.reach (w.since + w.limitUs * 2500)) t g 0x010A w.bundle ∧ t.now = max s.now (w.since + w.limitUs * 2500)))

/-- R105, R107, R116, R169, R306: a claim is executed once: it is granted min(increment, LIMIT − v) items, VALUE advances by the grant, the bitmap takes its bits; a bit already set, or a word of the bitmap that is lost, ends the task, and then nothing is written. -/
def Obligations.ClaimsAreGranted : Prop :=
  ∀ (s : State) (g : Fin 512) (h : Fin 8) (ctr : Fin 64) (x : Claim) (w : WorkCounter) (n : Nat), s.Wf → s.acts g = true → w = s.hearths[h].wctr[ctr] → w.clearing = false →
    (s.core g).claims.find? (fun y => decide (y.h = h) && decide (y.ctr = ctr) && !y.executed) = some x →
    n = (if w.value.toNat < w.limit.toNat then min x.inc (w.limit.toNat - w.value.toNat) else 0) →
    ((w.bmapEn = false ∨ n = 0) → ∃ t, exec (.wclaimExecute g h ctr) s = .next t ∧ ClaimTaken s t g h ctr x n ∧ t.mem = s.mem)
    ∧ (w.bmapEn = true → n ≠ 0 → w.bmap < hbmTop → s.admits g true (w.bmap + w.value.toNat / 8) ((w.value.toNat + n - 1) / 8 - w.value.toNat / 8 + 1) = none →
      (s.mem.lost (w.bmap + w.value.toNat / 8) ((w.value.toNat + n - 1) / 8 - w.value.toNat / 8 + 1) = true → ∃ t, exec (.wclaimExecute g h ctr) s = .next t ∧ TaskEndsAt s t g 0x0301 x.bundle)
      ∧ (s.mem.lost (w.bmap + w.value.toNat / 8) ((w.value.toNat + n - 1) / 8 - w.value.toNat / 8 + 1) = false →
      ((∀ i, i < n → bmapBit s.mem w.bmap (w.value.toNat + i) = false) → ∃ t, exec (.wclaimExecute g h ctr) s = .next t ∧ ClaimTaken s t g h ctr x n
        ∧ (∀ i, bmapBit t.mem w.bmap i = (bmapBit s.mem w.bmap i || (decide (w.value.toNat ≤ i) && decide (i < w.value.toNat + n)))) ∧ (∀ a, a < w.bmap → readByte t.mem.hbm a = readByte s.mem.hbm a))
      ∧ ((∃ i, i < n ∧ bmapBit s.mem w.bmap (w.value.toNat + i) = true) → ∃ t, exec (.wclaimExecute g h ctr) s = .next t
        ∧ TaskEndsAt s t g 0x0103 x.bundle)))

/-- R105, R106, R116: the answer of a claim gives the old value and whether anything was granted, and ends the claim; a fourth parity failure ends the task. BMAP_CLR starts a clear and sets BMAP_EN; the clear makes bits 0 to LIMIT − 1 zero, leaves every other byte of memory, and ends. -/
def Obligations.ClaimsReturnAndBitmapsClear : Prop :=
  (∀ (s : State) (g : Fin 512) (h : Fin 8) (ctr : Fin 64) (x : Claim) (v n : W32) (c : Core), c = s.core g → s.acts g = true →
      c.claims.find? (fun y => decide (y.h = h) && decide (y.ctr = ctr) && y.executed) = some x →
      s.hearths[h].wctr[ctr].log.find? (fun e => decide (e.1 = g) && decide (e.2.1 = x.token)) = some (g, x.token, v, n) →
      (∃ t, exec (.wclaimResponse g h ctr true) s = .next t ∧ t = s.setCore g (t.core g) ∧ (t.core g).getS x.rd = (if x.rd = 0 then 0 else v.setWidth 64)
        ∧ (t.core g).getP x.pd = (if x.pd = 0 ∨ n ≠ 0 then BitVec.allOnes 256 else 0) ∧ (t.core g).claims = c.claims.filter (fun y => !(decide (y.h = h) && decide (y.ctr = ctr)))
        ∧ (∀ r, r ≠ x.rd → (t.core g).getS r = c.getS r) ∧ (∀ r, r ≠ x.pd → (t.core g).getP r = c.getP r)
        ∧ { t.core g with s := c.s, p := c.p, claims := c.claims } = c)
      ∧ (x.failures ≠ 3 → exec (.wclaimResponse g h ctr false) s = .next (s.setCore g (c.modClaim h ctr fun y => { y with failures := y.failures + 1 })))
      ∧ (x.failures = 3 → ∃ t, exec (.wclaimResponse g h ctr false) s = .next t ∧ TaskEndsAt s t g 0x0101 x.bundle))
  ∧ (∀ (s : State) (h : Fin 8) (ctr : Fin 64) (v : BitVec 32) (w : WorkCounter), s.Wf → w = s.hearths[h].wctr[ctr] →
      (s.larcy.d3hot = false → s.glb.hrtPresent.getLsbD h.val = true →
        exec (.bmapClr h ctr v) s = .next (s.modHearth h fun y => { y with wctr := y.wctr.set ctr { w with bmapEn := v.getLsbD 0, clearing := w.clearing || v.getLsbD 1 } }))
      ∧ (s.glb.hrtPresent.getLsbD h.val = false → exec (.bmapClr h ctr v) s = .next s)
      ∧ (w.clearing = true → w.bmap < hbmTop → ∃ t, exec (.bmapClearDone h ctr) s = .next t ∧ t = { s with hearths := t.hearths, mem := t.mem }
        ∧ t.hearths[h].wctr[ctr] = { w with clearing := false } ∧ (∀ j : Fin 8, j ≠ h → t.hearths[j] = s.hearths[j]) ∧ { t.mem with hbm := s.mem.hbm, badHbm := s.mem.badHbm, replays := s.mem.replays } = s.mem
        ∧ (∀ i, bmapBit t.mem w.bmap i = (bmapBit s.mem w.bmap i && decide (w.limit.toNat ≤ i))) ∧ (∀ a, a < w.bmap → readByte t.mem.hbm a = readByte s.mem.hbm a))
      ∧ (w.clearing = false → exec (.bmapClearDone h ctr) s = .next s))

/-! Transfers at work (R93 to R95, R157, R328, R547) -/

/-- R93, R94, R95, R157, R331, R518, R547: the head of a queue, admitted by the governor, moves its bytes: a COPY from HBM into a scratchpad of the partition byte by byte, a TILE window and a NARROW list as their bytes in order, an STT window as its tiles; a place outside the partition or its memories ends the task. A failure at a line keeps what came before it, but for the statuses under which nothing is written (R169, R279, R331). -/
def Obligations.TransfersMoveTheirBytes : Prop :=
  ∀ (s : State) (g : Fin 512) (q : Fin 8) (x : Xfer) (rest : List Xfer) (cmd : Instr), s.Wf → s.live g = true → (s.core g).q[q].xfers = x :: rest → x.phase = .queued →
    (x.kind = .copy ∧ cmd = .dmaCopy g q none ∨ x.kind = .tile ∧ cmd = .dmaTile g q none ∨ x.kind = .narrow ∧ cmd = .dmaNarrow g q none) →
    (s.xferCoresOk g x = false → ∃ t, exec cmd s = .next t ∧ TaskEndsAt s t g 0x0108 x.bundle)
    ∧ (s.xferCoresOk g x = true → x.ext = none → Admitted g (.dma q) 1 s → x.remote = false → s.snooped g q = false →
      (∀ ps u, x.store = false → s.destOk g x = true → s.xferBytes g x = (ps, none) → State.writePieces g x.dst ps s = (u, none) →
        exec cmd s = .next (u.modXfer g q fun y => { y with phase := .moved, image := none }))
      ∧ (∀ ps st u, x.store = false → st ≠ 0x0304 → voids st = false → s.destOk g x = true → s.xferBytes g x = (ps, some st) → State.writePieces g x.dst ps s = (u, none) →
        ∃ t, exec cmd s = .next t ∧ TaskEndsAt u t g st x.bundle)
      ∧ (∀ ps st, x.store = false → voids st = true → s.xferBytes g x = (ps, some st) → ∃ t, exec cmd s = .next t ∧ TaskEndsAt s t g st x.bundle)
      ∧ (∀ ps, x.store = false → s.destOk g x = false → s.xferBytes g x = (ps, none) → ∃ t, exec cmd s = .next t ∧ TaskEndsAt s t g 0x0108 x.bundle)
      ∧ (∀ w, x.store = true → s.storeTiles g x none = (w, none) →
        (w.widen.length ≤ 16 → exec cmd s = .next ((s.putWork g w).modXfer g q fun y => { y with phase := .moved, image := none }))
        ∧ (16 < w.widen.length → ∃ t, exec cmd s = .next t ∧ TaskEndsAt s t g 0x0201 x.bundle))
      ∧ (∀ w st, x.store = true → s.storeTiles g x none = (w, some st) → st ≠ 0x0304 → w.widen.length ≤ 16 → ∃ t, exec cmd s = .next t ∧ TaskEndsAt (if voids st then s else s.putWork g w) t g st x.bundle)
      ∧ (∀ (p : Fin 8) (a b : Nat) (k : Fin 512), x.store = false → x.kind = .copy → a = x.src.off.toNat → b = x.dst.off.toNat → x.src.space = 0 → x.dst.space = 1 → k = coreId x.dst.core.toNat →
        s.partOfCore g = some p → p.val * 2 ^ 38 ≤ a → a + x.length ≤ (p.val + s.partSize p) * 2 ^ 38 → b + x.length ≤ 0x400000 → s.mem.badHbm = [] → k ≠ g → x.length ≠ 0 →
        ∃ t, exec cmd s = .next t ∧ t = { s with cores := t.cores } ∧ (∀ j : Fin 512, j ≠ g → j ≠ k → t.core j = s.core j)
          ∧ (∀ j, j < x.length → readByte (t.core k).spad (b + j) = readByte s.mem.hbm (a + j)) ∧ (∀ j, j < b ∨ b + x.length ≤ j → readByte (t.core k).spad j = readByte (s.core k).spad j)
          ∧ (t.core g).q[q].xfers = { x with phase := .moved, image := none } :: rest ∧ { t.core g with q := (s.core g).q } = s.core g))

/-- R94, R95, R328, R348: a transfer that has moved its bytes leaves its queue and signals its token; a host access without an answer for 10 ms since the transfer reached the head fails at the tier: a DMAQ transfer with the status kept by its queue, and its token sent where it goes to a peer, a stream with the end of the task. -/
def Obligations.TransfersComplete : Prop :=
  ∀ (s : State) (g : Fin 512) (q : Fin 8) (x : Xfer) (rest : List Xfer) (c : Core) (u : State), c = s.core g → s.live g = true → c.q[q].xfers = x :: rest →
    (u = s.setCore g { c with q := c.q.set q { c.q[q] with xfers := modifyAt (fun y => { y with started := s.now }) rest 0 } } → x.image = none → (x.phase = .failed ∨ x.phase = .moved) →
      (∀ m ∈ c.msgs, m.queue ≠ some q) →
      (x.sig = true → (x.remote = false ∨ x.module = s.fab.moduleId) →
        exec (.dmaComplete g q) s = .next (({ u with tokens := s.tokens ++ [⟨g, some q, 0, none, x.tokenCore, x.token, 1, c.epoch, x.bundle⟩] } : State).settle g))
      ∧ (x.sig = false ∨ (x.remote = true ∧ x.module ≠ s.fab.moduleId) → exec (.dmaComplete g q) s = .next (u.settle g)))
    ∧ (x.phase = .queued ∨ (∃ m ∈ c.msgs, m.queue = some q) → exec (.dmaComplete g q) s = .next s)
    ∧ (u = s.reach (x.started + 25000000) → x.phase = .queued → s.touchesTier g x hostBase = true →
      (x.stream = true → ∃ t, exec (.hostAccessTimeout g q) s = .next t ∧ TaskEndsAt u t g 0x0304 x.bundle)
      ∧ (x.stream = false → (x.remote = false ∨ x.module = s.fab.moduleId ∨ x.store = true) → exec (.hostAccessTimeout g q) s = .next (u.setCore g { c with q := c.q.set q ⟨{ x with phase := .failed } :: rest, 0x0304⟩ }))
      ∧ (x.stream = false → x.store = false → x.remote = true → x.module ≠ s.fab.moduleId → exec (.hostAccessTimeout g q) s = .next (u.moveFar g q x ([], some 0x0304))))

/-! Billet runs and collectives (R72, R73, R85, R165, R363, R365) -/

/-- R72, R73, R82, R85, R108, R165, R363, R365: a run waits in the combine stage while it has room, then is added to the open slot of its group and epoch; a run of an earlier epoch or with another anchor, and a word whose parity is lost, end the task. A collective that has sent and received all of its data leaves its core and signals its token; one that has not within its limit ends the task. -/
def Obligations.BilletRunsAndCollectivesComplete : Prop :=
  (∀ (s : State) (g : Fin 512) (r : BilletRun) (c : Core), c = s.core g → s.live g = true →
      (runOk r = true →
        (runStale r c.epoch = false → c.stageRoom r = true → exec (.billetRunArrive g r) s = .next (s.setCore g { c with stage := c.stage ++ [⟨r, none, false⟩] }))
        ∧ (runStale r c.epoch = false → c.stageRoom r = false → exec (.billetRunArrive g r) s = .next s) ∧ (runStale r c.epoch = true → EndsTask (.billetRunArrive g r) s g 0x0107))
      ∧ (∀ n bad, c.stage[n]? = some ⟨r, none, bad⟩ →
        (runStale r c.epoch = true → EndsTask (.billetRunCombine g n) s g 0x0107)
        ∧ (runStale r c.epoch = false → c.runSlot r = none → exec (.billetRunCombine g n) s = .next s)
        ∧ (∀ i t, runStale r c.epoch = false → c.runSlot r = some (i, t) →
          (runMatches t r = false → EndsTask (.billetRunCombine g n) s g 0x0107)
          ∧ (runMatches t r = true → (bad = true ∨ (c.slots[i]).parityHit r.first.toNat r.elems.length = true) → EndsTask (.billetRunCombine g n) s g 0x0101)
          ∧ (runMatches t r = true → bad = false → (c.slots[i]).parityHit r.first.toNat r.elems.length = false → s.fab.rxQueue = [] → (∀ j, ∀ x ∈ (s.core j).colls, x.todo = []) →
            exec (.billetRunCombine g n) s = .next (s.setCore g { c with stage := c.stage.eraseIdx n, slots := c.slots.set i ((c.slots[i]).addRun r.first.toNat r.elems) })))))
  ∧ (∀ (s : State) (g : Fin 512) (group : W32) (x : Coll) (c : Core) (u : State), c = s.core g → s.live g = true →
      (c.colls.find? (fun y => decide (cGroup y.desc = group) && y.complete c) = some x → u = s.setCore g { c with colls := c.colls.filter fun y => decide (y.seq ≠ x.seq) } →
        (x.sig = true → exec (.collectiveComplete g group) s = .next (({ u with tokens := s.tokens ++ [⟨g, none, 0, none, BitVec.ofNat 9 g.val, x.token, 1, c.epoch, x.bundle⟩] } : State).settle g))
        ∧ (x.sig = false → exec (.collectiveComplete g group) s = .next (u.settle g)))
      ∧ (c.colls.find? (fun y => decide (cGroup y.desc = group) && !y.complete c) = some x → u = s.reach (x.since + x.limit) →
        ∃ t, exec (.collTimeout g group) s = .next t ∧ TaskEndsAt u t g 0x0402 x.bundle ∧ t.now = max s.now (x.since + x.limit)))

/-! Jobs (R78, R110, R384, R389 to R403, R407, R478, R539) -/

/-- R393, R384, R394, R78, R537: an IDLE partition starts the queued job that no other precedes: the loader puts its image in place and its task begins, or ends it with the status of the first failing check; once the start barrier is done its cores start. -/
def Obligations.JobsStart : Prop :=
  ∀ (s : State) (h : Fin 8) (fail : Option (BitVec 64)),
    (∀ (j : Job) (u : State), s.parts[h].mode = .idle → s.parts[h].zeroing = false → s.parts[h].task = none → firstJob (s.parts[h].lc ++ s.parts[h].be) = some j →
      u = (s.modPart h fun y => y.take j).clearForTask h →
      (j ∈ s.parts[h].lc ++ s.parts[h].be ∧ ∀ x ∈ s.parts[h].lc ++ s.parts[h].be, x.before j = false)
      ∧ (∀ raw ins v img, u.loadObjects fail j = .ok (raw, ins, v) → parseImage raw raw.length = .ok img → v.imageFail h j.hostWeights img = none →
        exec (.jobStart h fail) s = .next (v.beginTask h j img (Config.sha3 ins))
        ∧ (j.secure = false → j.modules.length ≤ 1 → img.peers = [] → ∃ t, v.beginTask h j img (Config.sha3 ins) = t ∧ t.parts[h].task = some (v.makeTask h j img (Config.sha3 ins))
          ∧ t.parts[h].mode = v.parts[h].mode ∧ (∀ g : Fin 512, (∀ k ∈ img.namedCores, g ≠ coreId (64 * h.val + k)) → t.core g = v.core g) ∧ t.now = v.now))
      ∧ (j.part = h → j.session = none →
        (∀ st, u.loadObjects fail j = .error st → ∃ t, exec (.jobStart h fail) s = .next t ∧ Ended t h j st)
        ∧ (∀ raw ins v f img, u.loadObjects fail j = .ok (raw, ins, v) → parseImage raw raw.length = .ok img → v.imageFail h j.hostWeights img = some f →
          ∃ t, exec (.jobStart h fail) s = .next t ∧ Ended t h j f.status)
        ∧ (∀ raw ins v o, u.loadObjects fail j = .ok (raw, ins, v) → parseImage raw raw.length = .error o → ∃ t, exec (.jobStart h fail) s = .next t ∧ Ended t h j 0x0505)))
    ∧ (s.parts[h].mode ≠ .idle ∨ s.parts[h].zeroing = true → exec (.jobStart h fail) s = .next s)
    ∧ (∀ p k, s.partOf h = some p → s.parts[p].task = some k → k.ending = none →
      (k.phase = .startBarrier → s.roundsDone p = true → exec (.startBarrierComplete h) s = .next (s.modTask p fun t => { t with phase := .loaded, rounds := 0 }))
      ∧ (k.phase = .startBarrier → s.roundsDone p = false → exec (.startBarrierComplete h) s = .next s)
      ∧ (k.phase = .loaded → ∃ t, exec (.coresStart h) s = .next t ∧ t.parts[p].task = some { k with phase := .running, coresAt := s.now } ∧ t.mem = s.mem ∧ t.hearths = s.hearths
        ∧ (∀ g, g ∈ k.codeCores → t.core g = { s.core g with member := true, mode := .run }) ∧ (∀ g, g ∉ k.codeCores → t.core g = s.core g)))

/-- R110, R220, R389, R393, R394, R397, R399, R403, R478, R537, R539: the end of a task leaves no task, its record and with it its precision log, stopped or idle cores, and the partition in the state that its stacks and commands give it; a start barrier and a queued job end at their limits; a secure job's partition is zeroed; every 100 ms the interference of a window becomes the slowdown. -/
def Obligations.JobsEnd : Prop :=
  ∀ (s : State) (h p : Fin 8) (k : Task), s.partOf h = some p →
    (∀ e, s.parts[p].task = some k → k.ending = some e → k.job.part = p → k.job.session = none →
      ∃ t, exec (.taskStopped h) s = .next t ∧ Ended t p k.job e.status ∧ t.now = s.now ∧ t.mem.hbm = s.mem.hbm ∧ t.parts[p].zeroing = k.job.secure
        ∧ (∃ r, t.parts[p].records.getLast? = some r ∧ r.plog = match k.plog with | some (a, n) => s.mem.read a.toNat n | none => [])
        ∧ (s.pwr.dieTrip = false → s.parts[p].mode = .running → s.partSick p = false → t.parts[p].mode = .idle) ∧ (s.pwr.dieTrip = false → s.parts[p].mode = .stopping → t.parts[p].mode = .stopped)
        ∧ (s.pwr.dieTrip = false → s.parts[p].mode = .running → s.partSick p = true → t.parts[p].mode = .outOfService)
        ∧ (∀ g, g ∈ s.partCores p → (t.core g).mode = (if e.status = 0 then .idle else .stopped) ∧ (t.core g).member = false ∧ (t.core g).spad = (s.core g).spad ∧ (t.core g).s = (s.core g).s
          ∧ (e.status = 0 ∨ s.otherModules p = [] ∨ e.at_ ≠ s.now → (t.core g).stat = (s.core g).stat) ∧ (t.core g).mq = [] ∧ ∀ q : Fin 8, (t.core g).q[q].xfers = [])
        ∧ (∀ g, g ∉ s.partCores p → t.core g = s.core g))
    ∧ (s.parts[p].task = some k → k.phase = .startBarrier → k.ending = none → k.job.part = p → k.job.session = none →
      ∃ t, exec (.gangStartTimeout h) s = .next t ∧ Ended t p k.job 0x0506 ∧ t.now = max s.now (k.started + 2500000000 * s.glb.gangLimit.toNat))
    ∧ (∀ j, (s.parts.toList.flatMap fun x => x.lc ++ x.be).find? (fun y => decide (y.id = j.id) && decide (y.maxWaitMs ≠ 0)) = some j → s.parts[j.part].task = none →
      ∃ t, exec (.queueWaitExpired j.id) s = .next t ∧ Ended t j.part j 0x0507 ∧ (∀ x ∈ t.parts[j.part].lc ++ t.parts[j.part].be, x.id ≠ j.id) ∧ t.now = max s.now (j.arrived + 2500000 * j.maxWaitMs.toNat))
    ∧ (s.Wf → s.parts[p].zeroing = true → ∃ t, exec (.partitionZeroed h) s = .next t ∧ t.parts[p] = { s.parts[p] with zeroing := false } ∧ t.cores = s.cores
      ∧ { t.mem with hbm := s.mem.hbm, badHbm := s.mem.badHbm, replays := s.mem.replays } = s.mem ∧ ∀ a, readByte t.mem.hbm a = if p.val * 2 ^ 38 ≤ a ∧ a < (p.val + s.partSize p) * 2 ^ 38 then 0 else readByte s.mem.hbm a)
    ∧ (∃ t, exec .slowdownWindow s = .next t ∧ t.now = max s.now (s.glb.windowAt + 250000000) ∧ t.glb.windowAt = t.now ∧ (∀ j : Fin 8, t.hearths[j].interference = 0)
      ∧ ∀ e i, e = 250000000 * s.partSize p → i = (((List.finRange 8).filter (s.inPart p)).map fun j => s.hearths[j].interference).sum →
        (t.glb.slowdown[p]).toNat = if e ≤ i then 0xFFFFFFFF else min (e * 4096 / (e - i)) 0xFFFFFFFF)

/-! The Larcy command engine (R446 to R463, R390 to R403, R414, R431, R473, R482 to R484) -/

/-- R446, R447, R449, R458: an engine that may not consume does nothing; a failed queue access closes the context and is counted; the first failing check completes the command with its status and changes nothing else. -/
def Obligations.LarcyCommandsAreChecked : Prop :=
  ∀ (s : State) (n : Fin 4096) (x : HostFate) (opc : Nat) (cmd : Instr), s.sec.instActive = false →
    (opc, cmd) ∈ ([(0x01, .ctxOpen n x), (0x02, .ctxClose n x), (0x10, .submit n x), (0x11, .suspend n x), (0x12, .resume n x), (0x13, .cancel n x), (0x14, .query n x),
      (0x20, .partitionStop n x), (0x21, .partitionSet n x), (0x22, .partitionStart n x), (0x30, .vaultInstall n x), (0x40, .attest n x), (0x50, .streamOpen n x),
      (0x51, .streamClose n x)] : List (Nat × Instr)) →
    (s.consumer n = none → exec cmd s = .next s)
    ∧ (∀ c, s.consumer n = some c → (x = .queueFails ∨ s.hostUp = false) → ∃ t, exec cmd s = .next t ∧ t.ctx n = none ∧ t.larcy.queueFaults = satAdd s.larcy.queueFaults 1 ∧ t.mem = s.mem ∧ t.cores = s.cores)
    ∧ (∀ c e u, Takes s n x opc c e u →
      (∀ st, u.checkEntry c x e = .error st → ∃ t, exec cmd s = .next t ∧ Completes t n e st 0 ∧ { t with larcy := s.larcy } = s)
      ∧ (versionLacks c.version opc e = true → u.checkEntry c x e = .error 0x0701)
      ∧ (versionLacks c.version opc e = false → entryBad opc e = true → u.checkEntry c x e = .error 0x0702)
      ∧ (versionLacks c.version opc e = false → entryBad opc e = false → blockBad opc e (readBytes u.mem.host (leAt e 8 8) (paramLen e)) = false →
        (u.cmdBarred c opc e = true → u.checkEntry c x e = .error 0x0705) ∧ (u.cmdBarred c opc e = false → x = .paramFails → takesParam opc = true → u.checkEntry c x e = .error 0x0703)))

/-- R446, R448, R449, R454: CTX_OPEN opens the lowest free number with the best common version; CTX_CLOSE closes its target, at once where no command of it is in progress. R391, R392, R396, R403, R455, R457: SUBMIT queues a job or refuses it; SUSPEND, RESUME, CANCEL and QUERY act on a job that the context may name. -/
def Obligations.ContextAndJobCommandsAct : Prop :=
  ∀ (s : State) (n : Fin 4096) (x : HostFate) (opc : Nat) (c : LCtx) (e pb : List Byte) (u : State) (id : W32), s.Wf → Takes s n x opc c e u → u.checkEntry c x e = .ok pb → id = BitVec.ofNat 32 (leAt e 24 4) →
    (opc = 0x01 →
      (∀ m v, (List.finRange 4096).find? (fun m => decide (m ≠ 0) && (u.ctx m).isNone) = some m → bestVersion (leAt e 42 1) (leAt e 43 1) = some v →
        ∃ t k, exec (.ctxOpen n x) s = .next t ∧ Completes t n e 0 (BitVec.ofNat 128 (m.val + v.toNat * 2 ^ 16)) ∧ t.ctx m = some k ∧ k.version = v ∧ k.sqAddr.toNat = leAt e 24 8 ∧ k.cqAddr.toNat = leAt e 32 8
          ∧ k.sqLog = leAt e 40 1 ∧ k.cqLog = leAt e 41 1 ∧ k.admin = (leAt e 44 1).testBit 0 ∧ k.irq = (leAt e 44 1).testBit 1 ∧ k.sqHead = 0 ∧ k.sqTail = 0 ∧ k.cqHead = 0 ∧ k.cqTail = 0 ∧ k.phase = true)
      ∧ ((∀ m, m ≠ 0 → (u.ctx m).isSome = true) → Answers (.ctxOpen n x) s n e 0x0706 0)
      ∧ (∀ m, m ≠ 0 → (u.ctx m) = none → bestVersion (leAt e 42 1) (leAt e 43 1) = none → Answers (.ctxOpen n x) s n e 0x0701 0))
    ∧ (∀ m : Fin 4096, opc = 0x02 → m.val = leAt e 24 2 % 4096 →
      (u.ctx m = none → Answers (.ctxClose n x) s n e 0x0704 0) ∧ (m = n → ∃ t, exec (.ctxClose n x) s = .next t ∧ t.ctx n = none)
      ∧ (∀ k, m ≠ n → u.ctx m = some k → k.busy = none → k.closing = [] → ∃ t, exec (.ctxClose n x) s = .next t ∧ Completes t n e 0 0 ∧ t.ctx m = none)
      ∧ (∀ k b, m ≠ n → u.ctx m = some k → k.busy = some b → ∃ t k', exec (.ctxClose n x) s = .next t ∧ t.ctx m = some k' ∧ k'.sqHead = k.sqTail ∧ k'.closing = k.closing ++ [(c.num, BitVec.ofNat 16 (leAt e 2 2))]))
    ∧ (∀ j, opc = 0x10 → j = u.submitJob c e pb →
      (s.parts[j.part].mode = .none → Answers (.submit n x) s n e 0x0704 0)
      ∧ (s.parts[j.part].mode ≠ .none → u.refusal j = none → ∃ t, exec (.submit n x) s = .next t ∧ Completes t n e 0 (j.id.setWidth 128) ∧ t.larcy.nextJob = s.larcy.nextJob + 1
        ∧ t.parts[j.part].lc = s.parts[j.part].lc ++ (if j.lc then [j] else []) ∧ t.parts[j.part].be = s.parts[j.part].be ++ (if j.lc then [] else [j]) ∧ t.cores = s.cores ∧ t.mem = s.mem)
      ∧ (∀ st, s.parts[j.part].mode ≠ .none → u.refusal j = some st → ∃ t r, exec (.submit n x) s = .next t ∧ Completes t n e st (j.id.setWidth 128)
        ∧ t.parts[j.part].lc = s.parts[j.part].lc ∧ t.parts[j.part].be = s.parts[j.part].be ∧ t.parts[j.part].records.getLast? = some r ∧ r.job = j.id ∧ leAt r.bytes 0 2 = st.toNat ∧ (leAt r.bytes 2 1).testBit 5 = true)
      ∧ j.id = s.larcy.nextJob ∧ j.ctx = some c.num ∧ j.part.val = leAt e 24 1 % 8 ∧ j.lc = decide (leAt e 25 1 = 0) ∧ j.key.toNat = leAt e 40 8 ∧ j.seed.toNat = leAt e 48 8 ∧ j.resultAddr.toNat = leAt e 56 8 ∧ j.arrived = s.now)
    ∧ (∀ cmd, (opc, cmd) ∈ ([(0x11, .suspend n x), (0x12, .resume n x), (0x13, .cancel n x), (0x14, .query n x)] : List (Nat × Instr)) → u.ownsJob c id = false → Answers cmd s n e 0x0704 0)
    ∧ (u.ownsJob c id = true →
      (∀ p k, opc = 0x11 → s.heldJob id = some (p, k) → ∃ t, exec (.suspend n x) s = .next t ∧ Completes t n e 0 0
        ∧ t.parts[p].task = some (if k.cancel then k else { k with suspendAt := some (BitVec.ofNat 32 (leAt e 28 4)) }) ∧ t.cores = s.cores)
      ∧ (∀ p k, opc = 0x12 → s.heldJob id = some (p, k) → k.phase = .suspended → k.ending = none → ∃ t, exec (.resume n x) s = .next t ∧ Completes t n e 0 0
        ∧ t.parts[p].task = some { k with phase := .running } ∧ (s.parts[p].mode = .suspended → t.parts[p].mode = .running)
        ∧ (∀ g, g ∈ s.members p → t.core g = { s.core g with mode := if (s.core g).mode = .suspended then .run else (s.core g).mode }) ∧ (∀ g, g ∉ s.members p → t.core g = s.core g))
      ∧ (∀ p k, opc = 0x13 → s.heldJob id = some (p, k) → k.ending = none → ∃ t k', exec (.cancel n x) s = .next t ∧ Completes t n e 0 0 ∧ t.parts[p].task = some k' ∧ t.cores = s.cores
        ∧ ((k.phase = .suspended ∨ (leAt e 28 1).testBit 0 = true) → k'.ending.map (·.status) = some 0x0001)
        ∧ (k.phase ≠ .suspended → (leAt e 28 1).testBit 0 = false → k' = { k with cancel := true, suspendAt := none }))
      ∧ (∀ j, opc = 0x13 → s.heldJob id = none → s.queuedJob id = some j → ∃ t r, exec (.cancel n x) s = .next t ∧ Completes t n e 0 0
        ∧ (∀ y ∈ t.parts[j.part].lc ++ t.parts[j.part].be, y.id ≠ id) ∧ t.parts[j.part].records.getLast? = some r ∧ r.job = id ∧ leAt r.bytes 0 2 = 1)
      ∧ (∀ st k bs, opc = 0x14 → u.queryOf id = some (st, k, bs) → ∃ t, exec (.query n x) s = .next t ∧ Completes t n e st (BitVec.ofNat 128 (id.toNat + k * 2 ^ 32))
        ∧ (leAt e 32 8 = 0 → t.mem = s.mem) ∧ (leAt e 32 8 ≠ 0 → readBytes t.mem.host (leAt e 32 8) bs.length = bs)))

/-- R221, R390, R400, R414, R431, R454, R473, R481 to R484: PARTITION_STOP, PARTITION_START, PARTITION_SET, VAULT_INSTALL, ATTEST, STREAM_OPEN and STREAM_CLOSE complete: partitions stop, start and are laid out, the vault is installed, the module attests, media streams open and close. -/
def Obligations.PartitionVaultAndStreamCommandsAct : Prop :=
  (∀ (s : State) (n : Fin 4096) (x : HostFate) (opc : Nat) (c : LCtx) (e pb : List Byte) (u : State) (p : Fin 8), s.Wf → Takes s n x opc c e u → u.checkEntry c x e = .ok pb → p.val = leAt e 24 1 % 8 →
    (opc = 0x20 → (s.parts[p].mode = .none → Answers (.partitionStop n x) s n e 0x0704 0)
      ∧ ∀ m m', (m, m') ∈ ([(.idle, .stopped), (.running, .stopping), (.suspended, .stopping), (.stopping, .stopping), (.stopped, .stopped),
        (.outOfService, if s.pwr.dieTrip then .outOfService else .stopped)] : List (PartMode × PartMode)) → s.parts[p].mode = m →
        ∃ t, exec (.partitionStop n x) s = .next t ∧ Completes t n e 0 (t.partStateReg.setWidth 128) ∧ t.parts[p] = { s.parts[p] with mode := m' } ∧ t.cores = s.cores ∧ t.mem = s.mem)
    ∧ (opc = 0x22 → (s.parts[p].mode = .none → Answers (.partitionStart n x) s n e 0x0704 0)
      ∧ (s.parts[p].mode ≠ .none → s.sec.instMode = true → ∃ t, exec (.partitionStart n x) s = .next t ∧ Completes t n e 0x0504 (t.partStateReg.setWidth 128) ∧ t.parts = s.parts)
      ∧ (s.parts[p].mode = .stopped → s.sec.instMode = false → ∃ t, exec (.partitionStart n x) s = .next t ∧ Completes t n e 0 (t.partStateReg.setWidth 128)
        ∧ t.parts[p] = { s.parts[p] with mode := if s.pwr.dieTrip || s.partSick p then .outOfService else .idle })
      ∧ (s.parts[p].mode ≠ .none → s.parts[p].mode ≠ .stopped → s.sec.instMode = false → ∃ t, exec (.partitionStart n x) s = .next t ∧ Completes t n e 0 (t.partStateReg.setWidth 128) ∧ t.parts = s.parts))
    ∧ (opc = 0x21 → ∀ start spread resv, start = 1 + 2 * leAt pb 0 1 → spread = BitVec.ofNat 8 (leAt pb 1 1) → resv = (fun h : Fin 8 => leAt pb (4 + 4 * h.val) 4) →
      (s.setAllowed start spread resv = false → ∃ t, exec (.partitionSet n x) s = .next t ∧ Completes t n e 0x0504 (t.partStateReg.setWidth 128) ∧ t.parts = s.parts ∧ t.mem = s.mem ∧ t.glb = s.glb)
      ∧ (s.setAllowed start spread resv = true → ∃ t, exec (.partitionSet n x) s = .next t ∧ Completes t n e 0 (t.partStateReg.setWidth 128) ∧ t.mem.spread = spread ∧ t.cores = s.cores
        ∧ ∀ q : Fin 8, (start.testBit q.val = false → t.parts[q].mode = .none ∧ t.hearths[q].widen = []) ∧ (start.testBit q.val = true → s.parts[q].mode ≠ .none → startSize start q.val = s.partSize q → t.parts[q].mode = s.parts[q].mode)
          ∧ (start.testBit q.val = true → (s.parts[q].mode = .none ∨ startSize start q.val ≠ s.partSize q) → t.parts[q].mode = .stopped)))
    ∧ (opc = 0x30 → s.sec.instActive = false → ∀ good differs changes, good = Config.mldsaVerify (manifestKey pb) (ascii "BROAMET-MANIFEST") (manifestBody pb) (manifestSig pb) → differs = s.ownerDiffers pb →
      changes = decide (s.sec.owner.isSome ∧ manifestOwner pb ≠ Config.sha3 (manifestKey pb)) →
      (∀ st, ((good = false ∧ st = 0x0801) ∨ (good = true ∧ differs = true ∧ st = 0x0804) ∨ (good = true ∧ differs = false ∧ changes = false ∧ regionsBad (manifestRegions pb) = true ∧ st = 0x0702)) →
        ∃ t, exec (.vaultInstall n x) s = .next t ∧ Completes t n e st 0 ∧ t.sec = { s.sec with instResult := st, instActive := false, install := none } ∧ t.mem = s.mem)
      ∧ (good = true → differs = false → changes = true → ∃ t, exec (.vaultInstall n x) s = .next t ∧ Completes t n e 0 0
        ∧ t.sec = { s.sec with owner := some (manifestOwner pb), instResult := 0, instActive := false, install := none } ∧ t.mem = s.mem)
      ∧ (good = true → differs = false → changes = false → regionsBad (manifestRegions pb) = false → ∃ t, exec (.vaultInstall n x) s = .next t ∧ t.mem = s.mem
        ∧ t.sec = { s.sec with manifest := none, instActive := true, progress := 0, install := some ⟨n, manifestRegions pb, Config.sha3 (manifestBody pb), Config.sha3 (manifestKey pb)⟩ }))
    ∧ (∀ r, opc = 0x40 → r = u.report ((e.drop 24).take 32) → ∃ t, exec (.attest n x) s = .next t ∧ Completes t n e 0 7568 ∧ readBytes t.mem.host (leAt e 56 8) r.length = r ∧ t.cores = s.cores ∧ t.sec = s.sec)
    ∧ (opc = 0x50 → (∀ st, u.openMedia (some c.num) (leAt e 24 8) (leAt e 32 1) = .error st → Answers (.streamOpen n x) s n e st 0)
      ∧ (∀ k v, u.openMedia (some c.num) (leAt e 24 8) (leAt e 32 1) = .ok (k, v) → ∃ t, exec (.streamOpen n x) s = .next t ∧ Completes t n e 0 (BitVec.ofNat 128 k) ∧ t.media = v.media))
    ∧ (∀ (k : Fin 2) (id : Fin 256), opc = 0x51 → k.val = leAt e 24 2 / 256 % 2 → id.val = leAt e 24 2 % 256 →
      (s.mediaCtx k id = none → Answers (.streamClose n x) s n e 0x0704 0)
      ∧ (∀ m, s.mediaCtx k id = some m → c.admin = false → m.owner ≠ some c.num → Answers (.streamClose n x) s n e 0x0704 0)
      ∧ (∀ m f, s.mediaCtx k id = some m → (c.admin = true ∨ m.owner = some c.num) → s.media[k].running = some f → ∃ t, exec (.streamClose n x) s = .next t ∧ Completes t n e 0 0
        ∧ t.media = (s.closeMedia k id ((leAt e 26 1).testBit 0)).media)
      ∧ (∀ m, s.mediaCtx k id = some m → (c.admin = true ∨ m.owner = some c.num) → s.media[k].running = none →
        exec (.streamClose n x) s = .next (((u.closeMedia k id ((leAt e 26 1).testBit 0)).complete n 0).mediaBoundary k))))
  ∧ (∀ (s : State) i v, s.sec.install = some i → v = s.writeRegions i.regions →
    (s.hostUp = true → v.2.2 = true → ∃ t, exec (.vaultInstallDone true) s = .next t ∧ t.mem = v.1.mem ∧ t.sec.manifest = some (i.regions, i.digest) ∧ t.sec.owner = some i.owner ∧ t.sec.instResult = 0 ∧ t.sec.instActive = false ∧ t.sec.install = none)
    ∧ (s.hostUp = true → v.2.2 = false → ∃ t, exec (.vaultInstallDone true) s = .next t ∧ t.mem = v.1.mem ∧ t.sec.manifest = s.sec.manifest ∧ t.sec.owner = s.sec.owner ∧ t.sec.instResult = 0x0805 ∧ t.sec.instActive = false ∧ t.sec.install = none)
    ∧ (∀ ok, ok = false ∨ s.hostUp = false → ∃ t, exec (.vaultInstallDone ok) s = .next t ∧ t.mem = s.mem ∧ t.sec.manifest = s.sec.manifest ∧ t.sec.instResult = 0x0304 ∧ t.sec.instActive = false)
    ∧ (∀ r, i.regions = [r] → v.1.mem.host = s.mem.host ∧ ∀ a, readByte v.1.mem.vault a = if r.offset.toNat ≤ a ∧ a < r.offset.toNat + r.len.toNat then readByte s.mem.host (r.host.toNat + (a - r.offset.toNat)) else readByte s.mem.vault a))

/-- R447, R449, R451, R456, R459 to R461: a completion or an event is written at the context's completion tail, which moves on, with its phase bit and a message; the head of the waiting list becomes resident; doorbells move a tail or a head within its queue; TY0_LARCY_CTL opens and closes context 0. -/
def Obligations.EntriesArePostedAndQueuesMove : Prop :=
  ∀ (s : State) (n : Fin 4096) (c : LCtx), s.Wf →
    (∀ (cmd : Bool → Instr) (bs : List Byte), s.poster n = some c → s.hostUp = true →
      ((cmd = (fun ok => .completionPost n ok) ∧ ∃ d, c.done = some d ∧ bs = queueEntry c d.cid d.status d.opc.toNat 0 d.result)
        ∨ (cmd = (fun ok => .eventPost n ok) ∧ ∃ d r, c.events = d :: r ∧ bs = queueEntry c 0 d.status 0 (if d.stream then 2 else 1) (d.id.setWidth 128))) →
      (∃ t k, exec (cmd true) s = .next t ∧ readBytes t.mem.host (c.cqAddr.toNat + 32 * c.cqTail) 32 = bs ∧ t.ctx n = some k ∧ k.cqTail = (c.cqTail + 1) % 2 ^ c.cqLog ∧ k.phase = (if k.cqTail = 0 then !c.phase else c.phase)
        ∧ (∀ b, cmd b = .completionPost n b → k.done = none ∧ k.events = c.events) ∧ (∀ b, cmd b = .eventPost n b → k.done = c.done ∧ k.events = c.events.drop 1)
        ∧ t.larcy.msixSent = s.larcy.msixSent ++ (if c.irq then [c.vector] else []) ∧ t.cores = s.cores ∧ { t.mem with host := s.mem.host } = s.mem)
      ∧ ∃ t, exec (cmd false) s = .next t ∧ t = s.queueFault n)
    ∧ (∀ rest, s.larcy.waiting = n :: rest → s.ctx n = some c → (s.larcy.ctxs.filter (·.resident)).length < 256 →
      ∃ t k, exec .contextSwap s = .next t ∧ t.larcy.waiting = rest ∧ t.ctx n = some k ∧ k.resident = true ∧ k.loadedAt = s.now ∧ { t with larcy := s.larcy } = s)
    ∧ (∀ rest v, s.larcy.waiting = n :: rest → 256 ≤ (s.larcy.ctxs.filter (·.resident)).length → s.victim = some v → exec .contextSwap s = .next ((s.loadHead n).evict v.num))
    ∧ (s.larcy.waiting = [] → exec .contextSwap s = .next s)
    ∧ (∀ v : BitVec 32, s.larcy.d3hot = false → s.ctx n = some c →
      (v.toNat % 4096 < 2 ^ c.sqLog → ∃ t k, exec (.sqTailDoorbell n v) s = .next t ∧ t.ctx n = some k ∧ k.sqTail = v.toNat % 4096 ∧ k.sqHead = c.sqHead ∧ { t with larcy := s.larcy } = s)
      ∧ (2 ^ c.sqLog ≤ v.toNat % 4096 → exec (.sqTailDoorbell n v) s = .next s)
      ∧ (v.toNat % 4096 < 2 ^ c.cqLog → ∃ t k, exec (.cqHeadDoorbell n v) s = .next t ∧ t.ctx n = some k ∧ k.cqHead = v.toNat % 4096 ∧ k.cqTail = c.cqTail ∧ { t with larcy := s.larcy } = s)
      ∧ (2 ^ c.cqLog ≤ v.toNat % 4096 → exec (.cqHeadDoorbell n v) s = .next s))
    ∧ (∀ v : BitVec 32, s.larcy.d3hot = false →
      (v.getLsbD 31 = true → s.larcy.enable = false →
        (∀ w, bestVersion 0 (v.toNat / 256 % 256) = some w → ∃ t k, exec (.context0Open v) s = .next t ∧ t.larcy.enable = true ∧ t.larcy.verFail = false ∧ t.larcy.ver = w ∧ t.ctx 0 = some k ∧ k.admin = true
          ∧ k.sqAddr = BitVec.ofNat 64 (s.larcy.sq0Hi.toNat * 2 ^ 32 + s.larcy.sq0Lo.toNat * 4096) ∧ k.cqAddr = BitVec.ofNat 64 (s.larcy.cq0Hi.toNat * 2 ^ 32 + s.larcy.cq0Lo.toNat * 4096)
          ∧ k.sqHead = 0 ∧ k.sqTail = 0 ∧ k.cqHead = 0 ∧ k.cqTail = 0 ∧ { t with larcy := s.larcy } = s)
        ∧ (bestVersion 0 (v.toNat / 256 % 256) = none → ∃ t, exec (.context0Open v) s = .next t ∧ t.larcy.verFail = true ∧ t.larcy.ver = 0 ∧ t.larcy.enable = false ∧ t.larcy.ctxs = s.larcy.ctxs))
      ∧ (∀ k, v.getLsbD 31 = false → s.larcy.enable = true → s.ctx 0 = some k → k.closing = [] → ∃ t, exec (.context0Close v) s = .next t ∧ t.larcy.enable = false ∧ t.larcy.ver = 0 ∧ t.ctx 0 = none ∧ t.cores = s.cores))

/-! Media engines (R411, R420 to R430) -/

/-- R422, R423: an idle engine takes the next unit of a context that is ready; a unit of an encoder reads its frame, and each unit does a band. R411, R420, R424, R427: after its last band an encoder's records are in the ring and its counters move on; a decoder's access unit leaves its ring and its pictures join the group. -/
def Obligations.MediaUnitsRunInTurn : Prop :=
  ∀ (s : State) (e : Fin 2), (∀ c ∈ s.media[e].ctxs, c.pendingStatus = none ∧ c.close = none) →
    (∀ i, s.media[e].running = some i → exec (.mediaUnitStart e) s = .next s) ∧ (s.media[e].running = none → exec (.mediaUnitComplete e) s = .next s)
    ∧ (s.media[e].running = none → s.pickMedia e = none → exec (.mediaUnitStart e) s = .next s)
    ∧ (∀ i x, s.media[e].running = none → s.pickMedia e = some (i, x) →
      (x.running = some i ∧ ∃ c ∈ s.media[e].ctxs, c.id = i ∧ s.mediaReady c = true)
      ∧ (∀ c, s.mediaCtx e i = some c → c.bandsLeft ≠ 0 → exec (.mediaUnitStart e) s = .next ((s.modEngine e fun _ => x).modMedia e i fun _ => s.seen c))
      ∧ (∀ c pic n roi, s.mediaCtx e i = some c → c.bandsLeft = 0 → mEncode c.desc = true → s.readFrame (s.seen c) = .ok (pic, n, roi) → ∃ t c', exec (.mediaUnitStart e) s = .next t ∧ t.mediaCtx e i = some c' ∧ t.mem = s.mem
        ∧ t.media[e].running = some i ∧ t.media[e].clamped = satAdd s.media[e].clamped n ∧ c' = { (s.seen c).withFrame pic roi with bandsLeft := (mHeight c.desc + 63) / 64 })
      ∧ (∀ c flags u n y q, s.mediaCtx e i = some c → c.bandsLeft = 0 → mEncode c.desc = false → c.emits = false → s.nextUnit (s.seen c) = some (flags, u, n) → s.ringLost c c.bsPtr n = false →
        Config.decodeUnit (mCodec c.desc) c.units u = some y → y.pics.head? = some q →
        ∃ t c', exec (.mediaUnitStart e) s = .next t ∧ t.mediaCtx e i = some c' ∧ t.mem = s.mem ∧ t.media[e].running = some i ∧ c' = { s.seen c with bandsLeft := max 1 ((q.pic.height + 63) / 64) }))
    ∧ (∀ i c idle, s.media[e].running = some i → s.mediaCtx e i = some c → idle = (s.modEngine e fun x => { x with running := none }) →
      (1 < c.bandsLeft → exec (.mediaUnitComplete e) s = .next (idle.modMedia e i fun y => { y with bandsLeft := y.bandsLeft - 1 }))
      ∧ (∀ d fs bs c1, c.bandsLeft ≤ 1 → mEncode c.desc = true → c.coded = (d, fs, bs) →
        c1 = { d with bsPtr := c.bsPtr + BitVec.ofNat 32 bs.length, tsPtr := c.tsPtr + 1, pictures := c.pictures + 1, bandsLeft := 0 } →
        ∃ t, exec (.mediaUnitComplete e) s = .next t ∧ t.mediaCtx e i = some c1 ∧ t.media[e].encoded = s.media[e].encoded + mWidth c.desc * mHeight c.desc ∧ t.media[e].running = none
          ∧ t.mem = (((s.storeFrames c fs).ringWrite c c.bsPtr bs).putPointers c1).mem ∧ t.cores = s.cores)
      ∧ (∀ flags u n, c.bandsLeft = 1 → mEncode c.desc = false → s.nextUnit c = some (flags, u, n) → c.discarding = false →
        ((Config.unitSequences (mCodec c.desc) u).all (sequenceOk (mCodec c.desc)) = false →
          ∃ t, exec (.mediaUnitComplete e) s = .next t ∧ t.mediaCtx e i = none ∧ t.media[e].running = none ∧ t.media[e].decoded = s.media[e].decoded ∧ t.cores = s.cores)
        ∧ (∀ y k fs, (Config.unitSequences (mCodec c.desc) u).all (sequenceOk (mCodec c.desc)) = true → Config.decodeUnit (mCodec c.desc) c.units u = some y → (∀ q ∈ y.pics, pictureOk c.desc q.pic = true) →
          MediaCtx.takePics { c with bandsLeft := 0, bsPtr := c.bsPtr + BitVec.ofNat 32 n } y.pics = some (k, fs) → flags % 2 = 0 →
          ∃ v : State, exec (.mediaUnitComplete e) s = .next ((v.emitReady e i).mediaBoundary e) ∧ v.mediaCtx e i = some { k.output y.outs with units := k.units ++ [u], bufs := remark k.bufs y.kept }
            ∧ v.mem = (s.storeFrames c fs).mem ∧ v.media[e].running = none ∧ v.media[e].decoded = s.media[e].decoded + (fs.map fun f => f.2.width * f.2.height).sum)))

/-! Packets (R341, R347, R348, R352, R354, R356, R359, R363) -/

/-- R341, R347, R352, R354, R356, R359, R363: a frame that fails a check is counted and discarded; a tag that fails takes its pair down; a counter taken before is only acknowledged; a packet in order acts, at its place of this module and for the job with its tag, and is taken: WRITE stores its bytes and no other, REDUCE enters the combine stage, SIGNAL adds to a token counter; one that may not act is answered by a NAK. -/
def Obligations.DataPacketsAct : Prop :=
  ∀ (s : State) (l : Fin 128) (f : Frame) (p : LinkPair) (cmd : Instr), s.Wf →
    (f.type = 1 ∧ cmd = .writeReceive l f ∨ f.type = 2 ∧ cmd = .reduceReceive l f ∨ f.type = 3 ∧ cmd = .signalPacketReceive l f) →
    (s.frameOk l f = false → exec cmd s = .next (s.modFab fun x => { x with discarded := x.discarded + 1 }))
    ∧ (s.frameOk l f = true → s.framePair l f = none → exec cmd s = .next (s.modFab fun x => { x with discarded := x.discarded + 1 }))
    ∧ (s.frameOk l f = true → s.framePair l f = some p → nearest p.rxNext f.psn.toNat < p.rxNext → exec cmd s = .next (s.sendAck l p.peer p.far false 0))
    ∧ (s.frameOk l f = true → s.framePair l f = some p → nearest p.rxNext f.psn.toNat = p.rxNext → p.rxAhead = [] → f.tagOk = false → exec cmd s = .next (s.pairLost l p.peer p.far true))
    ∧ (InOrder s l f p →
      (∀ u, (f.type = 1 ∨ f.type = 2) → s.rxWaiting l f.vc = [] → s.applyData f = .ok u → Takes1 cmd s u l p)
      ∧ (∀ n, (f.type = 1 ∨ f.type = 2) → s.dataCheck f = .error n → n ≠ .busy → ∃ t, exec cmd s = .next t ∧ t.cores = s.cores ∧ t.mem = s.mem ∧ t.parts = s.parts
        ∧ ∃ a ∈ t.fab.sent, a.pkt.type = 5 ∧ a.pkt.dstAddr = BitVec.ofNat 48 (p.rxNext % 2 ^ 32 + (if n = .denied then 2 else 3) * 2 ^ 40))
      ∧ (∀ d g q q', f.type = 3 → d = coreId f.dstCore.toNat → g = coreId f.tokenCore.toNat → s.tagCheck (s.partOfCore d) f.jobTag = .ok q → s.tagCheck (s.partOfCore g) f.jobTag = .ok q' →
        Takes1 cmd s (s.tokenAdd g ⟨f.tokenId.toNat % 64, by omega⟩ (f.dstAddr.toNat % 256) f.epoch) l p)
      ∧ (∀ n d g, f.type = 3 → d = coreId f.dstCore.toNat → g = coreId f.tokenCore.toNat → n ≠ .busy →
        (s.tagCheck (s.partOfCore d) f.jobTag = .error n ∨ ((∃ q, s.tagCheck (s.partOfCore d) f.jobTag = .ok q) ∧ s.tagCheck (s.partOfCore g) f.jobTag = .error n)) →
        ∃ t, exec cmd s = .next t ∧ t.cores = s.cores ∧ t.mem = s.mem ∧ t.parts = s.parts ∧ t.tokens = s.tokens
        ∧ ∃ a ∈ t.fab.sent, a.pkt.type = 5 ∧ a.pkt.dstAddr = BitVec.ofNat 48 (p.rxNext % 2 ^ 32 + (if n = .denied then 2 else 3) * 2 ^ 40)))
    ∧ (∀ g a q, f.type = 1 → g = coreId f.dstCore.toNat → a = f.dstAddr.toNat → s.tagCheck (s.destPart f.dstCore f.dstSpace a) f.jobTag = .ok q →
      (f.dstSpace = 1 → a + f.payload.length ≤ 0x400000 → ∃ u, s.applyData f = .ok u ∧ u.mem = s.mem ∧ (∀ j, j ≠ g → (u.core j).spad = (s.core j).spad)
        ∧ (∀ j (hj : j < f.payload.length), readByte (u.core g).spad (a + j) = f.payload[j]) ∧ (∀ b, b < a ∨ a + f.payload.length ≤ b → readByte (u.core g).spad b = readByte (s.core g).spad b))
      ∧ (f.dstSpace = 0 → a + f.payload.length ≤ (q.val + s.partSize q) * 2 ^ 38 → q.val * 2 ^ 38 ≤ a → ∃ u, s.applyData f = .ok u ∧ { u.mem with hbm := s.mem.hbm, badHbm := s.mem.badHbm, replays := s.mem.replays } = s.mem ∧ (∀ j, (u.core j).spad = (s.core j).spad)
        ∧ (∀ j (hj : j < f.payload.length), readByte u.mem.hbm (a + j) = f.payload[j]) ∧ (∀ b, b < a ∨ a + f.payload.length ≤ b → readByte u.mem.hbm b = readByte s.mem.hbm b)))
    ∧ (∀ g r q, f.type = 2 → g = coreId f.dstCore.toNat → parseRun f.payload = some r → r.kind = 1 → s.tagCheck (s.destPart f.dstCore 1 0) f.jobTag = .ok q →
      ((s.core g).stageRoom r = true → ∃ u, s.applyData f = .ok u ∧ (u.core g).stage = (s.core g).stage ++ [⟨r, some (f.srcMod, f.srcCore), false⟩] ∧ u.mem = s.mem ∧ ∀ j, j ≠ g → (u.core j).stage = (s.core j).stage)
      ∧ ((s.core g).stageRoom r = false → s.applyData f = .error .busy))
    ∧ (∀ p' k, s.destPart f.dstCore f.dstSpace f.dstAddr.toNat = some p' → s.parts[p'].task = some k → (k.job.tag ≠ f.jobTag → s.tagCheck (some p') f.jobTag = .error .denied)
      ∧ (k.job.tag = f.jobTag → (∀ e, k.ending = some e → e.at_ = s.now) → s.tagCheck (some p') f.jobTag = .ok p') ∧ (∀ e, k.job.tag = f.jobTag → k.ending = some e → e.at_ ≠ s.now → s.tagCheck (some p') f.jobTag = .error .ended))

/-- R354, R356, R359: an ACK frees what it acknowledges; a NAK SEQUENCE makes the sender send again, BUSY delays, DENIED ends the sending task, ENDED stops the packet. R350, R362, R366, R368, R370: control messages that arrive in order act at their core or for the task with their tag, and are taken. -/
def Obligations.AcknowledgementsAndControlMessagesAct : Prop :=
  ∀ (s u : State) (l : Fin 128) (f : Frame) (p : LinkPair) (g : Fin 512), g = coreId f.dstCore.toNat →
    u = s.modPair l p.peer p.far (fun y => { y with rxAckSeq := nearest (2 ^ 63 + y.rxAckSeq) f.psn.toNat - 2 ^ 63 + 1 }) →
    (s.frameOk l f = true → s.framePair l f = some p → f.tagOk = true →
      (f.type = 4 → ∀ n, n = nearest ((p.unacked.head?.map (·.ctr)).getD p.txNext) f.ackPsn.toNat → exec (.ackReceive l f) s = .next (u.ackBelow l p.peer p.far n)
        ∧ ((∀ k ∈ p.unacked, ¬(k.left = true ∧ k.ctr < n)) → exec (.ackReceive l f) s = .next u))
      ∧ (∀ k n, f.type = 5 → p.version = 1 → n = nearest ((p.unacked.head?.map (·.ctr)).getD p.txNext) (f.dstAddr.toNat % 2 ^ 32) → p.unacked.find? (fun y => y.left && decide (y.ctr = n)) = some k →
        (∀ ks, f.dstAddr.toNat / 2 ^ 40 = 0 → ks = p.unacked.filter (fun x => x.left && decide (n ≤ x.ctr)) →
          (p.resends < 8 → ∃ t q, exec (.nakReceive l f) s = .next t ∧ t.fab.sent = s.fab.sent ++ ks.map (s.fab.frameOf p) ∧ t.findPair l p.peer p.far = some q ∧ q.unacked = p.unacked
            ∧ q.resends = p.resends + (if ks.head?.map (·.ctr) = (p.unacked.find? (·.left)).map (·.ctr) then 1 else 0) ∧ t.cores = s.cores ∧ t.parts = s.parts)
          ∧ (8 ≤ p.resends → ks.head?.map (·.ctr) = (p.unacked.find? (·.left)).map (·.ctr) → exec (.nakReceive l f) s = .next (u.pairLost l p.peer p.far false)))
        ∧ (f.dstAddr.toNat / 2 ^ 40 = 1 → exec (.nakReceive l f) s = .next (u.modPair l p.peer p.far fun y => { y with unacked := y.unacked.map fun x => if x.ctr = n then { x with busyAt := some s.now } else x }))
        ∧ (∀ v j, f.dstAddr.toNat / 2 ^ 40 = 2 → j = coreId k.srcCore.toNat → v = u.dropPkt l p n → v.jobTag j = k.jobTag → v.partHeld (v.partOfCore j) = true → ∃ t, exec (.nakReceive l f) s = .next t ∧ TaskEndsAt v t j 0x0108 k.bundle)
        ∧ (f.dstAddr.toNat / 2 ^ 40 = 3 → exec (.nakReceive l f) s = .next (u.dropPkt l p n))))
    ∧ (s.frameOk l f = false → (f.type = 4 → exec (.ackReceive l f) s = .next s.discard) ∧ (f.type = 5 → exec (.nakReceive l f) s = .next s.discard))
    ∧ (InOrder s l f p → f.type = 6 →
      (∀ r, leAt f.payload 0 1 = 1 → s.holdsTag g f.jobTag = true →
        r = ⟨BitVec.ofNat 32 (leAt f.payload 4 4), BitVec.ofNat 32 (leAt f.payload 8 4), leAt f.payload 12 4, BitVec.ofNat 32 (leAt f.payload 16 4), f.srcMod, f.srcCore⟩ →
        ((∀ c ∈ (s.core g).colls, c.awaits r = false) → (s.core g).rts.length < 64 → Takes1 (.rtsReceive l f) s (s.setCore g { s.core g with rts := (s.core g).rts ++ [r] }) l p)
        ∧ ((∀ c ∈ (s.core g).colls, c.awaits r = false) → 64 ≤ (s.core g).rts.length → exec (.rtsReceive l f) s = .next (s.sendAck l p.peer p.far true (p.rxNext % 2 ^ 32 + 2 ^ 40)))
        ∧ (∀ c p', (s.core g).colls.find? (fun c => c.awaits r) = some c → (s.matchRts g c r).findPair l p.peer p.far = some p' → exec (.rtsReceive l f) s = .next ((s.matchRts g c r).rxTake l p' p.rxNext))
        ∧ (∀ c, (s.core g).colls.find? (fun c => c.awaits r) = some c → collSign c.desc c.opc ≠ r.sign → ∃ u, Takes1 (.rtsReceive l f) s u l p ∧ TaskEndsAt s u g 0x0401 c.bundle))
      ∧ (∀ u p', leAt f.payload 0 1 = 2 → s.holdsTag g f.jobTag = true →
        u = s.ctsArrive g (BitVec.ofNat 32 (leAt f.payload 4 4)) (BitVec.ofNat 32 (leAt f.payload 8 4)) (leAt f.payload 12 4) (leAt f.payload 16 6) (BitVec.ofNat 3 (leAt f.payload 22 1)) →
        u.findPair l p.peer p.far = some p' → exec (.ctsReceive l f) s = .next (u.rxTake l p' p.rxNext))
      ∧ (∀ q, leAt f.payload 0 1 = 4 → s.partOfTag f.jobTag = some q → ∃ u, Takes1 (.delayReceive l f) s u l p ∧ u.parts = s.parts ∧ u.mem = s.mem
        ∧ (∀ j, j ∈ s.members q → ∀ w, (s.core j).wait = some w → (u.core j).wait = some { w with since := s.now }) ∧ (∀ j, j ∉ s.members q → u.core j = s.core j))
      ∧ (∀ q u p', leAt f.payload 0 1 = 5 → s.partOfTag f.jobTag = some q →
        u = (s.modPart q fun x => { x with rounds := x.rounds ++ [(f.jobTag, BitVec.ofNat 16 (leAt f.payload 4 2), BitVec.ofNat 16 (leAt f.payload 6 2), BitVec.ofNat 8 (leAt f.payload 8 1), f.srcMod)] }).pumpRounds q →
        u.findPair l p.peer p.far = some p' → exec (.barrierReceive l f) s = .next (u.rxTake l p' p.rxNext))
      ∧ (∀ q k, leAt f.payload 0 1 = 6 → s.partOfTag f.jobTag = some q → s.parts[q].task = some k → k.ending = none → ∃ u e, Takes1 (.endNoticeReceive l f) s u l p ∧ u.cores = s.cores ∧ u.mem = s.mem
        ∧ u.parts[q].task = some { k with ending := some e } ∧ e.status = BitVec.ofNat 16 (leAt f.payload 4 2) ∧ e.remote = some (BitVec.ofNat 16 (leAt f.payload 6 2), BitVec.ofNat 16 (leAt f.payload 8 2)))
      ∧ (∀ j, leAt f.payload 0 1 = 6 → s.partOfTag f.jobTag = none → (s.parts.toList.flatMap fun y => y.lc ++ y.be).find? (fun y => decide (y.tag = f.jobTag)) = some j →
        ∃ t, exec (.endNoticeReceive l f) s = .next t ∧ Accepts (s.endQueued j (BitVec.ofNat 16 (leAt f.payload 4 2)) (BitVec.ofNat 192 (leAt f.payload 6 2 + leAt f.payload 8 2 * 2 ^ 16))) t l p))

/-! Key agreement, pairs, timers and training (R340, R353 to R355, R359, R373, R479, R480) -/

/-- R479, R480, R353: HELLO, ACCEPT and FINISH make the secret of a module pair once each side verifies the other, and a step that does not verify or come within 5 ms fails the agreement; PAIR brings the peer's nonce; a pair with both nonces is up with fresh counters. R354, R355, R359: the timers of a pair acknowledge, send again, and take it down after eight resends. -/
def Obligations.AgreementAndPairTimersAct : Prop :=
  ∀ (s : State) (l : Fin 128) (f : Frame) (bs : List Byte) (peer : BitVec 16) (far : Fin 8), bs = f.payload.drop 4 → peer = f.srcMod → far = linkHearth f.srcLink →
    (s.frameOk l f = true →
      (∀ x, ctrlKind f = 0x10 → s.secretOf peer = some x → x.initiator = true → x.agreed = false → x.failed = false → s.fab.moduleId.toNat < peer.toNat → exec (.hello l f) s = .next s)
      ∧ (ctrlKind f = 0x10 → s.secretOf peer = none →
        (bs.length = 4972 → Config.certificateOk (bs.take 3756) = true → ∃ t x acc r m, exec (.hello l f) s = .next t ∧ t.secretOf peer = some x ∧ x.agreed = false ∧ x.failed = false ∧ x.initiator = false ∧ x.hello = bs
          ∧ x.since = s.now ∧ x.transcript = Config.sha3 (bs ++ acc) ∧ acc = certificate ++ sized 1088 (Config.kemEncap ((bs.drop 3756).take 1184) r).1 ++ toLE m 32
          ∧ x.secret = pairSecret (Config.kemEncap ((bs.drop 3756).take 1184) r).2 x.transcript ∧ t.cores = s.cores)
        ∧ ((bs.length ≠ 4972 ∨ Config.certificateOk (bs.take 3756) = false) → ∃ t x, exec (.hello l f) s = .next t ∧ t.secretOf peer = some x ∧ x.failed = true ∧ x.agreed = false))
      ∧ (∀ x tr, ctrlKind f = 0x11 → s.secretOf peer = some x → x.initiator = true → x.agreed = false → x.failed = false → tr = Config.sha3 (x.hello ++ bs.take 4876) →
        (bs.length = 7296 → Config.certificateOk (bs.take 3756) = true → Config.mldsaVerify (certKey bs) (ascii "BROAMET-LINK") (digestBytes tr) (bs.drop 4876) = true →
          ∃ t y, exec (.accept l f) s = .next t ∧ t.secretOf peer = some y ∧ y.agreed = true ∧ y.transcript = tr ∧ y.secret = pairSecret (Config.kemDecap x.draw ((bs.drop 3756).take 1088)) tr ∧ t.cores = s.cores)
        ∧ ((bs.length ≠ 7296 ∨ Config.certificateOk (bs.take 3756) = false ∨ Config.mldsaVerify (certKey bs) (ascii "BROAMET-LINK") (digestBytes tr) (bs.drop 4876) = false) → ∃ t y, exec (.accept l f) s = .next t ∧ t.secretOf peer = some y ∧ y.failed = true ∧ y.agreed = false))
      ∧ (∀ x, ctrlKind f = 0x12 → s.secretOf peer = some x → x.initiator = false → x.agreed = false → x.failed = false →
        (Config.mldsaVerify (certKey x.hello) (ascii "BROAMET-LINK") (digestBytes x.transcript) bs = true → ∃ t, exec (.finish l f) s = .next t ∧ t.secretOf peer = some { x with agreed := true } ∧ t.cores = s.cores)
        ∧ (Config.mldsaVerify (certKey x.hello) (ascii "BROAMET-LINK") (digestBytes x.transcript) bs = false → ∃ t y, exec (.finish l f) s = .next t ∧ t.secretOf peer = some y ∧ y.failed = true ∧ y.agreed = false))
      ∧ (∀ x p, ctrlKind f = 0x13 → s.secretOf peer = some x → x.agreed = true → bs.length = 16 → s.findPair l peer far = some p → ∃ t q, exec (.pair l f) s = .next t ∧ t.findPair l peer far = some q
        ∧ q.peerNonce = some (BitVec.ofNat 128 (leNat bs)) ∧ q.nonce.isSome = true ∧ q.up = false ∧ q.down = false ∧ q.version.toNat = min f.ver.toNat s.fab.protoMax.toNat ∧ t.cores = s.cores))
    ∧ (s.frameOk l f = false → ∀ k cmd, (k, cmd) ∈ ([(0x10, .hello l f), (0x11, .accept l f), (0x12, .finish l f), (0x13, .pair l f)] : List (Nat × Instr)) → ctrlKind f = k → exec cmd s = .next s.discard)
    ∧ (∀ x, s.secretOf peer = some x → x.agreed = false → x.failed = false → ∃ t y, exec (.keyAgreementTimeout peer) s = .next t ∧ t.secretOf peer = some y ∧ y.failed = true ∧ y.agreed = false ∧ t.now = max s.now (x.since + 12500000))
    ∧ (∀ p, s.findPair l peer far = some p →
      (∀ x a b, p.up = false → p.nonce = some a → p.peerNonce = some b → s.secretOf peer = some x → x.agreed = true → s.fab.links[l].mode = .up →
        (p.noVersion = false → ∃ t q, exec (.linkPairSetup l peer far) s = .next t ∧ t.findPair l peer far = some q ∧ q.up = true ∧ q.down = false ∧ q.txNext = p.unacked.length ∧ q.rxNext = 0 ∧ q.ackSeq = 0 ∧ q.rxAhead = []
          ∧ q.unacked.map (·.ctr) = List.range p.unacked.length ∧ q.unacked.map (·.payload) = p.unacked.map (·.payload)
          ∧ (∀ (low : Bool) (lo hi : BitVec 128) (key : Nat → Digest), low = decide (s.fab.moduleId.toNat < peer.toNat) → lo = (if low then a else b) → hi = (if low then b else a) →
            key = (fun d => Config.sha3 (ascii "BROAMET-LINK" ++ digestBytes x.secret ++ toLE lo.toNat 16 ++ toLE hi.toNat 16 ++ toLE d 1)) → q.txKey = key (if low then 0 else 1) ∧ q.rxKey = key (if low then 1 else 0)) ∧ t.cores = s.cores)
        ∧ (p.noVersion = true → s.fab.stalled = [] → ∃ t q, exec (.linkPairSetup l peer far) s = .next t ∧ t.findPair l peer far = some q ∧ q.unacked = [] ∧ q.up = false))
      ∧ (∀ r, p.up = true → p.rxSince = some r → ∃ t q a, exec (.ackTimer l peer far) s = .next t ∧ t.now = max s.now (r + 2500) ∧ t.fab.sent = s.fab.sent ++ [a] ∧ a.pkt.type = 4 ∧ a.ackPsn = BitVec.ofNat 32 p.rxNext
        ∧ t.findPair l peer far = some q ∧ q.rxSince = none ∧ q.rxCount = 0)
      ∧ (∀ k, p.up = true → p.unacked.find? (·.left) = some k →
        (p.resends < 8 → ∃ t q, exec (.resendTimer l peer far) s = .next t ∧ t.fab.sent = s.fab.sent ++ [s.fab.frameOf p k] ∧ t.findPair l peer far = some q ∧ q.resends = p.resends + 1 ∧ q.progressAt = t.now
          ∧ q.unacked = p.unacked ∧ t.now = max s.now (p.progressAt + 40000) ∧ t.cores = s.cores)
        ∧ (8 ≤ p.resends → s.fab.stalled = [] → ∃ t q, exec (.resendTimer l peer far) s = .next t ∧ t.findPair l peer far = some q ∧ q.up = false ∧ q.down = true ∧ q.unacked = []))
      ∧ (∀ k b, p.up = true → p.unacked.find? (fun y => y.busyAt.isSome) = some k → k.busyAt = some b → ∃ t q, exec (.busyResendTimer l peer far) s = .next t ∧ t.fab.sent = s.fab.sent ++ [s.fab.frameOf p k]
        ∧ t.findPair l peer far = some q ∧ q.resends = p.resends ∧ (∀ y ∈ q.unacked, y.ctr = k.ctr → y.busyAt = none) ∧ t.now = max s.now (b + 5000) ∧ t.cores = s.cores))

/-- R340, R355: a link comes up in the mode that it tries, tries the next lower enabled mode after 250 ms, starts again from the fastest 1 s after the last failed, and on losing the link takes its pairs down and trains again. -/
def Obligations.LinksTrainAndFail : Prop :=
  ∀ (s : State) (l : Fin 128) (k : Link) (enabled : BitVec 3 → List (BitVec 2)) (modes : List (BitVec 2)), k = s.fab.links[l] → enabled = (fun v => ([3, 2, 1] : List (BitVec 2)).filter fun m => v.getLsbD (m.toNat - 1)) →
    modes = enabled s.fab.modes →
    (k.mode = .training → k.tryMode ≠ 0 →
      (∃ t, exec (.linkUp l) s = .next t ∧ t.fab.links[l] = { k with mode := .up, speed := k.tryMode } ∧ (∀ q ∈ t.fab.pairs, q.link = l → (s.secretOf q.peer).any (·.agreed) = true → q.down = false) ∧ (∀ j : Fin 128, j ≠ l → t.fab.links[j] = s.fab.links[j]) ∧ t.now = max s.now (k.since + 25000000)
        ∧ t.glb.evNext = s.glb.evNext + 1 ∧ t.cores = s.cores ∧ t.mem = s.mem)
      ∧ (∃ t, exec (.linkModeTimeout l) s = .next t ∧ t.fab.links[l] = { k with tryMode := ((enabled k.modes).filter fun m => decide (m.toNat < k.tryMode.toNat)).headD 0, since := t.now }
        ∧ (∀ j : Fin 128, j ≠ l → t.fab.links[j] = s.fab.links[j]) ∧ t.now = max s.now (k.since + 625000000) ∧ t.cores = s.cores ∧ t.mem = s.mem))
    ∧ (k.mode = .training → k.tryMode = 0 → ∃ t, exec (.linkTrainRetry l) s = .next t ∧ t.fab.links[l] = { k with mode := .training, speed := 0, tryMode := modes.headD 0, modes := s.fab.modes, since := t.now }
      ∧ (∀ j : Fin 128, j ≠ l → t.fab.links[j] = s.fab.links[j]) ∧ t.now = max s.now (k.since + 2500000000) ∧ t.cores = s.cores ∧ t.mem = s.mem)
    ∧ (k.mode = .up → ∃ t, exec (.linkDownDetect l) s = .next t ∧ t.fab.links[l] = { k with mode := .training, speed := 0, tryMode := modes.headD 0, modes := s.fab.modes, since := s.now }
      ∧ (∀ j : Fin 128, j ≠ l → t.fab.links[j] = s.fab.links[j]) ∧ (∀ q ∈ t.fab.pairs, q.link = l → q.down = true) ∧ t.mem = s.mem)
    ∧ (k.mode ≠ .up → exec (.linkDownDetect l) s = .next s) ∧ (k.mode ≠ .training → exec (.linkUp l) s = .next s ∧ exec (.linkModeTimeout l) s = .next s ∧ exec (.linkTrainRetry l) s = .next s)

/-! HBM (R306 to R320, R332, R539) -/

/-- R315, R318 to R320: a sample moves a stack's bellows level, a rise or fall to level 2 or 3 restarts the limits of its partition, and 105 °C quenches it and ends its task. R306, R307: a read that fails after its replay ends its reader. R308 to R311: a failing row is remapped and logged. R312, R313: a fence takes a whole hearth out of service and ends its task. -/
def Obligations.StacksAreWatched : Prop :=
  ∀ (s : State) (n : Fin 32) (k : Stack) (h p : Fin 8) (task : Option Task), k = s.mem.stk[n] → h = stackHearth n → s.partOf h = some p → task = s.parts[p].task →
    (∀ x l, k.mode = .inService → x < 210 → l = nextLevel k.level.val x →
      (l = k.level.val ∨ l < 2 → ∃ t, exec (.stackTempSample n x) s = .next t ∧ t = { s with mem := t.mem } ∧ { t.mem with stk := s.mem.stk } = s.mem ∧ t.mem.stk[n] = { k with temp := BitVec.ofNat 8 x, level := ⟨l % 4, by omega⟩ }
        ∧ ∀ j : Fin 32, j ≠ n → t.mem.stk[j] = s.mem.stk[j])
      ∧ (l ≠ k.level.val → 2 ≤ l → ∃ t, exec (.stackTempSample n x) s = .next t ∧ t.mem.stk[n] = { k with temp := BitVec.ofNat 8 x, level := ⟨l % 4, by omega⟩ } ∧ t.mem.noticeAt[h] = s.now
        ∧ (∀ g ∈ s.members p, ∀ w, (s.core g).wait = some w → (t.core g).wait = some { w with since := s.now }) ∧ t.mem.hbm = s.mem.hbm))
    ∧ (∀ x, (k.mode ≠ .inService ∧ x < 210) ∨ (k.hot = true ∧ 210 ≤ x) → exec (.stackTempSample n x) s = .next (s.modStack n fun y => { y with temp := BitVec.ofNat 8 (min x 255) }))
    ∧ (∀ x, k.hot = false → 210 ≤ x → ∃ t, exec (.stackTempSample n x) s = .next t ∧ (t.mem.stk[n]).mode = .quenched ∧ (t.mem.stk[n]).hot = true ∧ (t.mem.stk[n]).stoppedAt = some s.now ∧ t.pwr.thermTrip = true ∧ t.cores = s.cores
      ∧ (∀ r, k.repair = some r → s.now < r.till → (t.mem.stk[n]).repair = none ∧ (t.mem.stk[n]).sppr = r.sppr ∧ (t.mem.stk[n]).repairs = r.repairs)
      ∧ (∀ y, task = some y → y.ending = none → (t.parts[p].task.bind (·.ending)).map (·.status) = some 0x0303) ∧ (task = none → s.parts[p].mode = .idle → t.parts[p].mode = .outOfService))
    ∧ ((∃ j : Fin 32, stackHearth j = h ∧ (s.mem.stk[j]).mode = .inService ∧ 2 ≤ (s.mem.stk[j]).level.val) →
      ∃ t, exec (.bellowsNoticePeriod h) s = .next t ∧ t.now = max s.now (s.mem.noticeAt[h] + 2500000 * s.mem.periodMs.toNat) ∧ t.mem.noticeAt[h] = t.now
        ∧ ∀ g ∈ s.members p, ∀ w, (s.core g).wait = some w → (t.core g).wait = some { w with since := t.now })
    ∧ (∀ r (a : BitVec 48) old, s.hbmServed a.toNat = true → old = s.mem.replays.find? (fun y => decide (y.reader = r) && decide (y.addr = a)) →
      (s.mem.lost a.toNat 1 = false → exec (.hbmReadReplay r a true) s = .next { s with mem := { s.mem with replays := s.mem.replays.filter fun y => !(decide (y.reader = r) && decide (y.addr = a)) } })
      ∧ (∀ ok, (ok = false ∨ s.mem.lost a.toNat 1 = true) →
        (old = none → ∃ t, exec (.hbmReadReplay r a ok) s = .next t ∧ t = { s with mem := t.mem } ∧ ⟨r, a, 1⟩ ∈ t.mem.replays ∧ t.mem.hbm = s.mem.hbm)
        ∧ (∀ y g, old = some y → y.count ≠ 0 → r = .core g → s.live g = true → ∃ t u, exec (.hbmReadReplay r a ok) s = .next t ∧ TaskEndsAt u t g 0x0301 ((s.core g).readerOf a.toNat).1 ∧ u.parts = s.parts ∧ u.cores = s.cores)
        ∧ (∀ y, old = some y → y.count ≠ 0 → r = .host → ∃ t, exec (.hbmReadReplay r a ok) s = .next t ∧ t.reply = .poison ∧ t.cores = s.cores ∧ t.parts = s.parts)))
    ∧ (∀ e : RowError, e.stack = n → k.mode = .inService →
      (e.uncorrectable = false → k.correctedOf e.bank e.row ≠ 3 → exec (.rowRepair e) s = .next (s.modStack n fun y => y.setCorrected e.bank e.row (k.correctedOf e.bank e.row + 1)))
      ∧ (e.uncorrectable = true ∨ k.correctedOf e.bank e.row = 3 → ∃ t, exec (.rowRepair e) s = .next t ∧ t.cores = s.cores ∧ t.mem.hbm = s.mem.hbm ∧ t.parts = s.parts
        ∧ (s.mem.repairLog.length < 4096 → ⟨n, e.bank, e.row⟩ ∈ t.mem.repairLog ∧ t.mem.repairLost = s.mem.repairLost)
        ∧ (4096 ≤ s.mem.repairLog.length → ⟨n, e.bank, e.row⟩ ∉ s.mem.repairLog → t.mem.repairLog = s.mem.repairLog ∧ t.mem.repairLost = satAdd s.mem.repairLost 1)
        ∧ (e.rowReadOk = true → Config.softRepairLeft n.val e.bank (k.repairsOf e.bank) = true → (t.mem.stk[n]).sppr = satAdd k.sppr 1 ∧ (t.mem.stk[n]).repair.map (·.till) = some (s.now + 7500)) ∧ (e.rowReadOk = false → (t.mem.stk[n]).sppr = k.sppr)))
    ∧ (∀ cause, k.mode = .inService → ∃ t, exec (.stackFence n cause) s = .next t ∧ (∀ j : Fin 32, stackHearth j = h → (t.mem.stk[j]).mode = if (s.mem.stk[j]).mode = .quenched ∧ s.stoppedThisPeriod s.mem.stk[j] = true then .quenched else .fenced)
      ∧ (∀ j : Fin 32, stackHearth j ≠ h → t.mem.stk[j] = s.mem.stk[j]) ∧ (∀ j : Fin 8, t.glb.hrtPresent.getLsbD j.val = (s.glb.hrtPresent.getLsbD j.val && decide (j ≠ h))) ∧ t.pwr.faultN = true ∧ n ∈ t.mem.fenceRecords
      ∧ (∀ r, r < 16 → (t.fab.links[linkOf h r]).mode = .fenced)
      ∧ (∀ y, task = some y → y.ending = none → (t.parts[p].task.bind (·.ending)).map (·.status) = some 0x0302) ∧ (task = none → s.parts[p].mode = .idle → t.parts[p].mode = .outOfService))
    ∧ (∀ cause, (k.mode = .fenced ∨ k.mode = .notPresent ∨ (k.mode = .quenched ∧ s.stoppedThisPeriod k = false)) → exec (.stackFence n cause) s = .next s)

/-! The host port (R329, R337, R441 to R444) -/

/-- R306, R328, R329, R337, R442: the host's window reads and writes HBM where it is served; a read of a lost word is poison; a secure job's bytes read as zeros, writes to them are discarded, and both are counted; a host snoop misses. R441, R443, R444: HP0 trains at the best width and rate, changes its power state, and closes every context when it goes down. -/
def Obligations.HostPortActs : Prop :=
  ∀ (s : State) (x : BitVec 64) (a : Nat), s.Wf →
    (∀ (len : Nat) (bs : List Byte), s.hostUp = true →
      (x.toNat < s.mem.hdmSize.toNat * 2 ^ 30 → a = s.mem.hdmBase.toNat * 2 ^ 30 + x.toNat → a + len ≤ 2 ^ 41 → a + bs.length ≤ 2 ^ 41 →
        (s.hdmSecret a = false → s.hbmServed a = true → (s.mem.lost a len = false → exec (.hostHdmRead x len) s = .next { s with reply := .data (readBytes s.mem.hbm a len) })
          ∧ (s.mem.lost a len = true → ∃ t, exec (.hostHdmRead x len) s = .next t ∧ t.reply = .poison ∧ t.mem = s.mem)
          ∧ ∃ t, exec (.hostHdmWrite x bs) s = .next t ∧ (∀ j (hj : j < bs.length), readByte t.mem.hbm (a + j) = bs[j]) ∧ (∀ b, b < a ∨ a + bs.length ≤ b → readByte t.mem.hbm b = readByte s.mem.hbm b)
            ∧ { t.mem with hbm := s.mem.hbm, badHbm := s.mem.badHbm, replays := s.mem.replays } = s.mem ∧ t.cores = s.cores ∧ t.parts = s.parts)
        ∧ (s.hdmSecret a = true → (∃ t, exec (.hostHdmRead x len) s = .next t ∧ t.reply = .data (List.replicate len 0) ∧ t.mem = { s.mem with hdmDenied := satAdd s.mem.hdmDenied 1 })
          ∧ ∃ t, exec (.hostHdmWrite x bs) s = .next t ∧ t.mem = { s.mem with hdmDenied := satAdd s.mem.hdmDenied 1 } ∧ t.cores = s.cores)
        ∧ (s.hdmSecret a = false → s.hbmServed a = false → (∃ t, exec (.hostHdmRead x len) s = .next t ∧ t.reply = .poison ∧ t.mem = s.mem) ∧ exec (.hostHdmWrite x bs) s = .next s))
      ∧ (s.mem.hdmSize.toNat * 2 ^ 30 ≤ x.toNat → exec (.hostHdmRead x len) s = .next { s with reply := .data (List.replicate len 0) } ∧ exec (.hostHdmWrite x bs) s = .next s))
    ∧ (s.larcy.up = true → 4 ≤ s.larcy.proto.toNat → exec (.hostSnoop x) s = .next { s with reply := .snoopMiss })
    ∧ (∀ (o : HostOffer) rate, rate = min o.rate.toNat (maxRate o.proto) → s.canTrain = true → rate ≠ 0 → bestWidth o.width ≠ 0 →
      exec (.hp0LinkUp o) s = .next (s.modLarcy fun y => { y with up := true, d3hot := false, proto := o.proto, width := BitVec.ofNat 5 (bestWidth o.width), rate := BitVec.ofNat 4 rate }))
    ∧ (∀ d, s.larcy.up = true → exec (.powerStateChange d) s = .next (s.modLarcy fun y => { y with d3hot := d }))
    ∧ (s.larcy.up = true → ∃ t, exec .hp0Down s = .next t ∧ t.larcy.up = false ∧ t.larcy.ctxs = [] ∧ t.larcy.proto = 0 ∧ t.larcy.width = 0 ∧ t.larcy.rate = 0 ∧ t.larcy.drops = satAdd s.larcy.drops 1
      ∧ (∀ u, u = s.failHostXfers → t.cores = u.cores ∧ t.mem = u.mem ∧ (∀ p : Fin 8, t.parts[p].mode = u.parts[p].mode ∧ (t.parts[p].task.map (·.ending)) = (u.parts[p].task.map (·.ending))) ∧ ((∀ (g : Fin 512) (q : Fin 8) y, ((s.core g).q[q]).xfers.head? = some y → s.hostPending g y = false) → u = s))
      ∧ (s.sec.instActive = true → t.sec.instActive = false ∧ t.sec.instResult = 0x0304) ∧ (s.sec.fwBusy = true → t.sec.fwBusy = false ∧ t.sec.fwResult = 0x0304))
    ∧ (s.larcy.up = false → exec .hp0Down s = .next s)

/-! Power, pins and start-up (R469, R503 to R528, R539) -/

/-- R503, R504, R505, R512, R522: losing the input, a rail or REFCLK resets everything that a reset does not keep. R508 to R510, R515, R516: a filter takes a level, and an accepted edge has its effect; the 17th change within 10 ms makes the input racing at its asserted level. -/
def Obligations.PinsAndRailsAct : Prop :=
  ∀ s : State,
    (∃ t, exec .inputLoss s = .next t ∧ Wiped s t ∧ t.pwr.inputOk = false ∧ t.pwr.railsOn = false ∧ t.pwr.phase = .off ∧ t.pwr.lostInput = true ∧ t.pwr.thermTrip = false ∧ t.pwr.faultN = false)
    ∧ (s.pwr.inputOk = false → exec .inputRestore s = .next { s with pwr := { s.pwr with inputOk := true, railsOn := true, phase := .reset, t0 := max s.pwr.t0 s.now } })
    ∧ (∀ r, s.pwr.railsOn = true → ∃ t, exec (.railFault r) s = .next t ∧ Wiped s t ∧ t.pwr.railsOn = false ∧ t.pwr.railFault = true ∧ t.pwr.faultN = true ∧ t.pwr.phase = .off ∧ t.glb.cause = s.glb.cause)
    ∧ (s.pwr.inputOk = true → ∃ t, exec .refclkLoss s = .next t ∧ Wiped s t ∧ t.pwr.refclk = false ∧ t.pwr.refclkStop = true ∧ t.pwr.faultN = true ∧ t.pwr.phase = .off)
    ∧ (∀ (p : Pin) (level : Bool) (f g : Filter) (v : State), f = s.pwr.pins[pinIndex p] → g = f.take level s.now →
      (s.pwr.inputOk = true → f.racing = false → f.holdUntil = none → f.level ≠ level → v = ({ s with pwr := { s.pwr with refclk := true } } : State) →
        (g.level = level ∧ g.holdUntil = some (s.now + 250000) ∧ g.racing = false)
        ∧ (g.changes.length ≤ 16 → exec (.slowInputAccept p level) s = .next ((v.modPin p fun _ => g).pinEffect p level false)
          ∧ (∀ t, exec (.slowInputAccept p level) s = .next t →
            (p = .resetN → level = false → Wiped s t ∧ t.pwr.phase = .reset ∧ t.pwr.pins[pinIndex p] = g ∧ t.pwr.nextCause.getLsbD 1 = true)
            ∧ (p = .pwrGood → level = false → Wiped s t ∧ t.pwr.phase = .reset ∧ t.pwr.nextCause.getLsbD 0 = true)
            ∧ (p = .resetN → level = true → t.pwr.t0 = max s.pwr.t0 s.now ∧ t.cores = s.cores ∧ t.mem = s.mem) ∧ (p = .pwrGood → level = true → t.pwr.t0 = s.now + 50000000 ∧ t.cores = s.cores ∧ t.mem = s.mem)
            ∧ (p = .hostPerstN → level = false → t = (v.modPin p fun _ => g).portDown ∧ t.larcy.up = false ∧ (s.larcy.up = false → t.cores = s.cores ∧ t.mem = s.mem)) ∧ (p = .hostPerstN → level = true → t.larcy = s.larcy ∧ t.cores = s.cores) ∧ (p = .throttleN → t = v.modPin p fun _ => g)))
        ∧ (16 < g.changes.length → level = true → ∃ t, exec (.slowInputAccept p level) s = .next t ∧ t.pwr.pins[pinIndex p] = { g with level := false, racing := true, changes := [] } ∧ t.glb.raceCount = satAdd s.glb.raceCount 1
          ∧ t.cores = s.cores ∧ t.mem = s.mem)
        ∧ (16 < g.changes.length → level = false → ∃ t, exec (.slowInputAccept p level) s = .next t ∧ t.pwr.pins[pinIndex p] = { g with level := false, racing := true, changes := [] } ∧ (p = .resetN → Wiped s t)))
      ∧ ((f.racing = true ∨ f.level = level) → exec (.slowInputAccept p level) s = .next s)
      ∧ (∀ d held, f.holdUntil = some d → (held = none ∨ held = some f.level) → ∃ t, exec (.filterHoldoffEnd p held) s = .next t ∧ t.pwr.pins[pinIndex p] = { f with holdUntil := none } ∧ t.now = max s.now d ∧ t.cores = s.cores ∧ t.mem = s.mem)
      ∧ (∀ d u, f.holdUntil = some d → f.racing = false → f.level ≠ level → u = (s.reach d).modPin p (fun y => { y with holdUntil := none }) → exec (.filterHoldoffEnd p (some level)) s = .next (u.acceptPin p level))
      ∧ (∀ u, f.racing = true → u = s.modPin p (fun y => { y with level := level, racing := false, changes := [], holdUntil := some (s.now + 250000) }) →
        (f.level = level → exec (.racingEnd p level) s = .next u) ∧ (f.level ≠ level → exec (.racingEnd p level) s = .next (u.pinEffect p level false)))
      ∧ (f.racing = false → exec (.racingEnd p level) s = .next s))

/-- R310, R314, R466, R469, R470, R472, R514, R522, R527: a start latches its causes, boots the preferred firmware slot or else the other, and trains the links; READY rises once firmware runs, both tuyeres are there and a hearth trains. R521, R528, R539: a die at 115 °C trips the module and ends every task. -/
def Obligations.StartUpAndThermalTripAct : Prop :=
  ∀ (s : State),
    (s.canStart = true → s.sec.fwOk = false → ∃ t, exec .startupBegin s = .next t ∧ t.now = max s.now s.pwr.t0 ∧ t.pwr.phase = .starting ∧ t.glb.cause = s.startCause ∧ t.pwr.nextCause = 0 ∧ t.mem = s.mem ∧ t.cores = s.cores
      ∧ (s.fwSlotStatus s.sec.preferB = 0 → t.sec.fwOk = true ∧ t.sec.bootStatus = 0 ∧ t.sec.slotB = s.sec.preferB ∧ t.sec.fallback = false ∧ t.sec.fwRunning = s.fwSlot s.sec.preferB ∧ (∀ l : Fin 128, (t.fab.links[l]).mode = .training))
      ∧ (s.fwSlotStatus s.sec.preferB ≠ 0 → s.fwSlotStatus (!s.sec.preferB) = 0 → t.sec.fwOk = true ∧ t.sec.bootStatus = 0 ∧ t.sec.slotB = !s.sec.preferB ∧ t.sec.fallback = true)
      ∧ (s.fwSlotStatus s.sec.preferB ≠ 0 → s.fwSlotStatus (!s.sec.preferB) ≠ 0 → t.sec.fwOk = false ∧ t.sec.bootStatus = s.fwSlotStatus s.sec.preferB ∧ t.pwr.faultN = true ∧ t.fab = s.fab))
    ∧ (s.canStart = false → exec .startupBegin s = .next s)
    ∧ (∀ r : TrainResult, s.pwr.phase = .starting → s.sec.fwOk = true → r.tyPresent = 3 →
      ((∃ h, s.startFence r h = none) → ∃ t, exec (.readyAssert r) s = .next t ∧ t.pwr.ready = true ∧ t.pwr.phase = .ready ∧ t.pwr.readyAt = s.now
        ∧ t.mem.hbm = [] ∧ t.mem.badHbm = [] ∧ t.mem.replays = [] ∧ t.mem.vault = s.mem.vault ∧ t.glb.vaultPresent = r.vaultTrained
        ∧ t.mem.repairLog = s.mem.repairLog.filter (fun y => !Config.hardRepairWorks y.stack.val y.bank y.row) ∧ (∀ h : Fin 8, t.glb.hrtPresent.getLsbD h.val = (s.startFence r h).isNone)
        ∧ (∀ n : Fin 32, (s.mem.stk[n]).hot = false → (t.mem.stk[n]).mode = if (s.startFence r (stackHearth n)).isSome then .fenced else .inService)
        ∧ (∀ h k, (s.startFence r h).isSome = true → k < 16 → (t.fab.links[linkOf h k]).mode = .fenced) ∧ ((∃ h, (s.startFence r h).isSome = true) → t.pwr.faultN = true)
        ∧ ((∀ h, s.startFence r h = none) → t.cores = s.cores ∧ t.mem.host = s.mem.host ∧ t.fab = s.fab ∧ t.pwr.faultN = s.pwr.faultN))
      ∧ ((∀ h, (s.startFence r h).isSome = true) → ∃ t, exec (.readyAssert r) s = .next t ∧ t.pwr.phase = .starting ∧ t.pwr.ready = s.pwr.ready ∧ t.pwr.faultN = true))
    ∧ (s.pwr.phase ≠ .starting → ∀ r, exec (.readyAssert r) s = .next s)
    ∧ (∀ (d : Fin 10) (x : Nat) (y : BitVec 8), y = BitVec.ofNat 8 (min x 255) →
      ((x < 230 ∨ s.pwr.dieTrip = true) → exec (.dieTempSample d x) s = .next { s with glb := { s.glb with dieTemp := s.glb.dieTemp.set d (y, if s.glb.dieTemp[d].2 < y then y else s.glb.dieTemp[d].2) } })
      ∧ (230 ≤ x → s.pwr.dieTrip = false → ∃ t, exec (.dieTempSample d x) s = .next t ∧ t.pwr.dieTrip = true ∧ t.pwr.thermTrip = true ∧ t.cores = s.cores ∧ (t.glb.dieTemp[d]).1 = y
        ∧ (∀ (p : Fin 8) k, s.parts[p].task = some k → k.ending = none → (t.parts[p].task.bind (·.ending)).map (·.status) = some 0x0902)
        ∧ (∀ p : Fin 8, s.parts[p].task = none → s.parts[p].mode ≠ .none → t.parts[p].mode = .outOfService)))

/-! Register writes and firmware (R8, R10, R17, R115, R335, R336, R374 to R378, R404, R443, R469, R471, R481, R533, R546) -/

/-- R8, R10, R17, R115, R116, R302, R335, R336, R374 to R378, R390, R404, R443, R533, R546: a written register takes the value that its rule gives, keeps it where it is reserved, and holds it while a job runs where the rule says so; a write that is not one aligned word, and every write in D3hot, is discarded. R469, R471, R481: firmware updates and installation mode. -/
def Obligations.RegisterWritesAct : Prop :=
  ∀ (s : State) (v : BitVec 32),
    (s.larcy.d3hot = true → ∀ cmd, cmd ∈ ([.glbBridgeCtlWrite v, .glbPartCfgWrite v, .memSpreadWrite v, .memHdmCtlWrite v, .fabModuleIdWrite v, .fabCtlWrite v, .fabFrameCfgWrite v, .fabVcWeightHiWrite v, .glbEvlogSelWrite v,
      .fwUpdateGo v, .installModeWrite v, .registerWrite 0 4 (v.setWidth 64)] : List Instr) → exec cmd s = .next s)
    ∧ (s.larcy.d3hot = false →
      (∀ x, x = v.toNat / 16 % 16 →
        ((x = 0 ∨ 8 < x) → exec (.glbBridgeCtlWrite v) s = .next s) ∧ (1 ≤ x → x ≤ 8 → s.jobHeld = true → exec (.glbBridgeCtlWrite v) s = .next { s with glb := { s.glb with bridgeHeld := some v } })
        ∧ (1 ≤ x → x ≤ 8 → s.jobHeld = false → exec (.glbBridgeCtlWrite v) s = .next { s with glb := { s.glb with svcShare := BitVec.ofNat 4 x } }))
      ∧ (∀ start u, start = 1 + 2 * (v.toNat / 2 % 128) → u = ({ s with glb := { s.glb with reject := s.glb.reject && !v.getLsbD 31 } } : State) →
        (startOk start = false → exec (.glbPartCfgWrite v) s = .next u) ∧ (startOk start = true → s.layoutOk start = false → exec (.glbPartCfgWrite v) s = .next { s with glb := { s.glb with reject := true } })
        ∧ (startOk start = true → s.layoutOk start = true → ∃ t, exec (.glbPartCfgWrite v) s = .next t ∧ t.cores = s.cores ∧ ∀ p : Fin 8, (start.testBit p.val = false → t.parts[p].mode = .none)
          ∧ (start.testBit p.val = true → s.parts[p].mode ≠ .none → startSize start p.val = s.partSize p → t.parts[p].mode = s.parts[p].mode)
          ∧ (start.testBit p.val = true → (s.parts[p].mode = .none ∨ startSize start p.val ≠ s.partSize p) → t.parts[p].mode = .stopped)))
      ∧ (∃ t, exec (.memSpreadWrite v) s = .next t ∧ { t with mem := s.mem } = s ∧ { t.mem with spread := s.mem.spread } = s.mem
        ∧ ∀ p : Fin 8, t.mem.spread.getLsbD p.val = if s.parts[p].mode = .none ∨ s.parts[p].mode = .stopped then v.getLsbD p.val else s.mem.spread.getLsbD p.val)
      ∧ (∀ base size, base = v.toNat / 2 ^ 16 % 2 ^ 12 → size = v.toNat % 2 ^ 12 →
        ((2047 < base ∨ 2048 < base + size) → exec (.memHdmCtlWrite v) s = .next s) ∧ (base ≤ 2047 → base + size ≤ 2048 → s.jobHeld = true → exec (.memHdmCtlWrite v) s = .next { s with mem := { s.mem with hdmHeld := some v } })
        ∧ (base ≤ 2047 → base + size ≤ 2048 → s.jobHeld = false → exec (.memHdmCtlWrite v) s = .next { s with mem := { s.mem with hdmBase := BitVec.ofNat 12 base, hdmSize := BitVec.ofNat 12 size } }))
      ∧ (s.jobHeld = true → exec (.fabModuleIdWrite v) s = .next (s.modFab fun x => { x with idHeld := some v }) ∧ exec (.fabCtlWrite v) s = .next (s.modFab fun x => { x with ctlHeld := some v }))
      ∧ (s.jobHeld = false → exec (.fabModuleIdWrite v) s = .next (s.modFab fun x => { x with moduleId := v.setWidth 16 }) ∧ ∃ t, exec (.fabCtlWrite v) s = .next t ∧ t = s.modFab (fun _ => t.fab)
        ∧ t.fab = { s.fab with stripe := t.fab.stripe, protoMax := t.fab.protoMax, modes := t.fab.modes } ∧ t.fab.stripe.toNat = (if v.toNat / 256 % 256 = 0 then s.fab.stripe.toNat else v.toNat / 256 % 256)
        ∧ t.fab.modes.toNat = (if v.toNat % 8 = 0 then s.fab.modes.toNat else v.toNat % 8) ∧ t.fab.protoMax.toNat = (if v.toNat / 16 % 4 = 1 ∨ v.toNat / 16 % 4 = 2 then v.toNat / 16 % 4 else s.fab.protoMax.toNat))
      ∧ ((∃ p ∈ s.fab.pairs, p.up = true) → exec (.fabFrameCfgWrite v) s = .next s)
      ∧ ((∀ p ∈ s.fab.pairs, p.up = false) → ∃ t, exec (.fabFrameCfgWrite v) s = .next t ∧ t = s.modFab (fun _ => t.fab) ∧ t.fab = { s.fab with macPrefix := t.fab.macPrefix, etherType := t.fab.etherType }
        ∧ t.fab.etherType.toNat = (if 0x0600 ≤ v.toNat % 2 ^ 16 then v.toNat % 2 ^ 16 else s.fab.etherType.toNat) ∧ t.fab.macPrefix = (if v.getLsbD 24 = false ∧ v.getLsbD 25 = true then (v >>> 16).setWidth 16 else s.fab.macPrefix))
      ∧ (∀ ws hi, hi = writeWeights s.fab.vcHi v → ws = [0, 8, 16, 24].map (weightAt s.fab.vcLo) ++ [0, 8, 16, 24].map (weightAt hi) → ∃ t, exec (.fabVcWeightHiWrite v) s = .next t ∧ t = s.modFab (fun _ => t.fab) ∧ t.fab.vcHi = hi
        ∧ (ws.sum = 64 → 1 ≤ ws.headD 0 → t.fab.vcBad = false ∧ ∀ i : Fin 8, (t.fab.vcSet[i]).toNat = ws.getD i.val 0) ∧ (ws.sum ≠ 64 ∨ ws.headD 0 = 0 → t.fab.vcBad = true ∧ t.fab.vcSet = s.fab.vcSet))
      ∧ (∃ t, exec (.glbEvlogSelWrite v) s = .next t ∧ { t with glb := s.glb } = s ∧ t.glb.evSel = v ∧ t.glb.evlog = s.glb.evlog
        ∧ (s.glb.evAt ≠ s.now → s.evShown = s.glb.evlog)
        ∧ (∀ x, s.evShown.find? (fun (y : BitVec 256) => decide ((y >>> 64).setWidth 32 = v)) = some x → t.glb.evData = x ∧ t.glb.evMiss = false)
        ∧ ((∀ y ∈ s.evShown, (y >>> 64).setWidth 32 ≠ v) → t.glb.evData = 0 ∧ t.glb.evMiss = true))
      ∧ (∀ off size x, (size ≠ 4 ∨ off % 4 ≠ 0) → exec (.registerWrite off size x) s = .next s)
      ∧ (∀ (h : Fin 8) (n : Fin 64), s.glb.hrtPresent.getLsbD h.val = true →
        exec (.registerWrite (0x100000 * (h.val + 1) + 0x100) 4 (v.setWidth 64)) s = .next (s.modHearth h fun y => { y with waitLimit := if v = 0 then y.waitLimit else v })
        ∧ exec (.registerWrite (0x100000 * (h.val + 1) + 0x10000 + 0x20 * n.val) 4 (v.setWidth 64)) s = .next (s.modWctr h n fun w => { w with value := v })
        ∧ exec (.registerWrite (0x100000 * (h.val + 1) + 0x10004 + 0x20 * n.val) 4 (v.setWidth 64)) s = .next (s.modWctr h n fun w => { w with limit := v }))
      ∧ (v.getLsbD 0 = true → s.sec.fwBusy = false →
        exec (.fwUpdateGo v) s = .next { s with sec := { s.sec with fwBusy := true, fwFrom := BitVec.ofNat 64 (s.sec.stageHi.toNat * 2 ^ 32 + s.sec.stageLo.toNat * 64), fwSize := s.sec.stageSize } })
      ∧ (v.getLsbD 0 = false ∨ s.sec.fwBusy = true → exec (.fwUpdateGo v) s = .next s)
      ∧ (v.getLsbD 0 = true → (∀ p : Fin 8, s.parts[p].mode = .none ∨ s.parts[p].mode = .stopped) → exec (.installModeWrite v) s = .next { s with sec := { s.sec with instMode := true } })
      ∧ (v.getLsbD 0 = true → (∃ p : Fin 8, s.parts[p].mode ≠ .none ∧ s.parts[p].mode ≠ .stopped) → exec (.installModeWrite v) s = .next s)
      ∧ (v.getLsbD 0 = false → s.sec.instActive = false → exec (.installModeWrite v) s = .next { s with sec := { s.sec with instMode := false } }) ∧ (v.getLsbD 0 = false → s.sec.instActive = true → exec (.installModeWrite v) s = .next s))
    ∧ (s.sec.fwBusy = true → ∀ img, img = parseFw (readBytes s.mem.host s.sec.fwFrom.toNat s.sec.fwSize.toNat) →
      (∃ t, exec (.fwUpdateDone false) s = .next t ∧ t.sec = { s.sec with fwResult := 0x0304, fwBusy := false })
      ∧ (s.hostUp = true → img = none → ∃ t, exec (.fwUpdateDone true) s = .next t ∧ t.sec = { s.sec with fwResult := 0x0801, fwBusy := false })
      ∧ (∀ f, s.hostUp = true → img = some f → s.fwStatus f ≠ 0 → ∃ t, exec (.fwUpdateDone true) s = .next t ∧ t.sec = { s.sec with fwResult := s.fwStatus f, fwBusy := false })
      ∧ (∀ f, s.hostUp = true → img = some f → s.fwStatus f = 0 → ∃ t, exec (.fwUpdateDone true) s = .next t ∧ t.sec.fwBusy = false ∧ t.sec.fwResult = 0 ∧ t.sec.preferB = !s.sec.preferB ∧ t.sec.counter = s.sec.counter
        ∧ t.sec.fwRunning = s.sec.fwRunning ∧ t.fwSlot (!s.sec.preferB) = some f ∧ t.fwSlot s.sec.preferB = s.fwSlot s.sec.preferB))

/-! Check-value units (R489 to R502) -/

/-- R489 to R497, R500: a write waits in its slot's queue; START begins with the fold word, data writes absorb their bytes, a write of the running value replaces its half below the active width, and the result is that of the algorithm over the fold word and the bytes; a read sees every accepted write. A snoop port attaches, and its oldest result is taken. -/
def Obligations.CheckUnitsCompute : Prop :=
  (∀ (s : State) (n : Fin 256) (c : ChkSlot) (v : BitVec 32), c = s.chk[n] →
    (∀ reg, s.larcy.d3hot = true ∨ s.chkServed n = false ∨ chkWritable reg = false → exec (.chkSlotWrite n reg v) s = .next s)
    ∧ (∀ reg w r, s.larcy.d3hot = false → s.chkServed n = true → chkWritable reg = true → c.queue = w :: r → chkFree w = false → c.queue.length < 16 →
      exec (.chkSlotWrite n reg v) s = .next (s.modChk n fun _ => { c with queue := c.queue ++ [(reg, v)] }))
    ∧ (s.larcy.d3hot = false → s.chkServed n = true → c.queue = [] →
      exec (.chkSlotWrite n .data8 v) s = .next (s.modChk n fun _ => { c with queue := [(.data8, v)] })
      ∧ exec (.chkSlotWrite n .foldLo v) s = .next (s.modChk n fun _ => { c with fold := (c.fold >>> 32) <<< 32 ||| v.setWidth 64 }))
    ∧ (c.queue = [(.ctl, v)] → v.getLsbD 8 = true → ∃ t, exec (.chkStart n) s = .next t ∧ t = s.modChk n (fun _ => t.chk[n]) ∧ t.chk[n] = { c with poly := v.setWidth 2, active := v.setWidth 2, count := 8, queue := [], value := crcBytes (v.setWidth 2) (crcInit (v.setWidth 2)) (toLE c.fold.toNat 8) })
    ∧ (∀ reg k cmd, (reg, k, cmd) ∈ ([(.data8, 1, .chkData8 n), (.data16, 2, .chkData16 n), (.data32, 4, .chkData32 n)] : List (ChkReg × Nat × Instr)) → c.queue = [(reg, v)] →
      exec cmd s = .next (s.modChk n fun _ => { c with value := crcBytes c.active c.value (toLE v.toNat k), count := satAdd c.count k, queue := [] }))
    ∧ (c.queue = [(.valLo, v)] → exec (.chkValWrite n) s = .next (s.modChk n fun _ => { c with value := ((c.value >>> 32) <<< 32 ||| v.setWidth 64) &&& crcInit c.active, queue := [] }))
    ∧ (c.queue = [(.valHi, v)] → exec (.chkValWrite n) s = .next (s.modChk n fun _ => { c with value := ((c.value.setWidth 32).setWidth 64 ||| v.setWidth 64 <<< 32) &&& crcInit c.active, queue := [] }))
    ∧ (c.queue = [] → exec (.chkStart n) s = .next s ∧ exec (.chkData8 n) s = .next s ∧ exec (.chkData16 n) s = .next s ∧ exec (.chkData32 n) s = .next s ∧ exec (.chkValWrite n) s = .next s)
    ∧ (s.larcy.d3hot = false → s.chkServed n = false → ∀ reg, exec (.chkRead n reg) s = .next { s with reply := .word 0 })
    ∧ (s.larcy.d3hot = false → s.chkServed n = true → ∃ t, exec (.chkRead n .resultLo) s = .next t ∧ t.chk[n] = c.queue.foldl (fun k w => k.apply w.1 w.2) { c with queue := [] }
      ∧ t.reply = .word ((crcResult (t.chk[n]).active (t.chk[n]).value).setWidth 32) ∧ ∀ m : Fin 256, m ≠ n → t.chk[m] = s.chk[m]))
  ∧ (∀ (c : ChkSlot) (v : W32) (data : List Byte), v.getLsbD 8 = true →
    crcResult (v.setWidth 2) (data.foldl (fun k b => k.apply .data8 (b.setWidth 32)) (c.apply .ctl v)).value = crcResult (v.setWidth 2) (crcBytes (v.setWidth 2) (crcInit (v.setWidth 2)) (toLE c.fold.toNat 8 ++ data)))
  ∧ ([0, 1, 2, 3].map (fun p : BitVec 2 => crcResult p (crcBytes p (crcInit p) (ascii "123456789"))) = [0xE3069283, 0xCBF43926, 0x995DC9BBDF1939FA, 0x29B1])
  ∧ (∀ (s : State) (p : Fin 16) (a : Option SnoopStream) (poly : BitVec 2), exec (.snoopPortAttach p a poly) s = .next { s with snoop := s.snoop.set p { s.snoop[p] with stream := a, poly := poly } }
    ∧ (∀ x r, s.snoop[p].results = x :: r → exec (.snoopResultDequeue p) s = .next { s with reply := .data (toLE x.toNat 16), snoop := s.snoop.set p { s.snoop[p] with results := r } })
    ∧ (s.snoop[p].results = [] → exec (.snoopResultDequeue p) s = .next { s with reply := .none }))

/-! Reset (R404, R405, R505) -/

/-- Registers of BAR0 read after reset as their rules give them; one partition, IDLE, and no command waits. -/
def Obligations.ResetValues : Prop :=
  State.reset.pending = [] ∧ (∀ p : Fin 8, State.reset.parts[p].mode = if p = 0 then .idle else .none)
  ∧ ∀ x ∈ ([(0x0000004, 0xFFFF8300), (0x0000008, 0x20), (0x0000010, 1), (0x0000018, 0x0000000A), (0x0000020, 0x0000000C), (0x0100100, 0x000186A0), (0x0100500, 0x000003E8), (0x0900000, 0x00003066), (0x0B00100, 5), (0x0B001C0, 0),
    (0x0C00008, 0x00004027), (0x0C0000C, 0x00000032), (0x0C00010, 0x08101C04), (0x0C00014, 0x02020202)] : List (Nat × Nat)), (State.reset.readReg x.1).toNat = x.2
  ∧ (State.reset.readReg 0).toNat = if Config.isA1 then 0x013201B0 else 0x013204B0
end

