-- ==== Sys2Proof/Laws/Bytes.lean ====
section
/-! SUPPORT. The laws of sparse memories: read after write, what a write leaves alone, and that every memory operation keeps the canonical form. -/

namespace Sys2Proof.Machine

variable {α : Type} [DecidableEq α] {z : α}

/-- A lower bound of a canonical map may be lowered. -/
theorem twf_lower {m : List (Nat × α)} {lo : Option Nat} (h : twf z lo m = true) : twf z none m = true := by
  cases m with
  | nil => rfl
  | cons c r =>
    obtain ⟨k, x⟩ := c
    simp only [twf, Bool.and_eq_true] at h ⊢
    exact ⟨⟨trivial, h.1.2⟩, h.2⟩

/-- A canonical map with every key above `l` is one with every key above a lower bound. -/
theorem twf_mono {m : List (Nat × α)} {l l' : Nat} (h : twf z (some l) m = true) (hl : l' ≤ l) : twf z (some l') m = true := by
  cases m with
  | nil => rfl
  | cons c r =>
    obtain ⟨k, x⟩ := c
    simp only [twf, Bool.and_eq_true, decide_eq_true_eq] at h ⊢
    exact ⟨⟨by omega, h.1.2⟩, h.2⟩

/-- A key at or below the bound of a canonical map reads as the default. -/
theorem tget_below {m : List (Nat × α)} {l a : Nat} (h : twf z (some l) m = true) (ha : a ≤ l) : tget z m a = z := by
  cases m with
  | nil => rfl
  | cons c r =>
    obtain ⟨k, x⟩ := c
    simp only [twf, Bool.and_eq_true, decide_eq_true_eq] at h
    have : a < k := by omega
    simp [tget, this, Nat.ne_of_lt this]

/-- A write keeps the canonical form above any bound below the key. -/
theorem twf_tset {m : List (Nat × α)} {a : Nat} {y : α} : ∀ {lo : Option Nat}, twf z lo m = true → (∀ l, lo = some l → l < a) → twf z lo (tset z m a y) = true := by
  induction m with
  | nil =>
    intro lo _ hl
    by_cases hy : y = z
    · simp [tset, hy, twf]
    · cases lo with
      | none => simp [tset, hy, twf]
      | some l => simp [tset, hy, twf, hl l rfl]
  | cons c r ih =>
    obtain ⟨k, x⟩ := c
    intro lo h hl
    simp only [twf, Bool.and_eq_true] at h
    unfold tset
    split
    · rename_i hk
      split
      · simp only [twf, Bool.and_eq_true]; exact h
      · rename_i hy
        simp only [twf, Bool.and_eq_true, decide_eq_true_eq]
        refine ⟨⟨?_, hy⟩, ⟨hk, by simpa using h.1.2⟩, h.2⟩
        cases lo with
        | none => rfl
        | some l => simpa using hl l rfl
    · split
      · rename_i hk
        subst hk
        split
        · cases lo with
          | none => exact twf_lower h.2
          | some l => exact twf_mono h.2 (Nat.le_of_lt (hl l rfl))
        · rename_i hy
          simp only [twf, Bool.and_eq_true, decide_eq_true_eq]
          exact ⟨⟨h.1.1, hy⟩, h.2⟩
      · rename_i hk hk'
        simp only [twf, Bool.and_eq_true]
        exact ⟨h.1, ih h.2 (fun l hl' => by cases hl'; omega)⟩

/-- Read after write at the same key. -/
theorem tget_tset_same (m : List (Nat × α)) (a : Nat) (y : α) : ∀ {lo : Option Nat}, twf z lo m = true → tget z (tset z m a y) a = y := by
  induction m with
  | nil => intro _ _; by_cases hy : y = z <;> simp [tset, hy, tget]
  | cons c r ih =>
    obtain ⟨k, x⟩ := c
    intro lo h
    simp only [twf, Bool.and_eq_true] at h
    unfold tset
    split
    · rename_i hk
      split
      · rename_i hy; subst hy; simp [tget, hk, Nat.ne_of_lt hk]
      · simp [tget]
    · split
      · rename_i hk
        subst hk
        split
        · rename_i hy; rw [hy]; exact tget_below h.2 (Nat.le_refl _)
        · simp [tget]
      · rename_i h1 h2
        simp only [tget, h1, h2, if_false]
        exact ih h.2

/-- A write leaves every other key alone. -/
theorem tget_tset_other (m : List (Nat × α)) {a b : Nat} (y : α) (hab : b ≠ a) : ∀ {lo : Option Nat}, twf z lo m = true → tget z (tset z m a y) b = tget z m b := by
  induction m with
  | nil => intro _ _; by_cases hy : y = z <;> simp [tset, hy, tget, hab]
  | cons c r ih =>
    obtain ⟨k, x⟩ := c
    intro lo h
    simp only [twf, Bool.and_eq_true] at h
    unfold tset
    split
    · rename_i hk
      split
      · rfl
      · by_cases hb : b < a
        · have : b ≠ k := by omega
          have hbk : b < k := by omega
          simp [tget, hab, hb, this, hbk]
        · simp [tget, hab, hb]
    · split
      · rename_i hk
        subst hk
        split
        · by_cases hb : b < a
          · simp only [tget, hab, hb, if_true, if_false]
            exact tget_below h.2 (Nat.le_of_lt hb)
          · simp [tget, hab, hb]
        · simp [tget, hab]
      · rename_i h1 h2
        simp only [tget]
        rw [ih h.2]

/-! Byte memories -/

/-- One byte written keeps the canonical form. -/
theorem writeByte_wf {m : List Host.Cell} {a : Nat} {b : Byte} (h : Memory.wf m = true) : Memory.wf (writeByte m a b) = true :=
  twf_tset h (fun _ hl => by cases hl)

/-- Bytes written keep the canonical form. -/
theorem writeBytes_wf (bs : List Byte) : ∀ {m : List Host.Cell} {a : Nat}, Memory.wf m = true → Memory.wf (writeBytes m a bs) = true := by
  induction bs with
  | nil => intro _ _ h; exact h
  | cons b r ih => intro _ _ h; exact ih (writeByte_wf h)

/-- Bytes written under a mask keep the canonical form. -/
theorem writeMasked_wf (bs : List (Option Byte)) : ∀ {m : List Host.Cell} {a : Nat}, Memory.wf m = true → Memory.wf (writeMasked m a bs) = true := by
  induction bs with
  | nil => intro _ _ h; exact h
  | cons b r ih =>
    intro _ _ h
    cases b with
    | none => exact ih h
    | some b => exact ih (writeByte_wf h)

/-- A filter keeps the canonical form of any map. -/
theorem twf_filter (p : Nat × α → Bool) (m : List (Nat × α)) : ∀ {lo : Option Nat}, twf z lo m = true → twf z lo (m.filter p) = true := by
  induction m with
  | nil => intro _ h; exact h
  | cons c r ih =>
    obtain ⟨k, x⟩ := c
    intro lo h
    simp only [twf, Bool.and_eq_true] at h
    by_cases hp : p (k, x) = true
    · rw [List.filter_cons_of_pos hp]
      simp only [twf, Bool.and_eq_true]
      exact ⟨h.1, ih h.2⟩
    · rw [List.filter_cons_of_neg hp]
      cases lo with
      | none => exact ih (twf_lower h.2)
      | some l => exact ih (twf_mono h.2 (by have := h.1.1; simp only [decide_eq_true_eq] at this; omega))

/-- Zeroing a range keeps the canonical form. -/
theorem clearRange_wf {m : List Host.Cell} {lo hi : Nat} (h : Memory.wf m = true) : Memory.wf (clearRange m lo hi) = true := twf_filter _ m h

/-- Read after write of one byte. -/
theorem readByte_writeByte_same {m : List Host.Cell} {a : Nat} {b : Byte} (h : Memory.wf m = true) : readByte (writeByte m a b) a = b := tget_tset_same m a b h

/-- A byte written leaves every other byte alone. -/
theorem readByte_writeByte_other {m : List Host.Cell} {a x : Nat} {b : Byte} (h : Memory.wf m = true) (hx : x ≠ a) : readByte (writeByte m a b) x = readByte m x :=
  tget_tset_other m b hx h

/-- Bytes written leave every byte outside them alone. -/
theorem readByte_writeBytes_outside (bs : List Byte) : ∀ {m : List Host.Cell} {a x : Nat}, Memory.wf m = true → x < a ∨ a + bs.length ≤ x → readByte (writeBytes m a bs) x = readByte m x := by
  induction bs with
  | nil => intro _ _ _ _ _; rfl
  | cons b r ih =>
    intro m a x h hx
    simp only [List.length_cons] at hx
    rw [writeBytes, ih (writeByte_wf h) (by omega), readByte_writeByte_other h (by omega)]

/-- Bytes written read back. -/
theorem readByte_writeBytes_inside (bs : List Byte) : ∀ {m : List Host.Cell} {a : Nat} (i : Nat) (hi : i < bs.length), Memory.wf m = true → readByte (writeBytes m a bs) (a + i) = bs[i] := by
  induction bs with
  | nil => intro _ _ i hi; simp at hi
  | cons b r ih =>
    intro m a i hi h
    cases i with
    | zero =>
      show readByte (writeBytes (writeByte m a b) (a + 1) r) a = b
      rw [readByte_writeBytes_outside r (writeByte_wf h) (by omega), readByte_writeByte_same h]
    | succ i =>
      have := ih (m := writeByte m a b) (a := a + 1) i (by simpa using hi) (writeByte_wf h)
      rw [writeBytes]
      simpa [Nat.add_assoc, Nat.add_comm 1 i] using this

/-- Bytes written read back as they were written. -/
theorem readBytes_writeBytes {m : List Host.Cell} (a : Nat) (bs : List Byte) (h : Memory.wf m = true) : readBytes (writeBytes m a bs) a bs.length = bs := by
  apply List.ext_getElem
  · simp [readBytes]
  · intro i h1 h2
    simp only [readBytes, List.getElem_map, List.getElem_range]
    exact readByte_writeBytes_inside bs i h2 h

end Sys2Proof.Machine
end

