-- ==== Sys2Proof/Laws/Exec.lean ====
section
/-! SUPPORT. The meaning that each command has: one equation for each constructor of `Instr` (Machine/Dispatch.lean). -/

namespace Sys2Proof.Machine

variable (s : State)

theorem exec_nop (u : Issue) (slot : SlotId) : exec (.nop u slot) s = execNop u slot s := rfl
theorem exec_add (u : Issue) (rd ra rb : Fin 32) : exec (.add u rd ra rb) s = execAdd u rd ra rb s := rfl
theorem exec_sub (u : Issue) (rd ra rb : Fin 32) : exec (.sub u rd ra rb) s = execSub u rd ra rb s := rfl
theorem exec_and (u : Issue) (rd ra rb : Fin 32) : exec (.and u rd ra rb) s = execAnd u rd ra rb s := rfl
theorem exec_or (u : Issue) (rd ra rb : Fin 32) : exec (.or u rd ra rb) s = execOr u rd ra rb s := rfl
theorem exec_xor (u : Issue) (rd ra rb : Fin 32) : exec (.xor u rd ra rb) s = execXor u rd ra rb s := rfl
theorem exec_shl (u : Issue) (rd ra rb : Fin 32) : exec (.shl u rd ra rb) s = execShl u rd ra rb s := rfl
theorem exec_shr (u : Issue) (rd ra rb : Fin 32) : exec (.shr u rd ra rb) s = execShr u rd ra rb s := rfl
theorem exec_sra (u : Issue) (rd ra rb : Fin 32) : exec (.sra u rd ra rb) s = execSra u rd ra rb s := rfl
theorem exec_mul (u : Issue) (rd ra rb : Fin 32) : exec (.mul u rd ra rb) s = execMul u rd ra rb s := rfl
theorem exec_mulhu (u : Issue) (rd ra rb : Fin 32) : exec (.mulhu u rd ra rb) s = execMulhu u rd ra rb s := rfl
theorem exec_min (u : Issue) (rd ra rb : Fin 32) : exec (.min u rd ra rb) s = execMin u rd ra rb s := rfl
theorem exec_max (u : Issue) (rd ra rb : Fin 32) : exec (.max u rd ra rb) s = execMax u rd ra rb s := rfl
theorem exec_addi (u : Issue) (rd ra : Fin 32) (imm : BitVec 32) : exec (.addi u rd ra imm) s = execAddi u rd ra imm s := rfl
theorem exec_andi (u : Issue) (rd ra : Fin 32) (imm : BitVec 32) : exec (.andi u rd ra imm) s = execAndi u rd ra imm s := rfl
theorem exec_ori (u : Issue) (rd ra : Fin 32) (imm : BitVec 32) : exec (.ori u rd ra imm) s = execOri u rd ra imm s := rfl
theorem exec_xori (u : Issue) (rd ra : Fin 32) (imm : BitVec 32) : exec (.xori u rd ra imm) s = execXori u rd ra imm s := rfl
theorem exec_shli (u : Issue) (rd ra : Fin 32) (imm : BitVec 32) : exec (.shli u rd ra imm) s = execShli u rd ra imm s := rfl
theorem exec_shri (u : Issue) (rd ra : Fin 32) (imm : BitVec 32) : exec (.shri u rd ra imm) s = execShri u rd ra imm s := rfl
theorem exec_srai (u : Issue) (rd ra : Fin 32) (imm : BitVec 32) : exec (.srai u rd ra imm) s = execSrai u rd ra imm s := rfl
theorem exec_lui (u : Issue) (rd ra : Fin 32) (imm : BitVec 32) : exec (.lui u rd ra imm) s = execLui u rd ra imm s := rfl
theorem exec_cmp (u : Issue) (pd : Fin 8) (cond : BitVec 4) (ra rb : Fin 32) : exec (.cmp u pd cond ra rb) s = execCmp u pd cond ra rb s := rfl
theorem exec_cmpi (u : Issue) (pd : Fin 8) (cond : BitVec 4) (ra : Fin 32) (imm : BitVec 32) : exec (.cmpi u pd cond ra imm) s = execCmpi u pd cond ra imm s := rfl
theorem exec_br (u : Issue) (target : BitVec 13) (rp : Option ReheatPoint) : exec (.br u target rp) s = execBr u target rp s := rfl
theorem exec_brr (u : Issue) (ra : Fin 32) : exec (.brr u ra) s = execBrr u ra s := rfl
theorem exec_loop (u : Issue) (rc : Fin 32) (target : BitVec 13) : exec (.loop u rc target) s = execLoop u rc target s := rfl
theorem exec_call (u : Issue) (target : BitVec 13) : exec (.call u target) s = execCall u target s := rfl
theorem exec_sld (u : Issue) (rd ra : Fin 32) (imm : BitVec 32) : exec (.sld u rd ra imm) s = execSld u rd ra imm s := rfl
theorem exec_sst (u : Issue) (rd ra : Fin 32) (imm : BitVec 32) : exec (.sst u rd ra imm) s = execSst u rd ra imm s := rfl
theorem exec_sysr (u : Issue) (rd : Fin 32) (imm : BitVec 32) : exec (.sysr u rd imm) s = execSysr u rd imm s := rfl
theorem exec_ember (u : Issue) (rd ra rb : Fin 32) (dom : BitVec 8) : exec (.ember u rd ra rb dom) s = execEmber u rd ra rb dom s := rfl
theorem exec_endCore (u : Issue) (num : BitVec 16) : exec (.endCore u num) s = execEndCore u num s := rfl
theorem exec_mxa (u : Issue) (tdA tdB tdD : Fin 16) (asrc : Bool) (rs : Fin 32) : exec (.mxa u tdA tdB tdD asrc rs) s = execMxa u tdA tdB tdD asrc rs s := rfl
theorem exec_fold (u : Issue) (tdA tdB tdD : Fin 16) (asrc : Bool) (rs : Fin 32) (side : Bool) : exec (.fold u tdA tdB tdD asrc rs side) s = execFold u tdA tdB tdD asrc rs side s := rfl
theorem exec_brnd (u : Issue) (b : BrndOp) : exec (.brnd u b) s = execBrnd u b s := rfl
theorem exec_spark (u : Issue) (k : SparkOp) : exec (.spark u k) s = execSpark u k s := rfl
theorem exec_attn (u : Issue) (a : AttnOp) : exec (.attn u a) s = execAttn u a s := rfl
theorem exec_normStat (u : Issue) (n : NormOp) : exec (.normStat u n) s = execNormStat u n s := rfl
theorem exec_normApply (u : Issue) (n : NormOp) : exec (.normApply u n) s = execNormApply u n s := rfl
theorem exec_mInstructionComplete (g : Fin 512) : exec (.mInstructionComplete g) s = execMInstructionComplete g s := rfl
theorem exec_vadd (u : Issue) (vd va vb : Fin 32) : exec (.vadd u vd va vb) s = execVadd u vd va vb s := rfl
theorem exec_vsub (u : Issue) (vd va vb : Fin 32) : exec (.vsub u vd va vb) s = execVsub u vd va vb s := rfl
theorem exec_vmul (u : Issue) (vd va vb : Fin 32) : exec (.vmul u vd va vb) s = execVmul u vd va vb s := rfl
theorem exec_vfma (u : Issue) (vd va vb vc : Fin 32) : exec (.vfma u vd va vb vc) s = execVfma u vd va vb vc s := rfl
theorem exec_vmin (u : Issue) (vd va vb : Fin 32) : exec (.vmin u vd va vb) s = execVmin u vd va vb s := rfl
theorem exec_vmax (u : Issue) (vd va vb : Fin 32) : exec (.vmax u vd va vb) s = execVmax u vd va vb s := rfl
theorem exec_vabs (u : Issue) (vd va : Fin 32) : exec (.vabs u vd va) s = execVabs u vd va s := rfl
theorem exec_vneg (u : Issue) (vd va : Fin 32) : exec (.vneg u vd va) s = execVneg u vd va s := rfl
theorem exec_viadd (u : Issue) (vd va vb : Fin 32) : exec (.viadd u vd va vb) s = execViadd u vd va vb s := rfl
theorem exec_visub (u : Issue) (vd va vb : Fin 32) : exec (.visub u vd va vb) s = execVisub u vd va vb s := rfl
theorem exec_vand (u : Issue) (vd va vb : Fin 32) : exec (.vand u vd va vb) s = execVand u vd va vb s := rfl
theorem exec_vor (u : Issue) (vd va vb : Fin 32) : exec (.vor u vd va vb) s = execVor u vd va vb s := rfl
theorem exec_vxor (u : Issue) (vd va vb : Fin 32) : exec (.vxor u vd va vb) s = execVxor u vd va vb s := rfl
theorem exec_vshl (u : Issue) (vd va vb : Fin 32) : exec (.vshl u vd va vb) s = execVshl u vd va vb s := rfl
theorem exec_vshr (u : Issue) (vd va vb : Fin 32) : exec (.vshr u vd va vb) s = execVshr u vd va vb s := rfl
theorem exec_vsra (u : Issue) (vd va vb : Fin 32) : exec (.vsra u vd va vb) s = execVsra u vd va vb s := rfl
theorem exec_vcmp (u : Issue) (pd : Fin 8) (cond : BitVec 4) (va vb : Fin 32) : exec (.vcmp u pd cond va vb) s = execVcmp u pd cond va vb s := rfl
theorem exec_plog (u : Issue) (pd pa pb : Fin 8) (fn : BitVec 2) : exec (.plog u pd pa pb fn) s = execPlog u pd pa pb fn s := rfl
theorem exec_vbcast (u : Issue) (vd rs : Fin 32) : exec (.vbcast u vd rs) s = execVbcast u vd rs s := rfl
theorem exec_vins (u : Issue) (vd rs : Fin 32) (lane : Fin 256) : exec (.vins u vd rs lane) s = execVins u vd rs lane s := rfl
theorem exec_vext (u : Issue) (rd va : Fin 32) (lane : Fin 256) : exec (.vext u rd va lane) s = execVext u rd va lane s := rfl
theorem exec_vred (u : Issue) (vd va : Fin 32) (op : BitVec 2) : exec (.vred u vd va op) s = execVred u vd va op s := rfl
theorem exec_vperm (u : Issue) (vd va vb : Fin 32) : exec (.vperm u vd va vb) s = execVperm u vd va vb s := rfl
theorem exec_vcvt (u : Issue) (c : VcvtOp) : exec (.vcvt u c) s = execVcvt u c s := rfl
theorem exec_sfn (u : Issue) (vd va : Fin 32) (fn : BitVec 4) (fmt : BitVec 2) : exec (.sfn u vd va fn fmt) s = execSfn u vd va fn fmt s := rfl
theorem exec_ldt (u : Issue) (q : Fin 8) (td : Fin 16) (rs : Fin 32) (sig : Bool) (tok : Fin 64) : exec (.ldt u q td rs sig tok) s = execLdt u q td rs sig tok s := rfl
theorem exec_stt (u : Issue) (q : Fin 8) (td : Fin 16) (rs : Fin 32) (sig : Bool) (tok : Fin 64) (conv sf : BitVec 4) : exec (.stt u q td rs sig tok conv sf) s = execStt u q td rs sig tok conv sf s := rfl
theorem exec_dmaq (u : Issue) (q : Fin 8) (rs : Fin 32) : exec (.dmaq u q rs) s = execDmaq u q rs s := rfl
theorem exec_dqst (u : Issue) (rd : Fin 32) (q : Fin 8) : exec (.dqst u rd q) s = execDqst u rd q s := rfl
theorem exec_tdl (u : Issue) (td : Fin 16) (rs : Fin 32) : exec (.tdl u td rs) s = execTdl u td rs s := rfl
theorem exec_tdw (u : Issue) (td : Fin 16) (word : Fin 16) (rs : Fin 32) : exec (.tdw u td word rs) s = execTdw u td word rs s := rfl
theorem exec_vld (u : Issue) (vd rs : Fin 32) (imm : BitVec 32) : exec (.vld u vd rs imm) s = execVld u vd rs imm s := rfl
theorem exec_vst (u : Issue) (vd rs : Fin 32) (imm : BitVec 32) : exec (.vst u vd rs imm) s = execVst u vd rs imm s := rfl
theorem exec_signal (u : Issue) (rt : Fin 32) (tok : Fin 64) (cnt : BitVec 8) : exec (.signal u rt tok cnt) s = execSignal u rt tok cnt s := rfl
theorem exec_wait (u : Issue) (tok : Fin 64) (cnt : BitVec 8) : exec (.wait u tok cnt) s = execWait u tok cnt s := rfl
theorem exec_wclaim (u : Issue) (rd : Fin 32) (pd : Fin 8) (hrt : Fin 8) (ctr : Fin 64) (inc : BitVec 16) (rs : Fin 32) : exec (.wclaim u rd pd hrt ctr inc rs) s = execWclaim u rd pd hrt ctr inc rs s := rfl
theorem exec_hbar (u : Issue) (num : BitVec 16) : exec (.hbar u num) s = execHbar u num s := rfl
theorem exec_mbar (u : Issue) (num : BitVec 16) : exec (.mbar u num) s = execMbar u num s := rfl
theorem exec_ebar (u : Issue) (num : BitVec 16) : exec (.ebar u num) s = execEbar u num s := rfl
theorem exec_xshift (u : Issue) (rs : Fin 32) (red axis : BitVec 2) (dir sig : Bool) (tok : Fin 64) : exec (.xshift u rs red axis dir sig tok) s = execXshift u rs red axis dir sig tok s := rfl
theorem exec_xperm (u : Issue) (rs : Fin 32) (red : BitVec 2) (sig : Bool) (tok : Fin 64) : exec (.xperm u rs red sig tok) s = execXperm u rs red sig tok s := rfl
theorem exec_msync (u : Issue) : exec (.msync u) s = execMsync u s := rfl
theorem exec_hbarComplete (h : Fin 8) : exec (.hbarComplete h) s = execHbarComplete h s := rfl
theorem exec_mbarComplete (h : Fin 8) : exec (.mbarComplete h) s = execMbarComplete h s := rfl
theorem exec_ebarComplete (h : Fin 8) : exec (.ebarComplete h) s = execEbarComplete h s := rfl
theorem exec_tokenSignalArrive (n : Nat) : exec (.tokenSignalArrive n) s = execTokenSignalArrive n s := rfl
theorem exec_waitTimeout (g : Fin 512) : exec (.waitTimeout g) s = execWaitTimeout g s := rfl
theorem exec_wclaimExecute (g : Fin 512) (h : Fin 8) (ctr : Fin 64) : exec (.wclaimExecute g h ctr) s = execWclaimExecute g h ctr s := rfl
theorem exec_wclaimResponse (g : Fin 512) (h : Fin 8) (ctr : Fin 64) (parityOk : Bool) : exec (.wclaimResponse g h ctr parityOk) s = execWclaimResponse g h ctr parityOk s := rfl
theorem exec_bmapClr (h : Fin 8) (ctr : Fin 64) (v : BitVec 32) : exec (.bmapClr h ctr v) s = execBmapClr h ctr v s := rfl
theorem exec_bmapClearDone (h : Fin 8) (ctr : Fin 64) : exec (.bmapClearDone h ctr) s = execBmapClearDone h ctr s := rfl
theorem exec_dmaCopy (g : Fin 512) (q : Fin 8) (fail : Option Nat) : exec (.dmaCopy g q fail) s = execDmaCopy g q fail s := rfl
theorem exec_dmaTile (g : Fin 512) (q : Fin 8) (fail : Option Nat) : exec (.dmaTile g q fail) s = execDmaTile g q fail s := rfl
theorem exec_dmaNarrow (g : Fin 512) (q : Fin 8) (fail : Option Nat) : exec (.dmaNarrow g q fail) s = execDmaNarrow g q fail s := rfl
theorem exec_dmaComplete (g : Fin 512) (q : Fin 8) : exec (.dmaComplete g q) s = execDmaComplete g q s := rfl
theorem exec_billetRunArrive (g : Fin 512) (r : BilletRun) : exec (.billetRunArrive g r) s = execBilletRunArrive g r s := rfl
theorem exec_billetRunCombine (g : Fin 512) (n : Nat) : exec (.billetRunCombine g n) s = execBilletRunCombine g n s := rfl
theorem exec_drawGrant (h : Fin 8) : exec (.drawGrant h) s = execDrawGrant h s := rfl
theorem exec_kvWalkReadDone (h : Fin 8) (table : BitVec 48) (k : Nat) : exec (.kvWalkReadDone h table k) s = execKvWalkReadDone h table k s := rfl
theorem exec_attnFetchComplete (g : Fin 512) : exec (.attnFetchComplete g) s = execAttnFetchComplete g s := rfl
theorem exec_taskStopped (h : Fin 8) : exec (.taskStopped h) s = execTaskStopped h s := rfl
theorem exec_jobStart (h : Fin 8) (fail : Option (BitVec 64)) : exec (.jobStart h fail) s = execJobStart h fail s := rfl
theorem exec_coresStart (h : Fin 8) : exec (.coresStart h) s = execCoresStart h s := rfl
theorem exec_startBarrierComplete (h : Fin 8) : exec (.startBarrierComplete h) s = execStartBarrierComplete h s := rfl
theorem exec_gangStartTimeout (h : Fin 8) : exec (.gangStartTimeout h) s = execGangStartTimeout h s := rfl
theorem exec_queueWaitExpired (job : BitVec 32) : exec (.queueWaitExpired job) s = execQueueWaitExpired job s := rfl
theorem exec_partitionZeroed (h : Fin 8) : exec (.partitionZeroed h) s = execPartitionZeroed h s := rfl
theorem exec_slowdownWindow : exec (.slowdownWindow) s = execSlowdownWindow s := rfl
theorem exec_ctxOpen (n : Fin 4096) (x : HostFate) : exec (.ctxOpen n x) s = execCtxOpen n x s := rfl
theorem exec_ctxClose (n : Fin 4096) (x : HostFate) : exec (.ctxClose n x) s = execCtxClose n x s := rfl
theorem exec_submit (n : Fin 4096) (x : HostFate) : exec (.submit n x) s = execSubmit n x s := rfl
theorem exec_suspend (n : Fin 4096) (x : HostFate) : exec (.suspend n x) s = execSuspend n x s := rfl
theorem exec_resume (n : Fin 4096) (x : HostFate) : exec (.resume n x) s = execResume n x s := rfl
theorem exec_cancel (n : Fin 4096) (x : HostFate) : exec (.cancel n x) s = execCancel n x s := rfl
theorem exec_query (n : Fin 4096) (x : HostFate) : exec (.query n x) s = execQuery n x s := rfl
theorem exec_partitionStop (n : Fin 4096) (x : HostFate) : exec (.partitionStop n x) s = execPartitionStop n x s := rfl
theorem exec_partitionSet (n : Fin 4096) (x : HostFate) : exec (.partitionSet n x) s = execPartitionSet n x s := rfl
theorem exec_partitionStart (n : Fin 4096) (x : HostFate) : exec (.partitionStart n x) s = execPartitionStart n x s := rfl
theorem exec_vaultInstall (n : Fin 4096) (x : HostFate) : exec (.vaultInstall n x) s = execVaultInstall n x s := rfl
theorem exec_vaultInstallDone (hostOk : Bool) : exec (.vaultInstallDone hostOk) s = execVaultInstallDone hostOk s := rfl
theorem exec_attest (n : Fin 4096) (x : HostFate) : exec (.attest n x) s = execAttest n x s := rfl
theorem exec_streamOpen (n : Fin 4096) (x : HostFate) : exec (.streamOpen n x) s = execStreamOpen n x s := rfl
theorem exec_streamClose (n : Fin 4096) (x : HostFate) : exec (.streamClose n x) s = execStreamClose n x s := rfl
theorem exec_completionPost (n : Fin 4096) (ok : Bool) : exec (.completionPost n ok) s = execCompletionPost n ok s := rfl
theorem exec_eventPost (n : Fin 4096) (ok : Bool) : exec (.eventPost n ok) s = execEventPost n ok s := rfl
theorem exec_contextSwap : exec (.contextSwap) s = execContextSwap s := rfl
theorem exec_sqTailDoorbell (n : Fin 4096) (v : BitVec 32) : exec (.sqTailDoorbell n v) s = execSqTailDoorbell n v s := rfl
theorem exec_cqHeadDoorbell (n : Fin 4096) (v : BitVec 32) : exec (.cqHeadDoorbell n v) s = execCqHeadDoorbell n v s := rfl
theorem exec_context0Open (v : BitVec 32) : exec (.context0Open v) s = execContext0Open v s := rfl
theorem exec_context0Close (v : BitVec 32) : exec (.context0Close v) s = execContext0Close v s := rfl
theorem exec_mediaUnitStart (e : Fin 2) : exec (.mediaUnitStart e) s = execMediaUnitStart e s := rfl
theorem exec_mediaUnitComplete (e : Fin 2) : exec (.mediaUnitComplete e) s = execMediaUnitComplete e s := rfl
theorem exec_writeReceive (l : Fin 128) (f : Frame) : exec (.writeReceive l f) s = execWriteReceive l f s := rfl
theorem exec_reduceReceive (l : Fin 128) (f : Frame) : exec (.reduceReceive l f) s = execReduceReceive l f s := rfl
theorem exec_signalPacketReceive (l : Fin 128) (f : Frame) : exec (.signalPacketReceive l f) s = execSignalPacketReceive l f s := rfl
theorem exec_ackReceive (l : Fin 128) (f : Frame) : exec (.ackReceive l f) s = execAckReceive l f s := rfl
theorem exec_nakReceive (l : Fin 128) (f : Frame) : exec (.nakReceive l f) s = execNakReceive l f s := rfl
theorem exec_rtsReceive (l : Fin 128) (f : Frame) : exec (.rtsReceive l f) s = execRtsReceive l f s := rfl
theorem exec_ctsReceive (l : Fin 128) (f : Frame) : exec (.ctsReceive l f) s = execCtsReceive l f s := rfl
theorem exec_delayReceive (l : Fin 128) (f : Frame) : exec (.delayReceive l f) s = execDelayReceive l f s := rfl
theorem exec_barrierReceive (l : Fin 128) (f : Frame) : exec (.barrierReceive l f) s = execBarrierReceive l f s := rfl
theorem exec_endNoticeReceive (l : Fin 128) (f : Frame) : exec (.endNoticeReceive l f) s = execEndNoticeReceive l f s := rfl
theorem exec_hello (l : Fin 128) (f : Frame) : exec (.hello l f) s = execHello l f s := rfl
theorem exec_accept (l : Fin 128) (f : Frame) : exec (.accept l f) s = execAccept l f s := rfl
theorem exec_finish (l : Fin 128) (f : Frame) : exec (.finish l f) s = execFinish l f s := rfl
theorem exec_pair (l : Fin 128) (f : Frame) : exec (.pair l f) s = execPair l f s := rfl
theorem exec_keyAgreementTimeout (peer : BitVec 16) : exec (.keyAgreementTimeout peer) s = execKeyAgreementTimeout peer s := rfl
theorem exec_ackTimer (l : Fin 128) (peer : BitVec 16) (far : Fin 8) : exec (.ackTimer l peer far) s = execAckTimer l peer far s := rfl
theorem exec_resendTimer (l : Fin 128) (peer : BitVec 16) (far : Fin 8) : exec (.resendTimer l peer far) s = execResendTimer l peer far s := rfl
theorem exec_busyResendTimer (l : Fin 128) (peer : BitVec 16) (far : Fin 8) : exec (.busyResendTimer l peer far) s = execBusyResendTimer l peer far s := rfl
theorem exec_linkPairSetup (l : Fin 128) (peer : BitVec 16) (far : Fin 8) : exec (.linkPairSetup l peer far) s = execLinkPairSetup l peer far s := rfl
theorem exec_collectiveComplete (g : Fin 512) (group : BitVec 32) : exec (.collectiveComplete g group) s = execCollectiveComplete g group s := rfl
theorem exec_collTimeout (g : Fin 512) (group : BitVec 32) : exec (.collTimeout g group) s = execCollTimeout g group s := rfl
theorem exec_linkUp (l : Fin 128) : exec (.linkUp l) s = execLinkUp l s := rfl
theorem exec_linkModeTimeout (l : Fin 128) : exec (.linkModeTimeout l) s = execLinkModeTimeout l s := rfl
theorem exec_linkTrainRetry (l : Fin 128) : exec (.linkTrainRetry l) s = execLinkTrainRetry l s := rfl
theorem exec_linkDownDetect (l : Fin 128) : exec (.linkDownDetect l) s = execLinkDownDetect l s := rfl
theorem exec_stackTempSample (n : Fin 32) (t : Nat) : exec (.stackTempSample n t) s = execStackTempSample n t s := rfl
theorem exec_bellowsNoticePeriod (h : Fin 8) : exec (.bellowsNoticePeriod h) s = execBellowsNoticePeriod h s := rfl
theorem exec_hbmReadReplay (r : HbmReader) (a : BitVec 48) (ok : Bool) : exec (.hbmReadReplay r a ok) s = execHbmReadReplay r a ok s := rfl
theorem exec_rowRepair (e : RowError) : exec (.rowRepair e) s = execRowRepair e s := rfl
theorem exec_stackFence (n : Fin 32) (cause : FenceCause) : exec (.stackFence n cause) s = execStackFence n cause s := rfl
theorem exec_hostAccessTimeout (g : Fin 512) (q : Fin 8) : exec (.hostAccessTimeout g q) s = execHostAccessTimeout g q s := rfl
theorem exec_hostHdmRead (x : BitVec 64) (len : Nat) : exec (.hostHdmRead x len) s = execHostHdmRead x len s := rfl
theorem exec_hostHdmWrite (x : BitVec 64) (bs : List (BitVec 8)) : exec (.hostHdmWrite x bs) s = execHostHdmWrite x bs s := rfl
theorem exec_hostSnoop (a : BitVec 64) : exec (.hostSnoop a) s = execHostSnoop a s := rfl
theorem exec_hp0LinkUp (o : HostOffer) : exec (.hp0LinkUp o) s = execHp0LinkUp o s := rfl
theorem exec_hp0Down : exec (.hp0Down) s = execHp0Down s := rfl
theorem exec_slowInputAccept (p : Pin) (level : Bool) : exec (.slowInputAccept p level) s = execSlowInputAccept p level s := rfl
theorem exec_filterHoldoffEnd (p : Pin) (held : Option Bool) : exec (.filterHoldoffEnd p held) s = execFilterHoldoffEnd p held s := rfl
theorem exec_racingEnd (p : Pin) (level : Bool) : exec (.racingEnd p level) s = execRacingEnd p level s := rfl
theorem exec_startupBegin : exec (.startupBegin) s = execStartupBegin s := rfl
theorem exec_readyAssert (t : TrainResult) : exec (.readyAssert t) s = execReadyAssert t s := rfl
theorem exec_inputLoss : exec (.inputLoss) s = execInputLoss s := rfl
theorem exec_inputRestore : exec (.inputRestore) s = execInputRestore s := rfl
theorem exec_railFault (rail : Option (Fin 8)) : exec (.railFault rail) s = execRailFault rail s := rfl
theorem exec_refclkLoss : exec (.refclkLoss) s = execRefclkLoss s := rfl
theorem exec_dieTempSample (d : Fin 10) (t : Nat) : exec (.dieTempSample d t) s = execDieTempSample d t s := rfl
theorem exec_fwUpdateGo (v : BitVec 32) : exec (.fwUpdateGo v) s = execFwUpdateGo v s := rfl
theorem exec_fwUpdateDone (readOk : Bool) : exec (.fwUpdateDone readOk) s = execFwUpdateDone readOk s := rfl
theorem exec_installModeWrite (v : BitVec 32) : exec (.installModeWrite v) s = execInstallModeWrite v s := rfl
theorem exec_glbBridgeCtlWrite (v : BitVec 32) : exec (.glbBridgeCtlWrite v) s = execGlbBridgeCtlWrite v s := rfl
theorem exec_glbPartCfgWrite (v : BitVec 32) : exec (.glbPartCfgWrite v) s = execGlbPartCfgWrite v s := rfl
theorem exec_memSpreadWrite (v : BitVec 32) : exec (.memSpreadWrite v) s = execMemSpreadWrite v s := rfl
theorem exec_memHdmCtlWrite (v : BitVec 32) : exec (.memHdmCtlWrite v) s = execMemHdmCtlWrite v s := rfl
theorem exec_fabModuleIdWrite (v : BitVec 32) : exec (.fabModuleIdWrite v) s = execFabModuleIdWrite v s := rfl
theorem exec_fabCtlWrite (v : BitVec 32) : exec (.fabCtlWrite v) s = execFabCtlWrite v s := rfl
theorem exec_fabFrameCfgWrite (v : BitVec 32) : exec (.fabFrameCfgWrite v) s = execFabFrameCfgWrite v s := rfl
theorem exec_fabVcWeightHiWrite (v : BitVec 32) : exec (.fabVcWeightHiWrite v) s = execFabVcWeightHiWrite v s := rfl
theorem exec_glbEvlogSelWrite (v : BitVec 32) : exec (.glbEvlogSelWrite v) s = execGlbEvlogSelWrite v s := rfl
theorem exec_chkSlotWrite (n : Fin 256) (reg : ChkReg) (v : BitVec 32) : exec (.chkSlotWrite n reg v) s = execChkSlotWrite n reg v s := rfl
theorem exec_chkStart (n : Fin 256) : exec (.chkStart n) s = execChkStart n s := rfl
theorem exec_chkData8 (n : Fin 256) : exec (.chkData8 n) s = execChkData8 n s := rfl
theorem exec_chkData16 (n : Fin 256) : exec (.chkData16 n) s = execChkData16 n s := rfl
theorem exec_chkData32 (n : Fin 256) : exec (.chkData32 n) s = execChkData32 n s := rfl
theorem exec_chkValWrite (n : Fin 256) : exec (.chkValWrite n) s = execChkValWrite n s := rfl
theorem exec_chkRead (n : Fin 256) (reg : ChkReg) : exec (.chkRead n reg) s = execChkRead n reg s := rfl
theorem exec_registerWrite (off : Nat) (size : Nat) (v : BitVec 64) : exec (.registerWrite off size v) s = execRegisterWrite off size v s := rfl
theorem exec_scoreboardClear (g : Fin 512) (r : Reg) : exec (.scoreboardClear g r) s = execScoreboardClear g r s := rfl
theorem exec_powerStateChange (d3hot : Bool) : exec (.powerStateChange d3hot) s = execPowerStateChange d3hot s := rfl
theorem exec_snoopPortAttach (p : Fin 16) (a : Option SnoopStream) (poly : BitVec 2) : exec (.snoopPortAttach p a poly) s = execSnoopPortAttach p a poly s := rfl
theorem exec_snoopResultDequeue (p : Fin 16) : exec (.snoopResultDequeue p) s = execSnoopResultDequeue p s := rfl

end Sys2Proof.Machine
end

