-- ==== Sys2Proof/Laws/Keeps.lean ====
section
/-! SUPPORT. What every part of a command's effect keeps: the queue of commands, time that never runs backwards, and well-formed states. One lemma for each shared operation; later proofs chain them. -/

namespace Sys2Proof.Machine

/-- The queue is untouched, time does not run backwards, and a well-formed state stays one. -/
def Keeps (s t : State) : Prop := t.pending = s.pending ∧ s.now ≤ t.now ∧ (s.Wf → t.Wf)

theorem Keeps.refl (s : State) : Keeps s s := ⟨rfl, Nat.le_refl _, id⟩

theorem Keeps.trans {s t u : State} (h : Keeps s t) (k : Keeps t u) : Keeps s u :=
  ⟨k.1.trans h.1, Nat.le_trans h.2.1 k.2.1, fun w => k.2.2 (h.2.2 w)⟩

/-- A chain of parts keeps what each keeps. -/
theorem foldl_keeps {β : Type} {f : State → β → State} (hf : ∀ s b, Keeps s (f s b)) : ∀ (l : List β) (s : State), Keeps s (l.foldl f s)
  | [], s => Keeps.refl s
  | b :: r, s => (hf s b).trans (foldl_keeps hf r (f s b))

theorem ite_keeps {c : Prop} [Decidable c] {s a b : State} (h : c → Keeps s a) (k : ¬c → Keeps s b) : Keeps s (if c then a else b) := by
  split
  · exact h ‹_›
  · exact k ‹_›

/-- A last part that happens only under a condition. -/
theorem then_keeps {c : Prop} [Decidable c] {s a b : State} (h : Keeps s b) (k : Keeps b a) : Keeps s (if c then a else b) :=
  ite_keeps (fun _ => h.trans k) fun _ => h

/-- What an operation that may fail keeps where it does not. -/
def KeepsE {ε : Type} (s : State) (r : Except ε State) : Prop := ∀ t, r = .ok t → Keeps s t

theorem KeepsE.ok {ε : Type} {s t : State} (h : Keeps s t) : KeepsE (ε := ε) s (.ok t) := fun _ e => by cases e; exact h

theorem KeepsE.error {ε : Type} {s : State} {x : ε} : KeepsE s (.error x) := fun _ e => by cases e

theorem KeepsE.trans {ε : Type} {s t : State} {r : Except ε State} (h : Keeps s t) (k : KeepsE t r) : KeepsE s r := fun u e => h.trans (k u e)

theorem KeepsE.bind {ε α : Type} {s : State} {r : Except ε α} {f : α → Except ε State} (h : ∀ x, r = .ok x → KeepsE s (f x)) : KeepsE s (r >>= f) := by
  intro t e
  cases r with
  | error _ => cases e
  | ok x => exact h x rfl t e

theorem foldlM_keeps {ε β : Type} {f : State → β → Except ε State} (hf : ∀ s b, KeepsE s (f s b)) : ∀ (l : List β) (s : State), KeepsE s (l.foldlM f s)
  | [], s => KeepsE.ok (Keeps.refl s)
  | b :: r, s => by
    intro t h
    simp only [List.foldlM_cons, bind, Except.bind] at h
    split at h
    · cases h
    · rename_i u hu
      exact (hf s b u hu).trans (foldlM_keeps hf r u t h)

/-! Vectors -/

theorem forall_set {α : Type} {n : Nat} {P : α → Prop} {v : Vector α n} {i : Fin n} {x : α} (h : ∀ j : Fin n, P v[j]) (hx : P v[i] → P x) : ∀ j : Fin n, P (v.set i x)[j] := by
  intro j
  simp only [Fin.getElem_fin, Vector.getElem_set]
  split
  · exact hx (h i)
  · exact h j

theorem forall_map {α : Type} {n : Nat} {P : α → Prop} {v : Vector α n} {f : α → α} (h : ∀ j : Fin n, P v[j]) (hf : ∀ x, P x → P (f x)) : ∀ j : Fin n, P (v.map f)[j] := by
  intro j
  simp only [Fin.getElem_fin, Vector.getElem_map]
  exact hf _ (h j)

/-! Cores, hearths, partitions -/

theorem setCore_keeps {s : State} {g : Fin 512} {c : Core} (h : (s.core g).Wf → c.Wf) : Keeps s (s.setCore g c) :=
  ⟨rfl, Nat.le_refl _, fun w => ⟨w.1, forall_set w.2.1 h, w.2.2⟩⟩

theorem modCore_keeps {s : State} {g : Fin 512} {f : Core → Core} (h : ∀ c, c.Wf → (f c).Wf) : Keeps s (s.modCore g f) :=
  setCore_keeps (h _)

theorem modCores_keeps {s : State} {gs : List (Fin 512)} {f : Fin 512 → Core → Core} (h : ∀ g c, c.Wf → (f g c).Wf) : Keeps s (s.modCores gs f) :=
  foldl_keeps (fun _ g => modCore_keeps (h g)) gs s

theorem modHearth_keeps {s : State} {h : Fin 8} {f : Hearth → Hearth} (hf : ∀ x, x.Wf → (f x).Wf) : Keeps s (s.modHearth h f) :=
  ⟨rfl, Nat.le_refl _, fun w => ⟨w.1, w.2.1, forall_set w.2.2.1 (hf _), w.2.2.2⟩⟩

theorem modPart_keeps {s : State} {p : Fin 8} {f : Part → Part} (hf : ∀ x : Part, x.records.length ≤ 64 → (f x).records.length ≤ 64) : Keeps s (s.modPart p f) :=
  ⟨rfl, Nat.le_refl _, fun w => ⟨w.1, w.2.1, w.2.2.1, w.2.2.2.1, forall_set (P := fun x : Part => x.records.length ≤ 64) w.2.2.2.2.1 (hf _), w.2.2.2.2.2⟩⟩

theorem modTask_keeps {s : State} {p : Fin 8} {f : Task → Task} : Keeps s (s.modTask p f) := modPart_keeps fun _ h => h

theorem setMem_keeps {s : State} {m : Mem} (h : s.mem.Wf → m.Wf) : Keeps s { s with mem := m } :=
  ⟨rfl, Nat.le_refl _, fun w => ⟨h w.1, w.2⟩⟩

theorem draw_keeps (s : State) : Keeps s s.draw.2 := ⟨rfl, Nat.le_refl _, id⟩

theorem modLarcy_keeps {s : State} {f : Larcy → Larcy} : Keeps s (s.modLarcy f) := ⟨rfl, Nat.le_refl _, id⟩

end Sys2Proof.Machine
end

