-- ==== Sys2Proof/Laws/KeepsOps.lean ====
section
/-! SUPPORT. What the shared operations keep (Machine/Ops.lean, Machine/Clock.lean, Machine/MUnit.lean, Machine/SyncOps.lean). -/

namespace Sys2Proof.Machine

variable {s : State}

/-- The work memories of a core's units stand in their canonical form. -/
def Work.Wf (w : Work) : Prop := Memory.wf w.spad = true ∧ w.mem.Wf

theorem work_wf {g : Fin 512} (h : s.Wf) : (s.work g).Wf := ⟨(h.2.1 g).1, h.1⟩

/-! Time -/

theorem advance_keeps (s : State) (n : Nat) : Keeps s (s.advance n) := by
  unfold State.advance
  split
  · refine ⟨rfl, Nat.le_add_right _ _, fun w => ⟨w.1, w.2.1, forall_map w.2.2.1 (fun x h => ?_), w.2.2.2.1, forall_map (P := fun x : Part => x.records.length ≤ 64) w.2.2.2.2.1 (fun _ h => h), w.2.2.2.2.2⟩⟩
    split <;> exact h
  · exact ⟨rfl, Nat.le_add_right _ _, id⟩

theorem reach_keeps (s : State) (t : Nat) : Keeps s (s.reach t) := advance_keeps s _


/-! The event log, the end of a task -/

@[simp] theorem insertEntry_length (x : BitVec 256) : ∀ l : List (BitVec 256), (insertEntry x l).length = l.length + 1
  | [] => rfl
  | y :: r => by
    unfold insertEntry
    split
    · simp [insertEntry_length x r]
    · simp

/-- A ring that drops its oldest entry at 4,096. -/
theorem ring_bound {α : Type} {l : List α} (h : l.length ≤ 4097) : (if decide (4096 < l.length) = true then l.drop 1 else l).length ≤ 4096 := by
  split <;> rename_i hc <;> simp only [List.length_drop, decide_eq_true_eq] at hc ⊢ <;> omega

theorem log_keeps (s : State) (e : Event) : Keeps s (s.log e) :=
  ⟨rfl, Nat.le_refl _, fun w => ⟨w.1, w.2.1, w.2.2.1, ring_bound (by
    have := w.2.2.2.1
    simp only [State.evShown, List.length_append, List.length_take, List.length_mapIdx, insertEntry_length, List.length_drop]
    omega), w.2.2.2.2⟩⟩

theorem endTask_keeps (s : State) (p : Fin 8) (e : Ending) : Keeps s (s.endTask p e) := modTask_keeps

theorem ownFault_keeps (g : Fin 512) (st : Status) (x : BitVec 13) (b : Bool) :
    Keeps s (s.modCore g fun c => if b = true then { c with stat := { c.stat with faultStatus := st, faultBundle := x } } else c) :=
  modCore_keeps fun _ h => by cases b <;> exact h

theorem coreFault_keeps (s : State) (g : Fin 512) (st : Status) (b : BitVec 13) (q d : Nat) : Keeps s (s.coreFault g st b q d) := by
  unfold State.coreFault
  dsimp only
  split
  · exact (ownFault_keeps _ _ _ _).trans (endTask_keeps _ _ _)
  · exact ownFault_keeps _ _ _ _

theorem core_upset_wf {c : Core} (h : c.Wf) (u : Upset) : (c.upset u).Wf := by
  unfold Core.upset
  split <;> (try split) <;> exact h

theorem upset_keeps (s : State) (g : Fin 512) (u : Upset) : Keeps s (s.upset g u) := by
  unfold State.upset
  split
  · split
    · exact ite_keeps (fun _ => coreFault_keeps _ _ _ _ _ _) fun _ => Keeps.refl _
    · exact Keeps.refl _
  · exact setMem_keeps id
  · exact Keeps.refl _
  · exact modCore_keeps fun _ h => core_upset_wf h _

theorem tick_keeps (s : State) : Keeps s (tick s) :=
  (advance_keeps s 1).trans ((draw_keeps _).trans (ite_keeps (fun _ => upset_keeps _ _ _) fun _ => Keeps.refl _))

theorem storeWork_keeps {s0 : State} {g : Fin 512} {w : Work} (h0 : Keeps s0 s) (hw : s0.Wf → w.Wf) : Keeps s0 (s.storeWork g w) :=
  ⟨h0.1, h0.2.1, fun h => ⟨(hw h).2, forall_set (h0.2.2 h).2.1 (fun k => ⟨(hw h).1, k.2⟩), (h0.2.2 h).2.2⟩⟩

theorem storeWiden_keeps (s : State) (p : Fin 8) (l : List (BitVec 32 × Desc)) : Keeps s (s.storeWiden p l) :=
  ite_keeps (fun _ => Keeps.refl _) fun _ => modHearth_keeps fun _ h => ⟨List.length_take_le _ _, h.2⟩

/-- Work memories that came of a well-formed state go back into what the state has become since. -/
theorem putWork_keeps {s0 : State} {g : Fin 512} {w : Work} (h0 : Keeps s0 s) (hw : s0.Wf → w.Wf) : Keeps s0 (s.putWork g w) := by
  unfold State.putWork
  dsimp only
  split
  · exact storeWork_keeps h0 hw
  · exact (Keeps.trans (storeWork_keeps h0 hw) (storeWiden_keeps _ _ _)).trans modTask_keeps

/-! Host memory, snoop ports, records -/

theorem hostWrite_keeps (s : State) (a : Nat) (bs : List Byte) : Keeps s (s.hostWrite a bs) := by
  unfold State.hostWrite
  split
  · exact setMem_keeps fun h => ⟨h.1, writeBytes_wf _ h.2.1, h.2.2⟩
  · exact Keeps.refl _

theorem snoopDone_keeps (s : State) (x : SnoopStream) (f : BitVec 64) (bs : List Byte) (n : Nat) : Keeps s (s.snoopDone x f bs n) := by
  refine ⟨rfl, Nat.le_refl _, fun w => ⟨w.1, w.2.1, w.2.2.1, w.2.2.2.1, w.2.2.2.2.1, forall_map (P := fun x : Snoop => x.results.length ≤ 64) w.2.2.2.2.2.1 (fun p h => ?_), w.2.2.2.2.2.2⟩⟩
  split
  · exact h
  · split
    · exact h
    · rename_i hc
      simp only [List.length_append, List.length_cons, List.length_nil]
      omega

theorem serviceDone_keeps (s : State) (t1 : Bool) (a : Nat) (bs : List Byte) : Keeps s (s.serviceDone t1 a bs) := by
  unfold State.serviceDone
  split
  · exact (draw_keeps s).trans (snoopDone_keeps _ _ _ _ _)
  · exact Keeps.refl _

theorem barWrite_keeps {f : State → State} (hf : Keeps s (f s)) : Keeps s (s.barWrite f) := by
  unfold State.barWrite
  split
  · exact Keeps.refl _
  · exact hf

theorem deliver_keeps (s : State) (j : Job) (bs plog : List Byte) : Keeps s (s.deliver j bs plog) := by
  have h1 : Keeps s (if j.sign then s.draw else (0, s)).2 := by
    split
    · exact draw_keeps s
    · exact Keeps.refl s
  unfold State.deliver
  dsimp only
  generalize (if j.sign = true then s.draw else (0, s)) = x at h1 ⊢
  refine Keeps.trans ?_ (modPart_keeps fun p h => ?_)
  · generalize (bs ++ if j.sign = true then sized 2420 (Config.mldsaSign (ascii "BROAMET-RESULT") bs x.1) else []) = sig
    split
    · exact h1.trans (hostWrite_keeps _ _ _)
    · exact (h1.trans (hostWrite_keeps _ _ _)).trans (serviceDone_keeps _ _ _ _)
  · simp only [List.length_drop, List.length_append, List.length_cons, List.length_nil]
    omega

/-! Larcy contexts -/

theorem modCtx_keeps (s : State) (n : Fin 4096) (f : LCtx → LCtx) : Keeps s (s.modCtx n f) := by
  unfold State.modCtx
  dsimp only
  split
  · exact modLarcy_keeps
  · exact modLarcy_keeps.trans (ite_keeps (fun _ => modLarcy_keeps) fun _ => Keeps.refl _)

theorem pushEvent_keeps (s : State) (n : Option (Fin 4096)) (e : LEvent) : Keeps s (s.pushEvent n e) := by
  unfold State.pushEvent
  split
  · exact modCtx_keeps _ _ _
  · exact Keeps.refl _

theorem endQueued_keeps (s : State) (j : Job) (st : Status) (d : BitVec 192) : Keeps s (s.endQueued j st d) := by
  unfold State.endQueued
  dsimp only
  refine Keeps.trans ?_ (log_keeps _ _)
  refine Keeps.trans ?_ (pushEvent_keeps _ _ _)
  refine Keeps.trans ?_ (deliver_keeps _ _ _ _)
  exact modPart_keeps fun _ h => h

/-! Registers -/

theorem setBridge_keeps (s : State) (v : W32) : Keeps s (s.setBridge v) := by
  unfold State.setBridge
  exact ite_keeps (fun _ => ⟨rfl, Nat.le_refl _, id⟩) fun _ => Keeps.refl _

theorem setModuleId_keeps (s : State) (v : W32) : Keeps s (s.setModuleId v) := ⟨rfl, Nat.le_refl _, id⟩

end Sys2Proof.Machine
end

