-- ==== Sys2Proof/Laws/KeepsFabric.lean ====
section
/-! SUPPORT. What sending, acknowledging and collectives keep (Machine/FabricOps.lean, Machine/Collect.lean). -/

namespace Sys2Proof.Machine

variable {s : State}

theorem modFab_keeps {f : Fabric → Fabric} : Keeps s (s.modFab f) := ⟨rfl, Nat.le_refl _, id⟩

theorem modPair_keeps (l : Fin 128) (peer : BitVec 16) (far : Fin 8) (f : LinkPair → LinkPair) : Keeps s (s.modPair l peer far f) := modFab_keeps

theorem ensurePair_keeps {l : Fin 128} {peer : BitVec 16} {far : Fin 8} {t : State} (h : s.ensurePair l peer far = some t) : Keeps s t := by
  unfold State.ensurePair at h
  split at h
  · cases h; exact Keeps.refl _
  · dsimp only at h
    split at h
    · cases h; exact modFab_keeps
    · split at h
      · cases h
      · cases h; exact modFab_keeps

theorem flushLink_keeps (l : Fin 128) : Keeps s (s.flushLink l) := modFab_keeps

theorem queuePkt_keeps (l : Fin 128) (peer : BitVec 16) (far : Fin 8) (k : TxPkt) : Keeps s (s.queuePkt l peer far k) :=
  (modPair_keeps _ _ _ _).trans (flushLink_keeps _)

theorem sendSetup_keeps (l : Fin 128) (peer : BitVec 16) (far : Fin 8) (n : Nat) (bs : List Byte) : Keeps s (s.sendSetup l peer far n bs) := modFab_keeps

theorem putSecret_keeps (x : Secret) : Keeps s (s.putSecret x) := modFab_keeps

theorem sendHello_keeps (l : Fin 128) (peer : BitVec 16) (far : Fin 8) : Keeps s (s.sendHello l peer far) :=
  ite_keeps (fun _ => Keeps.refl _) fun _ => (draw_keeps _).trans ((draw_keeps _).trans ((putSecret_keeps _).trans (sendSetup_keeps _ _ _ _ _)))

theorem sendPair_keeps (l : Fin 128) (peer : BitVec 16) (far : Fin 8) : Keeps s (s.sendPair l peer far) := by
  unfold State.sendPair
  split
  · exact Keeps.refl _
  · exact ite_keeps (fun _ => Keeps.refl _) fun _ => (draw_keeps _).trans ((modPair_keeps _ _ _ _).trans (sendSetup_keeps _ _ _ _ _))

theorem beginPair_keeps (l : Fin 128) (peer : BitVec 16) (far : Fin 8) : Keeps s (s.beginPair l peer far) :=
  ite_keeps (fun _ => sendPair_keeps _ _ _) fun _ => sendHello_keeps _ _ _

theorem postPkt_keeps (g : Fin 512) (peer : BitVec 16) (far : Fin 8) (b : Bool) (k : TxPkt) : KeepsE s (s.postPkt g peer far b k) := by
  unfold State.postPkt
  split
  · exact KeepsE.error
  · dsimp only
    split
    · exact KeepsE.error
    · split
      · exact KeepsE.error
      · split
        · exact KeepsE.error
        · rename_i h
          exact KeepsE.ok ((ensurePair_keeps h).trans ((beginPair_keeps _ _ _).trans (queuePkt_keeps _ _ _ _)))

theorem postPkts_keeps (g : Fin 512) (peer : BitVec 16) (b : Bool) (ps : List (Fin 8 × TxPkt)) : KeepsE s (s.postPkts g peer b ps) :=
  foldlM_keeps (fun _ _ => postPkt_keeps _ _ _ _ _) _ _

theorem startMsgs_keeps (g : Fin 512) : ∀ (n : Nat) (s : State), Keeps s (s.startMsgs g n)
  | 0, s => Keeps.refl s
  | n + 1, s => by
    unfold State.startMsgs
    split
    · exact Keeps.refl _
    · dsimp only
      split
      · rename_i h
        exact ((postPkts_keeps _ _ _ _ _ h).trans (by exact modCore_keeps fun _ h => h)).trans (startMsgs_keeps g n _)
      · exact ite_keeps (fun _ => coreFault_keeps _ _ _ _ _ _) fun _ => Keeps.refl _
      · exact Keeps.refl _

theorem failPkts_keeps (ks : List TxPkt) (st : Status) : Keeps s (s.failPkts ks st) :=
  foldl_keeps (fun _ _ => ite_keeps (fun _ => coreFault_keeps _ _ _ _ _ _) fun _ => Keeps.refl _) _ _

theorem startCtrls_keeps (g : Fin 512) : ∀ (n : Nat) (s : State), Keeps s (s.startCtrls g n)
  | 0, s => Keeps.refl s
  | n + 1, s => by
    unfold State.startCtrls
    split
    · exact Keeps.refl _
    · split
      · rename_i h
        exact ((postPkt_keeps _ _ _ _ _ _ h).trans (by exact modCore_keeps fun _ h => h)).trans (startCtrls_keeps g n _)
      · exact Keeps.trans (Keeps.trans (by exact modCore_keeps fun _ h => h) (failPkts_keeps _ _)) (startCtrls_keeps g n _)
      · exact Keeps.refl _

/-- What a core sends keeps what every step keeps. -/
theorem pumpCore_keeps (s : State) (g : Fin 512) : Keeps s (s.pumpCore g) := by
  unfold State.pumpCore
  exact ((startCtrls_keeps _ _ _).trans (startMsgs_keeps _ _ _)).trans (ite_keeps (fun _ => Keeps.refl _) fun _ => modFab_keeps)

theorem pumpStalled_keeps (s : State) : Keeps s s.pumpStalled := Keeps.trans (by exact modFab_keeps) (foldl_keeps (fun _ _ => pumpCore_keeps _ _) _ _)

/-- A core with something new to send. -/
theorem sends_keeps {g : Fin 512} {f : Core → Core} (hf : ∀ c, c.Wf → (f c).Wf) : Keeps s ((s.modCore g f).pumpCore g) :=
  (modCore_keeps hf).trans (pumpCore_keeps _ _)

theorem sendMsg_keeps (m : MsgHead) (ps : List (Nat × List Byte)) : Keeps s (s.sendMsg m ps) := by
  unfold State.sendMsg
  exact sends_keeps fun _ h => h

theorem ackPkt_keeps (k : TxPkt) : Keeps s (s.ackPkt k) :=
  ite_keeps (fun _ => Keeps.trans (by exact modCore_keeps fun _ h => h) (pumpCore_keeps _ _)) fun _ => Keeps.refl _

theorem ackBelow_keeps (l : Fin 128) (peer : BitVec 16) (far : Fin 8) (n : Nat) : Keeps s (s.ackBelow l peer far n) := by
  unfold State.ackBelow
  split
  · exact Keeps.refl _
  · exact ite_keeps (fun _ => Keeps.refl _) fun _ => (modPair_keeps _ _ _ _).trans (((foldl_keeps (fun _ _ => ackPkt_keeps _) _ _).trans (flushLink_keeps _)).trans (pumpStalled_keeps _))

theorem countReplay_keeps (l : Fin 128) (n : Nat) : Keeps s (s.countReplay l n) := modFab_keeps

theorem resend_keeps (l : Fin 128) (peer : BitVec 16) (far : Fin 8) (ks : List TxPkt) : Keeps s (s.resend l peer far ks) := by
  unfold State.resend
  split
  · exact Keeps.refl _
  · exact modFab_keeps.trans (countReplay_keeps _ _)

theorem sendAck_keeps (l : Fin 128) (peer : BitVec 16) (far : Fin 8) (b : Bool) (a : Nat) : Keeps s (s.sendAck l peer far b a) := by
  unfold State.sendAck
  split
  · exact Keeps.refl _
  · exact (modPair_keeps _ _ _ _).trans modFab_keeps

theorem pairDown_keeps (l : Fin 128) (peer : BitVec 16) (far : Fin 8) (b : Bool) : Keeps s (s.pairDown l peer far b) := by
  unfold State.pairDown
  split
  · exact Keeps.refl _
  · refine Keeps.trans ?_ (((failPkts_keeps _ _).trans (flushLink_keeps _)).trans (pumpStalled_keeps _))
    exact (modPair_keeps _ _ _ _).trans (ite_keeps (fun _ => modFab_keeps) fun _ => Keeps.refl _)

theorem pairLost_keeps (l : Fin 128) (peer : BitVec 16) (far : Fin 8) (b : Bool) : Keeps s (s.pairLost l peer far b) :=
  (log_keeps _ _).trans (pairDown_keeps _ _ _ _)

theorem linkDown_keeps (l : Fin 128) (m : LinkMode) : Keeps s (s.linkDown l m) :=
  (log_keeps _ _).trans (modFab_keeps.trans (foldl_keeps (fun _ _ => pairDown_keeps _ _ _ _) _ _))

theorem sendControl_keeps (g : Fin 512) (peer : BitVec 16) (ty : BitVec 4) (d : BitVec 9) (a : Nat) (k : BitVec 6) (e : BitVec 16) (b : BitVec 13) (bs : List Byte) :
    Keeps s (s.sendControl g peer ty d a k e b bs) := by
  unfold State.sendControl
  exact sends_keeps fun _ h => h

theorem control_keeps (g : Fin 512) (peer : BitVec 16) (d : BitVec 9) (b : BitVec 13) (bs : List Byte) : Keeps s (s.control g peer d b bs) := sendControl_keeps _ _ _ _ _ _ _ _ _

theorem unitControl_keeps (p : Fin 8) (peer : BitVec 16) (bs : List Byte) : Keeps s (s.unitControl p peer bs) := control_keeps _ _ _ _ _

/-! Collectives -/

theorem ownToken_keeps (g : Fin 512) (q : Option (Fin 8)) (d : BitVec 9) (t : Fin 64) (b : BitVec 13) : Keeps s (s.ownToken g q d t b) := ⟨rfl, Nat.le_refl _, id⟩

/-- A write to a memory tier keeps the canonical forms. -/
theorem mem_write_wf {m : Mem} (h : m.Wf) (a : Nat) (bs : List Byte) : (m.write a bs).Wf := by
  unfold Mem.write
  split
  · exact ⟨writeBytes_wf _ h.1, h.2⟩
  · split
    · exact h
    · exact ⟨h.1, writeBytes_wf _ h.2.1, h.2.2⟩

theorem putSpad_wf {c : Core} (h : c.Wf) (a : Nat) (bs : List Byte) : (c.putSpad a bs).Wf := ⟨writeBytes_wf _ h.1, h.2⟩

theorem putImem_wf {c : Core} (h : c.Wf) (a : Nat) (bs : List Byte) : (c.putImem a bs).Wf := ⟨h.1, writeBytes_wf _ h.2⟩

theorem placeIn_keeps (d : BitVec 9) (sp : BitVec 3) (a : Nat) (bs : List Byte) (tag : BitVec 16) : KeepsE s (s.placeIn d sp a bs tag) := by
  unfold State.placeIn
  simp only [bind, Except.bind]
  split
  · exact KeepsE.error
  · refine KeepsE.ok (ite_keeps (fun _ => setMem_keeps fun h => mem_write_wf h _ _) fun _ => ite_keeps (fun _ => ?_) fun _ => ?_)
    · exact modCore_keeps fun _ h => putSpad_wf h _ _
    · exact modCore_keeps fun _ h => putImem_wf h _ _

theorem countBytes_keeps (d : BitVec 9) (sp : BitVec 3) (a n : Nat) (m : BitVec 16) (c : BitVec 9) : Keeps s (s.countBytes d sp a n m c) := modCore_keeps fun _ h => h

theorem countElems_keeps (g : Fin 512) (ty n : Nat) (m : BitVec 16) (c : BitVec 9) : Keeps s (s.countElems g ty n m c) := modCore_keeps fun _ h => h

theorem stageIn_keeps (d : BitVec 9) (r : BilletRun) (x : Option (BitVec 16 × BitVec 9)) (tag : BitVec 16) : KeepsE s (s.stageIn d r x tag) := by
  unfold State.stageIn
  simp only [bind, Except.bind]
  split
  · exact KeepsE.error
  · split
    · exact KeepsE.ok (modCore_keeps fun _ h => h)
    · exact KeepsE.error

theorem sumLost_keeps (d : BitVec 9) (sp : BitVec 3) (a : Nat) : Keeps s (s.sumLost d sp a) := by
  unfold State.sumLost
  split
  · split
    · exact endTask_keeps _ _ _
    · exact Keeps.refl _
  · exact coreFault_keeps _ _ _ _ _ _

theorem map_keeps {ε α : Type} {r : Except ε α} {f : α → State} (h : ∀ x, Keeps s (f x)) : KeepsE s (r.map f) := by
  intro t e
  cases r with
  | error _ => cases e
  | ok x => cases e; exact h x

theorem addIn_keeps (d : BitVec 9) (sp : BitVec 3) (a : Nat) (vs : List W32) (tag : BitVec 16) : KeepsE s (s.addIn d sp a vs tag) := by
  unfold State.addIn
  dsimp only
  split
  · exact KeepsE.error
  · generalize (if sp = 0 then s.mem.lost a (4 * vs.length) else parityHit (s.core (coreId d.toNat)).badParity a (4 * vs.length)) = b
    cases b
    · exact placeIn_keeps _ _ _ _ _
    · exact map_keeps fun _ => sumLost_keeps _ _ _

theorem collFault_keeps (g : Fin 512) (c : Coll) (st : Status) (n : Nat) : Keeps s (s.collFault g c st n) := coreFault_keeps _ _ _ _ _ _

theorem pumpRuns_keeps (g : Fin 512) (d : BitVec 9) (tag : BitVec 16) : ∀ (rs : List BilletRun) (s : State) {x}, pumpRuns g d tag s rs = .ok x → Keeps s x.1
  | [], s, x, h => by cases h; exact Keeps.refl _
  | r :: rs, s, x, h => by
    unfold pumpRuns at h
    split at h
    · rename_i h1
      exact (stageIn_keeps _ _ _ _ _ h1).trans (pumpRuns_keeps g d tag rs _ h)
    · cases h; exact Keeps.refl _
    · cases h

theorem pumpColl_keeps (g : Fin 512) (c : Coll) : Keeps s (s.pumpColl g c) := by
  unfold State.pumpColl
  split
  · rename_i h
    exact (pumpRuns_keeps _ _ _ _ _ h).trans (modCore_keeps fun _ h => h)
  · exact collFault_keeps _ _ _ _

/-- What the end of a send keeps: the collective is marked. -/
theorem sendRemote_keeps {g : Fin 512} (h : MsgHead) (ps : List (Nat × List Byte)) {f : Core → Core} (hf : ∀ k, k.Wf → (f k).Wf) :
    Keeps s ((s.sendMsg h ps).modCore g f) := (sendMsg_keeps _ _).trans (modCore_keeps hf)

theorem sendData_keeps (g : Fin 512) (c : Coll) (recv : Nat) (sp : BitVec 3) : Keeps s (s.sendData g c recv sp) := by
  unfold State.sendData
  dsimp only
  split
  · split
    · exact collFault_keeps _ _ _ _
    · split
      · exact sendRemote_keeps _ _ fun _ h => h
      · split
        · rename_i h
          exact (placeIn_keeps _ _ _ _ _ _ h).trans ((countBytes_keeps _ _ _ _ _ _).trans (modCore_keeps fun _ h => h))
        · exact collFault_keeps _ _ _ _
  · split
    · exact collFault_keeps _ _ _ _
    · refine ite_keeps (fun _ => collFault_keeps _ _ _ _) fun _ => ite_keeps (fun _ => ite_keeps (fun _ => sendRemote_keeps _ _ fun _ h => h) fun _ => ?_) fun _ => ite_keeps (fun _ => sendRemote_keeps _ _ fun _ h => h) fun _ => ?_
      · refine Keeps.trans ?_ (pumpColl_keeps _ _)
        exact modCore_keeps fun _ h => h
      · split
        · rename_i h
          exact (foldlM_keeps (fun _ _ => addIn_keeps _ _ _ _ _) _ _ _ h).trans ((countElems_keeps _ _ _ _ _).trans (modCore_keeps fun _ h => h))
        · exact collFault_keeps _ _ _ _

theorem ctsArrive_keeps (g : Fin 512) (x y : W32) (r a : Nat) (sp : BitVec 3) : Keeps s (s.ctsArrive g x y r a sp) := by
  unfold State.ctsArrive
  split
  · exact Keeps.refl _
  · exact Keeps.trans (by exact modCore_keeps fun _ h => h) (sendData_keeps _ _ _ _)

theorem matchRts_keeps (g : Fin 512) (c : Coll) (r : Rts) : Keeps s (s.matchRts g c r) := by
  unfold State.matchRts
  refine ite_keeps (fun _ => collFault_keeps _ _ _ _) fun _ => ?_
  exact Keeps.trans (by exact modCore_keeps fun _ h => h) (ite_keeps (fun _ => ctsArrive_keeps _ _ _ _ _ _) fun _ => control_keeps _ _ _ _ _)

theorem rtsArrive_keeps {g : Fin 512} {r : Rts} {t : State} (h : s.rtsArrive g r = some t) : Keeps s t := by
  unfold State.rtsArrive at h
  split at h
  · cases h; exact matchRts_keeps _ _ _
  · split at h
    · cases h; exact modCore_keeps fun _ h => h
    · cases h

theorem sendRts_keeps (g : Fin 512) (c : Coll) : Keeps s (s.sendRts g c) := by
  unfold State.sendRts
  dsimp only
  split
  · split
    · rename_i h
      exact Keeps.trans (by exact modCore_keeps fun _ h => h) (rtsArrive_keeps h)
    · exact Keeps.refl _
  · refine Keeps.trans ?_ (control_keeps _ _ _ _ _)
    exact modCore_keeps fun _ h => h

theorem retryRts_keeps (g : Fin 512) : Keeps s (s.retryRts g) :=
  foldl_keeps (fun _ _ => foldl_keeps (fun _ _ => ite_keeps (fun _ => sendRts_keeps _ _) fun _ => Keeps.refl _) _ _) _ _

theorem collStart_keeps (g : Fin 512) (c : Coll) : Keeps s (s.collStart g c) := by
  unfold State.collStart
  dsimp only
  have h0 : Keeps s ((s.modCore g fun k => { k with colls := k.colls ++ [c] }).sendRts g c) := Keeps.trans (by exact modCore_keeps fun _ h => h) (sendRts_keeps _ _)
  split
  · refine h0.trans (ite_keeps (fun _ => Keeps.refl _) fun _ => ?_)
    refine ite_keeps (fun _ => Keeps.trans ?_ (retryRts_keeps _)) fun _ => ?_ <;> exact Keeps.trans (by exact modCore_keeps fun _ h => h) (matchRts_keeps _ _ _)
  · exact h0

theorem collRetry_keeps (g : Fin 512) (c : Coll) : Keeps s (s.collRetry g c) := ite_keeps (fun _ => Keeps.refl _) fun _ => pumpColl_keeps _ _

end Sys2Proof.Machine
end

