-- ==== Sys2Proof/Laws/KeepsUnits.lean ====
section
/-! SUPPORT. What the units of a core keep of the work memories they act on (Machine/Tiles.lean, Machine/Matrix.lean, Machine/Norm.lean, Machine/Attn.lean). -/

namespace Sys2Proof.Machine

/-- What an operation answers where it does not fail. -/
def Post {ε α : Type} (P : α → Prop) (r : Except ε α) : Prop := ∀ x, r = .ok x → P x

theorem Post.ok {ε α : Type} {P : α → Prop} {x : α} (h : P x) : Post (ε := ε) P (.ok x) := fun _ e => by cases e; exact h

theorem Post.error {ε α : Type} {P : α → Prop} {e : ε} : Post P (.error e : Except ε α) := fun _ h => by cases h

theorem Post.bind {ε α β : Type} {P : α → Prop} {Q : β → Prop} {r : Except ε α} {f : α → Except ε β} (h : Post P r) (k : ∀ x, P x → Post Q (f x)) : Post Q (r >>= f) := by
  intro y hy
  cases r with
  | error e => cases hy
  | ok x => exact k x (h x rfl) y hy

theorem Post.any {ε α β : Type} {Q : β → Prop} {r : Except ε α} {f : α → Except ε β} (k : ∀ x, Post Q (f x)) : Post Q (r >>= f) :=
  Post.bind (P := fun _ => True) (fun _ _ => trivial) fun x _ => k x

theorem Post.ite {ε α : Type} {P : α → Prop} {c : Prop} [Decidable c] {a b : Except ε α} (h : Post P a) (k : Post P b) : Post P (if c then a else b) := by
  split
  · exact h
  · exact k

theorem Post.foldlM {ε α β : Type} {P : β → Prop} {f : β → α → Except ε β} (h : ∀ b a, P b → Post P (f b a)) : ∀ (l : List α) (b : β), P b → Post P (l.foldlM f b)
  | [], _, hb => Post.ok hb
  | a :: r, b, hb => Post.bind (h b a hb) fun x hx => Post.foldlM h r x hx

variable {ok : Admit} {w : Work}

theorem wr_post (h : w.Wf) (sp a : Nat) (bs : List Byte) : Post Work.Wf (w.wr ok sp a bs) := by
  unfold Work.wr
  split
  · split
    · exact Post.error
    · exact Post.ok ⟨writeBytes_wf _ h.1, h.2⟩
  · split
    · exact Post.error
    · exact Post.ok ⟨h.1, mem_write_wf h.2 _ _⟩

theorem writeDir_post (h : w.Wf) (d : Desc) (c : Nat) (p : PoolDir) : Post Work.Wf (writeDir ok w d c p) :=
  Post.bind (wr_post h _ _ _) fun _ h => Post.bind (wr_post h _ _ _) fun _ h => wr_post h _ _ _

theorem writeRecord_post (h : w.Wf) (sp a fmt lo : Nat) (hdr : List Byte) (xs es : List Nat) : Post Work.Wf (writeRecord ok w sp a fmt lo hdr xs es) := by
  unfold writeRecord
  refine Post.bind (wr_post h _ _ _) fun _ h => ?_
  dsimp only
  split
  · exact Post.bind (Post.ok h) fun _ h => Post.bind (wr_post h _ _ _) fun _ h => wr_post h _ _ _
  · exact Post.bind (wr_post h _ _ _) fun _ h => Post.bind (wr_post h _ _ _) fun _ h => wr_post h _ _ _

theorem writeImage_post (h : w.Wf) (d : Desc) (i ra : Nat) (wid : Bool) (wr : Writer) (lo : Nat) (fs : List Nat) (old : Bool) (cur : Tile) :
    Post (fun x => x.1.Wf) (writeImage ok w d i ra wid wr lo fs old cur) := by
  unfold writeImage
  dsimp only
  have fin : ∀ base : List Nat, Post (fun x : Work × Option Int × Bool × Bool => x.1.Wf) (do
      let all := base.take lo ++ fs ++ base.drop (lo + fs.length)
      let (em, zero, nonfin) := summary (all.map bf16.decode)
      let h : HeaderInfo := ⟨1, dLayout d, false, wid, zero, nonfin, em, 0, 0, 0, wr.epoch, wr.core, i⟩
      let w ← writeRecord ok w 0 ra 1 0 h.bytes [] all
      .ok (w, em, zero, nonfin)) := fun _ => Post.bind (writeRecord_post h _ _ _ _ _ _ _) fun _ h => Post.ok h
  split
  · exact Post.any fun _ => fin _
  · exact fin _

theorem addWiden_wf (h : w.Wf) (d : Desc) : (w.addWiden d).Wf := by unfold Work.addWiden; dsimp only; split <;> exact h

theorem addOver_wf (h : w.Wf) (d : Desc) : (w.addOver d).Wf := by unfold Work.addOver; dsimp only; split <;> exact h

theorem writeWidened_post (h : w.Wf) (d : Desc) (o r a : Nat) (wr : Writer) (lo : Nat) (fs : List Nat) (p : Bool) (cur : Tile) :
    Post Work.Wf (writeWidened ok w d o r a wr lo fs p cur) :=
  Post.bind (writeImage_post h _ _ _ _ _ _ _ _ _) fun _ h => Post.bind (wr_post h _ _ _) fun _ h => Post.ok (addWiden_wf h _)

theorem writeEscaped_post (h : w.Wf) (d : Desc) (i a n : Nat) (wr : Writer) (em : Option Int) (z nf : Bool) : Post Work.Wf (writeEscaped ok w d i a n wr em z nf) := wr_post h _ _ _

theorem writeSlag_post (h : w.Wf) (d : Desc) (i : Nat) (wr : Writer) (dir : PoolDir) (h0 : Header) (n : Nat) (sl : List SlagItem) : Post Work.Wf (writeSlag ok w d i wr dir h0 n sl) := by
  unfold writeSlag
  have fin : ∀ (a : Nat) (bs : List Byte) (p : PoolDir) (b : Bool), Post Work.Wf (do
      let w ← w.wr ok 0 a bs
      let w ← writeDir ok w d wr.core p
      .ok (if b = true then w else w.addOver d)) := fun _ _ _ b =>
    Post.bind (wr_post h _ _ _) fun _ h => Post.bind (writeDir_post h _ _ _) fun _ h => Post.ok (by split; exact h; exact addOver_wf h _)
  dsimp only
  split
  · exact Post.any fun _ => fin _ _ _ _
  · exact Post.any fun _ => fin _ _ _ _

theorem writeNarrow_post (h : w.Wf) (d : Desc) (i a : Nat) (wr : Writer) (lo n : Nat) (m : Bool) (h0 : Header) (dir : PoolDir) (xs es : List Nat) (sl : List SlagItem) :
    Post Work.Wf (writeNarrow ok w d i a wr lo n m h0 dir xs es sl) := by
  unfold writeNarrow
  dsimp only
  exact Post.ite (Post.bind (Post.ok h) fun _ h => writeRecord_post h _ _ _ _ _ _ _) (Post.bind (writeSlag_post h _ _ _ _ _ _ _) fun _ h => writeRecord_post h _ _ _ _ _ _ _)

theorem writeEscape_post (h : w.Wf) (d : Desc) (o r a : Nat) (wr : Writer) (lo : Nat) (dir : PoolDir) (fs : List Nat) (cur : Tile) : Post Work.Wf (writeEscape ok w d o r a wr lo dir fs cur) := by
  unfold writeEscape
  dsimp only
  split
  · exact Post.bind (writeImage_post h _ _ _ _ _ _ _ _ _) fun _ h => Post.bind (writeDir_post h _ _ _) fun _ h => writeEscaped_post h _ _ _ _ _ _ _ _
  · refine Post.bind (writeDir_post h _ _ _) fun _ h => ?_
    split
    · exact writeWidened_post h _ _ _ _ _ _ _ _ _
    · exact Post.any fun _ => Post.bind (writeEscaped_post h _ _ _ _ _ _ _ _) fun _ h => Post.ok (addOver_wf h _)

theorem writeAgain_post (h : w.Wf) (d : Desc) (i a : Nat) (wr : Writer) (lo : Nat) (h0 : Header) (dir : PoolDir) (fs : List Nat) (cur : Tile) : Post Work.Wf (writeAgain ok w d i a wr lo h0 dir fs cur) := by
  unfold writeAgain
  refine Post.bind (writeImage_post h _ _ _ _ _ _ _ _ _) fun _ h2 => writeEscaped_post ?_ _ _ _ _ _ _ _ _
  split
  · exact h2
  · exact h

theorem writeWide_post (h : w.Wf) (d : Desc) (o r a : Nat) (wr : Writer) (lo : Nat) (m : Bool) (h0 : Header) (fs : List Nat) (cur : Tile) : Post Work.Wf (writeWide ok w d o r a wr lo m h0 fs cur) := by
  unfold writeWide
  split
  · exact Post.any fun _ => writeWidened_post h _ _ _ _ _ _ _ _ _
  · exact writeWidened_post h _ _ _ _ _ _ _ _ _

theorem writeAs_post (h : w.Wf) (d : Desc) (o r a : Nat) (wr : Writer) (lo n : Nat) (m e : Bool) (h0 : Header) (dir : PoolDir) (xs es : List Nat) (sl : List SlagItem) (fs : List Nat) (cur : Tile) :
    Post Work.Wf (writeAs ok w d o r a wr lo n m e h0 dir xs es sl fs cur) := by
  unfold writeAs
  dsimp only
  refine Post.ite (writeWide_post h _ _ _ _ _ _ _ _ _ _) (Post.ite (writeAgain_post h _ _ _ _ _ _ _ _ _) (Post.ite (writeEscape_post h _ _ _ _ _ _ _ _ _) (Post.ite ?_ (writeNarrow_post h _ _ _ _ _ _ _ _ _ _ _ _))))
  exact Post.bind (writeDir_post h _ _ _) fun _ h => writeWidened_post h _ _ _ _ _ _ _ _ _

theorem writeTile_post (h : w.Wf) (d : Desc) (o r a : Nat) (wr : Writer) (lo n : Nat) (m : Bool) (val : Nat → Option Num) : Post Work.Wf (writeTile ok w d o r a wr lo n m val) :=
  Post.any fun _ => Post.any fun _ => Post.any fun _ => writeAs_post h _ _ _ _ _ _ _ _ _ _ _ _ _ _ _ _

/-! The M slot's units -/

variable {sl : Vector Slot 5} {st : CoreStat}

theorem runMxa_post (h : w.Wf) (e : BitVec 16) (a b d : Desc) (x : Option Desc) (c : Bool) (rs : W64) : Post (fun r => r.work.Wf) (runMxa ok w sl st e a b d x c rs) := by
  unfold runMxa
  split
  · exact Post.error
  · exact Post.any fun _ => Post.any fun _ => Post.any fun _ => Post.ok h

theorem runFold_post (h : w.Wf) (e : BitVec 16) (a b d : Desc) (x : Option Desc) (c : Bool) (rs : W64) (k : Bool) : Post (fun r => r.work.Wf) (runFold ok w sl st e a b d x c rs k) := by
  unfold runFold
  split
  · exact Post.error
  · exact Post.any fun _ => Post.any fun _ => Post.any fun _ => Post.ok h

theorem runSpark_post (h : w.Wf) (e : BitVec 16) (a b d : Desc) (x : Option Desc) (f : SparkOp) (rs rt : W64) : Post (fun r => r.work.Wf) (runSpark ok w sl st e a b d x f rs rt) := by
  unfold runSpark
  split
  · exact Post.error
  · split
    · exact Post.error
    · dsimp only
      split
      · exact Post.error
      · split
        · exact Post.error
        · split
          · exact Post.error
          · exact Post.any fun _ => Post.any fun _ => Post.ok h

theorem runBrnd_post (h : w.Wf) (wr : Writer) (d : Desc) (f : BrndOp) (rb rsc : W64) : Post (fun r => r.work.Wf) (runBrnd ok w sl st wr d f rb rsc) := by
  unfold runBrnd
  dsimp only
  split
  · exact Post.error
  · repeat' first
      | with_reducible exact Post.error
      | with_reducible exact Post.ok ‹_›
      | with_reducible refine Post.ite ?_ ?_
      | with_reducible refine Post.bind (P := Work.Wf) (wr_post ‹_› _ _ _) fun _ _ => ?_
      | with_reducible refine Post.bind (P := Work.Wf) (Post.foldlM (fun _ _ h => writeTile_post h _ _ _ _ _ _ _ _ _) _ _ ‹_›) fun _ _ => ?_
      | with_reducible refine Post.bind (P := Work.Wf) (Post.ok ‹_›) fun _ _ => ?_
      | with_reducible refine Post.any fun _ => ?_

theorem runAttn_post (h : w.Wf) (wr : Writer) (n : Nat) (q k v : Desc) (ke ve : Option Desc) (o : Desc) (f : AttnOp) (rs rm : W64) (x : Option W32) :
    Post (fun r => r.work.Wf) (runAttn ok w sl st wr n q k v ke ve o f rs rm x) := by
  unfold runAttn
  dsimp only
  repeat' first
    | with_reducible exact Post.error
    | with_reducible exact Post.ok ‹_›
    | with_reducible refine Post.ite ?_ ?_
    | with_reducible refine Post.bind (P := Work.Wf) (wr_post ‹_› _ _ _) fun _ _ => ?_
    | with_reducible refine Post.bind (P := Work.Wf) (Post.foldlM (fun _ _ h => writeTile_post h _ _ _ _ _ _ _ _ _) _ _ ‹_›) fun _ _ => ?_
    | with_reducible refine Post.bind (P := Work.Wf) (Post.ok ‹_›) fun _ _ => ?_
    | with_reducible refine Post.any fun _ => ?_

theorem runNormStat_post (h : w.Wf) (x y : Desc) (f : NormOp) (rs rg : W64) : Post (fun r => r.work.Wf) (runNormStat ok w sl st x y f rs rg) := by
  unfold runNormStat
  dsimp only
  repeat' first
    | with_reducible exact Post.error
    | with_reducible exact Post.ok ‹_›
    | with_reducible refine Post.ite ?_ ?_
    | with_reducible refine Post.bind (P := Work.Wf) (wr_post ‹_› _ _ _) fun _ _ => ?_
    | with_reducible refine Post.bind (P := Work.Wf) (Post.foldlM (fun _ _ h => writeTile_post h _ _ _ _ _ _ _ _ _) _ _ ‹_›) fun _ _ => ?_
    | with_reducible refine Post.bind (P := Work.Wf) (Post.ok ‹_›) fun _ _ => ?_
    | with_reducible refine Post.any fun _ => ?_

theorem runNormApply_post (h : w.Wf) (wr : Writer) (x y : Desc) (f : NormOp) (rs rg : W64) (vs : VReg) : Post (fun r => r.work.Wf) (runNormApply ok w sl st wr x y f rs rg vs) := by
  unfold runNormApply
  dsimp only
  repeat' first
    | with_reducible exact Post.error
    | with_reducible exact Post.ok ‹_›
    | with_reducible refine Post.ite ?_ ?_
    | with_reducible refine Post.bind (P := Work.Wf) (wr_post ‹_› _ _ _) fun _ _ => ?_
    | with_reducible refine Post.bind (P := Work.Wf) (Post.foldlM (fun _ _ h => writeTile_post h _ _ _ _ _ _ _ _ _) _ _ ‹_›) fun _ _ => ?_
    | with_reducible refine Post.bind (P := Work.Wf) (Post.ok ‹_›) fun _ _ => ?_
    | with_reducible refine Post.any fun _ => ?_

end Sys2Proof.Machine
end

