-- ==== Sys2Proof/Laws/KeepsCore.lean ====
section
/-! SUPPORT. What the M queue, the governor, the barriers and the issue of a bundle keep (Machine/MUnit.lean, Machine/SyncOps.lean, Machine/Operands.lean, Machine/MSlot.lean). -/

namespace Sys2Proof.Machine

variable {s : State}

/-! The governor, the walker, the M queue -/

theorem requestStart_keeps (g : Fin 512) (u : DrawUnit) (d : Nat) : Keeps s (s.requestStart g u d).2 := by
  unfold State.requestStart
  dsimp only
  split
  · split
    · exact modHearth_keeps fun _ h => h
    · exact Keeps.refl _
  · split
    · exact Keeps.refl _
    · exact modHearth_keeps fun _ h => h

theorem lab_erase_bound {l : List LabEntry} {e : LabEntry} (h : l.length ≤ 512) (he : e ∈ l) : (e :: l.erase e).length ≤ 512 := by
  have := List.length_erase_of_mem he
  have : 0 < l.length := List.length_pos_of_mem he
  simp only [List.length_cons]
  omega

theorem walkRequest_keeps (g : Fin 512) (q : Option (Fin 8)) (t : BitVec 48) (k : Nat) : Keeps s (s.walkRequest g q t k).2 := by
  unfold State.walkRequest
  dsimp only
  split
  · rename_i e he
    refine ⟨rfl, Nat.le_refl _, fun w => ⟨w.1, w.2.1, forall_set w.2.2.1 (fun h => ⟨h.1, lab_erase_bound h.2 (List.mem_of_find?_eq_some he)⟩), w.2.2.2⟩⟩
  · split
    · exact modHearth_keeps fun _ h => h
    · exact modHearth_keeps fun _ h => h

theorem mRun_post (g : Fin 512) (op : MOp) (x : Option W32) (h : s.Wf) : Post (fun r => r.work.Wf) (s.mRun g op x) := by
  unfold State.mRun
  dsimp only
  split
  · exact runMxa_post (work_wf h) _ _ _ _ _ _ _
  · exact runFold_post (work_wf h) _ _ _ _ _ _ _ _
  · exact runBrnd_post (work_wf h) _ _ _ _ _
  · exact runSpark_post (work_wf h) _ _ _ _ _ _ _ _
  · exact runAttn_post (work_wf h) _ _ _ _ _ _ _ _ _ _ _ _
  · exact runNormStat_post (work_wf h) _ _ _ _ _
  · exact runNormApply_post (work_wf h) _ _ _ _ _ _ _

theorem runHead_keeps (g : Fin 512) (e : MEntry) (x : Option W32) : Keeps s (s.runHead g e x) := by
  unfold State.runHead
  split
  · exact coreFault_keeps _ _ _ _ _ _
  · rename_i r hr
    split
    · exact coreFault_keeps _ _ _ _ _ _
    refine putWork_keeps ?_ fun w => mRun_post g e.op x w r hr
    refine Keeps.trans ?_ (modCore_keeps fun _ h => h)
    exact modCore_keeps fun _ h => h

theorem startFetch_keeps (g : Fin 512) (e : MEntry) (ke : Desc) (k : Nat) : Keeps s (s.startFetch g e ke k) := by
  unfold State.startFetch
  refine ite_keeps (fun _ => modCore_keeps fun _ h => h) fun _ => ?_
  dsimp only
  split
  · exact coreFault_keeps _ _ _ _ _ _
  · have h0 := walkRequest_keeps (s := s) g none (BitVec.ofNat 48 (pTable ke)) (k / 256)
    split <;> rename_i h <;> rw [h] at h0 <;> refine h0.trans ?_ <;> exact modCore_keeps fun _ h => h

theorem startHead_keeps (g : Fin 512) : Keeps s (s.startHead g) := by
  unfold State.startHead
  split
  · exact Keeps.refl _
  · rename_i e _
    refine ite_keeps (fun _ => Keeps.refl _) fun _ => ?_
    have h0 := requestStart_keeps (s := s) g .m (mDraw e.op)
    split <;> rename_i h <;> rw [h] at h0
    · exact h0
    · refine h0.trans ?_
      split
      · exact ite_keeps (fun _ => startFetch_keeps _ _ _ _) fun _ => coreFault_keeps _ _ _ _ _ _
      · exact runHead_keeps _ _ _

theorem fetchDone_keeps (g : Fin 512) : Keeps s (s.fetchDone g) := by
  unfold State.fetchDone
  split
  · exact Keeps.refl _
  · refine ite_keeps (fun _ => Keeps.refl _) fun _ => ?_
    split
    · refine ite_keeps (fun _ => runHead_keeps _ _ _) fun _ => ?_
      split
      · exact runHead_keeps _ _ _
      · exact Keeps.refl _
    · exact Keeps.refl _

/-- A register write leaves a core's memories. -/
theorem applyWrite_mems (c : Core) (w : RegWrite) : (c.applyWrite w).spad = c.spad ∧ (c.applyWrite w).imem = c.imem := by
  unfold Core.applyWrite
  split
  · split <;> exact ⟨rfl, rfl⟩
  · exact ⟨rfl, rfl⟩
  · split <;> exact ⟨rfl, rfl⟩
  · exact ⟨rfl, rfl⟩
  · exact ⟨rfl, rfl⟩

theorem applyWrite_wf {c : Core} (h : c.Wf) (w : RegWrite) : (c.applyWrite w).Wf := by
  have := applyWrite_mems c w
  exact ⟨this.1 ▸ h.1, this.2 ▸ h.2⟩

theorem applyWrites_wf (ws : List RegWrite) : ∀ {c : Core}, c.Wf → (ws.foldl Core.applyWrite c).Wf := by
  induction ws with
  | nil => exact fun h => h
  | cons w r ih => exact fun h => ih (applyWrite_wf h w)

theorem completeHead_keeps (g : Fin 512) : Keeps s (s.completeHead g) := by
  unfold State.completeHead
  split
  · exact Keeps.refl _
  · rename_i e _
    refine ite_keeps (fun _ => Keeps.refl _) fun _ => Keeps.trans ?_ (startHead_keeps _)
    exact modCore_keeps fun c h => applyWrites_wf e.writes h

theorem grantNext_keeps (h : Fin 8) : Keeps s (s.grantNext h) := by
  unfold State.grantNext
  split
  · exact Keeps.refl _
  · exact then_keeps (modHearth_keeps fun _ h => h) (startHead_keeps _)

/-! Tokens, arrival, rounds -/

theorem tryWait_wf {c : Core} (h : c.Wf) : c.tryWait.Wf := by
  unfold Core.tryWait
  split
  · exact h
  · dsimp only
    split <;> exact h

theorem fetchPast_keeps (s : State) (g : Fin 512) : Keeps s (s.fetchPast g) :=
  ite_keeps (fun _ => coreFault_keeps _ _ _ _ _ _) fun _ => Keeps.refl _

theorem tokenAdd_keeps (g : Fin 512) (t : Fin 64) (n : Nat) (e : BitVec 16) : Keeps s (s.tokenAdd g t n e) :=
  ite_keeps (fun _ => coreFault_keeps _ _ _ _ _ _) fun _ => Keeps.trans (by exact setCore_keeps fun h => tryWait_wf h) (fetchPast_keeps _ _)

theorem barrierMismatch_keeps (p : Fin 8) (g : Fin 512) (a : Arrival) : Keeps s (s.barrierMismatch p g a) := endTask_keeps _ _ _

theorem arriveOne_keeps (p : Fin 8) (g : Fin 512) : Keeps s (s.arriveOne p g) := by
  unfold State.arriveOne
  split
  · exact Keeps.refl _
  · dsimp only
    split
    · exact Keeps.refl _
    · split
      · refine ite_keeps (fun _ => modCore_keeps fun _ h => h) fun _ => Keeps.trans ?_ (barrierMismatch_keeps _ _ _)
        exact modCore_keeps fun _ h => h
      · exact modCore_keeps fun _ h => h

theorem arriveAll_keeps (p : Fin 8) : Keeps s (s.arriveAll p) := foldl_keeps (fun _ _ => arriveOne_keeps _ _) _ _

theorem roundStep_keeps (p : Fin 8) (n e : BitVec 16) (b : Bool) : ∀ (fuel : Nat) (s : State), Keeps s (s.roundStep p n e b fuel)
  | 0, s => Keeps.refl s
  | fuel + 1, s => by
    unfold State.roundStep
    split
    · exact Keeps.refl _
    · dsimp only
      split
      · exact (unitControl_keeps _ _ _).trans (modTask_keeps.trans (roundStep_keeps p n e b fuel _))
      · split
        · exact Keeps.refl _
        · split
          · exact Keeps.refl _
          · split
            · exact Keeps.trans (by exact modPart_keeps fun _ h => h) (endTask_keeps _ _ _)
            · refine Keeps.trans ?_ (roundStep_keeps p n e b fuel _)
              refine then_keeps (Keeps.trans ?_ modTask_keeps) (unitControl_keeps _ _ _)
              exact modPart_keeps fun _ h => h

theorem pumpRounds_keeps (p : Fin 8) : Keeps s (s.pumpRounds p) := by
  unfold State.pumpRounds
  split
  · exact Keeps.refl _
  · refine ite_keeps (fun _ => Keeps.refl _) fun _ => ite_keeps (fun _ => roundStep_keeps _ _ _ _ _ _) fun _ => ite_keeps (fun _ => ?_) fun _ => Keeps.refl _
    split
    · exact roundStep_keeps _ _ _ _ _ _
    · exact Keeps.refl _

theorem settle_keeps (g : Fin 512) : Keeps s (s.settle g) := by
  unfold State.settle
  split
  · exact ite_keeps (fun _ => (arriveAll_keeps _).trans (pumpRounds_keeps _)) fun _ => Keeps.refl _
  · exact Keeps.refl _

/-! The issue of a bundle -/

/-- A chain of changes of a core keeps its memories' form. -/
theorem foldl_core_wf {β : Type} {f : Core → β → Core} (hf : ∀ c b, c.Wf → (f c b).Wf) : ∀ (l : List β) {c : Core}, c.Wf → (l.foldl f c).Wf
  | [], _, h => h
  | b :: r, _, h => foldl_core_wf hf r (hf _ b h)

theorem storesMasked_wf (xs : List (Nat × List (Option Byte))) : ∀ {m : List Host.Cell}, Memory.wf m = true → Memory.wf (xs.foldl (fun m x => writeMasked m x.1 x.2) m) = true := by
  induction xs with
  | nil => exact fun h => h
  | cons x r ih => exact fun h => ih (writeMasked_wf _ h)

theorem commit_wf {c : Core} (h : c.Wf) (e : Staged) (n : Nat) : (c.commit e n).Wf := by
  unfold Core.commit
  dsimp only
  refine foldl_core_wf ?_ _ (foldl_core_wf ?_ _ ?_)
  · exact fun _ _ h => h
  · exact fun _ _ h => h
  exact ⟨storesMasked_wf _ h.1, h.2⟩

theorem applyCtl_keeps (g : Fin 512) (b : BitVec 13) (n : Nat) (x : Ctl) : Keeps s (s.applyCtl g b n x) := by
  unfold State.applyCtl
  split
  · exact modCore_keeps fun _ h => h
  · dsimp only
    split
    · exact Keeps.trans (by exact modCore_keeps fun _ h => h) modTask_keeps
    · exact modCore_keeps fun _ h => h
  · exact coreFault_keeps _ _ _ _ _ _
  · exact ⟨rfl, Nat.le_refl _, id⟩
  · exact modCore_keeps fun c h => tryWait_wf (c := { c with wait := _, mode := _ }) h
  · exact modCore_keeps fun _ h => h
  · exact Keeps.trans (by exact modCore_keeps fun _ h => h) (settle_keeps _)
  · exact ite_keeps (fun _ => ite_keeps (fun _ => ownToken_keeps _ _ _ _ _) fun _ => Keeps.refl _) fun _ => collStart_keeps _ _

theorem commitBundle_keeps (g : Fin 512) (b : Bundle) : Keeps s (s.commitBundle g b) := by
  unfold State.commitBundle
  dsimp only
  have h1 : Keeps s (s.setCore g { (s.core g).commit b.eff s.now with pc := (s.core g).pc + 1 }) := setCore_keeps fun h => commit_wf h _ _
  refine then_keeps (then_keeps (h1.trans (foldl_keeps (fun _ _ => applyCtl_keeps _ _ _ _) _ _)) (startHead_keeps _)) (Keeps.trans ?_ (fetchPast_keeps _ _))
  exact modCore_keeps fun _ h => h

theorem issue_keeps (g : Fin 512) : Keeps s (s.issue g) := by
  unfold State.issue
  dsimp only
  refine Keeps.trans (t := s.modCore g fun c => { c with bundle := Bundle.empty }) (modCore_keeps fun _ h => h) ?_
  generalize (s.modCore g fun c => { c with bundle := Bundle.empty }) = t
  refine ite_keeps (fun _ => coreFault_keeps _ _ _ _ _ _) fun _ => ite_keeps (fun _ => Keeps.refl _) fun _ => ?_
  split
  · exact coreFault_keeps _ _ _ _ _ _
  · refine ite_keeps (fun _ => commitBundle_keeps _ _) fun _ => ?_
    split <;> rename_i h <;> have h0 := requestStart_keeps (s := t) g .v (s.core g).bundle.eff.vDraw <;> rw [h] at h0
    · exact h0.trans (commitBundle_keeps _ _)
    · exact h0

/-- What every command that ends in a next state leaves. -/
def KeepsO (s : State) (r : Host.Outcome State Fault Refusal) : Prop := ∃ t, r = .next t ∧ Keeps s t

theorem KeepsO.next {t : State} (h : Keeps s t) : KeepsO s (.next t) := ⟨t, rfl, h⟩

/-- Every slot's instruction, whatever it does: presenting it. -/
theorem present_keeps (i : Issue) (o : SlotOp) (act : Core → PReg → Act) : KeepsO s (present i o act s) := by
  unfold present
  dsimp only
  split
  · exact .next (Keeps.refl _)
  · refine .next ?_
    have h1 : Keeps s (s.setCore i.core { s.core i.core with bundle := (s.core i.core).bundle.add (s.core i.core) i o (act (s.core i.core)) }) := setCore_keeps fun h => h
    exact then_keeps h1 (issue_keeps _)

end Sys2Proof.Machine
end

