-- ==== Sys2Proof/Laws/KeepsSync.lean ====
section
/-! SUPPORT. What the events of the M queue, the barriers, tokens, work counters, collectives and DMA transfers keep (Machine/MSlot.lean, Machine/Sync.lean, Machine/Dma.lean). -/

namespace Sys2Proof.Machine

variable {s : State}

/-! The M queue -/

theorem execMInstructionComplete_keeps (g : Fin 512) : KeepsO s (execMInstructionComplete g s) :=
  .next (ite_keeps (fun _ => (completeHead_keeps _).trans (settle_keeps _)) fun _ => Keeps.refl _)

theorem execDrawGrant_keeps (h : Fin 8) : KeepsO s (execDrawGrant h s) := .next (grantNext_keeps _)

theorem execAttnFetchComplete_keeps (g : Fin 512) : KeepsO s (execAttnFetchComplete g s) := .next (fetchDone_keeps _)

theorem servePage_wf {c : Core} (h : c.Wf) (who : Option (Fin 8)) (k : Nat) (x : W32) : (c.servePage who k x).Wf := by
  unfold Core.servePage
  split <;> exact h

theorem pageLost_keeps (g : Fin 512) (who : Option (Fin 8)) : Keeps s (s.pageLost g who) := by
  unfold State.pageLost
  refine ite_keeps (fun _ => Keeps.refl _) fun _ => ?_
  split
  · exact coreFault_keeps _ _ _ _ _ _
  · exact coreFault_keeps _ _ _ _ _ _

theorem execKvWalkReadDone_keeps (h : Fin 8) (t : BitVec 48) (k : Nat) : KeepsO s (execKvWalkReadDone h t k s) := by
  unfold execKvWalkReadDone
  refine .next ?_
  split
  · exact Keeps.refl _
  · refine ite_keeps (fun _ => ?_) fun _ => ?_
    · refine Keeps.trans ?_ (foldl_keeps (fun _ _ => pageLost_keeps _ _) _ _)
      exact modHearth_keeps fun _ h => h
    refine Keeps.trans ?_ (foldl_keeps (fun _ r => modCore_keeps fun _ h => servePage_wf h _ _ _) _ _)
    refine modHearth_keeps fun x hx => ⟨hx.1, ?_⟩
    dsimp only
    split
    · exact List.length_take_le _ _
    · exact hx.2

/-! Barriers -/

theorem leave_wf {c : Core} (h : c.Wf) : c.leave.Wf := h

theorem releaseBarrier_keeps (h : Fin 8) (n : Nat) : Keeps s (s.releaseBarrier h n) := by
  unfold State.releaseBarrier
  split
  · exact Keeps.refl _
  · refine ite_keeps (fun _ => ?_) fun _ => Keeps.refl _
    refine Keeps.trans ?_ (foldl_keeps (fun _ _ => fetchPast_keeps _ _) _ _)
    exact modCores_keeps fun _ _ h => leave_wf h

theorem execHbarComplete_keeps (h : Fin 8) : KeepsO s (execHbarComplete h s) := .next (releaseBarrier_keeps _ _)

theorem execMbarComplete_keeps (h : Fin 8) : KeepsO s (execMbarComplete h s) := by
  unfold execMbarComplete
  refine .next ?_
  split
  · exact ite_keeps (fun _ => modHearth_keeps fun _ h => h) fun _ => releaseBarrier_keeps _ _
  · exact Keeps.refl _

theorem widenTile_post {ok : Admit} {w : Work} (h : w.Wf) (d : Desc) (wr : Writer) (i : Nat) : Post Work.Wf (widenTile ok w d wr i) := by
  unfold widenTile
  refine Post.any fun _ => ?_
  exact Post.ite (Post.ok h) (Post.any fun _ => writeWidened_post h _ _ _ _ _ _ _ _ _)

theorem widenPass_keeps (p : Fin 8) : Keeps s (s.widenPass p) := by
  unfold State.widenPass
  refine foldl_keeps (fun t e => ?_) _ _
  split
  · exact Keeps.refl _
  · refine foldl_keeps (fun u i => ?_) _ _
    dsimp only
    split
    · rename_i w hw
      exact putWork_keeps (Keeps.refl _) fun h => widenTile_post (work_wf h) _ _ _ w hw
    · exact coreFault_keeps _ _ _ _ _ _

theorem leaveEpoch_wf {c : Core} (h : c.Wf) : c.leaveEpoch.Wf := by
  unfold Core.leaveEpoch
  dsimp only
  split <;> exact h

theorem poolFull_keeps (p : Fin 8) (x : W32 × BitVec 48) : Keeps s (s.poolFull p x) := endTask_keeps _ _ _

theorem leaveEbar_keeps (p : Fin 8) (t : Task) : Keeps s (s.leaveEbar p t) := by
  unfold State.leaveEbar
  dsimp only
  have h1 : Keeps s (s.modCores (s.participants p 2 p) fun _ => Core.leaveEpoch) := modCores_keeps fun _ _ h => leaveEpoch_wf h
  generalize (s.modCores (s.participants p 2 p) fun _ => Core.leaveEpoch) = a at h1 ⊢
  have h2 := h1.trans (foldl_keeps (f := fun s h => if s.inPart p h then s.modHearth h fun x => { x with lab := [] } else s)
    (fun _ _ => ite_keeps (fun _ => modHearth_keeps fun _ h => ⟨h.1, Nat.zero_le _⟩) fun _ => Keeps.refl _) (List.finRange 8) a)
  generalize (List.finRange 8).foldl (fun s h => if s.inPart p h then s.modHearth h fun x => { x with lab := [] } else s) a = b at h2 ⊢
  have h3 := h2.trans (modTask_keeps (p := p) (f := fun t => { t with ordinal := satAdd t.ordinal 1, rounds := 0, overs := [] }))
  generalize (b.modTask p fun t => { t with ordinal := satAdd t.ordinal 1, rounds := 0, overs := [] }) = c at h3 ⊢
  refine h3.trans (ite_keeps (fun _ => endTask_keeps _ _ _) fun _ => ite_keeps (fun _ => endTask_keeps _ _ _) fun _ => ite_keeps (fun _ => ?_) fun _ => foldl_keeps (fun _ _ => fetchPast_keeps _ _) _ _)
  refine Keeps.trans ?_ (modPart_keeps fun _ h => h)
  refine Keeps.trans ?_ modTask_keeps
  exact modCores_keeps fun _ _ h => h

theorem execEbarComplete_keeps (h : Fin 8) : KeepsO s (execEbarComplete h s) := by
  unfold execEbarComplete
  refine .next ?_
  split
  · exact Keeps.refl _
  · refine ite_keeps (fun _ => ?_) fun _ => Keeps.refl _
    rename_i p _ _
    dsimp only
    have h1 : Keeps s ((s.widenPass p).modHearth p fun x => { x with widenPass := false }) := (widenPass_keeps p).trans (modHearth_keeps fun _ h => h)
    generalize ((s.widenPass p).modHearth p fun x => { x with widenPass := false }) = a at h1
    refine h1.trans ?_
    split
    · exact Keeps.refl _
    · refine ite_keeps (fun _ => Keeps.refl _) fun _ => ?_
      split
      · exact poolFull_keeps _ _
      · exact leaveEbar_keeps _ _

/-! Tokens -/

theorem tokenGo_keeps (m : TokMsg) : Keeps s (s.tokenGo m) := by
  unfold State.tokenGo
  split
  · exact ite_keeps (fun _ => tokenAdd_keeps _ _ _ _) fun _ => Keeps.refl _
  · exact sendControl_keeps _ _ _ _ _ _ _ _ _

theorem execTokenSignalArrive_keeps (n : Nat) : KeepsO s (execTokenSignalArrive n s) := by
  unfold execTokenSignalArrive
  refine .next ?_
  split
  · exact Keeps.refl _
  · have h1 : Keeps s { s with tokens := s.tokens.eraseIdx n } := ⟨rfl, Nat.le_refl _, id⟩
    exact ite_keeps (fun _ => h1) fun _ => ite_keeps (fun _ => Keeps.refl _) fun _ => h1.trans (tokenGo_keeps _)

theorem execWaitTimeout_keeps (g : Fin 512) : KeepsO s (execWaitTimeout g s) := by
  unfold execWaitTimeout
  refine .next ?_
  split
  · exact Keeps.refl _
  · exact ite_keeps (fun _ => (reach_keeps _ _).trans (coreFault_keeps _ _ _ _ _ _)) fun _ => Keeps.refl _

/-! Work counters -/

theorem modWctr_keeps {h : Fin 8} {n : Fin 64} {f : WorkCounter → WorkCounter} : Keeps s (s.modWctr h n f) := modHearth_keeps fun _ h => h

theorem setBmapBit_wf {m : Mem} (h : m.Wf) (a i : Nat) : (setBmapBit m a i).Wf := mem_write_wf h _ _

theorem setBmapBits_wf (a v : Nat) (l : List Nat) : ∀ {m : Mem}, m.Wf → (l.foldl (fun m i => setBmapBit m a (v + i)) m).Wf := by
  induction l with
  | nil => exact fun h => h
  | cons i r ih => exact fun h => ih (setBmapBit_wf h _ _)

theorem markBmap_keeps (g : Fin 512) (w : WorkCounter) (v n : Nat) : KeepsE s (s.markBmap g w v n) := by
  unfold State.markBmap
  dsimp only
  split
  · exact KeepsE.error
  · split
    · exact KeepsE.error
    · split
      · exact KeepsE.error
      · split
        · exact KeepsE.error
        · exact KeepsE.ok (setMem_keeps fun h => setBmapBits_wf _ _ _ h)

theorem modClaim_wf {c : Core} (h : c.Wf) (x : Fin 8) (n : Fin 64) (f : Claim → Claim) : (c.modClaim x n f).Wf := h

theorem takeGrant_keeps (g : Fin 512) (h : Fin 8) (n : Fin 64) (k : BitVec 16) (i : Nat) : Keeps s (s.takeGrant g h n k i) := modWctr_keeps

theorem countGrant_keeps (g : Fin 512) (n : Nat) : Keeps s (s.countGrant g n) := by
  unfold State.countGrant
  split
  · exact ite_keeps (fun _ => Keeps.refl _) fun _ => modTask_keeps
  · exact Keeps.refl _

theorem claimMarked_keeps (b : Bool) (g : Fin 512) (w : WorkCounter) (v n : Nat) : KeepsE s (if b = true then s.markBmap g w v n else .ok s) := by
  by_cases hb : b = true
  · rw [if_pos hb]
    exact markBmap_keeps _ _ _ _
  · rw [if_neg hb]
    exact KeepsE.ok (Keeps.refl _)

theorem execWclaimExecute_keeps (g : Fin 512) (h : Fin 8) (n : Fin 64) : KeepsO s (execWclaimExecute g h n s) := by
  unfold execWclaimExecute
  refine .next ?_
  split
  · exact Keeps.refl _
  · dsimp only
    refine ite_keeps (fun _ => Keeps.refl _) fun _ => ?_
    split
    · rename_i hu
      refine Keeps.trans (claimMarked_keeps _ _ _ _ _ _ hu) (Keeps.trans ?_ (modCore_keeps fun _ h => h))
      exact Keeps.trans (takeGrant_keeps _ _ _ _ _) (countGrant_keeps _ _)
    · exact coreFault_keeps _ _ _ _ _ _

theorem execWclaimResponse_keeps (g : Fin 512) (h : Fin 8) (n : Fin 64) (b : Bool) : KeepsO s (execWclaimResponse g h n b s) := by
  unfold execWclaimResponse
  refine .next ?_
  split
  · exact Keeps.refl _
  · refine ite_keeps (fun _ => Keeps.refl _) fun _ => ite_keeps (fun _ => ?_) fun _ => ite_keeps (fun _ => coreFault_keeps _ _ _ _ _ _) fun _ => modCore_keeps fun _ h => h
    split
    · exact Keeps.refl _
    · exact modCore_keeps fun c h => applyWrites_wf _ h

theorem writeWctrCtl_keeps (h : Fin 8) (n : Fin 64) (v : W32) : Keeps s (s.writeWctrCtl h n v) := ite_keeps (fun _ => modWctr_keeps) fun _ => Keeps.refl _

theorem execBmapClr_keeps (h : Fin 8) (n : Fin 64) (v : BitVec 32) : KeepsO s (execBmapClr h n v s) := .next (barWrite_keeps (writeWctrCtl_keeps _ _ _))

theorem clearBmap_wf {m : Mem} (h : m.Wf) (a n : Nat) : (clearBmap m a n).Wf := ⟨writeByte_wf (clearRange_wf h.1), h.2⟩

theorem execBmapClearDone_keeps (h : Fin 8) (n : Fin 64) : KeepsO s (execBmapClearDone h n s) := by
  unfold execBmapClearDone
  refine .next (ite_keeps (fun _ => ?_) fun _ => Keeps.refl _)
  exact then_keeps modWctr_keeps (setMem_keeps fun h => clearBmap_wf h _ _)

theorem execScoreboardClear_keeps (g : Fin 512) (r : Reg) : KeepsO s (execScoreboardClear g r s) := by
  unfold execScoreboardClear
  refine .next ?_
  split
  · exact Keeps.refl _
  · exact modCore_keeps fun _ h => applyWrite_wf h _

/-! Collectives -/

theorem execCollectiveComplete_keeps (g : Fin 512) (x : BitVec 32) : KeepsO s (execCollectiveComplete g x s) := by
  unfold execCollectiveComplete
  refine .next ?_
  split
  · exact Keeps.refl _
  · refine ite_keeps (fun _ => Keeps.refl _) fun _ => ?_
    refine Keeps.trans ?_ (settle_keeps _)
    exact then_keeps (modCore_keeps fun _ h => h) (ownToken_keeps _ _ _ _ _)

theorem execCollTimeout_keeps (g : Fin 512) (x : BitVec 32) : KeepsO s (execCollTimeout g x s) := by
  unfold execCollTimeout
  refine .next ?_
  split
  · exact Keeps.refl _
  · exact ite_keeps (fun _ => Keeps.refl _) fun _ => (reach_keeps _ _).trans (collFault_keeps _ _ _ _)

/-! DMA -/

theorem writeLoc_keeps (g : Fin 512) (l : Loc) (a : Nat) (bs : List Byte) : Keeps s (s.writeLoc g l a bs).1 := by
  unfold State.writeLoc
  dsimp only
  split
  · exact setMem_keeps fun h => mem_write_wf h _ _
  · exact modCore_keeps fun _ h => putSpad_wf h _ _
  · exact modCore_keeps fun _ h => putImem_wf h _ _

theorem writePieces_keeps (g : Fin 512) (l : Loc) : ∀ (ps : List (Nat × List Byte)) (s : State), Keeps s (State.writePieces g l ps s).1
  | [], s => Keeps.refl s
  | (o, bs) :: r, s => by
    unfold State.writePieces
    have h := writeLoc_keeps (s := s) g l (l.off.toNat + o) bs
    split <;> rename_i e <;> rw [e] at h
    · exact h
    · exact h.trans (writePieces_keeps g l r _)

theorem wrLines_wf {ok : Admit} {w : Work} (h : w.Wf) (a : Nat) (bs : List Byte) : (w.wrLines ok a bs).1.Wf := ⟨h.1, mem_write_wf h.2 _ _⟩

theorem storeTile_wf {ok : Admit} {w : Work} (h : w.Wf) (x : Xfer) (wr : Writer) (src o r a : Nat) : (storeTile ok w x wr src o r a).1.Wf := by
  unfold storeTile
  dsimp only
  split
  · exact h
  · split
    · exact wrLines_wf h _ _
    · split
      · exact h
      · split
        · rename_i hw
          exact writeTile_post h _ _ _ _ _ _ _ _ _ _ hw
        · split
          · exact wrLines_wf h _ _
          · exact h

theorem storeAll_wf {α : Type} {f : Work → α → Work × Option Status} (hf : ∀ w i, w.Wf → (f w i).1.Wf) : ∀ (l : List α) {w : Work}, w.Wf → (storeAll f l w).1.Wf
  | [], _, h => h
  | i :: is, w, h => by
    unfold storeAll
    have h1 := hf w i h
    split <;> rename_i e <;> rw [e] at h1
    · exact h1
    · exact storeAll_wf hf is h1

theorem storeTiles_wf (g : Fin 512) (x : Xfer) (n : Option Nat) (h : s.Wf) : (s.storeTiles g x n).1.Wf := by
  unfold State.storeTiles
  dsimp only
  split
  · split
    · refine storeAll_wf (fun w j hw => ?_) _ (work_wf h)
      split
      · exact hw
      · split
        · exact hw
        · exact wrLines_wf hw _ _
    · refine storeAll_wf (fun w t hw => ?_) _ (work_wf h)
      split
      · exact hw
      · exact storeTile_wf hw _ _ _ _ _ _
  · exact storeAll_wf (fun _ _ h => storeTile_wf h _ _ _ _ _ _) _ (work_wf h)

theorem modXfer_keeps (g : Fin 512) (q : Fin 8) (f : Xfer → Xfer) : Keeps s (s.modXfer g q f) := modCore_keeps fun _ h => h

theorem begun_keeps (g : Fin 512) (q : Fin 8) (im : Option (Nat × List Byte)) : Keeps s (s.begun g q im) := modXfer_keeps _ _ _

theorem walkPages_keeps (g : Fin 512) (q : Fin 8) (e : Desc) : ∀ (l : List Nat) (s : State), KeepsE s (s.walkPages g q e l)
  | [], s => KeepsE.ok (Keeps.refl s)
  | k :: ks, s => by
    unfold State.walkPages
    split
    · exact KeepsE.error
    · split <;> rename_i h <;> have h1 := walkRequest_keeps (s := s) g (some q) (BitVec.ofNat 48 (pTable e)) k <;> rw [h] at h1
      · exact KeepsE.trans (h1.trans (modXfer_keeps _ _ _)) (walkPages_keeps g q e ks _)
      · exact KeepsE.trans h1 (walkPages_keeps g q e ks _)

theorem xferFail_keeps (g : Fin 512) (q : Fin 8) (x : Xfer) (st : Status) : Keeps s (s.xferFail g q x st) := by
  unfold State.xferFail
  refine ite_keeps (fun _ => ?_) fun _ => coreFault_keeps _ _ _ _ _ _
  refine Keeps.trans ?_ (modXfer_keeps _ _ _)
  exact modCore_keeps fun _ h => h

theorem moveStore_keeps (g : Fin 512) (q : Fin 8) (x : Xfer) (n : Option Nat) : Keeps s (s.moveStore g q x n) := by
  unfold State.moveStore
  have hw := storeTiles_wf (s := s) g x (if s.touchesTier g x = true then n else none)
  generalize s.storeTiles g x (if s.touchesTier g x = true then n else none) = r at hw
  dsimp only
  have hp : Keeps s (s.putWork g r.1) := putWork_keeps (Keeps.refl _) hw
  split
  · exact coreFault_keeps _ _ _ _ _ _
  · refine Keeps.trans ?_ (xferFail_keeps _ _ _ _)
    exact ite_keeps (fun _ => Keeps.refl _) fun _ => hp
  · exact hp.trans (begun_keeps _ _ _)

theorem moveFar_keeps (g : Fin 512) (q : Fin 8) (x : Xfer) (m : Moved) : Keeps s (s.moveFar g q x m) := by
  unfold State.moveFar
  dsimp only
  split
  · refine Keeps.trans ?_ (xferFail_keeps _ _ _ _)
    exact ite_keeps (fun _ => Keeps.refl _) fun _ => sendMsg_keeps _ _
  · refine Keeps.trans ?_ (begun_keeps _ _ _)
    exact ite_keeps (fun _ => Keeps.refl _) fun _ => sendMsg_keeps _ _

theorem moveNear_keeps (g : Fin 512) (q : Fin 8) (x : Xfer) (m : Moved) : Keeps s (s.moveNear g q x m) := by
  unfold State.moveNear
  refine ite_keeps (fun _ => xferFail_keeps _ _ _ _) fun _ => ?_
  have h := writePieces_keeps g x.dst m.1 s
  generalize State.writePieces g x.dst m.1 s = r at h
  dsimp only
  refine h.trans ?_
  split
  · exact xferFail_keeps _ _ _ _
  · exact begun_keeps _ _ _

theorem moveXfer_keeps (g : Fin 512) (q : Fin 8) (x : Xfer) (n : Option Nat) : Keeps s (s.moveXfer g q x n) :=
  ite_keeps (fun _ => moveStore_keeps _ _ _ _) fun _ => ite_keeps (fun _ => xferFail_keeps _ _ _ _) fun _ =>
    ite_keeps (fun _ => moveFar_keeps _ _ _ _) fun _ => moveNear_keeps _ _ _ _

theorem walkExt_keeps (g : Fin 512) (q : Fin 8) (x : Xfer) : KeepsE s (s.walkExt g q x) := by
  unfold State.walkExt
  split
  · exact walkPages_keeps _ _ _ _ _
  · exact KeepsE.ok (Keeps.refl _)

theorem moveReady_keeps (g : Fin 512) (q : Fin 8) (n : Option Nat) : Keeps s (s.moveReady g q n) := by
  unfold State.moveReady
  split
  · exact Keeps.refl _
  · refine ite_keeps (fun _ => Keeps.refl _) fun _ => ?_
    split <;> rename_i h <;> have h3 := requestStart_keeps (s := s) g (.dma q) 1 <;> rw [h] at h3
    · exact h3
    · exact h3.trans (moveXfer_keeps _ _ _ _)

theorem startXfer_keeps (g : Fin 512) (q : Fin 8) (k : XferKind) (n : Option Nat) : Keeps s (s.startXfer g q k n) := by
  unfold State.startXfer
  split
  · exact Keeps.refl _
  · refine ite_keeps (fun _ => Keeps.refl _) fun _ => ite_keeps (fun _ => coreFault_keeps _ _ _ _ _ _) fun _ => ?_
    split
    · exact coreFault_keeps _ _ _ _ _ _
    · rename_i h
      exact (walkExt_keeps _ _ _ _ h).trans (moveReady_keeps _ _ _)

theorem execDmaCopy_keeps (g : Fin 512) (q : Fin 8) (n : Option Nat) : KeepsO s (execDmaCopy g q n s) := .next (startXfer_keeps _ _ _ _)
theorem execDmaTile_keeps (g : Fin 512) (q : Fin 8) (n : Option Nat) : KeepsO s (execDmaTile g q n s) := .next (startXfer_keeps _ _ _ _)
theorem execDmaNarrow_keeps (g : Fin 512) (q : Fin 8) (n : Option Nat) : KeepsO s (execDmaNarrow g q n s) := .next (startXfer_keeps _ _ _ _)

theorem execDmaComplete_keeps (g : Fin 512) (q : Fin 8) : KeepsO s (execDmaComplete g q s) := by
  unfold execDmaComplete
  refine .next ?_
  split
  · exact Keeps.refl _
  · refine ite_keeps (fun _ => Keeps.refl _) fun _ => ?_
    refine Keeps.trans ?_ (settle_keeps _)
    refine then_keeps ?_ (ownToken_keeps _ _ _ _ _)
    split
    · refine Keeps.trans ?_ (snoopDone_keeps _ _ _ _ _)
      exact modCore_keeps fun _ h => h
    · exact modCore_keeps fun _ h => h

theorem hostFail_keeps (g : Fin 512) (q : Fin 8) (x : Xfer) : Keeps s (s.hostFail g q x) :=
  ite_keeps (fun _ => moveFar_keeps _ _ _ _) fun _ => xferFail_keeps _ _ _ _

theorem execHostAccessTimeout_keeps (g : Fin 512) (q : Fin 8) : KeepsO s (execHostAccessTimeout g q s) := by
  unfold execHostAccessTimeout
  refine .next ?_
  split
  · exact Keeps.refl _
  · exact ite_keeps (fun _ => (reach_keeps _ _).trans (hostFail_keeps _ _ _)) fun _ => Keeps.refl _

theorem failHostXfers_keeps (s : State) : Keeps s s.failHostXfers := by
  refine foldl_keeps (fun _ _ => ite_keeps (fun _ => Keeps.refl _) fun _ => foldl_keeps (fun _ _ => ?_) _ _) _ _
  split
  · exact ite_keeps (fun _ => hostFail_keeps _ _ _) fun _ => Keeps.refl _
  · exact Keeps.refl _

end Sys2Proof.Machine
end

