-- ==== Sys2Proof/Laws/KeepsLinks.lean ====
section
/-! SUPPORT. What received frames, their timers, key agreement, training and the combine stage keep (Machine/FabricEv.lean). -/

namespace Sys2Proof.Machine

variable {s : State}

/-! Frames -/

theorem discard_keeps : Keeps s s.discard := modFab_keeps

theorem rxTake_keeps (l : Fin 128) (p : LinkPair) (n : Nat) : Keeps s (s.rxTake l p n) :=
  then_keeps (modPair_keeps _ _ _ _) (sendAck_keeps _ _ _ _ _)

theorem nakMissing_keeps (l : Fin 128) (p : LinkPair) (n : Nat) : Keeps s (s.nakMissing l p n) := foldl_keeps (fun _ _ => sendAck_keeps _ _ _ _ _) _ _

theorem rxAcks_keeps (l : Fin 128) (p : LinkPair) (f : Frame) : Keeps s (s.rxAcks l p f) := ackBelow_keeps _ _ _ _

/-- A received sequenced packet, whatever it does once it is accepted. -/
theorem receive_keeps (l : Fin 128) (f : Frame) {act : State → Except Nak State} (ha : ∀ t, KeepsE t (act t)) : Keeps s (s.receive l f act) := by
  unfold State.receive
  refine ite_keeps (fun _ => discard_keeps) fun _ => ?_
  split
  · exact discard_keeps
  · rename_i p _
    dsimp only
    refine ite_keeps (fun _ => sendAck_keeps _ _ _ _ _) fun _ => ite_keeps (fun _ => sendAck_keeps _ _ _ _ _) fun _ => ite_keeps (fun _ => discard_keeps) fun _ => ite_keeps (fun _ => pairLost_keeps _ _ _ _) fun _ => ?_
    have h1 : Keeps s (if p.version = 2 then s.rxAcks l p f else s) := ite_keeps (fun _ => rxAcks_keeps _ _ _) fun _ => Keeps.refl _
    generalize (if p.version = 2 then s.rxAcks l p f else s) = a at h1 ⊢
    have h2 : Keeps s (if p.rxNext < nearest p.rxNext f.psn.toNat then a.nakMissing l p (nearest p.rxNext f.psn.toNat) else a) := then_keeps h1 (nakMissing_keeps _ _ _)
    generalize (if p.rxNext < nearest p.rxNext f.psn.toNat then a.nakMissing l p (nearest p.rxNext f.psn.toNat) else a) = b at h2 ⊢
    refine h2.trans ?_
    split
    · rename_i h3
      have h4 := ha _ _ h3
      split
      · exact h4.trans (rxTake_keeps _ _ _)
      · exact h4
    · rename_i n _
      have h5 := sendAck_keeps (s := b) l p.peer p.far true (nearest p.rxNext f.psn.toNat % 2 ^ 32 + n.code * 2 ^ 40)
      generalize b.sendAck l p.peer p.far true (nearest p.rxNext f.psn.toNat % 2 ^ 32 + n.code * 2 ^ 40) = c at h5 ⊢
      split
      · exact h5
      · exact h5.trans (rxTake_keeps _ _ _)
      · exact h5

theorem frameToken_keeps (f : Frame) (n : Nat) : KeepsE s (s.frameToken f n) := KeepsE.bind fun _ _ => KeepsE.ok (tokenAdd_keeps _ _ _ _)

theorem msgToken_keeps (f : Frame) : Keeps s (s.msgToken f) := by
  unfold State.msgToken
  split
  · rename_i h
    exact frameToken_keeps _ _ _ h
  · exact Keeps.refl _

theorem msgPart_keeps (f : Frame) : Keeps s (s.msgPart f) := by
  unfold State.msgPart
  dsimp only
  refine ite_keeps (fun _ => ?_) fun _ => modFab_keeps
  refine then_keeps ?_ (msgToken_keeps _)
  refine then_keeps ?_ (snoopDone_keeps _ _ _ _ _)
  exact modFab_keeps

theorem applyData_keeps (f : Frame) : KeepsE s (s.applyData f) := by
  refine KeepsE.bind fun _ _ => ?_
  split
  · exact KeepsE.bind fun _ h => KeepsE.ok ((placeIn_keeps _ _ _ _ _ _ h).trans ((countBytes_keeps _ _ _ _ _ _).trans (msgPart_keeps _)))
  · exact KeepsE.bind fun _ h => KeepsE.ok ((stageIn_keeps _ _ _ _ _ h).trans (msgPart_keeps _))
  · exact KeepsE.bind fun _ h => KeepsE.ok ((addIn_keeps _ _ _ _ _ _ h).trans ((countElems_keeps _ _ _ _ _).trans (msgPart_keeps _)))
  · exact KeepsE.ok (Keeps.refl _)

theorem takeData_keeps (l : Fin 128) (f : Frame) : KeepsE s (s.takeData l f) := by
  refine KeepsE.bind fun _ _ => ?_
  have h1 : KeepsE s (if ((s.rxWaiting l f.vc).map frameSize4).sum + frameSize4 f ≤ 32768 then .ok (s.modFab fun x => { x with rxQueue := x.rxQueue ++ [(l, f)] }) else .error Nak.busy) := by
    split
    · exact KeepsE.ok modFab_keeps
    · exact KeepsE.error
  dsimp only
  split
  · exact h1
  · split
    · exact h1
    · exact applyData_keeps f

theorem pumpRx_keeps : ∀ (q : List (Fin 128 × Frame)) (held : List (Fin 128 × BitVec 3)) (s : State), Keeps s (s.pumpRx q held)
  | [], _, s => Keeps.refl s
  | (l, f) :: r, held, s => by
    unfold State.pumpRx
    refine ite_keeps (fun _ => ?_) fun _ => ?_
    · refine Keeps.trans ?_ (pumpRx_keeps r held _)
      exact modFab_keeps
    split
    · rename_i h
      exact (applyData_keeps _ _ h).trans (pumpRx_keeps r held _)
    · refine Keeps.trans ?_ (pumpRx_keeps r _ _)
      exact modFab_keeps
    · exact (sendAck_keeps _ _ _ _ _).trans (pumpRx_keeps r held _)

theorem stageFreed_keeps : Keeps s s.stageFreed := by
  unfold State.stageFreed
  dsimp only
  refine Keeps.trans ?_ (foldl_keeps (fun _ _ => foldl_keeps (fun _ _ => collRetry_keeps _ _) _ _) _ _)
  refine Keeps.trans ?_ (pumpRx_keeps _ _ _)
  exact modFab_keeps

theorem execWriteReceive_keeps (l : Fin 128) (f : Frame) : KeepsO s (execWriteReceive l f s) :=
  .next (ite_keeps (fun _ => receive_keeps _ _ fun _ => takeData_keeps _ _) fun _ => Keeps.refl _)

theorem execReduceReceive_keeps (l : Fin 128) (f : Frame) : KeepsO s (execReduceReceive l f s) :=
  .next (ite_keeps (fun _ => receive_keeps _ _ fun _ => takeData_keeps _ _) fun _ => Keeps.refl _)

theorem execSignalPacketReceive_keeps (l : Fin 128) (f : Frame) : KeepsO s (execSignalPacketReceive l f s) :=
  .next (ite_keeps (fun _ => receive_keeps _ _ fun _ => KeepsE.bind fun _ _ => frameToken_keeps _ _) fun _ => Keeps.refl _)

theorem receiveAck_keeps (l : Fin 128) (f : Frame) {act : State → LinkPair → State} (ha : ∀ t p, Keeps t (act t p)) : Keeps s (s.receiveAck l f act) := by
  unfold State.receiveAck
  refine ite_keeps (fun _ => discard_keeps) fun _ => ?_
  split
  · exact discard_keeps
  · exact ite_keeps (fun _ => pairLost_keeps _ _ _ _) fun _ => (modPair_keeps _ _ _ _).trans (ha _ _)

theorem execAckReceive_keeps (l : Fin 128) (f : Frame) : KeepsO s (execAckReceive l f s) :=
  .next (ite_keeps (fun _ => receiveAck_keeps _ _ fun _ _ => rxAcks_keeps _ _ _) fun _ => Keeps.refl _)

theorem dropPkt_keeps (l : Fin 128) (p : LinkPair) (n : Nat) : Keeps s (s.dropPkt l p n) :=
  ((modPair_keeps _ _ _ _).trans (flushLink_keeps _)).trans (pumpStalled_keeps _)

theorem resendFrom_keeps (l : Fin 128) (p : LinkPair) (ks : List TxPkt) : Keeps s (s.resendFrom l p ks) :=
  ite_keeps (fun _ => pairLost_keeps _ _ _ _) fun _ => (modPair_keeps _ _ _ _).trans (resend_keeps _ _ _ _)

theorem execNakReceive_keeps (l : Fin 128) (f : Frame) : KeepsO s (execNakReceive l f s) := by
  unfold execNakReceive
  refine .next (ite_keeps (fun _ => receiveAck_keeps _ _ fun a p => ?_) fun _ => Keeps.refl _)
  dsimp only
  have h1 : Keeps a (if p.version = 2 then a.rxAcks l p f else a) := ite_keeps (fun _ => rxAcks_keeps _ _ _) fun _ => Keeps.refl _
  generalize (if p.version = 2 then a.rxAcks l p f else a) = b at h1 ⊢
  refine h1.trans ?_
  split
  · exact Keeps.refl _
  · split
    · exact resendFrom_keeps _ _ _
    · exact modPair_keeps _ _ _ _
    · exact then_keeps (dropPkt_keeps _ _ _) (coreFault_keeps _ _ _ _ _ _)
    · exact dropPkt_keeps _ _ _
    · exact Keeps.refl _

/-! Control messages -/

theorem execRtsReceive_keeps (l : Fin 128) (f : Frame) : KeepsO s (execRtsReceive l f s) := by
  unfold execRtsReceive
  refine .next (ite_keeps (fun _ => receive_keeps _ _ fun a t h => ?_) fun _ => Keeps.refl _)
  dsimp only at h
  split at h
  · split at h
    · rename_i h1; cases h; exact rtsArrive_keeps h1
    · cases h
  · cases h; exact Keeps.refl _

theorem execCtsReceive_keeps (l : Fin 128) (f : Frame) : KeepsO s (execCtsReceive l f s) := by
  unfold execCtsReceive
  refine .next (ite_keeps (fun _ => receive_keeps _ _ fun a => KeepsE.ok ?_) fun _ => Keeps.refl _)
  exact ite_keeps (fun _ => ctsArrive_keeps _ _ _ _ _ _) fun _ => Keeps.refl _

theorem restartLimits_keeps (p : Fin 8) (t : Coll → Bool) : Keeps s (s.restartLimits p t) := modCores_keeps fun _ _ h => h

theorem execDelayReceive_keeps (l : Fin 128) (f : Frame) : KeepsO s (execDelayReceive l f s) := by
  unfold execDelayReceive
  refine .next (ite_keeps (fun _ => receive_keeps _ _ fun a => ?_) fun _ => Keeps.refl _)
  split
  · exact KeepsE.ok (Keeps.refl _)
  · exact KeepsE.ok (restartLimits_keeps _ _)

theorem execBarrierReceive_keeps (l : Fin 128) (f : Frame) : KeepsO s (execBarrierReceive l f s) := by
  unfold execBarrierReceive
  refine .next (ite_keeps (fun _ => receive_keeps _ _ fun a => ?_) fun _ => Keeps.refl _)
  dsimp only
  split
  · exact KeepsE.ok (Keeps.refl _)
  · refine KeepsE.ok (Keeps.trans ?_ (pumpRounds_keeps _))
    exact modPart_keeps fun _ h => h

theorem execEndNoticeReceive_keeps (l : Fin 128) (f : Frame) : KeepsO s (execEndNoticeReceive l f s) := by
  unfold execEndNoticeReceive
  refine .next (ite_keeps (fun _ => receive_keeps _ _ fun a => ?_) fun _ => Keeps.refl _)
  dsimp only
  split
  · exact KeepsE.ok (endTask_keeps _ _ _)
  · split
    · exact KeepsE.ok (endQueued_keeps _ _ _ _)
    · exact KeepsE.ok (Keeps.refl _)

/-! Key agreement -/

theorem agreeFail_keeps (peer : BitVec 16) : Keeps s (s.agreeFail peer) := by
  unfold State.agreeFail
  dsimp only
  exact Keeps.trans (foldl_keeps (fun _ _ => pairDown_keeps _ _ _ _) _ _) (putSecret_keeps _)

theorem agreed_keeps (x : Secret) : Keeps s (s.agreed x) := by
  unfold State.agreed
  dsimp only
  refine Keeps.trans ?_ (foldl_keeps (fun _ _ => sendPair_keeps _ _ _) _ _)
  exact Keeps.trans (putSecret_keeps _) modFab_keeps

theorem setup_keeps (l : Fin 128) (f : Frame) (k : Nat) {act : List Byte → State} (ha : ∀ bs, Keeps s (act bs)) : Keeps s (s.setup l f k act) :=
  ite_keeps (fun _ => Keeps.refl _) fun _ => ite_keeps (fun _ => discard_keeps) fun _ => ha _

theorem execHello_keeps (l : Fin 128) (f : Frame) : KeepsO s (execHello l f s) := by
  unfold execHello
  refine .next (setup_keeps _ _ _ fun bs => ?_)
  dsimp only
  refine ite_keeps (fun _ => Keeps.refl _) fun _ => ite_keeps (fun _ => agreeFail_keeps _) fun _ => ?_
  refine Keeps.trans ?_ (sendSetup_keeps _ _ _ _ _)
  refine Keeps.trans ?_ (putSecret_keeps _)
  exact (draw_keeps s).trans ((draw_keeps s.draw.2).trans (draw_keeps s.draw.2.draw.2))

theorem execAccept_keeps (l : Fin 128) (f : Frame) : KeepsO s (execAccept l f s) := by
  unfold execAccept
  refine .next (setup_keeps _ _ _ fun bs => ?_)
  split
  · exact Keeps.refl _
  · dsimp only
    refine ite_keeps (fun _ => agreeFail_keeps _) fun _ => ?_
    refine Keeps.trans ?_ (agreed_keeps _)
    exact (draw_keeps _).trans (sendSetup_keeps _ _ _ _ _)

theorem execFinish_keeps (l : Fin 128) (f : Frame) : KeepsO s (execFinish l f s) := by
  unfold execFinish
  refine .next (setup_keeps _ _ _ fun bs => ?_)
  split
  · exact Keeps.refl _
  · exact ite_keeps (fun _ => agreed_keeps _) fun _ => agreeFail_keeps _

theorem execPair_keeps (l : Fin 128) (f : Frame) : KeepsO s (execPair l f s) := by
  unfold execPair
  refine .next (setup_keeps _ _ _ fun bs => ?_)
  dsimp only
  refine ite_keeps (fun _ => Keeps.refl _) fun _ => ?_
  split
  · exact Keeps.refl _
  · rename_i h
    exact (ensurePair_keeps h).trans ((modPair_keeps _ _ _ _).trans (sendPair_keeps _ _ _))

theorem execKeyAgreementTimeout_keeps (peer : BitVec 16) : KeepsO s (execKeyAgreementTimeout peer s) := by
  unfold execKeyAgreementTimeout
  refine .next ?_
  split
  · exact Keeps.refl _
  · exact (reach_keeps _ _).trans (agreeFail_keeps _)

theorem execLinkPairSetup_keeps (l : Fin 128) (peer : BitVec 16) (far : Fin 8) : KeepsO s (execLinkPairSetup l peer far s) := by
  unfold execLinkPairSetup
  refine .next ?_
  split
  · exact Keeps.refl _
  · refine ite_keeps (fun _ => Keeps.refl _) fun _ => ite_keeps (fun _ => ?_) fun _ => (modPair_keeps _ _ _ _).trans (flushLink_keeps _)
    exact ((modPair_keeps _ _ _ _).trans (failPkts_keeps _ _)).trans (pumpStalled_keeps _)

/-! Timers and training -/

theorem execAckTimer_keeps (l : Fin 128) (peer : BitVec 16) (far : Fin 8) : KeepsO s (execAckTimer l peer far s) := by
  unfold execAckTimer
  refine .next ?_
  split
  · exact Keeps.refl _
  · exact (reach_keeps _ _).trans (sendAck_keeps _ _ _ _ _)

theorem execResendTimer_keeps (l : Fin 128) (peer : BitVec 16) (far : Fin 8) : KeepsO s (execResendTimer l peer far s) := by
  unfold execResendTimer
  refine .next ?_
  split
  · exact Keeps.refl _
  · split
    · exact Keeps.refl _
    · exact (reach_keeps _ _).trans ((modPair_keeps _ _ _ _).trans (resendFrom_keeps _ _ _))

theorem execBusyResendTimer_keeps (l : Fin 128) (peer : BitVec 16) (far : Fin 8) : KeepsO s (execBusyResendTimer l peer far s) := by
  unfold execBusyResendTimer
  refine .next ?_
  split
  · exact Keeps.refl _
  · split
    · exact Keeps.refl _
    · exact (reach_keeps _ _).trans ((modPair_keeps _ _ _ _).trans (resend_keeps _ _ _ _))

theorem modLink_keeps (l : Fin 128) (f : Link → Link) : Keeps s (s.modLink l f) := modFab_keeps

theorem trainLink_keeps (l : Fin 128) : Keeps s (s.trainLink l) := modLink_keeps _ _

theorem execLinkUp_keeps (l : Fin 128) : KeepsO s (execLinkUp l s) := by
  unfold execLinkUp
  refine .next (ite_keeps (fun _ => ?_) fun _ => Keeps.refl _)
  refine Keeps.trans ?_ (log_keeps _ _)
  refine Keeps.trans ?_ modFab_keeps
  exact (reach_keeps _ _).trans (modLink_keeps _ _)

theorem execLinkModeTimeout_keeps (l : Fin 128) : KeepsO s (execLinkModeTimeout l s) := by
  unfold execLinkModeTimeout
  exact .next (ite_keeps (fun _ => (reach_keeps _ _).trans (modLink_keeps _ _)) fun _ => Keeps.refl _)

theorem execLinkTrainRetry_keeps (l : Fin 128) : KeepsO s (execLinkTrainRetry l s) := by
  unfold execLinkTrainRetry
  exact .next (ite_keeps (fun _ => (reach_keeps _ _).trans (trainLink_keeps _)) fun _ => Keeps.refl _)

theorem execLinkDownDetect_keeps (l : Fin 128) : KeepsO s (execLinkDownDetect l s) := by
  unfold execLinkDownDetect
  exact .next (ite_keeps (fun _ => (linkDown_keeps _ _).trans (trainLink_keeps _)) fun _ => Keeps.refl _)

/-! Billet runs -/

theorem execBilletRunArrive_keeps (g : Fin 512) (r : BilletRun) : KeepsO s (execBilletRunArrive g r s) := by
  unfold execBilletRunArrive
  exact .next (ite_keeps (fun _ => Keeps.refl _) fun _ => ite_keeps (fun _ => coreFault_keeps _ _ _ _ _ _) fun _ => ite_keeps (fun _ => modCore_keeps fun _ h => h) fun _ => Keeps.refl _)

theorem execBilletRunCombine_keeps (g : Fin 512) (n : Nat) : KeepsO s (execBilletRunCombine g n s) := by
  unfold execBilletRunCombine
  refine .next ?_
  split
  · exact Keeps.refl _
  · dsimp only
    refine ite_keeps (fun _ => Keeps.refl _) fun _ => ite_keeps (fun _ => coreFault_keeps _ _ _ _ _ _) fun _ => ?_
    split
    · exact Keeps.refl _
    · refine ite_keeps (fun _ => coreFault_keeps _ _ _ _ _ _) fun _ => ite_keeps (fun _ => coreFault_keeps _ _ _ _ _ _) fun _ => ?_
      refine Keeps.trans ?_ stageFreed_keeps
      split
      · refine Keeps.trans ?_ (countElems_keeps _ _ _ _ _)
        exact setCore_keeps fun h => h
      · exact setCore_keeps fun h => h

end Sys2Proof.Machine
end

