-- ==== Sys2Proof/Laws/KeepsMedia.lean ====
section
/-! SUPPORT. What the media engines keep (Machine/Media.lean). -/

namespace Sys2Proof.Machine

variable {s : State}

theorem modEngine_keeps (e : Fin 2) (f : MediaEngine → MediaEngine) : Keeps s (s.modEngine e f) := ⟨rfl, Nat.le_refl _, id⟩

theorem modMedia_keeps (e : Fin 2) (i : Fin 256) (f : MediaCtx → MediaCtx) : Keeps s (s.modMedia e i f) := modEngine_keeps _ _

theorem putPointers_keeps (c : MediaCtx) : Keeps s (s.putPointers c) := setMem_keeps fun h => mem_write_wf (mem_write_wf h _ _) _ _

theorem endMedia_keeps (e : Fin 2) (i : Fin 256) (st : Status) : Keeps s (s.endMedia e i st) := by
  unfold State.endMedia
  split
  · exact Keeps.refl _
  · rename_i c _
    dsimp only
    have h1 : Keeps s { s with mem := { s.mem.write (c.descAddr.toNat + 216) (toLE st.toNat 2) with
        replays := (s.mem.write (c.descAddr.toNat + 216) (toLE st.toNat 2)).replays.filter fun r => decide (r.reader ≠ HbmReader.media e i) } } :=
      setMem_keeps fun h => mem_write_wf h _ _
    refine ite_keeps (fun _ => ?_) fun _ => Keeps.trans ?_ (log_keeps _ _) <;> refine Keeps.trans ?_ (pushEvent_keeps _ _ _) <;>
      refine Keeps.trans ?_ (modEngine_keeps _ _) <;> exact h1.trans (putPointers_keeps _)

theorem endMediaOn_keeps (t : Nat → Nat → Bool) (st : Status) : Keeps s (s.endMediaOn t st) :=
  foldl_keeps (fun _ _ => foldl_keeps (fun _ _ => ite_keeps (fun _ => endMedia_keeps _ _ _) fun _ => Keeps.refl _) _ _) _ _

theorem barMedia_keeps (p : Fin 8) : Keeps s (s.barMedia p) := ⟨rfl, Nat.le_refl _, id⟩

theorem openMedia_keeps (o : Option (Fin 4096)) (a n : Nat) {i : Nat} {t : State} (h : s.openMedia o a n = .ok (i, t)) : Keeps s t := by
  unfold State.openMedia at h
  split at h
  · cases h
  · split at h
    · cases h
    · dsimp only at h
      split at h
      · cases h
      · split at h
        · cases h
        · split at h
          · cases h
          · cases h; exact modEngine_keeps _ _

theorem closeMedia_keeps (e : Fin 2) (i : Fin 256) (b : Bool) : Keeps s (s.closeMedia e i b) := by
  unfold State.closeMedia
  split
  · exact Keeps.refl _
  · exact modMedia_keeps _ _ _

theorem foldl_mem_wf {β : Type} {f : Mem → β → Mem} (hf : ∀ m b, m.Wf → (f m b).Wf) : ∀ (l : List β) {m : Mem}, m.Wf → (l.foldl f m).Wf
  | [], _, h => h
  | b :: r, _, h => foldl_mem_wf hf r (hf _ b h)

theorem ringWrite_keeps (c : MediaCtx) (x : W32) (bs : List Byte) : Keeps s (s.ringWrite c x bs) :=
  setMem_keeps fun h => foldl_mem_wf (fun _ _ h => mem_write_wf h _ _) _ h

theorem writeGroup_keeps (c : MediaCtx) (ps : List Picture) : Keeps s (s.writeGroup c ps) := by
  unfold State.writeGroup
  dsimp only
  split
  · rename_i w hw
    refine setMem_keeps fun h => ?_
    exact (Post.foldlM (P := Work.Wf) (fun _ _ h => writeTile_post h _ _ _ _ _ _ _ _ _) _ _ ⟨rfl, h⟩ w hw).2
  · exact Keeps.refl _

theorem storeFrame_keeps (c : MediaCtx) (i : Nat) (p : Picture) : Keeps s (s.storeFrame c i p) :=
  setMem_keeps fun h => foldl_mem_wf (fun _ _ h => mem_write_wf h _ _) _ h

theorem storeFrames_keeps (c : MediaCtx) (fs : List (Nat × Picture)) : Keeps s (s.storeFrames c fs) := foldl_keeps (fun _ _ => storeFrame_keeps _ _ _) _ _

theorem slotStatus_keeps (c : MediaCtx) (st : Status) (b g : Bool) (n : Nat) : Keeps s (s.slotStatus c st b g n) := setMem_keeps fun h => mem_write_wf h _ _

theorem emitGroup_keeps (e : Fin 2) (c : MediaCtx) : Keeps s (s.emitGroup e c) := by
  unfold State.emitGroup
  dsimp only
  refine Keeps.trans ?_ (putPointers_keeps _)
  refine Keeps.trans ?_ (modMedia_keeps _ _ _)
  exact ite_keeps (fun _ => slotStatus_keeps _ _ _ _ _) fun _ => (writeGroup_keeps _ _).trans (slotStatus_keeps _ _ _ _ _)

theorem emitAll_keeps (e : Fin 2) (i : Fin 256) : ∀ (n : Nat) (s : State), Keeps s (s.emitAll e i n)
  | 0, s => Keeps.refl s
  | n + 1, s => by
    unfold State.emitAll
    split
    · exact Keeps.refl _
    · exact ite_keeps (fun _ => (emitGroup_keeps _ _).trans (emitAll_keeps e i n _)) fun _ => ite_keeps (fun _ => modMedia_keeps _ _ _) fun _ => Keeps.refl _

theorem unitError_keeps (e : Fin 2) (c : MediaCtx) : Keeps s (s.unitError e c) := by
  unfold State.unitError
  exact (modEngine_keeps _ _).trans (ite_keeps (fun _ => modMedia_keeps _ _ _) fun _ => (slotStatus_keeps _ _ _ _ _).trans (endMedia_keeps _ _ _))

theorem takeUnit_keeps (e : Fin 2) (c : MediaCtx) (k : Nat) (u : List Byte) (n : Nat) : Keeps s (s.takeUnit e c k u n) := by
  unfold State.takeUnit
  dsimp only
  generalize MediaCtx.resumed { c with bsPtr := c.bsPtr + BitVec.ofNat 32 n } u = d
  refine Keeps.trans ?_ (modMedia_keeps _ _ _)
  split
  · exact (modMedia_keeps _ _ _).trans (modMedia_keeps _ _ _)
  · split
    · exact (modMedia_keeps _ _ _).trans (endMedia_keeps _ _ _)
    · exact (modMedia_keeps _ _ _).trans (unitError_keeps _ _)
    · exact (modMedia_keeps _ _ _).trans ((storeFrames_keeps _ _).trans ((modEngine_keeps _ _).trans (modMedia_keeps _ _ _)))

theorem emitReady_keeps (e : Fin 2) (i : Fin 256) : Keeps s (s.emitReady e i) := by
  unfold State.emitReady
  split
  · exact (putPointers_keeps _).trans (emitAll_keeps _ _ _ _)
  · exact Keeps.refl _

theorem decodeDone_keeps (e : Fin 2) (c : MediaCtx) : Keeps s (s.decodeDone e c) := by
  unfold State.decodeDone
  split
  · exact Keeps.refl _
  · exact (takeUnit_keeps _ _ _ _ _).trans (emitReady_keeps _ _)

theorem encodeDone_keeps (e : Fin 2) (c : MediaCtx) : Keeps s (s.encodeDone e c) := by
  unfold State.encodeDone
  exact ((storeFrames_keeps _ _).trans (ringWrite_keeps _ _ _)).trans ((modEngine_keeps _ _).trans ((modMedia_keeps _ _ _).trans (putPointers_keeps _)))

theorem flushUnits_keeps (e : Fin 2) (c : MediaCtx) : Keeps s (s.flushUnits e c) := (modMedia_keeps _ _ _).trans (emitAll_keeps _ _ _ _)

theorem endEmpty_keeps (e : Fin 2) (i : Fin 256) : Keeps s (s.endEmpty e i) := by
  unfold State.endEmpty
  split
  · exact ite_keeps (fun _ => endMedia_keeps _ _ _) fun _ => Keeps.refl _
  · exact Keeps.refl _

theorem finishDrain_keeps (e : Fin 2) (c : MediaCtx) : Keeps s (s.finishDrain e c) := by
  unfold State.finishDrain
  dsimp only
  refine ite_keeps (fun _ => ite_keeps (fun _ => Keeps.refl _) fun _ => ((storeFrames_keeps _ _).trans (ringWrite_keeps _ _ _)).trans ((modMedia_keeps _ _ _).trans (endMedia_keeps _ _ _))) fun _ => ?_
  exact (flushUnits_keeps _ _).trans (endEmpty_keeps _ _)

theorem mediaBoundary_keeps (e : Fin 2) : Keeps s (s.mediaBoundary e) := by
  refine foldl_keeps (fun t c => ?_) _ _
  split
  · exact endMedia_keeps _ _ _
  · exact endMedia_keeps _ _ _
  · exact ite_keeps (fun _ => finishDrain_keeps _ _) fun _ => Keeps.refl _
  · exact Keeps.refl _

theorem beginPicture_keeps (e : Fin 2) (c : MediaCtx) : Keeps s (s.beginPicture e c) := by
  unfold State.beginPicture
  refine ite_keeps (fun _ => ?_) fun _ => ite_keeps (fun _ => Keeps.refl _) fun _ => ite_keeps (fun _ => endMedia_keeps _ _ _) fun _ => modMedia_keeps _ _ _
  split
  · exact endMedia_keeps _ _ _
  · exact (modEngine_keeps _ _).trans (modMedia_keeps _ _ _)

theorem beginUnit_keeps (e : Fin 2) (i : Fin 256) : Keeps s (s.beginUnit e i) := by
  unfold State.beginUnit
  split
  · exact then_keeps (modMedia_keeps _ _ _) (beginPicture_keeps _ _)
  · exact Keeps.refl _

theorem startUnit_keeps (e : Fin 2) : Keeps s (s.startUnit e) := by
  unfold State.startUnit
  split
  · exact Keeps.refl _
  · exact (modEngine_keeps _ _).trans (beginUnit_keeps _ _)

theorem execMediaUnitStart_keeps (e : Fin 2) : KeepsO s (execMediaUnitStart e s) :=
  .next (ite_keeps (fun _ => Keeps.refl _) fun _ => (mediaBoundary_keeps e).trans (startUnit_keeps e))

theorem unitDone_keeps (e : Fin 2) (i : Fin 256) : Keeps s (s.unitDone e i) := by
  unfold State.unitDone
  split
  · exact Keeps.refl _
  · exact ite_keeps (fun _ => modMedia_keeps _ _ _) fun _ => ite_keeps (fun _ => encodeDone_keeps _ _) fun _ => ite_keeps (fun _ => emitAll_keeps _ _ _ _) fun _ => (modMedia_keeps _ _ _).trans (decodeDone_keeps _ _)

theorem execMediaUnitComplete_keeps (e : Fin 2) : KeepsO s (execMediaUnitComplete e s) := by
  unfold execMediaUnitComplete
  refine .next ?_
  split
  · exact Keeps.refl _
  · exact (modEngine_keeps _ _).trans ((unitDone_keeps _ _).trans (mediaBoundary_keeps _))

end Sys2Proof.Machine
end

