-- ==== Sys2Proof/Laws/KeepsJobs.lean ====
section
/-! SUPPORT. What loading, starting and ending jobs keeps (Machine/Loader.lean, Machine/Jobs.lean). -/

namespace Sys2Proof.Machine

variable {s : State}

/-! The loader -/

theorem loadSealed_post (fail : Option (BitVec 64)) (x : Session) (k i a n : Nat) : Post (fun r => Keeps s r.2) (s.loadSealed fail x k i a n) := by
  unfold State.loadSealed
  split
  · exact Post.error
  · refine Post.any fun _ => ?_
    split
    · exact Post.error
    · exact Post.ok (setMem_keeps fun h => mem_write_wf h _ _)

theorem loadObjects_post (fail : Option (BitVec 64)) (j : Job) : Post (fun r => Keeps s r.2.2) (s.loadObjects fail j) := by
  unfold State.loadObjects
  split
  · exact Post.any fun _ => Post.any fun _ => Post.ok (Keeps.refl _)
  · refine Post.bind (loadSealed_post _ _ _ _ _ _) fun r hr => ?_
    obtain ⟨img, t⟩ := r
    refine Post.bind (P := fun acc : List Byte × State => Keeps s acc.2) (Post.foldlM (fun acc i hacc => ?_) _ _ hr) fun r hr => Post.ok hr
    exact Post.bind (loadSealed_post _ _ _ _ _ _) fun r h => Post.ok (Keeps.trans hacc h)

theorem writeAll_wf {α : Type} {a : α → Nat} {b : α → List Byte} : ∀ (l : List α) {m : List Host.Cell}, Memory.wf m = true → Memory.wf (l.foldl (fun m r => writeBytes m (a r) (b r)) m) = true
  | [], _, h => h
  | _ :: l, _, h => writeAll_wf l (writeBytes_wf _ h)

theorem image_core_wf (img : Image) (k : Nat) (e : BitVec 16) : (img.core k e).Wf := by
  unfold Image.core
  dsimp only
  refine ⟨writeAll_wf _ rfl, ?_⟩
  dsimp only
  split
  · exact writeBytes_wf _ (writeAll_wf _ rfl)
  · exact writeAll_wf _ rfl

theorem placeCores_keeps (p : Fin 8) (img : Image) : Keeps s (s.placeCores p img) :=
  foldl_keeps (fun _ _ => setCore_keeps fun _ => image_core_wf _ _ _) _ s

theorem placePools_keeps (p : Fin 8) (img : Image) : Keeps s (s.placePools p img) :=
  setMem_keeps fun h => foldl_mem_wf (fun _ _ h => mem_write_wf h _ _) _ h

theorem placeImage_keeps (p : Fin 8) (img : Image) : Keeps s (s.placeImage p img) := (placeCores_keeps p img).trans (placePools_keeps p img)

/-! The end of a task -/

theorem setHdm_keeps (v : W32) : Keeps s (s.setHdm v) := ite_keeps (fun _ => setMem_keeps fun h => h) fun _ => Keeps.refl _

theorem setFabCtl_keeps (v : W32) : Keeps s (s.setFabCtl v) := modFab_keeps

theorem applyBridge_keeps : Keeps s s.applyBridge := by
  unfold State.applyBridge
  split
  · exact (setBridge_keeps s _).trans ⟨rfl, Nat.le_refl _, id⟩
  · exact Keeps.refl _

theorem applyHdm_keeps : Keeps s s.applyHdm := by
  unfold State.applyHdm
  split
  · exact Keeps.trans (setHdm_keeps _) (setMem_keeps fun h => h)
  · exact Keeps.refl _

theorem applyModuleId_keeps : Keeps s s.applyModuleId := by
  unfold State.applyModuleId
  split
  · exact (setModuleId_keeps s _).trans modFab_keeps
  · exact Keeps.refl _

theorem applyFabCtl_keeps : Keeps s s.applyFabCtl := by
  unfold State.applyFabCtl
  split
  · exact Keeps.trans (setFabCtl_keeps _) modFab_keeps
  · exact Keeps.refl _

theorem applyHeld_keeps : Keeps s s.applyHeld :=
  ite_keeps (fun _ => Keeps.refl _) fun _ => applyBridge_keeps.trans (applyHdm_keeps.trans (applyModuleId_keeps.trans applyFabCtl_keeps))

theorem packageOutputs_keeps (x : Session) : Keeps s (s.packageOutputs x).1 := foldl_keeps (fun _ _ => hostWrite_keeps _ _ _) _ _

theorem abandonCore_wf {c : Core} (h : c.Wf) (b : Bool) : (c.abandon b).Wf := h

theorem abandonCores_keeps (p : Fin 8) (b : Bool) : Keeps s (s.abandonCores p b) := by
  unfold State.abandonCores
  have h : Keeps s (s.modCores (s.partCores p) fun _ c => c.abandon b) := modCores_keeps fun _ _ h => abandonCore_wf h _
  generalize (s.modCores (s.partCores p) fun _ c => c.abandon b) = a at h ⊢
  exact ⟨h.1, h.2.1, fun w => ⟨w.1, (h.2.2 w).2⟩⟩

theorem abandonHearths_keeps (p : Fin 8) : Keeps s (s.abandonHearths p) := by
  unfold State.abandonHearths
  refine foldl_keeps (fun t h => ?_) _ _
  exact modHearth_keeps fun _ h => h

theorem abandon_keeps (p : Fin 8) (tag : BitVec 16) (b : Bool) : Keeps s (s.abandon p tag b) := by
  refine Keeps.trans ?_ modFab_keeps
  refine Keeps.trans ?_ (modPart_keeps fun _ h => h)
  exact (abandonCores_keeps p b).trans (abandonHearths_keeps p)

theorem sendEnd_keeps (p : Fin 8) (e : Ending) : Keeps s (s.sendEnd p e) := foldl_keeps (fun _ _ => unitControl_keeps _ _ _) _ _

theorem logEnd_keeps (p : Fin 8) (j : Job) (e : Ending) : Keeps s (s.logEnd p j e) := ite_keeps (fun _ => Keeps.refl _) fun _ => log_keeps _ _

theorem outputsOf_keeps (t : Task) (e : Ending) : Keeps s (s.outputsOf t e).1 := by
  unfold State.outputsOf
  split
  · split
    · exact packageOutputs_keeps _
    · exact Keeps.refl _
  · exact Keeps.refl _

theorem announceEnd_keeps (p : Fin 8) (t : Task) (e : Ending) : Keeps s (s.announceEnd p t e) := by
  unfold State.announceEnd
  refine Keeps.trans ?_ (pushEvent_keeps _ _ _)
  refine Keeps.trans ?_ (deliver_keeps _ _ _ _)
  refine Keeps.trans ?_ (logEnd_keeps _ _ _)
  exact ite_keeps (fun _ => sendEnd_keeps _ _) fun _ => Keeps.refl _

theorem leaveTask_keeps (p : Fin 8) (j : Job) (b : Bool) : Keeps s (s.leaveTask p j b) := by
  unfold State.leaveTask
  refine Keeps.trans ?_ (modPart_keeps fun _ h => h)
  refine Keeps.trans ?_ (modPart_keeps fun _ h => h)
  exact abandon_keeps _ _ _

theorem finishTask_keeps (p : Fin 8) (t : Task) (e : Ending) (b : Bool) : Keeps s (s.finishTask p t e b) :=
  (outputsOf_keeps t e).trans ((announceEnd_keeps _ _ _).trans ((leaveTask_keeps _ _ _).trans applyHeld_keeps))

theorem execTaskStopped_keeps (h : Fin 8) : KeepsO s (execTaskStopped h s) := by
  unfold execTaskStopped
  refine .next ?_
  split
  · exact Keeps.refl _
  · split
    · exact Keeps.refl _
    · split
      · exact Keeps.refl _
      · exact finishTask_keeps _ _ _ _

/-! Starting a job -/

theorem clearForTask_keeps (p : Fin 8) : Keeps s (s.clearForTask p) := by
  unfold State.clearForTask
  refine Keeps.trans (t := (List.finRange 8).foldl (fun (s : State) h => if s.inPart p h then s.modHearth h Hearth.clearForTask else s) s) ?_ (modCores_keeps fun _ _ h => h)
  exact foldl_keeps (fun _ _ => ite_keeps (fun _ => modHearth_keeps fun _ _ => ⟨Nat.zero_le _, Nat.zero_le _⟩) fun _ => Keeps.refl _) _ s

theorem loadFail_keeps (p : Fin 8) (t : Task) (f : LoadFail) : Keeps s (s.loadFail p t f) := by
  unfold State.loadFail
  refine Keeps.trans ?_ (finishTask_keeps _ _ _ _)
  exact modPart_keeps fun _ h => h

theorem callPeers_keeps (p : Fin 8) (ms : List (BitVec 16)) : Keeps s (s.callPeers p ms) := by
  unfold State.callPeers
  split
  · exact Keeps.refl _
  · exact foldl_keeps (fun _ _ => ite_keeps (fun _ => Keeps.refl _) fun _ => sendHello_keeps _ _ _) _ _

theorem beginTask_keeps (p : Fin 8) (j : Job) (img : Image) (d : Digest) : Keeps s (s.beginTask p j img d) := by
  unfold State.beginTask
  refine Keeps.trans ?_ (pumpRounds_keeps _)
  refine Keeps.trans ?_ (callPeers_keeps _ _)
  refine then_keeps ?_ (barMedia_keeps _)
  refine Keeps.trans (placeImage_keeps p img) ?_
  exact modPart_keeps fun _ h => h

theorem loadJob_keeps (p : Fin 8) (fail : Option (BitVec 64)) (j : Job) : Keeps s (s.loadJob p fail j) := by
  unfold State.loadJob
  split
  · exact loadFail_keeps _ _ _
  · rename_i h
    have h1 := loadObjects_post fail j _ h
    split
    · exact Keeps.trans h1 (loadFail_keeps _ _ _)
    · split
      · exact Keeps.trans h1 (loadFail_keeps _ _ _)
      · exact Keeps.trans h1 (beginTask_keeps _ _ _ _)

theorem execJobStart_keeps (h : Fin 8) (fail : Option (BitVec 64)) : KeepsO s (execJobStart h fail s) := by
  unfold execJobStart
  refine .next (ite_keeps (fun _ => Keeps.refl _) fun _ => ?_)
  split
  · exact Keeps.refl _
  · refine Keeps.trans ?_ (loadJob_keeps _ _ _)
    refine Keeps.trans ?_ (clearForTask_keeps _)
    exact modPart_keeps fun _ h => h

theorem execStartBarrierComplete_keeps (h : Fin 8) : KeepsO s (execStartBarrierComplete h s) := by
  unfold execStartBarrierComplete
  refine .next ?_
  split
  · exact Keeps.refl _
  · split
    · exact Keeps.refl _
    · exact ite_keeps (fun _ => modTask_keeps) fun _ => Keeps.refl _

theorem execGangStartTimeout_keeps (h : Fin 8) : KeepsO s (execGangStartTimeout h s) := by
  unfold execGangStartTimeout
  refine .next ?_
  split
  · exact Keeps.refl _
  · split
    · exact Keeps.refl _
    · exact ite_keeps (fun _ => (reach_keeps _ _).trans (finishTask_keeps _ _ _ _)) fun _ => Keeps.refl _

theorem execCoresStart_keeps (h : Fin 8) : KeepsO s (execCoresStart h s) := by
  unfold execCoresStart
  refine .next ?_
  split
  · exact Keeps.refl _
  · split
    · exact Keeps.refl _
    · refine ite_keeps (fun _ => Keeps.trans ?_ modTask_keeps) fun _ => Keeps.refl _
      exact modCores_keeps fun _ _ h => h

theorem execQueueWaitExpired_keeps (j : BitVec 32) : KeepsO s (execQueueWaitExpired j s) := by
  unfold execQueueWaitExpired
  refine .next ?_
  split
  · exact Keeps.refl _
  · exact (reach_keeps _ _).trans (endQueued_keeps _ _ _ _)

theorem zeroPart_keeps (p : Fin 8) : Keeps s (s.zeroPart p) := setMem_keeps fun h => ⟨clearRange_wf h.1, h.2⟩

theorem execPartitionZeroed_keeps (h : Fin 8) : KeepsO s (execPartitionZeroed h s) := by
  unfold execPartitionZeroed
  refine .next ?_
  split
  · exact Keeps.refl _
  · refine ite_keeps (fun _ => ?_) fun _ => Keeps.refl _
    refine Keeps.trans ?_ (modPart_keeps fun _ h => h)
    exact zeroPart_keeps _

theorem endWindow_keeps (w : Nat) : Keeps s (s.endWindow w) :=
  ⟨rfl, Nat.le_refl _, fun h => ⟨h.1, h.2.1, forall_map h.2.2.1 (fun _ h => h), h.2.2.2⟩⟩

theorem execSlowdownWindow_keeps : KeepsO s (execSlowdownWindow s) := .next ((reach_keeps s _).trans (endWindow_keeps _))

end Sys2Proof.Machine
end

