-- ==== Sys2Proof/Laws/KeepsLarcy.lean ====
section
/-! SUPPORT. What the Larcy command engine keeps (Machine/Larcy.lean). -/

namespace Sys2Proof.Machine

variable {s : State}

/-! Contexts -/

theorem disown_keeps (n : Fin 4096) : Keeps s (s.disown n) :=
  ⟨rfl, Nat.le_refl _, fun w => ⟨w.1, w.2.1, w.2.2.1, w.2.2.2.1, forall_map (P := fun x : Part => x.records.length ≤ 64) w.2.2.2.2.1 (fun _ h => (List.length_map _).le.trans h), w.2.2.2.2.2⟩⟩

theorem dropCtx_keeps (n : Fin 4096) : Keeps s (s.dropCtx n) := (disown_keeps n).trans modLarcy_keeps

theorem putDone_keeps (n : Fin 4096) (c : BitVec 16) (o : Nat) (st : Status) (r : BitVec 128) : Keeps s (s.putDone n c o st r) := modCtx_keeps _ _ _

theorem closeCtx_keeps (n : Fin 4096) : Keeps s (s.closeCtx n) := by
  unfold State.closeCtx
  split
  · exact Keeps.refl _
  · exact (dropCtx_keeps n).trans (foldl_keeps (fun _ _ => putDone_keeps _ _ _ _ _) _ _)

theorem complete_keeps (n : Fin 4096) (st : Status) (r : BitVec 128) : Keeps s (s.complete n st r) := by
  unfold State.complete
  split
  · exact Keeps.refl _
  · split
    · exact Keeps.refl _
    · exact ite_keeps (fun _ => putDone_keeps _ _ _ _ _) fun _ => closeCtx_keeps _

theorem queueFault_keeps (n : Fin 4096) : Keeps s (s.queueFault n) := (closeCtx_keeps n).trans modLarcy_keeps

theorem closeAll_keeps : Keeps s s.closeAll := foldl_keeps (fun _ _ => dropCtx_keeps _) _ _

theorem takeEntry_keeps (n : Fin 4096) (e : List Byte) : Keeps s (s.takeEntry n e) := modCtx_keeps _ _ _

theorem judge_keeps (n : Fin 4096) (c : LCtx) (x : HostFate) (e : List Byte) {act : State → LCtx → List Byte → List Byte → State} (ha : ∀ t c e pb, Keeps t (act t c e pb)) :
    Keeps s (s.judge n c x e act) := by
  unfold State.judge
  split
  · exact complete_keeps _ _ _
  · exact ha _ _ _ _

/-- A consumed command, whatever it does once its checks pass. -/
theorem consume_keeps (n : Fin 4096) (x : HostFate) (o : Nat) {act : State → LCtx → List Byte → List Byte → State} (ha : ∀ t c e pb, Keeps t (act t c e pb)) :
    Keeps s (s.consume n x o act) := by
  unfold State.consume
  split
  · exact Keeps.refl _
  · refine ite_keeps (fun _ => queueFault_keeps _) fun _ => ite_keeps (fun _ => Keeps.refl _) fun _ => (takeEntry_keeps _ _).trans (judge_keeps _ _ _ _ ha)

theorem ctxOpen_keeps (n : Fin 4096) (e : List Byte) : Keeps s (s.ctxOpen n e) := by
  unfold State.ctxOpen
  split
  · exact complete_keeps _ _ _
  · split
    · exact complete_keeps _ _ _
    · exact modLarcy_keeps.trans (complete_keeps _ _ _)

theorem execCtxOpen_keeps (n : Fin 4096) (x : HostFate) : KeepsO s (execCtxOpen n x s) := .next (consume_keeps _ _ _ fun _ _ _ _ => ctxOpen_keeps _ _)

theorem ctxClose_keeps (n : Fin 4096) (c : LCtx) (e : List Byte) : Keeps s (s.ctxClose n c e) := by
  unfold State.ctxClose
  dsimp only
  split
  · exact complete_keeps _ _ _
  · exact ite_keeps (fun _ => closeCtx_keeps _) fun _ => ite_keeps (fun _ => (closeCtx_keeps _).trans (complete_keeps _ _ _)) fun _ => modCtx_keeps _ _ _

theorem execCtxClose_keeps (n : Fin 4096) (x : HostFate) : KeepsO s (execCtxClose n x s) := .next (consume_keeps _ _ _ fun _ _ _ _ => ctxClose_keeps _ _ _)

/-! Jobs -/

theorem refuse_keeps (n : Fin 4096) (j : Job) (st : Status) : Keeps s (s.refuse n j st) :=
  (deliver_keeps _ _ _ _).trans ((log_keeps _ _).trans (complete_keeps _ _ _))

theorem enqueue_keeps (j : Job) : Keeps s (s.enqueue j) := modPart_keeps fun _ h => h

theorem countJob_keeps : Keeps s s.countJob := modLarcy_keeps

theorem submit_keeps (n : Fin 4096) (j : Job) : Keeps s (s.submit n j) := by
  unfold State.submit
  refine ite_keeps (fun _ => complete_keeps _ _ _) fun _ => ?_
  split
  · exact countJob_keeps.trans (refuse_keeps _ _ _)
  · exact countJob_keeps.trans ((enqueue_keeps _).trans (complete_keeps _ _ _))

theorem execSubmit_keeps (n : Fin 4096) (x : HostFate) : KeepsO s (execSubmit n x s) := .next (consume_keeps _ _ _ fun _ _ _ _ => submit_keeps _ _)

theorem jobCommand_keeps (n : Fin 4096) (x : HostFate) (o : Nat) {act : State → List Byte → W32 → State} (ha : ∀ t e i, Keeps t (act t e i)) : Keeps s (s.jobCommand n x o act) :=
  consume_keeps _ _ _ fun _ _ _ _ => ite_keeps (fun _ => ha _ _ _) fun _ => complete_keeps _ _ _

theorem suspendJob_keeps (i e : W32) : Keeps s (s.suspendJob i e) := by
  unfold State.suspendJob
  split
  · exact modTask_keeps
  · split
    · exact modPart_keeps fun _ h => h
    · exact Keeps.refl _

theorem execSuspend_keeps (n : Fin 4096) (x : HostFate) : KeepsO s (execSuspend n x s) :=
  .next (jobCommand_keeps _ _ _ fun _ _ _ => (suspendJob_keeps _ _).trans (complete_keeps _ _ _))

theorem resume_keeps (p : Fin 8) : Keeps s (s.resume p) := by
  unfold State.resume
  refine Keeps.trans ?_ (modPart_keeps fun _ h => h)
  refine Keeps.trans ?_ modTask_keeps
  exact modCores_keeps fun _ _ h => h

theorem resumeJob_keeps (i : W32) : Keeps s (s.resumeJob i) := by
  unfold State.resumeJob
  split
  · exact ite_keeps (fun _ => resume_keeps _) fun _ => Keeps.refl _
  · exact Keeps.refl _

theorem execResume_keeps (n : Fin 4096) (x : HostFate) : KeepsO s (execResume n x s) :=
  .next (jobCommand_keeps _ _ _ fun _ _ _ => (resumeJob_keeps _).trans (complete_keeps _ _ _))

theorem cancelJob_keeps (i : W32) (b : Bool) : Keeps s (s.cancelJob i b) := by
  unfold State.cancelJob
  split
  · exact ite_keeps (fun _ => endTask_keeps _ _ _) fun _ => modTask_keeps
  · split
    · exact endQueued_keeps _ _ _ _
    · exact Keeps.refl _

theorem execCancel_keeps (n : Fin 4096) (x : HostFate) : KeepsO s (execCancel n x s) :=
  .next (jobCommand_keeps _ _ _ fun _ _ _ => (cancelJob_keeps _ _).trans (complete_keeps _ _ _))

theorem execQuery_keeps (n : Fin 4096) (x : HostFate) : KeepsO s (execQuery n x s) := by
  refine .next (jobCommand_keeps _ _ _ fun t e i => ?_)
  split
  · refine Keeps.trans ?_ (complete_keeps _ _ _)
    exact ite_keeps (fun _ => Keeps.refl _) fun _ => hostWrite_keeps _ _ _
  · exact complete_keeps _ _ _

/-! Partitions -/

theorem completePart_keeps (n : Fin 4096) (st : Status) : Keeps s (s.completePart n st) := complete_keeps _ _ _

theorem setMode_keeps (p : Fin 8) (m : PartMode) : Keeps s (s.setMode p m) := modPart_keeps fun _ h => h

theorem modeTo_keeps (n : Fin 4096) (p : Fin 8) (m : PartMode) : Keeps s ((s.setMode p m).completePart n 0) :=
  (setMode_keeps _ _).trans (completePart_keeps _ _)

theorem stopPart_keeps (n : Fin 4096) (p : Fin 8) : Keeps s (s.stopPart n p) := by
  unfold State.stopPart
  split
  · exact complete_keeps _ _ _
  · exact modeTo_keeps _ _ _
  · exact modeTo_keeps _ _ _
  · exact modeTo_keeps _ _ _
  · exact ite_keeps (fun _ => completePart_keeps _ _) fun _ => modeTo_keeps _ _ _
  · exact completePart_keeps _ _
  · exact completePart_keeps _ _

theorem execPartitionStop_keeps (n : Fin 4096) (x : HostFate) : KeepsO s (execPartitionStop n x s) := .next (consume_keeps _ _ _ fun _ _ _ _ => stopPart_keeps _ _)

theorem startPart_keeps (n : Fin 4096) (p : Fin 8) : Keeps s (s.startPart n p) := by
  unfold State.startPart
  split
  · exact complete_keeps _ _ _
  · exact ite_keeps (fun _ => completePart_keeps _ _) fun _ => modeTo_keeps _ _ _
  · exact ite_keeps (fun _ => completePart_keeps _ _) fun _ => completePart_keeps _ _

theorem execPartitionStart_keeps (n : Fin 4096) (x : HostFate) : KeepsO s (execPartitionStart n x s) := .next (consume_keeps _ _ _ fun _ _ _ _ => startPart_keeps _ _)

theorem endWaiting_keeps (l : List (Fin 8)) : Keeps s (s.endWaiting l) :=
  foldl_keeps (fun _ _ => foldl_keeps (fun _ _ => endQueued_keeps _ _ _ _) _ _) _ _

theorem zeroGone_keeps (l : List (Fin 8)) : Keeps s (s.zeroGone l) :=
  foldl_keeps (fun _ _ => ite_keeps (fun _ => zeroPart_keeps _) fun _ => Keeps.refl _) _ _

theorem under_records (y : Part) (b c : Bool) : (y.under b c).records = y.records := by
  unfold Part.under
  split
  · rfl
  · split <;> rfl

theorem noWiden_wf {x : Hearth} (h : x.Wf) : x.noWiden.Wf := ⟨Nat.zero_le _, h.2⟩

theorem setLayout_keeps (n : Nat) : Keeps s (s.setLayout n) := by
  unfold State.setLayout
  dsimp only
  have h1 : Keeps s ((s.endWaiting (s.changedParts n)).zeroGone (s.changedParts n)) := (endWaiting_keeps _).trans (zeroGone_keeps _)
  generalize (s.endWaiting (s.changedParts n)).zeroGone (s.changedParts n) = a at h1 ⊢
  refine h1.trans ⟨rfl, Nat.le_refl _, fun w => ⟨w.1, w.2.1, fun h => ?_, w.2.2.2.1, fun p => ?_, w.2.2.2.2.2⟩⟩
  · simp only [Fin.getElem_fin, Vector.getElem_ofFn]
    split
    · exact w.2.2.1 h
    · exact noWiden_wf (w.2.2.1 h)
  · simp only [Fin.getElem_fin, Vector.getElem_ofFn, under_records]
    exact w.2.2.2.2.1 p

theorem setResv_keeps (vs : List (Fin 8 × Nat)) : Keeps s (s.setResv vs) := ⟨rfl, Nat.le_refl _, id⟩

theorem setSpread_keeps (x : BitVec 8) : Keeps s (s.setSpread x) := setMem_keeps fun h => h

theorem partitionSet_keeps (n : Fin 4096) (pb : List Byte) : Keeps s (s.partitionSet n pb) := by
  unfold State.partitionSet
  dsimp only
  refine ite_keeps (fun _ => ?_) fun _ => completePart_keeps _ _
  refine Keeps.trans ?_ (completePart_keeps _ _)
  refine Keeps.trans ?_ (setResv_keeps _)
  exact (setLayout_keeps _).trans (setSpread_keeps _)

theorem execPartitionSet_keeps (n : Fin 4096) (x : HostFate) : KeepsO s (execPartitionSet n x s) := .next (consume_keeps _ _ _ fun _ _ _ _ => partitionSet_keeps _ _)

/-! VAULT_INSTALL, ATTEST, streams -/

theorem installEnd_keeps (st : Status) : Keeps s (s.installEnd st) := by
  unfold State.installEnd
  refine Keeps.trans ?_ (log_keeps _ _)
  exact ⟨rfl, Nat.le_refl _, id⟩

theorem setSec_keeps {x : Security} : Keeps s { s with sec := x } := ⟨rfl, Nat.le_refl _, id⟩

theorem installStop_keeps (n : Fin 4096) (st : Status) : Keeps s (s.installStop n st) := (installEnd_keeps _).trans (complete_keeps _ _ _)

theorem installCheck_keeps (n : Fin 4096) (pb : List Byte) : Keeps s (s.installCheck n pb) :=
  ite_keeps (fun _ => installStop_keeps _ _) fun _ => ite_keeps (fun _ => installStop_keeps _ _) fun _ =>
    ite_keeps (fun _ => Keeps.trans (setSec_keeps (s := s)) (installStop_keeps _ _)) fun _ => ite_keeps (fun _ => installStop_keeps _ _) fun _ => setSec_keeps

theorem execVaultInstall_keeps (n : Fin 4096) (x : HostFate) : KeepsO s (execVaultInstall n x s) :=
  .next (ite_keeps (fun _ => Keeps.refl _) fun _ => consume_keeps _ _ _ fun _ _ _ _ => installCheck_keeps _ _)

theorem writeRegion_keeps (r : Region) : Keeps s (s.writeRegion r) := setMem_keeps fun h => ⟨h.1, h.2.1, writeBytes_wf _ h.2.2⟩

theorem writeRegions_keeps : ∀ (l : List Region) (s : State), Keeps s (s.writeRegions l).1
  | [], s => Keeps.refl s
  | r :: rs, s => by
    unfold State.writeRegions
    dsimp only
    split
    · exact (writeRegion_keeps r).trans (writeRegions_keeps rs _)
    · exact writeRegion_keeps r

theorem execVaultInstallDone_keeps (b : Bool) : KeepsO s (execVaultInstallDone b s) := by
  unfold execVaultInstallDone
  refine .next ?_
  split
  · exact Keeps.refl _
  · rename_i i _
    dsimp only
    refine ite_keeps (fun _ => installStop_keeps _ _) fun _ => ?_
    have h1 : Keeps s ((s.writeRegions i.regions).1.setProgress (s.writeRegions i.regions).2.1) := (writeRegions_keeps _ _).trans setSec_keeps
    generalize (s.writeRegions i.regions).1.setProgress (s.writeRegions i.regions).2.1 = a at h1 ⊢
    refine h1.trans (ite_keeps (fun _ => ?_) fun _ => installStop_keeps _ _)
    exact Keeps.trans (setSec_keeps (s := a)) (installStop_keeps _ _)

theorem attest_keeps (n : Fin 4096) (e : List Byte) : Keeps s (s.attest n e) := (draw_keeps s).trans ((hostWrite_keeps _ _ _).trans (complete_keeps _ _ _))

theorem execAttest_keeps (n : Fin 4096) (x : HostFate) : KeepsO s (execAttest n x s) := .next (consume_keeps _ _ _ fun _ _ _ _ => attest_keeps _ _)

theorem execStreamOpen_keeps (n : Fin 4096) (x : HostFate) : KeepsO s (execStreamOpen n x s) := by
  refine .next (consume_keeps _ _ _ fun t c e pb => ?_)
  split
  · exact complete_keeps _ _ _
  · rename_i h
    exact (openMedia_keeps _ _ _ h).trans (complete_keeps _ _ _)

theorem streamClose_keeps (n : Fin 4096) (c : LCtx) (k : Fin 2) (i : Fin 256) (b : Bool) : Keeps s (s.streamClose n c k i b) := by
  unfold State.streamClose
  split
  · exact complete_keeps _ _ _
  · refine ite_keeps (fun _ => complete_keeps _ _ _) fun _ => ?_
    exact then_keeps ((closeMedia_keeps _ _ _).trans (complete_keeps _ _ _)) (mediaBoundary_keeps _)

theorem execStreamClose_keeps (n : Fin 4096) (x : HostFate) : KeepsO s (execStreamClose n x s) := .next (consume_keeps _ _ _ fun _ _ _ _ => streamClose_keeps _ _ _ _ _)

/-! Posting and residency -/

theorem sendMsix_keeps (c : LCtx) : Keeps s (s.sendMsix c) := ite_keeps (fun _ => modLarcy_keeps) fun _ => Keeps.refl _

theorem post_keeps (n : Fin 4096) (c : LCtx) (bs : List Byte) (f : LCtx → LCtx) : Keeps s (s.post n c bs f) := by
  unfold State.post
  refine Keeps.trans ?_ (sendMsix_keeps _)
  exact Keeps.trans (hostWrite_keeps _ _ _) (modCtx_keeps _ _ _)

theorem execCompletionPost_keeps (n : Fin 4096) (b : Bool) : KeepsO s (execCompletionPost n b s) := by
  unfold execCompletionPost
  refine .next ?_
  split
  · exact Keeps.refl _
  · split
    · exact Keeps.refl _
    · exact ite_keeps (fun _ => queueFault_keeps _) fun _ => post_keeps _ _ _ _

theorem execEventPost_keeps (n : Fin 4096) (b : Bool) : KeepsO s (execEventPost n b s) := by
  unfold execEventPost
  refine .next ?_
  split
  · exact Keeps.refl _
  · split
    · exact Keeps.refl _
    · exact ite_keeps (fun _ => queueFault_keeps _) fun _ => post_keeps _ _ _ _

theorem loadHead_keeps (n : Fin 4096) : Keeps s (s.loadHead n) := modLarcy_keeps.trans (modCtx_keeps _ _ _)

theorem evict_keeps (v : Fin 4096) : Keeps s (s.evict v) := modLarcy_keeps.trans (modCtx_keeps _ _ _)

theorem execContextSwap_keeps : KeepsO s (execContextSwap s) := by
  unfold execContextSwap
  refine .next ?_
  split
  · exact Keeps.refl _
  · refine ite_keeps (fun _ => loadHead_keeps _) fun _ => ?_
    split
    · exact Keeps.refl _
    · exact (loadHead_keeps _).trans (evict_keeps _)

/-! Doorbells and context 0 -/

theorem writeDoorbell_keeps (n : Fin 4096) (b : Bool) (v : W32) : Keeps s (s.writeDoorbell n b v) := by
  unfold State.writeDoorbell
  split
  · exact Keeps.refl _
  · exact ite_keeps (fun _ => ite_keeps (fun _ => modCtx_keeps _ _ _) fun _ => Keeps.refl _) fun _ => ite_keeps (fun _ => modCtx_keeps _ _ _) fun _ => Keeps.refl _

theorem execSqTailDoorbell_keeps (n : Fin 4096) (v : BitVec 32) : KeepsO s (execSqTailDoorbell n v s) := .next (barWrite_keeps (writeDoorbell_keeps _ _ _))

theorem execCqHeadDoorbell_keeps (n : Fin 4096) (v : BitVec 32) : KeepsO s (execCqHeadDoorbell n v s) := .next (barWrite_keeps (writeDoorbell_keeps _ _ _))

theorem openZero_keeps : Keeps s s.openZero := by
  unfold State.openZero
  split
  · exact modLarcy_keeps
  · exact modLarcy_keeps

theorem writeLarcyCtl_keeps (v : W32) : Keeps s (s.writeLarcyCtl v) := by
  unfold State.writeLarcyCtl
  have h1 : Keeps s (s.storeLarcyCtl v) := modLarcy_keeps
  exact ite_keeps (fun _ => ite_keeps (fun _ => h1) fun _ => h1.trans openZero_keeps) fun _ => ite_keeps (fun _ => h1.trans (closeCtx_keeps _)) fun _ => h1

theorem execContext0Open_keeps (v : BitVec 32) : KeepsO s (execContext0Open v s) := .next (ite_keeps (fun _ => barWrite_keeps (writeLarcyCtl_keeps _)) fun _ => Keeps.refl _)

theorem execContext0Close_keeps (v : BitVec 32) : KeepsO s (execContext0Close v s) := .next (ite_keeps (fun _ => Keeps.refl _) fun _ => barWrite_keeps (writeLarcyCtl_keeps _))

end Sys2Proof.Machine
end

