-- ==== Sys2Proof/Laws/KeepsModule.lean ====
section
/-! SUPPORT. What stacks, the host port, power, firmware, check units and register writes keep (Machine/Hbm.lean, Machine/HostPort.lean, Machine/PowerEv.lean, Machine/SecurityEv.lean, Machine/CheckUnits.lean, Machine/RegWrite.lean). -/

namespace Sys2Proof.Machine

variable {s : State}

/-! Plain updates -/

theorem setPwr_keeps {x : Power} : Keeps s { s with pwr := x } := ⟨rfl, Nat.le_refl _, id⟩

theorem setReply_keeps {x : Reply} : Keeps s { s with reply := x } := ⟨rfl, Nat.le_refl _, id⟩

theorem setGlb_keeps {x : Glb} (h : s.glb.evlog.length ≤ 4096 → x.evlog.length ≤ 4096) : Keeps s { s with glb := x } :=
  ⟨rfl, Nat.le_refl _, fun w => ⟨w.1, w.2.1, w.2.2.1, h w.2.2.2.1, w.2.2.2.2⟩⟩

/-! Stacks -/

theorem modStack_keeps (n : Fin 32) (f : Stack → Stack) : Keeps s (s.modStack n f) := setMem_keeps fun h => h

theorem logStack_keeps (n : Fin 32) (k : Nat) (st : Status) (f a : Nat) : Keeps s (s.logStack n k st f a) := log_keeps _ _

theorem stackEnd_keeps (n : Fin 32) (st : Status) : Keeps s (s.stackEnd n st) := by
  unfold State.stackEnd
  split
  · exact Keeps.refl _
  · exact ite_keeps (fun _ => endTask_keeps _ _ _) fun _ => modPart_keeps fun _ h => h

theorem delayNotice_keeps (h : Fin 8) : Keeps s (s.delayNotice h) := by
  unfold State.delayNotice
  dsimp only
  have h1 : Keeps s { s with mem := { s.mem with noticeAt := s.mem.noticeAt.set h s.now } } := setMem_keeps fun h => h
  refine h1.trans ?_
  split
  · exact Keeps.refl _
  · exact (restartLimits_keeps _ _).trans (foldl_keeps (fun _ _ => foldl_keeps (fun _ _ => unitControl_keeps _ _ _) _ _) _ _)

theorem stopRepair_keeps (n : Fin 32) : Keeps s (s.stopRepair n) := by
  unfold State.stopRepair
  split
  · exact Keeps.refl _
  · exact ite_keeps (fun _ => (modStack_keeps _ _).trans (logStack_keeps _ _ _ _ _)) fun _ => modStack_keeps _ _

theorem quenchEnd_keeps (n : Fin 32) : Keeps s (s.quenchEnd n) := by
  unfold State.quenchEnd
  split
  · exact endTask_keeps _ _ _
  · exact stackEnd_keeps _ _

theorem quench_keeps (n : Fin 32) : Keeps s (s.quench n) := by
  unfold State.quench
  dsimp only
  refine Keeps.trans ?_ (endMediaOn_keeps _ _)
  refine Keeps.trans ?_ (quenchEnd_keeps _)
  exact (stopRepair_keeps n).trans ⟨rfl, Nat.le_refl _, fun w => w⟩

theorem execStackTempSample_keeps (n : Fin 32) (t : Nat) : KeepsO s (execStackTempSample n t s) := by
  unfold execStackTempSample
  refine .next (Keeps.trans (modStack_keeps n fun k => { k with temp := BitVec.ofNat 8 (min t 255) }) ?_)
  refine ite_keeps (fun _ => ite_keeps (fun _ => Keeps.refl _) fun _ => quench_keeps _) fun _ => ite_keeps (fun _ => Keeps.refl _) fun _ => ?_
  exact (modStack_keeps _ _).trans (ite_keeps (fun _ => (logStack_keeps _ _ _ _ _).trans (delayNotice_keeps _)) fun _ => Keeps.refl _)

theorem execBellowsNoticePeriod_keeps (h : Fin 8) : KeepsO s (execBellowsNoticePeriod h s) :=
  .next (ite_keeps (fun _ => (reach_keeps _ _).trans (delayNotice_keeps _)) fun _ => Keeps.refl _)

theorem readLost_keeps (r : HbmReader) (a : BitVec 48) : Keeps s (s.readLost r a) := by
  unfold State.readLost
  split
  · exact ite_keeps (fun _ => coreFault_keeps _ _ _ _ _ _) fun _ => Keeps.refl _
  · exact endMedia_keeps _ _ _
  · exact (logStack_keeps _ _ _ _ _).trans setReply_keeps

theorem execHbmReadReplay_keeps (r : HbmReader) (a : BitVec 48) (ok : Bool) : KeepsO s (execHbmReadReplay r a ok s) := by
  unfold execHbmReadReplay
  refine .next ?_
  have h1 : ∀ xs : List Replay, Keeps s { s with mem := { s.mem with replays := xs } } := fun _ => setMem_keeps fun h => h
  dsimp only
  exact ite_keeps (fun _ => Keeps.refl _) fun _ => ite_keeps (fun _ => h1 _) fun _ => ite_keeps (fun _ => h1 _) fun _ => (h1 _).trans (readLost_keeps _ _)

theorem logRow_keeps (r : RowRec) : Keeps s (s.logRow r).1 := by
  unfold State.logRow
  split
  · exact Keeps.refl _
  · split
    · exact setMem_keeps fun h => h
    · exact setMem_keeps fun h => h

theorem repairRow_keeps (e : RowError) : Keeps s (s.repairRow e) := by
  unfold State.repairRow
  dsimp only
  refine Keeps.trans ?_ (logStack_keeps _ _ _ _ _)
  exact ite_keeps (fun _ => (logRow_keeps _).trans (modStack_keeps _ _)) fun _ => logRow_keeps _

theorem execRowRepair_keeps (e : RowError) : KeepsO s (execRowRepair e s) := by
  unfold execRowRepair
  refine .next (ite_keeps (fun _ => Keeps.refl _) fun _ => ite_keeps (fun _ => repairRow_keeps _) fun _ => ?_)
  exact then_keeps (modStack_keeps _ _) (repairRow_keeps _)

theorem fenceLinks_keeps (h : Fin 8) : Keeps s (s.fenceLinks h) :=
  foldl_keeps (fun _ _ => ite_keeps (fun _ => linkDown_keeps _ _) fun _ => modFab_keeps) _ _

theorem fenceStacks_keeps (h : Fin 8) : Keeps s (s.fenceStacks h) := by
  unfold State.fenceStacks
  exact foldl_keeps (fun _ _ => (stopRepair_keeps _).trans (modStack_keeps _ _)) _ s

theorem dropHearth_keeps (h : Fin 8) : Keeps s (s.dropHearth h) := ⟨rfl, Nat.le_refl _, id⟩

theorem fenceHearth_keeps (n : Fin 32) : Keeps s (s.fenceHearth n) := by
  unfold State.fenceHearth
  dsimp only
  refine Keeps.trans ?_ (endMediaOn_keeps _ _)
  refine Keeps.trans ?_ (fenceLinks_keeps _)
  refine Keeps.trans ?_ (stackEnd_keeps _ _)
  exact (fenceStacks_keeps _).trans (dropHearth_keeps _)

theorem recordFence_keeps (n : Fin 32) : Keeps s (s.recordFence n) := ite_keeps (fun _ => Keeps.refl _) fun _ => setMem_keeps fun h => h

theorem execStackFence_keeps (n : Fin 32) (c : FenceCause) : KeepsO s (execStackFence n c s) := by
  unfold execStackFence
  refine .next ?_
  split
  · exact (fenceHearth_keeps _).trans ((modStack_keeps _ _).trans (recordFence_keeps _))
  · exact ite_keeps (fun _ => (fenceHearth_keeps _).trans (recordFence_keeps _)) fun _ => Keeps.refl _
  · exact Keeps.refl _
  · exact Keeps.refl _

theorem countDenied_keeps : Keeps s s.countDenied := setMem_keeps fun h => h

theorem execHostHdmRead_keeps (x : BitVec 64) (n : Nat) : KeepsO s (execHostHdmRead x n s) := by
  unfold execHostHdmRead
  refine .next (ite_keeps (fun _ => setReply_keeps) fun _ => ?_)
  split
  · exact setReply_keeps
  · exact ite_keeps (fun _ => countDenied_keeps.trans setReply_keeps) fun _ => ite_keeps (fun _ => (logStack_keeps _ _ _ _ _).trans setReply_keeps) fun _ => setReply_keeps

theorem execHostHdmWrite_keeps (x : BitVec 64) (bs : List (BitVec 8)) : KeepsO s (execHostHdmWrite x bs s) := by
  unfold execHostHdmWrite
  refine .next (ite_keeps (fun _ => Keeps.refl _) fun _ => ?_)
  split
  · exact Keeps.refl _
  · refine ite_keeps (fun _ => countDenied_keeps) fun _ => ite_keeps (fun _ => Keeps.refl _) fun _ => ?_
    refine Keeps.trans ?_ (serviceDone_keeps _ _ _ _)
    exact setMem_keeps fun h => mem_write_wf h _ _

theorem execHostSnoop_keeps (a : BitVec 64) : KeepsO s (execHostSnoop a s) := .next (ite_keeps (fun _ => setReply_keeps) fun _ => Keeps.refl _)

/-! The host port -/

theorem execHp0LinkUp_keeps (o : HostOffer) : KeepsO s (execHp0LinkUp o s) := .next (ite_keeps (fun _ => modLarcy_keeps) fun _ => Keeps.refl _)

theorem updateEnd_keeps (st : Status) : Keeps s (s.updateEnd st) := by
  unfold State.updateEnd
  refine Keeps.trans ?_ (log_keeps _ _)
  exact setSec_keeps

theorem portDown_keeps : Keeps s s.portDown := by
  unfold State.portDown
  refine ite_keeps (fun _ => Keeps.refl _) fun _ => ?_
  refine then_keeps ?_ (updateEnd_keeps _)
  refine then_keeps ?_ (installEnd_keeps _)
  refine Keeps.trans ?_ (log_keeps _ _)
  exact (failHostXfers_keeps s).trans (closeAll_keeps.trans modLarcy_keeps)

theorem execHp0Down_keeps : KeepsO s (execHp0Down s) := .next portDown_keeps

theorem execPowerStateChange_keeps (b : Bool) : KeepsO s (execPowerStateChange b s) := .next (ite_keeps (fun _ => modLarcy_keeps) fun _ => Keeps.refl _)

/-! Reset -/

theorem reset_cores_wf (g : Fin 512) : (State.reset.cores[g]).Wf := by
  simp only [State.reset, Fin.getElem_fin, Vector.getElem_replicate]
  exact ⟨rfl, rfl⟩

theorem reset_hearths_wf (h : Fin 8) : (State.reset.hearths[h]).Wf := by
  simp only [State.reset, Fin.getElem_fin, Vector.getElem_replicate]
  exact ⟨Nat.zero_le _, Nat.zero_le _⟩

theorem reset_parts_wf : ∀ p : Fin 8, (State.reset.parts[p]).records.length ≤ 64 := by decide

theorem reset_snoop_wf (p : Fin 16) : (State.reset.snoop[p]).results.length ≤ 64 := by
  simp only [State.reset, Fin.getElem_fin, Vector.getElem_replicate]
  exact Nat.zero_le _

theorem reset_chk_wf (n : Fin 256) : (State.reset.chk[n]).queue.length ≤ 16 := by
  simp only [State.reset, Fin.getElem_fin, Vector.getElem_replicate]
  exact Nat.zero_le _

theorem wipe_keeps : Keeps s s.wipe :=
  ⟨rfl, Nat.le_refl _, fun w => ⟨⟨rfl, w.1.2.1, w.1.2.2⟩, reset_cores_wf, reset_hearths_wf, Nat.zero_le _, reset_parts_wf, reset_snoop_wf, reset_chk_wf⟩⟩

theorem moduleReset_keeps (n : Nat) (b : Bool) : Keeps s (s.moduleReset n b) := wipe_keeps.trans setPwr_keeps

theorem modPin_keeps (p : Pin) (f : Filter → Filter) : Keeps s (s.modPin p f) := setPwr_keeps

theorem pinEffect_keeps (p : Pin) (l b : Bool) : Keeps s (s.pinEffect p l b) := by
  unfold State.pinEffect
  split
  · exact moduleReset_keeps _ _
  · exact setPwr_keeps
  · exact moduleReset_keeps _ _
  · exact setPwr_keeps
  · exact portDown_keeps
  · exact Keeps.refl _
  · exact Keeps.refl _

theorem addCauses_keeps (c : BitVec 6) : Keeps s (s.addCauses c) := setPwr_keeps

theorem logRace_keeps (p : Pin) : Keeps s (s.logRace p) := by
  unfold State.logRace
  refine Keeps.trans ?_ (log_keeps _ _)
  exact setGlb_keeps fun h => h

theorem acceptPin_keeps (p : Pin) (l : Bool) : Keeps s (s.acceptPin p l) := by
  unfold State.acceptPin
  dsimp only
  refine ite_keeps (fun _ => ?_) fun _ => (modPin_keeps _ _).trans (pinEffect_keeps _ _ _)
  exact ite_keeps (fun _ => (modPin_keeps _ _).trans ((logRace_keeps _).trans (addCauses_keeps _))) fun _ => (modPin_keeps _ _).trans ((logRace_keeps _).trans (pinEffect_keeps _ _ _))

theorem execSlowInputAccept_keeps (p : Pin) (l : Bool) : KeepsO s (execSlowInputAccept p l s) := by
  unfold execSlowInputAccept
  refine .next (ite_keeps (fun _ => Keeps.refl _) fun _ => ?_)
  exact Keeps.trans setPwr_keeps (acceptPin_keeps _ _)

theorem execFilterHoldoffEnd_keeps (p : Pin) (x : Option Bool) : KeepsO s (execFilterHoldoffEnd p x s) := by
  unfold execFilterHoldoffEnd
  refine .next ?_
  split
  · exact Keeps.refl _
  · rename_i t _
    dsimp only
    have h1 : Keeps s ((s.reach t).modPin p fun f => { f with holdUntil := none }) := (reach_keeps _ _).trans (modPin_keeps _ _)
    refine h1.trans ?_
    split
    · exact Keeps.refl _
    · exact ite_keeps (fun _ => Keeps.refl _) fun _ => acceptPin_keeps _ _

theorem execRacingEnd_keeps (p : Pin) (l : Bool) : KeepsO s (execRacingEnd p l s) := by
  unfold execRacingEnd
  exact .next (ite_keeps (fun _ => Keeps.refl _) fun _ => (modPin_keeps _ _).trans (ite_keeps (fun _ => Keeps.refl _) fun _ => pinEffect_keeps _ _ _))

/-! Start-up -/

theorem logBoot_keeps (st : Status) : Keeps s (s.logBoot st) := log_keeps _ _

theorem runFw_keeps (b f : Bool) : Keeps s (s.runFw b f) := setSec_keeps

theorem noBoot_keeps (st : Status) : Keeps s (s.noBoot st) := ⟨rfl, Nat.le_refl _, id⟩

theorem boot_keeps : Keeps s s.boot :=
  ite_keeps (fun _ => (logBoot_keeps _).trans (runFw_keeps _ _)) fun _ =>
    ite_keeps (fun _ => (logBoot_keeps _).trans ((logBoot_keeps _).trans (runFw_keeps _ _))) fun _ => (logBoot_keeps _).trans ((logBoot_keeps _).trans (noBoot_keeps _))

theorem latchCause_keeps : Keeps s s.latchCause := ⟨rfl, Nat.le_refl _, id⟩

theorem logStart_keeps (c : BitVec 6) : Keeps s (s.logStart c) := log_keeps _ _

theorem drawBoot_keeps : Keeps s s.drawBoot := ⟨rfl, Nat.le_refl _, id⟩

theorem trainLinks_keeps (l : List (Fin 128)) : Keeps s (l.foldl State.trainLink s) := foldl_keeps (fun _ _ => trainLink_keeps _) l s

theorem execStartupBegin_keeps : KeepsO s (execStartupBegin s) := by
  unfold execStartupBegin
  refine .next (ite_keeps (fun _ => Keeps.refl _) fun _ => ?_)
  have h1 : Keeps s (((s.reach s.pwr.t0).latchCause.logStart s.startCause).boot) :=
    (reach_keeps s _).trans (latchCause_keeps.trans ((logStart_keeps _).trans boot_keeps))
  dsimp only
  generalize ((s.reach s.pwr.t0).latchCause.logStart s.startCause).boot = a at h1 ⊢
  exact ite_keeps (fun _ => h1.trans (drawBoot_keeps.trans (trainLinks_keeps _))) fun _ => h1

theorem trained_keeps (t : TrainResult) : Keeps s (s.trained t) := ⟨rfl, Nat.le_refl _, fun w => w⟩

theorem bringUp_keeps (t : TrainResult) : Keeps s (s.bringUp t) := by
  unfold State.bringUp
  refine (trained_keeps t).trans (foldl_keeps (fun _ _ => ?_) _ _)
  split
  · exact fenceHearth_keeps _
  · exact Keeps.refl _

theorem blowFuses_keeps : Keeps s s.blowFuses := by
  unfold State.blowFuses
  split
  · exact ite_keeps (fun _ => setSec_keeps) fun _ => Keeps.refl _
  · exact Keeps.refl _

theorem flagAbsent_keeps : Keeps s s.flagAbsent := ite_keeps (fun _ => Keeps.refl _) fun _ => setPwr_keeps

theorem raiseReady_keeps : Keeps s s.raiseReady := ⟨rfl, Nat.le_refl _, fun w => ⟨⟨rfl, w.1.2⟩, w.2⟩⟩

theorem settleParts_keeps : Keeps s s.settleParts := foldl_keeps (fun _ _ => ite_keeps (fun _ => setMode_keeps _ _) fun _ => Keeps.refl _) _ s

theorem execReadyAssert_keeps (t : TrainResult) : KeepsO s (execReadyAssert t s) := by
  unfold execReadyAssert
  refine .next (ite_keeps (fun _ => Keeps.refl _) fun _ => ?_)
  have h1 : Keeps s (s.bringUp t).flagAbsent := (bringUp_keeps t).trans flagAbsent_keeps
  dsimp only
  generalize (s.bringUp t).flagAbsent = a at h1 ⊢
  exact ite_keeps (fun _ => h1) fun _ => h1.trans (raiseReady_keeps.trans (settleParts_keeps.trans blowFuses_keeps))

/-! Rails, clock, the thermal trip -/

theorem stop_keeps : Keeps s s.stop := wipe_keeps.trans setPwr_keeps

theorem execInputLoss_keeps : KeepsO s (execInputLoss s) := .next (stop_keeps.trans ⟨rfl, Nat.le_refl _, id⟩)

theorem execInputRestore_keeps : KeepsO s (execInputRestore s) := .next (ite_keeps (fun _ => Keeps.refl _) fun _ => setPwr_keeps)

theorem execRailFault_keeps (r : Option (Fin 8)) : KeepsO s (execRailFault r s) := .next (ite_keeps (fun _ => stop_keeps.trans setPwr_keeps) fun _ => Keeps.refl _)

theorem execRefclkLoss_keeps : KeepsO s (execRefclkLoss s) := .next (ite_keeps (fun _ => stop_keeps.trans setPwr_keeps) fun _ => Keeps.refl _)

theorem dieTrip_keeps (d : Fin 10) : Keeps s (s.dieTrip d) := by
  unfold State.dieTrip
  dsimp only
  refine Keeps.trans ?_ (endMediaOn_keeps _ _)
  refine Keeps.trans (setPwr_keeps (s := s)) (foldl_keeps (fun _ _ => ?_) _ _)
  exact ite_keeps (fun _ => endTask_keeps _ _ _) fun _ => ite_keeps (fun _ => Keeps.refl _) fun _ => modPart_keeps fun _ h => h

theorem execDieTempSample_keeps (d : Fin 10) (t : Nat) : KeepsO s (execDieTempSample d t s) := by
  unfold execDieTempSample
  refine .next ?_
  dsimp only
  exact then_keeps (setGlb_keeps fun h => h) (dieTrip_keeps _)

/-! Firmware and installation mode -/

theorem writeFwCtl_keeps (v : W32) : Keeps s (s.writeFwCtl v) := ite_keeps (fun _ => setSec_keeps) fun _ => Keeps.refl _

theorem execFwUpdateGo_keeps (v : BitVec 32) : KeepsO s (execFwUpdateGo v s) := .next (barWrite_keeps (writeFwCtl_keeps _))

theorem storeFw_keeps (f : FwImage) : Keeps s (s.storeFw f) := setSec_keeps

theorem execFwUpdateDone_keeps (b : Bool) : KeepsO s (execFwUpdateDone b s) := by
  unfold execFwUpdateDone
  refine .next (ite_keeps (fun _ => Keeps.refl _) fun _ => ite_keeps (fun _ => updateEnd_keeps _) fun _ => ?_)
  split
  · exact updateEnd_keeps _
  · exact ite_keeps (fun _ => (storeFw_keeps _).trans (updateEnd_keeps _)) fun _ => updateEnd_keeps _

theorem writeInstallCtl_keeps (v : W32) : Keeps s (s.writeInstallCtl v) :=
  ite_keeps (fun _ => ite_keeps (fun _ => setSec_keeps) fun _ => Keeps.refl _) fun _ => ite_keeps (fun _ => Keeps.refl _) fun _ => setSec_keeps

theorem execInstallModeWrite_keeps (v : BitVec 32) : KeepsO s (execInstallModeWrite v s) := .next (barWrite_keeps (writeInstallCtl_keeps _))

/-! Check units -/

theorem modChk_keeps {n : Fin 256} {f : ChkSlot → ChkSlot} (hf : ∀ c : ChkSlot, c.queue.length ≤ 16 → (f c).queue.length ≤ 16) : Keeps s (s.modChk n f) :=
  ⟨rfl, Nat.le_refl _, fun w => ⟨w.1, w.2.1, w.2.2.1, w.2.2.2.1, w.2.2.2.2.1, w.2.2.2.2.2.1, forall_set (P := fun x : ChkSlot => x.queue.length ≤ 16) w.2.2.2.2.2.2 (hf _)⟩⟩

/-- The settled queue is a tail of the given one. -/
theorem settle_queue : ∀ (q : List (ChkReg × W32)) (c : ChkSlot), (c.settle q).queue.length ≤ q.length
  | [], _ => Nat.le_refl _
  | w :: r, c => by
    unfold ChkSlot.settle
    split
    · exact Nat.le_succ_of_le (settle_queue r _)
    · exact Nat.le_refl _

theorem apply_queue (c : ChkSlot) (r : ChkReg) (v : W32) : (c.apply r v).queue = c.queue := by
  unfold ChkSlot.apply
  split
  · dsimp only
    split <;> rfl
  all_goals rfl

/-- A write leaves a queue that holds any: the rest is at most one shorter. -/
theorem pop_queue (c : ChkSlot) : c.pop.queue.length ≤ c.queue.length - 1 := by
  unfold ChkSlot.pop
  split
  · rename_i h; rw [h]; exact Nat.le_refl _
  · rename_i h; rw [h]; exact settle_queue _ _

theorem push_queue {c : ChkSlot} (h : c.queue.length ≤ 16) (r : ChkReg) (v : W32) : (c.push r v).queue.length ≤ 16 := by
  unfold ChkSlot.push
  dsimp only
  refine (settle_queue _ _).trans ?_
  have := pop_queue c
  rw [List.length_append, List.length_singleton]
  split <;> omega

theorem foldl_apply_queue : ∀ (l : List (ChkReg × W32)) (c : ChkSlot), (l.foldl (fun c w => c.apply w.1 w.2) c).queue = c.queue
  | [], _ => rfl
  | _ :: r, _ => (foldl_apply_queue r _).trans (apply_queue _ _ _)

theorem flush_queue (c : ChkSlot) : c.flush.queue = [] := foldl_apply_queue _ _

theorem writeChk_keeps (n : Fin 256) (r : ChkReg) (v : W32) : Keeps s (s.writeChk n r v) :=
  ite_keeps (fun _ => modChk_keeps fun _ h => push_queue h _ _) fun _ => Keeps.refl _

theorem execChkSlotWrite_keeps (n : Fin 256) (r : ChkReg) (v : BitVec 32) : KeepsO s (execChkSlotWrite n r v s) := .next (barWrite_keeps (writeChk_keeps _ _ _))

theorem chkHead_keeps (n : Fin 256) (t : ChkReg → Bool) : Keeps s (s.chkHead n t) := by
  unfold State.chkHead
  split
  · exact Keeps.refl _
  · exact ite_keeps (fun _ => modChk_keeps fun c h => (pop_queue c).trans ((Nat.sub_le _ _).trans h)) fun _ => Keeps.refl _

theorem execChkStart_keeps (n : Fin 256) : KeepsO s (execChkStart n s) := .next (chkHead_keeps _ _)
theorem execChkData8_keeps (n : Fin 256) : KeepsO s (execChkData8 n s) := .next (chkHead_keeps _ _)
theorem execChkData16_keeps (n : Fin 256) : KeepsO s (execChkData16 n s) := .next (chkHead_keeps _ _)
theorem execChkData32_keeps (n : Fin 256) : KeepsO s (execChkData32 n s) := .next (chkHead_keeps _ _)
theorem execChkValWrite_keeps (n : Fin 256) : KeepsO s (execChkValWrite n s) := .next (chkHead_keeps _ _)

theorem execChkRead_keeps (n : Fin 256) (r : ChkReg) : KeepsO s (execChkRead n r s) := by
  unfold execChkRead
  refine .next (ite_keeps (fun _ => setReply_keeps) fun _ => ite_keeps (fun _ => setReply_keeps) fun _ => ?_)
  refine Keeps.trans ?_ setReply_keeps
  refine ite_keeps (fun _ => modChk_keeps fun c _ => ?_) fun _ => Keeps.refl _
  rw [flush_queue]
  exact Nat.zero_le _

theorem setSnoop_keeps {p : Fin 16} {x : Snoop} (h : (s.snoop[p]).results.length ≤ 64 → x.results.length ≤ 64) : Keeps s { s with snoop := s.snoop.set p x } :=
  ⟨rfl, Nat.le_refl _, fun w => ⟨w.1, w.2.1, w.2.2.1, w.2.2.2.1, w.2.2.2.2.1, forall_set (P := fun x : Snoop => x.results.length ≤ 64) w.2.2.2.2.2.1 h, w.2.2.2.2.2.2⟩⟩

theorem execSnoopPortAttach_keeps (p : Fin 16) (a : Option SnoopStream) (k : BitVec 2) : KeepsO s (execSnoopPortAttach p a k s) := .next (setSnoop_keeps fun h => h)

theorem execSnoopResultDequeue_keeps (p : Fin 16) : KeepsO s (execSnoopResultDequeue p s) := by
  unfold execSnoopResultDequeue
  refine .next ?_
  split
  · exact setReply_keeps
  · rename_i x r hr
    refine Keeps.trans (t := { s with snoop := s.snoop.set p { s.snoop[p] with results := r } }) (setSnoop_keeps fun h => ?_) setReply_keeps
    rw [hr] at h
    exact Nat.le_of_succ_le h

/-! Register writes -/

theorem writeBridge_keeps (v : W32) : Keeps s (s.writeBridge v) :=
  ite_keeps (fun _ => Keeps.refl _) fun _ => ite_keeps (fun _ => setGlb_keeps fun h => h) fun _ => setBridge_keeps _ _

theorem writePartCfg_keeps (v : W32) : Keeps s (s.writePartCfg v) := by
  unfold State.writePartCfg
  dsimp only
  refine Keeps.trans (setGlb_keeps (s := s) fun h => h) (ite_keeps (fun _ => Keeps.refl _) fun _ => ite_keeps (fun _ => setLayout_keeps _) fun _ => setGlb_keeps fun h => h)

theorem writeJobPolicy_keeps (v : W32) : Keeps s (s.writeJobPolicy v) := setGlb_keeps fun h => h

theorem selectEvent_keeps (v : W32) : Keeps s (s.selectEvent v) := by
  unfold State.selectEvent
  split
  · exact setGlb_keeps fun h => h
  · exact setGlb_keeps fun h => h

theorem writeGlobal_keeps (x : Nat) (v : W32) : Keeps s (s.writeGlobal x v) := by
  unfold State.writeGlobal
  refine ite_keeps (fun _ => writeBridge_keeps _) fun _ => ite_keeps (fun _ => writePartCfg_keeps _) fun _ => ite_keeps (fun _ => writeJobPolicy_keeps _) fun _ =>
    ite_keeps (fun _ => setGlb_keeps fun h => h) fun _ => ite_keeps (fun _ => setGlb_keeps fun h => h) fun _ => ite_keeps (fun _ => setGlb_keeps fun h => h) fun _ =>
    ite_keeps (fun _ => ite_keeps (fun _ => setResv_keeps _) fun _ => Keeps.refl _) fun _ => ite_keeps (fun _ => setGlb_keeps fun h => h) fun _ =>
    ite_keeps (fun _ => selectEvent_keeps _) fun _ => Keeps.refl _

theorem writeWctr_keeps (h : Fin 8) (n : Fin 64) (x : Nat) (v : W32) : Keeps s (s.writeWctr h n x v) := by
  unfold State.writeWctr
  exact ite_keeps (fun _ => modWctr_keeps) fun _ => ite_keeps (fun _ => modWctr_keeps) fun _ => ite_keeps (fun _ => modWctr_keeps) fun _ =>
    ite_keeps (fun _ => modWctr_keeps) fun _ => ite_keeps (fun _ => writeWctrCtl_keeps _ _ _) fun _ => Keeps.refl _

theorem writeHearth_keeps (h : Fin 8) (x : Nat) (v : W32) : Keeps s (s.writeHearth h x v) := by
  unfold State.writeHearth
  exact ite_keeps (fun _ => Keeps.refl _) fun _ => ite_keeps (fun _ => writeWctr_keeps _ _ _ _) fun _ => ite_keeps (fun _ => modHearth_keeps fun _ h => h) fun _ =>
    ite_keeps (fun _ => modHearth_keeps fun _ h => h) fun _ => ite_keeps (fun _ => modHearth_keeps fun _ h => h) fun _ => Keeps.refl _

theorem writeTuyere_keeps (x : Nat) (v : W32) : Keeps s (s.writeTuyere x v) := by
  unfold State.writeTuyere
  exact ite_keeps (fun _ => writeLarcyCtl_keeps _) fun _ => ite_keeps (fun _ => modLarcy_keeps) fun _ => ite_keeps (fun _ => modLarcy_keeps) fun _ =>
    ite_keeps (fun _ => modLarcy_keeps) fun _ => ite_keeps (fun _ => modLarcy_keeps) fun _ => ite_keeps (fun _ => modLarcy_keeps) fun _ =>
    ite_keeps (fun _ => writeDoorbell_keeps _ _ _) fun _ => ite_keeps (fun _ => modLarcy_keeps) fun _ => Keeps.refl _

theorem writeSpread_keeps (v : W32) : Keeps s (s.writeSpread v) := setMem_keeps fun h => h

theorem writeHdm_keeps (v : W32) : Keeps s (s.writeHdm v) :=
  ite_keeps (fun _ => Keeps.refl _) fun _ => ite_keeps (fun _ => setMem_keeps fun h => h) fun _ => setHdm_keeps _

theorem writeMemory_keeps (x : Nat) (v : W32) : Keeps s (s.writeMemory x v) := by
  unfold State.writeMemory
  exact ite_keeps (fun _ => setMem_keeps fun h => h) fun _ => ite_keeps (fun _ => writeSpread_keeps _) fun _ => ite_keeps (fun _ => writeHdm_keeps _) fun _ =>
    ite_keeps (fun _ => setMem_keeps fun h => h) fun _ => Keeps.refl _

theorem writeModuleId_keeps (v : W32) : Keeps s (s.writeModuleId v) := ite_keeps (fun _ => modFab_keeps) fun _ => setModuleId_keeps _ _

theorem writeFabCtl_keeps (v : W32) : Keeps s (s.writeFabCtl v) := ite_keeps (fun _ => modFab_keeps) fun _ => setFabCtl_keeps _

theorem writeFrameCfg_keeps (v : W32) : Keeps s (s.writeFrameCfg v) := ite_keeps (fun _ => Keeps.refl _) fun _ => modFab_keeps

theorem writeVcHi_keeps (v : W32) : Keeps s (s.writeVcHi v) := modFab_keeps

theorem writeFabric_keeps (x : Nat) (v : W32) : Keeps s (s.writeFabric x v) := by
  unfold State.writeFabric
  exact ite_keeps (fun _ => writeModuleId_keeps _) fun _ => ite_keeps (fun _ => writeFrameCfg_keeps _) fun _ => ite_keeps (fun _ => writeFabCtl_keeps _) fun _ =>
    ite_keeps (fun _ => modFab_keeps) fun _ => ite_keeps (fun _ => modFab_keeps) fun _ => ite_keeps (fun _ => writeVcHi_keeps _) fun _ => Keeps.refl _

theorem writeSecurity_keeps (x : Nat) (v : W32) : Keeps s (s.writeSecurity x v) := by
  unfold State.writeSecurity
  exact ite_keeps (fun _ => setSec_keeps) fun _ => ite_keeps (fun _ => setSec_keeps) fun _ => ite_keeps (fun _ => setSec_keeps) fun _ =>
    ite_keeps (fun _ => writeFwCtl_keeps _) fun _ => ite_keeps (fun _ => writeInstallCtl_keeps _) fun _ => Keeps.refl _

theorem setMedia_keeps {x : Vector MediaEngine 2} : Keeps s { s with media := x } := ⟨rfl, Nat.le_refl _, id⟩

theorem writeMedia_keeps (x : Nat) (v : W32) : Keeps s (s.writeMedia x v) :=
  ite_keeps (fun _ => Keeps.refl _) fun _ => ite_keeps (fun _ => setMedia_keeps) fun _ => ite_keeps (fun _ => setMedia_keeps) fun _ => Keeps.refl _

theorem writeCheck_keeps (x : Nat) (v : W32) : Keeps s (s.writeCheck x v) := by
  unfold State.writeCheck
  refine ite_keeps (fun _ => ?_) fun _ => Keeps.refl _
  split
  · exact writeChk_keeps _ _ _
  · exact Keeps.refl _

theorem writeReg_keeps (x : Nat) (v : W32) : Keeps s (s.writeReg x v) := by
  unfold State.writeReg
  dsimp only
  exact ite_keeps (fun _ => writeGlobal_keeps _ _) fun _ => ite_keeps (fun _ => writeHearth_keeps _ _ _) fun _ => ite_keeps (fun _ => writeTuyere_keeps _ _) fun _ =>
    ite_keeps (fun _ => writeMemory_keeps _ _) fun _ => ite_keeps (fun _ => writeFabric_keeps _ _) fun _ => ite_keeps (fun _ => writeSecurity_keeps _ _) fun _ =>
    ite_keeps (fun _ => writeMedia_keeps _ _) fun _ => ite_keeps (fun _ => writeCheck_keeps _ _) fun _ => Keeps.refl _

theorem execRegisterWrite_keeps (off size : Nat) (v : BitVec 64) : KeepsO s (execRegisterWrite off size v s) :=
  .next (barWrite_keeps (ite_keeps (fun _ => writeReg_keeps _ _) fun _ => Keeps.refl _))
theorem execGlbBridgeCtlWrite_keeps (v : BitVec 32) : KeepsO s (execGlbBridgeCtlWrite v s) := .next (barWrite_keeps (writeBridge_keeps _))
theorem execGlbPartCfgWrite_keeps (v : BitVec 32) : KeepsO s (execGlbPartCfgWrite v s) := .next (barWrite_keeps (writePartCfg_keeps _))
theorem execMemSpreadWrite_keeps (v : BitVec 32) : KeepsO s (execMemSpreadWrite v s) := .next (barWrite_keeps (writeSpread_keeps _))
theorem execMemHdmCtlWrite_keeps (v : BitVec 32) : KeepsO s (execMemHdmCtlWrite v s) := .next (barWrite_keeps (writeHdm_keeps _))
theorem execFabModuleIdWrite_keeps (v : BitVec 32) : KeepsO s (execFabModuleIdWrite v s) := .next (barWrite_keeps (writeModuleId_keeps _))
theorem execFabCtlWrite_keeps (v : BitVec 32) : KeepsO s (execFabCtlWrite v s) := .next (barWrite_keeps (writeFabCtl_keeps _))
theorem execFabFrameCfgWrite_keeps (v : BitVec 32) : KeepsO s (execFabFrameCfgWrite v s) := .next (barWrite_keeps (writeFrameCfg_keeps _))
theorem execFabVcWeightHiWrite_keeps (v : BitVec 32) : KeepsO s (execFabVcWeightHiWrite v s) := .next (barWrite_keeps (writeVcHi_keeps _))
theorem execGlbEvlogSelWrite_keeps (v : BitVec 32) : KeepsO s (execGlbEvlogSelWrite v s) := .next (barWrite_keeps (selectEvent_keeps _))

end Sys2Proof.Machine
end

