-- ==== Sys2Proof/Laws/Present.lean ====
section
/-! SUPPORT. What presenting an instruction as a bundle by itself does (Machine/Operands.lean): the one lemma from which the claims about instructions follow. -/

namespace Sys2Proof.Machine

variable {s : State} {g : Fin 512}

@[simp] theorem setCore_core (s : State) (g : Fin 512) (c : Core) : (s.setCore g c).core g = c := by
  simp [State.setCore, State.core]

@[simp] theorem setCore_setCore (s : State) (g : Fin 512) (c d : Core) : (s.setCore g c).setCore g d = s.setCore g d := by
  simp [State.setCore]

@[simp] theorem setCore_self (s : State) (g : Fin 512) : s.setCore g (s.core g) = s := by
  simp [State.setCore, State.core]

/-- A core that closes with its bundle cleared is the core as it stood. -/
theorem setCore_bundle (h : (s.core g).bundle = Bundle.empty) : s.setCore g { s.core g with bundle := Bundle.empty } = s := by
  have : ({ s.core g with bundle := Bundle.empty } : Core) = s.core g := by rw [← h]
  rw [this, setCore_self]

theorem requestStart_admitted {u : DrawUnit} {d : Nat} (h : Admitted g u d s) : s.requestStart g u d = (true, s) := by
  have h1 : (s.hearths[hearthOf g].drawReqs.find? fun r => decide (r.core = g) && decide (r.unit = u)) = none := by
    simpa using h.1
  have h2 : (s.hearths[hearthOf g].drawReqs.any fun r => r.aged s.now) = false := by simpa using h.2.1
  simp only [State.requestStart, h1, h2, h.2.2, Bool.not_false, Bool.and_self, if_true]

/-- Fewer registers are free where more are. -/
theorem Executes.sub {k : GuardKind} {i : Issue} {rs ts : List Reg} (h : Executes k i rs s) (hs : ∀ r ∈ ts, r ∈ rs) : Executes k i ts s :=
  ⟨h.1, h.2.1, fun r hr => h.2.2 r (by rcases List.mem_cons.1 hr with rfl | hr; exact List.mem_cons_self; exact List.mem_cons_of_mem _ (hs r hr))⟩

/-- What an instruction by itself asks for once it executes. -/
def State.finish (s : State) (g : Fin 512) (o : SlotOp) (a : Act) : State :=
  if a.stall then s
  else match a.fault with
    | some st => s.coreFault g st (s.core g).pc
    | none =>
      if a.eff.vDraw = 0 then s.commitBundle g ⟨[o.slot], o.dests, a.eff, a.ctl, none, false⟩
      else match s.requestStart g .v a.eff.vDraw with
        | (true, t) => t.commitBundle g ⟨[o.slot], o.dests, a.eff, a.ctl, none, false⟩
        | (false, t) => t

@[simp] theorem Staged.empty_join (a : Staged) : Staged.empty.join a = a := by
  simp [Staged.join, Staged.empty]

/-- An instruction that executes as a bundle by itself: a stall drops it, a fault ends the task, and otherwise its effects act. -/
theorem present_alone {i : Issue} {o : SlotOp} {act : Core → PReg → Act} (h : Executes o.guard i (o.reads ++ o.dests) s) (hi : o.illegal = false) :
    present i o act s = .next (s.finish i.core o (act (s.core i.core) (guardMask (s.core i.core) i))) := by
  obtain ⟨⟨h1, h2, h3, hr, hm, _⟩, h5, h6⟩ := h
  have h6' : (s.core i.core).busy (.p i.gp) = false := h6 _ (by simp)
  have h7 : (o.reads ++ o.dests).any (s.core i.core).busy = false := by
    rw [List.any_eq_false]
    intro r hq
    simpa using h6 r (List.mem_cons_of_mem _ hq)
  simp only [present, h1, h2, h3, Bundle.empty, List.contains_nil, Bool.not_true, Bool.or_self, if_false, if_true, Bool.false_eq_true]
  simp only [State.issue, setCore_core, State.modCore, setCore_setCore, Bundle.add, hr, hm, h5, h6', h7, hi, Bool.and_true, Bool.false_or, Bool.or_self,
    Bool.not_false, if_true, List.contains_nil, Bool.and_false, Bool.false_eq_true, if_false, Option.isSome_none, List.nil_append, Bundle.empty]
  have hb := setCore_bundle (s := s) (g := i.core) h2
  simp only [Bundle.empty] at hb
  rw [hb]
  simp only [List.any_eq_true, State.finish, Staged.empty_join]
  simp
  rfl

/-- A bundle with register writes alone leaves them outstanding and moves on. -/
theorem commit_writes {b : Bundle} {ws : List RegWrite} (he : b.eff = { Staged.empty with writes := ws }) (hc : b.ctl = []) (hp : (s.core g).pc ≠ s.lastBundle g) :
    s.commitBundle g b = s.issued g ws := by
  simp only [State.commitBundle, he, hc, Core.commit, Staged.empty, List.foldl_nil, Option.isSome_none, Bool.false_eq_true, if_false, List.any_nil]
  have : (s.setCore g { s.core g with inflight := (s.core g).inflight ++ ws, seq := (s.core g).seq + 1, pc := (s.core g).pc + 1 }).lastBundle g = s.lastBundle g := rfl
  rw [if_neg]
  · rfl
  · intro h; exact hp h.1

/-- An instruction that only writes registers without a draw. -/
theorem present_writes {i : Issue} {o : SlotOp} {act : Core → PReg → Act} {ws : List RegWrite} (h : Executes o.guard i (o.reads ++ o.dests) s) (hi : o.illegal = false)
    (ha : act (s.core i.core) (guardMask (s.core i.core) i) = Act.writes ws) (hd : (ws.map (·.draw)).sum = 0) : present i o act s = .next (s.issued i.core ws) := by
  rw [present_alone h hi, ha]
  have : ({ Staged.empty with writes := ws } : Staged).vDraw = 0 := by simp [Staged.vDraw, hd, Staged.empty]
  simp only [State.finish, Act.writes, Act.none, this, if_true, Bool.false_eq_true, if_false]
  rw [commit_writes rfl rfl h.1.2.2.2.2.2]

/-- An instruction that only writes registers, with a draw that the governor admits. -/
theorem present_draws {i : Issue} {o : SlotOp} {act : Core → PReg → Act} {ws : List RegWrite} (h : Executes o.guard i (o.reads ++ o.dests) s) (hi : o.illegal = false)
    (ha : act (s.core i.core) (guardMask (s.core i.core) i) = Act.writes ws) (hd : Admitted i.core .v (ws.map (·.draw)).sum s) : present i o act s = .next (s.issued i.core ws) := by
  rw [present_alone h hi, ha]
  have : ({ Staged.empty with writes := ws } : Staged).vDraw = (ws.map (·.draw)).sum := by simp [Staged.vDraw, Staged.empty]
  simp only [State.finish, Act.writes, Act.none, this, Bool.false_eq_true, if_false, requestStart_admitted hd]
  rw [commit_writes rfl rfl h.1.2.2.2.2.2]
  split <;> rfl

/-- An illegal instruction by itself, with no register outstanding, ends the task. -/
theorem present_illegal {i : Issue} {o : SlotOp} {act : Core → PReg → Act} (h : Executes o.guard i (o.reads ++ o.dests) s) (hi : o.illegal = true) :
    present i o act s = .next (s.coreFault i.core stIllegal (s.core i.core).pc) := by
  obtain ⟨⟨h1, h2, h3, hr, hm, _⟩, h5, h6⟩ := h
  have h6' : (s.core i.core).busy (.p i.gp) = false := h6 _ (by simp)
  have h7 : (o.reads ++ o.dests).any (s.core i.core).busy = false := by
    rw [List.any_eq_false]
    intro r hq
    simpa using h6 r (List.mem_cons_of_mem _ hq)
  simp only [present, h1, h2, h3, Bundle.empty, List.contains_nil, Bool.not_true, Bool.or_self, if_false, if_true, Bool.false_eq_true]
  simp only [State.issue, setCore_core, State.modCore, setCore_setCore, Bundle.add, hr, hm, h5, h6', h7, hi, Bool.or_self, Act.none,
    Bool.not_true, Bool.and_false, Bool.true_or, if_true, Bool.false_eq_true, if_false, Bundle.empty]
  have hb := setCore_bundle (s := s) (g := i.core) h2
  simp only [Bundle.empty] at hb
  rw [hb]
  simp

/-- An instruction by itself that the guard turns off only moves the sequencer on. -/
theorem present_off {i : Issue} {o : SlotOp} {act : Core → PReg → Act} (h : Alone i s) (hb : (s.core i.core).busy (.p i.gp) = false)
    (hi : o.illegal = false) (hg : o.guard.executes i (guardMask (s.core i.core) i) = false) : present i o act s = .next (s.issued i.core []) := by
  obtain ⟨h1, h2, h3, hr, hm, h4⟩ := h
  simp only [present, h1, h2, h3, Bundle.empty, List.contains_nil, Bool.not_true, Bool.or_self, if_false, if_true, Bool.false_eq_true]
  simp only [State.issue, setCore_core, State.modCore, setCore_setCore, Bundle.add, hr, hm, hg, hb, hi, Bool.false_or, Bool.or_self, Act.none, Bool.false_and,
    Bool.and_false, Bool.false_eq_true, if_false, Bundle.empty, List.contains_nil, List.any_eq_true, exists_false, and_false, Staged.empty_join, List.nil_append]
  have hb := setCore_bundle (s := s) (g := i.core) h2
  simp only [Bundle.empty] at hb
  rw [hb]
  simp [Staged.vDraw, Staged.empty]
  exact commit_writes rfl rfl h4

/-- R124: an instruction by itself with a register outstanding does not issue. -/
theorem present_busy {i : Issue} {o : SlotOp} {act : Core → PReg → Act} (h : Alone i s) (hg : o.guard.executes i (guardMask (s.core i.core) i) = true)
    {r : Reg} (hr : r ∈ o.reads ++ o.dests) (hb : (s.core i.core).busy r = true) : present i o act s = .next s := by
  obtain ⟨h1, h2, h3, hres, hm, h4⟩ := h
  have h7 : (o.reads ++ o.dests).any (s.core i.core).busy = true := List.any_eq_true.2 ⟨r, hr, hb⟩
  simp only [present, h1, h2, h3, Bundle.empty, List.contains_nil, Bool.not_true, Bool.or_self, if_false, if_true, Bool.false_eq_true]
  simp only [State.issue, setCore_core, State.modCore, setCore_setCore, Bundle.add, hres, hm, hg, h7, Bool.true_and, Bool.or_true, Bool.true_or, if_true]
  exact congrArg _ (setCore_bundle (s := s) (g := i.core) h2)

/-- A core that cannot issue takes nothing. -/
theorem present_ignored {i : Issue} {o : SlotOp} {act : Core → PReg → Act} (h : s.canIssue i.core = false) : present i o act s = .next s := by
  simp [present, h]

/-! The end of a task at a core -/

theorem live_task (h : s.live g = true) : ∃ p k, s.taskOf g = some (p, k) ∧ k.over s.now = false ∧ k.phase = .running := by
  simp only [State.live, Bool.and_eq_true] at h
  obtain ⟨_, h⟩ := h
  split at h
  · rename_i p k hk
    simp only [Bool.and_eq_true, decide_eq_true_eq, Bool.not_eq_true'] at h
    exact ⟨p, k, hk, h.2, h.1⟩
  · cases h

theorem canIssue_live (h : s.canIssue g = true) : s.live g = true := by
  simp only [State.canIssue, State.acts, Bool.and_eq_true] at h
  exact h.1.1

theorem taskOf_some {p : Fin 8} {k : Task} (h : s.taskOf g = some (p, k)) : s.partOfCore g = some p ∧ s.parts[p].task = some k := by
  simp only [State.taskOf, Option.bind_eq_some_iff, Option.map_eq_some_iff, Prod.mk.injEq] at h
  obtain ⟨q, h1, t, h2, rfl, rfl⟩ := h
  exact ⟨h1, h2⟩

/-- R111: an end that is detected decides against the one that the task may have. -/
theorem endTask_decides {p : Fin 8} {k : Task} (e : Ending) (h : s.parts[p].task = some k) :
    (s.endTask p e).parts[p].task = some { k with ending := some (e.decides k.ending) } := by
  simp only [Fin.getElem_fin] at h
  simp only [State.endTask, State.modTask, State.modPart, Fin.getElem_fin, Vector.getElem_set_self, h, Option.map_some]
  cases he : k.ending with
  | none => rfl
  | some y =>
    simp only [Ending.decides]
    split
    · rfl
    · rw [← he]

/-- A fault of a live core is its task's end and the core's own fault; nothing else changes. -/
theorem coreFault_ends (st : Status) (b : BitVec 13) (q d : Nat) (h : s.live g = true) : TaskEndsAt s (s.coreFault g st b q d) g st b := by
  obtain ⟨p, k, hk, -, -⟩ := live_task h
  obtain ⟨hp, ht⟩ := taskOf_some hk
  have hp' : ∀ f, (s.modCore g f).partOfCore g = some p := fun _ => hp
  have hc : ∀ f e, ((s.modCore g f).endTask p e).core g = f (s.core g) := fun f _ => setCore_core s g (f (s.core g))
  simp only [State.coreFault, hp', hk]
  refine ⟨⟨p, k, s.coreEnding g st (some b) q d, hk, ?_, rfl, rfl, rfl, rfl⟩, ?_, ?_, ?_, rfl, rfl, rfl, rfl, rfl⟩
  rotate_left
  · intro h0
    rw [hc]
    simp [h0]
  · rw [hc]
    split <;> rfl
  · intro j hj
    have : g.val ≠ j.val := fun h => hj (Fin.ext h.symm)
    simp [State.core, State.endTask, State.modTask, State.modPart, State.modCore, State.setCore, this]
  · exact endTask_decides _ ht

end Sys2Proof.Machine
end

