-- ==== Sys2Proof/Laws/State.lean ====
section
/-! SUPPORT. What each shared update leaves of the state: one lemma per field, so that no proof unfolds a record update. -/

namespace Sys2Proof.Machine

variable {s : State}

/-! setCore -/

@[simp] theorem setCore_pending (s : State) (g : Fin 512) (c : Core) : (s.setCore g c).pending = s.pending := rfl
@[simp] theorem setCore_now (s : State) (g : Fin 512) (c : Core) : (s.setCore g c).now = s.now := rfl
@[simp] theorem setCore_freeCtr (s : State) (g : Fin 512) (c : Core) : (s.setCore g c).freeCtr = s.freeCtr := rfl
@[simp] theorem setCore_reply (s : State) (g : Fin 512) (c : Core) : (s.setCore g c).reply = s.reply := rfl
@[simp] theorem setCore_hearths (s : State) (g : Fin 512) (c : Core) : (s.setCore g c).hearths = s.hearths := rfl
@[simp] theorem setCore_tokens (s : State) (g : Fin 512) (c : Core) : (s.setCore g c).tokens = s.tokens := rfl
@[simp] theorem setCore_glb (s : State) (g : Fin 512) (c : Core) : (s.setCore g c).glb = s.glb := rfl
@[simp] theorem setCore_parts (s : State) (g : Fin 512) (c : Core) : (s.setCore g c).parts = s.parts := rfl
@[simp] theorem setCore_mem (s : State) (g : Fin 512) (c : Core) : (s.setCore g c).mem = s.mem := rfl
@[simp] theorem setCore_fab (s : State) (g : Fin 512) (c : Core) : (s.setCore g c).fab = s.fab := rfl
@[simp] theorem setCore_sec (s : State) (g : Fin 512) (c : Core) : (s.setCore g c).sec = s.sec := rfl
@[simp] theorem setCore_media (s : State) (g : Fin 512) (c : Core) : (s.setCore g c).media = s.media := rfl
@[simp] theorem setCore_larcy (s : State) (g : Fin 512) (c : Core) : (s.setCore g c).larcy = s.larcy := rfl
@[simp] theorem setCore_chk (s : State) (g : Fin 512) (c : Core) : (s.setCore g c).chk = s.chk := rfl
@[simp] theorem setCore_snoop (s : State) (g : Fin 512) (c : Core) : (s.setCore g c).snoop = s.snoop := rfl
@[simp] theorem setCore_pwr (s : State) (g : Fin 512) (c : Core) : (s.setCore g c).pwr = s.pwr := rfl


/-! modCore -/

@[simp] theorem modCore_pending (s : State) (g : Fin 512) (f : Core → Core) : (s.modCore g f).pending = s.pending := rfl
@[simp] theorem modCore_now (s : State) (g : Fin 512) (f : Core → Core) : (s.modCore g f).now = s.now := rfl
@[simp] theorem modCore_freeCtr (s : State) (g : Fin 512) (f : Core → Core) : (s.modCore g f).freeCtr = s.freeCtr := rfl
@[simp] theorem modCore_reply (s : State) (g : Fin 512) (f : Core → Core) : (s.modCore g f).reply = s.reply := rfl
@[simp] theorem modCore_hearths (s : State) (g : Fin 512) (f : Core → Core) : (s.modCore g f).hearths = s.hearths := rfl
@[simp] theorem modCore_tokens (s : State) (g : Fin 512) (f : Core → Core) : (s.modCore g f).tokens = s.tokens := rfl
@[simp] theorem modCore_glb (s : State) (g : Fin 512) (f : Core → Core) : (s.modCore g f).glb = s.glb := rfl
@[simp] theorem modCore_parts (s : State) (g : Fin 512) (f : Core → Core) : (s.modCore g f).parts = s.parts := rfl
@[simp] theorem modCore_mem (s : State) (g : Fin 512) (f : Core → Core) : (s.modCore g f).mem = s.mem := rfl
@[simp] theorem modCore_fab (s : State) (g : Fin 512) (f : Core → Core) : (s.modCore g f).fab = s.fab := rfl
@[simp] theorem modCore_sec (s : State) (g : Fin 512) (f : Core → Core) : (s.modCore g f).sec = s.sec := rfl
@[simp] theorem modCore_media (s : State) (g : Fin 512) (f : Core → Core) : (s.modCore g f).media = s.media := rfl
@[simp] theorem modCore_larcy (s : State) (g : Fin 512) (f : Core → Core) : (s.modCore g f).larcy = s.larcy := rfl
@[simp] theorem modCore_chk (s : State) (g : Fin 512) (f : Core → Core) : (s.modCore g f).chk = s.chk := rfl
@[simp] theorem modCore_snoop (s : State) (g : Fin 512) (f : Core → Core) : (s.modCore g f).snoop = s.snoop := rfl
@[simp] theorem modCore_pwr (s : State) (g : Fin 512) (f : Core → Core) : (s.modCore g f).pwr = s.pwr := rfl


/-! modHearth -/

@[simp] theorem modHearth_pending (s : State) (h : Fin 8) (f : Hearth → Hearth) : (s.modHearth h f).pending = s.pending := rfl
@[simp] theorem modHearth_now (s : State) (h : Fin 8) (f : Hearth → Hearth) : (s.modHearth h f).now = s.now := rfl
@[simp] theorem modHearth_freeCtr (s : State) (h : Fin 8) (f : Hearth → Hearth) : (s.modHearth h f).freeCtr = s.freeCtr := rfl
@[simp] theorem modHearth_reply (s : State) (h : Fin 8) (f : Hearth → Hearth) : (s.modHearth h f).reply = s.reply := rfl
@[simp] theorem modHearth_cores (s : State) (h : Fin 8) (f : Hearth → Hearth) : (s.modHearth h f).cores = s.cores := rfl
@[simp] theorem modHearth_tokens (s : State) (h : Fin 8) (f : Hearth → Hearth) : (s.modHearth h f).tokens = s.tokens := rfl
@[simp] theorem modHearth_glb (s : State) (h : Fin 8) (f : Hearth → Hearth) : (s.modHearth h f).glb = s.glb := rfl
@[simp] theorem modHearth_parts (s : State) (h : Fin 8) (f : Hearth → Hearth) : (s.modHearth h f).parts = s.parts := rfl
@[simp] theorem modHearth_mem (s : State) (h : Fin 8) (f : Hearth → Hearth) : (s.modHearth h f).mem = s.mem := rfl
@[simp] theorem modHearth_fab (s : State) (h : Fin 8) (f : Hearth → Hearth) : (s.modHearth h f).fab = s.fab := rfl
@[simp] theorem modHearth_sec (s : State) (h : Fin 8) (f : Hearth → Hearth) : (s.modHearth h f).sec = s.sec := rfl
@[simp] theorem modHearth_media (s : State) (h : Fin 8) (f : Hearth → Hearth) : (s.modHearth h f).media = s.media := rfl
@[simp] theorem modHearth_larcy (s : State) (h : Fin 8) (f : Hearth → Hearth) : (s.modHearth h f).larcy = s.larcy := rfl
@[simp] theorem modHearth_chk (s : State) (h : Fin 8) (f : Hearth → Hearth) : (s.modHearth h f).chk = s.chk := rfl
@[simp] theorem modHearth_snoop (s : State) (h : Fin 8) (f : Hearth → Hearth) : (s.modHearth h f).snoop = s.snoop := rfl
@[simp] theorem modHearth_pwr (s : State) (h : Fin 8) (f : Hearth → Hearth) : (s.modHearth h f).pwr = s.pwr := rfl

@[simp] theorem modHearth_core (s : State) (h : Fin 8) (f : Hearth → Hearth) (j : Fin 512) : (s.modHearth h f).core j = s.core j := rfl

/-! modPart -/

@[simp] theorem modPart_pending (s : State) (p : Fin 8) (f : Part → Part) : (s.modPart p f).pending = s.pending := rfl
@[simp] theorem modPart_now (s : State) (p : Fin 8) (f : Part → Part) : (s.modPart p f).now = s.now := rfl
@[simp] theorem modPart_freeCtr (s : State) (p : Fin 8) (f : Part → Part) : (s.modPart p f).freeCtr = s.freeCtr := rfl
@[simp] theorem modPart_reply (s : State) (p : Fin 8) (f : Part → Part) : (s.modPart p f).reply = s.reply := rfl
@[simp] theorem modPart_cores (s : State) (p : Fin 8) (f : Part → Part) : (s.modPart p f).cores = s.cores := rfl
@[simp] theorem modPart_hearths (s : State) (p : Fin 8) (f : Part → Part) : (s.modPart p f).hearths = s.hearths := rfl
@[simp] theorem modPart_tokens (s : State) (p : Fin 8) (f : Part → Part) : (s.modPart p f).tokens = s.tokens := rfl
@[simp] theorem modPart_glb (s : State) (p : Fin 8) (f : Part → Part) : (s.modPart p f).glb = s.glb := rfl
@[simp] theorem modPart_mem (s : State) (p : Fin 8) (f : Part → Part) : (s.modPart p f).mem = s.mem := rfl
@[simp] theorem modPart_fab (s : State) (p : Fin 8) (f : Part → Part) : (s.modPart p f).fab = s.fab := rfl
@[simp] theorem modPart_sec (s : State) (p : Fin 8) (f : Part → Part) : (s.modPart p f).sec = s.sec := rfl
@[simp] theorem modPart_media (s : State) (p : Fin 8) (f : Part → Part) : (s.modPart p f).media = s.media := rfl
@[simp] theorem modPart_larcy (s : State) (p : Fin 8) (f : Part → Part) : (s.modPart p f).larcy = s.larcy := rfl
@[simp] theorem modPart_chk (s : State) (p : Fin 8) (f : Part → Part) : (s.modPart p f).chk = s.chk := rfl
@[simp] theorem modPart_snoop (s : State) (p : Fin 8) (f : Part → Part) : (s.modPart p f).snoop = s.snoop := rfl
@[simp] theorem modPart_pwr (s : State) (p : Fin 8) (f : Part → Part) : (s.modPart p f).pwr = s.pwr := rfl

@[simp] theorem modPart_core (s : State) (p : Fin 8) (f : Part → Part) (j : Fin 512) : (s.modPart p f).core j = s.core j := rfl

/-! modTask -/

@[simp] theorem modTask_pending (s : State) (p : Fin 8) (f : Task → Task) : (s.modTask p f).pending = s.pending := rfl
@[simp] theorem modTask_now (s : State) (p : Fin 8) (f : Task → Task) : (s.modTask p f).now = s.now := rfl
@[simp] theorem modTask_freeCtr (s : State) (p : Fin 8) (f : Task → Task) : (s.modTask p f).freeCtr = s.freeCtr := rfl
@[simp] theorem modTask_reply (s : State) (p : Fin 8) (f : Task → Task) : (s.modTask p f).reply = s.reply := rfl
@[simp] theorem modTask_cores (s : State) (p : Fin 8) (f : Task → Task) : (s.modTask p f).cores = s.cores := rfl
@[simp] theorem modTask_hearths (s : State) (p : Fin 8) (f : Task → Task) : (s.modTask p f).hearths = s.hearths := rfl
@[simp] theorem modTask_tokens (s : State) (p : Fin 8) (f : Task → Task) : (s.modTask p f).tokens = s.tokens := rfl
@[simp] theorem modTask_glb (s : State) (p : Fin 8) (f : Task → Task) : (s.modTask p f).glb = s.glb := rfl
@[simp] theorem modTask_mem (s : State) (p : Fin 8) (f : Task → Task) : (s.modTask p f).mem = s.mem := rfl
@[simp] theorem modTask_fab (s : State) (p : Fin 8) (f : Task → Task) : (s.modTask p f).fab = s.fab := rfl
@[simp] theorem modTask_sec (s : State) (p : Fin 8) (f : Task → Task) : (s.modTask p f).sec = s.sec := rfl
@[simp] theorem modTask_media (s : State) (p : Fin 8) (f : Task → Task) : (s.modTask p f).media = s.media := rfl
@[simp] theorem modTask_larcy (s : State) (p : Fin 8) (f : Task → Task) : (s.modTask p f).larcy = s.larcy := rfl
@[simp] theorem modTask_chk (s : State) (p : Fin 8) (f : Task → Task) : (s.modTask p f).chk = s.chk := rfl
@[simp] theorem modTask_snoop (s : State) (p : Fin 8) (f : Task → Task) : (s.modTask p f).snoop = s.snoop := rfl
@[simp] theorem modTask_pwr (s : State) (p : Fin 8) (f : Task → Task) : (s.modTask p f).pwr = s.pwr := rfl

@[simp] theorem modTask_core (s : State) (p : Fin 8) (f : Task → Task) (j : Fin 512) : (s.modTask p f).core j = s.core j := rfl

/-! modFab -/

@[simp] theorem modFab_pending (s : State) (f : Fabric → Fabric) : (s.modFab f).pending = s.pending := rfl
@[simp] theorem modFab_now (s : State) (f : Fabric → Fabric) : (s.modFab f).now = s.now := rfl
@[simp] theorem modFab_freeCtr (s : State) (f : Fabric → Fabric) : (s.modFab f).freeCtr = s.freeCtr := rfl
@[simp] theorem modFab_reply (s : State) (f : Fabric → Fabric) : (s.modFab f).reply = s.reply := rfl
@[simp] theorem modFab_cores (s : State) (f : Fabric → Fabric) : (s.modFab f).cores = s.cores := rfl
@[simp] theorem modFab_hearths (s : State) (f : Fabric → Fabric) : (s.modFab f).hearths = s.hearths := rfl
@[simp] theorem modFab_tokens (s : State) (f : Fabric → Fabric) : (s.modFab f).tokens = s.tokens := rfl
@[simp] theorem modFab_glb (s : State) (f : Fabric → Fabric) : (s.modFab f).glb = s.glb := rfl
@[simp] theorem modFab_parts (s : State) (f : Fabric → Fabric) : (s.modFab f).parts = s.parts := rfl
@[simp] theorem modFab_mem (s : State) (f : Fabric → Fabric) : (s.modFab f).mem = s.mem := rfl
@[simp] theorem modFab_sec (s : State) (f : Fabric → Fabric) : (s.modFab f).sec = s.sec := rfl
@[simp] theorem modFab_media (s : State) (f : Fabric → Fabric) : (s.modFab f).media = s.media := rfl
@[simp] theorem modFab_larcy (s : State) (f : Fabric → Fabric) : (s.modFab f).larcy = s.larcy := rfl
@[simp] theorem modFab_chk (s : State) (f : Fabric → Fabric) : (s.modFab f).chk = s.chk := rfl
@[simp] theorem modFab_snoop (s : State) (f : Fabric → Fabric) : (s.modFab f).snoop = s.snoop := rfl
@[simp] theorem modFab_pwr (s : State) (f : Fabric → Fabric) : (s.modFab f).pwr = s.pwr := rfl

@[simp] theorem modFab_core (s : State) (f : Fabric → Fabric) (j : Fin 512) : (s.modFab f).core j = s.core j := rfl

/-! modLarcy -/

@[simp] theorem modLarcy_pending (s : State) (f : Larcy → Larcy) : (s.modLarcy f).pending = s.pending := rfl
@[simp] theorem modLarcy_now (s : State) (f : Larcy → Larcy) : (s.modLarcy f).now = s.now := rfl
@[simp] theorem modLarcy_freeCtr (s : State) (f : Larcy → Larcy) : (s.modLarcy f).freeCtr = s.freeCtr := rfl
@[simp] theorem modLarcy_reply (s : State) (f : Larcy → Larcy) : (s.modLarcy f).reply = s.reply := rfl
@[simp] theorem modLarcy_cores (s : State) (f : Larcy → Larcy) : (s.modLarcy f).cores = s.cores := rfl
@[simp] theorem modLarcy_hearths (s : State) (f : Larcy → Larcy) : (s.modLarcy f).hearths = s.hearths := rfl
@[simp] theorem modLarcy_tokens (s : State) (f : Larcy → Larcy) : (s.modLarcy f).tokens = s.tokens := rfl
@[simp] theorem modLarcy_glb (s : State) (f : Larcy → Larcy) : (s.modLarcy f).glb = s.glb := rfl
@[simp] theorem modLarcy_parts (s : State) (f : Larcy → Larcy) : (s.modLarcy f).parts = s.parts := rfl
@[simp] theorem modLarcy_mem (s : State) (f : Larcy → Larcy) : (s.modLarcy f).mem = s.mem := rfl
@[simp] theorem modLarcy_fab (s : State) (f : Larcy → Larcy) : (s.modLarcy f).fab = s.fab := rfl
@[simp] theorem modLarcy_sec (s : State) (f : Larcy → Larcy) : (s.modLarcy f).sec = s.sec := rfl
@[simp] theorem modLarcy_media (s : State) (f : Larcy → Larcy) : (s.modLarcy f).media = s.media := rfl
@[simp] theorem modLarcy_chk (s : State) (f : Larcy → Larcy) : (s.modLarcy f).chk = s.chk := rfl
@[simp] theorem modLarcy_snoop (s : State) (f : Larcy → Larcy) : (s.modLarcy f).snoop = s.snoop := rfl
@[simp] theorem modLarcy_pwr (s : State) (f : Larcy → Larcy) : (s.modLarcy f).pwr = s.pwr := rfl

@[simp] theorem modLarcy_core (s : State) (f : Larcy → Larcy) (j : Fin 512) : (s.modLarcy f).core j = s.core j := rfl

/-! log -/

@[simp] theorem log_pending (s : State) (e : Event) : (s.log e).pending = s.pending := rfl
@[simp] theorem log_now (s : State) (e : Event) : (s.log e).now = s.now := rfl
@[simp] theorem log_freeCtr (s : State) (e : Event) : (s.log e).freeCtr = s.freeCtr := rfl
@[simp] theorem log_reply (s : State) (e : Event) : (s.log e).reply = s.reply := rfl
@[simp] theorem log_cores (s : State) (e : Event) : (s.log e).cores = s.cores := rfl
@[simp] theorem log_hearths (s : State) (e : Event) : (s.log e).hearths = s.hearths := rfl
@[simp] theorem log_tokens (s : State) (e : Event) : (s.log e).tokens = s.tokens := rfl
@[simp] theorem log_parts (s : State) (e : Event) : (s.log e).parts = s.parts := rfl
@[simp] theorem log_mem (s : State) (e : Event) : (s.log e).mem = s.mem := rfl
@[simp] theorem log_fab (s : State) (e : Event) : (s.log e).fab = s.fab := rfl
@[simp] theorem log_sec (s : State) (e : Event) : (s.log e).sec = s.sec := rfl
@[simp] theorem log_media (s : State) (e : Event) : (s.log e).media = s.media := rfl
@[simp] theorem log_larcy (s : State) (e : Event) : (s.log e).larcy = s.larcy := rfl
@[simp] theorem log_chk (s : State) (e : Event) : (s.log e).chk = s.chk := rfl
@[simp] theorem log_snoop (s : State) (e : Event) : (s.log e).snoop = s.snoop := rfl
@[simp] theorem log_pwr (s : State) (e : Event) : (s.log e).pwr = s.pwr := rfl

@[simp] theorem log_core (s : State) (e : Event) (j : Fin 512) : (s.log e).core j = s.core j := rfl

/-! endTask -/

@[simp] theorem endTask_pending (s : State) (p : Fin 8) (e : Ending) : (s.endTask p e).pending = s.pending := rfl
@[simp] theorem endTask_now (s : State) (p : Fin 8) (e : Ending) : (s.endTask p e).now = s.now := rfl
@[simp] theorem endTask_freeCtr (s : State) (p : Fin 8) (e : Ending) : (s.endTask p e).freeCtr = s.freeCtr := rfl
@[simp] theorem endTask_reply (s : State) (p : Fin 8) (e : Ending) : (s.endTask p e).reply = s.reply := rfl
@[simp] theorem endTask_cores (s : State) (p : Fin 8) (e : Ending) : (s.endTask p e).cores = s.cores := rfl
@[simp] theorem endTask_hearths (s : State) (p : Fin 8) (e : Ending) : (s.endTask p e).hearths = s.hearths := rfl
@[simp] theorem endTask_tokens (s : State) (p : Fin 8) (e : Ending) : (s.endTask p e).tokens = s.tokens := rfl
@[simp] theorem endTask_glb (s : State) (p : Fin 8) (e : Ending) : (s.endTask p e).glb = s.glb := rfl
@[simp] theorem endTask_mem (s : State) (p : Fin 8) (e : Ending) : (s.endTask p e).mem = s.mem := rfl
@[simp] theorem endTask_fab (s : State) (p : Fin 8) (e : Ending) : (s.endTask p e).fab = s.fab := rfl
@[simp] theorem endTask_sec (s : State) (p : Fin 8) (e : Ending) : (s.endTask p e).sec = s.sec := rfl
@[simp] theorem endTask_media (s : State) (p : Fin 8) (e : Ending) : (s.endTask p e).media = s.media := rfl
@[simp] theorem endTask_larcy (s : State) (p : Fin 8) (e : Ending) : (s.endTask p e).larcy = s.larcy := rfl
@[simp] theorem endTask_chk (s : State) (p : Fin 8) (e : Ending) : (s.endTask p e).chk = s.chk := rfl
@[simp] theorem endTask_snoop (s : State) (p : Fin 8) (e : Ending) : (s.endTask p e).snoop = s.snoop := rfl
@[simp] theorem endTask_pwr (s : State) (p : Fin 8) (e : Ending) : (s.endTask p e).pwr = s.pwr := rfl

@[simp] theorem endTask_core (s : State) (p : Fin 8) (e : Ending) (j : Fin 512) : (s.endTask p e).core j = s.core j := rfl

/-! advance -/

@[simp] theorem advance_cores (s : State) (n : Nat) : (s.advance n).cores = s.cores := by unfold State.advance; split <;> rfl
@[simp] theorem advance_core (s : State) (n : Nat) (j : Fin 512) : (s.advance n).core j = s.core j := by unfold State.advance; split <;> rfl
@[simp] theorem advance_now (s : State) (n : Nat) : (s.advance n).now = s.now + n := by unfold State.advance; split <;> rfl
@[simp] theorem advance_pending (s : State) (n : Nat) : (s.advance n).pending = s.pending := by unfold State.advance; split <;> rfl
@[simp] theorem advance_freeCtr (s : State) (n : Nat) : (s.advance n).freeCtr = s.freeCtr := by unfold State.advance; split <;> rfl
@[simp] theorem advance_reply (s : State) (n : Nat) : (s.advance n).reply = s.reply := by unfold State.advance; split <;> rfl
@[simp] theorem advance_tokens (s : State) (n : Nat) : (s.advance n).tokens = s.tokens := by unfold State.advance; split <;> rfl
@[simp] theorem advance_mem (s : State) (n : Nat) : (s.advance n).mem = s.mem := by unfold State.advance; split <;> rfl
@[simp] theorem advance_fab (s : State) (n : Nat) : (s.advance n).fab = s.fab := by unfold State.advance; split <;> rfl
@[simp] theorem advance_sec (s : State) (n : Nat) : (s.advance n).sec = s.sec := by unfold State.advance; split <;> rfl
@[simp] theorem advance_media (s : State) (n : Nat) : (s.advance n).media = s.media := by unfold State.advance; split <;> rfl
@[simp] theorem advance_larcy (s : State) (n : Nat) : (s.advance n).larcy = s.larcy := by unfold State.advance; split <;> rfl
@[simp] theorem advance_chk (s : State) (n : Nat) : (s.advance n).chk = s.chk := by unfold State.advance; split <;> rfl
@[simp] theorem advance_snoop (s : State) (n : Nat) : (s.advance n).snoop = s.snoop := by unfold State.advance; split <;> rfl
@[simp] theorem advance_pwr (s : State) (n : Nat) : (s.advance n).pwr = s.pwr := by unfold State.advance; split <;> rfl
@[simp] theorem reach_cores (s : State) (t : Nat) : (s.reach t).cores = s.cores := advance_cores s _
@[simp] theorem reach_freeCtr (s : State) (t : Nat) : (s.reach t).freeCtr = s.freeCtr := advance_freeCtr s _
@[simp] theorem reach_pending (s : State) (t : Nat) : (s.reach t).pending = s.pending := advance_pending s _
@[simp] theorem reach_reply (s : State) (t : Nat) : (s.reach t).reply = s.reply := advance_reply s _
@[simp] theorem reach_tokens (s : State) (t : Nat) : (s.reach t).tokens = s.tokens := advance_tokens s _
@[simp] theorem reach_mem (s : State) (t : Nat) : (s.reach t).mem = s.mem := advance_mem s _
@[simp] theorem reach_fab (s : State) (t : Nat) : (s.reach t).fab = s.fab := advance_fab s _
@[simp] theorem reach_sec (s : State) (t : Nat) : (s.reach t).sec = s.sec := advance_sec s _
@[simp] theorem reach_media (s : State) (t : Nat) : (s.reach t).media = s.media := advance_media s _
@[simp] theorem reach_larcy (s : State) (t : Nat) : (s.reach t).larcy = s.larcy := advance_larcy s _
@[simp] theorem reach_chk (s : State) (t : Nat) : (s.reach t).chk = s.chk := advance_chk s _
@[simp] theorem reach_snoop (s : State) (t : Nat) : (s.reach t).snoop = s.snoop := advance_snoop s _
@[simp] theorem reach_pwr (s : State) (t : Nat) : (s.reach t).pwr = s.pwr := advance_pwr s _
@[simp] theorem reach_core (s : State) (t : Nat) (j : Fin 512) : (s.reach t).core j = s.core j := advance_core s _ j
/-- A dated command leaves the clock at its moment, or where it stood. -/
@[simp] theorem reach_now (s : State) (t : Nat) : (s.reach t).now = max s.now t := by
  rw [State.reach, advance_now]; omega

/-! Reads after an update -/

theorem setCore_core_ne {g j : Fin 512} {c : Core} (h : j ≠ g) : (s.setCore g c).core j = s.core j := by
  simp [State.setCore, State.core, Fin.val_inj, Ne.symm h]
@[simp] theorem modCore_core_same (s : State) (g : Fin 512) (f : Core → Core) : (s.modCore g f).core g = f (s.core g) := setCore_core _ _ _
theorem modCore_core_ne {g j : Fin 512} {f : Core → Core} (h : j ≠ g) : (s.modCore g f).core j = s.core j := setCore_core_ne h
@[simp] theorem modHearth_same (s : State) (h : Fin 8) (f : Hearth → Hearth) : (s.modHearth h f).hearths[h] = f s.hearths[h] := by simp [State.modHearth]
theorem modHearth_ne {h j : Fin 8} {f : Hearth → Hearth} (hj : j ≠ h) : (s.modHearth h f).hearths[j] = s.hearths[j] := by
  simp [State.modHearth, Fin.val_inj, Ne.symm hj]
@[simp] theorem modPart_same (s : State) (p : Fin 8) (f : Part → Part) : (s.modPart p f).parts[p] = f s.parts[p] := by simp [State.modPart]
theorem modPart_ne {p j : Fin 8} {f : Part → Part} (hj : j ≠ p) : (s.modPart p f).parts[j] = s.parts[j] := by
  simp [State.modPart, Fin.val_inj, Ne.symm hj]

/-- An update of distinct cores, one by one, is the update of each of them. -/
theorem modCores_core (f : Fin 512 → Core → Core) : ∀ (gs : List (Fin 512)) (s : State) (j : Fin 512), gs.Nodup →
    (s.modCores gs f).core j = if j ∈ gs then f j (s.core j) else s.core j
  | [], s, j, _ => by simp [State.modCores]
  | g :: gs, s, j, hn => by
    have h := modCores_core f gs (s.modCore g (f g)) j (List.nodup_cons.1 hn).2
    simp only [State.modCores, List.foldl_cons] at h ⊢
    rw [h]
    by_cases hj : j = g
    · subst hj; simp [(List.nodup_cons.1 hn).1]
    · simp [hj, modCore_core_ne hj]

/-- Only cores change. -/
theorem modCores_rest (f : Fin 512 → Core → Core) : ∀ (gs : List (Fin 512)) (s : State), s.modCores gs f = { s with cores := (s.modCores gs f).cores }
  | [], _ => rfl
  | g :: gs, s => by
    have h := modCores_rest f gs (s.modCore g (f g))
    simp only [State.modCores, List.foldl_cons] at h ⊢
    rw [h]
    rfl

theorem members_nodup (s : State) (p : Fin 8) : (s.members p).Nodup := (List.nodup_finRange 512).filter _
theorem participants_nodup (s : State) (p : Fin 8) (cls : Nat) (h : Fin 8) : (s.participants p cls h).Nodup := (members_nodup s p).filter _

end Sys2Proof.Machine
end

