-- ==== Sys2Proof/Machine/FrameFmt.lean ====
section
/-! DEFINITION. A frame on the line: its bytes as they are sent, and what the bytes of a received frame hold for the commands that receive it (R341, R342, R345, R346, R351, R352, R479, R480; logs 15, 17). -/

namespace Sys2Proof.Machine

/-- A number's bytes, most significant first (R342, R351). -/
def toBE (n k : Nat) : List Byte := (toLE n k).reverse

/-- R342: the MAC address of a link of a module. -/
def macOf (pre id : BitVec 16) (l : Fin 128) : List Byte := toBE pre.toNat 2 ++ toBE id.toNat 2 ++ [0, BitVec.ofNat 8 l.val]

/-- R346, log 17: DST_ADDR as it is sent: a SIGNAL's sender epoch stands above its count. -/
def TxPkt.addrField (k : TxPkt) : Nat := if k.type = 3 then k.dstAddr.toNat % 256 + k.epoch.toNat * 256 else k.dstAddr.toNat

/-- R346: the 32 bytes of the transport header. -/
def SentFrame.header (f : SentFrame) : List Byte :=
  let k := f.pkt
  toLE (k.type.toNat + 16 * f.ver.toNat) 1 ++ toLE (k.vc.toNat + 8 * k.last.toNat) 1 ++ toLE k.payload.length 2
  ++ toLE f.srcMod.toNat 2 ++ toLE f.peer.toNat 2 ++ toLE k.ctr 4 ++ toLE f.ackPsn.toNat 4 ++ toLE k.addrField 6
  ++ toLE (k.dstCore.toNat + 512 * k.dstSpace.toNat) 2 ++ toLE (k.tokenId.toNat + 64 * k.tokenCore.toNat + 2 ^ 15 * k.tv.toNat) 2
  ++ toLE (k.srcCore.toNat + 512 * k.msgId.toNat) 2 ++ toLE k.jobTag.toNat 2 ++ toLE k.pktIndex.toNat 2

/-- R351: the 96-bit IV of a packet: the salt's four bytes, then the counter, most significant byte first. -/
def frameIv (salt : BitVec 32) (ctr : Nat) : List Byte := toLE salt.toNat 4 ++ toBE ctr 8

/-- R345, R351: the ciphertext and the tag; a SETUP message goes in clear (R350), with a tag of zeros (PRESUMED, log 65). -/
def SentFrame.sealed (f : SentFrame) : List Byte :=
  match f.key with
  | some (key, salt) => Config.gcmSeal key (frameIv salt f.pkt.ctr) f.header f.pkt.payload
  | none => f.pkt.payload ++ List.replicate 16 0

/-- R352, R490: the CRC-32C over the counter as a fold word, the header, the ciphertext and the tag. -/
def frameCrc (ctr : Nat) (bs : List Byte) : List Byte := toLE (crcFolded 0 (BitVec.ofNat 64 ctr) bs).toNat 4

/-- The Ethernet FCS of a frame's bytes: CRC-32 with the parameters of R489 (PRESUMED from Ethernet, log 65). -/
def frameFcs (bs : List Byte) : List Byte := toLE (crcResult 1 (crcBytes 1 (crcInit 1) bs)).toNat 4

/-- R343, R345: the bytes of a frame, in the order in which they are sent. -/
def SentFrame.bytes (f : SentFrame) : List Byte :=
  let body := macOf f.macPrefix f.peer (linkOf f.far f.link.val) ++ macOf f.macPrefix f.srcMod f.link ++ toBE f.etherType.toNat 2
    ++ f.header ++ f.sealed ++ frameCrc f.pkt.ctr (f.header ++ f.sealed)
  body ++ frameFcs body

/-! Receiving -/

/-- A number whose bytes stand most significant first. -/
def beAt (bs : List Byte) (lo n : Nat) : Nat := leNat ((bs.drop lo).take n).reverse

/-- R351: the 64-bit counter of a packet of a pair: the value nearest the one expected. -/
def LinkPair.counter (p : LinkPair) (type low : Nat) : Nat :=
  if type = 4 ∨ type = 5 then nearest (2 ^ 63 + p.rxAckSeq) low else nearest p.rxNext low

/-- R350, R479: whether a clear payload with a tag of zeros is a SETUP message's. -/
def setupClear (type : Nat) (ct tag : List Byte) : Bool :=
  decide (type = 6) && decide (0x10 ≤ leAt ct 0 1) && decide (leAt ct 0 1 ≤ 0x13) && tag.all fun b => decide (b = 0)

/-- R341, R345, R346, R351, R352: what a receiver finds in the bytes of a frame on a link; `none` where they are too short for a frame, or no frame's length fits LEN. The sender's epoch of a WRITE or REDUCE is no field of R346 (log 17) and is given. -/
def State.frameIn (s : State) (l : Fin 128) (epoch : BitVec 16) (bs : List Byte) : Option Frame :=
  let h := (bs.drop 14).take 32
  let n := leAt h 2 2 % 8192
  if bs.length < 70 ∨ bs.length ≠ 70 + n then none
  else
    let type := leAt h 0 1 % 16
    let ct := (bs.drop 46).take n
    let tag := (bs.drop (46 + n)).take 16
    let src : Fin 128 := ⟨leAt bs 11 1 % 128, by omega⟩
    let pair := (s.findPair l (BitVec.ofNat 16 (leAt h 4 2)) (linkHearth src)).filter (·.up)
    let ctr := (pair.map fun p => p.counter type (leAt h 8 4)).getD (leAt h 8 4)
    let opened := pair.bind fun p => Config.gcmOpen p.rxKey (frameIv p.rxSalt ctr) h (ct ++ tag)
    let signal := decide (type = 3)
    some
      { srcLink := src
        dstMac := BitVec.ofNat 48 (beAt bs 0 6)
        etherType := BitVec.ofNat 16 (beAt bs 12 2)
        -- PRESUMED: the tag types of Ethernet (log 65).
        tagged := decide (beAt bs 12 2 = 0x8100) || decide (beAt bs 12 2 = 0x88A8)
        fcsOk := decide (bs.drop (66 + n) = frameFcs (bs.take (66 + n)))
        crcOk := decide ((bs.drop (62 + n)).take 4 = frameCrc ctr (h ++ ct ++ tag))
        tagOk := opened.isSome || setupClear type ct tag
        type := BitVec.ofNat 4 type
        ver := BitVec.ofNat 4 (leAt h 0 1 / 16)
        vc := BitVec.ofNat 3 (leAt h 1 1)
        last := (leAt h 1 1).testBit 3
        srcMod := BitVec.ofNat 16 (leAt h 4 2)
        dstMod := BitVec.ofNat 16 (leAt h 6 2)
        psn := BitVec.ofNat 32 (leAt h 8 4)
        ackPsn := BitVec.ofNat 32 (leAt h 12 4)
        dstAddr := BitVec.ofNat 48 (if signal then leAt h 16 1 else leAt h 16 6)
        dstCore := BitVec.ofNat 9 (leAt h 22 2)
        dstSpace := BitVec.ofNat 3 (leAt h 22 2 / 512)
        tokenId := BitVec.ofNat 6 (leAt h 24 2)
        tokenCore := BitVec.ofNat 9 (leAt h 24 2 / 64)
        tv := (leAt h 24 2).testBit 15
        srcCore := BitVec.ofNat 9 (leAt h 26 2)
        msgId := BitVec.ofNat 7 (leAt h 26 2 / 512)
        jobTag := BitVec.ofNat 16 (leAt h 28 2)
        pktIndex := BitVec.ofNat 16 (leAt h 30 2)
        epoch := if signal then BitVec.ofNat 16 (leAt h 17 2) else epoch
        payload := opened.getD ct }

end Sys2Proof.Machine
end

