-- ==== Sys2Proof/WellFormed.lean ====
section
/-! DEFINITION. Well-formed commands: those that the spec's own bounds on an operand allow. A command outside them names no event of the hardware; its meaning is total all the same. -/

namespace Sys2Proof

/-- R345, R347: a received frame of a packet type, with at most 4,096 bytes of payload. -/
def Frame.wf (type : Nat) (f : Frame) : Bool := decide (f.type.toNat = type) && decide (f.payload.length ≤ 4096)

/-- R350: a received CTRL message of a KIND. -/
def Frame.ctrlWf (kind : Nat) (f : Frame) : Bool := f.wf 6 && decide ((f.payload.headD 0).toNat = kind)

/-- R350, R479 (and log 15: the command carries the whole message, whose packets may be several): a SETUP message of a KIND. -/
def Frame.setupWf (kind : Nat) (f : Frame) : Bool := decide (f.type = 6) && decide ((f.payload.headD 0).toNat = kind)

/-- R71: the header of a run. -/
def BilletRun.wf (r : BilletRun) : Bool :=
  decide (1 ≤ r.elems.length) && decide (r.first.toNat + r.elems.length ≤ 8192)
  && ((decide (r.kind = 1) && (!r.null || decide (r.anchor = 0)))
    || (decide (r.kind = 2) && !r.null && decide (r.anchor = 0) && decide (r.ta = 0) && decide (r.tb = 0)))

/-- R5, R6: an access of 1 to 8 bytes in the 64 MiB of BAR0, whose value fits. -/
def regAccessWf (off size : Nat) (v : BitVec 64) : Bool :=
  [1, 2, 4, 8].contains size && decide (off + size ≤ 0x4000000) && decide (v.toNat < 2 ^ (8 * size))

/-- R329: a host access of 1 to 64 bytes, inside one line. -/
def lineWf (x : BitVec 64) (len : Nat) : Bool := decide (1 ≤ len) && decide (x.toNat % 64 + len ≤ 64)

/-- R441, R464: what a host offers in training. -/
def HostOffer.wf (o : HostOffer) : Bool :=
  decide (1 ≤ o.proto.toNat) && decide (o.proto.toNat ≤ 6) && [1, 2, 4, 8, 16].contains o.width.toNat && decide (1 ≤ o.rate.toNat)

/-- R298: an HBM address of the module. -/
def hbmAddrWf (a : BitVec 48) : Bool := decide (a.toNat < 2 ^ 41)

/-- The well-formed commands. -/
def Instr.wf : Instr → Bool
  | .billetRunArrive _ r => r.wf
  | .writeReceive _ f => f.wf 1
  | .reduceReceive _ f => f.wf 2
  | .signalPacketReceive _ f => f.wf 3
  | .ackReceive _ f => f.wf 4
  | .nakReceive _ f => f.wf 5
  | .rtsReceive _ f => f.ctrlWf 0x01
  | .ctsReceive _ f => f.ctrlWf 0x02
  | .delayReceive _ f => f.ctrlWf 0x04
  | .barrierReceive _ f => f.ctrlWf 0x05
  | .endNoticeReceive _ f => f.ctrlWf 0x06
  | .hello _ f => f.setupWf 0x10
  | .accept _ f => f.setupWf 0x11
  | .finish _ f => f.setupWf 0x12
  | .pair _ f => f.setupWf 0x13
  | .bmapClr _ _ v => v.getLsbD 1
  | .context0Open v => v.getLsbD 31
  | .context0Close v => !v.getLsbD 31
  | .hbmReadReplay _ a _ => hbmAddrWf a
  | .rowRepair e => hbmAddrWf e.addr
  | .hostHdmRead x len => lineWf x len
  | .hostHdmWrite x bs => lineWf x bs.length
  | .hp0LinkUp o => o.wf
  | .fwUpdateGo v => v.getLsbD 0
  | .registerWrite off size v => regAccessWf off size v
  | _ => true

end Sys2Proof
end

