-- ==== Sys2Proof/Tests/Slice0.lean ====
section
/-! SUPPORT. Tests of the model: ill-formed commands that the check refuses, single commands on small states with results taken from the spec, and for each statement of the provers concrete states and operands that meet its hypotheses. -/

namespace Sys2Proof.Tests

open Sys2Proof Sys2Proof.Machine

set_option Elab.async false

/-! States -/

/-- A job of partition 0 with nothing but its number, tag and seed. -/
def job : Job := ⟨7, none, 0, true, 0, 0, 0, [], 5, 0, 0x1234, [], 0, false, false, false, 0, 0, none, 0, 0, none⟩

/-- Its task, running. -/
def task : Task where
  job := job
  phase := .running
  hearths := 8
  started := 0
  coresAt := 0
  balEn := true
  startEpoch := 0
  reserve := false
  codeCores := [0]
  precision := []
  plog := none
  pools := []
  overs := []
  vault := []
  peers := []
  schedDigest := 0
  manifestDigest := 0
  inputDigest := 0
  ordinal := 0
  suspendAt := none
  cancel := false
  ending := none
  tdc := 0
  widened := 0
  reheats := []
  latched := none
  rungAt := []
  throttled := 0
  runInterference := 0
  rounds := 0

/-- The state with core 0 changed. -/
def on0 (s : State) (f : Core → Core) : State := s.modCore 0 f

/-- The module in service at time 1,000, with HP0 up as PCIe 6.0. -/
def up : State :=
  { State.reset with
    now := 1000
    pwr := { Power.reset with phase := .ready, ready := true, lostInput := false }
    sec := { Security.reset with fwOk := true }
    larcy := { Larcy.reset with up := true, proto := 3, width := 16, rate := 3 } }

/-- The same with a task on partition 0 whose cores 0 and 1 run. -/
def run : State :=
  let s := up.modPart 0 fun p => { p with mode := .running, task := some task }
  (s.modCore 0 fun c => { c with member := true, mode := .run }).modCore 1 fun c => { c with member := true, mode := .run }

/-- An instruction of core 0 by itself, unguarded. -/
def at0 : Issue := ⟨0, 0, false, true, false⟩

/-- An instruction of core 0 with its guard inverted: p0 reads all ones, so no lane is enabled. -/
def off0 : Issue := ⟨0, 0, true, true, false⟩

/-- A slot of core 0 that other slots of its bundle follow. -/
def join0 : Issue := ⟨0, 0, false, false, false⟩

/-- The scalar registers of core 0 from s1 on. -/
def regs (xs : List W64) (c : Core) : Core := { c with s := Vector.ofFn fun k : Fin 32 => if k = 0 then 0 else xs.getD (k.val - 1) 0 }

/-- An outstanding write of a register. -/
def wr (r : Reg) (v : RegVal) : RegWrite := ⟨r, v, 0⟩

/-- A fast check that implies well-formedness. -/
def wfB (s : State) : Bool :=
  Memory.wf s.mem.hbm && Memory.wf s.mem.host && Memory.wf s.mem.vault && (s.cores.toList.all fun (c : Core) => Memory.wf c.spad && Memory.wf c.imem)
  && (s.hearths.toList.all fun (h : Hearth) => decide (h.widen.length ≤ 16) && decide (h.lab.length ≤ 512)) && decide (s.glb.evlog.length ≤ 4096)
  && (s.parts.toList.all fun (p : Part) => decide (p.records.length ≤ 64)) && (s.snoop.toList.all fun (p : Snoop) => decide (p.results.length ≤ 64))
  && s.chk.toList.all fun (c : ChkSlot) => decide (c.queue.length ≤ 16)

theorem wf_of_wfB {s : State} (h : wfB s = true) : s.Wf := by
  simp only [wfB, Bool.and_eq_true, List.all_eq_true, decide_eq_true_eq] at h
  obtain ⟨⟨⟨⟨⟨⟨⟨⟨h1, h2⟩, h3⟩, h4⟩, h5⟩, h6⟩, h7⟩, h8⟩, h9⟩ := h
  exact ⟨⟨h1, h2, h3⟩, fun g => h4 _ (by simp), fun g => h5 _ (by simp), h6, fun g => h7 _ (by simp), fun g => h8 _ (by simp), fun g => h9 _ (by simp)⟩

/-- What a command leaves. -/
def after {α : Type} (c : Instr) (s : State) (f : State → α) : Option α := match exec c s with
  | .next t => some (f t)
  | _ => none

/-! Hypotheses of the statements on steps and bundles -/

theorem wit_StepRunsFrontCommand : ({ run with pending := [.hp0Down, .startupBegin] } : State).pending = .hp0Down :: [.startupBegin] := rfl
theorem wit_IdleStepPassesOneClockPeriod : State.reset.pending = [] ∧ run.pending = [] := ⟨rfl, rfl⟩
theorem wit_EveryCommandAnswersANextState : (∃ t, step run = .next t) ∧ ∃ t, exec .hp0Down run = .next t := ⟨⟨_, rfl⟩, ⟨_, rfl⟩⟩
theorem wit_StepKeepsWellFormed : run.Wf ∧ ∃ t, step run = .next t := ⟨wf_of_wfB (by decide +kernel), ⟨_, rfl⟩⟩
theorem wit_GuardedOffInstructionHasNoEffect :
    Alone off0 run ∧ (run.core 0).busy (.p 0) = false ∧ (guardMask (run.core 0) off0).getLsbD 0 = false ∧ guardMask (run.core 0) off0 = 0 := by
  unfold Alone; decide +kernel
theorem wit_InstructionsThatDoNotIssue :
    (∀ r ∈ ([.s 1, .v 2, .td 15] : List Reg), let s := on0 run fun c => { c with inflight := [wr r (.s 0)] }
      Alone at0 s ∧ GuardKind.lane0.executes at0 (guardMask (s.core 0) at0) = true ∧ (s.core 0).busy r = true)
    ∧ up.canIssue 0 = false ∧ run.canIssue 0 = true ∧ join0.close = false ∧ (run.core 0).bundle.used.contains .c = false := by
  unfold Alone; decide +kernel
theorem wit_BundleReadsRegistersAsBefore :
    join0.close = false ∧ Executes .lane0 { join0 with close := true } [.s 3, .s 1, .s 2, .s 3, .v 31] run ∧ Admitted 0 .v vDrawHalf run := by
  unfold Executes Alone Free Admitted; decide +kernel
theorem wit_TwoWritersOfOneRegisterEndTheTask :
    join0.close = false ∧ (31 : Fin 32) ≠ 0 ∧ Executes .lane0 { join0 with close := true } [.s 31, .s 1, .s 2, .v 0] run := by
  unfold Executes Alone Free; decide +kernel
theorem wit_TwoWritersOfOneRegisterEndTheTask_reserved : Alone { { at0 with reserved := true } with reserved := false } run ∧ ∀ r, (run.core 0).busy r = false := by
  refine ⟨by unfold Alone; decide +kernel, fun r => ?_⟩
  have h : (run.core 0).inflight = [] ∧ (run.core 0).mq = [] ∧ (run.core 0).claims = [] := by decide +kernel
  simp [Core.busy, h.1, h.2.1, h.2.2]
/-- A NOP with a reserved bit set, or with a guard, ends the task with ILLEGAL_INSTRUCTION (R119). -/
theorem test_nop_reserved : after (.nop { at0 with reserved := true } .c) run (fun t => (t.core 0).stat.faultStatus) = some 0x0104 := by decide +kernel
theorem test_nop_runs : after (.nop at0 .c) run (fun t => ((t.core 0).pc, (t.core 0).stat.faultStatus)) = some (1, 0) := by decide +kernel
theorem wit_OutstandingWriteTakesEffect (w : RegWrite) : ((on0 run fun c => { c with inflight := [w, wr (.s 1) (.s 0)] }).core 0).inflight = w :: [wr (.s 1) (.s 0)] := rfl
theorem wit_ScalarRegisterResults : Executes .lane0 at0 [.s 1, .s 2, .s 3] run := by
  unfold Executes Alone Free; decide +kernel
theorem wit_ScalarImmediateResults : Executes .lane0 at0 [.s 1, .s 3] run ∧ (0x80000000 : BitVec 32).toInt = -2147483648 ∧ (63 : BitVec 32).toNat % 64 = 63 := by
  unfold Executes Alone Free; decide +kernel
theorem wit_ScalarComparisonConditions : let s := on0 run (regs [5, 6])
    Executes .lane0 at0 [.s 1, .s 2, .p 7] s ∧ (5 : BitVec 4).toNat < 6 ∧ 6 ≤ (6 : BitVec 4).toNat
    ∧ CondHolds 0 5 5 ∧ ¬CondHolds 0 5 6 ∧ CondHolds 1 5 6 ∧ CondHolds 2 (-1) 0 ∧ ¬CondHolds 3 (-1) 0 ∧ ¬CondHolds 4 (-1) 0 ∧ CondHolds 5 (-1) 0 := by
  unfold Executes Alone Free CondHolds; decide +kernel
theorem wit_BranchesMoveTheSequencer :
    (let s := on0 run (regs [1, 8191]); Executes .lane0 at0 [.s 31, .s 1] s ∧ (8191 : BitVec 13) ≤ s.lastBundle 0 ∧ (s.core 0).getS 1 = 1 ∧ (s.core 0).getS 2 ≠ 1
      ∧ (((s.core 0).getS 2).setWidth 13 : BitVec 13) ≤ s.lastBundle 0)
    ∧ let s := on0 (run.modTask 0 fun t => { t with reserve := true }) (regs [1]); Executes .lane0 at0 [.s 31, .s 1] s ∧ s.lastBundle 0 < 8128 := by
  unfold Executes Alone Free; decide +kernel
theorem wit_ScalarLoadAndStore : let s := on0 run (regs [0x3FFFF8, 0x400000, 4])
    Executes .lane0 at0 [.s 1, .s 4] s ∧ s.Wf ∧ (s.core 0).badParity = []
    ∧ (∀ x ∈ ([(1, 0), (1, 1), (2, 0), (3, 0)] : List (Fin 32 × Int)), let a := ((s.core 0).getS x.1 + BitVec.ofInt 64 x.2).toNat; (a % 8 = 0 ∧ a ≤ 0x3FFFF8) ↔ x = (1, 0)) :=
  ⟨by unfold Executes Alone Free; decide +kernel, wf_of_wfB (by decide +kernel), by decide +kernel, by decide +kernel⟩
theorem wit_SystemValues_EmberUsesTheJobSeed :
    Executes .lane0 at0 [.s 1, .s 2, .s 3] run ∧ Executes .lane0 at0 [.s 3] run ∧ run.taskOf 0 = some (0, task) ∧ (5 : BitVec 32) ∉ ([0, 1, 2, 3, 4, 8] : List (BitVec 32)) := by
  unfold Executes Alone Free; decide +kernel

/-! Hypotheses of the statements on the V, M and D slots -/

/-- A descriptor of a MAT in the scratchpad: format, base, one row tile by one reduction tile, scale 1, accumulator slots 0 and 1. -/
def mat (fmt base : Nat) : Desc :=
  BitVec.ofNat 512 (fmt + 3 * 2 ^ 25 + base * 2 ^ 64 + 2 ^ 112 + 2 ^ 128 + 2 ^ 160 + 0x3F800000 * 2 ^ 224 + 2 ^ 288 + 2 ^ 352)

/-- The same in module space. -/
def matHbm (fmt base : Nat) : Desc := mat fmt base - BitVec.ofNat 512 (2 ^ 112)

/-- Descriptors loaded. -/
def tds (xs : List (Option Desc)) (c : Core) : Core := { c with td := Vector.ofFn fun k : Fin 16 => xs.getD k.val none }

/-- Bytes in the scratchpad. -/
def spad (a : Nat) (bs : List Byte) (c : Core) : Core := { c with spad := writeBytes c.spad a bs }

/-- An M-queue entry that has not started. -/
def entry (op : MOp) : MEntry := ⟨op, 0, 0, [], [], false, false, []⟩

/-- An MXA over two tiles whose headers are in the scratchpad, with EMAX of no value in its register: a null-anchored group. -/
def mxaNull : MOp := .mxa (mat 7 0) (mat 7 0x1000) (mat 7 0) none true 0x80008000

theorem wit_VectorLanes :
    Executes .perLane at0 [.v 1, .v 2, .v 3, .v 31] run ∧ Executes .perLane at0 [.v 1, .v 2, .p 1, .p 2, .p 7] run ∧ Admitted 0 .v 6 run
    ∧ (5 : BitVec 4) ∉ ([0, 1, 2, 3, 4, 8, 9, 10, 11] : List (BitVec 4)) := by
  unfold Executes Alone Free Admitted; decide +kernel
theorem wit_VectorMovesAndReduction :
    Admitted 0 .v 6 run ∧ Executes .perLane at0 [.v 1, .v 2, .s 3, .v 31] run ∧ Executes .lane0 at0 [.v 1, .s 31, .v 31] run ∧ Executes .combine at0 [.v 1, .v 31] run ∧ (2 : BitVec 2) ≠ 3 := by
  unfold Executes Alone Free Admitted; decide +kernel
/-- VCVT operands. -/
def cvt (sf df : BitVec 4) : VcvtOp := ⟨0, 30, sf, df, 0, 1, 2⟩
theorem wit_VectorConversionsAndFunctions :
    (∀ c ∈ [cvt 0 1, cvt 0 2, cvt 1 0, cvt 2 0, cvt 0 3, cvt 0 9, cvt 3 0, cvt 9 0],
      Executes .perLane at0 [.v c.va, .s c.rt, .s c.ri, .v c.vd] run ∧ Free at0 [.v (c.vd + 1), .v (c.va + 1)] run ∧ convReserved c.conv = false ∧ convRnd c.conv ≠ .sr ∧ guarded at0 = false ∧ c.vd ≠ 31 ∧ c.va ≠ 31)
    ∧ run.taskOf 0 = some (0, task) ∧ cvtIllegal at0 (cvt 1 1) = true ∧ cvtIllegal at0 (cvt 0 9) = false ∧ (∃ v : BitVec 4, convRnd v = .sr ∧ convReserved v = false) ∧ Admitted 0 .v 6 run ∧ Admitted 0 .v 2 run ∧ (run.core 0).sfuFreeAt ≤ run.now ∧ (11 : BitVec 4).toNat ≤ 11 ∧ (2 : BitVec 2) ≠ 3 ∧ 11 < (12 : BitVec 4).toNat := by
  unfold Executes Alone Free Admitted; decide +kernel
theorem wit_VectorLoadAndStore : let s := on0 run (regs [0x3FFC00, 0x3FFC40, 32])
    s.Wf ∧ Executes .lane0 at0 [.s 1, .v 31] s ∧ Executes .perLane at0 [.s 1, .v 31] s ∧ (s.core 0).badParity = [] ∧ ((s.core 0).getS 1).toNat % 64 = 0 ∧ ((s.core 0).getS 1).toNat ≤ 0x3FFC00
    ∧ 0x3FFC00 < ((s.core 0).getS 2).toNat ∧ ((s.core 0).getS 3).toNat % 64 ≠ 0 :=
  ⟨wf_of_wfB (by decide +kernel), by unfold Executes Alone Free; decide +kernel, by unfold Executes Alone Free; decide +kernel, by decide +kernel⟩
/-- Fields of BRND, SPARK, ATTN and NORM that are legal, by the field that decides. -/
def bOp (slot : BitVec 3) (epiF : BitVec 4) : BrndOp := ⟨slot, 3, 0, false, false, false, true, epiF, false, 1, 2⟩
def kOp (slot : BitVec 3) : SparkOp := ⟨0, 1, 2, false, 1, slot, 3, 4, 7⟩
def aOp : AttnOp := ⟨0, 1, 3, 1, 2, true, true, false, 5⟩
def nOp (kind : BitVec 2) : NormOp := ⟨kind, 0, 1, 31, 1, 0, 2⟩
/-- Six descriptors loaded, and the same with a full M queue. -/
def six : State := on0 run (tds (List.replicate 6 (some (mat 7 0))))
def full : State := on0 six fun c => { c with mq := List.replicate 4 (entry mxaNull) }
theorem wit_MatrixInstructionsEnterTheQueue : let c := six.core 0
    c.mq.length < 4 ∧ Executes .lane0 at0 (c.tdRegs 0 1 ++ [.td 1, .td 2, .s 1]) six ∧ c.ext 0 1 = some none
    ∧ Executes .lane0 at0 [.td 3, .s 1, .s 2] six ∧ brndIllegal (bOp 4 11) = false
    ∧ Executes .lane0 at0 (c.tdRegs 0 1 ++ [.td 1, .td 2, .s 1, .s 4, .s 3, .p 7]) six ∧ (kOp 4).slotLo.toNat < 5 := by
  unfold Executes Alone Free; decide +kernel
theorem wit_MatrixInstructionsEnterTheQueue_attn : let c := six.core 0
    Executes .lane0 at0 ([.td 0, .td 5, .s 1, .s 2] ++ c.tdRegs 1 2 ++ c.tdRegs 3 2) six ∧ (aOp.last && aOp.xmax) = false ∧ c.ext 1 2 = some none ∧ c.ext 3 2 = some none
    ∧ Executes .lane0 at0 [.td 0, .td 1, .s 1, .s 2, .v 31] six ∧ normIllegal (nOp 2) = false := by
  unfold Executes Alone Free; decide +kernel
theorem wit_MatrixInstructionsEnterTheQueue_stops :
    Executes .lane0 at0 ((full.core 0).tdRegs 0 1 ++ [.td 1, .td 2, .s 1]) full ∧ 4 ≤ (full.core 0).mq.length
    ∧ Executes .lane0 at0 ((run.core 0).tdRegs 0 1 ++ [.td 1, .td 2, .s 1]) run ∧ (run.core 0).td[(0 : Fin 16)] = none
    ∧ 5 ≤ (bOp 5 0).slot.toNat ∧ 12 ≤ (bOp 4 12).epiF.toNat ∧ 5 ≤ (kOp 5).slotLo.toNat ∧ (nOp 3).kind = 3 := by
  unfold Executes Alone Free; decide +kernel
/-- What a computation of the M queue's head leaves is as the statement asks. -/
def mRunKeepsWiden (s : State) (op : MOp) : Bool :=
  match s.mRun 0 op none with
  | .ok r => decide (r.work.widen = (s.work 0).widen) && decide (r.work.widen.length ≤ 16)
  | .error _ => false
theorem wit_MatrixQueueHeadActs :
    let s := on0 run fun c => spad 0x1000 [7] (spad 0 [7] { c with mq := [entry mxaNull] })
    s.live 0 = true ∧ (entry mxaNull).started = false ∧ Admitted 0 .m (mDraw mxaNull) s ∧ mRunKeepsWiden s mxaNull = true
    ∧ (match run.mRun 0 mxaNull none with | .ok _ => none | .error st => some st) = some stHeader := by
  unfold Admitted; decide +kernel
theorem wit_MatrixInstructionCompletes : let e : MEntry := { entry mxaNull with started := true }
    let s := on0 run fun c => { c with mq := [e, entry mxaNull] }
    s.live 0 = true ∧ e.started = true ∧ e.fetch = false ∧ (s.core 0).mq.length = 2 ∧ (entry mxaNull).started = false ∧ { e with fetch := true }.fetch = true := by
  decide +kernel
theorem wit_GovernorGrantsAStart :
    let q (draw since : Nat) : State := run.modHearth 0 fun h => { h with drawReqs := [⟨3, .m, draw, since, false⟩, ⟨1, .v, 12, 1000, false⟩] }
    (q 12 1000).nextGrant 0 = some ⟨1, .v, 12, 1000, false⟩ ∧ (q 12 0).nextGrant 0 = some ⟨3, .m, 12, 0, false⟩ ∧ (q 5000 0).nextGrant 0 = none ∧ run.nextGrant 0 = none := by
  decide +kernel
/-- A paged ATTN whose fetch is in progress, with the pages it knows. -/
def paged (list : Nat) (pages : List (Nat × W32)) : MEntry :=
  { entry (.attn (mat 4 0) (mat 4 0) (mat 4 0) (some (BitVec.ofNat 512 list)) none (mat 4 0) aOp 0 0) with started := true, fetch := true, pages := pages }
theorem wit_PageTableReadServesItsRequesters :
    let s := (on0 run fun c => { c with mq := [paged 0 [(0, 0x80000000)]] }).modHearth 0 fun h => { h with walks := [⟨0x100, 3, [(0, none)]⟩] }
    s.hearths[(0 : Fin 8)].walks.find? (fun y => decide (y.table = 0x100) && decide (y.k = 3)) = some ⟨0x100, 3, [(0, none)]⟩
    ∧ s.live 0 = true ∧ pList 0 = false ∧ pList 1 = true ∧ pageOf (paged 0 [(0, 0x80000000)]).pages (rmKpos 0 / 256) = some 0x80000000
    ∧ (BitVec.ofNat 32 (leNat (s.mem.read ((0x100 : BitVec 48).toNat + 4 * 3) 4))).getLsbD 31 = false := by
  decide +kernel
/-- A COPY of 64 bytes from HBM to core 1's scratchpad, as DMAQ reads it, with its SIG, OP and addresses. -/
def copyDesc : List Byte := toLE 1 1 ++ toLE 1 1 ++ toLE 5 2 ++ toLE 64 4 ++ toLE 0 8 ++ toLE (2 ^ 57 + 2 ^ 48) 8 ++ toLE 0 8
theorem wit_TransfersEnterTheirQueue :
    let s := on0 run fun c => tds [some (matHbm 4 0), some (mat 4 0)] (spad 0x3FFFE0 copyDesc (regs [0x3FFFE0, 0x400000, 16] c))
    let c := s.core 0
    Executes .lane0 at0 (c.tdRegs 0 2 ++ [.s 1]) s ∧ (c.q[(7 : Fin 8)]).xfers.length < 32 ∧ dMode (matHbm 4 0) = 0 ∧ dSpace (matHbm 4 0) = 0 ∧ dSpace (mat 4 0) = 1 ∧ c.td[(2 : Fin 16)] = none
    ∧ convReserved 0 = false ∧ fmtReserved (0 : BitVec 4).toNat = false ∧ admits (dLayout (matHbm 4 0)) (0 : BitVec 4).toNat = true
    ∧ Executes .lane0 at0 (.s 1 :: dmaTdRegs c (c.getS 1)) s ∧ c.badParity = [] ∧ (parseDma c 0 (s.hearthsOf 0) (readBytes c.spad (c.getS 1).toNat 32)).isOk = true
    ∧ 0x3FFFE0 < (c.getS 2).toNat ∧ (c.getS 3).toNat % 32 ≠ 0
    ∧ let f := on0 s fun c => { c with q := c.q.set 7 ⟨List.replicate 32 (Xfer.blank .copy), 0⟩ }
      32 ≤ ((f.core 0).q[(7 : Fin 8)]).xfers.length ∧ Executes .lane0 at0 ((f.core 0).tdRegs 0 2 ++ [.s 1]) f ∧ Executes .lane0 at0 (.s 1 :: dmaTdRegs (f.core 0) ((f.core 0).getS 1)) f := by
  unfold Executes Alone Free; decide +kernel
theorem wit_QueueStatusAndDescriptorLoads :
    let s := on0 run fun c => tds [none, some (mat 4 0)] (spad 0x3FFFC0 (toLE (mat 4 0).toNat 64) (regs [0x3FFFC0, 0x400000, 32, 0, 0x3F800000] c))
    let c := s.core 0
    (∀ r ∈ ([1, 2, 3, 4, 5] : List (Fin 32)), Executes .lane0 at0 [.s r, .td 1] s) ∧ (c.getS 1).toNat % 64 = 0 ∧ (c.getS 1).toNat ≤ 0x3FFFC0 ∧ c.badParity = []
    ∧ descOk 1 (readDesc c.spad (c.getS 1).toNat) = true ∧ descOk 1 (readDesc c.spad (c.getS 4).toNat) = false ∧ 0x3FFFC0 < (c.getS 2).toNat ∧ (c.getS 3).toNat % 64 ≠ 0
    ∧ c.td[(1 : Fin 16)] = some (mat 4 0) ∧ c.td[(0 : Fin 16)] = none := by
  unfold Executes Alone Free; decide +kernel
theorem wit_SignalsAndWaits :
    let s := on0 (run.modPart 4 fun p => { p with mode := .idle }) fun c => regs [1, 256, 2 ^ 32 + 9 * 2 ^ 16, 2 ^ 32 + 1] { c with tok := c.tok.set 63 ⟨255, 0⟩ }
    let c := s.core 0
    let part (r : Fin 32) := s.partOfCore ⟨(c.getS r).toNat % 512, by omega⟩
    (∀ r ∈ ([1, 2, 3, 4] : List (Fin 32)), Executes .lane0 at0 [.s r] s) ∧ Executes .lane0 at0 [] s ∧ (255 : BitVec 8) ≠ 0
    ∧ (c.getS 1).getLsbD 32 = false ∧ part 1 = s.partOfCore 0 ∧ part 2 ≠ s.partOfCore 0 ∧ (c.getS 3).getLsbD 32 = true ∧ BitVec.ofNat 16 ((c.getS 3).toNat / 2 ^ 16) ≠ s.fab.moduleId
    ∧ BitVec.ofNat 16 ((c.getS 4).toNat / 2 ^ 16) = s.fab.moduleId ∧ part 4 = s.partOfCore 0
    ∧ c.epoch.getLsbD 0 = false ∧ (255 : BitVec 8).toNat ≤ (c.tok[(63 : Fin 64)].even).toNat ∧ (c.tok[(0 : Fin 64)].even).toNat < (1 : BitVec 8).toNat := by
  unfold Executes Alone Free; decide +kernel
theorem wit_WclaimLeavesAClaim :
    let s := on0 run fun c => regs [0xFFFF] { c with claims := [⟨7, 63, 1, 5, 1, 0, false, 0, 0⟩] }
    Executes .lane0 at0 [.s 1, .s 2, .p 7] s ∧ s.taskOf 0 = some (0, task) ∧ ((s.core 0).getS 1).toNat % 2 ^ 16 ≠ 0 ∧ ((s.core 0).getS 2).toNat % 2 ^ 16 = 0 ∧ task.balEn = true ∧ s.partOf 7 = some 0
    ∧ (∀ x ∈ (s.core 0).claims, ¬(x.h = 7 ∧ x.ctr = 0)) ∧ (∃ x ∈ (s.core 0).claims, x.h = 7 ∧ x.ctr = 63) ∧ (s.modPart 7 fun p => { p with mode := .idle }).partOf 7 ≠ some 0 := by
  unfold Executes Alone Free; decide +kernel
theorem wit_BarrierAndMsyncInstructionsAct :
    Alone at0 run ∧ Alone off0 run ∧ off0.gneg = true ∧ (run.core 0).busy (.p 0) = false ∧ Executes .lane0 at0 [] run ∧ (run.core 0).mq = []
    ∧ let s := on0 run fun c => { c with mq := [entry mxaNull] }; Executes .lane0 at0 [] s ∧ (s.core 0).mq ≠ [] := by
  unfold Executes Alone Free; decide +kernel
/-- A collective of `n` members (1 or 2) of 64 bytes whose members stand at 0x100 and permutation at 0x200 of HBM. -/
def collDesc (n perm : Nat) : Desc :=
  BitVec.ofNat 512 (1 * 2 ^ 8 + 1 * 2 ^ 16 + 64 * 2 ^ 96 + n * 2 ^ 256 + 2 ^ 272 + 2 ^ 288 + 2 ^ 304 + 0x100 * 2 ^ 384 + perm * 2 ^ 448)
theorem wit_CollectivesStart :
    let s := { on0 run fun c => spad 0 (toLE (collDesc 2 0).toNat 64 ++ toLE (collDesc 2 0x200).toNat 64 ++ toLE (collDesc 1 0x300).toNat 64) (regs [0, 64, 128, 32, 0x400000] c) with
      mem := { Mem.reset with hbm := [(0x106, 1), (0x200, 1), (0x204, 1)] } }
    let c := s.core 0
    (∀ r ∈ ([1, 2, 3, 4, 5] : List (Fin 32)), Executes .lane0 at0 [.s r] s) ∧ (collRead c (c.getS 1)).toOption = some (collDesc 2 0) ∧ collOk (collDesc 2 0) false 0 = true
    ∧ (s.collOf 0 (collDesc 2 0) (collOpc false 0 0 true) true 63 (shiftRank (collDesc 2 0) 0 false) (shiftRank (collDesc 2 0) 0 true)).isOk = true
    ∧ (collRead c (c.getS 2)).toOption = some (collDesc 2 0x200) ∧ collOk (collDesc 2 0x200) true 0 = true
    ∧ ((s.work 0).rdMod (s.admits 0) 0x200 8).toOption = some [1, 0, 0, 0, 1, 0, 0, 0] ∧ (s.collOf 0 (collDesc 2 0x200) (collOpc true 0 0 false) true 63 1 1).isOk = true ∧ cRank (collDesc 2 0x200) = 0
    ∧ (collRead c (c.getS 3)).toOption = some (collDesc 1 0x300) ∧ collOk (collDesc 1 0x300) true 0 = true ∧ (s.collOf 0 (collDesc 1 0x300) (collOpc true 0 0 false) true 63 0 0).isOk = true
    ∧ ((s.work 0).rdMod (s.admits 0) 0x300 8).toOption = some [0, 0, 0, 0, 0, 0, 0, 0] ∧ (c.getS 4).toNat % 64 ≠ 0 ∧ 0x3FFFC0 < (c.getS 5).toNat := by
  unfold Executes Alone Free; decide +kernel

/-! Hypotheses of the statements on synchronisation, transfers and jobs -/

/-- Cores 0 and 1 at a barrier of a kind, arrived or not. -/
def barred (kind kind1 : BitVec 2) (one : Option Nat) (s : State) : State :=
  (on0 s fun c => { c with mode := .barrier, arrival := some ⟨kind, 5, 9, 1, some 0⟩ }).modCore 1 fun c => { c with mode := .barrier, arrival := some ⟨kind1, 5, 9, 1, one⟩ }

/-- The task on a partition of H0 alone. -/
def run1 : State := run.modPart 1 fun p => { p with mode := .stopped }

theorem wit_BarriersReleaseTheirParticipants :
    run1.partOf 0 = some 0 ∧ (barred 0 0 (some 1) run1).partLive 0 = true ∧ (barred 0 0 (some 1) run1).allArrived 0 0 0 = true ∧ (barred 0 0 none run1).allArrived 0 0 0 = false
    ∧ (barred 1 1 (some 1) run1).allArrived 0 1 0 = true ∧ (1 : Fin 512) ∈ run1.participants 0 0 0 := by
  decide +kernel
theorem wit_EpochBarrierAdvancesTheEpoch : let s := barred 2 3 (some 1) run1
    s.partOf 0 = some 0 ∧ s.partLive 0 = true ∧ s.allArrived 0 2 0 = true ∧ s.roundsDone 0 = true ∧ s.hearths[(0 : Fin 8)].widen = []
    ∧ (s.core 1).arrival.map (·.kind) = some 3 ∧ (s.core 0).arrival.map (·.kind) ≠ some 3 ∧ (0 : Fin 512) ∈ s.members 0
    ∧ task.overs = [] ∧ task.cancel = false ∧ task.suspends = false ∧ { task with suspendAt := some 0 }.suspends = true ∧ { task with cancel := true }.cancel = true
    ∧ (∀ g ∈ (barred 3 3 (some 1) run1).members 0, ((barred 3 3 (some 1) run1).core g).arrival.map (·.kind) = some 3) ∧ { task with overs := [(1, 0)] }.overs ≠ [] := by
  decide +kernel
theorem wit_EpochBarrier_task (t : Task) : ((barred 2 3 (some 1) run1).modPart 0 fun p => { p with task := some t }).parts[(0 : Fin 8)].task = some t := rfl
/-- A count of 1 for token 63 of core 0, from a core of the same partition. -/
def count (epoch : BitVec 16) (seq : Nat) (m : Option (BitVec 16)) : TokMsg := ⟨1, none, seq, m, 0, 63, 1, epoch, 0⟩
/-- One count on its way, to a cell with the given counts. -/
def sent (m : TokMsg) (x : BitVec 16) (s : State) : State := { on0 s fun c => { c with tok := c.tok.set 63 ⟨x, x⟩ } with tokens := [m] }
theorem wit_TokenCountsArriveAndWaitsEnd :
    (sent (count 0 0 none) 65534 run).tokens[0]? = some (count 0 0 none) ∧ up.partHeld (up.partOfCore 1) = false ∧ run.partHeld (run.partOfCore 1) = true
    ∧ (run.modCore 1 fun c => { c with mq := [entry (.brnd 0 (bOp 0 0) 0 0)] }).tokenFree 0 (count 0 1 none) = false ∧ run.tokenFree 0 (count 0 1 none) = true
    ∧ (run.core 2).member = false ∧ (run.core 0).member = true ∧ run.partOfCore 0 = run.partOfCore 1
    ∧ ((sent (count 0 0 none) 65534 run).core 0).tok[(63 : Fin 64)].even.toNat + 1 ≤ 65535 ∧ 65535 < ((sent (count 0 0 none) 65535 run).core 0).tok[(63 : Fin 64)].even.toNat + 1
    ∧ (count 1 0 none).epoch = (run.core 0).epoch + 1 ∧ (count 2 0 none).epoch ≠ (run.core 0).epoch ∧ (count 2 0 none).epoch ≠ (run.core 0).epoch + 1
    ∧ (run.core 0).wait = none
    ∧ let s := on0 run fun c => { c with mode := .wait, wait := some ⟨63, 255, 0, 100000, 4⟩, tok := c.tok.set 63 ⟨255, 254⟩ }
      (s.core 0).wait = some ⟨63, 255, 0, 100000, 4⟩ ∧ (255 : BitVec 8).toNat ≤ (s.core 0).tok[(63 : Fin 64)].even.toNat ∧ (s.core 0).tok[(63 : Fin 64)].odd.toNat < (255 : BitVec 8).toNat ∧ s.live 0 = true := by
  decide +kernel
/-- A claim of core 0 on the last counter of H7, which stands at 30 of 32; its bitmap, if it has one, lies at 64. -/
def claim (executed : Bool) (failures : Nat) : Claim := ⟨7, 63, 8, 5, 7, 3, executed, failures, 9⟩
def claimed (bmap : Bool) (bits : Byte) : State :=
  { (on0 run fun c => { c with claims := [claim false 0] }).modWctr 7 63 fun _ => ⟨30, 32, 1, 0, bmap, false, []⟩ with mem := { Mem.reset with hbm := if bits = 0 then [] else [(67, bits)] } }
theorem wit_ClaimsAreGranted :
    (∀ s ∈ [claimed false 0, claimed true 0, claimed true 0x80], wfB s = true ∧ s.live 0 = true ∧ s.hearths[(7 : Fin 8)].wctr[(63 : Fin 64)].clearing = false
      ∧ (s.core 0).claims.find? (fun y => decide (y.h = 7) && decide (y.ctr = 63) && !y.executed) = some (claim false 0))
    ∧ (let w := (claimed true 0).hearths[(7 : Fin 8)].wctr[(63 : Fin 64)]
      w.bmap = 64 ∧ w.bmap < hbmTop ∧ w.value.toNat < w.limit.toNat ∧ min (claim false 0).inc (w.limit.toNat - w.value.toNat) = 2 ∧ (claimed true 0).admits 0 true (w.bmap + 30 / 8) (31 / 8 - 30 / 8 + 1) = none)
    ∧ (∀ i, i < 2 → bmapBit (claimed true 0).mem 64 (30 + i) = false) ∧ (∃ i, i < 2 ∧ bmapBit (claimed true 0x80).mem 64 (30 + i) = true) := by
  decide +kernel
theorem wit_ClaimsReturnAndBitmapsClear :
    (∀ n ∈ [0, 3], let s := (on0 run fun c => { c with claims := [claim true n] }).modWctr 7 63 fun _ => ⟨32, 32, 1, 0, true, true, [(0, 3, 30, 2)]⟩
      wfB s = true ∧ s.live 0 = true ∧ (s.core 0).claims.find? (fun y => decide (y.h = 7) && decide (y.ctr = 63) && y.executed) = some (claim true n)
      ∧ s.hearths[(7 : Fin 8)].wctr[(63 : Fin 64)].log.find? (fun e => decide (e.1 = 0) && decide (e.2.1 = 3)) = some (0, 3, 30, 2)
      ∧ s.larcy.d3hot = false ∧ s.glb.hrtPresent.getLsbD 7 = true ∧ s.hearths[(7 : Fin 8)].wctr[(63 : Fin 64)].clearing = true ∧ s.hearths[(7 : Fin 8)].wctr[(63 : Fin 64)].bmap < hbmTop)
    ∧ run.hearths[(7 : Fin 8)].wctr[(0 : Fin 64)].clearing = false ∧ ({ run with glb := { run.glb with hrtPresent := 0x7F } } : State).glb.hrtPresent.getLsbD 7 = false := by
  decide +kernel
/-- A transfer of 64 bytes to core 1's scratchpad, from HBM. -/
def copy : Xfer := { Xfer.blank .copy with length := 64, src := ⟨0, 0, 0⟩, dst := ⟨1, 1, 0x3FFFC0⟩ }
/-- One transfer at the head of the last queue of core 0. -/
def headX (x : Xfer) (s : State) : State := on0 s fun c => { c with q := c.q.set 7 ⟨[x], 0⟩ }
theorem wit_TransfersMoveTheirBytes :
    (∀ x ∈ [copy, { copy with kind := .tile, td := matHbm 7 0 }, { copy with kind := .narrow, length := 32 }], let s := headX x run
      wfB s = true ∧ s.live 0 = true ∧ ((s.core 0).q[(7 : Fin 8)]).xfers = [x] ∧ x.phase = .queued ∧ s.xferCoresOk 0 x = true ∧ x.ext = none ∧ Admitted 0 (.dma 7) 1 s ∧ x.remote = false ∧ s.snooped 0 7 = false)
    ∧ (headX copy run).xferCoresOk 0 { copy with dst := ⟨1, 511, 0⟩ } = true ∧ ((headX copy run).modPart 7 fun p => { p with mode := .idle }).xferCoresOk 0 { copy with dst := ⟨1, 511, 0⟩ } = false
    ∧ (headX copy run).destOk 0 copy = true ∧ (headX copy run).destOk 0 { copy with dst := ⟨1, 1, 0x3FFFC1⟩ } = false
    ∧ ((headX copy run).xferBytes 0 copy).2 = none ∧ (State.writePieces 0 copy.dst ((headX copy run).xferBytes 0 copy).1 (headX copy run)).2 = none
    ∧ ((headX copy run).xferBytes 0 { copy with src := ⟨0, 0, 0x20000000000⟩ }) = ([], some 0x0108) ∧ voids 0x0108 = false ∧ ((headX copy (on0 run fun c => { c with badParity := [0] })).xferBytes 0 { copy with src := ⟨1, 0, 0⟩ }).2 = some 0x0101 ∧ voids 0x0101 = true ∧ (headX copy run).mem.badHbm = []
    ∧ (let x := { Xfer.blank .tile with store := true, td := matHbm 7 0, dst := ⟨1, 0, 0x400000⟩ }; ((headX x run).storeTiles 0 x none).2 ≠ none) ∧ copy.dst.off.toNat + copy.length ≤ 0x400000 := by
  unfold Admitted; decide +kernel
theorem wit_TransfersMoveTheirBytes_stt :
    let x := { Xfer.blank .tile with store := true, td := matHbm 7 0 - BitVec.ofNat 512 (2 ^ 288), sf := 7, dst := ⟨1, 0, 0⟩ }; ((headX x run).storeTiles 0 x none).2 = none ∧ ((headX x run).storeTiles 0 x none).1.widen.length ≤ 16 := by
  decide +kernel
theorem wit_TransfersComplete :
    (∀ x ∈ [{ copy with phase := .moved, sig := true }, { copy with phase := .failed, sig := false }, { copy with phase := .moved, sig := true, remote := true, module := 0 }, { copy with phase := .moved, sig := true, remote := true, module := 9 }],
      (headX x run).live 0 = true ∧ ((headX x run).core 0).q[(7 : Fin 8)].xfers = [x] ∧ x.image = none ∧ (∀ m ∈ ((headX x run).core 0).msgs, m.queue ≠ some 7))
    ∧ (let x := { copy with src := ⟨0, 0, 0x800000000000⟩ }; (headX x run).touchesTier 0 x hostBase = true ∧ x.phase = .queued ∧ x.stream = true) ∧ { copy with stream := false }.stream = false := by
  decide +kernel
/-- A run of one billet for the group of core 0's slot 0, and that slot open. -/
def aRun (anchor : BitVec 16) (epoch : BitVec 16) : BilletRun := ⟨1, false, anchor, 0x3F800000, 0x3F800000, 2, 3, 8191, epoch, 1, [1]⟩
def open0 (c : Core) : Core := { c with slots := c.slots.set 0 ⟨some ⟨⟨2, true, 3⟩, false, 4, 0x3F800000, 0x3F800000, 0⟩, [], []⟩ }
theorem wit_BilletRuns :
    run.live 0 = true ∧ runOk (aRun 4 0) = true ∧ runStale (aRun 4 0) 0 = false ∧ runStale (aRun 4 0xFFFF) 0 = true ∧ (run.core 0).stageRoom (aRun 4 0) = true
    ∧ (on0 run fun c => { c with stage := List.replicate 1170 ⟨aRun 4 0, none, false⟩ }).live 0 = true ∧ ({ run.core 0 with stage := List.replicate 1171 ⟨aRun 4 0, none, false⟩ } : Core).stageRoom (aRun 4 0) = false
    ∧ ({ run.core 0 with stage := [⟨aRun 4 0, none, false⟩] } : Core).stage[0]? = some ⟨aRun 4 0, none, false⟩ ∧ (run.core 0).runSlot (aRun 4 0) = none
    ∧ (open0 (run.core 0)).runSlot (aRun 4 0) = some (0, ⟨⟨2, true, 3⟩, false, 4, 0x3F800000, 0x3F800000, 0⟩)
    ∧ runMatches ⟨⟨2, true, 3⟩, false, 4, 0x3F800000, 0x3F800000, 0⟩ (aRun 4 0) = true ∧ runMatches ⟨⟨2, true, 3⟩, false, 4, 0x3F800000, 0x3F800000, 0⟩ (aRun 5 0) = false
    ∧ run.fab.rxQueue = [] := by
  decide +kernel
theorem wit_BilletRuns_colls : ∀ j, ∀ x ∈ (run.core j).colls, x.todo = [] := by
  have h : (run.cores.toList.all fun (c : Core) => c.colls.isEmpty) = true := by decide +kernel
  intro j x hx
  have := List.all_eq_true.1 h (run.core j) (by simp [State.core])
  simp_all
/-- A collective of group 0 that has sent its data, with bytes left to receive. -/
def coll (left : Nat) (sig : Bool) : Coll := ⟨collDesc 2 0, 0, sig, 63, 0, 0, 125000000, 1, 1, 0, 1, 0, 1, 9, true, true, 0, 0, true, true, left, []⟩
theorem wit_CollectivesComplete :
    (∀ sig ∈ [true, false], let c := { run.core 0 with colls := [coll 0 sig] }; c.colls.find? (fun y => decide (cGroup y.desc = 0) && y.complete c) = some (coll 0 sig))
    ∧ (let c := { run.core 0 with colls := [coll 1 true] }; c.colls.find? (fun y => decide (cGroup y.desc = 0) && !y.complete c) = some (coll 1 true)) ∧ run.live 0 = true := by
  decide +kernel
/-- A schedule image of one bundle, END, for core 0, at 0x1000 of HBM: header, table of five sections, CODE, PEERS. -/
def imageBytes (hearths : Nat) : List Byte :=
  toLE 0x54485957 4 ++ toLE 1 2 ++ toLE 0 2 ++ toLE 192 8 ++ toLE hearths 1 ++ toLE 5 1 ++ toLE 0 2 ++ toLE 1 4 ++ toLE 0 8 ++ List.replicate 32 0
  ++ toLE 1 4 ++ toLE 40 4 ++ toLE 144 8 ++ toLE 2 4 ++ toLE 0 4 ++ toLE 192 8 ++ toLE 3 4 ++ toLE 0 4 ++ toLE 192 8 ++ toLE 6 4 ++ toLE 0 4 ++ toLE 192 8 ++ toLE 7 4 ++ toLE 8 4 ++ toLE 184 8
  ++ toLE 0 4 ++ toLE 1 4 ++ toLE (0x3F * 2 ^ 56) 32 ++ toLE 0 8
/-- A job with that image. -/
def jobI : Job := { job with image := 0x1000, imageSize := 192 }
/-- It waits on partition 0, behind a later one. -/
def queued (hearths : Nat) (j : Job) : State := { up.modPart 0 fun p => { p with lc := [{ job with id := 8 }, j] } with mem := { Mem.reset with hbm := writeBytes [] 0x1000 (imageBytes hearths) } }
/-- What the loader finds of a job: 0 where its checks pass, 1 where one fails, 2 an image that does not parse, 3 an object that is not read. -/
def loads (s : State) (fail : Option (BitVec 64)) (j : Job) : Nat :=
  match ((s.modPart 0 fun y => y.take j).clearForTask 0).loadObjects fail j with
  | .error _ => 3
  | .ok (raw, _, v) => match parseImage raw raw.length with
    | .error _ => 2
    | .ok img => match v.imageFail 0 j.hostWeights img with
      | none => 0
      | some _ => 1
theorem wit_JobsStart :
    (let s := queued 1 jobI; s.parts[(0 : Fin 8)].mode = .idle ∧ s.parts[(0 : Fin 8)].zeroing = false ∧ s.parts[(0 : Fin 8)].task = none ∧ firstJob (s.parts[(0 : Fin 8)].lc ++ s.parts[(0 : Fin 8)].be) = some jobI)
    ∧ jobI.secure = false ∧ jobI.modules.length ≤ 1 ∧ jobI.part = 0 ∧ jobI.session = none ∧ loads (queued 1 jobI) none jobI = 0 ∧ loads (queued 3 jobI) none jobI = 2 ∧ loads (queued 1 jobI) (some 0x10BF) jobI = 3
    ∧ run.parts[(0 : Fin 8)].mode ≠ .idle ∧ run.partOf 0 = some 0 ∧ task.ending = none ∧ (run.modTask 0 fun t => { t with phase := .startBarrier }).roundsDone 0 = true
    ∧ (run.modTask 0 fun t => { t with phase := .startBarrier, job := { t.job with modules := [0, 1] } }).roundsDone 0 = false ∧ { task with phase := .loaded }.phase = .loaded := by
  decide +kernel
theorem wit_JobsStart_fails : let s := { (queued 1 jobI) with hearths := State.reset.hearths.map fun h => { h with budget := 0 }, mem := { Mem.reset with hbm := writeBytes [] 0x1000 ((imageBytes 1).set 24 1) } }
    loads s none jobI = 1 := by
  decide +kernel
/-- The end of a task with a status. -/
def ending (st : Status) : Ending := ⟨st, 900, 0, none, none, 0, 0, 0, none, 0⟩
theorem wit_JobsEnd :
    run.partOf 7 = some 0 ∧ task.job.part = 0 ∧ task.job.session = none ∧ run.pwr.dieTrip = false ∧ run.parts[(0 : Fin 8)].mode = .running ∧ run.partSick 0 = false
    ∧ ({ run with glb := { run.glb with hrtPresent := 0x7F } } : State).partSick 0 = true ∧ { task with phase := .startBarrier }.phase = .startBarrier
    ∧ (let s := up.modPart 0 fun p => { p with be := [{ job with maxWaitMs := 1 }] }
      (s.parts.toList.flatMap fun x => x.lc ++ x.be).find? (fun y => decide (y.id = 7) && decide (y.maxWaitMs ≠ 0)) = some { job with maxWaitMs := 1 } ∧ s.parts[(0 : Fin 8)].task = none)
    ∧ (let s := run.modPart 0 fun p => { p with zeroing := true }; wfB s = true ∧ s.parts[(0 : Fin 8)].zeroing = true) := by
  decide +kernel
theorem wit_JobsEnd_task (st : Status) : (run.modTask 0 fun t => { t with ending := some (ending st) }).parts[(0 : Fin 8)].task = some { task with ending := some (ending st) } := rfl

/-! Witnesses: the Larcy command engine -/

/-- A context with one entry in its submission queue at host address 0x1000. -/
def lctx (n : Fin 4096) (v : Byte) (admin : Bool) : LCtx := ⟨n, 0x1000, 0x2000, 4, 4, v, admin, true, 3, 0, 1, 0, 0, true, none, [], none, [], true, 0, 0, 0, false⟩
/-- A submission entry: opcode, CID 9, operands from byte 24 on. -/
def sqe (opc operands : Nat) : List Byte := toLE (opc + 9 * 2 ^ 16 + operands * 2 ^ 192) 64
/-- The same with a parameter block of `n` bytes at host address 0x3000. -/
def sqeP (opc n operands : Nat) : List Byte := toLE (opc + 9 * 2 ^ 16 + 0x3000 * 2 ^ 64 + n * 2 ^ 128 + operands * 2 ^ 192) 64
/-- A state whose context 5 has one entry, and a parameter block. -/
def asked (s : State) (c : LCtx) (e pb : List Byte) : State :=
  { s with larcy := { s.larcy with ctxs := c :: s.larcy.ctxs }, mem := { s.mem with host := writeBytes (writeBytes [] 0x1000 e) 0x3000 pb } }
/-- The command of context 5 is consumed, with its opcode; its checks pass or answer a status. -/
def taken (s : State) (c : LCtx) (e : List Byte) (x : HostFate) (opc : Nat) (st : Option Status) : Bool :=
  wfB s && decide (s.consumer 5 = some c) && s.hostUp && decide (x ≠ .queueFails) && decide (s.entryOf c = e) && decide (leAt e 0 1 = opc) && !s.sec.instActive
  && match (s.takeEntry 5 e).checkEntry c x e, st with
    | .ok _, none => true
    | .error a, some b => decide (a = b)
    | _, _ => false
/-- `taken` over a bare state with an administrator's context of version 0x30. -/
def passes (s : State) (opc operands : Nat) (pb : List Byte) (pn : Nat) : Bool :=
  let e := if pn = 0 then sqe opc operands else sqeP opc pn operands
  taken (asked s (lctx 5 0x30 true) e pb) (lctx 5 0x30 true) e .ok opc none
/-- A CTX_OPEN for versions 0x10 to 0x30 with queues of 16 and 4,096 entries. -/
def openOps : Nat := 0x4000 + 0x5000 * 2 ^ 64 + 4 * 2 ^ 128 + 12 * 2 ^ 136 + 0x10 * 2 ^ 144 + 0x30 * 2 ^ 152 + 3 * 2 ^ 160 + 255 * 2 ^ 168
/-- A SUBMIT block: an image at 0, one input, one module. -/
def subBlock : List Byte := toLE (0x1000 * 2 ^ 64 + 1 * 2 ^ 384 + 1 * 2 ^ 416 + 0x10000 * 2 ^ 512 + 0x40 * 2 ^ 576) 128

theorem wit_LarcyCommandsAreChecked :
    up.consumer 5 = none ∧ up.sec.instActive = false
    ∧ (let s := asked up (lctx 5 0x30 true) (sqe 1 openOps) []
      (s.consumer 5).isSome = true ∧ ({ s with larcy := { s.larcy with up := false } } : State).hostUp = false)
    ∧ taken (asked up (lctx 5 0x20 true) (sqe 0x11 (2 ^ 32)) []) (lctx 5 0x20 true) (sqe 0x11 (2 ^ 32)) .ok 0x11 (some 0x0701) = true ∧ versionLacks 0x20 0x11 (sqe 0x11 (2 ^ 32)) = true
    ∧ taken (asked up (lctx 5 0x30 true) (sqe 0x02 4096) []) (lctx 5 0x30 true) (sqe 0x02 4096) .ok 0x02 (some 0x0702) = true ∧ versionLacks 0x30 0x02 (sqe 0x02 4096) = false ∧ entryBad 0x02 (sqe 0x02 4096) = true
    ∧ taken (asked up (lctx 5 0x30 false) (sqe 0x20 0) []) (lctx 5 0x30 false) (sqe 0x20 0) .ok 0x20 (some 0x0705) = true ∧ versionLacks 0x30 0x20 (sqe 0x20 0) = false ∧ entryBad 0x20 (sqe 0x20 0) = false
    ∧ blockBad 0x20 (sqe 0x20 0) [] = false ∧ up.cmdBarred (lctx 5 0x30 false) 0x20 (sqe 0x20 0) = true := by
  decide +kernel
theorem wit_LarcyCommandsAreChecked_block :
    taken (asked up (lctx 5 0x30 true) (sqeP 0x10 128 0) subBlock) (lctx 5 0x30 true) (sqeP 0x10 128 0) .paramFails 0x10 (some 0x0703) = true
    ∧ versionLacks 0x30 0x10 (sqeP 0x10 128 0) = false ∧ entryBad 0x10 (sqeP 0x10 128 0) = false ∧ blockBad 0x10 (sqeP 0x10 128 0) subBlock = false
    ∧ up.cmdBarred (lctx 5 0x30 true) 0x10 (sqeP 0x10 128 0) = false ∧ takesParam 0x10 = true := by
  decide +kernel
theorem wit_ContextAndJobCommandsAct_open :
    passes up 0x01 openOps [] 0 = true ∧ passes up 0x01 (openOps + 0x21 * 2 ^ 144 + 0x10 * 2 ^ 152) [] 0 = true
    ∧ (List.finRange 4096).find? (fun m => decide (m ≠ 0) && ((asked up (lctx 5 0x30 true) [] []).ctx m).isNone) = some 1
    ∧ bestVersion (leAt (sqe 0x01 openOps) 42 1) (leAt (sqe 0x01 openOps) 43 1) = some 0x30
    ∧ bestVersion (leAt (sqe 0x01 (openOps + 0x21 * 2 ^ 144 + 0x10 * 2 ^ 152)) 42 1) (leAt (sqe 0x01 (openOps + 0x21 * 2 ^ 144 + 0x10 * 2 ^ 152)) 43 1) = none
    ∧ passes up 0x02 4095 [] 0 = true ∧ (asked up (lctx 5 0x30 true) [] []).ctx 4095 = none ∧ passes up 0x02 5 [] 0 = true := by
  decide +kernel
/-- Every context open. -/
def allOpen : State := { up with larcy := { up.larcy with ctxs := (List.finRange 4096).map fun m => lctx m 0x30 true } }
theorem wit_ContextAndJobCommandsAct_full : passes allOpen 0x01 openOps [] 0 = true := by decide +kernel
theorem wit_ContextAndJobCommandsAct_full' (m : Fin 4096) : (allOpen.ctx m).isSome = true := by
  simp only [State.ctx, allOpen, List.find?_isSome, List.mem_map]
  exact ⟨lctx m 0x30 true, ⟨m, by simp, rfl⟩, by simp [lctx]⟩
/-- Context 4095 is open too. -/
def also (busy : Option (BitVec 16 × Byte)) (s : State) : State := { s with larcy := { s.larcy with ctxs := [{ lctx 4095 0x10 false with busy := busy }] } }
theorem wit_ContextAndJobCommandsAct_close :
    passes (also none up) 0x02 4095 [] 0 = true ∧ passes (also (some (1, 0x30)) up) 0x02 4095 [] 0 = true
    ∧ (asked (also none up) (lctx 5 0x30 true) [] []).ctx 4095 = some (lctx 4095 0x10 false)
    ∧ (asked (also (some (1, 0x30)) up) (lctx 5 0x30 true) [] []).ctx 4095 = some { lctx 4095 0x10 false with busy := some (1, 0x30) } := by
  decide +kernel
/-- The SUBMIT of `subBlock` as a job. -/
def asJob (s : State) (operands : Nat) : Job := s.submitJob (lctx 5 0x30 true) (sqeP 0x10 128 operands) subBlock
theorem wit_ContextAndJobCommandsAct_submit :
    passes run 0x10 7 subBlock 128 = true ∧ passes run 0x10 (1 * 2 ^ 8) subBlock 128 = true
    ∧ (let s := run.modPart 7 fun p => { p with mode := .none }; s.parts[(asJob s 7).part].mode = .none)
    ∧ run.parts[(asJob run 0).part].mode ≠ .none ∧ (asJob run 0).lc = true ∧ (asJob run (1 * 2 ^ 8)).lc = false
    ∧ (let s := run.modPart 0 fun p => { p with mode := .stopping }; s.refusal (asJob s 0) = some 0x0504 ∧ passes s 0x10 0 subBlock 128 = true) := by
  decide +kernel
/-- What lets a job be queued. -/
theorem refusal_none (s : State) (j : Job) (x : Bool) (h : clientBars j = x) (hx : x = false) (a : s.parts[j.part].mode = .running) (b : j.secure = false) (c : s.peekImage j = none) (d : (s.peekHeader j).any s.staticBars = false)
    (e : (s.peekHeader j).any (s.tooLarge j) = false) (f : j.lc = true) (g : s.parts[j.part].lc.length < 64) : s.refusal j = none := by
  subst hx
  simp only [State.refusal, h, a, b, c, d, e, f, Option.any_none, Bool.false_and, Bool.or_false, reduceCtorEq, or_self, if_false, Bool.false_eq_true, if_true, decide_eq_true_eq, Nat.not_le.2 g]
theorem wit_ContextAndJobCommandsAct_queued (h : clientBars (asJob run 0) = false) : run.refusal (asJob run 0) = none :=
  refusal_none _ _ _ h rfl (by decide +kernel) (by decide +kernel) (by decide +kernel) (by decide +kernel) (by decide +kernel) (by decide +kernel) (by decide +kernel)
/-- A job that waits in partition 0. -/
def waits1 : State := run.modPart 0 fun p => { p with lc := [{ job with id := 8 }] }
/-- The task suspended. -/
def slept : State := run.modPart 0 fun p => { p with mode := .suspended, task := some { task with phase := .suspended } }
theorem wit_ContextAndJobCommandsAct_jobs :
    (∀ opc ∈ [0x11, 0x12, 0x13, 0x14], passes waits1 opc 7 [] 0 = true) ∧ passes waits1 0x13 (7 + 2 ^ 32) [] 0 = true ∧ passes waits1 0x13 8 [] 0 = true ∧ passes waits1 0x14 (8 + 0x4000 * 2 ^ 64) [] 0 = true
    ∧ waits1.ownsJob (lctx 5 0x30 true) 9 = false ∧ waits1.ownsJob (lctx 5 0x30 true) 7 = true ∧ waits1.ownsJob (lctx 5 0x30 true) 8 = true
    ∧ waits1.heldJob 8 = none ∧ (waits1.queryOf 7).isSome = true ∧ (waits1.queryOf 8).isSome = true ∧ passes slept 0x12 7 [] 0 = true := by
  decide +kernel
theorem wit_ContextAndJobCommandsAct_held : waits1.heldJob 7 = some (0, task) ∧ waits1.queuedJob 8 = some { job with id := 8 } ∧ slept.heldJob 7 = some (0, { task with phase := .suspended }) := ⟨rfl, rfl, rfl⟩
/-- A context descriptor of H.264, 8 bits, 64 by 64, frame buffers at 0x10000, ring at 0x180000 of 4,096 bytes; the fields from byte 64 on are given. -/
def mediaDesc (dir refs t rest : Nat) : List Byte :=
  toLE (dir + 8 * 2 ^ 16 + refs * 2 ^ 24 + 64 * 2 ^ 32 + 64 * 2 ^ 48 + 0x10000 * 2 ^ 64 + 0x4000 * 2 ^ 128 + 0x180000 * 2 ^ 160 + 4096 * 2 ^ 224 + t * 2 ^ 512 + rest * 2 ^ 1024) 256
/-- A decoder into BF16 rows of patches of 16 by 16, one slot. -/
def decDesc : List Byte :=
  mediaDesc 0 64 ((1 + 0x200000 * 2 ^ 64 + 16 * 2 ^ 128 + 768 * 2 ^ 160 + 0x3F800000 * 2 ^ 224 + 2 ^ 288 + 24 * 2 ^ 352)) (16 * 2 ^ 8 + 16 * 2 ^ 16 + 2 ^ 24 + 2 ^ 48 + 0x300000 * 2 ^ 640)
/-- An encoder of 64 by 66 from BF16 channel blocks, one slot. -/
def encDesc : List Byte :=
  mediaDesc (1 + 2 * 2 ^ 48) 3 ((1 + 2 ^ 4 + 0x200000 * 2 ^ 64 + 64 * 2 ^ 128 + 66 * 2 ^ 144 + 2 ^ 160 + 3 * 2 ^ 176 + 2 ^ 192 + 0x3F800000 * 2 ^ 224 + 66 * 2 ^ 288 + 2 ^ 352)) (2 ^ 48 + 2 ^ 264 + 2 ^ 353 + 2 ^ 400 + 2 ^ 416)
/-- Context 255 of an engine, owned by context 5. -/
def mctx (d : List Byte) : MediaCtx := ⟨255, some 5, 0x400000, d, 0, 0, 0, 0, [], [], 0, [], [], 0, 0, false, false, none, none⟩
theorem wit_contextOk : contextOk decDesc = true ∧ contextOk encDesc = true := by decide +kernel

/-- Every partition of `run` but the first in a state of its own. -/
def modes : State :=
  (((((run.modPart 1 fun p => { p with mode := .idle }).modPart 2 fun p => { p with mode := .suspended }).modPart 3 fun p => { p with mode := .stopping }).modPart 4
    fun p => { p with mode := .stopped }).modPart 7 fun p => { p with mode := .none }).modPart 5 fun p => { p with mode := .outOfService }
/-- Installation mode. -/
def installing (s : State) : State := { s with sec := { s.sec with instMode := true } }
theorem wit_PartitionVaultAndStreamCommandsAct_stop :
    (∀ p ∈ [0, 1, 2, 3, 4, 5, 7], passes modes 0x20 p [] 0 = true ∧ passes modes 0x22 p [] 0 = true) ∧ passes (installing modes) 0x22 4 [] 0 = true ∧ modes.parts[(5 : Fin 8)].mode = .outOfService ∧ modes.pwr.dieTrip = false
    ∧ (let s : State := { modes with pwr := { modes.pwr with dieTrip := true } }; passes s 0x20 5 [] 0 = true ∧ passes s 0x22 4 [] 0 = true ∧ s.pwr.dieTrip = true)
    ∧ (let s : State := { modes with glb := { modes.glb with hrtPresent := 0xEF } }; passes s 0x22 4 [] 0 = true ∧ s.partSick 4 = true ∧ modes.partSick 4 = false)
    ∧ modes.parts[(0 : Fin 8)].mode = .running ∧ modes.parts[(1 : Fin 8)].mode = .idle ∧ modes.parts[(2 : Fin 8)].mode = .suspended ∧ modes.parts[(3 : Fin 8)].mode = .stopping
    ∧ modes.parts[(4 : Fin 8)].mode = .stopped ∧ modes.parts[(7 : Fin 8)].mode = .none ∧ modes.sec.instMode = false := by
  decide +kernel
/-- A PARTITION_SET block: H0 to H3 and H4 to H7, H0's HBM spread, no reservation. -/
def setBlock : List Byte := toLE (8 + 2 ^ 8) 64
/-- One stopped partition. -/
def stopped : State := up.modPart 0 fun p => { p with mode := .stopped }
theorem wit_PartitionVaultAndStreamCommandsAct_set :
    passes stopped 0x21 0 setBlock 64 = true ∧ passes run 0x21 0 setBlock 64 = true
    ∧ stopped.setAllowed 17 1 (fun h => leAt setBlock (4 + 4 * h.val) 4) = true ∧ run.setAllowed 17 1 (fun h => leAt setBlock (4 + 4 * h.val) 4) = false
    ∧ (17 : Nat).testBit 4 = true ∧ (17 : Nat).testBit 1 = false ∧ stopped.parts[(4 : Fin 8)].mode = .none ∧ stopped.parts[(0 : Fin 8)].mode ≠ .none ∧ startSize 17 0 ≠ stopped.partSize 0 := by
  decide +kernel
/-- A manifest of one region of 65,536 bytes with a number of 64 KiB as its OFFSET, at host address 0x3000, with a VAULT_INSTALL entry before it. -/
def manifest (units : Nat) : State :=
  asked (installing up) (lctx 5 0x30 true) (sqeP 0x30 3904 0) (toLE (0x54464E4D + 2 ^ 32 + 5 * 2 ^ 512 + units * 2 ^ 656 + 2 ^ 720 + 0x10000 * 2 ^ 768) 128)
/-- An installation in progress of given regions. -/
def install (rs : List Region) : State := { installing up with sec := { (installing up).sec with instActive := true, install := some ⟨5, rs, 0, 0⟩ } }
theorem wit_PartitionVaultAndStreamCommandsAct_vault :
    (∀ m ∈ [1, 2 ^ 32], taken (manifest m) (lctx 5 0x30 true) (sqeP 0x30 3904 0) .ok 0x30 none = true) ∧ (manifest 1).sec.owner = none := by
  decide +kernel
theorem wit_PartitionVaultAndStreamCommandsAct_regions :
    regionsBad (manifestRegions (readBytes (manifest 1).mem.host 0x3000 3904)) = false ∧ regionsBad (manifestRegions (readBytes (manifest (2 ^ 32)).mem.host 0x3000 3904)) = true := by
  unfold regionsBad vaultBytes
  cases Config.isA1 <;> decide +kernel
theorem wit_PartitionVaultAndStreamCommandsAct_done :
    (install []).sec.install = some ⟨5, [], 0, 0⟩ ∧ (install []).hostUp = true ∧ ((install []).modLarcy fun y => { y with up := false }).hostUp = false ∧ ((install []).writeRegions []).2.2 = true ∧ (install [⟨0, 0, 16, 0x100, 0, 0⟩]).sec.install = some ⟨5, [⟨0, 0, 16, 0x100, 0, 0⟩], 0, 0⟩ := by
  decide +kernel
/-- The descriptor of a decoder in HBM at 0x100. -/
def streamed : State := { run with mem := { run.mem with hbm := writeBytes [] 0x100 decDesc } }
/-- A running unit of the last context of engine 1, or none. -/
def media1 (d : List Byte) (r : Option (Fin 256)) (s : State) : State := s.modEngine 1 fun x => { x with ctxs := [mctx d], running := r }
theorem wit_PartitionVaultAndStreamCommandsAct_stream :
    passes streamed 0x50 (0x100 + 2 * 2 ^ 64) [] 0 = true ∧ passes run 0x50 (0x100 + 2 * 2 ^ 64) [] 0 = true
    ∧ (streamed.openMedia (some 5) 0x100 2).isOk = true ∧ (run.openMedia (some 5) 0x100 2).isOk = false
    ∧ passes run 0x51 511 [] 0 = true ∧ run.mediaCtx 1 255 = none ∧ passes (media1 decDesc (some 255) run) 0x51 (511 + 2 ^ 16) [] 0 = true
    ∧ passes (media1 decDesc none run) 0x51 511 [] 0 = true ∧ ((media1 decDesc none run).mediaCtx 1 255).map (·.owner) = some (some 5) ∧ (media1 decDesc none run).media[(1 : Fin 2)].running = none
    ∧ (let c := lctx 5 0x30 false; taken (asked (also none (media1 decDesc none run)) c (sqe 0x51 511) []) c (sqe 0x51 511) .ok 0x51 none = true) := by
  decide +kernel
theorem wit_PartitionVaultAndStreamCommandsAct_attest : passes up 0x40 0 [] 0 = true := by decide +kernel

/-- Context 5 with a completion and an event to post at the last place of its queue. -/
def posting : LCtx := { lctx 5 0x30 false with done := some ⟨9, 0x0702, 0x10, 0⟩, events := [⟨true, 0, 511⟩], cqTail := 15, cqHead := 1 }
/-- 256 resident contexts, and a last one that waits. -/
def crowded : State := { up with larcy := { up.larcy with ctxs := { lctx 4095 0x30 false with resident := false } :: (List.range 256).map (fun k => { lctx ⟨k % 4096, by omega⟩ 0x30 false with served := true }), waiting := [4095] } }
theorem wit_EntriesArePostedAndQueuesMove :
    (let s := asked up posting [] []; wfB s = true ∧ s.poster 5 = some posting ∧ s.hostUp = true ∧ posting.done.isSome = true ∧ posting.events = [⟨true, 0, 511⟩])
    ∧ (let s : State := { up with larcy := { up.larcy with ctxs := [{ lctx 4095 0x30 false with resident := false }], waiting := [4095] } }
      s.larcy.waiting = [4095] ∧ (s.ctx 4095).isSome = true ∧ (s.larcy.ctxs.filter (·.resident)).length < 256)
    ∧ up.larcy.waiting = [] ∧ up.larcy.d3hot = false ∧ (lctx 5 0x30 true).sqLog = 4 ∧ (0xF00F : BitVec 32).toNat % 4096 < 2 ^ 4 ∧ 2 ^ 4 ≤ (0xF010 : BitVec 32).toNat % 4096
    ∧ up.larcy.enable = false ∧ (0x80001000 : BitVec 32).getLsbD 31 = true ∧ bestVersion 0 ((0x80001000 : BitVec 32).toNat / 256 % 256) = some 0x10 ∧ bestVersion 0 ((0x80000F00 : BitVec 32).toNat / 256 % 256) = none
    ∧ (let s : State := { up with larcy := { up.larcy with ctxs := [lctx 0 0x30 true], enable := true } }; s.ctx 0 = some (lctx 0 0x30 true) ∧ (lctx 0 0x30 true).closing = []) := by
  decide +kernel
theorem wit_EntriesArePostedAndQueuesMove_crowded : crowded.larcy.waiting = [4095] ∧ 256 ≤ (crowded.larcy.ctxs.filter (·.resident)).length ∧ crowded.victim.isSome = true := by decide +kernel
/-! Witnesses: media engines, packets, pairs and links -/

/-- A frame of module 9 from its link 127 to link 127 of this module, for the job of `run`. -/
def frame (type : BitVec 4) (dst : BitVec 9) (space : BitVec 3) (a : BitVec 48) (bs : List Byte) : Frame where
  srcLink := 127
  dstMac := 0x0AEB0000007F
  etherType := 0x9A27
  tagged := false
  fcsOk := true
  crcOk := true
  tagOk := true
  type := type
  ver := 1
  vc := 7
  last := true
  srcMod := 9
  dstMod := 0
  psn := 0xFFFFFFFF
  ackPsn := 0
  dstAddr := a
  dstCore := dst
  dstSpace := space
  tokenId := 63
  tokenCore := 0
  tv := false
  srcCore := 1
  msgId := 0
  jobTag := 0x1234
  pktIndex := 0
  epoch := 0
  payload := bs
/-- The pair of that link with module 9, which expects counter 2^32 - 1. -/
def pair (ver : BitVec 2) (unacked : List TxPkt) : LinkPair := ⟨127, 9, 7, true, false, false, ver, some 1, some 2, 0, 0, 0, 0, 3, 0, unacked, 0, 0, 0xFFFFFFFF, [], 7, some 4, 0, 0⟩
/-- A packet of core 0 that has left and is not acknowledged. -/
def tx (ctr : Nat) : TxPkt := ⟨ctr, 1, 2, true, 0, 0, 1, 0, 0, false, 0, 0, 0x1234, 0, 0, [1], true, 0, none, 0, none⟩
/-- A state whose link 127 is up and has the pair. -/
def linked (p : LinkPair) (s : State) : State := s.modFab fun x => { x with links := x.links.set 127 ⟨.up, 3, 3, 7, 0, 0⟩, pairs := [p] }
/-- A state with one context of an engine, its descriptor's counters and one record in its ring. -/
def ringed (d : List Byte) (c : MediaCtx → MediaCtx) (r : Option (Fin 256)) (cells : List Host.Cell) : State :=
  { run.modEngine 1 fun x => { x with ctxs := [c (mctx d)], running := r } with mem := { run.mem with hbm := cells } }
/-- The headers of a frame of `encDesc`: BF16, CB32, each with its tile index. -/
def frameCells : List Host.Cell := (List.range 66).flatMap fun i => (0x200000 + i * 8256, 0x11) :: if i = 0 then [] else [(0x200014 + i * 8256, BitVec.ofNat 8 i)]
theorem wit_MediaUnitsRunInTurn :
    up.pickMedia 1 = none ∧ up.media[(1 : Fin 2)].running = none
    ∧ (let s := ringed decDesc id none [(0x4000C0, 16)]; ((s.mediaCtx 1 255).map (·.bandsLeft)) = some 0 ∧ mEncode decDesc = false ∧ (mctx decDesc).emits = false ∧ (s.nextUnit (s.seen (mctx decDesc))).isSome = true ∧ s.ringLost (mctx decDesc) 0 16 = false)
    ∧ (let s := ringed decDesc (fun c => { c with bandsLeft := 2 }) none []; (s.pickMedia 1).map (·.1) = some 255 ∧ ((s.mediaCtx 1 255).map (·.bandsLeft)) = some 2)
    ∧ mEncode encDesc = true
    ∧ (let s := ringed encDesc (fun c => { c with bandsLeft := 1 }) (some 255) []; s.media[(1 : Fin 2)].running = some 255 ∧ ((s.mediaCtx 1 255).map (·.bandsLeft)) = some 1)
    ∧ (let s := ringed decDesc (fun c => { c with bandsLeft := 1, bsSeen := 16 }) (some 255) []; ((s.mediaCtx 1 255).map fun c => (c.discarding, (s.nextUnit c).isSome)) = some (false, true))
    ∧ (let s := ringed decDesc (fun c => { c with bandsLeft := 2 }) (some 255) []; ((s.mediaCtx 1 255).map (·.bandsLeft)) = some 2)
    ∧ (mctx decDesc).pendingStatus = none ∧ (mctx decDesc).close = none := by
  decide +kernel
/-- A decoder with a unit in its ring and a free slot is ready. -/
theorem ready_dec (s : State) (c : MediaCtx) (h1 : mEncode (s.seen c).desc = false) (h2 : (s.seen c).emits = false) (h3 : (s.seen c).bandsLeft = 0) (h4 : (s.nextUnit (s.seen c)).isSome = true)
    (h5 : (s.seen c).slotRoom = true) : s.mediaReady c = true := by
  simp [State.mediaReady, h1, h2, h3, h4, h5]
/-- The one ready context of an engine, of the batch class, has its turn. -/
theorem pick_one (s : State) (e : Fin 2) (c : MediaCtx) (t : Fin 256 × Nat) (h : s.media[e].ctxs = [c]) (hl : mLive c.desc = false) (hr : s.mediaReady c = true) (ht : nextTurn [] s.media[e].liveTurn = none)
    (hb : nextTurn [(c.id, mWeight c.desc)] s.media[e].batchTurn = some t) : (s.pickMedia e).map (·.1) = some t.1 := by
  have h1 : ([c].filter fun c => decide (mLive c.desc = true) && s.mediaReady c) = [] := by simp [hl]
  have h2 : ([c].filter fun c => decide (mLive c.desc = false) && s.mediaReady c) = [c] := by simp [hl, hr]
  simp only [State.pickMedia, h, h1, h2, List.map_nil, List.map_cons, ht, hb, Option.map_some]
theorem wit_MediaUnitsRunInTurn_pick : ((ringed decDesc id none [(0x4000C0, 16)]).pickMedia 1).map (·.1) = some 255 :=
  pick_one _ 1 (mctx decDesc) (255, 0) rfl (by decide +kernel) (ready_dec _ _ (by decide +kernel) (by decide +kernel) (by decide +kernel) (by decide +kernel) (by decide +kernel)) (by decide +kernel) (by decide +kernel)
theorem wit_MediaUnitsRunInTurn_pickEnc : ((ringed encDesc id none (frameCells ++ [(0x4000C8, 1)])).pickMedia 1).map (·.1) = some 255 := by
  decide +kernel
/-- That frame and the tensor counter of its context. -/
def framed : State := ringed encDesc id none (frameCells ++ [(0x4000C8, 1)])
/-- A frame whose tiles are read, without regions of interest, is read. -/
theorem readFrame_ok (s : State) (c : MediaCtx) (t : Desc) (ht : slotDesc (mTensor c.desc) (c.tsPtr.toNat % mSlots c.desc) = t) (hr : mRoi c.desc = 0)
    (hm : ((winTiles t).mapM fun x => (readWinTile admitAll ⟨[], [], s.mem, [], []⟩ t x.1 x.2 false).map fun y => (x, y)).isOk = true) : (s.readFrame c).isOk = true := by
  unfold State.readFrame
  simp only [ht, hr]
  revert hm
  cases (winTiles t).mapM fun x => (readWinTile admitAll ⟨[], [], s.mem, [], []⟩ t x.1 x.2 false).map fun y => (x, y) with
  | error e => intro h; cases h
  | ok ts => intro _; simp only [ne_eq, not_true_eq_false, false_and, if_false, if_true]; rfl
/-- The tensor of `encDesc`. -/
def encTensor : Desc := 9173994463960286079266617184282988011326525750031283414832301760192221242687718152648304609989249885798417
theorem wit_MediaUnitsRunInTurn_frame : (framed.readFrame (framed.seen (mctx encDesc))).isOk = true :=
  readFrame_ok _ _ encTensor (by decide +kernel) (by decide +kernel) (by decide +kernel)
/-- One billet of a run for a slot of core 511. -/
def runFrame : Frame := frame 2 511 1 0 (runBytes (aRun 4 0))
theorem wit_DataPacketsAct :
    (∀ f ∈ [frame 1 511 1 0x3FFFFF [7], frame 1 0 0 0x1FFFFFFFFFF [7], runFrame, frame 3 0 1 255 []], let s := linked (pair 1 []) run
      s.frameOk 127 f = true ∧ s.framePair 127 f = some (pair 1 []) ∧ nearest (pair 1 []).rxNext f.psn.toNat = (pair 1 []).rxNext ∧ f.tagOk = true ∧ s.rxWaiting 127 f.vc = [] ∧ (f.type = 1 ∨ f.type = 2 → (s.applyData f).isOk = true)
      ∧ s.tagCheck (s.destPart f.dstCore f.dstSpace f.dstAddr.toNat) f.jobTag = .ok 0)
    ∧ wfB (linked (pair 1 []) run) = true ∧ run.frameOk 127 (frame 1 0 1 0 []) = false ∧ (linked (pair 1 []) run).frameOk 127 { frame 1 0 1 0 [] with crcOk := false } = false
    ∧ (linked { pair 1 [] with up := false } run).framePair 127 (frame 1 0 1 0 []) = none ∧ nearest 0xFFFFFFFF 0xFFFFFFFE < 0xFFFFFFFF ∧ { frame 1 0 1 0 [] with tagOk := false }.tagOk = false
    ∧ parseRun runFrame.payload = some (aRun 4 0) ∧ (aRun 4 0).kind = 1 ∧ coreId runFrame.dstCore.toNat = 511 ∧ (run.core 511).stageRoom (aRun 4 0) = true ∧ (run.core 0).member = true ∧ (run.core 511).member = false := by
  decide +kernel
/-- The refusal of a packet. -/
def nakOf {α : Type} (x : Except Nak α) : Option Nak := match x with
  | .error n => some n
  | .ok _ => none
theorem wit_DataPacketsAct_refused :
    (let s := (linked (pair 1 []) run).modPart 0 fun p => { p with task := none }; nakOf (s.dataCheck (frame 1 0 1 0 [7])) = some .denied ∧ nakOf (s.dataCheck runFrame) = some .denied ∧ nakOf (s.tagCheck (s.partOfCore 0) 0x1234) = some .denied)
    ∧ (let s := (linked (pair 1 []) run).modTask 0 fun t => { t with ending := some (ending 1) }; nakOf (s.dataCheck (frame 1 0 1 0 [7])) = some .ended ∧ (ending 1).at_ ≠ s.now)
    ∧ (linked (pair 1 []) run).destPart 0 1 0 = some 0 ∧ task.job.tag = 0x1234 ∧ task.ending = none ∧ { task with ending := some (ending 1) }.ending ≠ none
    ∧ ({ run.core 0 with stage := List.replicate 1171 ⟨aRun 4 0, none, false⟩ } : Core).stageRoom (aRun 4 0) = false := by
  decide +kernel
/-- A control message. -/
def ctrl (kind : Nat) (dst : BitVec 9) : Frame := frame 6 dst 0 0 (toLE kind 24)
theorem wit_AcknowledgementsAndControlMessagesAct :
    (∀ f ∈ [{ frame 4 0 0 0 [] with ackPsn := 2 }, frame 5 0 0 1 [], frame 5 0 0 (1 + 2 ^ 40) [], frame 5 0 0 (1 + 2 * 2 ^ 40) [], frame 5 0 0 (1 + 3 * 2 ^ 40) []], let s := linked (pair 1 [tx 1, tx 2]) run
      s.frameOk 127 f = true ∧ s.framePair 127 f = some (pair 1 [tx 1, tx 2]) ∧ f.tagOk = true ∧ (f.type = 5 → nearest 1 (f.dstAddr.toNat % 2 ^ 32) = 1))
    ∧ (pair 1 [tx 1, tx 2]).unacked.find? (fun y => y.left && decide (y.ctr = 1)) = some (tx 1) ∧ (let v := (linked (pair 1 [tx 1, tx 2]) run).dropPkt 127 (pair 1 [tx 1, tx 2]) 1; v.jobTag 0 = (tx 1).jobTag ∧ v.partHeld (v.partOfCore 0) = true ∧ coreId (tx 1).srcCore.toNat = 0)
    ∧ (pair 1 [tx 1, tx 2]).resends < 8 ∧ 8 ≤ { pair 1 [tx 1, tx 2] with resends := 8 }.resends ∧ (((pair 1 [tx 1, tx 2]).unacked.filter fun x => x.left && decide (1 ≤ x.ctr)).head?.map (·.ctr)) = ((pair 1 [tx 1, tx 2]).unacked.find? (·.left)).map (·.ctr)
    ∧ (∀ k ∈ (pair 1 [tx 1, tx 2]).unacked, ¬(k.left = true ∧ k.ctr < 1)) ∧ run.frameOk 127 (frame 4 0 0 0 []) = false
    ∧ (∀ f ∈ [ctrl 1 1, ctrl 2 1, ctrl 4 0, ctrl 5 0, ctrl 6 0], let s := linked (pair 1 []) run
      s.frameOk 127 f = true ∧ s.framePair 127 f = some (pair 1 []) ∧ nearest (pair 1 []).rxNext f.psn.toNat = (pair 1 []).rxNext ∧ (pair 1 []).rxAhead = [] ∧ f.tagOk = true ∧ (pair 1 []).version = 1 ∧ f.type = 6
      ∧ s.holdsTag (coreId f.dstCore.toNat) f.jobTag = true ∧ s.partOfTag f.jobTag = some 0) := by
  decide +kernel
/-- Core 1 with a collective of group 0 whose data come from core 1 of module 9. -/
def awaiting (sign : W32) : State :=
  linked (pair 1 []) (run.modCore 1 fun c => { c with colls := [{ coll 64 true with srcMod := 9, srcCore := 1, rtsGot := false, desc := (coll 64 true).desc ^^^ sign.setWidth 512 <<< 96 }] })
theorem wit_ControlMessages_rts :
    (let r : Rts := ⟨0, 0, 0, 0, 9, 1⟩; (∀ x ∈ [awaiting 0, awaiting 64], (x.core 1).colls.any (fun c => c.awaits r) = true ∧ ((x.matchRts 1 ((x.core 1).colls.headD (coll 0 true)) r).findPair 127 9 7).isSome = true)
      ∧ ((awaiting 0).core 1).colls.any (fun c => decide (collSign c.desc c.opc ≠ r.sign)) = true)
    ∧ (∀ c ∈ (run.core 1).colls, c.awaits ⟨0, 0, 0, 0, 9, 1⟩ = false) ∧ (run.core 1).rts.length < 64 ∧ 64 ≤ ({ run.core 1 with rts := List.replicate 64 ⟨0, 0, 0, 0, 9, 1⟩ } : Core).rts.length
    ∧ (((linked (pair 1 []) run).ctsArrive 1 0 0 0 0 0).findPair 127 9 7).isSome = true
    ∧ ((((linked (pair 1 []) run).modPart 0 fun x => { x with rounds := x.rounds ++ [(0x1234, 0, 0, 0, 9)] }).pumpRounds 0).findPair 127 9 7).isSome = true
    ∧ (let s := linked (pair 1 []) (up.modPart 0 fun p => { p with be := [{ job with id := 8 }] }); s.partOfTag 0x1234 = none ∧ ((s.parts.toList.flatMap fun y => y.lc ++ y.be).find? (fun y => decide (y.tag = 0x1234))).map (·.id) = some 8) := by
  decide +kernel
/-- A module-pair agreement with module 9. -/
def agree (initiator agreed : Bool) : Secret := ⟨9, agreed, false, initiator, 3, 0, [], 0, 0⟩
/-- The state of `linked` with an agreement. -/
def met (x : Secret) (p : LinkPair) : State := (linked p run).modFab fun y => { y with secrets := [x] }
theorem wit_AgreementAndPairTimersAct :
    (∀ f ∈ [ctrl 0x10 0, ctrl 0x11 0, ctrl 0x12 0, frame 6 0 0 0 (toLE 0x13 20)], (linked (pair 1 []) run).frameOk 127 f = true ∧ (met (agree true false) (pair 1 [])).frameOk 127 f = true ∧ run.frameOk 127 f = false)
    ∧ ctrlKind (ctrl 0x10 0) = 0x10 ∧ ctrlKind (ctrl 0x11 0) = 0x11 ∧ ctrlKind (ctrl 0x12 0) = 0x12 ∧ ctrlKind (frame 6 0 0 0 (toLE 0x13 20)) = 0x13 ∧ ((toLE 0x13 20).drop 4).length = 16
    ∧ (met (agree true false) (pair 1 [])).secretOf 9 = some (agree true false) ∧ run.fab.moduleId.toNat < (9 : BitVec 16).toNat ∧ (linked (pair 1 []) run).secretOf 9 = none ∧ ((ctrl 0x10 0).payload.drop 4).length ≠ 4972
    ∧ ((ctrl 0x11 0).payload.drop 4).length ≠ 7296 ∧ (met (agree false false) (pair 1 [])).secretOf 9 = some (agree false false)
    ∧ (met (agree true true) (pair 1 [])).secretOf 9 = some (agree true true) ∧ (agree true true).agreed = true ∧ (linked (pair 1 []) run).findPair 127 9 7 = some (pair 1 [])
    ∧ linkHearth (frame 6 0 0 0 []).srcLink = 7 := by
  decide +kernel
theorem wit_AgreementAndPairTimersAct_long (b : Byte) : let f := frame 6 0 0 0 (List.replicate 4976 b); (f.payload.drop 4).length = 4972 ∧ ((frame 6 0 0 0 (List.replicate 7300 b)).payload.drop 4).length = 7296 := by
  exact ⟨(List.length_drop ..).trans (by rw [frame, List.length_replicate]), (List.length_drop ..).trans (by rw [frame, List.length_replicate])⟩
theorem wit_PairTimers :
    (∀ v ∈ [false, true], let p : LinkPair := { pair 1 [tx 1] with up := false, noVersion := v }
      (met (agree true true) p).findPair 127 9 7 = some p ∧ (met (agree true true) p).secretOf 9 = some (agree true true) ∧ (met (agree true true) p).fab.stalled = [] ∧ (met (agree true true) p).fab.links[(127 : Fin 128)].mode = .up ∧ p.nonce.isSome = true ∧ p.peerNonce.isSome = true)
    ∧ (pair 1 [tx 1]).up = true ∧ (pair 1 [tx 1]).rxSince = some 4 ∧ (pair 1 [tx 1]).unacked.find? (·.left) = some (tx 1) ∧ (pair 1 [tx 1]).resends < 8 ∧ 8 ≤ { pair 1 [tx 1] with resends := 8 }.resends
    ∧ (pair 1 [{ tx 1 with busyAt := some 6 }]).unacked.find? (fun y => y.busyAt.isSome) = some { tx 1 with busyAt := some 6 } := by
  decide +kernel
/-- The last link in a mode. -/
def linkAt (m : LinkMode) (t : BitVec 2) : State := run.modFab fun x => { x with links := x.links.set 127 ⟨m, 0, t, 7, 0, 0⟩ }
theorem wit_LinksTrainAndFail :
    (linkAt .training 1).fab.links[(127 : Fin 128)] = ⟨.training, 0, 1, 7, 0, 0⟩ ∧ (linkAt .training 0).fab.links[(127 : Fin 128)].tryMode = 0 ∧ (linkAt .up 3).fab.links[(127 : Fin 128)].mode = .up
    ∧ (linkAt .fenced 0).fab.links[(127 : Fin 128)].mode ≠ .up ∧ (linkAt .fenced 0).fab.links[(127 : Fin 128)].mode ≠ .training := by
  decide +kernel
/-- Stack 31 with a level, its corrected reads of a row, and a mode. -/
def stack31 (l : Fin 4) (n : Nat) (m : StackMode) (s : State) : State := s.modStack 31 fun k => { k with level := l, corrected := [(4, 5, n)], mode := m }
theorem wit_StacksAreWatched :
    stackHearth 31 = 7 ∧ run.partOf 7 = some 0 ∧ ((stack31 0 0 .inService run).mem.stk[(31 : Fin 32)]).mode = .inService
    ∧ nextLevel 0 40 = 0 ∧ nextLevel 0 209 = 3 ∧ nextLevel 3 40 = 2 ∧ nextLevel 2 40 = 1 ∧ (209 : Nat) < 210
    ∧ (up.parts[(0 : Fin 8)]).mode = .idle ∧ run.parts[(0 : Fin 8)].task = some task ∧ task.ending = none
    ∧ (∃ j : Fin 32, stackHearth j = 7 ∧ ((stack31 2 0 .inService run).mem.stk[j]).mode = .inService ∧ 2 ≤ ((stack31 2 0 .inService run).mem.stk[j]).level.val)
    ∧ run.hbmServed 0x1FFFFFFFFFF = true ∧ run.live 0 = true ∧ run.mem.replays = [] ∧ run.mem.lost 64 1 = false
    ∧ ((stack31 0 0 .inService run).mem.stk[(31 : Fin 32)]).hot = false ∧ (let s := ({ run with now := 10000000 } : State).modStack 31 fun k => { k with mode := .quenched, hot := true, stoppedAt := some 1 }; (s.mem.stk[(31 : Fin 32)]).hot = true ∧ s.stoppedThisPeriod s.mem.stk[(31 : Fin 32)] = false ∧ (s.mem.stk[(31 : Fin 32)]).mode = .quenched)
    ∧ (let s := run.modStack 31 fun k => { k with repair := some ⟨8500, 0, true, 0, []⟩ }; ((s.mem.stk[(31 : Fin 32)]).repair.map fun y => decide (s.now < y.till)) = some true) := by
  refine ⟨?_, ?_, ?_, ?_, ?_, ?_, ?_, ?_, ?_, rfl, ?_, ⟨31, by decide +kernel⟩, ?_⟩ <;> decide +kernel
theorem wit_StacksAreWatched_rows :
    (∀ r ∈ [HbmReader.core 0, .host], let s : State := { run with mem := { run.mem with replays := [⟨r, 64, 1⟩] } }
      s.mem.replays.find? (fun y => decide (y.reader = r) && decide (y.addr = 64)) = some ⟨r, 64, 1⟩ ∧ s.hbmServed 64 = true)
    ∧ ({ run with mem := { run.mem with badHbm := [16] } } : State).mem.lost 64 1 = true
    ∧ ((stack31 0 2 .inService run).mem.stk[(31 : Fin 32)]).correctedOf 4 5 ≠ 3 ∧ ((stack31 0 3 .inService run).mem.stk[(31 : Fin 32)]).correctedOf 4 5 = 3
    ∧ run.mem.repairLog.length < 4096 ∧ ((stack31 0 0 .fenced run).mem.stk[(31 : Fin 32)]).mode = .fenced
    ∧ 4096 ≤ (List.replicate 4096 (⟨0, 0, 0⟩ : RowRec)).length ∧ (⟨31, 4, 5⟩ : RowRec) ∉ List.replicate 4096 (⟨0, 0, 0⟩ : RowRec) := by
  refine ⟨?_, ?_, ?_, ?_, ?_, ?_, by rw [List.length_replicate], fun h => absurd (List.eq_of_mem_replicate h) (by decide)⟩ <;> decide +kernel
/-- A secure job runs; the window shows H0. -/
def windowed (secure : Bool) : State :=
  { run.modTask 0 fun t => { t with job := { t.job with secure := secure } } with mem := { run.mem with hdmBase := 1, hdmSize := 2047 } }
theorem wit_HostPortActs :
    wfB (windowed false) = true ∧ (windowed false).hostUp = true ∧ (64 : Nat) < (windowed false).mem.hdmSize.toNat * 2 ^ 30 ∧ (windowed false).hdmSecret (2 ^ 30 + 64) = false ∧ (windowed false).hbmServed (2 ^ 30 + 64) = true
    ∧ (windowed true).hdmSecret (2 ^ 30 + 64) = true ∧ run.mem.hdmSize.toNat * 2 ^ 30 ≤ 64
    ∧ ({ windowed false with glb := { run.glb with hrtPresent := 0xFE } } : State).hbmServed (2 ^ 30 + 64) = false ∧ ({ windowed false with glb := { run.glb with hrtPresent := 0xFE } } : State).hdmSecret (2 ^ 30 + 64) = false
    ∧ (up.modLarcy fun y => { y with proto := 4 }).larcy.up = true ∧ up.larcy.up = true ∧ State.reset.larcy.up = false
    ∧ (let s := (up.modLarcy fun y => { y with up := false }).modPin .hostPerstN fun f => { f with level := true }
      s.canTrain = true ∧ min (HostOffer.mk 6 31 15).rate.toNat (maxRate 6) ≠ 0 ∧ bestWidth 31 ≠ 0) := by
  decide +kernel
/-! Witnesses: pins, start-up, registers, check units -/

/-- The reset input with a filter. -/
def filtered (f : Filter) : State := run.modPin .resetN fun _ => f
theorem wit_PinsAndRailsAct :
    ({ run with pwr := { run.pwr with inputOk := false } } : State).pwr.inputOk = false ∧ run.pwr.railsOn = true ∧ run.pwr.inputOk = true
    ∧ (∀ p ∈ [Pin.pwrGood, .resetN, .hostPerstN, .throttleN], ∃ level, (run.pwr.pins[pinIndex p]).level ≠ level ∧ (run.pwr.pins[pinIndex p]).racing = false ∧ (run.pwr.pins[pinIndex p]).holdUntil = none
      ∧ ((run.pwr.pins[pinIndex p]).take level run.now).changes.length ≤ 16)
    ∧ (∀ b ∈ [false, true], let f : Filter := ⟨!b, none, List.replicate 16 900, false⟩
      ((filtered f).pwr.pins[pinIndex .resetN]) = f ∧ 16 < (f.take b 1000).changes.length ∧ f.level ≠ b)
    ∧ (filtered ⟨true, some 2000, [], false⟩).pwr.pins[pinIndex .resetN] = ⟨true, some 2000, [], false⟩ ∧ (filtered ⟨true, none, [], true⟩).pwr.pins[pinIndex .resetN] = ⟨true, none, [], true⟩ := by
  decide +kernel
/-- The state after reset once its slow inputs are high, and a start under way. -/
def powered : State := State.reset
def starting : State := { State.reset with pwr := { Power.reset with phase := .starting }, sec := { Security.reset with fwOk := true } }
theorem wit_StartUpAndThermalTripAct :
    powered.canStart = true ∧ powered.sec.fwOk = false ∧ powered.fwSlotStatus false ≠ 0 ∧ powered.fwSlotStatus true ≠ 0 ∧ up.canStart = false
    ∧ starting.pwr.phase = .starting ∧ starting.sec.fwOk = true ∧ (∃ h, starting.startFence ⟨3, 0xFF, 0x0000000F⟩ h = none) ∧ (∃ h, (starting.startFence ⟨3, 0xFF, 0x0000000F⟩ h).isSome = true) ∧ (∀ h, (starting.startFence ⟨3, 0, 0⟩ h).isSome = true)
    ∧ up.pwr.phase ≠ .starting ∧ up.pwr.dieTrip = false ∧ up.pwr.phase = .ready ∧ run.parts[(0 : Fin 8)].task = some task ∧ task.ending = none ∧ up.parts[(0 : Fin 8)].task = none ∧ up.parts[(0 : Fin 8)].mode ≠ .none := by
  refine ⟨?_, ?_, ?_, ?_, ?_, ?_, ?_, ⟨0, by decide +kernel⟩, ⟨7, by decide +kernel⟩, ?_, ?_, ?_, ?_, rfl, rfl, ?_, ?_⟩ <;> decide +kernel
/-- D3hot; an entry 5 in the event log. -/
def asleep : State := up.modLarcy fun y => { y with d3hot := true }
def logged : State := { up with glb := { up.glb with evlog := [BitVec.ofNat 256 (5 * 2 ^ 64)] } }
theorem wit_RegisterWritesAct :
    asleep.larcy.d3hot = true ∧ up.larcy.d3hot = false ∧ run.larcy.d3hot = false ∧ up.jobHeld = false ∧ run.jobHeld = true
    ∧ (0x00 : BitVec 32).toNat / 16 % 16 = 0 ∧ 8 < (0x90 : BitVec 32).toNat / 16 % 16 ∧ (0x80 : BitVec 32).toNat / 16 % 16 = 8 ∧ startOk (1 + 2 * ((0x10 : BitVec 32).toNat / 2 % 128)) = true
    ∧ startOk (1 + 2 * ((0x08 : BitVec 32).toNat / 2 % 128)) = false ∧ startOk 17 = true ∧ run.layoutOk 17 = false ∧ stopped.layoutOk 17 = true
    ∧ 2048 < (0x07FF0002 : BitVec 32).toNat / 2 ^ 16 % 2 ^ 12 + (0x07FF0002 : BitVec 32).toNat % 2 ^ 12 ∧ (0x07FF0001 : BitVec 32).toNat / 2 ^ 16 % 2 ^ 12 ≤ 2047
    ∧ (∃ p ∈ (linked (pair 1 []) run).fab.pairs, p.up = true) ∧ (∀ p ∈ run.fab.pairs, p.up = false) := by
  decide +kernel
theorem wit_RegisterWritesAct_more :
    (let hi := writeWeights up.fab.vcHi 0x02020202; let ws := [0, 8, 16, 24].map (weightAt up.fab.vcLo) ++ [0, 8, 16, 24].map (weightAt hi); ws.sum = 64 ∧ 1 ≤ ws.headD 0)
    ∧ (let hi := writeWeights up.fab.vcHi 0x02020203; let ws := [0, 8, 16, 24].map (weightAt up.fab.vcLo) ++ [0, 8, 16, 24].map (weightAt hi); ws.sum ≠ 64)
    ∧ logged.glb.evAt ≠ logged.now ∧ logged.evShown.find? (fun (y : BitVec 256) => decide ((y >>> 64).setWidth 32 = (5 : BitVec 32))) = some (BitVec.ofNat 256 (5 * 2 ^ 64)) ∧ (logged.evShown.all fun y => !decide ((y >>> 64).setWidth 32 = (6 : BitVec 32))) = true
    ∧ up.glb.hrtPresent.getLsbD 7 = true ∧ up.sec.fwBusy = false ∧ (∀ p : Fin 8, stopped.parts[p].mode = .none ∨ stopped.parts[p].mode = .stopped) ∧ (∃ p : Fin 8, up.parts[p].mode ≠ .none ∧ up.parts[p].mode ≠ .stopped)
    ∧ up.sec.instActive = false ∧ (install []).sec.instActive = true ∧ ({ up with sec := { up.sec with fwBusy := true } } : State).sec.fwBusy = true ∧ up.hostUp = true ∧ parseFw (readBytes up.mem.host 0 64) = none := by
  refine ⟨?_, ?_, ?_, ?_, ?_, ?_, ?_, ?_, ⟨0, by decide +kernel⟩, ?_, ?_, ?_, ?_, ?_⟩ <;> decide +kernel
/-- The last slot with a queue. -/
def chk255 (q : List (ChkReg × W32)) : State := up.modChk 255 fun c => { c with queue := q }
theorem wit_CheckUnitsCompute :
    asleep.larcy.d3hot = true ∧ (stack31 0 0 .fenced { up with glb := { up.glb with hrtPresent := 0x7F } }).chkServed 255 = false ∧ chkWritable .count = false ∧ up.chkServed 255 = true ∧ chkWritable .data8 = true
    ∧ (chk255 (List.replicate 15 (.data8, 1))).chk[(255 : Fin 256)].queue = List.replicate 15 (.data8, 1) ∧ chkFree (.data8, 1) = false ∧ (List.replicate 15 ((.data8, 1) : ChkReg × W32)).length < 16 ∧ (chk255 []).chk[(255 : Fin 256)].queue = []
    ∧ (chk255 [(.ctl, 0x100)]).chk[(255 : Fin 256)].queue = [(.ctl, 0x100)] ∧ (0x100 : BitVec 32).getLsbD 8 = true
    ∧ (∀ r ∈ [ChkReg.data8, .data16, .data32, .valLo, .valHi], (chk255 [(r, 7)]).chk[(255 : Fin 256)].queue = [(r, 7)])
    ∧ up.snoop[(15 : Fin 16)].results = [] ∧ ({ up with snoop := up.snoop.set 15 ⟨none, 0, 0, [7]⟩ } : State).snoop[(15 : Fin 16)].results = [7] := by
  decide +kernel
/-! Ill-formed commands, one for each check -/

/-- What `Instr.wf` refuses. -/
def illFormed : List Instr :=
  [.billetRunArrive 0 { aRun 4 0 with elems := [] }, .billetRunArrive 0 { aRun 4 0 with first := 8192 }, .billetRunArrive 0 { aRun 4 0 with null := true }, .billetRunArrive 0 { aRun 4 0 with kind := 3 },
   .billetRunArrive 0 { aRun 0 0 with kind := 2 }, .billetRunArrive 0 { aRun 0 0 with kind := 2, null := true, ta := 0, tb := 0 },
   .writeReceive 0 (frame 2 0 0 0 []), .reduceReceive 0 (frame 1 0 0 0 []), .signalPacketReceive 0 (frame 4 0 0 0 []), .ackReceive 0 (frame 5 0 0 0 []), .nakReceive 0 (frame 4 0 0 0 []),
   .writeReceive 0 (frame 1 0 0 0 (List.replicate 4097 0)), .rtsReceive 0 (ctrl 2 0), .ctsReceive 0 (ctrl 1 0), .delayReceive 0 (ctrl 5 0), .barrierReceive 0 (ctrl 4 0), .endNoticeReceive 0 (ctrl 1 0),
   .hello 0 (ctrl 0x11 0), .accept 0 (ctrl 0x12 0), .finish 0 (ctrl 0x13 0), .pair 0 (ctrl 0x10 0), .hello 0 { ctrl 0x10 0 with type := 1 }]
def illFormed2 : List Instr :=
  [.bmapClr 0 0 1, .context0Open 0x7FFFFFFF, .context0Close 0x80000000, .hbmReadReplay .host 0x20000000000 true, .rowRepair ⟨0, 0, 0, 0x20000000000, true, true⟩, .hostHdmRead 0 0, .hostHdmRead 63 2, .hostHdmWrite 0 [],
   .hp0LinkUp ⟨0, 16, 3⟩, .hp0LinkUp ⟨7, 16, 3⟩, .hp0LinkUp ⟨3, 3, 3⟩, .hp0LinkUp ⟨3, 16, 0⟩, .fwUpdateGo 2, .registerWrite 0 3 0, .registerWrite 0x3FFFFFD 4 0, .registerWrite 0 1 256]
theorem test_illFormed_refused : ((illFormed ++ illFormed2).all fun c => !c.wf) = true := by decide +kernel
theorem test_wellFormed_admitted :
    ([.billetRunArrive 0 (aRun 4 0), .writeReceive 0 (frame 1 0 0 0 [1]), .rtsReceive 0 (ctrl 1 0), .hello 0 (ctrl 0x10 0), .bmapClr 0 0 2, .context0Open 0x80000000, .hbmReadReplay .host 0x1FFFFFFFFFF true, .hostHdmRead 62 2,
      .hp0LinkUp ⟨6, 8, 3⟩, .fwUpdateGo 1, .registerWrite 0x3FFFFFC 4 0xFFFFFFFF, .startupBegin] : List Instr).all Instr.wf = true := by decide +kernel
/-- No row of the table has bits. -/
theorem test_table_words_spell_no_command (nbits w : Nat) : decodeTableWord nbits w = none ∧ run.withFetchWord nbits w = run := ⟨rfl, rfl⟩

/-! Single commands -/

/-- The register writes that a command of core 0 leaves outstanding. -/
def wrote (c : Instr) (s : State) : Option (List (Reg × RegVal)) := after c s fun t => (t.core 0).inflight.map fun w => (w.reg, w.val)
/-- `wrote` with s1 and s2 set. -/
def on12 (c : Instr) (a b : W64) : Option (List (Reg × RegVal)) := wrote c (on0 run (regs [a, b]))
/-- Sums wrap modulo 2^64 (R130). -/
theorem test_add_wraps : on12 (.add at0 3 1 2) 0xFFFFFFFFFFFFFFFF 2 = some [(.s 3, .s 1)] := by decide +kernel
theorem test_sub_borrows : on12 (.sub at0 3 1 2) 0 1 = some [(.s 3, .s 0xFFFFFFFFFFFFFFFF)] := by decide +kernel
/-- Shift amounts are the low 6 bits (R130). -/
theorem test_shl_amount : on12 (.shl at0 3 1 2) 1 65 = some [(.s 3, .s 2)] := by decide +kernel
theorem test_sra_sign : on12 (.sra at0 3 1 2) 0x8000000000000000 63 = some [(.s 3, .s 0xFFFFFFFFFFFFFFFF)] := by decide +kernel
theorem test_shr_zeros : on12 (.shr at0 3 1 2) 0x8000000000000000 63 = some [(.s 3, .s 1)] := by decide +kernel
theorem test_mulhu_high : on12 (.mulhu at0 3 1 2) 0xFFFFFFFFFFFFFFFF 0xFFFFFFFFFFFFFFFF = some [(.s 3, .s 0xFFFFFFFFFFFFFFFE)] := by decide +kernel
theorem test_min_signed : on12 (.min at0 3 1 2) 1 0xFFFFFFFFFFFFFFFF = some [(.s 3, .s 0xFFFFFFFFFFFFFFFF)] := by decide +kernel
theorem test_addi_negative : on12 (.addi at0 3 1 0xFFFFFFFF) 5 0 = some [(.s 3, .s 4)] := by decide +kernel
/-- LT is signed, LTU is not (R131); every lane of the predicate is written. -/
theorem test_cmp_signed : on12 (.cmp at0 7 2 1 2) 0xFFFFFFFFFFFFFFFF 0 = some [(.p 7, .p (BitVec.allOnes 256))] := by decide +kernel
theorem test_cmp_unsigned : on12 (.cmp at0 7 4 1 2) 0xFFFFFFFFFFFFFFFF 0 = some [(.p 7, .p 0)] := by decide +kernel
/-- A load of a store (R132). -/
theorem test_sst_stores : after (.sst at0 2 1 8) (on0 run (regs [0x100, 0x0102030405060708])) (fun t => readBytes (t.core 0).spad 0x108 8) = some [8, 7, 6, 5, 4, 3, 2, 1] := by decide +kernel
theorem test_sld_loads : wrote (.sld at0 3 1 0) (on0 run fun c => spad 0x100 [1, 2] (regs [0x100] c)) = some [(.s 3, .s 0x201)] := by decide +kernel
/-- A misaligned address ends the task with ADDRESS_INVALID (R132). -/
theorem test_sld_misaligned : after (.sld at0 3 1 4) (on0 run (regs [0x100])) (fun t => (t.core 0).stat.faultStatus) = some 0x0108 := by decide +kernel
/-- A write of s0 is discarded once it takes effect (R127). -/
theorem test_s0_stays_zero : after (.scoreboardClear 0 (.s 0)) (on0 run fun c => { c with inflight := [wr (.s 0) (.s 7)] }) (fun t => ((t.core 0).getS 0, (t.core 0).inflight)) = some (0, []) := by decide +kernel
/-- A value in every lane. -/
def lanes (x : W32) : VReg := Vector.replicate 256 x
/-- Lane 255 of the vector that a command writes, with v1 and v2 set. -/
def lane255 (c : Instr) (a b : W32) : Option (List W32) :=
  after c (on0 run fun k => { k with v := (k.v.set 1 (lanes a)).set 2 (lanes b) }) fun t => (t.core 0).inflight.filterMap fun w => match w.val with
    | .v x => some x[(255 : Fin 256)]
    | _ => none
/-- FP32 1.5 + 2.25 = 3.75. -/
theorem test_vadd : lane255 (.vadd at0 3 1 2) 0x3FC00000 0x40100000 = some [0x40700000] := by decide +kernel
/-- 2^-149 × 0.5 lies half-way between 0 and 2^-149 and goes to even (R151). -/
theorem test_vmul_ties_to_even : lane255 (.vmul at0 3 1 2) 1 0x3F000000 = some [0] := by decide +kernel
/-- The check values of R489's table, of the nine bytes "123456789". -/
theorem test_crc_check_values :
    [0, 1, 2, 3].map (fun p : BitVec 2 => crcResult p (crcBytes p (crcInit p) (ascii "123456789"))) = [0xE3069283, 0xCBF43926, 0x995DC9BBDF1939FA, 0x29B1] := by decide +kernel
/-- A sample of 105 °C quenches a stack (R319), and one of 115 °C trips the module (R521). -/
theorem test_quench : after (.stackTempSample 31 210) run (fun t => (t.pwr.thermTrip, (t.mem.stk[(31 : Fin 32)]).mode)) = some (true, .quenched) := by decide +kernel
theorem test_die_trip : after (.dieTempSample 9 230) up (fun t => (t.pwr.thermTrip, t.parts[(0 : Fin 8)].mode)) = some (true, .outOfService) := by decide +kernel
theorem test_no_trip_below : after (.dieTempSample 9 229) up (fun t => (t.pwr.thermTrip, t.pwr.dieTrip)) = some (false, false) := by decide +kernel
/-- The host writes the last bytes of its window, and reads zeros beyond it (R329). -/
theorem test_hdm_write : after (.hostHdmWrite 64 [7, 8]) (windowed false) (fun t => readBytes t.mem.hbm (2 ^ 30 + 63) 3) = some [0, 7, 8] := by decide +kernel
theorem test_hdm_read_beyond : after (.hostHdmRead (2047 * 2 ^ 30) 2) (windowed false) (·.reply) = some (.data [0, 0]) := by decide +kernel
/-- A doorbell beyond its queue changes nothing (R461). -/
theorem test_doorbell : after (.sqTailDoorbell 5 15) (asked up (lctx 5 0x30 true) [] []) (fun t => (t.ctx 5).map (·.sqTail)) = some (some 15) := by decide +kernel
theorem test_doorbell_beyond : after (.sqTailDoorbell 5 16) (asked up (lctx 5 0x30 true) [] []) (fun t => (t.ctx 5).map (·.sqTail)) = some (some 1) := by decide +kernel
/-- CTX_OPEN answers with the number and the version of the context (R454, R457). -/
theorem test_ctxOpen : after (.ctxOpen 5 .ok) (asked up (lctx 5 0x30 true) (sqe 0x01 openOps) []) (fun t => ((t.ctx 5).bind (·.done)).map fun d => (d.cid, d.status, d.result)) = some (some (9, 0, 0x300001)) := by decide +kernel
/-- A SIGNAL's count reaches a counter of the receiver's epoch, up to 65,535 (R98). -/
theorem test_token_arrives : after (.tokenSignalArrive 0) (sent (count 0 0 none) 65534 run) (fun t => ((t.core 0).tok[(63 : Fin 64)]).even) = some 65535 := by decide +kernel
/-- A claim near its limit takes what is left (R105). -/
theorem test_claim_takes_the_rest : after (.wclaimExecute 0 7 63) (claimed false 0) (fun t => (t.hearths[(7 : Fin 8)].wctr[(63 : Fin 64)]).value) = some 32 := by decide +kernel
/-- A transfer's bytes reach the last line of a scratchpad. -/
theorem test_copy_moves : after (.dmaCopy 0 7 none) { headX copy run with mem := { Mem.reset with hbm := [(63, 9)] } } (fun t => readByte (t.core 1).spad 0x3FFFFF) = some 9 := by decide +kernel

end Sys2Proof.Tests
end

section
/-! PROOFS. The comparison rules of the C and V slots (R131, R152): what CMP, CMPI, VCMP and PLOG leave in a predicate, and the reserved codes that end the task. -/

namespace Sys2Proof.Machine

variable {s : State} {i : Issue}

/-! Bundles of one instruction -/

/-- R123: an illegal instruction by itself, with no register outstanding, ends its core's task with ILLEGAL_INSTRUCTION. -/
theorem present_illegal_ends {o : SlotOp} {act : Core → PReg → Act} (h : Executes o.guard i (o.reads ++ o.dests) s) (hi : o.illegal = true) :
    ∃ t, present i o act s = .next t ∧ TaskEndsAt s t i.core 0x0104 (s.core i.core).pc := by
  have ⟨⟨hissue, _⟩, _⟩ := h
  exact ⟨_, present_illegal h hi, coreFault_ends stIllegal _ _ _ (canIssue_live hissue)⟩

/-! CMP and CMPI (R131) -/

theorem sext_eq_ofInt (imm : W32) : sext imm = BitVec.ofInt 64 imm.toInt := rfl

/-- R131: the Boolean that the model computes for an unreserved code is the condition that the code names. -/
theorem scalarCond_iff_condHolds {cond : BitVec 4} (a b : W64) (h : cond.toNat < 6) : scalarCond cond a b = true ↔ CondHolds cond a b := by
  have hcond : cond = 0 ∨ cond = 1 ∨ cond = 2 ∨ cond = 3 ∨ cond = 4 ∨ cond = 5 := by bv_omega
  rcases hcond with rfl | rfl | rfl | rfl | rfl | rfl <;> simp [scalarCond, CondHolds, BitVec.slt, BitVec.ult]

/-- R131: a predicate set by a condition is all ones where the condition holds and all zeros where it does not. -/
theorem predAll_scalarCond {cond : BitVec 4} (a b : W64) (h : cond.toNat < 6) :
    (CondHolds cond a b → predAll (scalarCond cond a b) = BitVec.allOnes 256) ∧ (¬CondHolds cond a b → predAll (scalarCond cond a b) = 0) := by
  rw [← scalarCond_iff_condHolds a b h]
  exact ⟨fun hp => if_pos hp, fun hp => if_neg hp⟩

theorem exec_cmp_issued {pd : Fin 8} {cond : BitVec 4} {ra rb : Fin 32} (h : Executes .lane0 i [.s ra, .s rb, .p pd] s) (hc : cond.toNat < 6) :
    exec (.cmp i pd cond ra rb) s = .next (s.issued i.core [⟨.p pd, .p (predAll (scalarCond cond ((s.core i.core).getS ra) ((s.core i.core).getS rb))), 0⟩]) := by
  rw [exec_cmp]
  exact present_writes h (decide_eq_false (by omega)) rfl rfl

theorem exec_cmpi_issued {pd : Fin 8} {cond : BitVec 4} {ra : Fin 32} {imm : BitVec 32} (h : Executes .lane0 i [.s ra, .p pd] s) (hc : cond.toNat < 6) :
    exec (.cmpi i pd cond ra imm) s = .next (s.issued i.core [⟨.p pd, .p (predAll (scalarCond cond ((s.core i.core).getS ra) (sext imm))), 0⟩]) := by
  rw [exec_cmpi]
  exact present_writes h (decide_eq_false (by omega)) rfl rfl

theorem exec_cmp_reserved {pd : Fin 8} {cond : BitVec 4} {ra rb : Fin 32} (h : Executes .lane0 i [.s ra, .s rb, .p pd] s) (hc : 6 ≤ cond.toNat) :
    EndsTask (.cmp i pd cond ra rb) s i.core 0x0104 := by
  rw [EndsTask, exec_cmp]
  exact present_illegal_ends h (decide_eq_true (by omega))

theorem exec_cmpi_reserved {pd : Fin 8} {cond : BitVec 4} {ra : Fin 32} {imm : BitVec 32} (h : Executes .lane0 i [.s ra, .p pd] s) (hc : 6 ≤ cond.toNat) :
    EndsTask (.cmpi i pd cond ra imm) s i.core 0x0104 := by
  rw [EndsTask, exec_cmpi]
  exact present_illegal_ends h (decide_eq_true (by omega))

/-- Settles O13: below code 6 the predicate is that of the condition, and a code from 6 on is an illegal instruction. -/
theorem scalarComparisonConditions : Obligations.ScalarComparisonConditions := by
  intro i pd cond ra rb imm s h
  have himm : Executes .lane0 i [.s ra, .p pd] s := h.sub (by simp)
  refine ⟨fun hc => ⟨⟨_, exec_cmp_issued h hc, predAll_scalarCond _ _ hc⟩, _, exec_cmpi_issued himm hc, ?_⟩,
    fun hc => ⟨exec_cmp_reserved h hc, exec_cmpi_reserved himm hc⟩⟩
  rw [← sext_eq_ofInt]
  exact predAll_scalarCond _ _ hc

/-! Predicates bit by bit -/

/-- A sum of distinct powers of two is the number whose bits choose them. -/
theorem sum_two_pow_eq_ofBits : ∀ {n : Nat} (f : Fin n → Bool), ((List.finRange n).map fun k => if f k then 2 ^ k.val else 0).sum = Nat.ofBits f
  | 0, _ => rfl
  | n + 1, f => by
    have ih := sum_two_pow_eq_ofBits (f ∘ Fin.succ)
    have hshift : (fun k : Fin n => if f k.succ then 2 ^ k.succ.val else 0) = fun k => 2 * if (f ∘ Fin.succ) k then 2 ^ k.val else 0 := by
      funext k
      simp [pow_succ']
    rw [Nat.ofBits_succ, ← ih, ← List.sum_map_mul_left, List.finRange_succ, List.map_cons, List.sum_cons, List.map_map, Function.comp_def, hshift]
    cases f 0 <;> simp [Nat.add_comm]

@[simp] theorem predOf_getLsbD (f : Fin 256 → Bool) (k : Fin 256) : (predOf f).getLsbD k.val = f k := by
  rw [predOf, sum_two_pow_eq_ofBits, BitVec.getLsbD_ofNat, Nat.testBit_ofBits_lt f k.val k.isLt, decide_eq_true k.isLt, Bool.true_and]

/-- R121: a merged predicate has the new bit in an enabled lane and the old one in any other. -/
theorem mergePred_getLsbD (m old new : PReg) (k : Fin 256) :
    (mergePred m old new).getLsbD k.val = if m.getLsbD k.val then new.getLsbD k.val else old.getLsbD k.val := by
  simp only [mergePred, BitVec.getLsbD_or, BitVec.getLsbD_and, BitVec.getLsbD_not, k.isLt, decide_true, Bool.true_and]
  cases m.getLsbD k.val <;> simp

/-- R152: PLOG's functions on one lane; fn 3 is AND-NOT. -/
theorem predFn_getLsbD (fn : BitVec 2) (a b : PReg) (k : Fin 256) :
    (predFn fn a b).getLsbD k.val =
      if fn = 0 then a.getLsbD k.val && b.getLsbD k.val else if fn = 1 then a.getLsbD k.val || b.getLsbD k.val
      else if fn = 2 then a.getLsbD k.val ^^ b.getLsbD k.val else a.getLsbD k.val && !b.getLsbD k.val := by
  have hfn : fn = 0 ∨ fn = 1 ∨ fn = 2 ∨ fn = 3 := by bv_omega
  rcases hfn with rfl | rfl | rfl | rfl <;> simp [predFn]

/-! VCMP and PLOG (R152) -/

/-- R121, R152: a V-slot instruction by itself that merges `new` into a predicate writes the bits of `new` under its guard. -/
theorem present_mergePred {o : SlotOp} {act : Core → PReg → Act} {pd : Fin 8} {new : PReg} {c : Instr} {f : Fin 256 → Bool}
    (hx : exec c s = present i o act s) (h : Executes o.guard i (o.reads ++ o.dests) s) (hi : o.illegal = false) (hd : Admitted i.core .v vDrawHalf s)
    (ha : act (s.core i.core) (guardMask (s.core i.core) i)
      = Act.writes (wP pd (mergePred (guardMask (s.core i.core) i) ((s.core i.core).getP pd) new) vDrawHalf))
    (hf : ∀ k : Fin 256, new.getLsbD k.val = f k) : WritesBits i s pd c f := by
  refine ⟨_, hx.trans (present_draws h hi ha hd), fun k => ?_⟩
  rw [mergePred_getLsbD, hf]

/-- R152: VCMP under a code that is not reserved. -/
theorem exec_vcmp_writesBits {pd : Fin 8} {cond : BitVec 4} {va vb : Fin 32} (h : Executes .perLane i [.v va, .v vb, .p pd] s)
    (hd : Admitted i.core .v vDrawHalf s) (hc : vectorCondReserved cond = false) :
    WritesBits i s pd (.vcmp i pd cond va vb) fun k => vectorCond cond ((s.core i.core).getV va)[k] ((s.core i.core).getV vb)[k] :=
  present_mergePred (exec_vcmp s i pd cond va vb) h hc hd rfl (predOf_getLsbD _)

theorem exec_vcmp_reserved {pd : Fin 8} {cond : BitVec 4} {va vb : Fin 32} (h : Executes .perLane i [.v va, .v vb, .p pd] s)
    (hc : vectorCondReserved cond = true) : EndsTask (.vcmp i pd cond va vb) s i.core 0x0104 := by
  rw [EndsTask, exec_vcmp]
  exact present_illegal_ends h hc

theorem exec_plog_writesBits {pd pa pb : Fin 8} {fn : BitVec 2} (h : Executes .perLane i [.p pa, .p pb, .p pd] s) (hd : Admitted i.core .v vDrawHalf s) :
    WritesBits i s pd (.plog i pd pa pb fn) fun k => (predFn fn ((s.core i.core).getP pa) ((s.core i.core).getP pb)).getLsbD k.val :=
  present_mergePred (exec_plog s i pd pa pb fn) h rfl hd rfl fun _ => rfl

theorem vectorCondReserved_of_notMem : ∀ {cond : BitVec 4}, cond ∉ ([0, 1, 2, 3, 4, 8, 9, 10, 11] : List (BitVec 4)) → vectorCondReserved cond = true := by
  decide

/-- R152: code 11, computed as the other lane not being below, is the signed order with equality. -/
theorem vectorCond_sle (a b : W32) : vectorCond 11 a b = decide (a.toInt ≤ b.toInt) := by
  simp only [← not_lt, decide_not]
  rfl

/-! Values in comparisons (R151) -/

theorem Num.isNan_iff {x : Num} : x.isNan = true ↔ x = .nan := by
  cases x <;> simp [Num.isNan]

/-- A NaN on either side is equal to nothing and below nothing. -/
theorem feq_lt_eq_false_of_isNan {x y : Num} (h : x.isNan = true ∨ y.isNan = true) : x.feq y = false ∧ x.lt y = false := by
  simp only [Num.isNan_iff] at h
  rcases h with rfl | rfl
  · exact ⟨rfl, rfl⟩
  · cases x <;> exact ⟨rfl, rfl⟩

theorem ofF32_zero : ofF32 0 = .fin false 0 := by
  simp [ofF32, Flt.decode, f32]

theorem ofF32_negZero : ofF32 0x80000000 = .fin true 0 := by
  simp [ofF32, Flt.decode, f32, show Nat.testBit 2147483648 31 = true from rfl]

/-- The two zeros are equal. -/
theorem feq_zeros : (Num.fin true 0).feq (.fin false 0) = true := by simp [Num.feq, signed]

/-- Neither zero lies below the other. -/
theorem lt_zeros (a b : Bool) : (Num.fin a 0).lt (.fin b 0) = false := by simp [Num.lt, signed]

/-- Settles O20: each VCMP condition is the model's own on the lanes, PLOG's functions act bit by bit, every other code is an illegal instruction, and the
comparisons treat the zeros as equal and NaN as unordered. -/
theorem vectorPredicates : Obligations.VectorPredicates := by
  intro i pd pa pb va vb s a b h hd hab
  obtain rfl : a = fun k => ((s.core i.core).getV va)[k] := funext fun k => (hab k).1
  obtain rfl : b = fun k => ((s.core i.core).getV vb)[k] := funext fun k => (hab k).2
  have hcmp : Executes .perLane i [.v va, .v vb, .p pd] s := h.sub (by simp)
  have hlog : Executes .perLane i [.p pa, .p pb, .p pd] s := h.sub (by simp)
  have vcmp (cond : BitVec 4) (hc : vectorCondReserved cond = false) := exec_vcmp_writesBits hcmp hd hc
  refine ⟨vcmp 0 rfl, vcmp 1 rfl, vcmp 2 rfl, vcmp 3 rfl, vcmp 4 rfl, vcmp 8 rfl, vcmp 9 rfl, vcmp 10 rfl, ?_,
    fun cond hc => exec_vcmp_reserved hcmp (vectorCondReserved_of_notMem hc), fun fn => ?_, ?_, ?_, ?_, fun _ _ => feq_lt_eq_false_of_isNan⟩
  · simpa only [vectorCond_sle] using vcmp 11 rfl
  · simpa only [predFn_getLsbD] using exec_plog_writesBits (fn := fn) hlog hd
  · rw [ofF32_negZero, ofF32_zero, feq_zeros]
  · rw [ofF32_negZero, ofF32_zero, lt_zeros]
  · rw [ofF32_negZero, ofF32_zero, lt_zeros]

end Sys2Proof.Machine
end

section
/-! PROOFS. The check-value units (R489 to R497, R500): what a slot's queue takes in and gives out, the running value that its writes make, and the snoop ports' commands. -/

namespace Sys2Proof.Machine

variable {s : State} {n : Fin 256}

/-! Bytes and checks -/

theorem length_toLE : ∀ (x k : Nat), (toLE x k).length = k
  | _, 0 => rfl
  | x, k + 1 => congrArg (· + 1) (length_toLE (x / 256) k)

theorem toLE_one (b : Byte) : toLE (b.setWidth 32).toNat 1 = [b] := by
  rw [toLE, toLE, BitVec.ofNat_toNat, BitVec.setWidth_setWidth_of_le _ (by decide), BitVec.setWidth_eq]

theorem crcBytes_append (poly : BitVec 2) (v : BitVec 64) (xs ys : List Byte) :
    crcBytes poly v (xs ++ ys) = crcBytes poly (crcBytes poly v xs) ys :=
  List.foldl_append

/-! A write applied to a slot (R493, R494) -/

theorem absorb_toLE (c : ChkSlot) (x k : Nat) :
    c.absorb (toLE x k) = { c with value := crcBytes c.active c.value (toLE x k), count := satAdd c.count k } := by
  rw [ChkSlot.absorb, length_toLE]

/-- R493: a START takes its algorithm, begins with the fold word, and has counted its 8 bytes. -/
theorem apply_ctl_start (c : ChkSlot) {v : W32} (hv : v.getLsbD 8 = true) :
    c.apply .ctl v = { c with
      poly := v.setWidth 2, active := v.setWidth 2, count := 8
      value := crcBytes (v.setWidth 2) (crcInit (v.setWidth 2)) (toLE c.fold.toNat 8) } := by
  have hstart : c.apply .ctl v = ({ c with poly := v.setWidth 2 } : ChkSlot).start (v.setWidth 2) := if_pos hv
  rw [hstart, ChkSlot.start, absorb_toLE]
  rfl

/-- R494: bytes written one by one to CHK_DATA8 are absorbed in their order. -/
theorem foldl_apply_data8_value (data : List Byte) : ∀ c : ChkSlot,
    (data.foldl (fun k b => k.apply .data8 (b.setWidth 32)) c).value = crcBytes c.active c.value data := by
  induction data with
  | nil => exact fun _ => rfl
  | cons b r ih =>
    intro c
    have hb : c.apply .data8 (b.setWidth 32) = c.absorb [b] := congrArg c.absorb (toLE_one b)
    rw [List.foldl_cons, hb, ih]
    rfl

/-! A slot's queue (R492) -/

theorem settle_of_waiting (c : ChkSlot) {w : ChkReg × W32} (r : List (ChkReg × W32)) (hw : chkFree w = false) :
    c.settle (w :: r) = { c with queue := w :: r } := by
  simp [ChkSlot.settle, hw]

theorem push_of_not_full {c : ChkSlot} (h : c.queue.length < 16) (reg : ChkReg) (v : W32) : c.push reg v = c.settle (c.queue ++ [(reg, v)]) := by
  simp [ChkSlot.push, h]

/-- R492: behind a write that waits for its cycles, another one waits. -/
theorem push_of_waiting {c : ChkSlot} {w : ChkReg × W32} {r : List (ChkReg × W32)} (hq : c.queue = w :: r) (hw : chkFree w = false)
    (h : c.queue.length < 16) (reg : ChkReg) (v : W32) : c.push reg v = { c with queue := c.queue ++ [(reg, v)] } := by
  rw [push_of_not_full h, hq, List.cons_append, settle_of_waiting c _ hw]

theorem push_of_empty {c : ChkSlot} (hq : c.queue = []) (reg : ChkReg) (v : W32) : c.push reg v = c.settle [(reg, v)] := by
  rw [push_of_not_full (by simp [hq]), hq, List.nil_append]

/-- R492: at an empty queue, a write that costs no cycle is applied at once. -/
theorem push_of_free {c : ChkSlot} (hq : c.queue = []) {reg : ChkReg} {v : W32} (hw : chkFree (reg, v) = true) : c.push reg v = c.apply reg v := by
  have hempty : (c.apply reg v).queue = [] := (apply_queue c reg v).trans hq
  rw [push_of_empty hq, ChkSlot.settle, if_pos hw, ChkSlot.settle, ← hempty]

theorem pop_singleton {c : ChkSlot} {reg : ChkReg} {v : W32} (hq : c.queue = [(reg, v)]) : c.pop = { c.apply reg v with queue := [] } := by
  simp [ChkSlot.pop, ChkSlot.settle, hq]

/-! A slot of the state -/

theorem modChk_congr {f g : ChkSlot → ChkSlot} (h : f s.chk[n] = g s.chk[n]) : s.modChk n f = s.modChk n g := by
  rw [State.modChk, h, State.modChk]

@[simp] theorem modChk_chk_same (f : ChkSlot → ChkSlot) : (s.modChk n f).chk[n] = f s.chk[n] := by
  simp [State.modChk]

theorem modChk_chk_other (f : ChkSlot → ChkSlot) {m : Fin 256} (h : m ≠ n) : (s.modChk n f).chk[m] = s.chk[m] :=
  Vector.getElem_set_ne n.isLt m.isLt fun hv => h (Fin.ext hv.symm)

theorem chkHead_of_empty (h : s.chk[n].queue = []) (named : ChkReg → Bool) : s.chkHead n named = s := by
  simp only [State.chkHead, h]

theorem chkHead_of_singleton {reg : ChkReg} {v : W32} {named : ChkReg → Bool} (hq : s.chk[n].queue = [(reg, v)]) (hn : named reg = true) :
    s.chkHead n named = s.modChk n fun _ => { s.chk[n].apply reg v with queue := [] } := by
  have hhead : s.chkHead n named = s.modChk n ChkSlot.pop := by simp only [State.chkHead, hq, hn, if_true]
  rw [hhead]
  exact modChk_congr (pop_singleton hq)

/-! The commands of a slot -/

theorem exec_chkSlotWrite_discarded {reg : ChkReg} (v : W32) (h : s.larcy.d3hot = true ∨ s.chkServed n = false ∨ chkWritable reg = false) :
    exec (.chkSlotWrite n reg v) s = .next s := by
  rw [exec_chkSlotWrite, execChkSlotWrite, State.barWrite, State.writeChk]
  rcases h with h | h | h <;> simp [h]

/-- R491, R492: a write that the block takes enters its slot's queue. -/
theorem exec_chkSlotWrite_pushes {reg : ChkReg} (v : W32) (hd : s.larcy.d3hot = false) (hs : s.chkServed n = true) (hr : chkWritable reg = true) :
    exec (.chkSlotWrite n reg v) s = .next (s.modChk n fun _ => s.chk[n].push reg v) := by
  rw [exec_chkSlotWrite, execChkSlotWrite, State.barWrite, State.writeChk]
  simp only [hd, hs, hr, Bool.and_self, if_true, Bool.false_eq_true, if_false]
  exact congrArg _ (modChk_congr rfl)

theorem exec_chkSlotWrite_waits {reg : ChkReg} {w : ChkReg × W32} {r : List (ChkReg × W32)} (v : W32) (hd : s.larcy.d3hot = false)
    (hs : s.chkServed n = true) (hr : chkWritable reg = true) (hq : s.chk[n].queue = w :: r) (hw : chkFree w = false) (hl : s.chk[n].queue.length < 16) :
    exec (.chkSlotWrite n reg v) s = .next (s.modChk n fun _ => { s.chk[n] with queue := s.chk[n].queue ++ [(reg, v)] }) := by
  rw [exec_chkSlotWrite_pushes v hd hs hr, push_of_waiting hq hw hl]

/-- R492: at an empty queue a data write waits for its cycle, and a fold write, which costs none, is applied. -/
theorem exec_chkSlotWrite_of_empty (v : W32) (hd : s.larcy.d3hot = false) (hs : s.chkServed n = true) (hq : s.chk[n].queue = []) :
    exec (.chkSlotWrite n .data8 v) s = .next (s.modChk n fun _ => { s.chk[n] with queue := [(.data8, v)] })
    ∧ exec (.chkSlotWrite n .foldLo v) s = .next (s.modChk n fun _ => { s.chk[n] with fold := (s.chk[n].fold >>> 32) <<< 32 ||| v.setWidth 64 }) := by
  constructor
  · rw [exec_chkSlotWrite_pushes v hd hs rfl, push_of_empty hq, settle_of_waiting _ _ rfl]
  · rw [exec_chkSlotWrite_pushes v hd hs rfl, push_of_free hq rfl]
    rfl

theorem exec_chkStart_of_head {v : W32} (hq : s.chk[n].queue = [(.ctl, v)]) (hv : v.getLsbD 8 = true) :
    exec (.chkStart n) s = .next (s.modChk n fun _ => { s.chk[n] with
      poly := v.setWidth 2, active := v.setWidth 2, count := 8, queue := []
      value := crcBytes (v.setWidth 2) (crcInit (v.setWidth 2)) (toLE s.chk[n].fold.toNat 8) }) := by
  rw [exec_chkStart, execChkStart, chkHead_of_singleton hq rfl, apply_ctl_start _ hv]

/-- R494: CHK_DATA8, CHK_DATA16 and CHK_DATA32 absorb 1, 2 and 4 bytes. -/
theorem exec_chkData_of_head {reg : ChkReg} {k : Nat} {cmd : Instr} {v : W32}
    (hm : (reg, k, cmd) ∈ ([(.data8, 1, .chkData8 n), (.data16, 2, .chkData16 n), (.data32, 4, .chkData32 n)] : List (ChkReg × Nat × Instr)))
    (hq : s.chk[n].queue = [(reg, v)]) :
    exec cmd s = .next (s.modChk n fun _ => { s.chk[n] with
      value := crcBytes s.chk[n].active s.chk[n].value (toLE v.toNat k), count := satAdd s.chk[n].count k, queue := [] }) := by
  have hexec : exec cmd s = .next (s.modChk n fun _ => { s.chk[n].absorb (toLE v.toNat k) with queue := [] }) := by
    simp only [List.mem_cons, List.not_mem_nil, or_false, Prod.mk.injEq] at hm
    obtain ⟨rfl, rfl, rfl⟩ | ⟨rfl, rfl, rfl⟩ | ⟨rfl, rfl, rfl⟩ := hm
    · exact congrArg _ (chkHead_of_singleton hq rfl)
    · exact congrArg _ (chkHead_of_singleton hq rfl)
    · exact congrArg _ (chkHead_of_singleton hq rfl)
  rw [hexec, absorb_toLE]

/-- R495: a write of CHK_VAL_LO or CHK_VAL_HI at the head of its queue is applied. -/
theorem exec_chkValWrite_of_head {reg : ChkReg} {v : W32} (hr : reg = .valLo ∨ reg = .valHi) (hq : s.chk[n].queue = [(reg, v)]) :
    exec (.chkValWrite n) s = .next (s.modChk n fun _ => { s.chk[n].apply reg v with queue := [] }) := by
  rw [exec_chkValWrite, execChkValWrite, chkHead_of_singleton hq (by simpa using hr)]

theorem exec_chk_of_empty (h : s.chk[n].queue = []) :
    exec (.chkStart n) s = .next s ∧ exec (.chkData8 n) s = .next s ∧ exec (.chkData16 n) s = .next s ∧ exec (.chkData32 n) s = .next s
    ∧ exec (.chkValWrite n) s = .next s :=
  have unchanged (named : ChkReg → Bool) : Host.Outcome.next (s.chkHead n named) = (.next s : Host.Outcome State Fault Refusal) :=
    congrArg _ (chkHead_of_empty h named)
  ⟨unchanged _, unchanged _, unchanged _, unchanged _, unchanged _⟩

theorem exec_chkRead_notServed (hd : s.larcy.d3hot = false) (hs : s.chkServed n = false) (reg : ChkReg) :
    exec (.chkRead n reg) s = .next { s with reply := .word 0 } := by
  simp [exec_chkRead, execChkRead, hd, hs]

/-- R495: a read of a register of the running value applies every accepted write, then answers. -/
theorem exec_chkRead_flushes {reg : ChkReg} (hd : s.larcy.d3hot = false) (hs : s.chkServed n = true) (hw : chkWaits reg = true) :
    exec (.chkRead n reg) s = .next { s.modChk n ChkSlot.flush with reply := .word (chkView s.chk[n].flush reg) } := by
  rw [exec_chkRead, execChkRead]
  simp only [hd, hs, hw, Bool.not_true, Bool.false_eq_true, if_false, if_true, modChk_chk_same]

/-- R490: a START and data bytes give the check of the fold word followed by the bytes. -/
theorem crcResult_start_data (c : ChkSlot) {v : W32} (data : List Byte) (hv : v.getLsbD 8 = true) :
    crcResult (v.setWidth 2) (data.foldl (fun k b => k.apply .data8 (b.setWidth 32)) (c.apply .ctl v)).value
      = crcResult (v.setWidth 2) (crcBytes (v.setWidth 2) (crcInit (v.setWidth 2)) (toLE c.fold.toNat 8 ++ data)) := by
  rw [foldl_apply_data8_value, apply_ctl_start c hv, crcBytes_append]

/-! Snoop ports (R498, R500) -/

theorem exec_snoopResultDequeue_of_cons {p : Fin 16} {x : BitVec 128} {r : List (BitVec 128)} (h : s.snoop[p].results = x :: r) :
    exec (.snoopResultDequeue p) s = .next { s with reply := .data (toLE x.toNat 16), snoop := s.snoop.set p { s.snoop[p] with results := r } } := by
  simp only [exec_snoopResultDequeue, execSnoopResultDequeue, h]

theorem exec_snoopResultDequeue_of_nil {p : Fin 16} (h : s.snoop[p].results = []) :
    exec (.snoopResultDequeue p) s = .next { s with reply := .none } := by
  simp only [exec_snoopResultDequeue, execSnoopResultDequeue, h]

/-- R489: the check value of each algorithm, that of the nine bytes "123456789". -/
theorem crcResult_checkValues :
    [0, 1, 2, 3].map (fun p : BitVec 2 => crcResult p (crcBytes p (crcInit p) (ascii "123456789"))) = [0xE3069283, 0xCBF43926, 0x995DC9BBDF1939FA, 0x29B1] := by
  decide +kernel

/-- Settles O59: each command of a slot through its queue's head, the check of a whole computation by induction on its bytes, and the snoop ports. -/
theorem checkUnitsCompute : Obligations.CheckUnitsCompute := by
  refine ⟨?_, fun c v data hv => crcResult_start_data c data hv, crcResult_checkValues,
    fun s p a poly => ⟨exec_snoopPortAttach s p a poly, fun x r h => exec_snoopResultDequeue_of_cons h, exec_snoopResultDequeue_of_nil⟩⟩
  rintro s n _ v rfl
  refine ⟨fun reg h => exec_chkSlotWrite_discarded v h, fun reg w r hd hs hr hq hw hl => exec_chkSlotWrite_waits v hd hs hr hq hw hl,
    exec_chkSlotWrite_of_empty v, fun hq hv => ?start, fun reg k cmd hm hq => exec_chkData_of_head hm hq,
    exec_chkValWrite_of_head (.inl rfl), exec_chkValWrite_of_head (.inr rfl), exec_chk_of_empty,
    fun hd hs reg => exec_chkRead_notServed hd hs reg, fun hd hs => ?read⟩
  case start =>
    refine ⟨_, exec_chkStart_of_head hq hv, ?_, modChk_chk_same _⟩
    rw [modChk_chk_same]
  case read =>
    have hslot : (s.modChk n ChkSlot.flush).chk[n] = s.chk[n].flush := modChk_chk_same _
    exact ⟨_, exec_chkRead_flushes hd hs rfl, hslot, by rw [hslot]; rfl, fun m hm => modChk_chk_other _ hm⟩

end Sys2Proof.Machine
end

section
/-! PROOFS. Steps: what a fault at a core and an upset leave alone, what a clock period changes, and that every command keeps the queue, the clock and well-formed states. -/

namespace Sys2Proof.Machine

variable {s : State} {g : Fin 512}

/-! A fault at a core (R110, R113) -/

section
variable (s : State) (g : Fin 512) (st : Status) (b : BitVec 13) (q d : Nat)

/-- A fault at a core changes that core's own status and its partition's task, and no more. -/
theorem coreFault_rest :
    s.coreFault g st b q d = { s with cores := (s.coreFault g st b q d).cores, parts := (s.coreFault g st b q d).parts } := by
  unfold State.coreFault
  dsimp only
  split <;> rfl

@[simp] theorem coreFault_mem : (s.coreFault g st b q d).mem = s.mem := by rw [coreFault_rest]
@[simp] theorem coreFault_hearths : (s.coreFault g st b q d).hearths = s.hearths := by rw [coreFault_rest]
@[simp] theorem coreFault_glb : (s.coreFault g st b q d).glb = s.glb := by rw [coreFault_rest]
@[simp] theorem coreFault_fab : (s.coreFault g st b q d).fab = s.fab := by rw [coreFault_rest]
@[simp] theorem coreFault_pwr : (s.coreFault g st b q d).pwr = s.pwr := by rw [coreFault_rest]
@[simp] theorem coreFault_tokens : (s.coreFault g st b q d).tokens = s.tokens := by rw [coreFault_rest]
@[simp] theorem coreFault_now : (s.coreFault g st b q d).now = s.now := by rw [coreFault_rest]

theorem coreFault_cores : (s.coreFault g st b q d).cores = (s.setCore g ((s.coreFault g st b q d).core g)).cores := by
  unfold State.coreFault
  dsimp only
  split <;> simp [State.modCore, State.setCore, State.core, State.endTask, State.modTask, State.modPart]

theorem coreFault_core_ne {j : Fin 512} (h : j ≠ g) : (s.coreFault g st b q d).core j = s.core j := by
  rw [State.core, coreFault_cores]
  exact setCore_core_ne h

/-- Whether the fault becomes the core's own depends on the faults before it. -/
theorem coreFault_core : ∃ own : Bool, (s.coreFault g st b q d).core g
    = if own then { s.core g with stat := { (s.core g).stat with faultStatus := st, faultBundle := b } } else s.core g := by
  unfold State.coreFault
  dsimp only
  split <;> exact ⟨_, modCore_core_same _ _ _⟩

theorem coreFault_core_same : { (s.coreFault g st b q d).core g with stat := (s.core g).stat } = s.core g := by
  obtain ⟨own, h⟩ := coreFault_core s g st b q d
  rw [h]
  cases own <;> rfl

end

/-! An upset (R82, R108, R305) -/

/-- What a clock period may change of a core: which of its words hold their parity, and its own fault; no register, no byte, no billet and no run. -/
def Core.UpsetTo (c d : Core) : Prop :=
  { d with badParity := c.badParity, badImem := c.badImem, stat := c.stat, slots := c.slots, stage := c.stage } = c
  ∧ (∀ i : Fin 5, d.slots[i].tag = c.slots[i].tag ∧ d.slots[i].billets = c.slots[i].billets)
  ∧ d.stage.map (fun x => (x.run, x.src)) = c.stage.map (fun x => (x.run, x.src))

theorem Core.UpsetTo.refl (c : Core) : c.UpsetTo c := ⟨rfl, fun _ => ⟨rfl, rfl⟩, rfl⟩

theorem map_modifyAt {α β : Type} {f : α → α} {h : α → β} (hf : ∀ x, h (f x) = h x) : ∀ (l : List α) (k : Nat), (modifyAt f l k).map h = l.map h
  | [], k => by cases k <;> rfl
  | x :: r, 0 => by simp [modifyAt, hf]
  | x :: r, k + 1 => by simpa [modifyAt] using map_modifyAt hf r k

theorem upsetTo_upset (c : Core) (u : Upset) : c.UpsetTo (c.upset u) := by
  cases u with
  | slot i k =>
    rw [Core.upset]
    split
    · refine ⟨rfl, fun j => ?_, rfl⟩
      simp only [Fin.getElem_fin, Vector.getElem_set]
      split
      · rename_i h
        simp [h]
      · exact ⟨rfl, rfl⟩
    · exact .refl c
  | stage k => exact ⟨rfl, fun _ => ⟨rfl, rfl⟩, map_modifyAt (f := StageRun.upset) (fun _ => rfl) c.stage k⟩
  | none | hbm | spad | imem | bus => exact ⟨rfl, fun _ => ⟨rfl, rfl⟩, rfl⟩

/-- A fault at a core leaves all but its own status. -/
theorem upsetTo_coreFault (st : Status) (b : BitVec 13) (q d : Nat) : (s.core g).UpsetTo ((s.coreFault g st b q d).core g) := by
  have h := coreFault_core_same s g st b q d
  generalize (s.coreFault g st b q d).core g = c at h ⊢
  rw [← h]
  exact ⟨rfl, fun _ => ⟨rfl, rfl⟩, rfl⟩

/-- What an upset at core `g` changes: that core, or words of HBM that hold their parity, and the task that a failed bus transfer ends. -/
def State.UpsetTo (s : State) (g : Fin 512) (t : State) : Prop :=
  t = { s with cores := t.cores, mem := t.mem, parts := t.parts } ∧ { t.mem with badHbm := s.mem.badHbm } = s.mem
  ∧ (s.core g).UpsetTo (t.core g) ∧ ∀ j, j ≠ g → t.core j = s.core j

theorem State.UpsetTo.refl (s : State) (g : Fin 512) : s.UpsetTo g s := ⟨rfl, rfl, .refl _, fun _ _ => rfl⟩

theorem UpsetTo.modCore {f : Core → Core} (h : (s.core g).UpsetTo (f (s.core g))) : s.UpsetTo g (s.modCore g f) :=
  ⟨rfl, rfl, by rwa [modCore_core_same], fun _ hj => modCore_core_ne hj⟩

theorem state_upsetTo_upset (s : State) (g : Fin 512) (u : Upset) : s.UpsetTo g (s.upset g u) := by
  cases u with
  | bus q =>
    simp only [State.upset]
    split
    · split
      · refine ⟨?_, by simp, upsetTo_coreFault _ _ _ _, fun j hj => coreFault_core_ne _ _ _ _ _ _ hj⟩
        conv_lhs => rw [coreFault_rest]
        simp
      · exact .refl s g
    · exact .refl s g
  | hbm w => exact ⟨rfl, rfl, .refl _, fun _ _ => rfl⟩
  | none => exact .refl s g
  | spad | imem | slot | stage => exact UpsetTo.modCore (f := fun c => c.upset _) (upsetTo_upset _ _)

/-! One clock period -/

/-- The state once a period has been counted and its free value taken, before a word may be upset. -/
def State.counted (s : State) : State := { s.advance 1 with freeCtr := s.freeCtr + 1 }

theorem draw_advance_one (s : State) : (s.advance 1).draw.2 = s.counted := by
  simp [State.draw, State.counted]

@[simp] theorem advance_clocked (s : State) (n : Nat) : (s.advance n).clocked = s.clocked := by
  unfold State.advance
  split <;> rfl

theorem tick_of_not_clocked (h : s.clocked = false) : tick s = { s with now := s.now + 1, freeCtr := s.freeCtr + 1 } := by
  have hc : s.counted.clocked = false := (advance_clocked s 1).trans h
  simp only [tick, draw_advance_one, hc, Bool.false_eq_true, if_false]
  simp [State.counted, State.advance, h]

/-- A clock period: time and its counters, then perhaps one upset. -/
theorem counted_upsetTo_tick (s : State) : ∃ g, s.counted.UpsetTo g (tick s) := by
  simp only [tick, draw_advance_one]
  split
  · exact ⟨_, state_upsetTo_upset _ _ _⟩
  · exact ⟨0, .refl _ _⟩

theorem advance_hearth (s : State) (n : Nat) (h : Fin 8) :
    (s.advance n).hearths[h] = { s.hearths[h] with drawStall := s.hearths[h].drawStall + if s.clocked ∧ s.hearths[h].drawWaits then n else 0 } := by
  unfold State.advance
  split
  · rename_i hc
    simp only [hc, true_and, Fin.getElem_fin, Vector.getElem_map]
    split <;> rfl
  · rename_i hc
    simp [hc]

theorem advance_glb (s : State) (n : Nat) :
    (s.advance n).glb = { s.glb with throttle := s.glb.throttle + if s.clocked ∧ s.throttled ∧ s.pwr.phase = .ready then n else 0 } := by
  unfold State.advance
  split <;> rename_i hc <;> simp [hc]

/-- Settles O2: a clock period counts time in every hearth and in the module, and then upsets one word at most. -/
theorem idleStepPassesOneClockPeriod : Obligations.IdleStepPassesOneClockPeriod := by
  intro s hs
  have hstep : step s = .next (tick s) := by rw [step, hs]
  obtain ⟨g, hrest, hmem, hcore, hother⟩ := counted_upsetTo_tick s
  have hcores (j : Fin 512) : s.counted.core j = s.core j := advance_core s 1 j
  rw [hcores] at hcore
  simp only [hcores] at hother
  have hcmem : s.counted.mem = s.mem := advance_mem s 1
  have hupset (j : Fin 512) : (s.core j).UpsetTo ((tick s).core j) := by
    rcases eq_or_ne j g with rfl | hj
    · exact hcore
    · rw [hother j hj]
      exact .refl _
  have hone (j : Fin 512) (h : (tick s).core j ≠ s.core j) : j = g := by_contra fun hj => h (hother j hj)
  have field {β : Type} (f : State → β) : f (tick s) = f { s.counted with cores := (tick s).cores, mem := (tick s).mem, parts := (tick s).parts } := congrArg f hrest
  exact ⟨tick s, hstep,
    (field State.pending).trans ((advance_pending s 1).trans hs), (field State.now).trans (advance_now s 1), field State.freeCtr,
    (field State.tokens).trans (advance_tokens s 1), (field State.fab).trans (advance_fab s 1), (field State.sec).trans (advance_sec s 1),
    (field State.media).trans (advance_media s 1), (field State.larcy).trans (advance_larcy s 1), (field State.chk).trans (advance_chk s 1),
    (field State.snoop).trans (advance_snoop s 1), (field State.pwr).trans (advance_pwr s 1), (field State.reply).trans (advance_reply s 1),
    by rwa [hcmem] at hmem, hupset, fun i j hi hj => (hone i hi).trans (hone j hj).symm, tick_of_not_clocked,
    fun h => (congrArg (·[h]) (field State.hearths)).trans (advance_hearth s 1 h), (field State.glb).trans (advance_glb s 1)⟩

/-! Every command -/

/-- Every command answers a next state that keeps the queue, the clock and well-formedness: an instruction because presenting it does, an event by the lemma on its meaning. -/
theorem exec_keeps (c : Instr) (s : State) : KeepsO s (exec c s) := by
  cases c with
  | nop | add | sub | and | or | xor | shl | shr | sra | mul | mulhu | min | max | addi | andi | ori | xori | shli | shri | srai | lui | cmp | cmpi | br | brr | loop
  | call | sld | sst | sysr | ember | endCore =>
    simp only [exec_nop, execNop, exec_add, execAdd, exec_sub, execSub, exec_and, execAnd, exec_or, execOr, exec_xor, execXor, exec_shl, execShl, exec_shr, execShr,
      exec_sra, execSra, exec_mul, execMul, exec_mulhu, execMulhu, exec_min, execMin, exec_max, execMax, exec_addi, execAddi, exec_andi, execAndi, exec_ori, execOri,
      exec_xori, execXori, exec_shli, execShli, exec_shri, execShri, exec_srai, execSrai, exec_lui, execLui, exec_cmp, execCmp, exec_cmpi, execCmpi, exec_br, execBr,
      exec_brr, execBrr, exec_loop, execLoop, exec_call, execCall, exec_sld, execSld, exec_sst, execSst, exec_sysr, execSysr, exec_ember, execEmber,
      exec_endCore, execEndCore, scalarRR, scalarRI, present_keeps]
  | vadd | vsub | vmul | vfma | vmin | vmax | vabs | vneg | viadd | visub | vand | vor | vxor | vshl | vshr | vsra | vcmp | plog | vbcast | vins | vext | vred | vperm
  | vcvt | sfn =>
    simp only [exec_vadd, execVadd, exec_vsub, execVsub, exec_vmul, execVmul, exec_vfma, execVfma, exec_vmin, execVmin, exec_vmax, execVmax, exec_vabs, execVabs,
      exec_vneg, execVneg, exec_viadd, execViadd, exec_visub, execVisub, exec_vand, execVand, exec_vor, execVor, exec_vxor, execVxor, exec_vshl, execVshl,
      exec_vshr, execVshr, exec_vsra, execVsra, exec_vcmp, execVcmp, exec_plog, execPlog, exec_vbcast, execVbcast, exec_vins, execVins, exec_vext, execVext,
      exec_vred, execVred, exec_vperm, execVperm, exec_vcvt, execVcvt, exec_sfn, execSfn, vector2, vector1, present_keeps]
  | mxa | fold | brnd | spark | attn | normStat | normApply =>
    simp only [exec_mxa, execMxa, exec_fold, execFold, exec_brnd, execBrnd, exec_spark, execSpark, exec_attn, execAttn, exec_normStat, execNormStat, exec_normApply, execNormApply, present_keeps]
  | ldt | stt | dmaq | dqst | tdl | tdw | vld | vst | signal | wait | wclaim | hbar | mbar | ebar | xshift | xperm | msync =>
    simp only [exec_ldt, execLdt, exec_stt, execStt, exec_dmaq, execDmaq, exec_dqst, execDqst, exec_tdl, execTdl, exec_tdw, execTdw, exec_vld, execVld, exec_vst, execVst,
      exec_signal, execSignal, exec_wait, execWait, exec_wclaim, execWclaim, exec_hbar, execHbar, exec_mbar, execMbar, exec_ebar, execEbar, exec_xshift, execXshift,
      exec_xperm, execXperm, exec_msync, execMsync, present_keeps]
  | mInstructionComplete => exact execMInstructionComplete_keeps _
  | hbarComplete => exact execHbarComplete_keeps _
  | mbarComplete => exact execMbarComplete_keeps _
  | ebarComplete => exact execEbarComplete_keeps _
  | tokenSignalArrive => exact execTokenSignalArrive_keeps _
  | waitTimeout => exact execWaitTimeout_keeps _
  | wclaimExecute => exact execWclaimExecute_keeps _ _ _
  | wclaimResponse => exact execWclaimResponse_keeps _ _ _ _
  | bmapClr => exact execBmapClr_keeps _ _ _
  | bmapClearDone => exact execBmapClearDone_keeps _ _
  | dmaCopy => exact execDmaCopy_keeps _ _ _
  | dmaTile => exact execDmaTile_keeps _ _ _
  | dmaNarrow => exact execDmaNarrow_keeps _ _ _
  | dmaComplete => exact execDmaComplete_keeps _ _
  | billetRunArrive => exact execBilletRunArrive_keeps _ _
  | billetRunCombine => exact execBilletRunCombine_keeps _ _
  | drawGrant => exact execDrawGrant_keeps _
  | kvWalkReadDone => exact execKvWalkReadDone_keeps _ _ _
  | attnFetchComplete => exact execAttnFetchComplete_keeps _
  | taskStopped => exact execTaskStopped_keeps _
  | jobStart => exact execJobStart_keeps _ _
  | coresStart => exact execCoresStart_keeps _
  | startBarrierComplete => exact execStartBarrierComplete_keeps _
  | gangStartTimeout => exact execGangStartTimeout_keeps _
  | queueWaitExpired => exact execQueueWaitExpired_keeps _
  | partitionZeroed => exact execPartitionZeroed_keeps _
  | slowdownWindow => exact execSlowdownWindow_keeps
  | ctxOpen => exact execCtxOpen_keeps _ _
  | ctxClose => exact execCtxClose_keeps _ _
  | submit => exact execSubmit_keeps _ _
  | suspend => exact execSuspend_keeps _ _
  | resume => exact execResume_keeps _ _
  | cancel => exact execCancel_keeps _ _
  | query => exact execQuery_keeps _ _
  | partitionStop => exact execPartitionStop_keeps _ _
  | partitionSet => exact execPartitionSet_keeps _ _
  | partitionStart => exact execPartitionStart_keeps _ _
  | vaultInstall => exact execVaultInstall_keeps _ _
  | vaultInstallDone => exact execVaultInstallDone_keeps _
  | attest => exact execAttest_keeps _ _
  | streamOpen => exact execStreamOpen_keeps _ _
  | streamClose => exact execStreamClose_keeps _ _
  | completionPost => exact execCompletionPost_keeps _ _
  | eventPost => exact execEventPost_keeps _ _
  | contextSwap => exact execContextSwap_keeps
  | sqTailDoorbell => exact execSqTailDoorbell_keeps _ _
  | cqHeadDoorbell => exact execCqHeadDoorbell_keeps _ _
  | context0Open => exact execContext0Open_keeps _
  | context0Close => exact execContext0Close_keeps _
  | mediaUnitStart => exact execMediaUnitStart_keeps _
  | mediaUnitComplete => exact execMediaUnitComplete_keeps _
  | writeReceive => exact execWriteReceive_keeps _ _
  | reduceReceive => exact execReduceReceive_keeps _ _
  | signalPacketReceive => exact execSignalPacketReceive_keeps _ _
  | ackReceive => exact execAckReceive_keeps _ _
  | nakReceive => exact execNakReceive_keeps _ _
  | rtsReceive => exact execRtsReceive_keeps _ _
  | ctsReceive => exact execCtsReceive_keeps _ _
  | delayReceive => exact execDelayReceive_keeps _ _
  | barrierReceive => exact execBarrierReceive_keeps _ _
  | endNoticeReceive => exact execEndNoticeReceive_keeps _ _
  | hello => exact execHello_keeps _ _
  | accept => exact execAccept_keeps _ _
  | finish => exact execFinish_keeps _ _
  | pair => exact execPair_keeps _ _
  | keyAgreementTimeout => exact execKeyAgreementTimeout_keeps _
  | ackTimer => exact execAckTimer_keeps _ _ _
  | resendTimer => exact execResendTimer_keeps _ _ _
  | busyResendTimer => exact execBusyResendTimer_keeps _ _ _
  | linkPairSetup => exact execLinkPairSetup_keeps _ _ _
  | collectiveComplete => exact execCollectiveComplete_keeps _ _
  | collTimeout => exact execCollTimeout_keeps _ _
  | linkUp => exact execLinkUp_keeps _
  | linkModeTimeout => exact execLinkModeTimeout_keeps _
  | linkTrainRetry => exact execLinkTrainRetry_keeps _
  | linkDownDetect => exact execLinkDownDetect_keeps _
  | stackTempSample => exact execStackTempSample_keeps _ _
  | bellowsNoticePeriod => exact execBellowsNoticePeriod_keeps _
  | hbmReadReplay => exact execHbmReadReplay_keeps _ _ _
  | rowRepair => exact execRowRepair_keeps _
  | stackFence n cause => exact execStackFence_keeps n cause
  | hostAccessTimeout => exact execHostAccessTimeout_keeps _ _
  | hostHdmRead => exact execHostHdmRead_keeps _ _
  | hostHdmWrite => exact execHostHdmWrite_keeps _ _
  | hostSnoop a => exact execHostSnoop_keeps a
  | hp0LinkUp => exact execHp0LinkUp_keeps _
  | hp0Down => exact execHp0Down_keeps
  | slowInputAccept => exact execSlowInputAccept_keeps _ _
  | filterHoldoffEnd => exact execFilterHoldoffEnd_keeps _ _
  | racingEnd => exact execRacingEnd_keeps _ _
  | startupBegin => exact execStartupBegin_keeps
  | readyAssert => exact execReadyAssert_keeps _
  | inputLoss => exact execInputLoss_keeps
  | inputRestore => exact execInputRestore_keeps
  | railFault rail => exact execRailFault_keeps rail
  | refclkLoss => exact execRefclkLoss_keeps
  | dieTempSample => exact execDieTempSample_keeps _ _
  | fwUpdateGo => exact execFwUpdateGo_keeps _
  | fwUpdateDone => exact execFwUpdateDone_keeps _
  | installModeWrite => exact execInstallModeWrite_keeps _
  | glbBridgeCtlWrite => exact execGlbBridgeCtlWrite_keeps _
  | glbPartCfgWrite => exact execGlbPartCfgWrite_keeps _
  | memSpreadWrite => exact execMemSpreadWrite_keeps _
  | memHdmCtlWrite => exact execMemHdmCtlWrite_keeps _
  | fabModuleIdWrite => exact execFabModuleIdWrite_keeps _
  | fabCtlWrite => exact execFabCtlWrite_keeps _
  | fabFrameCfgWrite => exact execFabFrameCfgWrite_keeps _
  | fabVcWeightHiWrite => exact execFabVcWeightHiWrite_keeps _
  | glbEvlogSelWrite => exact execGlbEvlogSelWrite_keeps _
  | chkSlotWrite => exact execChkSlotWrite_keeps _ _ _
  | chkStart => exact execChkStart_keeps _
  | chkData8 => exact execChkData8_keeps _
  | chkData16 => exact execChkData16_keeps _
  | chkData32 => exact execChkData32_keeps _
  | chkValWrite => exact execChkValWrite_keeps _
  | chkRead => exact execChkRead_keeps _ _
  | registerWrite => exact execRegisterWrite_keeps _ _ _
  | scoreboardClear => exact execScoreboardClear_keeps _ _
  | powerStateChange => exact execPowerStateChange_keeps _
  | snoopPortAttach => exact execSnoopPortAttach_keeps _ _ _
  | snoopResultDequeue => exact execSnoopResultDequeue_keeps _

/-- Settles O1: a step is the front command, run with the queue's rest. -/
theorem stepRunsFrontCommand : Obligations.StepRunsFrontCommand := by
  intro c rest s h
  rw [step, h]

/-- A step never turns time back and keeps well-formed states well-formed; its command is off the queue before it acts. -/
theorem step_keeps_clock_and_wf {s t : State} (h : step s = .next t) : s.now ≤ t.now ∧ (s.Wf → t.Wf) := by
  cases hp : s.pending with
  | nil =>
    rw [step, hp] at h
    cases h
    exact (tick_keeps s).2
  | cons c rest =>
    rw [stepRunsFrontCommand c rest s hp] at h
    obtain ⟨u, hu, -, hnow, hwf⟩ := exec_keeps c { s with pending := rest }
    cases hu.symm.trans h
    exact ⟨hnow, hwf⟩

/-- Settles O3: every command keeps the queue and answers a next state, and no step turns time back. -/
theorem everyCommandAnswersANextState : Obligations.EveryCommandAnswersANextState := by
  refine ⟨fun c s => ?_, fun c s t h => ?_, fun _ _ h => (step_keeps_clock_and_wf h).1⟩
  · obtain ⟨t, ht, -⟩ := exec_keeps c s
    exact ⟨t, ht⟩
  · obtain ⟨u, hu, hpending, -⟩ := exec_keeps c s
    cases hu.symm.trans h
    exact hpending

/-- Settles O4: each command and each clock period keeps the canonical form of every memory and the bound of every store. -/
theorem stepKeepsWellFormed : Obligations.StepKeepsWellFormed := fun _ _ hs h => (step_keeps_clock_and_wf h).2 hs

/-! Reset -/

/-- Settles O5: after reset every memory and every store is empty. -/
theorem resetIsWellFormed : Obligations.ResetIsWellFormed :=
  ⟨⟨rfl, rfl, rfl⟩, reset_cores_wf, reset_hearths_wf, Nat.zero_le _, reset_parts_wf, reset_snoop_wf, reset_chk_wf⟩

theorem reset_ident : (State.reset.readReg 0).toNat = if Config.isA1 then 0x013201B0 else 0x013204B0 := by
  have h : State.reset.readReg 0 = identReg := rfl
  rw [h, identReg]
  split <;> rfl

/-- Settles O60: each register's rule evaluated at the state after reset, GLB_IDENT for either part. -/
theorem resetValues : Obligations.ResetValues :=
  have hregs : ∀ x ∈ ([(0x0000004, 0xFFFF8300), (0x0000008, 0x20), (0x0000010, 1), (0x0000018, 0x0000000A), (0x0000020, 0x0000000C), (0x0100100, 0x000186A0),
      (0x0100500, 0x000003E8), (0x0900000, 0x00003066), (0x0B00100, 5), (0x0B001C0, 0), (0x0C00008, 0x00004027), (0x0C0000C, 0x00000032),
      (0x0C00010, 0x08101C04), (0x0C00014, 0x02020202)] : List (Nat × Nat)), (State.reset.readReg x.1).toNat = x.2 := by decide +kernel
  ⟨rfl, by decide, fun x hx => ⟨hregs x hx, reset_ident⟩⟩

end Sys2Proof.Machine
end

section
/-! PROOFS. The issue of a bundle (R119 to R127): what presenting a slot does when it joins or closes a bundle, what the closing bundle does, and the outstanding writes of registers. -/

namespace Sys2Proof.Machine

variable {s : State} {i : Issue} {g : Fin 512} {o : SlotOp} {act : Core → PReg → Act}

/-! Presenting a slot -/

/-- What a closed bundle `b` does at a core whose fetched words hold their parity: nothing while it stalls, else the end of the task, or its effects once the governor admits them. -/
def State.issues (s : State) (g : Fin 512) (b : Bundle) : State :=
  if b.stall then s
  else match b.fault with
    | some st => s.coreFault g st (s.core g).pc
    | none =>
      if b.eff.vDraw = 0 then s.commitBundle g b
      else match s.requestStart g .v b.eff.vDraw with
        | (true, t) => t.commitBundle g b
        | (false, t) => t

/-- A core that differs from `s` only in the bundle being presented. -/
def State.withBundle (s : State) (g : Fin 512) (b : Bundle) : State := s.setCore g { s.core g with bundle := b }

@[simp] theorem withBundle_core (s : State) (g : Fin 512) (b : Bundle) : (s.withBundle g b).core g = { s.core g with bundle := b } := setCore_core _ _ _

theorem withBundle_core_ne {j : Fin 512} (b : Bundle) (h : j ≠ g) : (s.withBundle g b).core j = s.core j := setCore_core_ne h

theorem withBundle_empty (h : (s.core g).bundle = Bundle.empty) : s.withBundle g Bundle.empty = s := setCore_bundle h

@[simp] theorem withBundle_canIssue (s : State) (g : Fin 512) (b : Bundle) : (s.withBundle g b).canIssue g = s.canIssue g := by
  have htask : (s.withBundle g b).taskOf g = s.taskOf g := rfl
  have hnow : (s.withBundle g b).now = s.now := rfl
  simp only [State.canIssue, State.acts, State.live, withBundle_core, htask, hnow]

theorem present_joins (h : s.canIssue i.core = true) (hu : (s.core i.core).bundle.used.contains o.slot = false) (hc : i.close = false) :
    present i o act s = .next (s.withBundle i.core ((s.core i.core).bundle.add (s.core i.core) i o (act (s.core i.core)))) := by
  simp only [present, h, hu, hc, Bool.not_true, Bool.or_self, Bool.false_eq_true, if_false]
  rfl

/-- A slot that closes a bundle of which `b` has been presented. -/
theorem present_closes {b : Bundle} {c : Core} (h : Alone { i with reserved := false } s) (hu : b.used.contains o.slot = false) (hc : c = { s.core i.core with bundle := b }) :
    present i o act (s.withBundle i.core b) = .next (s.issues i.core (b.add c i o (act c))) := by
  obtain ⟨hissue, hempty, hclose, -, hparity, -⟩ := h
  have hback (x : Bundle) : (s.withBundle i.core x).modCore i.core (fun k => { k with bundle := Bundle.empty }) = s := by
    rw [State.modCore, withBundle_core, State.withBundle, setCore_setCore, setCore_bundle hempty]
  have hnext : present i o act (s.withBundle i.core b) = .next ((s.withBundle i.core (b.add c i o (act c))).issue i.core) := by
    simp only at hissue hclose
    subst hc
    simp only [present, withBundle_canIssue, hissue, withBundle_core, hu, hclose, Bool.not_true, Bool.or_self, Bool.false_eq_true, if_false, if_true]
    rw [State.withBundle, setCore_setCore]
    rfl
  rw [hnext, State.issue]
  simp only [hback, withBundle_core]
  simp only at hparity
  rw [if_neg (by simp [hparity])]
  rfl

/-- A slot that is a bundle by itself. -/
theorem present_single (h : Alone { i with reserved := false } s) :
    present i o act s = .next (s.issues i.core (Bundle.empty.add (s.core i.core) i o (act (s.core i.core)))) := by
  have hempty : (s.core i.core).bundle = Bundle.empty := h.2.1
  have hc : s.core i.core = { s.core i.core with bundle := Bundle.empty } := by rw [← hempty]
  have := present_closes (o := o) (act := act) h (b := Bundle.empty) rfl hc
  rwa [withBundle_empty hempty] at this

theorem Alone.unreserved (h : Alone i s) : Alone { i with reserved := false } s :=
  ⟨h.1, h.2.1, h.2.2.1, rfl, h.2.2.2.2⟩

/-! What a bundle comes to -/

theorem issues_stall {b : Bundle} (h : b.stall = true) : s.issues g b = s := if_pos h

theorem issues_fault {b : Bundle} {st : Status} (hs : b.stall = false) (hf : b.fault = some st) : s.issues g b = s.coreFault g st (s.core g).pc := by
  simp only [State.issues, hs, hf, Bool.false_eq_true, if_false]

/-- A bundle that no V-slot draw holds back. -/
theorem issues_commit {b : Bundle} (hs : b.stall = false) (hf : b.fault = none) (hd : b.eff.vDraw = 0 ∨ Admitted g .v b.eff.vDraw s) : s.issues g b = s.commitBundle g b := by
  simp only [State.issues, hs, hf, Bool.false_eq_true, if_false]
  split
  · rfl
  · rename_i hn
    rw [requestStart_admitted (hd.resolve_left hn)]

/-- R119, R123, R126: whether the decoding of a slot faults its bundle: an illegal or reserved encoding, or a second writer of a register. -/
theorem add_fault_illegal {b : Bundle} {c : Core} {f : PReg → Act}
    (h : o.illegal = true ∨ i.reserved = true ∨ (o.dests.any fun r => regSingle r && b.dests.contains r) = true) : (b.add c i o f).fault = some stIllegal := by
  simp only [Bundle.add]
  rw [if_pos]
  simpa [Bool.or_eq_true, or_assoc] using h

/-- An instruction that a fault at decode ends, and that no outstanding register holds, ends the task, whatever its guard. -/
theorem present_decodeFault (h : Alone { i with reserved := false } s) (hp : (s.core i.core).busy (.p i.gp) = false)
    (hr : ∀ r ∈ o.reads ++ o.dests, (s.core i.core).busy r = false) (hi : o.illegal = true ∨ i.reserved = true) :
    ∃ t, present i o act s = .next t ∧ TaskEndsAt s t i.core 0x0104 (s.core i.core).pc := by
  have hany : (o.reads ++ o.dests).any (s.core i.core).busy = false := List.any_eq_false.2 fun r hm => by simp [hr r hm]
  have hrun : (!o.illegal && !i.reserved) = false := by rcases hi with hi | hi <;> simp [hi]
  refine ⟨_, present_single h, ?_⟩
  rw [issues_fault ?stall (add_fault_illegal (by tauto))]
  · exact coreFault_ends stIllegal _ _ _ (canIssue_live h.1)
  case stall =>
    simp only [Bundle.add, hp, hany, Bool.and_false, Bool.or_false, Bool.not_false, Bool.and_true, Bundle.empty, Bool.false_or]
    rw [Bool.and_assoc, hrun, Bool.and_false]
    rfl

/-- Without a control effect, an M-slot instruction or the last bundle's end, a bundle's data effects act and the sequencer moves on. -/
theorem commitBundle_data {b : Bundle} (hc : b.ctl = []) (hm : b.eff.mop = none) (hp : (s.core g).pc ≠ s.lastBundle g) :
    s.commitBundle g b = s.setCore g { (s.core g).commit b.eff s.now with pc := (s.core g).pc + 1 } := by
  simp only [State.commitBundle, hc, hm, List.foldl_nil, Option.isSome_none, Bool.false_eq_true, if_false]
  exact if_neg fun h => hp h.1

/-- An instruction whose guard lets it execute and whose registers are free joins the bundle with all its effects. -/
theorem add_executes {b : Bundle} {c : Core} {f : PReg → Act} (hrun : o.guard.executes i (guardMask c i) = true) (hp : c.busy (.p i.gp) = false)
    (hr : ∀ r ∈ o.reads ++ o.dests, c.busy r = false) (hi : o.illegal = false) (hres : i.reserved = false) (hdup : ∀ r ∈ o.dests, r ∉ b.dests) (hf : b.fault = none) :
    b.add c i o f = ⟨b.used ++ [o.slot], b.dests ++ o.dests, b.eff.join (f (guardMask c i)).eff, b.ctl ++ (f (guardMask c i)).ctl,
      (f (guardMask c i)).fault, b.stall || (f (guardMask c i)).stall⟩ := by
  have hany : (o.reads ++ o.dests).any c.busy = false := List.any_eq_false.2 fun r hm => by simp [hr r hm]
  have hsingle : (o.dests.any fun r => regSingle r && b.dests.contains r) = false := List.any_eq_false.2 fun r hm => by simp [hdup r hm]
  simp only [Bundle.add, hrun, hp, hany, hi, hres, hsingle, hf, Bool.and_false, Bool.or_false, Bool.not_false, Bool.and_self, if_true, Bool.false_eq_true, if_false,
    Option.isSome_none]

/-- A slot stalls its bundle only where a register that it needs is outstanding or its own effect stalls. -/
theorem add_stall_eq_false {b : Bundle} {c : Core} {f : PReg → Act} (hb : b.stall = false) (hp : c.busy (.p i.gp) = false)
    (hr : ∀ r ∈ o.reads ++ o.dests, c.busy r = false) (hf : ∀ m, (f m).stall = false) : (b.add c i o f).stall = false := by
  have hany : (o.reads ++ o.dests).any c.busy = false := List.any_eq_false.2 fun r hm => by simp [hr r hm]
  simp only [Bundle.add, hb, hp, hany, Bool.and_false, Bool.or_false, Bool.false_or]
  split
  · exact hf _
  · rfl

/-! NOP and guarded-off instructions -/

/-- R120: p0 reads all ones, so an instruction without a guard executes. -/
theorem guardMask_unguarded (c : Core) (hp : i.gp = 0) (hn : i.gneg = false) : guardMask c i = BitVec.allOnes 256 := by
  simp [guardMask, hn, hp, Core.getP]

theorem guarded_iff : guarded i = true ↔ i.gp ≠ 0 ∨ i.gneg = true := by
  simp [guarded]

theorem guarded_eq_false (hp : i.gp = 0) (hn : i.gneg = false) : guarded i = false := by
  simp [guarded, hp, hn]

/-- An instruction without a guard that reads and writes no register executes. -/
theorem executes_unguarded (h : Alone i s) (hp : i.gp = 0) (hn : i.gneg = false) : Executes .lane0 i [] s := by
  refine ⟨h, ?_, fun r hr => ?_⟩
  · rw [guardMask_unguarded _ hp hn]
    rfl
  · rw [List.mem_singleton.1 hr, hp]
    rfl

theorem exec_nop_issued (h : Alone i s) (hp : i.gp = 0) (hn : i.gneg = false) (slot : SlotId) : exec (.nop i slot) s = .next (s.issued i.core []) := by
  rw [exec_nop]
  exact present_writes (executes_unguarded h hp hn) (guarded_eq_false hp hn) rfl rfl

/-- Settles O6: an instruction whose guard is off only moves the sequencer on, and a NOP with a guard is illegal whatever the guard holds. -/
theorem guardedOffInstructionHasNoEffect : Obligations.GuardedOffInstructionHasNoEffect := by
  intro i s h hp
  refine ⟨fun hg => ⟨fun rd ra rb => ?add, fun rd ra imm => ?sld, fun rd ra imm => ?sst, fun t rp => ?br, fun a b d asrc rs => ?mxa, fun q rs => ?dmaq, fun td rs => ?tdl,
      fun rd pd hrt ctr inc rs => ?wclaim, fun rt tok cnt hn => ?signal, fun tok cnt hn => ?wait⟩, fun hg => ?perLane,
    fun slot => ⟨fun hgp hn => exec_nop_issued h hgp hn slot, fun hi => ?guardedNop⟩⟩
  case add => rw [exec_add, execAdd, scalarRR]; exact present_off h hp rfl hg
  case sld => rw [exec_sld, execSld]; exact present_off h hp rfl hg
  case sst => rw [exec_sst, execSst]; exact present_off h hp rfl hg
  case br => rw [exec_br, execBr.eq_def]; exact present_off h hp rfl hg
  case mxa => rw [exec_mxa, execMxa]; exact present_off h hp rfl hg
  case dmaq => rw [exec_dmaq, execDmaq]; exact present_off h hp rfl hg
  case tdl => rw [exec_tdl, execTdl]; exact present_off h hp rfl hg
  case wclaim => rw [exec_wclaim, execWclaim]; exact present_off h hp rfl hg
  case signal => rw [exec_signal, execSignal]; exact present_off h hp (decide_eq_false hn) hg
  case wait => rw [exec_wait, execWait]; exact present_off h hp (decide_eq_false hn) hg
  case perLane =>
    have hoff : GuardKind.perLane.executes i (guardMask (s.core i.core) i) = false := decide_eq_false (by simp [hg])
    refine ⟨fun vd va vb => ?_, fun vd rs imm => ?_⟩
    · rw [exec_vadd, execVadd, vector2]; exact present_off h hp rfl hoff
    · rw [exec_vst, execVst]; exact present_off h hp rfl hoff
  case guardedNop =>
    rw [EndsTask, exec_nop]
    exact present_decodeFault h.unreserved hp (by simp) (.inl (guarded_iff.2 hi))

/-! Instructions that do not issue -/

/-- R124: each sample instruction with an outstanding register leaves the core as it stood. -/
theorem busy_doesNotIssue {r : Reg} (h : Alone i s) (hg : GuardKind.lane0.executes i (guardMask (s.core i.core) i) = true) (hr : (s.core i.core).busy r = true) :
    (∀ rd ra rb, r = .s rd ∨ r = .s ra ∨ r = .s rb → exec (.add i rd ra rb) s = .next s)
    ∧ (∀ td rs, r = .s rs ∨ r = .td td → exec (.tdl i td rs) s = .next s)
    ∧ (∀ vd rs lane, r = .s rs ∨ r = .v vd → exec (.vins i vd rs lane) s = .next s)
    ∧ (∀ imm target, r = .s imm → exec (.loop i imm target) s = .next s) := by
  refine ⟨fun rd ra rb hm => ?_, fun td rs hm => ?_, fun vd rs lane hm => ?_, fun imm target hm => ?_⟩
  · rw [exec_add, execAdd, scalarRR]
    exact present_busy h hg (r := r) (by simp only [cOp]; simp; tauto) hr
  · rw [exec_tdl, execTdl]
    exact present_busy h hg (r := r) (by simp only [dOp]; simp; tauto) hr
  · rw [exec_vins, execVins]
    exact present_busy h hg (r := r) (by simp; tauto) hr
  · rw [exec_loop, execLoop]
    exact present_busy h hg (r := r) (by simp only [cOp]; simp; tauto) hr

/-- R110, R124: a core that may not issue ignores an instruction of any slot. -/
theorem blocked_takesNoInstruction (h : s.canIssue i.core = false) :
    (∀ slot, exec (.nop i slot) s = .next s) ∧ (∀ rd ra rb, exec (.add i rd ra rb) s = .next s) ∧ (∀ rd ra imm, exec (.sst i rd ra imm) s = .next s)
    ∧ (∀ b, exec (.brnd i b) s = .next s) ∧ (∀ vd va vb, exec (.vfma i vd va vb vb) s = .next s) ∧ (∀ q rs, exec (.dmaq i q rs) s = .next s)
    ∧ (∀ num, exec (.ebar i num) s = .next s) ∧ (∀ tok cnt, exec (.wait i tok cnt) s = .next s) := by
  refine ⟨fun slot => ?_, fun rd ra rb => ?_, fun rd ra imm => ?_, fun b => ?_, fun vd va vb => ?_, fun q rs => ?_, fun num => ?_, fun tok cnt => ?_⟩
  · rw [exec_nop, execNop, present_ignored h]
  · rw [exec_add, execAdd, scalarRR, present_ignored h]
  · rw [exec_sst, execSst, present_ignored h]
  · rw [exec_brnd, execBrnd, present_ignored h]
  · rw [exec_vfma, execVfma, present_ignored h]
  · rw [exec_dmaq, execDmaq, present_ignored h]
  · rw [exec_ebar, execEbar, present_ignored h]
  · rw [exec_wait, execWait, present_ignored h]

/-- Settles O7: a busy register stalls the bundle, a blocked core ignores the slot, and an open bundle takes it in. -/
theorem instructionsThatDoNotIssue : Obligations.InstructionsThatDoNotIssue := by
  refine ⟨fun i s r h hg hr => busy_doesNotIssue h hg hr, fun i s h => blocked_takesNoInstruction h, fun i s h hc rd ra rb hu => ?_⟩
  rw [exec_add, execAdd, scalarRR]
  refine ⟨_, present_joins h hu hc, fun j hj => withBundle_core_ne _ hj, rfl, ?_, ?_, ?_⟩ <;> rw [withBundle_core]
  · rfl
  · rfl

/-! Bundles of two slots -/

/-- The bundle that an ADD opens. -/
def addBundle (c : Core) (rd ra rb : Fin 32) : Bundle := ⟨[.c], [.s rd], { Staged.empty with writes := wS rd (c.getS ra + c.getS rb) }, [], none, false⟩

theorem add_opens {rd ra rb : Fin 32} {rs : List Reg} (hc : i.close = false) (h : Executes .lane0 { i with close := true } rs s)
    (hrs : ∀ r ∈ [Reg.s rd, .s ra, .s rb], r ∈ rs) : exec (.add i rd ra rb) s = .next (s.withBundle i.core (addBundle (s.core i.core) rd ra rb)) := by
  have hissue : s.canIssue i.core = true := h.1.1
  have hempty : (s.core i.core).bundle = Bundle.empty := h.1.2.1
  have hres : i.reserved = false := h.1.2.2.2.1
  have hrun : GuardKind.lane0.executes i (guardMask (s.core i.core) i) = true := h.2.1
  have hfree (r : Reg) (hr : r ∈ Reg.p i.gp :: rs) : (s.core i.core).busy r = false := h.2.2 r hr
  rw [exec_add, execAdd, scalarRR, present_joins hissue (by rw [hempty]; rfl) hc, hempty,
    add_executes hrun (hfree _ List.mem_cons_self) (fun r hr => hfree r (List.mem_cons_of_mem _ (hrs r ?_))) rfl hres (fun _ _ => List.not_mem_nil) rfl]
  · rfl
  · simp only [cOp] at hr
    simp at hr ⊢
    tauto

/-- Settles O8: the VINS that closes the bundle reads the registers of the core before it, and both writes are outstanding. -/
theorem bundleReadsRegistersAsBefore : Obligations.BundleReadsRegistersAsBefore := by
  rintro i s rd ra rb rs vd lane hc h hd rfl
  refine ⟨_, add_opens hc h (by simp), ?_⟩
  have ⟨halone, hrun, hfree⟩ := h
  have hadd {f : PReg → Act} := add_executes (i := { i with close := true }) (o := ⟨.v, .lane0, false, [.s rs], [.v vd]⟩) (b := addBundle (s.core i.core) rs ra rb)
    (c := { s.core i.core with bundle := addBundle (s.core i.core) rs ra rb }) (f := f) hrun (hfree _ List.mem_cons_self)
    (fun r hr => hfree r (by simp at hr ⊢; tauto)) rfl halone.2.2.2.1 (by simp [addBundle]) rfl
  rw [exec_vins, execVins, present_closes (b := addBundle (s.core i.core) rs ra rb) halone.unreserved rfl rfl]
  refine congrArg _ ((congrArg (s.issues i.core) hadd).trans ((issues_commit rfl rfl (.inr ?_)).trans (commit_writes rfl rfl halone.2.2.2.2.2)))
  exact hd

/-- Settles O9: a second writer, and a reserved encoding, are faults of decoding, which no guard prevents. -/
theorem twoWritersOfOneRegisterEndTheTask : Obligations.TwoWritersOfOneRegisterEndTheTask := by
  refine ⟨fun i s rd ra rb vx lane hc hrd h off => ?twoWriters, fun i s a b c k l m slot q w hres h hfree => ?reserved⟩
  case twoWriters =>
    have ⟨halone, hrun, hfree⟩ := h
    refine ⟨_, s.coreFault i.core stIllegal (s.core i.core).pc, add_opens hc h (by simp), ?_, coreFault_ends stIllegal _ _ _ (canIssue_live halone.1)⟩
    have halone' : Alone { { i with close := true, gp := if off then 0 else i.gp, gneg := off || i.gneg } with reserved := false } s := halone.unreserved
    rw [exec_vext, execVext, present_closes (b := addBundle (s.core i.core) rd ra rb) halone' rfl rfl]
    refine congrArg _ (issues_fault ?stall (add_fault_illegal (.inr (.inr ?dup))))
    case dup => simp [addBundle, regSingle, regReal, hrd]
    case stall =>
      refine add_stall_eq_false rfl ?_ (fun r hr => hfree r (by simp at hr ⊢; tauto)) fun _ => rfl
      cases off
      · exact hfree _ List.mem_cons_self
      · rfl
  case reserved =>
    have fails (o : SlotOp) (act : Core → PReg → Act) := present_decodeFault (o := o) (act := act) h (hfree _) (fun r _ => hfree r) (.inr hres)
    simp only [List.forall_mem_cons, List.not_mem_nil, false_implies, implies_true, and_true, EndsTask]
    rw [exec_nop, execNop, exec_add, execAdd, scalarRR, exec_sld, execSld, exec_mxa, execMxa, exec_vadd, execVadd, vector2, exec_vst, execVst, exec_dmaq, execDmaq, exec_tdl, execTdl]
    exact ⟨fails _ _, fails _ _, fails _ _, fails _ _, fails _ _, fails _ _, fails _ _, fails _ _⟩

/-! Outstanding writes (R127) -/

section
variable (c : Core) (w : RegWrite)

/-- A write changes the register files and no more. -/
theorem applyWrite_rest : { c.applyWrite w with s := c.s, v := c.v, p := c.p, td := c.td } = c := by
  unfold Core.applyWrite
  split
  · split <;> rfl
  · rfl
  · split <;> rfl
  · rfl
  · rfl

theorem applyWrite_getS_same (n : Fin 32) (x : W64) (d : Nat) : (c.applyWrite ⟨.s n, .s x, d⟩).getS n = if n = 0 then 0 else x := by
  by_cases hn : n = 0 <;> simp [Core.applyWrite, Core.getS, hn]

theorem applyWrite_getV_same (n : Fin 32) (x : VReg) (d : Nat) : (c.applyWrite ⟨.v n, .v x, d⟩).getV n = x := by
  simp [Core.applyWrite, Core.getV]

theorem applyWrite_getP_same (n : Fin 8) (x : PReg) (d : Nat) : (c.applyWrite ⟨.p n, .p x, d⟩).getP n = if n = 0 then BitVec.allOnes 256 else x := by
  by_cases hn : n = 0 <;> simp [Core.applyWrite, Core.getP, hn]

theorem applyWrite_td_same (n : Fin 16) (x : Desc) (d : Nat) : (c.applyWrite ⟨.td n, .td x, d⟩).td[n] = some x := by
  simp [Core.applyWrite]

variable {w}

theorem applyWrite_getS_other {n : Fin 32} (h : w.reg ≠ .s n) : (c.applyWrite w).getS n = c.getS n := by
  unfold Core.applyWrite
  split
  case h_1 k x hreg _ =>
    have hk : k.val ≠ n.val := fun hv => h (by rw [hreg, Fin.ext hv])
    split <;> simp [Core.getS, hk]
  case h_3 => split <;> rfl
  all_goals rfl

theorem applyWrite_getV_other {n : Fin 32} (h : w.reg ≠ .v n) : (c.applyWrite w).getV n = c.getV n := by
  unfold Core.applyWrite
  split
  case h_1 => split <;> rfl
  case h_2 k x hreg _ =>
    have hk : k.val ≠ n.val := fun hv => h (by rw [hreg, Fin.ext hv])
    simp [Core.getV, hk]
  case h_3 => split <;> rfl
  all_goals rfl

theorem applyWrite_getP_other {n : Fin 8} (h : w.reg ≠ .p n) : (c.applyWrite w).getP n = c.getP n := by
  unfold Core.applyWrite
  split
  case h_1 => split <;> rfl
  case h_3 k x hreg _ =>
    have hk : k.val ≠ n.val := fun hv => h (by rw [hreg, Fin.ext hv])
    split <;> simp [Core.getP, hk]
  all_goals rfl

theorem applyWrite_td_other {n : Fin 16} (h : w.reg ≠ .td n) : (c.applyWrite w).td[n] = c.td[n] := by
  unfold Core.applyWrite
  split
  case h_1 => split <;> rfl
  case h_3 => split <;> rfl
  case h_4 k x hreg _ =>
    have hk : k.val ≠ n.val := fun hv => h (by rw [hreg, Fin.ext hv])
    simp [hk]
  all_goals rfl

end

/-- Settles O10: the oldest write of its register takes effect and leaves the list of outstanding ones. -/
theorem outstandingWriteTakesEffect : Obligations.OutstandingWriteTakesEffect := by
  intro s g w rest h
  have hexec : exec (.scoreboardClear g w.reg) s = .next (s.setCore g { (s.core g).applyWrite w with inflight := rest }) := by
    rw [exec_scoreboardClear, execScoreboardClear, h]
    simp [State.modCore, h]
  refine ⟨_, hexec, ?_⟩
  rw [setCore_core]
  obtain ⟨reg, val, draw⟩ := w
  refine ⟨rfl, rfl, ?_, ?_, ?_, ?_, fun n hn => applyWrite_getS_other _ hn, fun n hn => applyWrite_getV_other _ hn, fun n hn => applyWrite_getP_other _ hn,
    fun n hn => applyWrite_td_other _ hn, ?_⟩
  · rintro n x rfl rfl
    exact applyWrite_getS_same _ n x draw
  · rintro n x rfl rfl
    exact applyWrite_getV_same _ n x draw
  · rintro n x rfl rfl
    exact applyWrite_getP_same _ n x draw
  · rintro n x rfl rfl
    exact applyWrite_td_same _ n x draw
  · exact congrArg (fun k : Core => { k with inflight := (s.core g).inflight }) (applyWrite_rest (s.core g) ⟨reg, val, draw⟩)

end Sys2Proof.Machine
end

section
/-! PROOFS. Bytes and little-endian numbers (R4), and stores under a mask. -/

namespace Sys2Proof.Machine

theorem leNat_lt (bs : List Byte) : leNat bs < 256 ^ bs.length := by
  induction bs with
  | nil => simp [leNat]
  | cons b r ih =>
    have hb := b.isLt
    simp only [leNat, List.length_cons, Nat.pow_succ]
    omega

/-- R4: byte `k` of a little-endian number. -/
theorem leNat_digit (bs : List Byte) : ∀ k (hk : k < bs.length), leNat bs / 256 ^ k % 256 = bs[k].toNat := by
  induction bs with
  | nil => intro k hk; simp at hk
  | cons b r ih =>
    have hb := b.isLt
    intro k hk
    cases k with
    | zero => simp only [leNat, Nat.pow_zero, Nat.div_one, List.getElem_cons_zero]; omega
    | succ k =>
      have hdiv : leNat (b :: r) / 256 = leNat r := by simp only [leNat]; omega
      rw [Nat.pow_succ', ← Nat.div_div_eq_div_mul, hdiv, List.getElem_cons_succ]
      exact ih k (by simpa using hk)

theorem getElem_toLE (k : Nat) : ∀ (n j : Nat) (h : j < (toLE n k).length), (toLE n k)[j] = BitVec.ofNat 8 (n / 256 ^ j) := by
  induction k with
  | zero => intro n j h; simp [toLE] at h
  | succ k ih =>
    intro n j h
    cases j with
    | zero => simp [toLE]
    | succ j =>
      simp only [toLE, List.getElem_cons_succ]
      rw [ih, Nat.div_div_eq_div_mul, Nat.pow_succ']

/-- R4: byte `k` of a word that holds a little-endian number. -/
theorem ofNat_byte {w : Nat} (n k : Nat) (hk : 8 * k + 8 ≤ w) : ((BitVec.ofNat w n) >>> (8 * k)).setWidth 8 = BitVec.ofNat 8 (n / 256 ^ k) := by
  have hpow : (256 : Nat) ^ k = 2 ^ (8 * k) := by rw [Nat.pow_mul]
  apply BitVec.eq_of_getLsbD_eq
  intro j hj
  rw [BitVec.getLsbD_setWidth, BitVec.getLsbD_ushiftRight, BitVec.getLsbD_ofNat, BitVec.getLsbD_ofNat, hpow, Nat.testBit_div_two_pow]
  simp [hj, show j + 8 * k < w by omega, Nat.add_comm (8 * k)]

theorem shiftRight_byte {w : Nat} (x : BitVec w) (k : Nat) (hk : 8 * k + 8 ≤ w) : (x >>> (8 * k)).setWidth 8 = BitVec.ofNat 8 (x.toNat / 256 ^ k) := by
  rw [← ofNat_byte x.toNat k hk, BitVec.ofNat_toNat, BitVec.setWidth_eq]

@[simp] theorem length_readBytes (m : List Host.Cell) (a n : Nat) : (readBytes m a n).length = n := by simp [readBytes]

@[simp] theorem getElem_readBytes (m : List Host.Cell) (a n j : Nat) (h : j < (readBytes m a n).length) : (readBytes m a n)[j] = readByte m (a + j) := by
  simp [readBytes]

/-- R4, R132: byte `k` of a word loaded from memory. -/
theorem loaded_byte {w : Nat} (m : List Host.Cell) (a n k : Nat) (hk : k < n) (hw : 8 * k + 8 ≤ w) :
    ((BitVec.ofNat w (leNat (readBytes m a n))) >>> (8 * k)).setWidth 8 = readByte m (a + k) := by
  have hdigit := leNat_digit (readBytes m a n) k (by simpa using hk)
  rw [ofNat_byte _ _ hw]
  apply BitVec.eq_of_toNat_eq
  rw [BitVec.toNat_ofNat, hdigit, getElem_readBytes]

/-! Stores under a mask -/

theorem readByte_writeMasked_outside (bs : List (Option Byte)) : ∀ {m : List Host.Cell} {a x : Nat}, Memory.wf m = true → x < a ∨ a + bs.length ≤ x →
    readByte (writeMasked m a bs) x = readByte m x := by
  induction bs with
  | nil => intros; rfl
  | cons b r ih =>
    intro m a x h hx
    simp only [List.length_cons] at hx
    cases b with
    | none => exact ih h (by omega)
    | some b => rw [writeMasked, ih (writeByte_wf h) (by omega), readByte_writeByte_other h (by omega)]

/-- A byte under the mask is written where the mask enables it, and kept where not. -/
theorem readByte_writeMasked_inside (bs : List (Option Byte)) : ∀ {m : List Host.Cell} {a : Nat} (k : Nat) (hk : k < bs.length), Memory.wf m = true →
    readByte (writeMasked m a bs) (a + k) = bs[k].getD (readByte m (a + k)) := by
  induction bs with
  | nil => intro _ _ k hk; simp at hk
  | cons b r ih =>
    intro m a k hk h
    have hk' : k < r.length + 1 := hk
    cases k with
    | zero =>
      cases b with
      | none => exact readByte_writeMasked_outside r h (by omega)
      | some b => exact (readByte_writeMasked_outside r (writeByte_wf h) (by omega)).trans (readByte_writeByte_same h)
    | succ k =>
      have hadd : a + (k + 1) = a + 1 + k := by omega
      cases b with
      | none => rw [writeMasked, hadd, ih k (by omega) h]; rfl
      | some b =>
        rw [writeMasked, hadd, ih k (by omega) (writeByte_wf h), readByte_writeByte_other h (by omega)]
        rfl

/-! Ranges cleared, and the memories of the module address space -/

theorem tget_filter {α : Type} [DecidableEq α] {z : α} (P : Nat → Bool) (a : Nat) : ∀ {m : List (Nat × α)} {lo : Option Nat}, twf z lo m = true →
    tget z (m.filter fun c => P c.1) a = if P a then tget z m a else z
  | [], _, _ => by simp [tget]
  | (k, x) :: r, lo, h => by
    obtain ⟨-, hr⟩ := Bool.and_eq_true_iff.1 h
    have ih := tget_filter P a hr
    have hbelow : a ≤ k → tget z r a = z := tget_below hr
    by_cases hk : P k = true
    · rw [List.filter_cons_of_pos (by exact hk), tget, tget]
      by_cases hak : a = k
      · subst hak
        simp [hk]
      · rw [if_neg hak, if_neg hak, ih]
        split_ifs <;> rfl
    · rw [List.filter_cons_of_neg (by exact hk), ih, tget]
      by_cases hak : a = k
      · subst hak
        simp [hk]
      · rw [if_neg hak]
        by_cases hlt : a < k
        · rw [if_pos hlt, hbelow hlt.le]
        · rw [if_neg hlt]

theorem readByte_clearRange {m : List Host.Cell} (lo hi a : Nat) (h : Memory.wf m = true) : readByte (clearRange m lo hi) a = if lo ≤ a ∧ a < hi then 0 else readByte m a := by
  have hread := tget_filter (fun k => !(decide (lo ≤ k) && decide (k < hi))) a h
  refine hread.trans ?_
  by_cases hin : lo ≤ a ∧ a < hi
  · simp [hin]
  · rw [if_neg hin, if_pos (by simp only [Bool.not_eq_true', Bool.and_eq_false_iff, decide_eq_false_iff_not]; omega)]
    rfl

theorem mem_write_hbm {m : Mem} {a : Nat} (bs : List Byte) (ha : a < hbmTop) : (m.write a bs).hbm = writeBytes m.hbm a bs := by
  rw [Mem.write, if_pos ha]

end Sys2Proof.Machine
end

section
/-! PROOFS. The C slot (R130 to R135): scalar arithmetic, branches, scalar memory, system values and EMBER. -/

namespace Sys2Proof.Machine

variable {s : State} {i : Issue}

/-! Instructions by themselves -/

section
variable {o : SlotOp} {act : Core → PReg → Act} {a : Act}

/-- An instruction by itself that neither faults nor stalls commits what it asks for, once the governor admits its draw. -/
theorem present_commits (h : Executes o.guard i (o.reads ++ o.dests) s) (hi : o.illegal = false) (ha : act (s.core i.core) (guardMask (s.core i.core) i) = a)
    (hs : a.stall = false) (hf : a.fault = none) (hd : a.eff.vDraw = 0 ∨ Admitted i.core .v a.eff.vDraw s) :
    present i o act s = .next (s.commitBundle i.core ⟨[o.slot], o.dests, a.eff, a.ctl, none, false⟩) := by
  rw [present_alone h hi, ha]
  simp only [State.finish, hs, hf, Bool.false_eq_true, if_false]
  split
  · rfl
  · rename_i hn
    rw [requestStart_admitted (hd.resolve_left hn)]

/-- An instruction by itself with data effects alone. -/
theorem present_data (h : Executes o.guard i (o.reads ++ o.dests) s) (hi : o.illegal = false) (ha : act (s.core i.core) (guardMask (s.core i.core) i) = a)
    (hs : a.stall = false) (hf : a.fault = none) (hc : a.ctl = []) (hm : a.eff.mop = none) (hd : a.eff.vDraw = 0 ∨ Admitted i.core .v a.eff.vDraw s) :
    present i o act s = .next (s.setCore i.core { (s.core i.core).commit a.eff s.now with pc := (s.core i.core).pc + 1 }) := by
  rw [present_commits h hi ha hs hf hd, commitBundle_data hc hm h.1.2.2.2.2.2]

/-- R109, R170: an instruction by itself that meets a fault at issue ends the task. -/
theorem present_faults {st : Status} (h : Executes o.guard i (o.reads ++ o.dests) s) (hi : o.illegal = false)
    (ha : act (s.core i.core) (guardMask (s.core i.core) i) = a) (hs : a.stall = false) (hf : a.fault = some st) :
    ∃ t, present i o act s = .next t ∧ TaskEndsAt s t i.core st (s.core i.core).pc := by
  refine ⟨_, present_alone h hi, ?_⟩
  simp only [ha, State.finish, hs, hf, Bool.false_eq_true, if_false]
  exact coreFault_ends st _ _ _ (canIssue_live h.1.1)

/-- An instruction by itself that stalls leaves the state as it was. -/
theorem present_stalls (h : Executes o.guard i (o.reads ++ o.dests) s) (hi : o.illegal = false)
    (ha : act (s.core i.core) (guardMask (s.core i.core) i) = a) (hs : a.stall = true) : present i o act s = .next s := by
  rw [present_alone h hi, ha]
  simp only [State.finish, hs, if_true]

end

/-! Scalar arithmetic (R130) -/

theorem shiftLeft_eq_ofNat {w : Nat} (a : BitVec w) (k : Nat) : a <<< k = BitVec.ofNat w (a.toNat * 2 ^ k) :=
  BitVec.eq_of_toNat_eq (by rw [BitVec.toNat_shiftLeft, Nat.shiftLeft_eq, BitVec.toNat_ofNat])

theorem ushiftRight_eq_ofNat {w : Nat} (a : BitVec w) (k : Nat) : a >>> k = BitVec.ofNat w (a.toNat / 2 ^ k) := by
  have h : a.toNat / 2 ^ k < 2 ^ w := (Nat.div_le_self _ _).trans_lt a.isLt
  exact BitVec.eq_of_toNat_eq (by rw [BitVec.toNat_ushiftRight, Nat.shiftRight_eq_div_pow, BitVec.toNat_ofNat, Nat.mod_eq_of_lt h])

theorem sshiftRight_eq_ofInt {w : Nat} (a : BitVec w) (k : Nat) : a.sshiftRight k = BitVec.ofInt w (a.toInt / 2 ^ k) := by
  rw [← BitVec.ofInt_toInt (x := a.sshiftRight k), BitVec.toInt_sshiftRight, Int.shiftRight_eq_div_pow]
  rfl

theorem mul_eq_ofNat {w : Nat} (a b : BitVec w) : a * b = BitVec.ofNat w (a.toNat * b.toNat) :=
  BitVec.eq_of_toNat_eq (by rw [BitVec.toNat_mul, BitVec.toNat_ofNat])

theorem ite_slt_eq_min {w : Nat} (a b : BitVec w) : (if b.slt a then b else a) = BitVec.ofInt w (min a.toInt b.toInt) := by
  simp only [BitVec.slt, decide_eq_true_eq]
  split
  · rw [min_eq_right (by omega), BitVec.ofInt_toInt]
  · rw [min_eq_left (by omega), BitVec.ofInt_toInt]

theorem ite_slt_eq_max {w : Nat} (a b : BitVec w) : (if a.slt b then b else a) = BitVec.ofInt w (max a.toInt b.toInt) := by
  simp only [BitVec.slt, decide_eq_true_eq]
  split
  · rw [max_eq_right (by omega), BitVec.ofInt_toInt]
  · rw [max_eq_left (by omega), BitVec.ofInt_toInt]

/-- The low half of a sign-extended immediate is the immediate. -/
theorem sext_toNat_mod (imm : W32) : (sext imm).toNat % 2 ^ 32 = imm.toNat := by
  have h : (sext imm).setWidth 32 = imm := by
    apply BitVec.eq_of_getLsbD_eq
    intro j hj
    simp only [sext, BitVec.getLsbD_setWidth, BitVec.getLsbD_signExtend, hj, show j < 64 by omega, decide_true, Bool.true_and, if_true]
  rw [← BitVec.toNat_setWidth, h]

theorem shiftAmount_sext (imm : W32) : shiftAmount (sext imm) = imm.toNat % 64 := by
  have h := sext_toNat_mod imm
  rw [shiftAmount]
  omega

/-- R130: LUI puts the immediate above the low half of a register. -/
theorem lui_eq_ofNat (a : W64) (imm : W32) : (sext imm <<< 32) ||| (a &&& 0xFFFFFFFF) = BitVec.ofNat 64 (imm.toNat * 2 ^ 32 + a.toNat % 2 ^ 32) := by
  have hlow : a.toNat % 2 ^ 32 < 2 ^ 32 := Nat.mod_lt _ (by decide)
  have himm := imm.isLt
  have hhigh : (sext imm).toNat * 2 ^ 32 % 2 ^ 64 = imm.toNat * 2 ^ 32 := by
    have h := sext_toNat_mod imm
    omega
  apply BitVec.eq_of_toNat_eq
  rw [BitVec.toNat_or, BitVec.toNat_and, BitVec.toNat_shiftLeft, Nat.shiftLeft_eq, hhigh, BitVec.toNat_ofNat, Nat.mod_eq_of_lt (by omega),
    ← Nat.shiftLeft_eq, Nat.shiftLeft_add_eq_or_of_lt hlow]
  exact congrArg _ (Nat.and_two_pow_sub_one_eq_mod a.toNat 32)

theorem scalarRR_writes {rd ra rb : Fin 32} {f : W64 → W64 → W64} {x : W64} (h : Executes .lane0 i [.s ra, .s rb, .s rd] s)
    (hx : f ((s.core i.core).getS ra) ((s.core i.core).getS rb) = x) : scalarRR i rd ra rb f s = .next (s.issued i.core [⟨.s rd, .s x, 0⟩]) := by
  rw [scalarRR, ← hx]
  exact present_writes (o := cOp _ _) h rfl rfl rfl

theorem scalarRI_writes {rd ra : Fin 32} {imm : W32} {f : W64 → W64 → W64} {x : W64} (h : Executes .lane0 i [.s ra, .s rd] s)
    (hx : f ((s.core i.core).getS ra) (sext imm) = x) : scalarRI i rd ra imm f s = .next (s.issued i.core [⟨.s rd, .s x, 0⟩]) := by
  rw [scalarRI, ← hx]
  exact present_writes (o := cOp _ _) h rfl rfl rfl

/-- Settles O11: each operation's function of the two registers is the arithmetic that R130 gives. -/
theorem scalarRegisterResults : Obligations.ScalarRegisterResults := by
  rintro i rd ra rb s _ _ _ h rfl rfl rfl
  simp only [WritesS]
  rw [exec_add, execAdd, exec_sub, execSub, exec_and, execAnd, exec_or, execOr, exec_xor, execXor, exec_shl, execShl, exec_shr, execShr, exec_sra, execSra,
    exec_mul, execMul, exec_mulhu, execMulhu, exec_min, execMin, exec_max, execMax]
  exact ⟨scalarRR_writes h rfl, scalarRR_writes h rfl, scalarRR_writes h rfl, scalarRR_writes h rfl, scalarRR_writes h rfl,
    scalarRR_writes h (shiftLeft_eq_ofNat _ _), scalarRR_writes h (ushiftRight_eq_ofNat _ _), scalarRR_writes h (sshiftRight_eq_ofInt _ _),
    scalarRR_writes h (mul_eq_ofNat _ _), scalarRR_writes h rfl, scalarRR_writes h (ite_slt_eq_min _ _), scalarRR_writes h (ite_slt_eq_max _ _)⟩

/-- Settles O12: as O11, with the sign-extended immediate in the second register's place. -/
theorem scalarImmediateResults : Obligations.ScalarImmediateResults := by
  rintro i rd ra imm s _ _ _ h rfl rfl rfl
  simp only [WritesS]
  rw [exec_addi, execAddi, exec_andi, execAndi, exec_ori, execOri, exec_xori, execXori, exec_shli, execShli, exec_shri, execShri, exec_srai, execSrai, exec_lui, execLui,
    ← shiftAmount_sext imm]
  exact ⟨scalarRI_writes h rfl, scalarRI_writes h rfl, scalarRI_writes h rfl, scalarRI_writes h rfl, scalarRI_writes h (shiftLeft_eq_ofNat _ _),
    scalarRI_writes h (ushiftRight_eq_ofNat _ _), scalarRI_writes h (sshiftRight_eq_ofInt _ _), scalarRI_writes h (lui_eq_ofNat _ _)⟩

/-! Branches (R130, R86) -/

/-- A core whose sequencer stands at `t`, with register writes outstanding. -/
def State.went (s : State) (g : Fin 512) (t : BitVec 13) (ws : List RegWrite) : State :=
  s.setCore g { s.core g with inflight := (s.core g).inflight ++ ws, seq := (s.core g).seq + 1, pc := t }

theorem commitBundle_branch {g : Fin 512} {sl : List SlotId} {ds : List Reg} {ws : List RegWrite} {t : BitVec 13} :
    s.commitBundle g ⟨sl, ds, { Staged.empty with writes := ws }, [.branch t], none, false⟩ = s.went g t ws := by
  simp [State.commitBundle, Core.commit, Staged.empty, State.applyCtl, State.modCore, Ctl.leaves, State.went]

theorem branchTo_inside {g : Fin 512} {t : BitVec 13} (h : t ≤ s.lastBundle g) : s.branchTo g t = Act.control (.branch t) :=
  if_neg (BitVec.not_lt.2 h)

theorem branchTo_beyond {g : Fin 512} {t : BitVec 13} (h : s.lastBundle g < t) : s.branchTo g t = Act.faults stIllegal := if_pos h

theorem present_goes {o : SlotOp} {act : Core → PReg → Act} {ws : List RegWrite} {t : BitVec 13} (h : Executes o.guard i (o.reads ++ o.dests) s) (hi : o.illegal = false)
    (ha : act (s.core i.core) (guardMask (s.core i.core) i) = { Act.control (.branch t) with eff := { Staged.empty with writes := ws } }) (hd : (ws.map (·.draw)).sum = 0) :
    present i o act s = .next (s.went i.core t ws) := by
  rw [present_commits h hi ha rfl rfl (.inl (by simp [Staged.vDraw, hd, Staged.empty]))]
  exact congrArg _ commitBundle_branch

/-- Settles O14: a target within the program is where the sequencer goes, with LOOP's and CALL's register write outstanding. -/
theorem branchesMoveTheSequencer : Obligations.BranchesMoveTheSequencer := by
  intro i s rd h
  have hnone := h.sub (ts := []) (by simp)
  have hrd := h.sub (ts := [.s rd]) (by simp)
  have hrc := h.sub (ts := [.s rd, .s rd]) (by simp)
  have hlink := h.sub (ts := [.s 31]) (by simp)
  refine ⟨fun t ht => ?inside, fun ht => ?brr, fun t ht hn => ?loop, fun t hn => ?loopEnds, fun t ht => ?beyond, rfl⟩
  case inside =>
    simp only [Goes]
    rw [exec_br, execBr.eq_def, exec_call, execCall]
    exact ⟨present_goes (o := cOp [] []) hnone rfl (branchTo_inside ht) rfl,
      present_goes (o := cOp [] [.s 31]) hlink rfl (by rw [branchTo_inside ht]; rfl) rfl⟩
  case brr =>
    rw [Goes, exec_brr, execBrr]
    exact present_goes (o := cOp [.s rd] []) hrd rfl (branchTo_inside ht) rfl
  case loop =>
    rw [Goes, exec_loop, execLoop]
    refine present_goes (o := cOp [.s rd] [.s rd]) hrc rfl ?_ rfl
    simp only [branchTo_inside ht, if_pos (sub_ne_zero.2 hn)]
    rfl
  case loopEnds =>
    rw [Goes, exec_loop, execLoop]
    exact present_writes (o := cOp [.s rd] [.s rd]) hrc rfl (by rw [hn]; rfl) rfl
  case beyond =>
    simp only [EndsTask]
    rw [exec_br, execBr.eq_def, exec_call, execCall]
    exact ⟨present_faults (o := cOp [] []) hnone rfl (branchTo_beyond ht) rfl rfl,
      present_faults (o := cOp [] [.s 31]) hlink rfl (by rw [branchTo_beyond ht]) rfl rfl⟩

/-! Scalar memory (R132) -/

theorem scalarAddrOk_iff (a : W64) : scalarAddrOk a = true ↔ a.toNat % 8 = 0 ∧ a.toNat ≤ 0x3FFFF8 := by
  have : spadSize = 0x400000 := rfl
  simp only [scalarAddrOk, Bool.and_eq_true, decide_eq_true_eq]
  omega

theorem parityHit_nil (a n : Nat) : parityHit [] a n = false := rfl

/-- The bytes of a stored register, each enabled. -/
def storedWord (x : W64) : List (Option Byte) := (toLE x.toNat 8).map some

@[simp] theorem length_storedWord (x : W64) : (storedWord x).length = 8 := by simp [storedWord, length_toLE]

theorem getElem_storedWord (x : W64) (k : Fin 8) (h : k.val < (storedWord x).length) : (storedWord x)[k.val] = some ((x >>> (8 * k.val)).setWidth 8) := by
  rw [shiftRight_byte x k.val (by omega)]
  simp only [storedWord, List.getElem_map, getElem_toLE]

/-- A bundle with a store alone. -/
theorem commit_store (c : Core) (a : Nat) (bs : List (Option Byte)) (now : Nat) :
    c.commit { Staged.empty with stores := [(a, bs)] } now = { c with seq := c.seq + 1, spad := writeMasked c.spad a bs, badParity := clearParity c.badParity a bs } := by
  simp [Core.commit, Staged.empty]

/-- Settles O15: the address check is R132's, a load gives the bytes in order, and a store writes them and no other. -/
theorem scalarLoadAndStore : Obligations.ScalarLoadAndStore := by
  refine ⟨fun i rd ra imm s h => ?load, fun i rd ra imm s h hwf => ?store⟩
  case load =>
    intro a
    rw [exec_sld, execSld]
    split
    · rename_i ha
      intro hparity
      have hok : scalarAddrOk ((s.core i.core).getS ra + sext imm) = true := (scalarAddrOk_iff _).2 ha
      refine ⟨_, present_writes (o := cOp [.s ra] [.s rd]) (ws := wS rd _) h rfl ?_ rfl, fun k => loaded_byte _ _ 8 k.val k.isLt (by omega)⟩
      simp only [hparity, parityHit_nil, hok, Bool.not_true, Bool.false_eq_true, if_false]
      rfl
    · rename_i ha
      have hbad := Bool.eq_false_iff.2 (mt (scalarAddrOk_iff _).1 ha)
      rw [EndsTask, exec_sld, execSld]
      exact present_faults (o := cOp [.s ra] [.s rd]) (st := 0x0108) h rfl (if_pos (by rw [sext_eq_ofInt, hbad]; rfl)) rfl rfl
  case store =>
    intro c a
    have hspad : Memory.wf c.spad = true := (hwf.2.1 i.core).1
    split
    · rename_i ha
      have hok := (scalarAddrOk_iff _).2 ha
      have hexec : exec (.sst i rd ra imm) s =
          .next (s.setCore i.core { c.commit { Staged.empty with stores := [(a, storedWord (c.getS rd))] } s.now with pc := c.pc + 1 }) := by
        rw [exec_sst, execSst]
        refine present_data (o := cOp [.s ra, .s rd] []) (a := { Act.none with eff := { Staged.empty with stores := [(a, storedWord (c.getS rd))] } })
          h rfl ?_ rfl rfl rfl rfl (.inl rfl)
        exact if_neg (by rw [sext_eq_ofInt, hok]; decide)
      rw [commit_store] at hexec
      refine ⟨_, hexec, ?_⟩
      rw [setCore_core]
      refine ⟨rfl, fun k => ?_, fun b hb => ?_, rfl⟩
      · have hk : k.val < (storedWord (c.getS rd)).length := by simp
        exact (readByte_writeMasked_inside (storedWord (c.getS rd)) k.val hk hspad).trans (by rw [getElem_storedWord]; rfl)
      · exact readByte_writeMasked_outside (storedWord (c.getS rd)) hspad (by simpa using hb)
    · rename_i ha
      have hbad := Bool.eq_false_iff.2 (mt (scalarAddrOk_iff _).1 ha)
      rw [EndsTask, exec_sst, execSst]
      exact present_faults (o := cOp [.s ra, .s rd] []) (st := 0x0108) h rfl (if_pos (by rw [sext_eq_ofInt, hbad]; rfl)) rfl rfl

/-! System values and EMBER (R133, R134) -/

theorem sysr_writes {rd : Fin 32} {code : W32} {x : W64} (h : Executes .lane0 i [.s rd] s) (hc : ([0, 1, 2, 3, 4, 8].contains code.toNat) = true)
    (hx : s.sysValue i.core code.toNat = x) : exec (.sysr i rd code) s = .next (s.issued i.core [⟨.s rd, .s x, 0⟩]) := by
  rw [exec_sysr, execSysr, ← hx]
  exact present_writes (o := cOp [] [.s rd] _) h (by rw [cOp, hc]; rfl) rfl rfl

/-- Settles O16: each modelled number's value, with the core's partition and task put in place; the decoder takes no other number. -/
theorem systemValues : Obligations.SystemValues := by
  intro i rd imm s p k h hk
  have hpart := (taskOf_some hk).1
  refine ⟨sysr_writes h rfl rfl, sysr_writes h rfl rfl, sysr_writes h rfl rfl, sysr_writes h rfl ?_, sysr_writes h rfl ?_, sysr_writes h rfl ?_, fun himm => ?_⟩
  · simp [State.sysValue, hpart]
  · simp [State.sysValue, hpart, ringIndex]
  · simp [State.sysValue, hk]
  · rw [EndsTask, exec_sysr, execSysr]
    refine present_illegal_ends (o := cOp [] [.s rd] _) h ?_
    simp only [List.mem_cons, List.not_mem_nil, or_false, not_or] at himm
    simp [cOp]
    bv_omega

/-- Settles O17: the job's seed is that of the core's task; a DOM above 1 is illegal. -/
theorem emberUsesTheJobSeed : Obligations.EmberUsesTheJobSeed := by
  intro i rd ra rb dom s p k h hk
  have hdom : dom = 0 ∨ dom = 1 ↔ ¬1 < dom.toNat := by bv_omega
  split
  · rename_i hd
    rw [WritesS, exec_ember, execEmber, hk]
    exact present_writes (o := cOp [.s ra, .s rb] [.s rd] _) h (decide_eq_false (hdom.1 hd)) rfl rfl
  · rename_i hd
    rw [EndsTask, exec_ember, execEmber]
    exact present_illegal_ends (o := cOp [.s ra, .s rb] [.s rd] _) h (decide_eq_true (by tauto))

end Sys2Proof.Machine
end

section
/-! PROOFS. The V slot and its loads and stores (R151 to R155, R160): lanes under the guard, reductions, conversions, special functions, and 1,024 bytes of the scratchpad. -/

namespace Sys2Proof.Machine

variable {s : State} {i : Issue}

/-! Lanes under the guard (R121) -/

theorem getElem_mergeLanes (m : PReg) (old : VReg) (f : Fin 256 → W32) (k : Fin 256) : (mergeLanes m old f)[k] = if m.getLsbD k.val then f k else old[k] := by
  simp [mergeLanes]

theorem present_mergeLanes {o : SlotOp} {act : Core → PReg → Act} {vd : Fin 32} {c : Instr} {f : Fin 256 → W32}
    (hx : exec c s = present i o act s) (h : Executes o.guard i (o.reads ++ o.dests) s) (hi : o.illegal = false) (hd : Admitted i.core .v vDrawHalf s)
    (ha : act (s.core i.core) (guardMask (s.core i.core) i) = Act.writes (wV vd (mergeLanes (guardMask (s.core i.core) i) ((s.core i.core).getV vd) f) vDrawHalf)) :
    WritesLanes i s vd c f :=
  ⟨_, hx.trans (present_draws h hi ha hd), getElem_mergeLanes _ _ _⟩

section
variable {vd va vb : Fin 32} {c : Instr} {f : Fin 256 → W32}

theorem vector2_writesLanes {op : W32 → W32 → W32} (hx : exec c s = vector2 i vd va vb op s) (h : Executes .perLane i [.v va, .v vb, .v vd] s)
    (hd : Admitted i.core .v vDrawHalf s) (hf : ∀ k : Fin 256, op ((s.core i.core).getV va)[k] ((s.core i.core).getV vb)[k] = f k) : WritesLanes i s vd c f := by
  rw [← funext hf]
  exact present_mergeLanes (o := vOp _ _) hx h rfl hd rfl

theorem vector1_writesLanes {op : W32 → W32} (hx : exec c s = vector1 i vd va op s) (h : Executes .perLane i [.v va, .v vd] s)
    (hd : Admitted i.core .v vDrawHalf s) (hf : ∀ k : Fin 256, op ((s.core i.core).getV va)[k] = f k) : WritesLanes i s vd c f := by
  rw [← funext hf]
  exact present_mergeLanes (o := vOp _ _) hx h rfl hd rfl

end

/-! VMIN and VMAX (R151) -/

theorem fpPick_nan {a b : W32} (g : Bool) (h : (ofF32 a).isNan = true ∨ (ofF32 b).isNan = true) : fpPick g a b = 0x7FC00000 :=
  if_pos (by simpa using h)

/-- A value below another is neither NaN nor equal to it, and not above it. -/
theorem Num.lt_excludes {x y : Num} (h : x.lt y = true) : (x.isNan || y.isNan) = false ∧ x.feq y = false ∧ y.feq x = false ∧ y.lt x = false := by
  cases x with
  | nan => simp [Num.lt] at h
  | inf a =>
    cases y with
    | nan => simp [Num.lt] at h
    | inf b => cases a <;> cases b <;> simp [Num.lt, Num.isNan, Num.feq] at h ⊢
    | fin b y => cases a <;> simp [Num.lt, Num.isNan, Num.feq] at h ⊢
  | fin a x =>
    cases y with
    | nan => simp [Num.lt] at h
    | inf b => cases b <;> simp [Num.lt, Num.isNan, Num.feq] at h ⊢
    | fin b y =>
      have h : signed a x < signed b y := by simpa [Num.lt] using h
      simp [Num.lt, Num.isNan, Num.feq, h.ne, h.ne', h.le]

theorem fpPick_of_lt {a b : W32} (g : Bool) (h : (ofF32 a).lt (ofF32 b) = true) : fpPick g a b = if g then b else a := by
  obtain ⟨hnan, heq, -, -⟩ := Num.lt_excludes h
  simp only [fpPick, hnan, heq, h, Bool.false_eq_true, if_false]
  cases g <;> rfl

theorem fpPick_of_gt {a b : W32} (g : Bool) (h : (ofF32 b).lt (ofF32 a) = true) : fpPick g a b = if g then a else b := by
  obtain ⟨hnan, -, heq, hlt⟩ := Num.lt_excludes h
  rw [Bool.or_comm] at hnan
  simp only [fpPick, hnan, heq, hlt, Bool.false_eq_true, if_false]
  cases g <;> rfl

/-- Of two zeros VMIN takes the negative one and VMAX the positive one. -/
theorem fpPick_zeros (g : Bool) : fpPick g 0x80000000 0 = (if g then 0 else 0x80000000) ∧ fpPick g 0 0x80000000 = if g then 0 else 0x80000000 := by
  have hneg : (0x80000000 : W32).getLsbD 31 = true := by decide
  have hpos : (0 : W32).getLsbD 31 = false := by decide
  have heq : (Num.fin false 0).feq (.fin true 0) = true := by simp [Num.feq, signed]
  simp only [fpPick, ofF32_zero, ofF32_negZero, feq_zeros, heq, hneg, hpos, Num.isNan, Bool.or_self, Bool.false_eq_true, if_false, if_true]
  cases g <;> exact ⟨rfl, rfl⟩

/-- R151: what VMIN and VMAX give of two lanes. -/
theorem fpPick_spec (a b : W32) :
    ((ofF32 a).isNan ∨ (ofF32 b).isNan → fpPick false a b = 0x7FC00000 ∧ fpPick true a b = 0x7FC00000)
    ∧ ((ofF32 a).lt (ofF32 b) → fpPick false a b = a ∧ fpPick true a b = b) ∧ ((ofF32 b).lt (ofF32 a) → fpPick false a b = b ∧ fpPick true a b = a)
    ∧ (a = 0x80000000 → b = 0 → fpPick false a b = 0x80000000 ∧ fpPick true a b = 0) ∧ (a = 0 → b = 0x80000000 → fpPick false a b = 0x80000000 ∧ fpPick true a b = 0) := by
  refine ⟨fun h => ⟨fpPick_nan _ h, fpPick_nan _ h⟩, fun h => ⟨fpPick_of_lt false h, fpPick_of_lt true h⟩, fun h => ⟨fpPick_of_gt false h, fpPick_of_gt true h⟩, ?_, ?_⟩
  · rintro rfl rfl
    exact ⟨(fpPick_zeros false).1, (fpPick_zeros true).1⟩
  · rintro rfl rfl
    exact ⟨(fpPick_zeros false).2, (fpPick_zeros true).2⟩

theorem and_abs_eq_ofNat (a : W32) : a &&& 0x7FFFFFFF = BitVec.ofNat 32 (a.toNat % 2 ^ 31) := by
  have hlt : a.toNat % 2 ^ 31 < 2 ^ 32 := (Nat.mod_lt _ (by decide)).trans (by decide)
  apply BitVec.eq_of_toNat_eq
  rw [BitVec.toNat_and, BitVec.toNat_ofNat, Nat.mod_eq_of_lt hlt]
  exact Nat.and_two_pow_sub_one_eq_mod a.toNat 31

/-- Settles O18: each lane is the model's rounding of the exact result, and VMIN and VMAX are the two picks. -/
theorem vectorFloatLanes : Obligations.VectorFloatLanes := by
  intro i vd va vb vc s a b c h hd habc
  obtain rfl : a = fun k => ((s.core i.core).getV va)[k] := funext fun k => (habc k).1
  obtain rfl : b = fun k => ((s.core i.core).getV vb)[k] := funext fun k => (habc k).2.1
  obtain rfl : c = fun k => ((s.core i.core).getV vc)[k] := funext fun k => (habc k).2.2
  have h1 : Executes .perLane i [.v va, .v vd] s := h.sub (by simp)
  have h2 : Executes .perLane i [.v va, .v vb, .v vd] s := h.sub (by simp)
  refine ⟨vector2_writesLanes (exec_vadd s i vd va vb) h2 hd fun _ => rfl, vector2_writesLanes (exec_vsub s i vd va vb) h2 hd fun _ => rfl,
    vector2_writesLanes (exec_vmul s i vd va vb) h2 hd fun _ => rfl, present_mergeLanes (o := vOp _ _) (exec_vfma s i vd va vb vc) h rfl hd rfl,
    vector1_writesLanes (exec_vabs s i vd va) h1 hd fun _ => and_abs_eq_ofNat _, vector1_writesLanes (exec_vneg s i vd va) h1 hd fun _ => rfl,
    _, _, vector2_writesLanes (exec_vmin s i vd va vb) h2 hd fun _ => rfl, vector2_writesLanes (exec_vmax s i vd va vb) h2 hd fun _ => rfl, fun k => fpPick_spec _ _⟩

/-- Settles O19: each lane operation is the arithmetic that R151 gives. -/
theorem vectorIntegerLanes : Obligations.VectorIntegerLanes := by
  intro i vd va vb s a b h hd hab
  obtain rfl : a = fun k => ((s.core i.core).getV va)[k] := funext fun k => (hab k).1
  obtain rfl : b = fun k => ((s.core i.core).getV vb)[k] := funext fun k => (hab k).2
  exact ⟨vector2_writesLanes (exec_viadd s i vd va vb) h hd fun _ => rfl, vector2_writesLanes (exec_visub s i vd va vb) h hd fun _ => rfl,
    vector2_writesLanes (exec_vand s i vd va vb) h hd fun _ => rfl, vector2_writesLanes (exec_vor s i vd va vb) h hd fun _ => rfl,
    vector2_writesLanes (exec_vxor s i vd va vb) h hd fun _ => rfl, vector2_writesLanes (exec_vshl s i vd va vb) h hd fun _ => shiftLeft_eq_ofNat _ _,
    vector2_writesLanes (exec_vshr s i vd va vb) h hd fun _ => ushiftRight_eq_ofNat _ _, vector2_writesLanes (exec_vsra s i vd va vb) h hd fun _ => sshiftRight_eq_ofInt _ _⟩

/-! Lane moves and reduction (R151, R153) -/

/-- R153: a VRED under an operation that is not reserved. -/
theorem vred_writes {vd va : Fin 32} {op : BitVec 2} (h : Executes .combine i [.v va, .v vd] s) (hd : Admitted i.core .v vDrawHalf s) (hop : op ≠ 3) :
    WritesV i s vd (.vred i vd va op) ((Vector.replicate 256 0).set 0 (treeReduce (redFn op)
      ((List.finRange 256).map fun k => if (guardMask (s.core i.core) i).getLsbD k.val then ((s.core i.core).getV va)[k] else redIdentity op))) := by
  rw [WritesV, exec_vred, execVred]
  exact present_draws (o := ⟨.v, .combine, _, [.v va], [.v vd]⟩) h (decide_eq_false hop) rfl hd

theorem redFn_eq {op : BitVec 2} (hop : op ≠ 3) : redFn op = if op = 0 then addF32 else fpPick (decide (op = 1)) := by
  have hcases : op = 0 ∨ op = 1 ∨ op = 2 := by bv_omega
  rcases hcases with rfl | rfl | rfl <;> rfl

theorem redIdentity_eq {op : BitVec 2} (hop : op ≠ 3) : redIdentity op = if op = 0 then 0 else if op = 1 then 0xFF800000 else 0x7F800000 := by
  have hcases : op = 0 ∨ op = 1 ∨ op = 2 := by bv_omega
  rcases hcases with rfl | rfl | rfl <;> decide

/-- Settles O21: moves merge lanes under the guard or set one of them, and VRED's result stands in lane 0 alone. -/
theorem vectorMovesAndReduction : Obligations.VectorMovesAndReduction := by
  intro i vd va vb rs lane s hd
  refine ⟨fun h => ⟨?bcast, ?perm⟩, fun h => ⟨?ins, ?ext⟩, fun h op hop => ?red, fun h => ?reserved⟩
  case bcast => exact present_mergeLanes (o := vOp [.s rs] [.v vd]) (exec_vbcast s i vd rs) (h.sub (by simp [vOp])) rfl hd rfl
  case perm => exact present_mergeLanes (o := vOp [.v va, .v vb] [.v vd]) (exec_vperm s i vd va vb) (h.sub (by simp [vOp])) rfl hd rfl
  case ins =>
    refine ⟨((s.core i.core).getV vd).set lane (((s.core i.core).getS rs).setWidth 32), ?_, by simp, fun k hk => ?_⟩
    · rw [WritesV, exec_vins, execVins]
      exact present_draws (o := ⟨.v, .lane0, false, [.s rs], [.v vd]⟩) (h.sub (by simp)) rfl rfl hd
    · have hne : lane.val ≠ k.val := fun hv => hk (Fin.ext hv.symm)
      simp [hne]
  case ext =>
    rw [exec_vext, execVext]
    exact present_draws (o := ⟨.v, .lane0, false, [.v va], [.s rs]⟩) (h.sub (by simp)) rfl rfl hd
  case red =>
    refine ⟨_, vred_writes h hd hop, fun k hk => ?_, ?_⟩
    · have hne : 0 ≠ k.val := fun hv => hk (Fin.ext hv.symm)
      simp [hne]
    · rw [← redFn_eq hop, ← redIdentity_eq hop]
      simp
  case reserved =>
    rw [EndsTask, exec_vred, execVred]
    exact present_illegal_ends (o := ⟨.v, .combine, _, [.v va], [.v vd]⟩) h rfl

/-! Conversions and special functions (R154, R155) -/

section
variable {c : VcvtOp} {p : Fin 8} {job : Task}

/-- R48, R154: the stochastic values of a VCVT's lanes, as its core computes them. -/
def cvtRho (c : VcvtOp) (job : Task) (k : Core) (n : Fin 256) : Nat :=
  if convRnd c.conv = .sr then rhoOf job.job.seed.toNat ((k.getS c.rt).toNat % 2 ^ 32) ((k.getS c.ri).toNat + n.val) else 0

theorem exec_vcvt_lanes (hk : s.taskOf i.core = some (p, job)) (hdf : isBlockFmt c.df = false) (hsf : isBlockFmt c.sf = false) :
    exec (.vcvt i c) s = present i ⟨.v, .perLane, cvtIllegal i c, [.v c.va, .s c.rt, .s c.ri], [.v c.vd]⟩
      (fun k m => Act.writes (wV c.vd (mergeLanes m (k.getV c.vd) fun n => cvtLane c.sf c.df c.conv (cvtRho c job k n) (k.getV c.va)[n]) vDrawHalf)) s := by
  rw [exec_vcvt, execVcvt, hk, hdf, hsf]
  rfl

theorem exec_vcvt_toBlock (hk : s.taskOf i.core = some (p, job)) (hdf : isBlockFmt c.df = true) (hsf : isBlockFmt c.sf = false) :
    exec (.vcvt i c) s = present i ⟨.v, .perLane, cvtIllegal i c, [.v c.va, .s c.rt, .s c.ri], [.v c.vd, .v (c.vd + 1)]⟩
      (fun k _ => Act.writes (wV c.vd (cvtToBlock c.df c.conv (cvtRho c job k) (k.getV c.va)).1 vDrawHalf
        ++ wV (c.vd + 1) (cvtToBlock c.df c.conv (cvtRho c job k) (k.getV c.va)).2)) s := by
  rw [exec_vcvt, execVcvt, hk, hdf, hsf]
  rfl

theorem exec_vcvt_ofBlock (hk : s.taskOf i.core = some (p, job)) (hdf : isBlockFmt c.df = false) (hsf : isBlockFmt c.sf = true) :
    exec (.vcvt i c) s = present i ⟨.v, .perLane, cvtIllegal i c, [.v c.va, .s c.rt, .s c.ri, .v (c.va + 1)], [.v c.vd]⟩
      (fun k _ => Act.writes (wV c.vd (cvtOfBlock c.sf c.conv (cvtRho c job k) (k.getV c.va) (k.getV (c.va + 1))) vDrawHalf)) s := by
  rw [exec_vcvt, execVcvt, hk, hdf, hsf]
  rfl

theorem vcvt_writesLanes (hk : s.taskOf i.core = some (p, job)) (h : Executes .perLane i [.v c.va, .s c.rt, .s c.ri, .v c.vd] s)
    (hd : Admitted i.core .v vDrawHalf s) (hi : cvtIllegal i c = false) (hdf : isBlockFmt c.df = false) (hsf : isBlockFmt c.sf = false) :
    WritesLanes i s c.vd (.vcvt i c) fun k => cvtLane c.sf c.df c.conv (cvtRho c job (s.core i.core) k) ((s.core i.core).getV c.va)[k] :=
  present_mergeLanes (exec_vcvt_lanes hk hdf hsf) h hi hd rfl

/-- R154: every VCVT whose combination is reserved ends the task. -/
theorem vcvt_reserved (h : Executes .perLane i [.v c.va, .s c.rt, .s c.ri, .v (c.va + 1), .v c.vd, .v (c.vd + 1)] s) (hi : cvtIllegal i c = true) :
    EndsTask (.vcvt i c) s i.core 0x0104 := by
  rw [EndsTask, exec_vcvt, execVcvt]
  refine present_illegal_ends (h.sub fun r hr => ?_) hi
  cases hdf : isBlockFmt c.df <;> cases hsf : isBlockFmt c.sf <;> simp [hdf, hsf] at hr ⊢ <;> tauto

/-- R154: the lane forms that VCVT admits. -/
theorem cvtIllegal_lane (hconv : convReserved c.conv = false) (h : (c.sf = 0 ∧ (c.df = 1 ∨ c.df = 2)) ∨ ((c.sf = 1 ∨ c.sf = 2) ∧ c.df = 0)) :
    cvtIllegal i c = false ∧ isBlockFmt c.df = false ∧ isBlockFmt c.sf = false := by
  rcases h with ⟨hsf, hdf | hdf⟩ | ⟨hsf | hsf, hdf⟩ <;> simp [cvtIllegal, hconv, hsf, hdf, isBlockFmt]

theorem isBlockFmt_iff (f : BitVec 4) : isBlockFmt f = true ↔ 3 ≤ f.toNat ∧ f.toNat ≤ 9 := by simp [isBlockFmt]

/-- R154: the block forms that VCVT admits. -/
theorem cvtIllegal_toBlock (hconv : convReserved c.conv = false) (hg : guarded i = false) (hvd : c.vd ≠ 31) (hsf : c.sf = 0) (hdf : isBlockFmt c.df = true) :
    cvtIllegal i c = false ∧ isBlockFmt c.sf = false := by
  have hlane : isBlockFmt 0#4 = false := rfl
  simp [cvtIllegal, hconv, hg, hvd, hsf, hdf, hlane]

theorem cvtIllegal_ofBlock (hconv : convReserved c.conv = false) (hg : guarded i = false) (hva : c.va ≠ 31) (hdf : c.df = 0) (hsf : isBlockFmt c.sf = true) :
    cvtIllegal i c = false ∧ isBlockFmt c.df = false := by
  have hlane : isBlockFmt 0#4 = false := rfl
  simp [cvtIllegal, hconv, hg, hva, hdf, hsf, hlane]

end

section
variable {vd va : Fin 32} {fn : BitVec 4} {fmt : BitVec 2}

/-- R155: an SFN that finds the special function unit free. -/
theorem sfn_issues (h : Executes .perLane i [.v va, .v vd] s) (hd : Admitted i.core .v 2 s) (hfree : (s.core i.core).sfuFreeAt ≤ s.now) (hfn : fn.toNat ≤ 11) (hfmt : fmt ≠ 3) :
    exec (.sfn i vd va fn fmt) s = .next ((s.issued i.core [⟨.v vd, .v (mergeLanes (guardMask (s.core i.core) i) ((s.core i.core).getV vd)
      fun k => sfnLane fn.toNat fmt.toNat ((s.core i.core).getV va)[k]), 0⟩]).modCore i.core fun k => { k with sfuFreeAt := s.now + 4 }) := by
  have hlegal : (decide (11 < fn.toNat) || decide (fmt = 3)) = false := Bool.or_eq_false_iff.2 ⟨decide_eq_false (by omega), decide_eq_false hfmt⟩
  rw [exec_sfn, execSfn]
  refine (present_data (o := vOp [.v va] [.v vd] _) (a := { Act.none with eff := { Staged.empty with
    writes := wV vd (mergeLanes (guardMask (s.core i.core) i) ((s.core i.core).getV vd) fun k => sfnLane fn.toNat fmt.toNat ((s.core i.core).getV va)[k]), sfn := true } })
    h hlegal (if_neg (not_lt.2 hfree)) rfl rfl rfl rfl (.inr hd)).trans ?_
  simp [State.modCore, State.issued, Core.commit, Staged.empty, wV]

theorem sfn_reserved (h : Executes .perLane i [.v va, .v vd] s) (hr : 11 < fn.toNat ∨ fmt = 3) : EndsTask (.sfn i vd va fn fmt) s i.core 0x0104 := by
  rw [EndsTask, exec_sfn, execSfn]
  exact present_illegal_ends (o := vOp [.v va] [.v vd] _) h (by simpa [vOp] using hr)

end

/-- Settles O22: each form of VCVT has its own presentation, with the lanes' stochastic values those of the core; SFN merges its lanes and holds its unit. -/
theorem vectorConversionsAndFunctions : Obligations.VectorConversionsAndFunctions := by
  intro i c vd va fn fmt s p job rho hk hrho
  obtain rfl : rho = cvtRho c job (s.core i.core) := funext hrho
  refine ⟨fun h hd hconv => ?lanes, fun h hd hconv hg hvd hsf hdf => ?toBlock, fun h hd hconv hg hva hdf hsf => ?ofBlock, vcvt_reserved,
    fun h hd hfree hfn hfmt => ⟨_, sfn_issues h hd hfree hfn hfmt, getElem_mergeLanes _ _ _⟩, sfn_reserved⟩
  case lanes =>
    have lanes (hf : (c.sf = 0 ∧ (c.df = 1 ∨ c.df = 2)) ∨ ((c.sf = 1 ∨ c.sf = 2) ∧ c.df = 0)) :=
      vcvt_writesLanes (i := i) hk h hd (cvtIllegal_lane hconv hf).1 (cvtIllegal_lane (i := i) hconv hf).2.1 (cvtIllegal_lane (i := i) hconv hf).2.2
    refine ⟨fun ⟨hsf, hdf⟩ => ?_, fun ⟨hsf, hdf⟩ => ?_, fun ⟨hsf, hdf⟩ => ?_, fun ⟨hsf, hdf⟩ => ?_⟩
    all_goals
      have hl := lanes (by simp [hsf, hdf])
      simp only [hsf, hdf] at hl
      exact hl
  case toBlock =>
    have hblock := (isBlockFmt_iff c.df).2 hdf
    obtain ⟨hi, hlane⟩ := cvtIllegal_toBlock hconv hg hvd hsf hblock
    rw [exec_vcvt_toBlock hk hblock hlane]
    exact present_draws (o := ⟨.v, .perLane, cvtIllegal i c, _, _⟩) h hi rfl hd
  case ofBlock =>
    have hblock := (isBlockFmt_iff c.sf).2 hsf
    obtain ⟨hi, hlane⟩ := cvtIllegal_ofBlock hconv hg hva hdf hblock
    rw [WritesV, exec_vcvt_ofBlock hk hlane hblock]
    exact present_draws (o := ⟨.v, .perLane, cvtIllegal i c, _, _⟩) h hi rfl hd

/-! Vector memory (R160) -/

theorem vectorAddrOk_iff (a : W64) : vectorAddrOk a = true ↔ a.toNat % 64 = 0 ∧ a.toNat ≤ 0x3FFC00 := by
  have : spadSize = 0x400000 := rfl
  simp only [vectorAddrOk, Bool.and_eq_true, decide_eq_true_eq]
  omega

/-- Entry `j` of block `k` of lists of one length in a row. -/
theorem getElem?_flatMap_block {α β : Type} {n : Nat} {f : α → List β} (hf : ∀ a, (f a).length = n) :
    ∀ (l : List α) (k j : Nat) (hk : k < l.length), j < n → (l.flatMap f)[n * k + j]? = (f l[k])[j]? := by
  intro l
  induction l with
  | nil => intro k j hk; simp at hk
  | cons a r ih =>
    intro k j hk hj
    cases k with
    | zero => simp [List.flatMap_cons, List.getElem?_append, hf, hj]
    | succ k =>
      have hge : ¬n * (k + 1) + j < n := by rw [Nat.mul_succ]; omega
      have hsub : n * (k + 1) + j - n = n * k + j := by rw [Nat.mul_succ]; omega
      rw [List.flatMap_cons, List.getElem?_append, hf, if_neg hge, hsub, ih k j (by simpa using hk) hj, List.getElem_cons_succ]

/-- R120, R160: the bytes of a VST, each enabled with its lane. -/
def storedLanes (m : PReg) (v : VReg) : List (Option Byte) :=
  (List.finRange 256).flatMap fun k => if m.getLsbD k.val then (toLE (v[k]).toNat 4).map some else List.replicate 4 none

theorem length_storedLane (m : PReg) (v : VReg) (k : Fin 256) :
    (if m.getLsbD k.val then (toLE (v[k]).toNat 4).map some else List.replicate 4 (none : Option Byte)).length = 4 := by
  split <;> simp [length_toLE]

@[simp] theorem length_storedLanes (m : PReg) (v : VReg) : (storedLanes m v).length = 1024 := by
  simp only [storedLanes, List.length_flatMap, length_storedLane, List.map_const', List.sum_replicate, List.length_finRange]
  rfl

theorem getElem_storedLanes (m : PReg) (v : VReg) (k : Fin 256) (j : Fin 4) (h : 4 * k.val + j.val < (storedLanes m v).length) :
    (storedLanes m v)[4 * k.val + j.val] = if m.getLsbD k.val then some ((v[k] >>> (8 * j.val)).setWidth 8) else none := by
  rw [← Option.some_inj, ← List.getElem?_eq_getElem h, storedLanes, getElem?_flatMap_block (length_storedLane m v) _ _ _ (by simp) j.isLt, shiftRight_byte _ _ (by omega)]
  simp only [List.getElem_finRange, Fin.cast_mk]
  split
  · simp [length_toLE, getElem_toLE]
  · exact (List.getElem?_eq_getElem (by simp)).trans (congrArg some (List.getElem_replicate _))

/-- Settles O23: the address check is R160's, a load gives 4 bytes to a lane, and a store writes those of the enabled lanes. -/
theorem vectorLoadAndStore : Obligations.VectorLoadAndStore := by
  rintro i vd rs imm s a hwf rfl
  have hspad : Memory.wf (s.core i.core).spad = true := (hwf.2.1 i.core).1
  rw [← sext_eq_ofInt]
  refine ⟨fun h => ⟨fun ha hmax hparity => ?load, fun ha => ?loadFault⟩, fun h => ⟨fun ha hmax => ?store, fun ha => ?storeFault⟩⟩
  case load =>
    have hok := (vectorAddrOk_iff _).2 ⟨ha, hmax⟩
    refine ⟨Vector.ofFn fun k => BitVec.ofNat 32 (leNat (readBytes (s.core i.core).spad (((s.core i.core).getS rs + sext imm).toNat + 4 * k.val) 4)), ?_, fun k j => ?_⟩
    · rw [exec_vld, execVld]
      refine present_writes (o := dOp [.s rs] [.v vd] false) h rfl ?_ rfl
      simp only [hok, hparity, parityHit_nil, Bool.not_true, Bool.false_eq_true, if_false]
      rfl
    · rw [← loaded_byte (w := 32) (s.core i.core).spad _ 4 j.val j.isLt (by omega)]
      simp
  case store =>
    have hok := (vectorAddrOk_iff _).2 ⟨ha, hmax⟩
    have hexec : exec (.vst i vd rs imm) s = .next (s.setCore i.core { (s.core i.core).commit { Staged.empty with
        stores := [(((s.core i.core).getS rs + sext imm).toNat, storedLanes (guardMask (s.core i.core) i) ((s.core i.core).getV vd))] } s.now with pc := (s.core i.core).pc + 1 }) := by
      rw [exec_vst, execVst]
      refine present_data (o := ⟨.d, .perLane, false, [.s rs, .v vd], []⟩) (a := { Act.none with eff := { Staged.empty with
        stores := [(((s.core i.core).getS rs + sext imm).toNat, storedLanes (guardMask (s.core i.core) i) ((s.core i.core).getV vd))] } }) h rfl ?_ rfl rfl rfl rfl (.inl rfl)
      exact if_neg (by rw [hok]; decide)
    rw [commit_store] at hexec
    refine ⟨_, hexec, ?_⟩
    rw [setCore_core]
    refine ⟨rfl, fun k j => ?_, fun b hb => readByte_writeMasked_outside _ hspad (by simpa using hb), rfl⟩
    have hk : 4 * k.val + j.val < (storedLanes (guardMask (s.core i.core) i) ((s.core i.core).getV vd)).length := by rw [length_storedLanes]; omega
    rw [Nat.add_assoc]
    refine (readByte_writeMasked_inside _ _ hk hspad).trans ?_
    rw [getElem_storedLanes]
    split <;> rfl
  case loadFault =>
    have hbad : vectorAddrOk ((s.core i.core).getS rs + sext imm) = false := Bool.eq_false_iff.2 (mt (vectorAddrOk_iff _).1 (by omega))
    rw [EndsTask, exec_vld, execVld]
    exact present_faults (o := dOp [.s rs] [.v vd] false) (st := 0x0108) h rfl (if_pos (by rw [hbad]; rfl)) rfl rfl
  case storeFault =>
    have hbad : vectorAddrOk ((s.core i.core).getS rs + sext imm) = false := Bool.eq_false_iff.2 (mt (vectorAddrOk_iff _).1 (by omega))
    rw [EndsTask, exec_vst, execVst]
    exact present_faults (o := ⟨.d, .perLane, false, [.s rs, .v vd], []⟩) (st := 0x0108) h rfl (if_pos (by rw [hbad]; rfl)) rfl rfl

end Sys2Proof.Machine
end

section
/-! PROOFS. Partitions and tasks under the shared updates: what decides a core's partition, its task and its liveness, and what leaves them. -/

namespace Sys2Proof.Machine

variable (s : State)

/-! Partitions -/

@[simp] theorem modPart_mode {p : Fin 8} {f : Part → Part} (hf : ∀ x, (f x).mode = x.mode) (q : Fin 8) : (s.modPart p f).parts[q].mode = s.parts[q].mode := by
  by_cases h : q = p
  · rw [h, modPart_same, hf]
  · rw [modPart_ne h]

@[simp] theorem modTask_mode (p : Fin 8) (f : Task → Task) (q : Fin 8) : (s.modTask p f).parts[q].mode = s.parts[q].mode :=
  modPart_mode s (f := fun x => { x with task := x.task.map f }) (fun _ => rfl) q

@[simp] theorem modTask_partOf (p : Fin 8) (f : Task → Task) (h : Fin 8) : (s.modTask p f).partOf h = s.partOf h := by
  simp only [State.partOf, modTask_mode]

@[simp] theorem modTask_partSize (p : Fin 8) (f : Task → Task) (q : Fin 8) : (s.modTask p f).partSize q = s.partSize q := by
  simp only [State.partSize, modTask_mode]

@[simp] theorem modTask_partOfCore (p : Fin 8) (f : Task → Task) (g : Fin 512) : (s.modTask p f).partOfCore g = s.partOfCore g := modTask_partOf s p f _

@[simp] theorem modTask_inPart (p : Fin 8) (f : Task → Task) (q h : Fin 8) : (s.modTask p f).inPart q h = s.inPart q h := by
  simp only [State.inPart, modTask_partSize]

@[simp] theorem endTask_partOfCore (p : Fin 8) (e : Ending) (g : Fin 512) : (s.endTask p e).partOfCore g = s.partOfCore g := modTask_partOfCore s p _ g

@[simp] theorem setCore_partOfCore (j : Fin 512) (c : Core) (g : Fin 512) : (s.setCore j c).partOfCore g = s.partOfCore g := rfl
@[simp] theorem modCore_partOfCore (j : Fin 512) (f : Core → Core) (g : Fin 512) : (s.modCore j f).partOfCore g = s.partOfCore g := rfl
@[simp] theorem modHearth_partOfCore (h : Fin 8) (f : Hearth → Hearth) (g : Fin 512) : (s.modHearth h f).partOfCore g = s.partOfCore g := rfl

@[simp] theorem coreFault_partOfCore (j : Fin 512) (st : Status) (b : BitVec 13) (q d : Nat) (g : Fin 512) : (s.coreFault j st b q d).partOfCore g = s.partOfCore g := by
  unfold State.coreFault
  dsimp only
  split <;> simp

/-! Tasks -/

@[simp] theorem modTask_task_same (p : Fin 8) (f : Task → Task) : (s.modTask p f).parts[p].task = s.parts[p].task.map f := by
  rw [State.modTask, modPart_same]

theorem modTask_parts_ne {p q : Fin 8} (f : Task → Task) (h : q ≠ p) : (s.modTask p f).parts[q] = s.parts[q] := modPart_ne h

@[simp] theorem setCore_taskOf (j : Fin 512) (c : Core) (g : Fin 512) : (s.setCore j c).taskOf g = s.taskOf g := rfl
@[simp] theorem modCore_taskOf (j : Fin 512) (f : Core → Core) (g : Fin 512) : (s.modCore j f).taskOf g = s.taskOf g := rfl
@[simp] theorem modHearth_taskOf (h : Fin 8) (f : Hearth → Hearth) (g : Fin 512) : (s.modHearth h f).taskOf g = s.taskOf g := rfl

/-- A property of a core's task that an update of tasks keeps. -/
theorem modTask_taskOf_map {α : Type} {v : Task → α} (p : Fin 8) {f : Task → Task} (hf : ∀ k, v (f k) = v k) (g : Fin 512) :
    ((s.modTask p f).taskOf g).map (fun t => (t.1, v t.2)) = (s.taskOf g).map fun t => (t.1, v t.2) := by
  simp only [State.taskOf, modTask_partOfCore]
  cases s.partOfCore g with
  | none => rfl
  | some q =>
    simp only [Option.bind_some, Option.map_map]
    by_cases h : q = p
    · subst h
      rw [modTask_task_same, Option.map_map]
      exact congrFun (congrArg _ (funext fun k => by simp [hf])) _
    · rw [modTask_parts_ne s f h]

theorem endTask_taskOf_map {α : Type} {v : Task → α} (p : Fin 8) (e : Ending) (hv : ∀ (k : Task) y, v { k with ending := y } = v k) (g : Fin 512) :
    ((s.endTask p e).taskOf g).map (fun t => (t.1, v t.2)) = (s.taskOf g).map fun t => (t.1, v t.2) := by
  refine modTask_taskOf_map s p (fun k => ?_) g
  split
  · exact hv k _
  · split
    · exact hv k _
    · rfl

theorem coreFault_taskOf_map {α : Type} {v : Task → α} (j : Fin 512) (st : Status) (b : BitVec 13) (q d : Nat) (hv : ∀ (k : Task) y, v { k with ending := y } = v k) (g : Fin 512) :
    ((s.coreFault j st b q d).taskOf g).map (fun t => (t.1, v t.2)) = (s.taskOf g).map fun t => (t.1, v t.2) := by
  unfold State.coreFault
  dsimp only
  split
  · rw [endTask_taskOf_map _ _ _ hv, modCore_taskOf]
  · rfl

/-! The end of a core's program (R86, R216) -/

theorem lastBundle_eq (g : Fin 512) : s.lastBundle g = if ((s.taskOf g).map fun t => (t.1, t.2.reserve)).any (·.2) then 8127 else 8191 := by
  rw [Option.any_map]
  rfl

@[simp] theorem setCore_lastBundle (j : Fin 512) (c : Core) (g : Fin 512) : (s.setCore j c).lastBundle g = s.lastBundle g := rfl
@[simp] theorem modCore_lastBundle (j : Fin 512) (f : Core → Core) (g : Fin 512) : (s.modCore j f).lastBundle g = s.lastBundle g := rfl
@[simp] theorem modHearth_lastBundle (h : Fin 8) (f : Hearth → Hearth) (g : Fin 512) : (s.modHearth h f).lastBundle g = s.lastBundle g := rfl

theorem modTask_lastBundle (p : Fin 8) {f : Task → Task} (hf : ∀ k, (f k).reserve = k.reserve) (g : Fin 512) : (s.modTask p f).lastBundle g = s.lastBundle g := by
  rw [lastBundle_eq, modTask_taskOf_map s p hf, ← lastBundle_eq]

@[simp] theorem coreFault_lastBundle (j : Fin 512) (st : Status) (b : BitVec 13) (q d : Nat) (g : Fin 512) : (s.coreFault j st b q d).lastBundle g = s.lastBundle g := by
  rw [lastBundle_eq, coreFault_taskOf_map s j st b q d (v := Task.reserve) fun _ _ => rfl, ← lastBundle_eq]

end Sys2Proof.Machine
end

section
/-! PROOFS. The M slot (R128, R136 to R149): entering the M queue, the draw governor, the head of the queue at work, and the page walker. -/

namespace Sys2Proof.Machine

variable {s : State} {i : Issue} {g : Fin 512}

/-! The start of the head, and the end of a core's program -/

section
variable (s g)

theorem requestStart_core (u : DrawUnit) (d : Nat) (j : Fin 512) : (s.requestStart g u d).2.core j = s.core j := by
  unfold State.requestStart
  dsimp only
  split <;> split <;> rfl

@[simp] theorem requestStart_lastBundle (u : DrawUnit) (d : Nat) : (s.requestStart g u d).2.lastBundle g = s.lastBundle g := by
  unfold State.requestStart
  dsimp only
  split <;> split <;> rfl

@[simp] theorem walkRequest_lastBundle (q : Option (Fin 8)) (table : BitVec 48) (k : Nat) : (s.walkRequest g q table k).2.lastBundle g = s.lastBundle g := by
  unfold State.walkRequest
  dsimp only
  split
  · rfl
  · split <;> rfl

theorem storeWiden_lastBundle (p : Fin 8) (l : List (BitVec 32 × Desc)) : (s.storeWiden p l).lastBundle g = s.lastBundle g := by
  unfold State.storeWiden
  split <;> rfl

@[simp] theorem putWork_lastBundle (w : Work) : (s.putWork g w).lastBundle g = s.lastBundle g := by
  unfold State.putWork
  dsimp only
  split
  · rfl
  · refine (modTask_lastBundle _ _ ?_ g).trans (storeWiden_lastBundle ..)
    exact fun _ => rfl

@[simp] theorem runHead_lastBundle (e : MEntry) (entry : Option W32) : (s.runHead g e entry).lastBundle g = s.lastBundle g := by
  unfold State.runHead
  split
  · exact coreFault_lastBundle ..
  · split
    · exact coreFault_lastBundle ..
    · simp

@[simp] theorem startFetch_lastBundle (e : MEntry) (ke : Desc) (kpos : Nat) : (s.startFetch g e ke kpos).lastBundle g = s.lastBundle g := by
  unfold State.startFetch
  dsimp only
  split
  · rfl
  · split
    · exact coreFault_lastBundle ..
    · have hw := walkRequest_lastBundle s g none (BitVec.ofNat 48 (pTable ke)) (kpos / 256)
      split <;> rename_i heq <;> rw [heq] at hw <;> exact hw

@[simp] theorem startHead_lastBundle : (s.startHead g).lastBundle g = s.lastBundle g := by
  unfold State.startHead
  split
  · rfl
  · rename_i e _
    have hr := requestStart_lastBundle s g .m (mDraw e.op)
    split
    · rfl
    · split <;> rename_i heq <;> rw [heq] at hr
      · exact hr
      · split
        · split
          · rw [startFetch_lastBundle, hr]
          · rw [coreFault_lastBundle, hr]
        · rw [runHead_lastBundle, hr]

end

/-! Entering the queue (R128) -/

/-- A bundle with an M-slot instruction alone. -/
theorem commitBundle_queuedM {sl : List SlotId} {ds rs : List Reg} {op : MOp} (hp : (s.core g).pc ≠ s.lastBundle g) :
    s.commitBundle g ⟨sl, ds, { Staged.empty with mop := some op, mregs := rs }, [], none, false⟩ = (s.queuedM g op rs).startHead g := by
  have hcommit : s.setCore g { (s.core g).commit { Staged.empty with mop := some op, mregs := rs } s.now with pc := (s.core g).pc + 1 } = s.queuedM g op rs := by
    simp [Core.commit, Staged.empty, State.queuedM]
  simp only [State.commitBundle, hcommit, List.foldl_nil, Option.isSome_some, if_true, startHead_lastBundle]
  exact if_neg fun h => hp h.1

section
variable {reads dests rs : List Reg} {illegal : Bool} {f : Core → Option MOp}

/-- R128: an M-slot instruction by itself enters a queue that has room. -/
theorem mEnter_queues {op : MOp} (h : Executes .lane0 i (reads ++ dests) s) (hi : illegal = false) (hq : (s.core i.core).mq.length < 4) (hop : f (s.core i.core) = some op) :
    present i (mOp reads dests illegal) (fun c _ => mEnter c rs (f c)) s = .next ((s.queuedM i.core op rs).startHead i.core) := by
  refine (present_commits (o := mOp reads dests illegal) (a := { Act.none with eff := { Staged.empty with mop := some op, mregs := rs } }) h hi ?_ rfl rfl (.inl rfl)).trans
    (congrArg _ (commitBundle_queuedM h.1.2.2.2.2.2))
  simp only [hop]
  exact if_neg (by omega)

/-- R124: an M-slot instruction stalls while the queue is full. -/
theorem mEnter_stalls (h : Executes .lane0 i (reads ++ dests) s) (hi : illegal = false) (hq : 4 ≤ (s.core i.core).mq.length) :
    present i (mOp reads dests illegal) (fun c _ => mEnter c rs (f c)) s = .next s :=
  present_stalls (o := mOp reads dests illegal) (a := Act.stalls) h hi (if_pos hq) rfl

/-- R78: a register that holds no tile descriptor ends the task. -/
theorem mEnter_faults (h : Executes .lane0 i (reads ++ dests) s) (hi : illegal = false) (hq : (s.core i.core).mq.length < 4) (hop : f (s.core i.core) = none) :
    ∃ t, present i (mOp reads dests illegal) (fun c _ => mEnter c rs (f c)) s = .next t ∧ TaskEndsAt s t i.core 0x0105 (s.core i.core).pc :=
  present_faults (o := mOp reads dests illegal) (a := Act.faults stDesc) h hi (by simp only [hop]; exact if_neg (by omega)) rfl rfl

end

theorem tdUse_eq (c : Core) (n : Fin 16) : c.tdUse n = match c.td[n] with | some d => if descOk n d then some d else none | none => none := by
  unfold Core.tdUse
  cases c.td[n] <;> simp [Option.filter]

theorem brndIllegal_of {b : BrndOp} (h : 5 ≤ b.slot.toNat ∨ (b.epiA = false ∧ b.epiF ≠ 0) ∨ 12 ≤ b.epiF.toNat) : brndIllegal b = true := by
  simp only [brndIllegal, Bool.or_eq_true, Bool.and_eq_true, decide_eq_true_eq, Bool.not_eq_true']
  tauto

theorem normIllegal_of {n : NormOp} (h : n.kind = 3) : normIllegal n = true := by simp [normIllegal, h]

/-- Settles O24: the operands are copied as the core reads them at issue, and the queue takes them in, stalls or refuses them. -/
theorem matrixInstructionsEnterTheQueue : Obligations.MatrixInstructionsEnterTheQueue := by
  refine ⟨?enter, tdUse_eq, ?refuse⟩
  case enter =>
    rintro i s c rfl hq
    refine ⟨fun tdA tdB tdD asrc side rs a b d e h ha hb hd he => ?product, fun b o h hi ho => ?brnd, fun k a w d e h hk ha hw hd he => ?spark,
      fun f q k v o ke ve h hf hQ hk hke hv hve ho => ?attn, fun n x y h hi hx hy => ?norm⟩
    case product =>
      rw [exec_mxa, execMxa, exec_fold, execFold]
      have h' : Executes .lane0 i (((s.core i.core).tdRegs tdA 1 ++ [.td tdB, .td tdD, .s rs]) ++ []) s := by rwa [List.append_nil]
      exact ⟨mEnter_queues h' rfl hq (by simp [ha, hb, hd, he]), mEnter_queues h' rfl hq (by simp [ha, hb, hd, he])⟩
    case brnd =>
      rw [exec_brnd, execBrnd]
      exact mEnter_queues h hi hq (by simp [ho])
    case spark =>
      rw [exec_spark, execSpark]
      exact mEnter_queues (h.sub (by simp)) (decide_eq_false (by omega)) hq (by simp [ha, hw, hd, he])
    case attn =>
      rw [exec_attn, execAttn]
      exact mEnter_queues (h.sub (by simp)) hf hq (by simp [hQ, hk, hke, hv, hve, ho])
    case norm =>
      rw [exec_normStat, execNormStat, exec_normApply, execNormApply]
      exact ⟨mEnter_queues h hi hq (by simp [hx, hy]), mEnter_queues h hi hq (by simp [hx, hy])⟩
  case refuse =>
    rintro i s c tdA tdB tdD asrc side rs rfl h
    have h' : Executes .lane0 i (((s.core i.core).tdRegs tdA 1 ++ [.td tdB, .td tdD, .s rs]) ++ []) s := by rwa [List.append_nil]
    simp only [EndsTask]
    rw [exec_mxa, execMxa, exec_fold, execFold]
    refine ⟨fun hq => ⟨mEnter_stalls h' rfl hq, mEnter_stalls h' rfl hq⟩, fun hq hnone => mEnter_faults h' rfl hq ?_, fun b hb hi => ?_, fun k hk hi => ?_, fun n hn hi => ?_⟩
    · rcases hnone with hn | hn | hn <;> simp [hn]
    · rw [exec_brnd, execBrnd]
      exact present_illegal_ends (o := mOp _ _ _) hb (brndIllegal_of hi)
    · rw [exec_spark, execSpark]
      exact present_illegal_ends (o := mOp _ _ _) (hk.sub (by simp [mOp])) (decide_eq_true hi)
    · rw [exec_normApply, execNormApply, exec_normStat, execNormStat]
      exact ⟨present_illegal_ends (o := mOp _ _ _) hn (normIllegal_of hi), present_illegal_ends (o := mOp _ _ _) hn (normIllegal_of hi)⟩

/-! The head of the queue at work (R128, R169) -/

section
variable {w : Work}

theorem storeWiden_core (p : Fin 8) (l : List (BitVec 32 × Desc)) (j : Fin 512) : (s.storeWiden p l).core j = s.core j := by
  unfold State.storeWiden
  split <;> rfl

theorem storeWiden_mem (p : Fin 8) (l : List (BitVec 32 × Desc)) : (s.storeWiden p l).mem = s.mem := by
  unfold State.storeWiden
  split <;> rfl

theorem putWork_core (j : Fin 512) : (s.putWork g w).core j = (s.storeWork g w).core j := by
  unfold State.putWork
  dsimp only
  split
  · rfl
  · rw [modTask_core, storeWiden_core]

theorem storeWork_core_same : (s.storeWork g w).core g = { s.core g with spad := w.spad, badParity := w.bad } :=
  setCore_core s g { s.core g with spad := w.spad, badParity := w.bad }

theorem storeWork_core_ne {j : Fin 512} (h : j ≠ g) : (s.storeWork g w).core j = s.core j :=
  setCore_core_ne (c := { s.core g with spad := w.spad, badParity := w.bad }) h

theorem putWork_core_same : (s.putWork g w).core g = { s.core g with spad := w.spad, badParity := w.bad } := by
  rw [putWork_core, storeWork_core_same]

theorem putWork_core_ne {j : Fin 512} (h : j ≠ g) : (s.putWork g w).core j = s.core j := by
  rw [putWork_core, storeWork_core_ne h]

theorem putWork_mem : (s.putWork g w).mem = w.mem := by
  unfold State.putWork
  dsimp only
  split
  · rfl
  · rw [modTask_mem, storeWiden_mem]
    rfl

/-- Where no tensor was appended to the widen list, the hearths stand as they did. -/
theorem putWork_hearths (h : w.widen = (s.work g).widen) : (s.putWork g w).hearths = s.hearths := by
  unfold State.putWork
  dsimp only
  split
  · rfl
  · rename_i p hp
    simp only [State.work, hp] at h
    rw [modTask_hearths, State.storeWiden]
    exact (congrArg State.hearths (if_pos h)).trans rfl

end

section
variable {e : MEntry} {rest : List MEntry}

/-- R518: the head that the governor admits computes, unless it has pages to fetch first. -/
theorem startHead_admitted (hmq : (s.core g).mq = e :: rest) (hs : e.started = false) (ha : s.acts g = true) (hd : Admitted g .m (mDraw e.op) s)
    (hop : ∀ q k v ke ve o f rs rm, e.op ≠ .attn q k v (some ke) (some ve) o f rs rm) : s.startHead g = s.runHead g e none := by
  unfold State.startHead
  simp only [hmq, List.head?_cons, hs, ha, Bool.not_true, Bool.or_self, Bool.false_eq_true, if_false, requestStart_admitted hd]

theorem runHead_error {st : Status} {entry : Option W32} (h : s.mRun g e.op entry = .error st) : s.runHead g e entry = s.coreFault g st e.bundle := by
  simp only [State.runHead, h]

theorem runHead_poolFull {r : MRes} {d : Nat} {entry : Option W32} (h : s.mRun g e.op entry = .ok r) (hw : s.widenOver g r.work = some d) :
    s.runHead g e entry = s.coreFault g stPoolFull e.bundle 0xFF d := by
  simp only [State.runHead, h, hw]

/-- A core whose M queue's head has computed `r`. -/
def Core.headDone (c : Core) (r : MRes) : Core :=
  ({ c with slots := r.slots, stat := r.stat }).modHead fun x => { x with started := true, fetch := false, writes := r.writes }

theorem runHead_ok {r : MRes} {entry : Option W32} (h : s.mRun g e.op entry = .ok r) (hw : s.widenOver g r.work = none) :
    s.runHead g e entry = (s.modCore g fun c => c.headDone r).putWork g r.work := by
  simp only [State.runHead, h, hw, State.modCore, setCore_core, setCore_setCore, Core.headDone]

theorem headDone_eq {c : Core} (r : MRes) (hmq : c.mq = e :: rest) :
    c.headDone r = { c with slots := r.slots, stat := r.stat, mq := { e with started := true, fetch := false, writes := r.writes } :: rest } := by
  simp [Core.headDone, Core.modHead, hmq, modifyAt]

theorem widenOver_none {w : Work} (h : w.widen.length ≤ 16) : s.widenOver g w = none := by
  simp only [State.widenOver, List.getElem?_eq_none h, Option.map_none]

theorem widenOver_some {w : Work} (h : 16 < w.widen.length) : ∃ d, s.widenOver g w = some d := by
  simp only [State.widenOver, List.getElem?_eq_getElem h, Option.map_some]
  exact ⟨_, rfl⟩

end

theorem acts_live (h : s.acts g = true) : s.live g = true := (Bool.and_eq_true_iff.1 h).1

/-- Settles O25: the admitted head computes, and what it computes is stored, or its fault ends the task. -/
theorem matrixQueueHeadActs : Obligations.MatrixQueueHeadActs := by
  rintro s g e rest c rfl ha hmq hs hd hop
  rw [startHead_admitted hmq hs ha hd hop]
  refine ⟨fun r hr hsame hlen => ?ok, fun r hr hlen => ?poolFull, fun st hr => ?fault⟩
  case ok =>
    rw [runHead_ok hr (widenOver_none hlen)]
    refine ⟨?_, putWork_mem, fun j hj => ?_, ?_⟩
    · rw [putWork_core_same, modCore_core_same, headDone_eq r hmq]
    · rw [putWork_core_ne hj, modCore_core_ne hj]
    · rw [putWork_hearths (by exact hsame), modCore_hearths]
  case poolFull =>
    obtain ⟨d, hover⟩ := widenOver_some (s := s) (g := g) hlen
    rw [runHead_poolFull hr hover]
    exact coreFault_ends _ _ _ _ (acts_live ha)
  case fault =>
    rw [runHead_error hr]
    exact coreFault_ends _ _ _ _ (acts_live ha)

/-- Settles O26: the finished head leaves the queue with its results written, and the next one may start. -/
theorem matrixInstructionCompletes : Obligations.MatrixInstructionCompletes := by
  rintro s g e c rfl ha
  rw [exec_mInstructionComplete, execMInstructionComplete, if_pos ha]
  refine ⟨fun hmq hs hf => ?_, fun f rest hmq hs hf => ?_, fun rest hmq hsf => ?_⟩
  · have hempty : ∀ t : State, (t.core g).mq = [] → t.startHead g = t := fun t ht => by simp [State.startHead, ht]
    simp only [State.completeHead, hmq, List.head?_cons, hs, hf, Bool.not_true, Bool.or_self, Bool.false_eq_true, if_false]
    rw [hempty _ (by simp [hmq])]
    simp [State.modCore, hmq]
  · simp only [State.completeHead, hmq, List.head?_cons, hs, hf, Bool.not_true, Bool.or_self, Bool.false_eq_true, if_false]
    simp [State.modCore, hmq]
  · have hwait : (!e.started || e.fetch) = true := by rcases hsf with h | h <;> simp [h]
    simp only [State.completeHead, hmq, List.head?_cons, hwait, if_true]

/-! The draw governor (R518) -/

/-- The order in which waiting requests come first. -/
def reqBefore (byCore : Bool) (r x : DrawReq) : Prop := if byCore then r.core ≤ x.core else r.since < x.since ∨ (r.since = x.since ∧ r.core ≤ x.core)

theorem reqBefore_refl (b : Bool) (r : DrawReq) : reqBefore b r r := by
  cases b <;> simp [reqBefore]

theorem reqBefore_trans {b : Bool} {r x y : DrawReq} (h : reqBefore b r x) (h' : reqBefore b x y) : reqBefore b r y := by
  cases b <;> simp only [reqBefore, Bool.false_eq_true, if_false, if_true] at h h' ⊢ <;> omega

theorem reqBefore_total {b : Bool} {r x : DrawReq} (h : ¬reqBefore b r x) : reqBefore b x r := by
  cases b <;> simp only [reqBefore, Bool.false_eq_true, if_false, if_true] at h ⊢ <;> omega

theorem firstReq_cons_none {b : Bool} {r : DrawReq} {rs : List DrawReq} (h : firstReq b rs = none) : firstReq b (r :: rs) = some r := by
  simp only [firstReq, h]

theorem firstReq_cons_some {b : Bool} {r x : DrawReq} {rs : List DrawReq} (h : firstReq b rs = some x) :
    (reqBefore b r x ∧ firstReq b (r :: rs) = some r) ∨ (¬reqBefore b r x ∧ firstReq b (r :: rs) = some x) := by
  have hcond : (if b then decide (r.core ≤ x.core) else decide (r.since < x.since) || (decide (r.since = x.since) && decide (r.core ≤ x.core))) = true ↔ reqBefore b r x := by
    cases b <;> simp [reqBefore]
  by_cases hb : reqBefore b r x
  · exact .inl ⟨hb, by simp only [firstReq, h]; exact if_pos (hcond.2 hb)⟩
  · exact .inr ⟨hb, by simp only [firstReq, h]; exact if_neg (mt hcond.1 hb)⟩

theorem firstReq_none {b : Bool} {l : List DrawReq} (h : firstReq b l = none) : l = [] := by
  cases l with
  | nil => rfl
  | cons r rs =>
    cases hrs : firstReq b rs with
    | none => rw [firstReq_cons_none hrs] at h; cases h
    | some x => rcases firstReq_cons_some (r := r) hrs with ⟨-, hr⟩ | ⟨-, hr⟩ <;> rw [hr] at h <;> cases h

/-- The first request is one of the list, and comes before every one of it. -/
theorem firstReq_some {b : Bool} : ∀ {l : List DrawReq} {r : DrawReq}, firstReq b l = some r → r ∈ l ∧ ∀ x ∈ l, reqBefore b r x
  | [], _, h => by cases h
  | y :: ys, r, h => by
    cases hys : firstReq b ys with
    | none =>
      obtain rfl := Option.some.inj ((firstReq_cons_none hys).symm.trans h)
      simp [firstReq_none hys, reqBefore_refl]
    | some x =>
      obtain ⟨hmem, hmin⟩ := firstReq_some hys
      rcases firstReq_cons_some (r := y) hys with ⟨hb, hy⟩ | ⟨hb, hy⟩
      · obtain rfl := Option.some.inj (hy.symm.trans h)
        exact ⟨List.mem_cons_self, List.forall_mem_cons.2 ⟨reqBefore_refl _ _, fun z hz => reqBefore_trans hb (hmin z hz)⟩⟩
      · obtain rfl := Option.some.inj (hy.symm.trans h)
        exact ⟨List.mem_cons_of_mem _ hmem, List.forall_mem_cons.2 ⟨reqBefore_total hb, hmin⟩⟩

/-- R518: what the governor grants next is a waiting request that fits; an aged one comes first, else the lowest core's. -/
theorem nextGrant_spec {h : Fin 8} {r : DrawReq} (hr : s.nextGrant h = some r) :
    r ∈ s.hearths[h].drawReqs ∧ r.granted = false ∧ s.drawAdmits h r.draw = true
    ∧ (∀ x ∈ s.hearths[h].drawReqs, x.granted = false → x.aged s.now = true → r.aged s.now = true ∧ r.since ≤ x.since)
    ∧ ((∀ x ∈ s.hearths[h].drawReqs, x.aged s.now = false) → ∀ x ∈ s.hearths[h].drawReqs, x.granted = false → s.drawAdmits h x.draw = true → r.core ≤ x.core) := by
  simp only [State.nextGrant] at hr
  split at hr
  · rename_i y hy
    split at hr
    · rename_i hadmit
      obtain rfl := Option.some.inj hr
      obtain ⟨hmem, hmin⟩ := firstReq_some hy
      simp only [List.mem_filter, Bool.not_eq_true'] at hmem hmin
      obtain ⟨⟨hin, hgranted⟩, haged⟩ := hmem
      refine ⟨hin, hgranted, hadmit, fun x hx hxg hxa => ⟨haged, ?_⟩, fun hnone => ?_⟩
      · have hbefore := hmin x ⟨⟨hx, hxg⟩, hxa⟩
        simp only [reqBefore, Bool.false_eq_true, if_false] at hbefore
        omega
      · rw [hnone _ hin] at haged
        cases haged
    · cases hr
  · rename_i hnone
    have hempty := firstReq_none hnone
    obtain ⟨hmem, hmin⟩ := firstReq_some hr
    simp only [List.mem_filter, Bool.not_eq_true'] at hmem hmin
    obtain ⟨⟨hin, hgranted⟩, hadmit⟩ := hmem
    refine ⟨hin, hgranted, hadmit, fun x hx hxg hxa => ?_, fun _ x hx hxg hxd => hmin x ⟨⟨hx, hxg⟩, hxd⟩⟩
    have hnil : x ∈ ([] : List DrawReq) := hempty ▸ List.mem_filter.2 ⟨List.mem_filter.2 ⟨hx, by simp [hxg]⟩, hxa⟩
    cases hnil

/-- Settles O27: a grant is the one that the governor's order gives, and with none nothing changes. -/
theorem governorGrantsAStart : Obligations.GovernorGrantsAStart := by
  intro s h
  rw [exec_drawGrant, execDrawGrant]
  exact ⟨fun r hr => by simp only [State.grantNext, hr], fun hnone => by simp only [State.grantNext, hnone], fun r hr => nextGrant_spec hr⟩

/-! The page walker (R268, R272) -/

/-- R268: a hearth after the read of a page-table entry. -/
def Hearth.walked (y : Hearth) (w : Walk) (x : W32) : Hearth :=
  { y with walks := y.walks.erase w, lab := if bit x 31 then (⟨w.table, w.k, x⟩ :: y.lab).take 512 else y.lab }

/-- R268: the translation reaches each merged requester. -/
def State.serve (s : State) (who : List (Fin 512 × Option (Fin 8))) (k : Nat) (x : W32) : State :=
  who.foldl (fun s r => s.modCore r.1 fun c => c.servePage r.2 k x) s

theorem serve_rest (k : Nat) (x : W32) : ∀ (who : List (Fin 512 × Option (Fin 8))) (s : State), s.serve who k x = { s with cores := (s.serve who k x).cores }
  | [], _ => rfl
  | r :: rs, s => serve_rest k x rs (s.modCore r.1 fun c => c.servePage r.2 k x)

theorem serve_core_ne (k : Nat) (x : W32) (g : Fin 512) : ∀ (who : List (Fin 512 × Option (Fin 8))) (s : State), (∀ q, (g, q) ∉ who) → (s.serve who k x).core g = s.core g
  | [], _, _ => rfl
  | r :: rs, s, h => by
    have hne : g ≠ r.1 := fun hg => h r.2 (by simp [hg])
    exact (serve_core_ne k x g rs _ fun q hq => h q (List.mem_cons_of_mem _ hq)).trans (modCore_core_ne hne)

theorem bit_eq_getLsbD {w : Nat} (x : BitVec w) (j : Nat) : bit x j = x.getLsbD j := rfl

/-- Settles O28: a read that holds its parity is cached where valid and serves its requesters; a lost one is the requester's fault. -/
theorem pageTableReadServesItsRequesters : Obligations.PageTableReadServesItsRequesters := by
  intro s h w x hw hx
  refine ⟨fun hgood => ?served, fun g e rest hlost hwho hlive hmq => ?lost, fun g q k v ke ve o f rs rm e rest ha hmq hf hop => ?fetched⟩
  case served =>
    have hexec : exec (.kvWalkReadDone h w.table w.k) s = .next (State.serve (s.modHearth h fun y => y.walked w x) w.who w.k x) := by
      rw [exec_kvWalkReadDone, execKvWalkReadDone, hw]
      simp only [hgood, Bool.false_eq_true, if_false, hx]
      rfl
    refine ⟨_, hexec, ?_⟩
    have hhearth : (State.serve (s.modHearth h fun y => y.walked w x) w.who w.k x).hearths[h] = (s.hearths[h]).walked w x := by
      rw [serve_rest]
      exact modHearth_same s h fun y => y.walked w x
    rw [hhearth]
    refine ⟨rfl, by rw [serve_rest]; rfl, by rw [serve_rest]; rfl, fun hv => if_pos hv, fun hv => if_neg (by rw [bit_eq_getLsbD, hv]; decide),
      fun g hg => serve_core_ne _ _ g w.who _ hg, fun g e rest hwho hmq hf => ?_⟩
    rw [hwho]
    simp [State.serve, Core.servePage, Core.modHead, hmq, modifyAt, hf]
  case lost =>
    have hexec : exec (.kvWalkReadDone h w.table w.k) s = .next ((s.modHearth h fun y => { y with walks := y.walks.erase w }).coreFault g 0x0301 e.bundle) := by
      have hlive' : (s.modHearth h fun y => { y with walks := y.walks.erase w }).live g = true := hlive
      rw [exec_kvWalkReadDone, execKvWalkReadDone, hw]
      simp only [hlost, if_true, hwho, List.foldl_cons, List.foldl_nil, State.pageLost, hlive', Bool.not_true, Bool.false_eq_true, if_false, modHearth_core, hmq]
      rfl
    exact ⟨_, hexec, coreFault_ends _ _ _ _ hlive⟩
  case fetched =>
    rw [exec_attnFetchComplete, execAttnFetchComplete]
    simp only [State.fetchDone, hmq, List.head?_cons, hf, ha, hop, Bool.not_true, Bool.or_self, Bool.false_eq_true, if_false]
    exact ⟨fun hl => by rw [if_pos hl], fun y hl hy => by rw [if_neg (by simp [hl])]; simp only [hy]⟩

end Sys2Proof.Machine
end

section
/-! PROOFS. Frames: what the shared operations of the fabric, the collectives and the barriers leave alone. Each operation is walked once, for every relation that its elementary updates keep. -/

namespace Sys2Proof.Machine

variable {R : State → State → Prop} {s : State}

/-! Links and pairs: what sending makes of the fabric -/

/-- What sending keeps of the fabric `x`: all but its pairs, secrets, frames sent and stalled cores, and on each link that is not up no pair that was not there, none of them taken down or brought back. -/
def Rails (x y : Fabric) : Prop :=
  { y with pairs := x.pairs, secrets := x.secrets, sent := x.sent, stalled := x.stalled } = x ∧ ∀ q ∈ y.pairs, x.links[q.link].mode = .up ∨ ∃ p ∈ x.pairs, p.link = q.link ∧ p.peer = q.peer ∧ p.far = q.far ∧ p.down = q.down

theorem rails_of_pairs {x y : Fabric} (hl : { y with pairs := x.pairs, secrets := x.secrets, sent := x.sent, stalled := x.stalled } = x) (hp : ∀ q ∈ y.pairs, q ∈ x.pairs) : Rails x y := ⟨hl, fun q hq => .inr ⟨q, hp q hq, rfl, rfl, rfl, rfl⟩⟩

/-- R354: what a flush makes of a pair: its packets keep their counters and payloads, and a pair that is not up stays as it is. -/
def Flushed (p q : LinkPair) : Prop :=
  { q with unacked := p.unacked, progressAt := p.progressAt } = p ∧ (q.unacked.map fun k => (k.ctr, k.payload)) = (p.unacked.map fun k => (k.ctr, k.payload)) ∧ (p.up = false → q = p)

theorem flushPkts_content (ack : BitVec 32) : ∀ (ks : List TxPkt) (room : Nat), ((flushPkts ack room ks).1.map fun k => (k.ctr, k.payload)) = ks.map fun k => (k.ctr, k.payload)
  | [], _ => rfl
  | k :: ks, room => by
    unfold flushPkts
    split
    · rw [List.map_cons, List.map_cons, flushPkts_content ack ks]
    · split
      · rw [List.map_cons, List.map_cons, flushPkts_content ack ks]
      · rfl

/-- R354: one pair of a flush: the room left, the pairs done and the frames sent so far. -/
def flushPair (s : State) (l : Fin 128) (acc : Nat × List LinkPair × List SentFrame) (p : LinkPair) : Nat × List LinkPair × List SentFrame :=
  if p.link = l ∧ p.up then
    let x := flushPkts p.ackPsn acc.1 p.unacked
    let idle := !(p.unacked.any (·.left))
    (x.2.2, acc.2.1 ++ [{ p with unacked := x.1, progressAt := if idle then s.now else p.progressAt }], acc.2.2 ++ x.2.1.map (s.fab.frameOf p))
  else (acc.1, acc.2.1 ++ [p], acc.2.2)

theorem flushPair_done (l : Fin 128) (acc : Nat × List LinkPair × List SentFrame) (p : LinkPair) : ∃ q, (flushPair s l acc p).2.1 = acc.2.1 ++ [q] ∧ Flushed p q := by
  unfold flushPair
  split
  next h => exact ⟨_, rfl, rfl, flushPkts_content .., fun hd => absurd (hd.symm.trans h.2) Bool.false_ne_true⟩
  next => exact ⟨p, rfl, rfl, rfl, fun _ => rfl⟩

theorem foldl_flushPair (l : Fin 128) : ∀ (ps : List LinkPair) (acc : Nat × List LinkPair × List SentFrame), ∃ qs, (ps.foldl (flushPair s l) acc).2.1 = acc.2.1 ++ qs ∧ List.Forall₂ Flushed ps qs
  | [], acc => ⟨[], by rw [List.foldl_nil, List.append_nil], .nil⟩
  | p :: ps, acc => by
    obtain ⟨q, hq, hflush⟩ := flushPair_done (s := s) l acc p
    obtain ⟨qs, hqs, hrest⟩ := foldl_flushPair l ps (flushPair s l acc p)
    exact ⟨q :: qs, by rw [List.foldl_cons, hqs, hq, List.append_assoc, List.singleton_append], .cons hflush hrest⟩

theorem flushLink_pairs (s : State) (l : Fin 128) : List.Forall₂ Flushed s.fab.pairs (s.flushLink l).fab.pairs := by
  obtain ⟨qs, hqs, hall⟩ := foldl_flushPair (s := s) l s.fab.pairs
    (262144 - (s.fab.pairs.flatMap fun p => if p.link = l then (p.unacked.filter (·.left)).map (·.size) else []).sum, [], [])
  have hpairs : (s.flushLink l).fab.pairs = qs := hqs
  rw [hpairs]
  exact hall

theorem forall₂_mem_right {α : Type} {S : α → α → Prop} {xs ys : List α} (h : List.Forall₂ S xs ys) {y : α} (hy : y ∈ ys) : ∃ x ∈ xs, S x y := by
  induction h with
  | nil => cases hy
  | cons hxy _ ih =>
    rcases List.mem_cons.1 hy with rfl | hy
    · exact ⟨_, List.mem_cons_self, hxy⟩
    · obtain ⟨x, hx, hS⟩ := ih hy
      exact ⟨x, List.mem_cons_of_mem _ hx, hS⟩

/-- R355, R373, R479: a status with which a packet that cannot be delivered ends its task. -/
def LinkStatus (st : Status) : Prop := st = stLinkDown ∨ st = stLinkAuth ∨ st = stLinkProto

theorem postPkt_status {g : Fin 512} {peer : BitVec 16} {far : Fin 8} {striped : Bool} {k : TxPkt} {st : Status} (e : s.postPkt g peer far striped k = .error (some st)) : LinkStatus st := by
  unfold State.postPkt at e
  split at e
  · cases e
    exact .inl rfl
  · dsimp only at e
    split at e
    · cases e
      exact .inr (.inl rfl)
    · split at e
      · cases e
        exact .inr (.inr rfl)
      · split at e <;> cases e

theorem postPkts_status {g : Fin 512} {peer : BitVec 16} {striped : Bool} {st : Status} : ∀ (ps : List (Fin 8 × TxPkt)) (s : State), s.postPkts g peer striped ps = .error (some st) → LinkStatus st
  | [], _, e => by cases e
  | x :: ps, s, e => by
    rw [State.postPkts, List.foldlM_cons] at e
    cases hx : s.postPkt g peer x.1 striped x.2 with
    | error _ =>
      rw [hx] at e
      cases e
      exact postPkt_status hx
    | ok u =>
      rw [hx] at e
      exact postPkts_status ps u e

/-- A relation between a state and a later one that sending keeps: what `Rails` says of the fabric, changes of what a core has to send, free values drawn, and faults of cores whose packets cannot be delivered. -/
structure RailFrame (R : State → State → Prop) : Prop where
  refl : ∀ s, R s s
  trans : ∀ {s t u}, R s t → R t u → R s u
  rails : ∀ (s : State) f, Rails s.fab (f s.fab) → R s (s.modFab f)
  draw : ∀ s, R s s.draw.2
  sends : ∀ s g (ms : Core → List OutMsg) (cs : Core → List (BitVec 16 × TxPkt)), R s (s.modCore g fun c => { c with msgs := ms c, ctrls := cs c })
  linkFault : ∀ s g st b q d, LinkStatus st → R s (s.coreFault g st b q d)

/-- The same with every change of the fabric and every fault of a core. -/
structure SendFrame (R : State → State → Prop) : Prop extends RailFrame R where
  fab : ∀ s f, R s (s.modFab f)
  fault : ∀ s g st b q d, R s (s.coreFault g st b q d)
  rails := fun s f _ => fab s f
  linkFault := fun s g st b q d _ => fault s g st b q d

theorem ite_frame {c : Prop} [Decidable c] {a b : State} (ha : c → R s a) (hb : ¬c → R s b) : R s (if c then a else b) := by
  split
  · exact ha ‹_›
  · exact hb ‹_›

theorem pickRail_up {g : Fin 512} {far : Fin 8} {peer : BitVec 16} {striped : Bool} {k r : Nat} (h : s.pickRail g far peer striped k = some r) : s.fab.links[linkOf (hearthOf g) r].mode = .up := by
  have huse : s.railUsable (hearthOf g) far peer r = true := by
    unfold State.pickRail at h
    split at h
    · exact (List.mem_filter.1 (List.mem_of_getElem? h)).2
    · exact List.find?_some h
  unfold State.railUsable at huse
  exact of_decide_eq_true (Bool.and_eq_true_iff.1 huse).1

namespace RailFrame

variable (h : RailFrame R)
include h

theorem foldl {α : Type} {f : State → α → State} (hf : ∀ s x, R s (f s x)) : ∀ (l : List α) (s : State), R s (l.foldl f s)
  | [], s => h.refl s
  | x :: l, s => h.trans (hf s x) (foldl hf l _)

theorem foldlM {α ε : Type} {f : State → α → Except ε State} (hf : ∀ s x t, f s x = .ok t → R s t) : ∀ (l : List α) {s t : State}, l.foldlM f s = .ok t → R s t
  | [], s, t, e => by
    cases e
    exact h.refl s
  | x :: l, s, t, e => by
    rw [List.foldlM_cons] at e
    cases hx : f s x with
    | error _ => rw [hx] at e; cases e
    | ok u =>
      rw [hx] at e
      exact h.trans (hf s x u hx) (foldlM hf l e)

/-! Packets and messages -/

theorem ensurePair {l : Fin 128} {peer : BitVec 16} {far : Fin 8} {t : State} (hup : s.fab.links[l].mode = .up) (e : s.ensurePair l peer far = some t) : R s t := by
  have hadd : ∀ ps : List LinkPair, (∀ q ∈ ps, q ∈ s.fab.pairs) → Rails s.fab { s.fab with pairs := ps ++ [LinkPair.fresh l peer far s.now] } := fun ps hps => by
    refine ⟨rfl, fun q hq => ?_⟩
    rcases List.mem_append.1 hq with hold | hnew
    · exact .inr ⟨q, hps q hold, rfl, rfl, rfl, rfl⟩
    · rw [List.mem_singleton.1 hnew]
      exact .inl hup
  unfold State.ensurePair at e
  dsimp only at e
  split at e
  · exact Option.some.inj e ▸ h.refl s
  · split at e
    · exact Option.some.inj e ▸ h.rails _ _ (hadd _ fun _ => id)
    · split at e
      · cases e
      · exact Option.some.inj e ▸ h.rails _ _ (hadd _ fun q hq => List.mem_of_mem_filter hq)

theorem modPair (l : Fin 128) (peer : BitVec 16) (far : Fin 8) {f : LinkPair → LinkPair} (hf : ∀ p, (f p).link = p.link ∧ (f p).peer = p.peer ∧ (f p).far = p.far ∧ (f p).down = p.down) :
    R s (s.modPair l peer far f) := by
  refine h.rails _ _ ⟨rfl, fun q hq => .inr ?_⟩
  obtain ⟨p, hp, rfl⟩ := List.mem_map.1 hq
  obtain ⟨h1, h2, h3, h4⟩ := hf p
  refine ⟨p, hp, ?_⟩
  split
  · exact ⟨h1.symm, h2.symm, h3.symm, h4.symm⟩
  · exact ⟨rfl, rfl, rfl, rfl⟩

theorem sendSetup (l : Fin 128) (peer : BitVec 16) (far : Fin 8) (kind : Nat) (bs : List Byte) : R s (s.sendSetup l peer far kind bs) := by
  unfold State.sendSetup
  exact h.rails _ _ (rails_of_pairs rfl fun _ => id)

theorem putSecret (x : Secret) : R s (s.putSecret x) := h.rails _ _ (rails_of_pairs rfl fun _ => id)

theorem flushLink (l : Fin 128) : R s (s.flushLink l) := by
  have hrails : Rails s.fab (s.flushLink l).fab := by
    refine ⟨rfl, fun q hq => .inr ?_⟩
    obtain ⟨p, hp, hflush, -, -⟩ := forall₂_mem_right (flushLink_pairs s l) hq
    exact ⟨p, hp, (congrArg LinkPair.link hflush.symm :), (congrArg LinkPair.peer hflush.symm :), (congrArg LinkPair.far hflush.symm :), (congrArg LinkPair.down hflush.symm :)⟩
  exact h.rails _ (fun _ => (s.flushLink l).fab) hrails

theorem queuePkt (l : Fin 128) (peer : BitVec 16) (far : Fin 8) (k : TxPkt) : R s (s.queuePkt l peer far k) :=
  h.trans (h.modPair l peer far (f := fun p => { p with txNext := p.txNext + 1, lastUse := s.now, unacked := p.unacked ++ [{ k with ctr := p.txNext, left := false }] }) fun _ => ⟨rfl, rfl, rfl, rfl⟩) (h.flushLink _)

theorem sendPair (l : Fin 128) (peer : BitVec 16) (far : Fin 8) : R s (s.sendPair l peer far) := by
  unfold State.sendPair
  split
  · exact h.refl s
  · refine ite_frame (fun _ => h.refl s) fun _ => h.trans (h.draw s) (h.trans ?_ (h.sendSetup ..))
    exact h.modPair l peer far fun _ => ⟨rfl, rfl, rfl, rfl⟩

theorem sendHello (l : Fin 128) (peer : BitVec 16) (far : Fin 8) : R s (s.sendHello l peer far) :=
  ite_frame (fun _ => h.refl s) fun _ => h.trans (h.draw s) (h.trans (h.draw _) (h.trans (h.putSecret _) (h.sendSetup ..)))

theorem beginPair (l : Fin 128) (peer : BitVec 16) (far : Fin 8) : R s (s.beginPair l peer far) :=
  ite_frame (fun _ => h.sendPair ..) fun _ => h.sendHello ..

theorem postPkt {g : Fin 512} {peer : BitVec 16} {far : Fin 8} {striped : Bool} {k : TxPkt} {t : State} (e : s.postPkt g peer far striped k = .ok t) : R s t := by
  unfold State.postPkt at e
  split at e
  · cases e
  · rename_i hrail
    dsimp only at e
    split at e
    · cases e
    · split at e
      · cases e
      · split at e
        · cases e
        · rename_i hpair
          cases e
          exact h.trans (h.ensurePair (pickRail_up hrail) hpair) (h.trans (h.beginPair ..) (h.queuePkt ..))

theorem postPkts {g : Fin 512} {peer : BitVec 16} {striped : Bool} {ps : List (Fin 8 × TxPkt)} {t : State} (e : s.postPkts g peer striped ps = .ok t) : R s t :=
  h.foldlM (fun _ _ _ => h.postPkt) ps e

theorem startMsgs (g : Fin 512) : ∀ (n : Nat) (s : State), R s (s.startMsgs g n)
  | 0, s => h.refl s
  | n + 1, s => by
    unfold State.startMsgs
    split
    · exact h.refl s
    · dsimp only
      split
      · rename_i hpost
        exact h.trans (h.trans (h.postPkts hpost) (h.sends _ g _ fun c => c.ctrls)) (startMsgs g n _)
      · rename_i hpost
        exact ite_frame (fun _ => h.linkFault _ _ _ _ _ _ (postPkts_status _ _ hpost)) fun _ => h.refl s
      · exact h.refl s

theorem failPkts (ks : List TxPkt) {st : Status} (hst : LinkStatus st) : R s (s.failPkts ks st) :=
  h.foldl (fun _ _ => ite_frame (fun _ => h.linkFault _ _ _ _ _ _ hst) fun _ => h.refl _) _ _

theorem startCtrls (g : Fin 512) : ∀ (n : Nat) (s : State), R s (s.startCtrls g n)
  | 0, s => h.refl s
  | n + 1, s => by
    unfold State.startCtrls
    split
    · exact h.refl s
    · split
      · rename_i hpost
        exact h.trans (h.trans (h.postPkt hpost) (h.sends _ g (fun c => c.msgs) _)) (startCtrls g n _)
      · rename_i hpost
        exact h.trans (h.trans (h.sends _ g (fun c => c.msgs) _) (h.failPkts _ (postPkt_status hpost))) (startCtrls g n _)
      · exact h.refl s

theorem pumpCore (g : Fin 512) : R s (s.pumpCore g) := by
  unfold State.pumpCore
  exact h.trans (h.trans (h.startCtrls g _ _) (h.startMsgs g _ _)) (ite_frame (fun _ => h.refl _) fun _ => h.rails _ _ (rails_of_pairs rfl fun _ => id))

theorem pumpStalled : R s s.pumpStalled := h.trans (h.rails s (fun x => { x with stalled := [] }) (rails_of_pairs rfl fun _ => id)) (h.foldl (fun _ _ => h.pumpCore _) _ _)

theorem ackPkt (k : TxPkt) : R s (s.ackPkt k) := by
  unfold State.ackPkt
  exact ite_frame (fun _ => h.trans (h.sends _ _ _ fun c => c.ctrls) (h.pumpCore _)) fun _ => h.refl s

theorem sendMsg (m : MsgHead) (ps : List (Nat × List Byte)) : R s (s.sendMsg m ps) := by
  unfold State.sendMsg
  exact h.trans (h.sends _ m.src _ fun c => c.ctrls) (h.pumpCore _)

theorem sendControl (g : Fin 512) (peer : BitVec 16) (ty : BitVec 4) (d : BitVec 9) (a : Nat) (k : BitVec 6) (e : BitVec 16) (b : BitVec 13) (bs : List Byte) :
    R s (s.sendControl g peer ty d a k e b bs) := by
  unfold State.sendControl
  exact h.trans (h.sends _ g (fun c => c.msgs) _) (h.pumpCore _)

theorem control (g : Fin 512) (peer : BitVec 16) (d : BitVec 9) (b : BitVec 13) (bs : List Byte) : R s (s.control g peer d b bs) := h.sendControl _ _ _ _ _ _ _ _ _

theorem unitControl (p : Fin 8) (peer : BitVec 16) (bs : List Byte) : R s (s.unitControl p peer bs) := h.control _ _ _ _ _

end RailFrame

/-- R355: a pair goes down. -/
theorem RailFrame.pairDown (h : RailFrame R) (hfab : ∀ s f, R s (s.modFab f)) (l : Fin 128) (peer : BitVec 16) (far : Fin 8) (auth : Bool) : R s (s.pairDown l peer far auth) := by
  have hst : LinkStatus (if auth then stLinkAuth else stLinkDown) := by
    cases auth
    · exact .inl rfl
    · exact .inr (.inl rfl)
  unfold State.pairDown
  split
  · exact h.refl s
  · refine h.trans (h.trans (h.trans ?_ (h.failPkts _ hst)) (h.flushLink l)) h.pumpStalled
    exact ite_frame (fun _ => h.trans (hfab ..) (hfab ..)) fun _ => hfab ..

/-- R355: a link goes down with its pairs. -/
theorem RailFrame.linkDown (h : RailFrame R) (hfab : ∀ s f, R s (s.modFab f)) (hlog : ∀ s e, R s (s.log e)) (l : Fin 128) (m : LinkMode) : R s (s.linkDown l m) := by
  unfold State.linkDown
  exact h.trans (h.trans (hlog ..) (hfab ..)) (h.foldl (fun _ _ => h.pairDown hfab ..) _ _)

/-! Barriers -/

/-- A relation that arriving at barriers keeps, and with it the rounds among the modules of a job. -/
structure SyncFrame (R : State → State → Prop) : Prop extends SendFrame R where
  arrives : ∀ s g a, R s (s.modCore g fun c => { c with arrival := a })
  ends : ∀ s p e, R s (s.endTask p e)
  partRounds : ∀ s p (r : Part → List (BitVec 16 × BitVec 16 × BitVec 16 × Byte × BitVec 16)), R s (s.modPart p fun x => { x with rounds := r x })
  taskRounds : ∀ s p (n : Task → Nat), R s (s.modTask p fun t => { t with rounds := n t })

namespace SyncFrame

variable (h : SyncFrame R)
include h

theorem arriveOne (p : Fin 8) (g : Fin 512) : R s (s.arriveOne p g) := by
  unfold State.arriveOne
  split
  · exact h.refl s
  · dsimp only
    split
    · exact h.refl s
    · have harrive := h.arrives s g
      split
      · exact ite_frame (fun _ => harrive _) fun _ => h.trans (harrive _) (h.ends ..)
      · exact harrive _

theorem arriveAll (p : Fin 8) : R s (s.arriveAll p) := h.foldl (fun _ _ => h.arriveOne p _) _ _

theorem roundStep (p : Fin 8) (num epoch : BitVec 16) (start : Bool) : ∀ (n : Nat) (s : State), R s (s.roundStep p num epoch start n)
  | 0, s => h.refl s
  | n + 1, s => by
    unfold State.roundStep
    split
    · exact h.refl s
    · dsimp only
      split
      · exact h.trans (h.trans (h.unitControl ..) (h.taskRounds ..)) (roundStep p num epoch start n _)
      · refine ite_frame (fun _ => h.refl s) fun _ => ?_
        split
        · exact h.refl s
        · refine h.trans (h.partRounds s p _) (ite_frame (fun _ => h.ends ..) fun _ => ?_)
          refine h.trans ?_ (roundStep p num epoch start n _)
          exact ite_frame (fun _ => h.trans (h.taskRounds ..) (h.unitControl ..)) fun _ => h.taskRounds ..

theorem pumpRounds (p : Fin 8) : R s (s.pumpRounds p) := by
  unfold State.pumpRounds
  split
  · exact h.refl s
  · refine ite_frame (fun _ => h.refl s) fun _ => ite_frame (fun _ => h.roundStep ..) fun _ => ite_frame (fun _ => ?_) fun _ => h.refl s
    split
    · exact h.roundStep ..
    · exact h.refl s

theorem settle (g : Fin 512) : R s (s.settle g) := by
  unfold State.settle
  split
  · exact ite_frame (fun _ => h.trans (h.arriveAll _) (h.pumpRounds _)) fun _ => h.refl s
  · exact h.refl s

end SyncFrame

/-! Collectives -/

/-- A relation that collectives keep: sending, and any change of a core, of the memory and of the ending of a task. -/
structure CollFrame (R : State → State → Prop) : Prop extends SendFrame R where
  core : ∀ s g f, R s (s.modCore g f)
  mem : ∀ s (f : Mem → Mem), R s { s with mem := f s.mem }
  ends : ∀ s p e, R s (s.endTask p e)

namespace CollFrame

variable (h : CollFrame R)
include h

theorem placeIn {d : BitVec 9} {sp : BitVec 3} {a : Nat} {bs : List Byte} {tag : BitVec 16} {t : State} (e : s.placeIn d sp a bs tag = .ok t) : R s t := by
  unfold State.placeIn at e
  simp only [bind, Except.bind] at e
  split at e
  · cases e
  · cases e
    exact ite_frame (fun _ => h.mem s fun m => m.write a bs) fun _ => ite_frame (fun _ => h.core ..) fun _ => h.core ..

theorem countBytes (d : BitVec 9) (sp : BitVec 3) (a n : Nat) (m : BitVec 16) (c : BitVec 9) : R s (s.countBytes d sp a n m c) := by
  unfold State.countBytes
  exact h.core ..

theorem countElems (g : Fin 512) (ty n : Nat) (m : BitVec 16) (c : BitVec 9) : R s (s.countElems g ty n m c) := h.core ..

theorem stageIn {d : BitVec 9} {r : BilletRun} {x : Option (BitVec 16 × BitVec 9)} {tag : BitVec 16} {t : State} (e : s.stageIn d r x tag = .ok t) : R s t := by
  unfold State.stageIn at e
  simp only [bind, Except.bind] at e
  split at e
  · cases e
  · split at e
    · cases e
      exact h.core ..
    · cases e

theorem sumLost (d : BitVec 9) (sp : BitVec 3) (a : Nat) : R s (s.sumLost d sp a) := by
  unfold State.sumLost
  split
  · split
    · exact h.ends ..
    · exact h.refl s
  · exact h.fault ..

theorem addIn {d : BitVec 9} {sp : BitVec 3} {a : Nat} {vs : List W32} {tag : BitVec 16} {t : State} (e : s.addIn d sp a vs tag = .ok t) : R s t := by
  unfold State.addIn at e
  dsimp only at e
  generalize (if sp = 0 then s.mem.lost a (4 * vs.length) else parityHit (s.core (coreId d.toNat)).badParity a (4 * vs.length)) = lost at e
  split at e
  · cases e
  · cases lost
    · exact h.placeIn e
    · cases hc : s.placeCheck d sp a (4 * vs.length) tag with
      | error _ => rw [hc] at e; cases e
      | ok _ =>
        rw [hc] at e
        cases e
        exact h.sumLost ..

theorem pumpRuns (g : Fin 512) (d : BitVec 9) (tag : BitVec 16) : ∀ (rs : List BilletRun) {s : State} {x}, pumpRuns g d tag s rs = .ok x → R s x.1
  | [], s, x, e => by
    cases e
    exact h.refl s
  | r :: rs, s, x, e => by
    unfold Machine.pumpRuns at e
    split at e
    · rename_i hstage
      exact h.trans (h.stageIn hstage) (pumpRuns g d tag rs e)
    · cases e
      exact h.refl s
    · cases e

theorem pumpColl (g : Fin 512) (c : Coll) : R s (s.pumpColl g c) := by
  unfold State.pumpColl
  split
  · rename_i hruns
    exact h.trans (h.pumpRuns _ _ _ _ hruns) (h.core ..)
  · exact h.fault ..

theorem sendData (g : Fin 512) (c : Coll) (recv : Nat) (sp : BitVec 3) : R s (s.sendData g c recv sp) := by
  unfold State.sendData
  dsimp only
  split
  · split
    · exact h.fault ..
    · split
      · exact h.trans (h.sendMsg ..) (h.core ..)
      · split
        · rename_i hplace
          exact h.trans (h.placeIn hplace) (h.trans (h.countBytes ..) (h.core ..))
        · exact h.fault ..
  · split
    · exact h.fault ..
    · refine ite_frame (fun _ => h.fault ..) fun _ => ite_frame (fun _ => ite_frame (fun _ => h.trans (h.sendMsg ..) (h.core ..)) fun _ => ?_) fun _ =>
        ite_frame (fun _ => h.trans (h.sendMsg ..) (h.core ..)) fun _ => ?_
      · exact h.trans (h.core ..) (h.pumpColl ..)
      · split
        · rename_i hadd
          exact h.trans (h.foldlM (fun _ _ _ => h.addIn) _ hadd) (h.trans (h.countElems ..) (h.core ..))
        · exact h.fault ..

theorem ctsArrive (g : Fin 512) (x y : W32) (r a : Nat) (sp : BitVec 3) : R s (s.ctsArrive g x y r a sp) := by
  unfold State.ctsArrive
  split
  · exact h.refl s
  · exact h.trans (h.core ..) (h.sendData ..)

theorem matchRts (g : Fin 512) (c : Coll) (r : Rts) : R s (s.matchRts g c r) := by
  unfold State.matchRts
  exact ite_frame (fun _ => h.fault ..) fun _ => h.trans (h.core ..) (ite_frame (fun _ => h.ctsArrive ..) fun _ => h.control ..)

theorem rtsArrive {g : Fin 512} {r : Rts} {t : State} (e : s.rtsArrive g r = some t) : R s t := by
  unfold State.rtsArrive at e
  split at e
  · exact Option.some.inj e ▸ h.matchRts ..
  · split at e
    · exact Option.some.inj e ▸ h.core ..
    · cases e

theorem sendRts (g : Fin 512) (c : Coll) : R s (s.sendRts g c) := by
  unfold State.sendRts
  dsimp only
  split
  · split
    · rename_i harrive
      exact h.trans (h.core ..) (h.rtsArrive harrive)
    · exact h.refl s
  · exact h.trans (h.core ..) (h.control ..)

theorem retryRts (g : Fin 512) : R s (s.retryRts g) :=
  h.foldl (fun _ _ => h.foldl (fun _ _ => ite_frame (fun _ => h.sendRts ..) fun _ => h.refl _) _ _) _ _

theorem collStart (g : Fin 512) (c : Coll) : R s (s.collStart g c) := by
  unfold State.collStart
  have hsend : R s ((s.modCore g fun k => { k with colls := k.colls ++ [c] }).sendRts g c) := h.trans (h.core ..) (h.sendRts ..)
  dsimp only
  split
  · refine h.trans hsend (ite_frame (fun _ => h.refl _) fun _ => ?_)
    exact ite_frame (fun _ => h.trans (h.trans (h.core ..) (h.matchRts ..)) (h.retryRts _)) fun _ => h.trans (h.core ..) (h.matchRts ..)
  · exact hsend

end CollFrame

/-! Two frames: the last bundle of a core, and its partition -/

section
variable (g : Fin 512)

theorem endTask_lastBundle (s : State) (p : Fin 8) (e : Ending) : (s.endTask p e).lastBundle g = s.lastBundle g := by
  rw [lastBundle_eq, endTask_taskOf_map s p e (v := Task.reserve) fun _ _ => rfl, ← lastBundle_eq]

theorem modPart_lastBundle (s : State) (p : Fin 8) {f : Part → Part} (hm : ∀ x, (f x).mode = x.mode) (ht : ∀ x, (f x).task = x.task) :
    (s.modPart p f).lastBundle g = s.lastBundle g := by
  have htask (q : Fin 8) : (s.modPart p f).parts[q].task = s.parts[q].task := by
    by_cases h : q = p
    · rw [h, modPart_same, ht]
    · rw [modPart_ne h]
  have hpart : (s.modPart p f).partOfCore g = s.partOfCore g := by simp only [State.partOfCore, State.partOf, modPart_mode s hm]
  have hof : (s.modPart p f).taskOf g = s.taskOf g := by
    rw [State.taskOf, hpart]
    exact congrArg _ (funext fun q => by rw [htask])
  rw [State.lastBundle, hof, ← State.lastBundle]

theorem lastBundle_sends : SendFrame fun s t => t.lastBundle g = s.lastBundle g where
  refl _ := rfl
  trans h k := k.trans h
  fab _ _ := rfl
  draw _ := rfl
  sends _ _ _ _ := rfl
  fault s j st b q d := coreFault_lastBundle s j st b q d g

theorem lastBundle_syncs : SyncFrame fun s t => t.lastBundle g = s.lastBundle g where
  toSendFrame := lastBundle_sends g
  arrives _ _ _ := rfl
  ends := endTask_lastBundle g
  partRounds s p _ := modPart_lastBundle g s p (fun _ => rfl) fun _ => rfl
  taskRounds s p n := modTask_lastBundle s p (f := fun t => { t with rounds := n t }) (fun _ => rfl) g

theorem lastBundle_colls : CollFrame fun s t => t.lastBundle g = s.lastBundle g where
  toSendFrame := lastBundle_sends g
  core _ _ _ := rfl
  mem _ _ := rfl
  ends := endTask_lastBundle g

end

end Sys2Proof.Machine
end

section
/-! PROOFS. The D slot (R157 to R165): transfers entering their queues, descriptor loads, signals, waits, claims, barriers and collectives as they issue. -/

namespace Sys2Proof.Machine

variable {s : State} {i : Issue} {g : Fin 512}

/-! Bundles with one control effect -/

@[simp] theorem passed_core (s : State) (g : Fin 512) (f : Core → Core) : (s.passed g f).core g = f { s.core g with seq := (s.core g).seq + 1, pc := (s.core g).pc + 1 } :=
  setCore_core ..

theorem commit_empty (c : Core) (now : Nat) : c.commit Staged.empty now = { c with seq := c.seq + 1 } := by simp [Core.commit, Staged.empty]

/-- A bundle with a control effect alone, which does not decide where the core's program ends. -/
theorem commitBundle_control {sl : List SlotId} {ds : List Reg} {x : Ctl} (hp : (s.core g).pc ≠ s.lastBundle g)
    (hl : ((s.passed g id).applyCtl g (s.core g).pc (s.core g).seq x).lastBundle g = s.lastBundle g) :
    s.commitBundle g ⟨sl, ds, Staged.empty, [x], none, false⟩ = (s.passed g id).applyCtl g (s.core g).pc (s.core g).seq x := by
  have hcommit : s.setCore g { (s.core g).commit Staged.empty s.now with pc := (s.core g).pc + 1 } = s.passed g id := by rw [commit_empty]; rfl
  have hmop : Staged.empty.mop = none := rfl
  simp only [State.commitBundle, hcommit, List.foldl_cons, List.foldl_nil, hmop, Option.isSome_none, Bool.false_eq_true, if_false, hl]
  exact if_neg fun h => hp h.1

section
variable {o : SlotOp} {act : Core → PReg → Act}

theorem present_control {x : Ctl} (h : Executes o.guard i (o.reads ++ o.dests) s) (hi : o.illegal = false)
    (ha : act (s.core i.core) (guardMask (s.core i.core) i) = Act.control x)
    (hl : ((s.passed i.core id).applyCtl i.core (s.core i.core).pc (s.core i.core).seq x).lastBundle i.core = s.lastBundle i.core) :
    present i o act s = .next ((s.passed i.core id).applyCtl i.core (s.core i.core).pc (s.core i.core).seq x) :=
  (present_commits h hi ha rfl rfl (.inl rfl)).trans (congrArg _ (commitBundle_control h.1.2.2.2.2.2 hl))

/-- An instruction by itself that asks for nothing. -/
theorem present_passes (h : Executes o.guard i (o.reads ++ o.dests) s) (hi : o.illegal = false)
    (ha : act (s.core i.core) (guardMask (s.core i.core) i) = Act.none) : present i o act s = .next (s.passed i.core id) := by
  refine (present_data h hi ha rfl rfl rfl rfl (.inl rfl)).trans ?_
  simp only [Act.none, commit_empty]
  rfl

end

/-! Transfers (R94, R157, R158) -/

section
variable {reads : List Reg} {illegal : Bool} {q : Fin 8} {f : Core → Except Status Xfer}

theorem enqueue_queues {x : Xfer} (h : Executes .lane0 i (reads ++ []) s) (hi : illegal = false) (hq : ((s.core i.core).q[q]).xfers.length < 32) (hx : f (s.core i.core) = .ok x) :
    present i (dOp reads [] illegal) (fun c _ => enqueue c q (f c)) s = .next (s.queuedX i.core q x) := by
  refine (present_data (o := dOp reads [] illegal) (a := { Act.none with eff := { Staged.empty with xfers := [(q, x)] } }) h hi ?_ rfl rfl rfl rfl (.inl rfl)).trans ?_
  · simp only [hx]
    exact if_neg (by omega)
  · simp [Core.commit, Staged.empty, State.queuedX]

theorem enqueue_stalls (h : Executes .lane0 i (reads ++ []) s) (hi : illegal = false) (hq : 32 ≤ ((s.core i.core).q[q]).xfers.length) :
    present i (dOp reads [] illegal) (fun c _ => enqueue c q (f c)) s = .next s :=
  present_stalls (o := dOp reads [] illegal) (a := Act.stalls) h hi (if_pos hq) rfl

theorem enqueue_faults {st : Status} (h : Executes .lane0 i (reads ++ []) s) (hi : illegal = false) (hq : ((s.core i.core).q[q]).xfers.length < 32) (hx : f (s.core i.core) = .error st) :
    ∃ t, present i (dOp reads [] illegal) (fun c _ => enqueue c q (f c)) s = .next t ∧ TaskEndsAt s t i.core st (s.core i.core).pc :=
  present_faults (o := dOp reads [] illegal) (a := Act.faults st) h hi (by simp only [hx]; exact if_neg (by omega)) rfl rfl

end

theorem tileSource_plain {c : Core} {n : Nat} {td : Fin 16} {d : Desc} (hd : c.tdUse td = some d) (hm : dMode d = 0) : tileSource c n td = .ok (d, none) := by
  simp [tileSource, Core.ext, hd, hm]

theorem tileSource_unloaded {c : Core} {n : Nat} {td : Fin 16} (hd : c.tdUse td = none) : tileSource c n td = .error stDesc := by
  simp [tileSource, hd]

section
variable {c : Core} {n : Nat} {td : Fin 16} {d : Desc} {rs : W64} {sig : Bool} {tok : Fin 64} {conv sf : BitVec 4}

/-- The transfer of an LDT or STT whose descriptor has no extension. -/
theorem streamXfer_plain {store : Bool} (hd : c.tdUse td = some d) (hm : dMode d = 0) :
    streamXfer c g n td rs sig tok store conv sf =
      if dSpace d = 1 ∨ (store ∧ (!admits (dLayout d) sf.toNat ∨ (isInt (dFmt d) ∧ dSlagEn d))) then .error stDesc
      else .ok { Xfer.blank .tile with sig := sig, token := tok, tokenCore := BitVec.ofNat 9 g.val, td := d, ext := none, store := store, sf := sf, conv := conv,
                                       dst := ⟨1, BitVec.ofNat 9 g.val, offset48 rs⟩ } := by
  rw [streamXfer, tileSource_plain hd hm]
  rfl

theorem streamXfer_unloaded {store : Bool} (hd : c.tdUse td = none) : streamXfer c g n td rs sig tok store conv sf = .error stDesc := by
  rw [streamXfer, tileSource_unloaded hd]
  rfl

end

theorem dmaRead_eq (c : Core) (rs : W64) : dmaRead c rs =
    if rs.toNat % 32 ≠ 0 ∨ 0x3FFFE0 < rs.toNat then .error stAddr else if parityHit c.badParity rs.toNat 32 then .error stParity else .ok (readBytes c.spad rs.toNat 32) := by
  have hsize : (spadSize < rs.toNat + 32) = (0x3FFFE0 < rs.toNat) := by simp only [spadSize]; apply propext; omega
  simp only [dmaRead, hsize]

/-- Settles O29: the transfer is the one that the descriptor gives, and the queue takes it in, stalls or refuses it. -/
theorem transfersEnterTheirQueue : Obligations.TransfersEnterTheirQueue := by
  rintro i q td rs sig tok conv sf s c d rfl
  refine ⟨fun h => ?stream, fun h => ?dmaq⟩
  case stream =>
    have h' : Executes .lane0 i (((s.core i.core).tdRegs td 2 ++ [.s rs]) ++ []) s := by rwa [List.append_nil]
    simp only [EndsTask]
    rw [exec_ldt, execLdt, exec_stt, execStt]
    refine ⟨fun hq hd hm hspace => ⟨?ldt, fun hconv hsf hint hslag => ?slag, fun hconv hsf hadm hint => ?stt⟩, fun hq => enqueue_stalls h' rfl hq, fun hq hbad => ?refused⟩
    case ldt => exact enqueue_queues h' rfl hq (by simp [streamXfer_plain hd hm, hspace, Xfer.blank])
    case slag => exact enqueue_faults (st := stDesc) h' (by simp [hconv, hsf]) hq (by simp [streamXfer_plain hd hm, hint, hslag])
    case stt =>
      have hok : ¬(dSpace d = 1 ∨ (true = true ∧ ((!admits (dLayout d) sf.toNat) = true ∨ (isInt (dFmt d) = true ∧ dSlagEn d = true)))) := by simpa [hspace, hadm] using hint
      exact enqueue_queues h' (by simp [hconv, hsf]) hq (by rw [streamXfer_plain hd hm, if_neg hok]; rfl)
    case refused =>
      refine enqueue_faults (st := stDesc) h' rfl hq ?_
      rcases hbad with hd | ⟨hd, hspace, hm⟩
      · exact streamXfer_unloaded hd
      · rw [streamXfer_plain hd hm, if_pos (.inl hspace)]
  case dmaq =>
    have h' : Executes .lane0 i ((.s rs :: dmaTdRegs (s.core i.core) ((s.core i.core).getS rs)) ++ []) s := by rwa [List.append_nil]
    simp only [EndsTask]
    rw [exec_dmaq, execDmaq]
    refine ⟨fun x hq hparity ha hmax hx => enqueue_queues h' rfl hq ?_, fun hq => enqueue_stalls h' rfl hq, fun hq hbad => enqueue_faults (st := stAddr) h' rfl hq ?_⟩
    · rw [dmaRead_eq, if_neg (by omega), hparity, parityHit_nil]
      exact hx
    · rw [dmaRead_eq, if_pos hbad]
      rfl

/-! Descriptor loads (R91, R159) -/

theorem loadTd_ok {c : Core} {n : Fin 16} {d : Desc} (h : c.loadsExt n = true ∨ descOk n d = true) : loadTd c n d = Act.writes [⟨.td n, .td d, 0⟩] :=
  if_pos (by simpa using h)

theorem loadTd_bad {c : Core} {n : Fin 16} {d : Desc} (h : c.loadsExt n = false) (hd : descOk n d = false) : loadTd c n d = Act.faults stDesc :=
  if_neg (by simp [h, hd])

/-- The 32-bit words of a descriptor after one of them is replaced. -/
theorem setDescWord_word (d : Desc) (w j : Fin 16) (x : W32) :
    (setDescWord d w x).extractLsb' (32 * j.val) 32 = if j = w then x else d.extractLsb' (32 * j.val) 32 := by
  have hmask (m : Nat) : (0xFFFFFFFF : Desc).getLsbD m = decide (m < 32) := by
    rw [show (0xFFFFFFFF : Desc) = BitVec.ofNat 512 (2 ^ 32 - 1) from rfl, BitVec.getLsbD_ofNat, Nat.testBit_two_pow_sub_one]
    simp only [Bool.and_eq_right_iff_imp, decide_eq_true_eq]
    omega
  apply BitVec.eq_of_getLsbD_eq
  intro k hk
  have hbit : 32 * j.val + k < 512 := by omega
  simp only [setDescWord, BitVec.getLsbD_extractLsb', hk, decide_true, Bool.true_and, BitVec.getLsbD_or, BitVec.getLsbD_and, BitVec.getLsbD_not, hbit, BitVec.getLsbD_shiftLeft,
    hmask, BitVec.getLsbD_setWidth]
  split
  · rename_i hj
    subst hj
    simp [hk, show 32 * j.val + k - 32 * j.val = k by omega, show k < 512 by omega]
  · rename_i hj
    have hne : j.val ≠ w.val := fun hv => hj (Fin.ext hv)
    rcases Nat.lt_or_gt_of_ne hne with hlt | hgt
    · simp [hk, show 32 * j.val + k < 32 * w.val by omega]
    · have hout : 32 ≤ 32 * j.val + k - 32 * w.val := by omega
      simp [hk, show ¬32 * j.val + k < 32 * w.val by omega, show ¬32 * j.val + k - 32 * w.val < 32 by omega, BitVec.getLsbD_of_ge x _ hout]

/-- R89, R127: with no descriptor load outstanding, an extension is a register that follows a descriptor in MODE TAP or PAGED. -/
theorem loadsExt_iff {c : Core} {td : Fin 16} (h : ∀ w ∈ c.inflight, ∀ n, w.reg ≠ .td n) :
    c.loadsExt td = true ↔ td ≠ 0 ∧ ∃ d, c.td[td - 1] = some d ∧ (dMode d = 1 ∨ dMode d = 2) := by
  have hlatest (n : Fin 16) : c.tdLatest n = c.td[n] := by
    have hnil : c.inflight.filter (fun w => decide (w.reg = .td n)) = [] := List.filter_eq_nil_iff.2 fun w hw => by simp [h w hw n]
    simp [Core.tdLatest, hnil]
  simp [Core.loadsExt, hlatest, Option.any_eq_true]

/-- Settles O30: DQST reads and resets, and a descriptor load is checked unless it loads an extension. -/
theorem queueStatusAndDescriptorLoads : Obligations.QueueStatusAndDescriptorLoads := by
  rintro i q td word rd s c rfl h
  have hrd : Executes .lane0 i [.s rd] s := h.sub (by simp)
  have htdw : Executes .lane0 i [.s rd, .td td, .td td] s := h.sub (by simp)
  refine ⟨?dqst, fun d ha hmax hparity hd => ?tdl, fun hbad => ?tdlAddr, fun d hd => ⟨setDescWord d word (((s.core i.core).getS rd).setWidth 32), fun j => setDescWord_word .., ?tdw⟩,
    fun hnone => ?tdwNone, loadsExt_iff⟩
  case dqst =>
    rw [exec_dqst, execDqst]
    refine (present_data (o := dOp [] [.s rd] false) hrd rfl rfl rfl rfl rfl rfl (.inl rfl)).trans ?_
    simp [Core.commit, Staged.empty, State.issued, State.modCore, wS]
  case tdl =>
    have hok : ¬(((s.core i.core).getS rd).toNat % 64 ≠ 0 ∨ spadSize < ((s.core i.core).getS rd).toNat + 64) := by simp only [spadSize]; omega
    simp only [EndsTask]
    rw [exec_tdl, execTdl]
    refine ⟨fun hl => present_writes (o := dOp [.s rd] [.td td] false) h rfl ?_ rfl, fun hl hb => present_faults (o := dOp [.s rd] [.td td] false) (a := Act.faults stDesc) h rfl ?_ rfl rfl⟩
    · simp only [if_neg hok, hparity, parityHit_nil, Bool.false_eq_true, if_false, ← hd, loadTd_ok hl]
    · simp only [if_neg hok, hparity, parityHit_nil, Bool.false_eq_true, if_false, ← hd, loadTd_bad hl hb]
  case tdlAddr =>
    rw [EndsTask, exec_tdl, execTdl]
    exact present_faults (o := dOp [.s rd] [.td td] false) (st := stAddr) h rfl (if_pos (by simp only [spadSize]; omega)) rfl rfl
  case tdw =>
    simp only [EndsTask]
    rw [exec_tdw, execTdw]
    refine ⟨fun hl => present_writes (o := dOp [.s rd, .td td] [.td td] false) htdw rfl ?_ rfl,
      fun hl hb => present_faults (o := dOp [.s rd, .td td] [.td td] false) (a := Act.faults stDesc) htdw rfl ?_ rfl rfl⟩
    · simp only [hd, loadTd_ok hl]
    · simp only [hd, loadTd_bad hl hb]
  case tdwNone =>
    rw [EndsTask, exec_tdw, execTdw]
    exact present_faults (o := dOp [.s rd, .td td] [.td td] false) (a := Act.faults stDesc) htdw rfl (by simp only [hnone]) rfl rfl

/-! Signals and waits (R96, R100, R161) -/

/-- A core that may issue runs. -/
theorem canIssue_mode (h : s.canIssue g = true) : (s.core g).mode = .run := of_decide_eq_true (Bool.and_eq_true_iff.1 h).2

theorem coreId_ofNat (n : Nat) : coreId (BitVec.ofNat 9 n).toNat = ⟨n % 512, by omega⟩ := Fin.ext (by simp [coreId])

theorem ofNat_bits_31_16 (x : W64) : BitVec.ofNat 16 (bits x 31 16) = BitVec.ofNat 16 (x.toNat / 2 ^ 16) := by
  apply BitVec.eq_of_toNat_eq
  simp [bits, Nat.shiftRight_eq_div_pow]

section
variable {rt : Fin 32} {tok : Fin 64} {cnt : BitVec 8}

/-- A SIGNAL's count on its way. -/
theorem signal_goes {m : Option (BitVec 16)} (h : Executes .lane0 i [.s rt] s) (hc : cnt ≠ 0)
    (hm : (if bit ((s.core i.core).getS rt) 32 ∧ BitVec.ofNat 16 (bits ((s.core i.core).getS rt) 31 16) ≠ s.fab.moduleId then
        Act.control (.signal (some (BitVec.ofNat 16 (bits ((s.core i.core).getS rt) 31 16))) (BitVec.ofNat 9 ((s.core i.core).getS rt).toNat) tok cnt)
      else if s.partOfCore (coreId (BitVec.ofNat 9 ((s.core i.core).getS rt).toNat).toNat) = s.partOfCore i.core then
        Act.control (.signal none (BitVec.ofNat 9 ((s.core i.core).getS rt).toNat) tok cnt)
      else Act.faults stAddr) = Act.control (.signal m (BitVec.ofNat 9 ((s.core i.core).getS rt).toNat) tok cnt)) :
    exec (.signal i rt tok cnt) s = .next { s.passed i.core id with tokens := s.tokens ++
      [⟨i.core, none, (s.core i.core).seq, m, BitVec.ofNat 9 ((s.core i.core).getS rt).toNat, tok, cnt, (s.core i.core).epoch, (s.core i.core).pc⟩] } := by
  have happly : (s.passed i.core id).applyCtl i.core (s.core i.core).pc (s.core i.core).seq (.signal m (BitVec.ofNat 9 ((s.core i.core).getS rt).toNat) tok cnt) =
      { s.passed i.core id with tokens := s.tokens ++
        [⟨i.core, none, (s.core i.core).seq, m, BitVec.ofNat 9 ((s.core i.core).getS rt).toNat, tok, cnt, (s.core i.core).epoch, (s.core i.core).pc⟩] } := by
    simp only [State.applyCtl, passed_core]
    rfl
  rw [exec_signal, execSignal, ← happly]
  refine present_control (o := dOp [.s rt] [] _) h (decide_eq_false hc) ?_ ?_
  · exact hm
  · rw [happly]
    rfl

theorem current_eq (c : TokenCell) (e : BitVec 16) : c.current e = if e.getLsbD 0 then c.odd else c.even := rfl

/-- R96: a WAIT of a running core whose count stands completes at once. -/
theorem tryWait_takes {c : Core} {w : PendingWait} (hle : w.cnt.toNat ≤ ((c.tok[w.tok]).current c.epoch).toNat) :
    { c with wait := some w, mode := .wait }.tryWait =
      { c with mode := .run, wait := none, tok := c.tok.set w.tok ((c.tok[w.tok]).put c.epoch ((c.tok[w.tok]).current c.epoch - w.cnt.setWidth 16)) } := by
  simp only [Core.tryWait]
  exact if_pos hle

theorem tryWait_waits {c : Core} {w : PendingWait} (hlt : ((c.tok[w.tok]).current c.epoch).toNat < w.cnt.toNat) :
    { c with wait := some w, mode := .wait }.tryWait = { c with wait := some w, mode := .wait } := by
  simp only [Core.tryWait]
  exact if_neg (Nat.not_le.2 hlt)

theorem exec_wait_passed (h : Executes .lane0 i [] s) (hc : cnt ≠ 0) :
    exec (.wait i tok cnt) s = .next (s.passed i.core fun k =>
      { k with wait := some ⟨tok, cnt, s.now, s.hearths[hearthOf i.core].waitLimit.toNat, (s.core i.core).pc⟩, mode := .wait }.tryWait) := by
  have happly : (s.passed i.core id).applyCtl i.core (s.core i.core).pc (s.core i.core).seq (.wait tok cnt) = s.passed i.core fun k =>
      { k with wait := some ⟨tok, cnt, s.now, s.hearths[hearthOf i.core].waitLimit.toNat, (s.core i.core).pc⟩, mode := .wait }.tryWait := by
    simp [State.applyCtl, State.modCore, State.passed]
  rw [exec_wait, execWait, ← happly]
  refine present_control (o := dOp [] [] _) h (decide_eq_false hc) rfl ?_
  rw [happly]
  rfl

end

/-- R98: a count taken from a token counter. -/
theorem sub_count_eq {n : BitVec 16} {cnt : BitVec 8} (h : cnt.toNat ≤ n.toNat) : n - cnt.setWidth 16 = BitVec.ofNat 16 (n.toNat - cnt.toNat) := by
  bv_omega

/-- Settles O31: the count leaves for the core that the register names, and a WAIT takes its count or holds the core. -/
theorem signalsAndWaits : Obligations.SignalsAndWaits := by
  refine ⟨fun i rt tok cnt s c x hcore hx h => ?signal, fun i tok cnt s c n hcore h hc hn => ?wait⟩
  case signal =>
    subst hcore hx
    intro go
    refine ⟨fun hc hbit hpart => signal_goes h hc ?_, fun m hc hbit hm hne => signal_goes h hc ?_, fun hc hbit hm hpart => signal_goes h hc ?_, fun hc hbit hpart => ?outside,
      fun hc => ?zero⟩
    · rw [bit_eq_getLsbD, if_neg (fun hrem => Bool.false_ne_true (hbit.symm.trans hrem.1)), coreId_ofNat, if_pos hpart]
    · rw [bit_eq_getLsbD, ofNat_bits_31_16, ← hm, if_pos ⟨hbit, hne⟩]
    · rw [ofNat_bits_31_16, if_neg (fun hrem => hrem.2 hm), coreId_ofNat, if_pos hpart]
    case outside =>
      rw [EndsTask, exec_signal, execSignal]
      refine present_faults (o := dOp [.s rt] [] _) (a := Act.faults stAddr) h (decide_eq_false hc) ?_ rfl rfl
      dsimp only
      rw [bit_eq_getLsbD, if_neg (fun hrem => Bool.false_ne_true (hbit.symm.trans hrem.1)), coreId_ofNat, if_neg hpart]
    case zero =>
      rw [EndsTask, exec_signal, execSignal]
      exact present_illegal_ends (o := dOp [.s rt] [] _) h (decide_eq_true hc)
  case wait =>
    subst hcore hn
    rw [exec_wait_passed h hc]
    have hmode := canIssue_mode h.1.1
    refine ⟨fun cell hcell hle => ?_, fun hlt => ?_⟩
    · rw [State.passed, State.passed, tryWait_takes (by exact hle)]
      subst hcell
      simp only [current_eq, TokenCell.put, hmode]
      rw [sub_count_eq hle]
    · rw [State.passed, State.passed, tryWait_waits (by exact hlt)]

/-! Claims (R105, R106, R162) -/

/-- Settles O32: a claim that passes its checks stands outstanding with its token. -/
theorem wclaimLeavesAClaim : Obligations.WclaimLeavesAClaim := by
  rintro i rd rs pd h ctr inc s c n p k rfl hex hk rfl
  have hpart := (taskOf_some hk).1
  have hregs : Executes .lane0 i ((if inc = 0 then [.s rs] else []) ++ [.s rd, .p pd]) s := hex.sub (by split <;> simp)
  have hbits : bits ((s.core i.core).getS rs) 15 0 = ((s.core i.core).getS rs).toNat % 2 ^ 16 := by simp [bits]
  have hclaim (hn : (if inc = 0 then ((s.core i.core).getS rs).toNat % 2 ^ 16 else inc.toNat) ≠ 0) (hbal : k.balEn = true) (hh : s.partOf h = some p) :
      ¬((decide ((if inc = 0 then ((s.core i.core).getS rs).toNat % 2 ^ 16 else inc.toNat) = 0) || !k.balEn || decide (s.partOf h ≠ some p)) = true) := by
    simp only [Bool.or_eq_true, decide_eq_true_eq, Bool.not_eq_true', hbal, hh]
    tauto
  simp only [EndsTask]
  rw [exec_wclaim, execWclaim, hk, hpart]
  refine ⟨fun hn hbal hh hfree => ?_, fun hn hbal hh hbusy => ?_, fun hbad => ?_⟩
  · have happly (n : Nat) : (s.passed i.core id).applyCtl i.core (s.core i.core).pc (s.core i.core).seq (.claim h ctr n rd pd) = s.passed i.core fun y => { y with
        claims := y.claims ++ [⟨h, ctr, n, rd, pd, BitVec.ofNat 16 (i.core.val * 128 + (s.core i.core).claimSeq.toNat), false, 0, (s.core i.core).pc⟩],
        claimSeq := (s.core i.core).claimSeq + 1 } := by
      simp [State.applyCtl, State.modCore, State.passed, Nat.mul_comm]
    rw [← happly]
    refine present_control (o := dOp _ [.s rd, .p pd] false) hregs rfl ?_ (by rw [happly]; rfl)
    simp only [hbits, Option.map_some, Option.getD_some]
    rw [if_neg (hclaim hn hbal hh), if_neg (by simpa using hfree)]
  · refine present_stalls (o := dOp _ [.s rd, .p pd] false) (a := Act.stalls) hregs rfl ?_ rfl
    simp only [hbits, Option.map_some, Option.getD_some]
    rw [if_neg (hclaim hn hbal hh), if_pos (by simpa using hbusy)]
  · refine present_faults (o := dOp _ [.s rd, .p pd] false) (a := Act.faults stIllegal) hregs rfl ?_ rfl rfl
    simp only [hbits, Option.map_some, Option.getD_some]
    exact if_pos (by simpa [or_assoc] using hbad)

/-! Barriers and MSYNC (R102, R163, R164) -/

/-- R102: a barrier instruction without a guard holds its core. -/
theorem present_barrier {o : SlotOp} {kind : BitVec 2} {num : BitVec 16} (h : Executes o.guard i (o.reads ++ o.dests) s) (hi : o.illegal = false) :
    present i o (fun _ _ => Act.control (.barrier kind num)) s =
      .next ((s.passed i.core fun c => { c with arrival := some ⟨kind, num, (s.core i.core).pc, (s.core i.core).seq, none⟩, mode := .barrier }).settle i.core) := by
  have happly : (s.passed i.core id).applyCtl i.core (s.core i.core).pc (s.core i.core).seq (.barrier kind num) =
      (s.passed i.core fun c => { c with arrival := some ⟨kind, num, (s.core i.core).pc, (s.core i.core).seq, none⟩, mode := .barrier }).settle i.core := by
    simp [State.applyCtl, State.modCore, State.passed]
  refine (present_control h hi rfl ?_).trans (congrArg _ happly)
  rw [happly, (lastBundle_syncs i.core).settle]
  rfl

/-- Settles O33: a barrier without a guard holds the core, one with a guard is illegal, and MSYNC stalls until the M queue is empty. -/
theorem barrierAndMsyncInstructionsAct : Obligations.BarrierAndMsyncInstructionsAct := by
  refine ⟨fun i num s h => ⟨fun hp hn => ?held, fun hg hp => ?guarded⟩, fun i s h => ?msync⟩
  case held =>
    have hex := executes_unguarded h hp hn
    have hfree := guarded_eq_false hp hn
    intro held
    rw [exec_hbar, execHbar, exec_mbar, execMbar, exec_ebar, execEbar, exec_endCore, execEndCore]
    exact ⟨present_barrier (o := dOp [] [] _) hex hfree, present_barrier (o := dOp [] [] _) hex hfree, present_barrier (o := dOp [] [] _) hex hfree,
      present_barrier (o := cOp [] [] _) hex hfree⟩
  case guarded =>
    simp only [EndsTask]
    rw [exec_hbar, execHbar, exec_mbar, execMbar, exec_ebar, execEbar, exec_endCore, execEndCore]
    have hill := guarded_iff.2 hg
    exact ⟨present_decodeFault (o := dOp [] [] _) h.unreserved hp (by simp [dOp]) (.inl hill), present_decodeFault (o := dOp [] [] _) h.unreserved hp (by simp [dOp]) (.inl hill),
      present_decodeFault (o := dOp [] [] _) h.unreserved hp (by simp [dOp]) (.inl hill), present_decodeFault (o := cOp [] [] _) h.unreserved hp (by simp [cOp]) (.inl hill)⟩
  case msync =>
    rw [exec_msync, execMsync]
    refine ⟨fun hq => present_stalls (o := dOp [] [] false) (a := Act.stalls) h rfl (if_neg (by simpa using hq)) rfl,
      fun hq => present_passes (o := dOp [] [] false) h rfl (if_pos (by simp [hq]))⟩

/-! Collectives (R165, R360, R361) -/

/-- What a collective as issued holds of its instruction. -/
theorem collOf_fields {d : Desc} {opc : Byte} {sig : Bool} {tok : Fin 64} {dst src : Nat} {x : Coll} (h : s.collOf g d opc sig tok dst src = .ok x) :
    x.sig = sig ∧ x.token = tok ∧ x.dataSent = false := by
  unfold State.collOf at h
  simp only [bind, Except.bind] at h
  split at h
  · cases h
  · split at h
    · cases h
    · split at h
      · cases h
      · split at h
        · cases h
        · cases h
          exact ⟨rfl, rfl, rfl⟩

/-- R165: an instruction that starts a collective with data to move. -/
theorem present_coll {o : SlotOp} {act : Core → PReg → Act} {x : Coll} (h : Executes o.guard i (o.reads ++ o.dests) s) (hi : o.illegal = false)
    (ha : act (s.core i.core) (guardMask (s.core i.core) i) = Act.control (.coll x)) (hx : x.dataSent = false) :
    present i o act s = .next ((s.passed i.core id).collStart i.core { x with seq := (s.core i.core).seq, bundle := (s.core i.core).pc }) := by
  have happly : (s.passed i.core id).applyCtl i.core (s.core i.core).pc (s.core i.core).seq (.coll x) =
      (s.passed i.core id).collStart i.core { x with seq := (s.core i.core).seq, bundle := (s.core i.core).pc } := by
    simp only [State.applyCtl, hx, Bool.false_eq_true, if_false]
  refine (present_control h hi ha ?_).trans (congrArg _ happly)
  rw [happly, (lastBundle_colls i.core).collStart]
  rfl

/-- R361: XPERM's collective, with the ranks of its permutation entry, where both or neither of them are the member's own. -/
theorem xperm_starts {d : Desc} {red : BitVec 2} {sig : Bool} {tok : Fin 64} {rs : W64} {bs : List Byte} {x : Coll} (hd : collRead (s.core g) rs = .ok d)
    (hok : collOk d true red = true) (hbs : (s.work g).rdMod (s.admits g) (cPerm d + 8 * cRank d) 8 = .ok bs) (hdst : leAt bs 0 4 < cSize d) (hsrc : leAt bs 4 4 < cSize d)
    (hown : decide (leAt bs 0 4 = cRank d) = decide (leAt bs 4 4 = cRank d)) (hx : s.collOf g d (collOpc true red 0 false) sig tok (leAt bs 0 4) (leAt bs 4 4) = .ok x) :
    (do
      let d ← collRead (s.core g) rs
      if !collOk d true red then .error stDesc
      else
        let bs ← (s.work g).rdMod (s.admits g) (cPerm d + 8 * cRank d) 8
        let dst := leAt bs 0 4
        let src := leAt bs 4 4
        if cSize d ≤ dst ∨ cSize d ≤ src ∨ decide (dst = cRank d) ≠ decide (src = cRank d) then .error stDesc
        else do
          let x ← s.collOf g d (collOpc true red 0 false) sig tok dst src
          .ok (if dst = cRank d then { x with dataSent := true, recvLeft := 0 } else x) : Except Status Coll)
      = .ok (if leAt bs 0 4 = cRank d then { x with dataSent := true, recvLeft := 0 } else x) := by
  have hranks : ¬(cSize d ≤ leAt bs 0 4 ∨ cSize d ≤ leAt bs 4 4 ∨ decide (leAt bs 0 4 = cRank d) ≠ decide (leAt bs 4 4 = cRank d)) := by
    rintro (hge | hge | hne)
    · omega
    · omega
    · exact hne hown
  simp only [hd, bind, Except.bind, hok, Bool.not_true, Bool.false_eq_true, if_false, hbs, if_neg hranks, hx]

theorem collRead_badAddr {c : Core} {rs : W64} (h : rs.toNat % 64 ≠ 0 ∨ 0x3FFFC0 < rs.toNat) : collRead c rs = .error stDesc :=
  if_pos (by simp only [spadSize]; omega)

/-- Settles O34: the collective of the descriptor starts, a fixed point only sends its token, and a wrong address or RED ends the task. -/
theorem collectivesStart : Obligations.CollectivesStart := by
  rintro i rs red axis dir sig tok s c d rfl h
  simp only [EndsTask]
  rw [exec_xshift, execXshift, exec_xperm, execXperm]
  refine ⟨fun x hred hd hok hx => ?shift, fun x bs dst src hred hd hok hbs hdst hsrc hdlt hslt hx => ⟨fun hnd hns => ?perm, fun hed hes => ?fixed⟩, fun hred hbad => ?addr, fun hred => ?reserved⟩
  case shift =>
    refine present_coll (o := dOp [.s rs] [] _) h (decide_eq_false hred) ?_ (collOf_fields hx).2.2
    simp only [hd, bind, Except.bind, hok, Bool.not_true, Bool.false_eq_true, if_false, hx]
    rfl
  case perm =>
    subst hdst hsrc
    refine present_coll (o := dOp [.s rs] [] _) h (decide_eq_false hred) ?_ (collOf_fields hx).2.2
    exact congrArg collAct ((xperm_starts hd hok hbs hdlt hslt (by simp [hnd, hns]) hx).trans (by rw [if_neg hnd]))
  case fixed =>
    subst hdst hsrc
    obtain ⟨hsig, htok, -⟩ := collOf_fields hx
    have happly : (s.passed i.core id).applyCtl i.core (s.core i.core).pc (s.core i.core).seq (.coll { x with dataSent := true, recvLeft := 0 }) =
        if sig then { s.passed i.core id with tokens := s.tokens ++ [⟨i.core, none, 0, none, BitVec.ofNat 9 i.core.val, tok, 1, (s.core i.core).epoch, (s.core i.core).pc⟩] }
        else s.passed i.core id := by
      simp only [State.applyCtl, if_true, hsig, htok, State.ownToken, passed_core]
      rfl
    rw [← happly]
    refine present_control (o := dOp [.s rs] [] _) h (decide_eq_false hred) ?_ ?_
    · exact congrArg collAct ((xperm_starts hd hok hbs hdlt hslt (by simp [hed, hes]) hx).trans (by rw [if_pos hed]))
    · rw [happly]
      split <;> rfl
  case addr =>
    refine present_faults (o := dOp [.s rs] [] _) (a := Act.faults stDesc) h (decide_eq_false hred) ?_ rfl rfl
    simp only [collRead_badAddr hbad]
    rfl
  case reserved =>
    exact ⟨present_illegal_ends (o := dOp [.s rs] [] _) h (decide_eq_true hred), present_illegal_ends (o := dOp [.s rs] [] _) h (decide_eq_true hred)⟩

end Sys2Proof.Machine
end

section
/-! PROOFS. The hearths of a partition, and the end of a task at one of its cores. -/

namespace Sys2Proof.Machine

variable {s : State} {g : Fin 512} {p h : Fin 8}

/-! The first entry of a list in order that passes a test -/

theorem find?_first {α : Type} {r : α → α → Prop} {l : List α} {P : α → Bool} {b : α} (hs : l.Pairwise r) (h : l.find? P = some b) : ∀ a ∈ l, P a = true → a = b ∨ r b a := by
  obtain ⟨-, as, bs, rfl, hbefore⟩ := List.find?_eq_some_iff_append.1 h
  intro a ha hPa
  rw [List.pairwise_append] at hs
  rcases List.mem_append.1 ha with hin | hin
  · have := hbefore a hin
    simp [hPa] at this
  · rcases List.mem_cons.1 hin with rfl | hin
    · exact .inl rfl
    · exact .inr ((List.pairwise_cons.1 hs.2.1).1 a hin)

theorem partOf_some (h0 : s.partOf h = some p) : p ≤ h ∧ s.parts[p].mode ≠ .none ∧ ∀ q, q ≤ h → s.parts[q].mode ≠ .none → q ≤ p := by
  have hfound := List.find?_some h0
  simp only [Bool.and_eq_true, decide_eq_true_eq] at hfound
  refine ⟨hfound.1, hfound.2, fun q hq hm => ?_⟩
  have hsorted : (List.finRange 8).reverse.Pairwise (fun a b => b < a) := List.pairwise_reverse.2 (List.pairwise_lt_finRange 8)
  rcases find?_first hsorted h0 q (by simp) (Bool.and_eq_true_iff.2 ⟨decide_eq_true hq, decide_eq_true hm⟩) with rfl | hlt
  · exact le_refl _
  · exact hlt.le

theorem partOf_eq_some (hle : p ≤ h) (hm : s.parts[p].mode ≠ .none) (hlast : ∀ q, q ≤ h → s.parts[q].mode ≠ .none → q ≤ p) : s.partOf h = some p := by
  cases hq : s.partOf h with
  | none =>
    exact absurd (Bool.and_eq_true_iff.2 ⟨decide_eq_true hle, decide_eq_true hm⟩) (List.find?_eq_none.1 hq p (by simp))
  | some q =>
    obtain ⟨hqle, hqm, hqlast⟩ := partOf_some hq
    rw [le_antisymm (hlast q hqle hqm) (hqlast p hle hm)]

theorem partSize_cases (s : State) (p : Fin 8) :
    (∃ q, ((List.finRange 8).find? fun q => decide (p < q) && decide (s.parts[q].mode ≠ .none)) = some q ∧ s.partSize p = q.val - p.val)
    ∨ ((List.finRange 8).find? fun q => decide (p < q) && decide (s.parts[q].mode ≠ .none)) = none ∧ s.partSize p = 8 - p.val := by
  unfold State.partSize
  split
  · exact .inl ⟨_, ‹_›, rfl⟩
  · exact .inr ⟨‹_›, rfl⟩

/-- R388: the hearths of a partition are those from its first one up to the next partition's. -/
theorem inPart_iff : s.inPart p h = true ↔ p ≤ h ∧ ∀ q, q ≤ h → s.parts[q].mode ≠ .none → q ≤ p := by
  rw [State.inPart, Bool.and_eq_true, decide_eq_true_eq, decide_eq_true_eq]
  refine and_congr_right fun hle => ?_
  rcases partSize_cases s p with ⟨q, hq, hsize⟩ | ⟨hq, hsize⟩
  · have hfound := List.find?_some hq
    rw [Bool.and_eq_true, decide_eq_true_eq, decide_eq_true_eq] at hfound
    refine ⟨fun hlt r hr hm => ?_, fun hall => ?_⟩
    · by_contra hrp
      rcases find?_first (List.pairwise_lt_finRange 8) hq r (by simp) (Bool.and_eq_true_iff.2 ⟨decide_eq_true (not_le.1 hrp), decide_eq_true hm⟩) with rfl | hqr <;> omega
    · have hqh : ¬q ≤ h := fun hqh => not_lt.2 (hall q hqh hfound.2) hfound.1
      omega
  · refine ⟨fun _ r _ hm => ?_, fun _ => by omega⟩
    by_contra hrp
    exact List.find?_eq_none.1 hq r (by simp) (Bool.and_eq_true_iff.2 ⟨decide_eq_true (not_le.1 hrp), decide_eq_true hm⟩)

/-- A hearth lies in the partition that begins at `p` exactly where `p` is its partition. -/
theorem inPart_iff_partOf (hm : s.parts[p].mode ≠ .none) : s.inPart p h = true ↔ s.partOf h = some p := by
  rw [inPart_iff]
  exact ⟨fun ⟨hle, hlast⟩ => partOf_eq_some hle hm hlast, fun h0 => ⟨(partOf_some h0).1, (partOf_some h0).2.2⟩⟩

theorem partOf_mode (h0 : s.partOf h = some p) : s.parts[p].mode ≠ .none := (partOf_some h0).2.1

theorem mem_members : g ∈ s.members p ↔ s.inPart p (hearthOf g) = true ∧ (s.core g).member = true := by
  simp [State.members]

theorem member_partOfCore (hm : s.parts[p].mode ≠ .none) (hg : g ∈ s.members p) : s.partOfCore g = some p :=
  (inPart_iff_partOf hm).1 (mem_members.1 hg).1

/-! The end of a task -/

/-- A fault at a core whose partition has a task is that task's end and the core's own fault; nothing else changes. -/
theorem coreFault_endsAt {k : Task} (hk : s.taskOf g = some (p, k)) (st : Status) (b : BitVec 13) (q d : Nat) : TaskEndsAt s (s.coreFault g st b q d) g st b := by
  obtain ⟨hp, ht⟩ := taskOf_some hk
  have hp' : ∀ f, (s.modCore g f).partOfCore g = some p := fun _ => hp
  have hcore (f e) : ((s.modCore g f).endTask p e).core g = f (s.core g) := setCore_core s g (f (s.core g))
  simp only [State.coreFault, hp', hk]
  refine ⟨⟨p, k, s.coreEnding g st (some b) q d, hk, endTask_decides _ ht, rfl, rfl, rfl, rfl⟩, fun h0 => ?_, ?_, fun j hj => ?_, rfl, rfl, rfl, rfl, rfl⟩
  · rw [hcore]
    simp [h0]
  · rw [hcore]
    split <;> rfl
  · exact modCore_core_ne hj

/-- The task of a partition has an end detected. -/
def State.ending (s : State) (p : Fin 8) : Prop := ∃ k, s.parts[p].task = some k ∧ k.ending ≠ none

theorem endTask_ending (e : Ending) (h : s.parts[p].task ≠ none) : (s.endTask p e).ending p := by
  obtain ⟨k, hk⟩ := Option.ne_none_iff_exists'.1 h
  exact ⟨_, endTask_decides e hk, by simp⟩

theorem endTask_keeps_ending {q : Fin 8} (e : Ending) (h : s.ending p) : (s.endTask q e).ending p := by
  obtain ⟨k, hk, hend⟩ := h
  by_cases hq : p = q
  · exact hq ▸ endTask_ending e (by rw [hk]; simp)
  · exact ⟨k, (congrArg Part.task (modTask_parts_ne s _ hq)).trans hk, hend⟩

theorem coreFault_keeps_ending (st : Status) (b : BitVec 13) (q d : Nat) (h : s.ending p) : (s.coreFault g st b q d).ending p := by
  unfold State.coreFault
  dsimp only
  split
  · exact endTask_keeps_ending (s := s.modCore g _) _ h
  · exact h

theorem coreFault_ending (st : Status) (b : BitVec 13) (q d : Nat) (hp : s.partOfCore g = some p) (h : s.parts[p].task ≠ none) : (s.coreFault g st b q d).ending p := by
  unfold State.coreFault
  have hp' : ∀ f, (s.modCore g f).partOfCore g = some p := fun _ => hp
  simp only [hp']
  exact endTask_ending (s := s.modCore g _) _ h

/-! The clock moved -/

theorem advance_parts_mode (n : Nat) (q : Fin 8) : (s.advance n).parts[q].mode = s.parts[q].mode := by
  unfold State.advance
  split
  · simp
  · rfl

theorem advance_partOfCore (n : Nat) : (s.advance n).partOfCore g = s.partOfCore g := by
  rw [State.partOfCore, State.partOfCore, State.partOf, State.partOf]
  simp only [advance_parts_mode]

/-- R528: the clock's move counts a task's throttled time and changes nothing else of it. -/
theorem advance_task (n : Nat) (q : Fin 8) : ∃ thr, (s.advance n).parts[q].task = s.parts[q].task.map fun t => { t with throttled := t.throttled + thr } := by
  unfold State.advance
  split
  · exact ⟨if s.throttled && decide (s.pwr.phase = .ready) then n else 0, by simp⟩
  · exact ⟨0, by cases h : s.parts[q].task <;> simp_all⟩

theorem reach_taskOf {k : Task} (t : Nat) (hk : s.taskOf g = some (p, k)) : ∃ thr, (s.reach t).taskOf g = some (p, { k with throttled := k.throttled + thr }) := by
  obtain ⟨hp, ht⟩ := taskOf_some hk
  obtain ⟨thr, hthr⟩ := advance_task (s := s) (t - s.now) p
  refine ⟨thr, ?_⟩
  rw [State.taskOf, State.reach, advance_partOfCore, hp, Option.bind_some, hthr, ht]
  rfl

end Sys2Proof.Machine
end

section
/-! PROOFS. Barriers release their participants, and the epoch barrier goes on to the next epoch. -/

namespace Sys2Proof.Machine

variable {s : State} {g : Fin 512} {p h : Fin 8} {k : Task}

theorem partLive_some (hl : s.partLive p = true) : ∃ k, s.parts[p].task = some k ∧ k.phase = .running ∧ k.over s.now = false := by
  unfold State.partLive at hl
  split at hl
  next k hk => exact ⟨k, hk, by simpa using hl⟩
  next => exact absurd hl Bool.false_ne_true

/-! Cores that run on past the last bundle -/

theorem fetchPast_within (hg : (s.core g).pastEnd = false) : s.fetchPast g = s := by
  simp [State.fetchPast, hg]

theorem foldl_fetchPast_within {gs : List (Fin 512)} (hgs : ∀ g ∈ gs, (s.core g).pastEnd = false) : gs.foldl State.fetchPast s = s := by
  induction gs with
  | nil => rfl
  | cons g gs ih =>
    rw [List.foldl_cons, fetchPast_within (hgs g List.mem_cons_self)]
    exact ih fun j hj => hgs j (List.mem_cons_of_mem _ hj)

theorem fetchPast_partOfCore (j : Fin 512) : (s.fetchPast j).partOfCore g = s.partOfCore g := by
  unfold State.fetchPast
  split
  · exact coreFault_partOfCore _ _ _ _ _ _ _
  · rfl

theorem fetchPast_keeps_ending (j : Fin 512) (he : s.ending p) : (s.fetchPast j).ending p := by
  unfold State.fetchPast
  split
  · exact coreFault_keeps_ending _ _ _ _ he
  · exact he

/-- A core's own fault leaves its sequencer where it stood. -/
theorem fetchPast_sequencer (j g : Fin 512) : ((s.fetchPast j).core g).pastEnd = (s.core g).pastEnd ∧ ((s.fetchPast j).core g).mode = (s.core g).mode := by
  unfold State.fetchPast
  split
  · by_cases hj : g = j
    · subst hj
      obtain ⟨st, hst⟩ := coreFault_core s g stIllegal (s.lastBundle g) 0xFF 0
      rw [hst]
      split <;> exact ⟨rfl, rfl⟩
    · rw [coreFault_core_ne s j _ _ _ _ hj]
      exact ⟨rfl, rfl⟩
  · exact ⟨rfl, rfl⟩

theorem coreFault_task_ne_none (j : Fin 512) (st : Status) (b : BitVec 13) (q d : Nat) (ht : s.parts[p].task ≠ none) : (s.coreFault j st b q d).parts[p].task ≠ none := by
  unfold State.coreFault
  dsimp only
  split
  next q _ =>
    by_cases hq : p = q
    · subst hq
      obtain ⟨k, hk, -⟩ := endTask_ending (s := s.modCore j _) (s.coreEnding j st b q d) ht
      exact hk.trans_ne (Option.some_ne_none k)
    · exact (congrArg Part.task (modTask_parts_ne (s.modCore j _) _ hq)).trans_ne ht
  next => exact ht

/-- R86: of cores that run on, one past its last bundle ends the task of its partition. -/
theorem foldl_fetchPast_ending {gs : List (Fin 512)} (hg : g ∈ gs) (hpast : (s.core g).pastEnd = true) (hrun : (s.core g).mode = .run)
    (hp : s.partOfCore g = some p) (ht : s.parts[p].task ≠ none) : (gs.foldl State.fetchPast s).ending p := by
  induction gs generalizing s with
  | nil => exact absurd hg List.not_mem_nil
  | cons j gs ih =>
    rw [List.foldl_cons]
    rcases List.mem_cons.1 hg with rfl | hg
    · refine List.foldlRecOn gs _ (motive := fun u : State => u.ending p) ?_ fun u hu j _ => fetchPast_keeps_ending j hu
      rw [State.fetchPast, if_pos (by simp [hpast, hrun])]
      exact coreFault_ending _ _ _ _ hp ht
    · obtain ⟨hp1, hm1⟩ := fetchPast_sequencer (s := s) j g
      refine ih hg (hp1.trans hpast) (hm1.trans hrun) ((fetchPast_partOfCore j).trans hp) ?_
      unfold State.fetchPast
      split
      · exact coreFault_task_ne_none _ _ _ _ _ ht
      · exact ht

/-! HBAR and MBAR (R102) -/

theorem modCores_parts (gs : List (Fin 512)) (f : Fin 512 → Core → Core) : (s.modCores gs f).parts = s.parts := by rw [modCores_rest]

theorem modCores_mem (gs : List (Fin 512)) (f : Fin 512 → Core → Core) : (s.modCores gs f).mem = s.mem := by rw [modCores_rest]

theorem modCores_tokens (gs : List (Fin 512)) (f : Fin 512 → Core → Core) : (s.modCores gs f).tokens = s.tokens := by rw [modCores_rest]

theorem modCores_now (gs : List (Fin 512)) (f : Fin 512 → Core → Core) : (s.modCores gs f).now = s.now := by rw [modCores_rest]

theorem modCores_fab (gs : List (Fin 512)) (f : Fin 512 → Core → Core) : (s.modCores gs f).fab = s.fab := by rw [modCores_rest]

theorem partOfCore_of_parts {t : State} (h : t.parts = s.parts) (g : Fin 512) : t.partOfCore g = s.partOfCore g := by
  rw [State.partOfCore, State.partOfCore, State.partOf, State.partOf, h]

theorem modCores_partOfCore (gs : List (Fin 512)) (f : Fin 512 → Core → Core) (g : Fin 512) : (s.modCores gs f).partOfCore g = s.partOfCore g :=
  partOfCore_of_parts (modCores_parts gs f) g

theorem participants_iff (cls : Nat) : g ∈ s.participants p cls h ↔ (s.core g).member = true ∧ p.val ≤ g.val / 64 ∧ g.val / 64 < p.val + s.partSize p ∧ (cls = 0 → g.val / 64 = h.val) := by
  have hcls : (decide (cls ≠ 0) || decide (hearthOf g = h)) = true ↔ (cls = 0 → g.val / 64 = h.val) := by
    rw [Bool.or_eq_true, decide_eq_true_eq, decide_eq_true_eq, Fin.ext_iff]
    exact ⟨fun hor h0 => hor.resolve_left (not_not.2 h0), fun himp => (em (cls = 0)).elim (fun h0 => .inr (himp h0)) .inl⟩
  have hin : s.inPart p (hearthOf g) = true ↔ p.val ≤ g.val / 64 ∧ g.val / 64 < p.val + s.partSize p := by
    rw [State.inPart, Bool.and_eq_true, decide_eq_true_eq, decide_eq_true_eq]
    rfl
  rw [State.participants, List.mem_filter, mem_members, hcls, hin]
  tauto

theorem participants_members (cls : Nat) (hg : g ∈ s.participants p cls h) : g ∈ s.members p := (List.mem_filter.1 hg).1

theorem releaseBarrier_waits {cls : Nat} (hp : s.partOf h = some p) (ha : s.allArrived p cls h = false) : s.releaseBarrier h cls = s := by
  simp [State.releaseBarrier, hp, ha]

theorem releaseBarrier_releases {cls : Nat} (hp : s.partOf h = some p) (hl : s.partLive p = true) (ha : s.allArrived p cls h = true) :
    s.releaseBarrier h cls = (s.participants p cls h).foldl State.fetchPast (s.modCores (s.participants p cls h) fun _ => Core.leave) := by
  simp [State.releaseBarrier, hp, hl, ha]

theorem leave_core {gs : List (Fin 512)} (hn : gs.Nodup) (hg : g ∈ gs) : (s.modCores gs fun _ => Core.leave).core g = (s.core g).leave := by
  rw [modCores_core _ _ _ _ hn, if_pos hg]

/-- R102, R215: the completion of either barrier releases it, unless an epoch barrier's widening pass is due. -/
theorem barrierComplete_releases {cls : Nat} {c : Instr} (hp : s.partOf h = some p) (hc : cls = 0 ∧ c = .hbarComplete h ∨ cls = 1 ∧ c = .mbarComplete h)
    (hw : cls = 1 → s.passDue p = false) : exec c s = .next (s.releaseBarrier h cls) := by
  rcases hc with ⟨rfl, rfl⟩ | ⟨rfl, rfl⟩
  · rfl
  · rw [exec_mbarComplete, execMbarComplete]
    simp [hp, hw rfl]

/-- Settles O35: a barrier's release changes its participants only, and one of them past its last bundle ends the task. -/
theorem barriersReleaseTheirParticipants : Obligations.BarriersReleaseTheirParticipants := by
  intro s h p cls c hp hl hc
  refine ⟨fun ha hw hend => ?_, fun ha hw ⟨g, hg, hpast, hmode⟩ => ?_, fun hd => ?_, fun ha hw => ?_, fun g => participants_iff cls⟩
  · have hn := participants_nodup s p cls h
    have hrest := modCores_rest (fun _ => Core.leave) (s.participants p cls h) s
    have hrel : s.releaseBarrier h cls = s.modCores (s.participants p cls h) fun _ => Core.leave := by
      rw [releaseBarrier_releases hp hl ha]
      refine foldl_fetchPast_within fun g hg => ?_
      rw [leave_core hn hg]
      exact hend g hg
    refine ⟨_, barrierComplete_releases hp hc hw, by rw [hrel]; exact hrest, fun g hg => ?_, fun g hg => ?_⟩
    · rw [hrel, leave_core hn hg, Core.leave]
    · rw [hrel, modCores_core _ _ _ _ hn, if_neg hg]
  · have hn := participants_nodup s p cls h
    obtain ⟨k, hk, -⟩ := partLive_some hl
    obtain ⟨k', hk', hend⟩ : (s.releaseBarrier h cls).ending p := by
      rw [releaseBarrier_releases hp hl ha]
      refine foldl_fetchPast_ending hg ?_ ?_ ?_ ?_
      · rw [leave_core hn hg]
        exact hpast
      · rw [leave_core hn hg]
        exact if_pos hmode
      · exact (modCores_partOfCore _ _ _).trans (member_partOfCore (partOf_mode hp) (participants_members cls hg))
      · rw [modCores_parts, hk]
        simp
    exact ⟨_, k', barrierComplete_releases hp hc hw, hk', hend⟩
  · rw [exec_mbarComplete, execMbarComplete]
    simp only [hp, hd, if_true]
  · rw [barrierComplete_releases hp hc hw, releaseBarrier_waits hp ha]

/-! EBAR (R99, R103, R135, R217, R396, R397) -/

theorem leaveEpoch_ends {c : Core} (h : c.arrival.map (·.kind) = some 3) : c.leaveEpoch.arrival = none ∧ c.leaveEpoch.mode = .idle ∧ c.leaveEpoch.member = false := by
  obtain ⟨a, ha, hk⟩ := Option.map_eq_some_iff.1 h
  have hkind : c.arrival.map (·.kind.toNat) = some 3 := by rw [ha, Option.map_some, hk]; rfl
  rw [Core.leaveEpoch, hkind]
  exact ⟨rfl, rfl, rfl⟩

theorem leaveEpoch_stays {c : Core} (h : c.arrival.map (·.kind) ≠ some 3) :
    c.leaveEpoch.arrival = none ∧ c.leaveEpoch.mode = (if c.mode = .barrier then .run else c.mode) ∧ c.leaveEpoch.member = c.member := by
  have hkind : c.arrival.map (·.kind.toNat) ≠ some 3 := by
    intro h3
    obtain ⟨a, ha, hk⟩ := Option.map_eq_some_iff.1 h3
    exact h (by rw [ha, Option.map_some]; exact congrArg _ (BitVec.eq_of_toNat_eq hk))
  rw [Core.leaveEpoch]
  split
  · exact absurd ‹_› hkind
  · exact ⟨rfl, rfl, rfl⟩

/-- What a core keeps across the epoch barrier, and its counters of the new epoch (R99). -/
theorem leaveEpoch_rest (c : Core) : c.leaveEpoch.epoch = c.epoch + 1 ∧ c.leaveEpoch.tok = c.tok.map (fun (x : TokenCell) => x.put c.epoch 0) ∧ c.leaveEpoch.spad = c.spad
    ∧ c.leaveEpoch.s = c.s ∧ c.leaveEpoch.v = c.v ∧ c.leaveEpoch.slots = c.slots ∧ c.leaveEpoch.pastEnd = c.pastEnd := by
  rw [Core.leaveEpoch]
  split <;> exact ⟨rfl, rfl, rfl, rfl, rfl, rfl, rfl⟩

theorem leaveEpoch_tok (c : Core) (n : Fin 64) : c.leaveEpoch.tok[n] = if c.epoch.getLsbD 0 then ⟨c.tok[n].even, 0⟩ else ⟨0, c.tok[n].odd⟩ := by
  rw [(leaveEpoch_rest c).2.1]
  exact Vector.getElem_map _ _

/-- The look-aside buffers of a partition's hearths emptied. -/
def State.emptyLabs (s : State) (p : Fin 8) : State :=
  (List.finRange 8).foldl (fun s h => if s.inPart p h then s.modHearth h fun x => { x with lab := [] } else s) s

theorem emptyLabs_rest (s : State) (p : Fin 8) : s.emptyLabs p = { s with hearths := (s.emptyLabs p).hearths } := by
  refine List.foldlRecOn (motive := fun u : State => u = { s with hearths := u.hearths }) _ _ rfl fun u hu h _ => ?_
  split
  · rw [hu]
    rfl
  · exact hu

theorem emptyLabs_cores (s : State) (p : Fin 8) : (s.emptyLabs p).cores = s.cores := by rw [emptyLabs_rest]

theorem emptyLabs_parts (s : State) (p : Fin 8) : (s.emptyLabs p).parts = s.parts := by rw [emptyLabs_rest]

theorem emptyLabs_mem (s : State) (p : Fin 8) : (s.emptyLabs p).mem = s.mem := by rw [emptyLabs_rest]

theorem emptyLabs_tokens (s : State) (p : Fin 8) : (s.emptyLabs p).tokens = s.tokens := by rw [emptyLabs_rest]

theorem emptyLabs_now (s : State) (p : Fin 8) : (s.emptyLabs p).now = s.now := by rw [emptyLabs_rest]

theorem emptyLabs_fab (s : State) (p : Fin 8) : (s.emptyLabs p).fab = s.fab := by rw [emptyLabs_rest]

/-- The state in which the cores of a partition have left the epoch barrier, before it is decided how the task goes on. -/
def State.pastEpoch (s : State) (p : Fin 8) : State :=
  ((s.modCores (s.participants p 2 p) fun _ => Core.leaveEpoch).emptyLabs p).modTask p fun t => { t with ordinal := satAdd t.ordinal 1, rounds := 0, overs := [] }

theorem leaveEbar_eq (k : Task) : s.leaveEbar p k = (if k.cancel then (s.pastEpoch p).endTask p ((s.pastEpoch p).unitEnding stCancelled 0 0 0)
    else if ((s.pastEpoch p).members p).isEmpty then (s.pastEpoch p).endTask p ((s.pastEpoch p).unitEnding 0 2 p.val 0)
    else if k.suspends then
      (((s.pastEpoch p).modCores ((s.pastEpoch p).members p) fun _ c => { c with mode := .suspended }).modTask p fun t => { t with phase := .suspended, suspendAt := none }).modPart p Part.suspended
    else ((s.pastEpoch p).members p).foldl State.fetchPast (s.pastEpoch p)) := rfl

theorem pastEpoch_mem (s : State) (p : Fin 8) : (s.pastEpoch p).mem = s.mem := by
  rw [State.pastEpoch, modTask_mem, emptyLabs_mem, modCores_rest]

theorem pastEpoch_tokens (s : State) (p : Fin 8) : (s.pastEpoch p).tokens = s.tokens := by
  rw [State.pastEpoch, modTask_tokens, emptyLabs_tokens, modCores_rest]

theorem pastEpoch_now (s : State) (p : Fin 8) : (s.pastEpoch p).now = s.now := by
  rw [State.pastEpoch, modTask_now, emptyLabs_now, modCores_rest]

theorem pastEpoch_fab (s : State) (p : Fin 8) : (s.pastEpoch p).fab = s.fab := by
  rw [State.pastEpoch, modTask_fab, emptyLabs_fab, modCores_rest]

theorem pastEpoch_cores (s : State) (p : Fin 8) : (s.pastEpoch p).cores = (s.modCores (s.participants p 2 p) fun _ => Core.leaveEpoch).cores := by
  rw [State.pastEpoch, modTask_cores, emptyLabs_cores]

theorem pastEpoch_core (hg : g ∈ s.participants p 2 p) : (s.pastEpoch p).core g = (s.core g).leaveEpoch := by
  rw [State.core, pastEpoch_cores]
  exact (modCores_core _ _ _ _ (participants_nodup s p 2 p)).trans (if_pos hg)

theorem pastEpoch_core_other (hg : g ∉ s.participants p 2 p) : (s.pastEpoch p).core g = s.core g := by
  rw [State.core, pastEpoch_cores]
  exact (modCores_core _ _ _ _ (participants_nodup s p 2 p)).trans (if_neg hg)

theorem pastEpoch_task (hk : s.parts[p].task = some k) : (s.pastEpoch p).parts[p].task = some { k with ordinal := satAdd k.ordinal 1, rounds := 0, overs := [] } := by
  rw [State.pastEpoch, modTask_task_same, emptyLabs_parts, modCores_parts, hk, Option.map_some]

theorem inPart_of_parts {t : State} (ht : t.parts = s.parts) (q : Fin 8) : t.inPart q h = s.inPart q h := by
  rw [State.inPart, State.inPart, State.partSize, State.partSize, ht]

theorem pastEpoch_inPart (q : Fin 8) : (s.pastEpoch p).inPart q h = s.inPart q h := by
  rw [State.pastEpoch, modTask_inPart]
  exact inPart_of_parts ((emptyLabs_parts _ p).trans (modCores_parts _ _)) q

theorem mem_pastEpoch : g ∈ (s.pastEpoch p).members p ↔ g ∈ s.participants p 2 p ∧ (s.core g).arrival.map (·.kind) ≠ some 3 := by
  have hpart : g ∈ s.participants p 2 p ↔ s.inPart p (hearthOf g) = true ∧ (s.core g).member = true := by
    rw [State.participants, List.mem_filter, mem_members]
    simp
  rw [mem_members, pastEpoch_inPart]
  by_cases hg : g ∈ s.participants p 2 p
  · rw [pastEpoch_core hg]
    by_cases h3 : (s.core g).arrival.map (·.kind) = some 3
    · simp [leaveEpoch_ends h3, h3]
    · rw [(leaveEpoch_stays h3).2.2]
      simp only [hpart.1 hg, hg, h3, ne_eq, not_false_eq_true, and_self]
  · rw [pastEpoch_core_other hg, ← hpart]
    simp [hg]

theorem leaveEbar_within (k : Task) (hend : ∀ g ∈ s.participants p 2 p, (s.core g).pastEnd = false) :
    s.leaveEbar p k = if k.cancel then (s.pastEpoch p).endTask p ((s.pastEpoch p).unitEnding stCancelled 0 0 0)
      else if ((s.pastEpoch p).members p).isEmpty then (s.pastEpoch p).endTask p ((s.pastEpoch p).unitEnding 0 2 p.val 0)
      else if k.suspends then
        (((s.pastEpoch p).modCores ((s.pastEpoch p).members p) fun _ c => { c with mode := .suspended }).modTask p fun t => { t with phase := .suspended, suspendAt := none }).modPart p Part.suspended
      else s.pastEpoch p := by
  rw [leaveEbar_eq, foldl_fetchPast_within (s := s.pastEpoch p)]
  intro g hg
  obtain ⟨hpart, -⟩ := mem_pastEpoch.1 hg
  rw [pastEpoch_core hpart, (leaveEpoch_rest _).2.2.2.2.2.2]
  exact hend g hpart

/-- The cores after the epoch barrier: those that stay in a task that suspends are suspended. -/
theorem leaveEbar_core (k : Task) (hend : ∀ g ∈ s.participants p 2 p, (s.core g).pastEnd = false) (g : Fin 512) :
    (s.leaveEbar p k).core g = if k.cancel = false ∧ k.suspends = true ∧ g ∈ (s.pastEpoch p).members p then { (s.pastEpoch p).core g with mode := .suspended } else (s.pastEpoch p).core g := by
  rw [leaveEbar_within k hend]
  split
  next hc => simp [hc]
  next hc =>
    split
    next he => rw [List.isEmpty_iff.1 he]; simp
    next he =>
      split
      next hs =>
        rw [modPart_core, modTask_core, modCores_core _ _ _ _ (members_nodup _ p)]
        simp [hs, hc]
      next hs => simp [hs]

theorem leaveEbar_frame (k : Task) (hend : ∀ g ∈ s.participants p 2 p, (s.core g).pastEnd = false) :
    (s.leaveEbar p k).mem = s.mem ∧ (s.leaveEbar p k).tokens = s.tokens ∧ (s.leaveEbar p k).now = s.now ∧ (s.leaveEbar p k).fab = s.fab := by
  have hpast : (s.pastEpoch p).mem = s.mem ∧ (s.pastEpoch p).tokens = s.tokens ∧ (s.pastEpoch p).now = s.now ∧ (s.pastEpoch p).fab = s.fab :=
    ⟨pastEpoch_mem s p, pastEpoch_tokens s p, pastEpoch_now s p, pastEpoch_fab s p⟩
  rw [leaveEbar_within k hend]
  split
  · exact hpast
  · split
    · exact hpast
    · split
      · rw [modPart_mem, modPart_tokens, modPart_now, modPart_fab, modTask_mem, modTask_tokens, modTask_now, modTask_fab, modCores_mem, modCores_tokens, modCores_now, modCores_fab]
        exact hpast
      · exact hpast

/-- R135, R396, R397: the task is cancelled, ends with its last core, suspends, or goes on. -/
theorem leaveEbar_task (hend : ∀ g ∈ s.participants p 2 p, (s.core g).pastEnd = false) (hk : s.parts[p].task = some k) (hnone : k.ending = none) :
    ∃ k', (s.leaveEbar p k).parts[p].task = some k' ∧ k'.ordinal = satAdd k.ordinal 1
      ∧ (k.cancel = true → k'.ending.map (·.status) = some stCancelled)
      ∧ (k.cancel = false → (s.pastEpoch p).members p = [] → k'.ending.map (·.status) = some 0)
      ∧ (k.cancel = false → (s.pastEpoch p).members p ≠ [] → k'.ending = none ∧ k'.phase = if k.suspends then .suspended else k.phase) := by
  have hpast := pastEpoch_task hk
  rw [leaveEbar_within k hend]
  split
  next hc =>
    exact ⟨_, endTask_decides _ hpast, rfl, fun _ => by simp [hnone]; rfl, fun h0 => absurd h0 (by simp [hc]), fun h0 => absurd h0 (by simp [hc])⟩
  next hc =>
    have hc0 : k.cancel ≠ true := hc
    split
    next he =>
      exact ⟨_, endTask_decides _ hpast, rfl, fun h0 => absurd h0 hc0, fun _ _ => by simp [hnone]; rfl, fun _ h0 => absurd (List.isEmpty_iff.1 he) h0⟩
    next he =>
      have he0 : (s.pastEpoch p).members p ≠ [] := fun h0 => he (List.isEmpty_iff.2 h0)
      split
      next hs =>
        refine ⟨{ k with ordinal := satAdd k.ordinal 1, rounds := 0, overs := [], phase := .suspended, suspendAt := none }, ?_, rfl, fun h0 => absurd h0 hc0, fun _ h0 => absurd h0 he0, fun _ _ => ⟨hnone, ?_⟩⟩
        · rw [modPart_same, Part.suspended, modTask_task_same, modCores_parts, hpast, Option.map_some]
        · exact rfl
      next hs => exact ⟨_, hpast, rfl, fun h0 => absurd h0 hc0, fun _ h0 => absurd h0 he0, fun _ _ => ⟨hnone, rfl⟩⟩

theorem passDue_of_no_tensors (hw : s.hearths[p].widen = []) : s.passDue p = false := by
  simp only [State.passDue, hw, List.isEmpty_nil, Bool.not_true, Bool.and_false, Bool.false_and]

theorem widenPass_of_no_tensors (hw : s.hearths[p].widen = []) : s.widenPass p = s := by
  simp only [State.widenPass, hw, List.foldl_nil]

theorem lowestOver_some : ∀ {l : List (W32 × BitVec 48)}, l ≠ [] → ∃ x, lowestOver l = some x
  | x :: r, _ => by
    rw [lowestOver]
    split
    · exact ⟨x, rfl⟩
    · split <;> exact ⟨_, rfl⟩

/-- R103, R217: with no tensor to widen, the epoch barrier ends an overflowed task, or its cores leave it. -/
theorem ebarComplete_acts (hp : s.partOf h = some p) (hk : s.parts[p].task = some k) (hl : s.partLive p = true) (ha : s.allArrived p 2 p = true) (hr : s.roundsDone p = true)
    (hw : s.hearths[p].widen = []) (hnone : k.ending = none) : exec (.ebarComplete h) s = .next ((lowestOver k.overs).elim
      ((s.modHearth p fun x => { x with widenPass := false }).leaveEbar p k) (State.poolFull (s.modHearth p fun x => { x with widenPass := false }) p)) := by
  rw [exec_ebarComplete, execEbarComplete]
  simp only [hp, hl, ha, hr, passDue_of_no_tensors hw, widenPass_of_no_tensors hw, Bool.not_false, Bool.and_self, if_true, modHearth_parts, hk, hnone, Option.isSome_none, Bool.false_eq_true, if_false]
  cases lowestOver k.overs <;> rfl

/-- Settles O36: the cores' new epoch first, then the four ways in which the task goes on. -/
theorem epochBarrierAdvancesTheEpoch : Obligations.EpochBarrierAdvancesTheEpoch := by
  intro s h p k ends hp hk hl ha hr hw hnone hend hends
  have hexec := ebarComplete_acts hp hk hl ha hr hw hnone
  obtain ⟨u, hu⟩ : ∃ u, u = s.modHearth p fun x => { x with widenPass := false } := ⟨_, rfl⟩
  have hucore : ∀ g, u.core g = s.core g := by rw [hu]; exact fun _ => rfl
  have hupart : u.participants p 2 p = s.participants p 2 p := by rw [hu]; rfl
  have hutask : u.parts[p].task = some k := by rw [hu]; exact hk
  have hurest : u.mem = s.mem ∧ u.tokens = s.tokens ∧ u.now = s.now ∧ u.fab = s.fab ∧ u.cores = s.cores := by rw [hu]; exact ⟨rfl, rfl, rfl, rfl, rfl⟩
  have huend : ∀ g ∈ u.participants p 2 p, (u.core g).pastEnd = false := by
    rw [hupart]
    exact fun g hg => (congrArg Core.pastEnd (hucore g)).trans (hend g hg)
  have hstay : ∀ g, g ∈ (u.pastEpoch p).members p ↔ g ∈ s.participants p 2 p ∧ ends g = false := by
    intro g
    rw [mem_pastEpoch, hupart, hucore, hends g, decide_eq_false_iff_not]
  have hin : ∀ g, g ∈ s.participants p 2 p ↔ g ∈ u.participants p 2 p := fun g => by rw [hupart]
  have hmembers : ∀ g, g ∈ s.participants p 2 p ↔ g ∈ s.members p := fun g => by simp [State.participants]
  rw [← hu] at hexec
  obtain ⟨hmem, htok, hnow, hfab, hcores⟩ := hurest
  refine ⟨fun hov => ?_, fun hov => ?_⟩
  · rw [hov] at hexec
    obtain ⟨hm, htk, hn, hf⟩ := leaveEbar_frame k huend
    obtain ⟨k', hk', hord, hcancel, hempty, hgo⟩ := leaveEbar_task huend hutask hnone
    refine ⟨_, k', hexec, hk', hm.trans hmem, htk.trans htok, hn.trans hnow, hf.trans hfab, fun g hg => ?_, fun g hg => ?_, ?_, hcancel, fun hc hall => ?_, fun hc hex => ?_⟩
    · rw [lowestOver, Option.elim_none, leaveEbar_core k huend, if_neg (fun hs => hg ((hstay g).1 hs.2.2).1), pastEpoch_core_other fun h0 => hg ((hin g).2 h0), hucore]
    · have hcore : (u.leaveEbar p k).core g = if k.cancel = false ∧ k.suspends = true ∧ ends g = false then { (s.core g).leaveEpoch with mode := .suspended } else (s.core g).leaveEpoch := by
        rw [leaveEbar_core k huend, pastEpoch_core ((hin g).1 hg), hucore]
        exact if_congr (and_congr_right fun _ => and_congr_right fun _ => by simp [hstay, hg]) rfl rfl
      obtain ⟨hepoch, -, hspad, hs, hv, hslots, -⟩ := leaveEpoch_rest (s.core g)
      rw [lowestOver, Option.elim_none, hcore]
      cases he : ends g with
      | true =>
        obtain ⟨harr, hmode, hmember⟩ := leaveEpoch_ends (of_decide_eq_true ((hends g).symm.trans he))
        rw [if_neg (by simp)]
        exact ⟨hepoch, harr, by simpa using hmember, leaveEpoch_tok _, hspad, hs, hv, hslots, fun _ => hmode, fun h0 => by simp at h0, fun h0 => by simp at h0⟩
      | false =>
        obtain ⟨harr, hmode, hmember⟩ := leaveEpoch_stays (of_decide_eq_false ((hends g).symm.trans he))
        split
        next hsus => exact ⟨hepoch, harr, by simpa using hmember, leaveEpoch_tok _, hspad, hs, hv, hslots, fun h0 => by simp at h0, fun _ _ _ => rfl, fun _ _ h0 => by simp [hsus] at h0⟩
        next hsus => exact ⟨hepoch, harr, by simpa using hmember, leaveEpoch_tok _, hspad, hs, hv, hslots, fun h0 => by simp at h0, fun _ hc hs => absurd ⟨hc, hs, rfl⟩ hsus, fun _ _ _ hb => hmode.trans (if_pos hb)⟩
    · rw [hord, satAdd, BitVec.toNat_ofNat]
      have := k.ordinal.isLt
      omega
    · refine hempty hc (List.eq_nil_iff_forall_not_mem.2 fun g hg => ?_)
      obtain ⟨hpart, hstays⟩ := (hstay g).1 hg
      exact absurd (hall g ((hmembers g).1 hpart)) (by simp [hstays])
    · obtain ⟨g, hg, hstays⟩ := hex
      exact hgo hc (List.ne_nil_of_mem ((hstay g).2 ⟨(hmembers g).2 hg, hstays⟩))
  · obtain ⟨x, hx⟩ := lowestOver_some hov
    rw [hx] at hexec
    exact ⟨_, _, hexec, endTask_decides _ hutask, by simp [hnone]; rfl, hcores, hmem⟩

end Sys2Proof.Machine
end

section
/-! PROOFS. Token counts arrive and waits end; claims are granted and answered, and bitmaps are cleared. -/

namespace Sys2Proof.Machine

variable {s : State} {g : Fin 512} {p h : Fin 8} {k : Task} {c : Core}

/-! Tokens (R96 to R101) -/

theorem partHeld_task (hp : s.partHeld (s.partOfCore g) = true) : ∃ p k, s.taskOf g = some (p, k) := by
  unfold State.partHeld at hp
  split at hp
  next => exact absurd hp Bool.false_ne_true
  next p hpart =>
    split at hp
    next k hk => exact ⟨p, k, by rw [State.taskOf, hpart, Option.bind_some, hk]; rfl⟩
    next => exact absurd hp Bool.false_ne_true

theorem tryWait_none (h : c.wait = none) : c.tryWait = c := by
  rw [Core.tryWait, h]

theorem tryWait_some {w : PendingWait} (hw : c.wait = some w) :
    c.tryWait = if w.cnt.toNat ≤ ((c.tok[w.tok]).current c.epoch).toNat then
      { c with wait := none, mode := if c.mode = .wait then .run else c.mode, tok := c.tok.set w.tok ((c.tok[w.tok]).put c.epoch ((c.tok[w.tok]).current c.epoch - w.cnt.setWidth 16)) }
      else c := by
  rw [Core.tryWait, hw]

theorem tryWait_pastEnd (c : Core) : c.tryWait.pastEnd = c.pastEnd := by
  cases hw : c.wait with
  | none => rw [tryWait_none hw]
  | some w =>
    rw [tryWait_some hw, apply_ite Core.pastEnd, ite_self]

/-- R98: an epoch counter's distance to a sender's, told apart. -/
theorem epoch_near_iff (a b : BitVec 16) : (a = b ∨ a = b + 1) ↔ ¬(a - b ≠ 0 ∧ a - b ≠ 1) := by
  have h0 : a = b ↔ a - b = 0 := by bv_omega
  have h1 : a = b + 1 ↔ a - b = 1 := by bv_omega
  rw [h0, h1]
  tauto

theorem tokenAdd_refused {t : Fin 64} {n : Nat} {e : BitVec 16} (h : (e ≠ (s.core g).epoch ∧ e ≠ (s.core g).epoch + 1) ∨ 65535 < (((s.core g).tok[t]).current e).toNat + n) :
    s.tokenAdd g t n e = s.coreFault g stToken (s.core g).pc := by
  have hsum : (s.core g).epoch + (e - (s.core g).epoch) = e := by bv_omega
  have hfar := not_iff_not.2 (epoch_near_iff e (s.core g).epoch)
  rw [not_not, not_or] at hfar
  rw [hfar] at h
  rw [State.tokenAdd]
  simp only [hsum]
  exact if_pos h

theorem tokenAdd_taken {t : Fin 64} {n : Nat} {e : BitVec 16} (he : e = (s.core g).epoch ∨ e = (s.core g).epoch + 1) (hn : (((s.core g).tok[t]).current e).toNat + n ≤ 65535) :
    s.tokenAdd g t n e = (s.setCore g (Core.tryWait { s.core g with tok := (s.core g).tok.set t (((s.core g).tok[t]).put e (BitVec.ofNat 16 ((((s.core g).tok[t]).current e).toNat + n))) })).fetchPast g := by
  have hsum : (s.core g).epoch + (e - (s.core g).epoch) = e := by bv_omega
  rw [State.tokenAdd]
  simp only [hsum]
  exact if_neg (not_or.2 ⟨(epoch_near_iff e (s.core g).epoch).1 he, not_lt.2 hn⟩)

theorem tokenSignalArrive_dropped {n : Nat} {m : TokMsg} (hm : s.tokens[n]? = some m) (hh : s.partHeld (s.partOfCore m.src) = false) :
    exec (.tokenSignalArrive n) s = .next { s with tokens := s.tokens.eraseIdx n } := by
  rw [exec_tokenSignalArrive, execTokenSignalArrive]
  simp only [hm, hh, Bool.not_false, if_true]

theorem tokenSignalArrive_waits {n : Nat} {m : TokMsg} (hm : s.tokens[n]? = some m) (hh : s.partHeld (s.partOfCore m.src) = true) (hf : s.tokenFree n m = false) :
    exec (.tokenSignalArrive n) s = .next s := by
  rw [exec_tokenSignalArrive, execTokenSignalArrive]
  simp only [hm, hh, hf, Bool.not_false, Bool.not_true, Bool.false_eq_true, if_true, if_false]

theorem tokenSignalArrive_goes {n : Nat} {m : TokMsg} (hm : s.tokens[n]? = some m) (hh : s.partHeld (s.partOfCore m.src) = true) (hf : s.tokenFree n m = true) :
    exec (.tokenSignalArrive n) s = .next (State.tokenGo { s with tokens := s.tokens.eraseIdx n } m) := by
  rw [exec_tokenSignalArrive, execTokenSignalArrive]
  simp only [hm, hh, hf, Bool.not_true, Bool.false_eq_true, if_false]

theorem fetchPast_beyond (hpast : (s.core g).pastEnd = true) (hrun : (s.core g).mode = .run) : s.fetchPast g = s.coreFault g stIllegal (s.lastBundle g) := by
  simp [State.fetchPast, hpast, hrun]

theorem waitTimeout_ends {w : PendingWait} (hw : (s.core g).wait = some w) (hl : s.live g = true) :
    exec (.waitTimeout g) s = .next ((s.reach (w.since + w.limitUs * 2500)).coreFault g stWaitTimeout w.bundle) := by
  rw [exec_waitTimeout, execWaitTimeout]
  simp only [hw, hl, if_true]
  rfl

/-- Settles O37: the count's way to its cell, the WAIT tested after it, and the limit of a WAIT. -/
theorem tokenCountsArriveAndWaitsEnd : Obligations.TokenCountsArriveAndWaitsEnd := by
  refine ⟨fun s n m g u c old x hm hg hu hc hold hx => ⟨fun hh => ?_, tokenSignalArrive_waits hm, fun hh hf => ?_⟩, fun s g c w x hc hw hx => ⟨?_, ?_, fun hl => ?_⟩⟩
  · rw [hu]
    exact tokenSignalArrive_dropped hm hh
  · have hexec := tokenSignalArrive_goes hm hh hf
    rw [← hu] at hexec
    have hucore : u.core g = c := by rw [hu, hc]; rfl
    have hupart : ∀ j, u.partOfCore j = s.partOfCore j := by rw [hu]; exact fun _ => rfl
    have hcur : x = (((u.core g).tok[m.tok]).current m.epoch).toNat + m.cnt.toNat := by
      rw [hx, hold, hucore]
      rfl
    refine ⟨fun hmod hpart => ?_, fun hmod hpart => ?_, fun y hmod => ?_⟩
    · rw [hexec, State.tokenGo, hmod]
      simp only [← hg, hupart, if_neg hpart]
    · have hgo : exec (.tokenSignalArrive n) s = .next (u.tokenAdd g m.tok m.cnt.toNat m.epoch) := by
        rw [hexec, State.tokenGo, hmod]
        simp only [← hg, hupart, if_pos hpart]
      obtain ⟨q, t, ht⟩ : ∃ q t, u.taskOf g = some (q, t) := by
        obtain ⟨q, t, ht⟩ := partHeld_task hh
        refine ⟨q, t, ?_⟩
        rw [hu, ← ht]
        show (s.partOfCore g).bind _ = (s.partOfCore m.src).bind _
        rw [hpart]
      refine ⟨fun hepoch hle k hk => ?_, fun hbad => ?_⟩
      · have hadd : u.tokenAdd g m.tok m.cnt.toNat m.epoch = (u.setCore g k.tryWait).fetchPast g := by
          rw [tokenAdd_taken (hucore ▸ hepoch) (hcur ▸ hle), ← hcur, hucore, hk, hold]
          rfl
        have hkpast : k.tryWait.pastEnd = c.pastEnd := by
          rw [tryWait_pastEnd, hk]
        have hkwait : k.wait = c.wait := by rw [hk]
        refine ⟨fun hin => ?_, fun hnone => tryWait_none (hkwait.trans hnone), fun hout hrun => ?_⟩
        · rw [hgo, hadd, fetchPast_within]
          rw [setCore_core, hkpast, hin]
        · refine ⟨_, hgo, ?_⟩
          rw [hadd, fetchPast_beyond (by rw [setCore_core, hkpast, hout]) (by rw [setCore_core, hrun]), setCore_lastBundle]
          have hlast : u.lastBundle g = s.lastBundle g := by rw [hu]; rfl
          rw [hlast]
          exact coreFault_endsAt (s := u.setCore g k.tryWait) ht _ _ _ _
      · refine ⟨_, hgo, ?_⟩
        rw [tokenAdd_refused (by rw [← hcur, hucore]; exact hbad), hucore]
        exact coreFault_endsAt ht _ _ _ _
    · rw [hexec, State.tokenGo, hmod]
  · intro hle
    rw [hx] at hle ⊢
    exact (tryWait_some hw).trans (if_pos hle)
  · intro hlt
    rw [hx] at hlt
    exact (tryWait_some hw).trans (if_neg (Nat.not_le.2 hlt))
  · obtain ⟨q, t, ht, -⟩ := live_task hl
    obtain ⟨thr, hthr⟩ := reach_taskOf (w.since + w.limitUs * 2500) ht
    refine ⟨_, waitTimeout_ends (hc ▸ hw) hl, coreFault_endsAt hthr _ _ _ _, ?_⟩
    rw [coreFault_now, reach_now]

/-! The claim bitmap (R107, R116) -/

theorem readByte_setBmapBit {m : Mem} {a i : Nat} (hm : m.Wf) (ha : a + i / 8 < hbmTop) (x : Nat) :
    readByte (setBmapBit m a i).hbm x = if x = a + i / 8 then readByte m.hbm (a + i / 8) ||| (1 <<< (i % 8)) else readByte m.hbm x := by
  rw [setBmapBit, mem_write_hbm _ ha]
  split
  next hx => rw [hx]; exact readByte_writeByte_same hm.1
  next hx => exact readByte_writeByte_other hm.1 hx

theorem bmapBit_setBmapBit {m : Mem} {a i : Nat} (hm : m.Wf) (ha : a + i / 8 < hbmTop) (j : Nat) : bmapBit (setBmapBit m a i) a j = (bmapBit m a j || decide (j = i)) := by
  rw [bmapBit, readByte_setBmapBit hm ha, bmapBit]
  have hlt : j % 8 < 8 := Nat.mod_lt _ (by omega)
  split
  next hx =>
    have hdiv : j / 8 = i / 8 := by omega
    have hbit : ((1 <<< (i % 8) : Nat) : Byte).getLsbD (j % 8) = decide (j = i) := by
      have hmod : i % 8 = j % 8 ↔ j = i := by omega
      rw [BitVec.natCast_eq_ofNat, BitVec.getLsbD_ofNat, Nat.one_shiftLeft, Nat.testBit_two_pow, decide_eq_true hlt, Bool.true_and]
      exact decide_eq_decide.2 hmod
    rw [BitVec.getLsbD_or, hbit, hdiv]
  next hx =>
    have hji : j ≠ i := fun h => hx (by rw [h])
    simp [hji]

/-- A bitmap with `n` bits set from bit `v` on. -/
def setBmapBits (m : Mem) (a v n : Nat) : Mem := (List.range n).foldl (fun m i => setBmapBit m a (v + i)) m

theorem setBmapBits_succ (m : Mem) (a v n : Nat) : setBmapBits m a v (n + 1) = setBmapBit (setBmapBits m a v n) a (v + n) := by
  rw [setBmapBits, List.range_succ, List.foldl_append]
  rfl

theorem setBmapBits_mem_wf {m : Mem} (hm : m.Wf) (a v n : Nat) : (setBmapBits m a v n).Wf := setBmapBits_wf a v _ hm

theorem bmapBit_setBmapBits {m : Mem} {a v : Nat} (hm : m.Wf) (j : Nat) : ∀ {n : Nat}, (∀ i, i < n → a + (v + i) / 8 < hbmTop) →
    bmapBit (setBmapBits m a v n) a j = (bmapBit m a j || (decide (v ≤ j) && decide (j < v + n)))
  | 0, _ => by
    rw [← Bool.decide_and, decide_eq_false (by omega), Bool.or_false]
    rfl
  | n + 1, ha => by
    rw [setBmapBits_succ, bmapBit_setBmapBit (setBmapBits_mem_wf hm a v n) (ha n (by omega)), bmapBit_setBmapBits hm j fun i hi => ha i (by omega), Bool.or_assoc,
      ← Bool.decide_and, ← Bool.decide_or, ← Bool.decide_and]
    congr 1
    exact decide_eq_decide.2 (by omega)

theorem readByte_setBmapBits_below {m : Mem} {a v x : Nat} (hm : m.Wf) (hx : x < a) : ∀ {n : Nat}, (∀ i, i < n → a + (v + i) / 8 < hbmTop) →
    readByte (setBmapBits m a v n).hbm x = readByte m.hbm x
  | 0, _ => rfl
  | n + 1, ha => by
    rw [setBmapBits_succ, readByte_setBmapBit (setBmapBits_mem_wf hm a v n) (ha n (by omega)), if_neg (by omega)]
    exact readByte_setBmapBits_below hm hx fun i hi => ha i (by omega)

theorem partSize_le (s : State) (p : Fin 8) : s.partSize p ≤ 8 - p.val := by
  rcases partSize_cases s p with ⟨q, -, hq⟩ | ⟨-, hq⟩
  · rw [hq]
    omega
  · exact hq.le

/-- R95: an admitted access that begins near the module's HBM lies in it. -/
theorem admits_hbm {wr : Bool} {a n : Nat} (hn : n ≠ 0) (ha : a < vaultBase) (hok : s.admits g wr a n = none) : a + n ≤ hbmTop := by
  rw [State.admits, if_neg hn, if_pos ha] at hok
  split at hok
  · split at hok
    · exact absurd hok (by simp)
    next q _ =>
      simp only [] at hok
      split at hok
      next hin =>
        have hsize := Nat.mul_le_mul_right (2 ^ 38) (partSize_le s q)
        have hq := q.isLt
        obtain ⟨-, hhi⟩ := hin
        have hsum : q.val * 2 ^ 38 + (8 - q.val) * 2 ^ 38 = 8 * 2 ^ 38 := by omega
        show a + n ≤ 8 * 2 ^ 38
        omega
      next => exact absurd hok (by simp)
  · exact absurd hok (by simp)

/-! Claims (R105 to R107) -/

theorem markBmap_marks {w : WorkCounter} {v n : Nat} (hb : w.bmap < hbmTop) (hok : s.admits g true (w.bmap + v / 8) ((v + n - 1) / 8 - v / 8 + 1) = none) :
    s.markBmap g w v n = if s.mem.lost (w.bmap + v / 8) ((v + n - 1) / 8 - v / 8 + 1) then .error stHbmData
      else if (List.range n).any fun i => bmapBit s.mem w.bmap (v + i) then .error stDoubleClaim else .ok { s with mem := setBmapBits s.mem w.bmap v n } := by
  rw [State.markBmap]
  simp only [if_neg (Nat.not_le.2 hb), hok]
  rfl

/-- What a claim does once its grant stands. -/
def State.grantClaim (s : State) (g : Fin 512) (h : Fin 8) (ctr : Fin 64) (token : BitVec 16) (n : Nat) : State :=
  ((s.takeGrant g h ctr token n).countGrant g n).modCore g fun c => c.modClaim h ctr fun y => { y with executed := true }

theorem countGrant_rest (n : Nat) : s.countGrant g n = { s with parts := (s.countGrant g n).parts } := by
  unfold State.countGrant
  split
  · split <;> rfl
  · rfl

theorem countGrant_counts {n : Nat} (hn : n ≠ 0) (hk : s.taskOf g = some (p, k)) : (s.countGrant g n).parts[p].task = some { k with tdc := satAdd k.tdc 1 } := by
  obtain ⟨-, ht⟩ := taskOf_some hk
  simp only [State.countGrant, hk, if_neg hn, modTask_task_same, ht, Option.map_some]

theorem modWctr_same (ctr : Fin 64) (f : WorkCounter → WorkCounter) : (s.modWctr h ctr f).hearths[h].wctr[ctr] = f s.hearths[h].wctr[ctr] := by
  rw [State.modWctr, modHearth_same]
  exact Vector.getElem_set_self _

theorem modWctr_ne {ctr i : Fin 64} {j : Fin 8} (f : WorkCounter → WorkCounter) (hji : (j, i) ≠ (h, ctr)) : (s.modWctr h ctr f).hearths[j].wctr[i] = s.hearths[j].wctr[i] := by
  rw [State.modWctr]
  by_cases hj : j = h
  · subst hj
    rw [modHearth_same]
    exact Vector.getElem_set_ne ctr.isLt i.isLt fun hi => hji (by rw [Fin.ext hi])
  · rw [modHearth_ne hj]

theorem grantClaim_hearths (ctr : Fin 64) (token : BitVec 16) (n : Nat) : (s.grantClaim g h ctr token n).hearths = (s.takeGrant g h ctr token n).hearths := by
  rw [State.grantClaim, modCore_hearths, countGrant_rest]

theorem grantClaim_mem (ctr : Fin 64) (token : BitVec 16) (n : Nat) : (s.grantClaim g h ctr token n).mem = s.mem := by
  rw [State.grantClaim, modCore_mem, countGrant_rest]
  rfl

theorem grantClaim_tokens (ctr : Fin 64) (token : BitVec 16) (n : Nat) : (s.grantClaim g h ctr token n).tokens = s.tokens := by
  rw [State.grantClaim, modCore_tokens, countGrant_rest]
  rfl

theorem grantClaim_cores (ctr : Fin 64) (token : BitVec 16) (n : Nat) : (s.grantClaim g h ctr token n).cores = (s.modCore g fun c => c.modClaim h ctr fun y => { y with executed := true }).cores := by
  have hcores : ((s.takeGrant g h ctr token n).countGrant g n).cores = s.cores := by
    rw [countGrant_rest]
    rfl
  rw [State.grantClaim, State.modCore, State.modCore, State.setCore, State.setCore, State.core, hcores]
  rfl

theorem grantClaim_counts {ctr : Fin 64} {token : BitVec 16} {n : Nat} (hn : n ≠ 0) (hk : s.taskOf g = some (p, k)) :
    (s.grantClaim g h ctr token n).parts[p].task = some { k with tdc := satAdd k.tdc 1 } :=
  countGrant_counts (s := s.takeGrant g h ctr token n) hn hk

/-- R105: a grant made where only memory may have moved takes the claim. -/
theorem grantClaim_taken {u : State} (hh : u.hearths = s.hearths) (hc : u.cores = s.cores) (ht : u.tokens = s.tokens) (hp : ∀ g, u.taskOf g = s.taskOf g) (ctr : Fin 64) (x : Claim) (n : Nat) :
    ClaimTaken s (u.grantClaim g h ctr x.token n) g h ctr x n := by
  have hcore : ∀ j, (u.grantClaim g h ctr x.token n).core j = (s.modCore g fun c => c.modClaim h ctr fun y => { y with executed := true }).core j := by
    intro j
    rw [State.core, State.core, grantClaim_cores, State.modCore, State.modCore, State.setCore, State.setCore, State.core, State.core, hc]
  have htaken := modWctr_same (s := u) (h := h) ctr fun y =>
    { y with value := y.value + BitVec.ofNat 32 n, log := (y.log.filter fun e => decide (e.1 ≠ g)) ++ [(g, x.token, y.value, BitVec.ofNat 32 n)] }
  rw [hh] at htaken
  unfold ClaimTaken
  rw [grantClaim_hearths, State.takeGrant, htaken]
  refine ⟨rfl, List.mem_append_right _ List.mem_cons_self, fun j i hji => ?_, fun j hj => ?_, ?_, (grantClaim_tokens _ _ _).trans ht, fun hn p k hk => ?_⟩
  · rw [modWctr_ne _ hji, hh]
  · rw [hcore, modCore_core_ne hj]
  · rw [hcore, modCore_core_same]
  · rw [grantClaim_counts hn ((hp g).trans hk), Option.map_some, satAdd, BitVec.toNat_ofNat]
    have := k.tdc.isLt
    congr 1
    omega

theorem wclaimExecute_grants {ctr : Fin 64} {x : Claim} {w : WorkCounter} {n : Nat} (ha : s.acts g = true) (hw : w = s.hearths[h].wctr[ctr]) (hcl : w.clearing = false)
    (hx : (s.core g).claims.find? (fun y => decide (y.h = h) && decide (y.ctr = ctr) && !y.executed) = some x) (hn : n = w.grant x.inc) {r : Except Status State}
    (hr : (if w.bmapEn && decide (n ≠ 0) then s.markBmap g w w.value.toNat n else .ok s) = r) :
    (∀ u, r = .ok u → exec (.wclaimExecute g h ctr) s = .next (u.grantClaim g h ctr x.token n)) ∧ (∀ st, r = .error st → exec (.wclaimExecute g h ctr) s = .next (s.coreFault g st x.bundle)) := by
  have hexec : exec (.wclaimExecute g h ctr) s = execWclaimExecute g h ctr s := rfl
  rw [hexec, execWclaimExecute]
  simp only [hx, ← hw, hcl, ha, Bool.not_true, Bool.or_self, Bool.false_eq_true, if_false, ← hn, hr]
  exact ⟨fun u hu => by rw [hu]; rfl, fun st hst => by rw [hst]⟩

/-- Settles O38: the bitmap's answer first, then the grant, its count and the claim taken. -/
theorem claimsAreGranted : Obligations.ClaimsAreGranted := by
  intro s g h ctr x w n hwf hacts hw hcl hx hn
  obtain ⟨q, k, hk, -⟩ := live_task (acts_live hacts)
  have hgrant := wclaimExecute_grants (n := n) hacts hw hcl hx hn rfl
  refine ⟨fun hno => ?_, fun hen hn0 hb hok => ⟨fun hlost => ?_, fun hlost => ⟨fun hclear => ?_, fun ⟨i, hi, hset⟩ => ?_⟩⟩⟩
  · have hskip : ¬(w.bmapEn && decide (n ≠ 0)) = true := by
      rcases hno with h0 | h0 <;> simp [h0]
    rw [if_neg hskip] at hgrant
    exact ⟨_, hgrant.1 s rfl, grantClaim_taken rfl rfl rfl (fun _ => rfl) ctr x n, grantClaim_mem _ _ _⟩
  all_goals
    rw [if_pos (Bool.and_eq_true_iff.2 ⟨hen, decide_eq_true hn0⟩), markBmap_marks hb hok] at hgrant
  · rw [if_pos hlost] at hgrant
    exact ⟨_, hgrant.2 _ rfl, coreFault_endsAt hk _ _ _ _⟩
  · have hnone : ((List.range n).any fun i => bmapBit s.mem w.bmap (w.value.toNat + i)) = false := by
      rw [List.any_eq_false]
      intro i hi
      exact Bool.eq_false_iff.1 (hclear i (List.mem_range.1 hi))
    rw [if_neg (Bool.eq_false_iff.1 hlost), if_neg (Bool.eq_false_iff.1 hnone)] at hgrant
    have hspan := admits_hbm (by omega) (by have := w.value.isLt; simp only [hbmTop, vaultBase] at hb ⊢; omega) hok
    have hin : ∀ i, i < n → w.bmap + (w.value.toNat + i) / 8 < hbmTop := by
      intro i hi
      omega
    refine ⟨_, hgrant.1 _ rfl, grantClaim_taken rfl rfl rfl (fun _ => rfl) ctr x n, fun i => ?_, fun a ha => ?_⟩
    · rw [grantClaim_mem]
      exact bmapBit_setBmapBits hwf.1 i hin
    · rw [grantClaim_mem]
      exact readByte_setBmapBits_below hwf.1 ha hin
  · have hany : ((List.range n).any fun i => bmapBit s.mem w.bmap (w.value.toNat + i)) = true :=
      List.any_eq_true.2 ⟨i, List.mem_range.2 hi, hset⟩
    rw [if_neg (Bool.eq_false_iff.1 hlost), if_pos hany] at hgrant
    exact ⟨_, hgrant.2 _ rfl, coreFault_endsAt hk _ _ _ _⟩

/-! The answers of claims (R105, R106) -/

/-- The writes with which a claim returns, and the claim ended. -/
def Core.claimReturned (c : Core) (h : Fin 8) (ctr : Fin 64) (x : Claim) (v n : W32) : Core :=
  { ((wS x.rd (v.setWidth 64)) ++ wP x.pd (predAll (decide (n ≠ 0)))).foldl Core.applyWrite c with claims := c.claims.filter fun y => !(decide (y.h = h) && decide (y.ctr = ctr)) }

theorem claimReturned_eq (ctr : Fin 64) (x : Claim) (v n : W32) : c.claimReturned h ctr x v n =
    { (c.applyWrite ⟨.s x.rd, .s (v.setWidth 64), 0⟩).applyWrite ⟨.p x.pd, .p (predAll (decide (n ≠ 0))), 0⟩ with claims := c.claims.filter fun y => !(decide (y.h = h) && decide (y.ctr = ctr)) } := rfl

theorem claimReturned_getS (ctr : Fin 64) (x : Claim) (v n : W32) (r : Fin 32) : (c.claimReturned h ctr x v n).getS r = if r = x.rd then (if x.rd = 0 then 0 else v.setWidth 64) else c.getS r := by
  have hwrites : (c.claimReturned h ctr x v n).getS r = ((c.applyWrite ⟨.s x.rd, .s (v.setWidth 64), 0⟩).applyWrite ⟨.p x.pd, .p (predAll (decide (n ≠ 0))), 0⟩).getS r := rfl
  rw [hwrites]
  rw [applyWrite_getS_other _ (by simp)]
  split
  next hr => rw [hr, applyWrite_getS_same]
  next hr => rw [applyWrite_getS_other _ (by simpa using Ne.symm hr)]

theorem claimReturned_getP (ctr : Fin 64) (x : Claim) (v n : W32) (r : Fin 8) :
    (c.claimReturned h ctr x v n).getP r = if r = x.pd then (if x.pd = 0 ∨ n ≠ 0 then BitVec.allOnes 256 else 0) else c.getP r := by
  have hwrites : (c.claimReturned h ctr x v n).getP r = ((c.applyWrite ⟨.s x.rd, .s (v.setWidth 64), 0⟩).applyWrite ⟨.p x.pd, .p (predAll (decide (n ≠ 0))), 0⟩).getP r := rfl
  rw [hwrites]
  split
  next hr =>
    rw [hr, applyWrite_getP_same, predAll]
    by_cases h0 : x.pd = 0 <;> by_cases hn : n = 0 <;> simp [h0, hn]
  next hr => rw [applyWrite_getP_other _ (by simpa using Ne.symm hr), applyWrite_getP_other _ (by simp)]

theorem claimReturned_rest (ctr : Fin 64) (x : Claim) (v n : W32) : { c.claimReturned h ctr x v n with s := c.s, p := c.p, claims := c.claims } = c := by
  rw [claimReturned_eq]
  simp only [Core.applyWrite]
  split <;> split <;> rfl

theorem wclaimResponse_returns {ctr : Fin 64} {x : Claim} {v n : W32} (ha : s.acts g = true)
    (hx : (s.core g).claims.find? (fun y => decide (y.h = h) && decide (y.ctr = ctr) && y.executed) = some x)
    (he : s.hearths[h].wctr[ctr].log.find? (fun e => decide (e.1 = g) && decide (e.2.1 = x.token)) = some (g, x.token, v, n)) :
    exec (.wclaimResponse g h ctr true) s = .next (s.setCore g ((s.core g).claimReturned h ctr x v n)) := by
  have hexec : exec (.wclaimResponse g h ctr true) s = execWclaimResponse g h ctr true s := rfl
  rw [hexec, execWclaimResponse]
  simp only [hx, ha, Bool.not_true, Bool.false_eq_true, if_false, if_true, he]
  rfl

theorem wclaimResponse_fails {ctr : Fin 64} {x : Claim} (ha : s.acts g = true)
    (hx : (s.core g).claims.find? (fun y => decide (y.h = h) && decide (y.ctr = ctr) && y.executed) = some x) :
    exec (.wclaimResponse g h ctr false) s = .next (if x.failures = 3 then s.coreFault g stParity x.bundle
      else s.setCore g ((s.core g).modClaim h ctr fun y => { y with failures := y.failures + 1 })) := by
  have hexec : exec (.wclaimResponse g h ctr false) s = execWclaimResponse g h ctr false s := rfl
  rw [hexec, execWclaimResponse]
  simp only [hx, ha, Bool.not_true, Bool.false_eq_true, if_false]
  rfl

/-! Clearing the bitmap (R116) -/

theorem readByte_clearBmap {m : Mem} (hm : m.Wf) (a n x : Nat) : readByte (clearBmap m a n).hbm x =
    if a ≤ x ∧ x < a + n / 8 then 0 else if x = a + n / 8 then readByte m.hbm x &&& ~~~BitVec.ofNat 8 (2 ^ (n % 8) - 1) else readByte m.hbm x := by
  have hwf := clearRange_wf (lo := a) (hi := a + n / 8) hm.1
  show readByte (writeByte (clearRange m.hbm a (a + n / 8)) (a + n / 8) _) x = _
  by_cases hx : x = a + n / 8
  · rw [if_neg (by omega), if_pos hx, hx, readByte_writeByte_same hwf, readByte_clearRange _ _ _ hm.1, if_neg (by omega)]
  · rw [readByte_writeByte_other hwf hx, readByte_clearRange _ _ _ hm.1, if_neg hx]

theorem getLsbD_below_mask (j k : Nat) (hj : j < 8) : (~~~BitVec.ofNat 8 (2 ^ k - 1)).getLsbD j = decide (k ≤ j) := by
  rw [BitVec.getLsbD_not, BitVec.getLsbD_ofNat, Nat.testBit_two_pow_sub_one, decide_eq_true hj, Bool.true_and, Bool.true_and, ← decide_not]
  exact decide_eq_decide.2 Nat.not_lt

theorem bmapBit_clearBmap {m : Mem} (hm : m.Wf) (a n i : Nat) : bmapBit (clearBmap m a n) a i = (bmapBit m a i && decide (n ≤ i)) := by
  rw [bmapBit, readByte_clearBmap hm, bmapBit]
  by_cases hlow : i / 8 < n / 8
  · rw [if_pos (by omega), decide_eq_false (by omega : ¬n ≤ i)]
    simp
  · rw [if_neg (by omega)]
    by_cases heq : i / 8 = n / 8
    · rw [if_pos (by omega), BitVec.getLsbD_and, getLsbD_below_mask _ _ (Nat.mod_lt _ (by omega))]
      congr 1
      exact decide_eq_decide.2 (by omega)
    · rw [if_neg (by omega), decide_eq_true (by omega : n ≤ i), Bool.and_true]

theorem bmapClr_writes {ctr : Fin 64} {v : BitVec 32} (hd : s.larcy.d3hot = false) (hp : s.glb.hrtPresent.getLsbD h.val = true) :
    exec (.bmapClr h ctr v) s = .next (s.modWctr h ctr fun w => { w with bmapEn := v.getLsbD 0, clearing := w.clearing || v.getLsbD 1 }) := by
  have hexec : exec (.bmapClr h ctr v) s = execBmapClr h ctr v s := rfl
  rw [hexec, execBmapClr, State.barWrite, hd, if_neg Bool.false_ne_true, State.writeWctrCtl, if_pos hp]

theorem bmapClr_absent {ctr : Fin 64} {v : BitVec 32} (hp : s.glb.hrtPresent.getLsbD h.val = false) : exec (.bmapClr h ctr v) s = .next s := by
  have hexec : exec (.bmapClr h ctr v) s = execBmapClr h ctr v s := rfl
  rw [hexec, execBmapClr, State.barWrite, State.writeWctrCtl, hp, if_neg Bool.false_ne_true, ite_self]

theorem bmapClearDone_clears {ctr : Fin 64} {w : WorkCounter} (hw : w = s.hearths[h].wctr[ctr]) (hc : w.clearing = true) (hb : w.bmap < hbmTop) :
    exec (.bmapClearDone h ctr) s = .next { s.modWctr h ctr fun w => { w with clearing := false } with mem := clearBmap s.mem w.bmap w.limit.toNat } := by
  have hexec : exec (.bmapClearDone h ctr) s = execBmapClearDone h ctr s := rfl
  rw [hexec, execBmapClearDone]
  simp only [← hw, hc, if_true, hb]
  rfl

theorem bmapClearDone_idle {ctr : Fin 64} (hc : s.hearths[h].wctr[ctr].clearing = false) : exec (.bmapClearDone h ctr) s = .next s := by
  have hexec : exec (.bmapClearDone h ctr) s = execBmapClearDone h ctr s := rfl
  rw [hexec, execBmapClearDone]
  simp only [hc, Bool.false_eq_true, if_false]

/-- Settles O39: the two writes of an answer, its failures counted, and the bitmap's bits below LIMIT cleared. -/
theorem claimsReturnAndBitmapsClear : Obligations.ClaimsReturnAndBitmapsClear := by
  refine ⟨fun s g h ctr x v n c hc ha hx he => ⟨?_, fun hf => ?_, fun hf => ?_⟩, fun s h ctr v w hwf hw => ⟨fun hd hp => ?_, bmapClr_absent, fun hcl hb => ?_, fun hcl => ?_⟩⟩
  · subst hc
    refine ⟨_, wclaimResponse_returns ha hx he, ?_⟩
    rw [setCore_core]
    refine ⟨rfl, (claimReturned_getS ..).trans (if_pos rfl), (claimReturned_getP ..).trans (if_pos rfl), rfl, fun r hr => (claimReturned_getS ..).trans (if_neg hr),
      fun r hr => (claimReturned_getP ..).trans (if_neg hr), claimReturned_rest ..⟩
  · subst hc
    rw [wclaimResponse_fails ha hx, if_neg hf]
  · subst hc
    obtain ⟨q, k, hk, -⟩ := live_task (acts_live ha)
    refine ⟨_, wclaimResponse_fails ha hx, ?_⟩
    rw [if_pos hf]
    exact coreFault_endsAt hk _ _ _ _
  · rw [bmapClr_writes hd hp, hw]
    rfl
  · refine ⟨_, bmapClearDone_clears hw hcl hb, rfl, ?_, fun j hj => ?_, rfl, fun i => bmapBit_clearBmap hwf.1 _ _ _, fun a ha => ?_⟩
    · rw [hw]
      show (s.modWctr h ctr fun w => { w with clearing := false }).hearths[h].wctr[ctr] = _
      rw [modWctr_same]
    · show (s.modWctr h ctr fun w => { w with clearing := false }).hearths[j] = _
      rw [State.modWctr, modHearth_ne hj]
    · exact (readByte_clearBmap hwf.1 _ _ _).trans ((if_neg (by omega)).trans (if_neg (by omega)))
  · exact bmapClearDone_idle (hw ▸ hcl)

end Sys2Proof.Machine
end

section
/-! PROOFS. The transfer at the head of a DMA queue moves its bytes and completes. -/

namespace Sys2Proof.Machine

variable {s : State} {g : Fin 512} {q : Fin 8} {x : Xfer} {rest : List Xfer}

theorem live_partHeld (hl : s.live g = true) : s.partHeld (s.partOfCore g) = true := by
  obtain ⟨p, k, hk, hover, hrun⟩ := live_task hl
  obtain ⟨hp, ht⟩ := taskOf_some hk
  simp only [State.partHeld, hp, ht, hrun, hover, decide_true, Bool.true_or, Bool.not_false, Bool.and_self]

theorem taskOf_of_parts {t : State} (h : t.parts = s.parts) (g : Fin 512) : t.taskOf g = s.taskOf g := by
  rw [State.taskOf, State.taskOf, partOfCore_of_parts h, h]

/-! Snoop ports and pieces -/

theorem secureAt_eq (s : State) (g : Fin 512) : s.secureAt g = ((s.taskOf g).map fun t => (t.1, t.2.job.secure)).any (·.2) := by
  rw [State.secureAt]
  cases s.taskOf g <;> rfl

theorem snooped_of_parts {t : State} (hp : t.parts = s.parts) (hs : t.snoop = s.snoop) : t.snooped g q = s.snooped g q := by
  rw [State.snooped, State.snooped, State.secureAt, State.secureAt, taskOf_of_parts hp, hs]

theorem writeLoc_rest (l : Loc) (a : Nat) (bs : List Byte) : (s.writeLoc g l a bs).1.parts = s.parts ∧ (s.writeLoc g l a bs).1.snoop = s.snoop := by
  unfold State.writeLoc
  dsimp only
  split <;> exact ⟨rfl, rfl⟩

theorem writePieces_rest (l : Loc) : ∀ (ps : List (Nat × List Byte)) (s : State), (State.writePieces g l ps s).1.parts = s.parts ∧ (State.writePieces g l ps s).1.snoop = s.snoop
  | [], _ => ⟨rfl, rfl⟩
  | (o, bs) :: r, s => by
    have hwrite := writeLoc_rest (s := s) (g := g) l (l.off.toNat + o) bs
    rw [State.writePieces]
    split
    next u st hu => exact hu ▸ hwrite
    next u hu =>
      obtain ⟨hp, hs⟩ := writePieces_rest l r u
      rw [hu] at hwrite
      exact ⟨hp.trans hwrite.1, hs.trans hwrite.2⟩

theorem putWork_taskOf_map {α : Type} {v : Task → α} (w : Work) (hv : ∀ (k : Task) o n, v { k with overs := o, widened := n } = v k) (g j : Fin 512) :
    ((s.putWork g w).taskOf j).map (fun t => (t.1, v t.2)) = (s.taskOf j).map fun t => (t.1, v t.2) := by
  have hparts : ∀ p, ((s.storeWork g w).storeWiden p w.widen).parts = s.parts := by
    intro p
    unfold State.storeWiden
    split <;> rfl
  unfold State.putWork
  dsimp only
  split
  next => rfl
  next p _ =>
    rw [modTask_taskOf_map _ p (fun k => hv k _ _), taskOf_of_parts (hparts p)]

theorem putWork_taskOf {p : Fin 8} {k : Task} (w : Work) (hk : s.taskOf g = some (p, k)) : ∃ k', (s.putWork g w).taskOf g = some (p, k') := by
  have hmap := putWork_taskOf_map (s := s) (v := fun _ => ()) w (fun _ _ _ => rfl) g g
  rw [hk] at hmap
  obtain ⟨⟨p', k'⟩, ht, hp⟩ := Option.map_eq_some_iff.1 hmap
  have hpart : p' = p := congrArg Prod.fst hp
  exact ⟨k', ht.trans (by rw [hpart])⟩

theorem putWork_snoop (w : Work) : (s.putWork g w).snoop = s.snoop := by
  unfold State.putWork State.storeWiden
  dsimp only
  split
  · rfl
  · rw [modTask_snoop]
    split <;> rfl

theorem putWork_snooped (w : Work) : (s.putWork g w).snooped g q = s.snooped g q := by
  rw [State.snooped, State.snooped, secureAt_eq, secureAt_eq, putWork_snoop, putWork_taskOf_map (v := fun k => k.job.secure) w fun _ _ _ => rfl]

/-! The head starts (R94, R518) -/

theorem cutMoved_whole (m : Moved) : cutMoved none m = m := rfl

theorem widenOver_fits {w : Work} (h : w.widen.length ≤ 16) : s.widenOver g w = none := by
  rw [State.widenOver, List.getElem?_eq_none h, Option.map_none]

theorem widenOver_exceeds {w : Work} (h : 16 < w.widen.length) : ∃ d, s.widenOver g w = some d := by
  rw [State.widenOver, List.getElem?_eq_getElem h, Option.map_some]
  exact ⟨_, rfl⟩

theorem xferFail_ends {st : Status} (h : st ≠ stTier) : s.xferFail g q x st = s.coreFault g st x.bundle q.val := by
  rw [State.xferFail, if_neg fun h0 => h h0.1]

theorem xferFar_of_local (h : x.remote = false ∨ x.module = s.fab.moduleId) : s.xferFar x = false := by
  rcases h with h | h <;> simp [State.xferFar, h]

/-- A queue's head that waits starts by the command of its kind. -/
theorem dmaCommand_starts {cmd : Instr} (hcmd : x.kind = .copy ∧ cmd = .dmaCopy g q none ∨ x.kind = .tile ∧ cmd = .dmaTile g q none ∨ x.kind = .narrow ∧ cmd = .dmaNarrow g q none) :
    exec cmd s = .next (s.startXfer g q x.kind none) := by
  rcases hcmd with ⟨hk, rfl⟩ | ⟨hk, rfl⟩ | ⟨hk, rfl⟩ <;> rw [hk] <;> rfl

theorem startXfer_refused (hl : s.live g = true) (hx : (s.core g).q[q].xfers = x :: rest) (hq : x.phase = .queued) (hok : s.xferCoresOk g x = false) :
    s.startXfer g q x.kind none = s.coreFault g stAddr x.bundle q.val := by
  simp only [State.startXfer, hx, List.head?_cons, hq, live_partHeld hl, hok, ne_eq, not_true_eq_false, Bool.not_true, Bool.not_false, Bool.false_eq_true, or_self, if_false, if_true]

theorem startXfer_moves (hl : s.live g = true) (hx : (s.core g).q[q].xfers = x :: rest) (hq : x.phase = .queued) (hok : s.xferCoresOk g x = true) (hext : x.ext = none)
    (hadm : Admitted g (.dma q) 1 s) : s.startXfer g q x.kind none = s.moveXfer g q x none := by
  simp only [State.startXfer, hx, List.head?_cons, hq, live_partHeld hl, hok, ne_eq, not_true_eq_false, Bool.not_true, Bool.false_eq_true, or_self, if_false]
  simp only [State.walkExt, hext, State.moveReady, hx, List.head?_cons, Xfer.missingPages, List.isEmpty_nil, Bool.not_true, Bool.false_eq_true, if_false, requestStart_admitted hadm]

/-- A transfer to this module that reads without an end of its own at its tier. -/
theorem moveXfer_near (hs : x.store = false) (hr : x.remote = false) (hv : (s.xferBytes g x).2.any voids = false) : s.moveXfer g q x none = s.moveNear g q x (s.xferBytes g x) := by
  simp only [State.moveXfer, hs, cutMoved_whole, ite_self, hv, xferFar_of_local (.inl hr), Bool.false_eq_true, if_false]

theorem moveXfer_void {ps : List (Nat × List Byte)} {st : Status} (hs : x.store = false) (hb : s.xferBytes g x = (ps, some st)) (hv : voids st = true) :
    s.moveXfer g q x none = s.xferFail g q x st := by
  simp only [State.moveXfer, hs, cutMoved_whole, ite_self, hb, Option.any_some, hv, Bool.false_eq_true, if_false, if_true, Option.getD_some]

theorem moveNear_outside {m : Moved} (h : s.destOk g x = false) : s.moveNear g q x m = s.coreFault g stAddr x.bundle q.val := by
  rw [State.moveNear, h, xferFail_ends (by decide)]
  rfl

theorem moveNear_writes {ps : List (Nat × List Byte)} {e : Option Status} {u : State} (hd : s.destOk g x = true) (hw : State.writePieces g x.dst ps s = (u, none)) (hn : s.snooped g q = false) :
    s.moveNear g q x (ps, e) = match e with
      | some st => u.xferFail g q x st
      | none => u.modXfer g q fun y => { y with phase := .moved, image := none } := by
  obtain ⟨hp, hs⟩ := writePieces_rest (g := g) x.dst ps s
  rw [hw] at hp hs
  have hsn : u.snooped g q = false := (snooped_of_parts hp hs).trans hn
  simp only [State.moveNear, hd, hw, Option.none_or, hsn, Bool.not_true, Bool.false_and, Bool.false_eq_true, if_false]
  cases e <;> rfl

theorem moveXfer_store {fail : Option Nat} (hs : x.store = true) : s.moveXfer g q x fail = s.moveStore g q x fail := by
  rw [State.moveXfer, if_pos hs]

theorem moveStore_moves {w : Work} {e : Option Status} (ht : s.storeTiles g x none = (w, e)) (hw : w.widen.length ≤ 16) (hn : s.snooped g q = false) :
    s.moveStore g q x none = match e with
      | some st => (if voids st then s else s.putWork g w).xferFail g q x st
      | none => (s.putWork g w).modXfer g q fun y => { y with phase := .moved, image := none } := by
  simp only [State.moveStore, ite_self, ht, widenOver_fits hw, putWork_snooped, hn, Bool.false_eq_true, if_false]
  cases e <;> rfl

theorem moveStore_overflows {w : Work} {e : Option Status} (ht : s.storeTiles g x none = (w, e)) (hw : 16 < w.widen.length) :
    ∃ d, s.moveStore g q x none = s.coreFault g stPoolFull x.bundle q.val d := by
  obtain ⟨d, hd⟩ := widenOver_exceeds (s := s) (g := g) hw
  exact ⟨d, by simp only [State.moveStore, ite_self, ht, hd]⟩

/-! A COPY from HBM into a scratchpad (R93) -/

/-- Lines of which each is admitted are all before the first that is not. -/
theorem linePrefix_whole {ok : Nat → Nat → Option Status} {a n : Nat} : ∀ {fuel off : Nat}, (∀ o m, o + m ≤ n → ok (a + o) m = none) → off ≤ n →
    off = n ∨ n - off + (a + off) % 64 ≤ 64 * fuel → linePrefix ok a n fuel off = (n, none)
  | 0, off, _, hle, hf => by
    have : off = n := by omega
    rw [this]
    rfl
  | fuel + 1, off, hok, hle, hf => by
    rw [linePrefix]
    split
    · rfl
    next hlt =>
      have hstep : off + min (64 - (a + off) % 64) (n - off) ≤ n := by omega
      simp only [hok off _ hstep]
      exact linePrefix_whole hok hstep (by omega)

theorem admits_within {p : Fin 8} {a n : Nat} (hp : s.partOfCore g = some p) (hlo : p.val * 2 ^ 38 ≤ a) (hhi : a + n ≤ (p.val + s.partSize p) * 2 ^ 38) (wr : Bool) : s.admits g wr a n = none := by
  have hsize := Nat.mul_le_mul_right (2 ^ 38) (Nat.add_le_add_left (partSize_le s p) p.val)
  have hsum : p.val + (8 - p.val) = 8 := by omega
  rw [hsum] at hsize
  rw [Nat.add_mul] at hhi hsize
  rw [State.admits]
  split
  · rfl
  next hn =>
    have htop : a < hbmTop := by
      show a < 8 * 2 ^ 38
      omega
    simp only [htop, if_true, hp, hlo, hhi, and_self]

theorem readLines_within {p : Fin 8} {a n : Nat} (hp : s.partOfCore g = some p) (hlo : p.val * 2 ^ 38 ≤ a) (hhi : a + n ≤ (p.val + s.partSize p) * 2 ^ 38) (hbad : s.mem.badHbm = []) :
    readLines (s.admits g) s.mem a n = (s.mem.read a n, none) := by
  have hline : ∀ o m, o + m ≤ n → s.mem.guard (s.admits g) false (a + o) m = none := by
    intro o m hom
    rw [Mem.guard, admits_within hp (by omega) (by omega), Mem.lost, hbad, parityHit_nil]
    simp
  rw [readLines, linePrefix_whole hline (by omega) (.inr (by omega))]

/-- R93: a copy from HBM within the partition reads its bytes whole. -/
theorem xferBytes_copy {p : Fin 8} (hk : x.kind = .copy) (hs : x.src.space = 0) (hp : s.partOfCore g = some p) (hlo : p.val * 2 ^ 38 ≤ x.src.off.toNat)
    (hhi : x.src.off.toNat + x.length ≤ (p.val + s.partSize p) * 2 ^ 38) (hbad : s.mem.badHbm = []) (hn : x.length ≠ 0) :
    s.xferBytes g x = ([(0, readBytes s.mem.hbm x.src.off.toNat x.length)], none) := by
  have htop : x.src.off.toNat < hbmTop := by
    have hsize := Nat.mul_le_mul_right (2 ^ 38) (Nat.add_le_add_left (partSize_le s p) p.val)
    rw [show p.val + (8 - p.val) = 8 by omega] at hsize
    show _ < 8 * 2 ^ 38
    omega
  have hread : s.mem.read x.src.off.toNat x.length = readBytes s.mem.hbm x.src.off.toNat x.length := by
    rw [Mem.read, if_pos htop]
  have hne : (readBytes s.mem.hbm x.src.off.toNat x.length).isEmpty = false := by
    rw [List.isEmpty_eq_false_iff, ← List.length_pos_iff, length_readBytes]
    omega
  have hloc : s.readLoc g x.src x.length = (readBytes s.mem.hbm x.src.off.toNat x.length, none) := by
    rw [← hread, ← readLines_within hp hlo hhi hbad, State.readLoc, hs]
    rfl
  rw [State.xferBytes, hk]
  show Part1.at_ (s.readLoc g x.src x.length) 0 = _
  rw [hloc, Part1.at_, hne]
  rfl

theorem writePieces_spad {l : Loc} {bs : List Byte} (hl : l.space = 1) : State.writePieces g l [(0, bs)] s = (s.modCore (coreId l.core.toNat) fun c => c.putSpad l.off.toNat bs, none) := by
  have hloc : s.writeLoc g l (l.off.toNat + 0) bs = (s.modCore (coreId l.core.toNat) fun c => c.putSpad (l.off.toNat + 0) bs, none) := by
    rw [State.writeLoc, hl]
    rfl
  rw [State.writePieces, hloc, Nat.add_zero]
  rfl

theorem destOk_spad (hk : x.kind = .copy) (hs : x.dst.space = 1) (hfit : x.dst.off.toNat + x.length ≤ spadSize) : s.destOk g x = true := by
  have htotal : x.total = x.length := by rw [Xfer.total, hk]
  rw [State.destOk, hs, htotal]
  show (decide (x.length = 0) || decide (x.dst.off.toNat + x.length ≤ spadSize)) = true
  rw [decide_eq_true hfit, Bool.or_true]

/-- A copy's bytes in another core's scratchpad, and its queue's head moved. -/
theorem copied {k : Fin 512} {a b n : Nat} {f : Xfer → Xfer} (hwf : s.Wf) (hk : k ≠ g) (hx : (s.core g).q[q].xfers = x :: rest) {t : State}
    (ht : t = (s.modCore k fun c => c.putSpad b (readBytes s.mem.hbm a n)).modXfer g q f) :
    t = { s with cores := t.cores } ∧ (∀ j : Fin 512, j ≠ g → j ≠ k → t.core j = s.core j)
    ∧ (∀ j, j < n → readByte (t.core k).spad (b + j) = readByte s.mem.hbm (a + j)) ∧ (∀ j, j < b ∨ b + n ≤ j → readByte (t.core k).spad j = readByte (s.core k).spad j)
    ∧ (t.core g).q[q].xfers = f x :: rest ∧ { t.core g with q := (s.core g).q } = s.core g := by
  have hother : ∀ j, j ≠ g → t.core j = (s.modCore k fun c => c.putSpad b (readBytes s.mem.hbm a n)).core j := fun j hj => by rw [ht, State.modXfer, modCore_core_ne hj]
  have hgiven : t.core g = { s.core g with q := (s.core g).q.set q { (s.core g).q[q] with xfers := modifyAt f (s.core g).q[q].xfers 0 } } := by
    rw [ht, State.modXfer, modCore_core_same, modCore_core_ne hk.symm]
  have hspad : (t.core k).spad = writeBytes (s.core k).spad b (readBytes s.mem.hbm a n) := by
    rw [hother k hk, modCore_core_same]
    rfl
  have hkwf : Memory.wf (s.core k).spad = true := (hwf.2.1 k).1
  refine ⟨by rw [ht]; rfl, fun j hj hjk => (hother j hj).trans (modCore_core_ne hjk), fun j hj => ?_, fun j hj => ?_, ?_, ?_⟩
  · rw [hspad, readByte_writeBytes_inside _ _ (by rw [length_readBytes]; exact hj) hkwf, getElem_readBytes]
  · rw [hspad, readByte_writeBytes_outside _ hkwf (by rw [length_readBytes]; exact hj)]
  · rw [hgiven]
    show ((s.core g).q.set q _)[q].xfers = _
    rw [Fin.getElem_fin, Vector.getElem_set_self, hx]
    rfl
  · rw [hgiven]

/-- Settles O40: what a granted head reads, what it writes, and the statuses that end its task. -/
theorem transfersMoveTheirBytes : Obligations.TransfersMoveTheirBytes := by
  intro s g q x rest cmd hwf hl hx hq hcmd
  obtain ⟨p, k, hk, -⟩ := live_task hl
  rw [dmaCommand_starts hcmd]
  refine ⟨fun hok => ?_, fun hok hext hadm hr hn => ?_⟩
  · exact ⟨_, rfl, startXfer_refused hl hx hq hok ▸ coreFault_endsAt hk _ _ _ _⟩
  · rw [startXfer_moves hl hx hq hok hext hadm]
    refine ⟨fun ps u hs hd hb hw => ?_, fun ps st u hs hst hv hd hb hw => ?_, fun ps st hs hv hb => ?_, fun ps hs hd hb => ?_, fun w hs ht => ⟨fun hfit => ?_, fun hover => ?_⟩,
      fun w st hs ht hst hfit => ?_, fun p a b k hs hkind ha hb hsrc hdst hcore hp hlo hhi hfit hbad hne hlen => ?_⟩
    · rw [moveXfer_near hs hr (by rw [hb]; rfl), hb, moveNear_writes hd hw hn]
    · refine ⟨_, rfl, ?_⟩
      have htask : u.taskOf g = some (p, k) := by
        have hrest := (writePieces_rest (g := g) x.dst ps s).1
        rw [hw] at hrest
        exact (taskOf_of_parts hrest g).trans hk
      rw [moveXfer_near hs hr (by rw [hb]; exact hv), hb, moveNear_writes hd hw hn]
      show TaskEndsAt u (u.xferFail g q x st) g st x.bundle
      rw [xferFail_ends hst]
      exact coreFault_endsAt htask _ _ _ _
    · refine ⟨_, rfl, ?_⟩
      rw [moveXfer_void hs hb hv, xferFail_ends (by rintro rfl; exact absurd hv (by decide))]
      exact coreFault_endsAt hk _ _ _ _
    · refine ⟨_, rfl, ?_⟩
      rw [moveXfer_near hs hr (by rw [hb]; rfl), moveNear_outside hd]
      exact coreFault_endsAt hk _ _ _ _
    · rw [moveXfer_store hs, moveStore_moves ht hfit hn]
    · obtain ⟨d, hd⟩ := moveStore_overflows (q := q) ht hover
      refine ⟨_, rfl, ?_⟩
      rw [moveXfer_store hs, hd]
      exact coreFault_endsAt hk _ _ _ _
    · refine ⟨_, rfl, ?_⟩
      obtain ⟨k', hk'⟩ : ∃ k', (if voids st then s else s.putWork g w).taskOf g = some (p, k') := by
        split
        · exact ⟨k, hk⟩
        · exact putWork_taskOf w hk
      rw [moveXfer_store hs, moveStore_moves ht hfit hn]
      show TaskEndsAt _ ((if voids st then s else s.putWork g w).xferFail g q x st) g st x.bundle
      rw [xferFail_ends hst]
      exact coreFault_endsAt hk' _ _ _ _
    · subst ha hb hcore
      have hbytes := xferBytes_copy (s := s) hkind hsrc hp hlo hhi hbad hlen
      refine ⟨_, rfl, copied (a := x.src.off.toNat) (b := x.dst.off.toNat) (n := x.length) (f := fun y => { y with phase := .moved, image := none }) hwf hne hx ?_⟩
      rw [moveXfer_near hs hr (by rw [hbytes]; rfl), hbytes, moveNear_writes (destOk_spad hkind hdst hfit) (writePieces_spad hdst) hn]

/-! Completion (R94, R95, R328) -/

theorem dmaComplete_waits (hx : (s.core g).q[q].xfers = x :: rest) (h : x.phase = .queued ∨ ∃ m ∈ (s.core g).msgs, m.queue = some q) : exec (.dmaComplete g q) s = .next s := by
  have hdone : (s.core g).xferDone q x = false := by
    rcases h with h | ⟨m, hm, hq⟩
    · rw [Core.xferDone, h]
      rfl
    · have hany : ((s.core g).msgs.any fun m => decide (m.queue = some q)) = true := List.any_eq_true.2 ⟨m, hm, decide_eq_true hq⟩
      rw [Core.xferDone, hany, Bool.not_true, Bool.and_false]
  rw [exec_dmaComplete, execDmaComplete]
  simp only [hx, List.head?_cons, hdone, Bool.not_false, Bool.true_or, if_true]

/-- The queue of a core once its head has left. -/
def State.nextXfer (s : State) (g : Fin 512) (q : Fin 8) : State :=
  s.modCore g fun c => { c with q := c.q.set q { c.q[q] with xfers := modifyAt (fun y => { y with started := s.now }) (c.q[q].xfers.drop 1) 0 } }

theorem dmaComplete_leaves (hl : s.live g = true) (hx : (s.core g).q[q].xfers = x :: rest) (him : x.image = none) (hph : x.phase = .failed ∨ x.phase = .moved)
    (hm : ∀ m ∈ (s.core g).msgs, m.queue ≠ some q) :
    exec (.dmaComplete g q) s = .next ((if x.sig && !s.xferFar x then (s.nextXfer g q).ownToken g (some q) x.tokenCore x.token x.bundle else s.nextXfer g q).settle g) := by
  have hany : ((s.core g).msgs.any fun m => decide (m.queue = some q)) = false := List.any_eq_false.2 fun m hmem => by rw [decide_eq_true_eq]; exact hm m hmem
  have hdone : (s.core g).xferDone q x = true := by
    rw [Core.xferDone, hany]
    rcases hph with h | h <;> rw [h] <;> rfl
  rw [exec_dmaComplete, execDmaComplete]
  simp only [hx, List.head?_cons, hdone, live_partHeld hl, Bool.not_true, Bool.or_self, Bool.false_eq_true, if_false, him]
  rfl

theorem hostAccessTimeout_fails (hl : s.live g = true) (hx : (s.core g).q[q].xfers = x :: rest) (hq : x.phase = .queued) (ht : s.touchesTier g x hostBase = true) :
    exec (.hostAccessTimeout g q) s = .next ((s.reach (x.started + 25000000)).hostFail g q x) := by
  have hpending : s.hostPending g x = true := by rw [State.hostPending, hq, ht, live_partHeld hl]; rfl
  rw [exec_hostAccessTimeout, execHostAccessTimeout]
  simp only [hx, List.head?_cons, hpending, if_true]
  rfl

theorem hostFail_stream (h : x.stream = true) : s.hostFail g q x = s.coreFault g stTier x.bundle q.val := by
  simp only [State.hostFail, State.xferFail, h, Bool.not_true, Bool.and_false, Bool.false_and, Bool.false_eq_true, and_false, if_false]

theorem hostFail_near (hx : (s.core g).q[q].xfers = x :: rest) (hs : x.stream = false) (hn : x.remote = false ∨ x.module = s.fab.moduleId ∨ x.store = true) :
    s.hostFail g q x = s.setCore g { s.core g with q := (s.core g).q.set q ⟨{ x with phase := .failed } :: rest, stTier⟩ } := by
  have hfar : (s.xferFar x && !x.stream && !x.store) = false := by
    rcases hn with h | h | h
    · rw [xferFar_of_local (.inl h)]
      rfl
    · rw [xferFar_of_local (.inr h)]
      rfl
    · rw [h, Bool.not_true, Bool.and_false]
  have hset : ((s.core g).q.set q (⟨x :: rest, stTier⟩ : DmaQueue))[q] = ⟨x :: rest, stTier⟩ := by
    rw [Fin.getElem_fin, Vector.getElem_set_self]
  rw [State.hostFail, hfar, if_neg Bool.false_ne_true, State.xferFail, if_pos (by rw [hs]; exact ⟨rfl, rfl⟩), State.modXfer, State.modCore, State.modCore, setCore_core, setCore_setCore]
  simp only [hset, hx, Vector.set_set]
  rfl

theorem hostFail_far (hs : x.stream = false) (hst : x.store = false) (hr : x.remote = true) (hm : x.module ≠ s.fab.moduleId) : s.hostFail g q x = s.moveFar g q x ([], some stTier) := by
  have hfar : s.xferFar x = true := by simp only [State.xferFar, hr, hm, ne_eq, not_false_eq_true, decide_true, Bool.and_self]
  rw [State.hostFail, hfar, hs, hst]
  rfl

/-- Settles O41: the head's leaving with its token, and the three ways in which a host access fails. -/
theorem transfersComplete : Obligations.TransfersComplete := by
  intro s g q x rest c u hc hl hx
  subst hc
  refine ⟨fun hu him hph hm => ?_, dmaComplete_waits hx, fun hu hq ht => ?_⟩
  · have hnext : s.nextXfer g q = u := by
      rw [hu, State.nextXfer, State.modCore, hx]
      rfl
    have hleave := dmaComplete_leaves hl hx him hph hm
    rw [hnext] at hleave
    refine ⟨fun hsig hnear => ?_, fun hno => ?_⟩
    · rw [hleave, hsig, xferFar_of_local hnear, hu]
      simp only [State.ownToken, setCore_core]
      rfl
    · have hskip : (x.sig && !s.xferFar x) = false := by
        rcases hno with h | ⟨hr, hmod⟩
        · rw [h, Bool.false_and]
        · simp only [State.xferFar, hr, hmod, ne_eq, not_false_eq_true, decide_true, Bool.and_self, Bool.not_true, Bool.and_false]
      rw [hleave, hskip, if_neg Bool.false_ne_true]
  · have hfail := hostAccessTimeout_fails hl hx hq ht
    rw [← hu] at hfail
    have hcore : u.core g = s.core g := by rw [hu, reach_core]
    have hfab : u.fab = s.fab := by rw [hu, reach_fab]
    refine ⟨fun hs => ?_, fun hs hn => ?_, fun hs hst hr hm => ?_⟩
    · obtain ⟨p, k, hk, -⟩ := live_task hl
      obtain ⟨thr, hthr⟩ := reach_taskOf (x.started + 25000000) hk
      rw [← hu] at hthr
      refine ⟨_, hfail, ?_⟩
      rw [hostFail_stream hs]
      exact coreFault_endsAt hthr _ _ _ _
    · rw [hfail, hostFail_near (by rw [hcore]; exact hx) hs (by rw [hfab]; exact hn), hcore]
      rfl
    · rw [hfail, hostFail_far hs hst hr (by rw [hfab]; exact hm)]
      rfl

end Sys2Proof.Machine
end

section
/-! PROOFS. Billet runs in the combine stage, and the ends of collectives. -/

namespace Sys2Proof.Machine

variable {s : State} {g : Fin 512} {r : BilletRun} {n : Nat} {bad : Bool}

/-! Runs (R72, R73, R85) -/

theorem billetRunArrive_enters (hl : s.live g = true) (hok : runOk r = true) : exec (.billetRunArrive g r) s = .next (
    if runStale r (s.core g).epoch then s.coreFault g stAnchor (s.core g).pc
    else if (s.core g).stageRoom r then s.setCore g { s.core g with stage := (s.core g).stage ++ [⟨r, none, false⟩] } else s) := by
  rw [exec_billetRunArrive, execBilletRunArrive]
  simp only [hl, hok, Bool.not_true, Bool.or_self, Bool.false_eq_true, if_false]
  rfl

theorem billetRunCombine_stale (hl : s.live g = true) (hr : (s.core g).stage[n]? = some ⟨r, none, bad⟩) (hs : runStale r (s.core g).epoch = true) :
    exec (.billetRunCombine g n) s = .next (s.coreFault g stAnchor (s.core g).pc) := by
  rw [exec_billetRunCombine, execBilletRunCombine]
  simp only [hr, hl, hs, Bool.not_true, Bool.false_eq_true, if_false, if_true]

theorem billetRunCombine_waits (hl : s.live g = true) (hr : (s.core g).stage[n]? = some ⟨r, none, bad⟩) (hs : runStale r (s.core g).epoch = false) (hslot : (s.core g).runSlot r = none) :
    exec (.billetRunCombine g n) s = .next s := by
  rw [exec_billetRunCombine, execBilletRunCombine]
  simp only [hr, hl, hs, hslot, Bool.not_true, Bool.false_eq_true, if_false]

theorem billetRunCombine_combines {i : Fin 5} {t : SlotTag} (hl : s.live g = true) (hr : (s.core g).stage[n]? = some ⟨r, none, bad⟩) (hs : runStale r (s.core g).epoch = false)
    (hslot : (s.core g).runSlot r = some (i, t)) : exec (.billetRunCombine g n) s = .next (
    if !runMatches t r then s.coreFault g stAnchor (s.core g).pc
    else if bad || ((s.core g).slots[i]).parityHit r.first.toNat r.elems.length then s.coreFault g stParity (s.core g).pc
    else (s.setCore g { s.core g with stage := (s.core g).stage.eraseIdx n, slots := (s.core g).slots.set i (((s.core g).slots[i]).addRun r.first.toNat r.elems) }).stageFreed) := by
  rw [exec_billetRunCombine, execBilletRunCombine]
  simp only [hr, hl, hs, hslot, Bool.not_true, Bool.false_eq_true, if_false]

/-- R73: room in a stage changes nothing where no packet and no run of this module waits. -/
theorem stageFreed_idle (hq : s.fab.rxQueue = []) (hc : ∀ j, ∀ x ∈ (s.core j).colls, x.todo = []) : s.stageFreed = s := by
  have hfab : (s.modFab fun x => { x with rxQueue := [] }) = s := by
    rw [State.modFab, ← hq]
  have hcolls : ∀ j, (s.core j).colls.foldl (fun s c => s.collRetry j c) s = s := by
    intro j
    refine List.foldlRecOn (motive := fun u : State => u = s) _ _ rfl fun u hu x hx => ?_
    rw [hu, State.collRetry, hc j x hx]
    rfl
  rw [State.stageFreed]
  simp only [hq, hfab, State.pumpRx]
  refine List.foldlRecOn (motive := fun u : State => u = s) _ _ rfl fun u hu j _ => ?_
  rw [hu]
  exact hcolls j

/-! The ends of collectives (R363, R365) -/

theorem collectiveComplete_leaves {group : W32} {x : Coll} (hl : s.live g = true) (hx : (s.core g).colls.find? (fun y => decide (cGroup y.desc = group) && y.complete (s.core g)) = some x) :
    exec (.collectiveComplete g group) s = .next (
      (if x.sig then (s.setCore g { s.core g with colls := (s.core g).colls.filter fun y => decide (y.seq ≠ x.seq) }).ownToken g none (BitVec.ofNat 9 g.val) x.token x.bundle
        else s.setCore g { s.core g with colls := (s.core g).colls.filter fun y => decide (y.seq ≠ x.seq) }).settle g) := by
  have hfind : (s.core g).collOf group (fun x => x.complete (s.core g)) = some x := hx
  have hne : (fun y : Coll => decide (y.seq ≠ x.seq)) = fun y => !y.isSeq x.seq := funext fun y => decide_not
  rw [exec_collectiveComplete, execCollectiveComplete]
  simp only [hfind, hl, Bool.not_true, Bool.false_eq_true, if_false, hne]
  rfl

theorem collTimeout_ends {group : W32} {x : Coll} (hl : s.live g = true) (hx : (s.core g).colls.find? (fun y => decide (cGroup y.desc = group) && !y.complete (s.core g)) = some x) :
    ∃ d, exec (.collTimeout g group) s = .next ((s.reach (x.since + x.limit)).coreFault g stCollTimeout x.bundle 0xFF d) := by
  have hfind : (s.core g).collOf group (fun x => !x.complete (s.core g)) = some x := hx
  rw [exec_collTimeout, execCollTimeout]
  simp only [hfind, hl, Bool.not_true, Bool.false_eq_true, if_false]
  exact ⟨_, rfl⟩

/-- Settles O42: a run's arrival, its checks and its addition; a collective's last step and its limit. -/
theorem billetRunsAndCollectivesComplete : Obligations.BilletRunsAndCollectivesComplete := by
  refine ⟨fun s g r c hc hl => ⟨fun hok => ?_, fun n bad hr => ⟨fun hs => ?_, fun hs hslot => ?_, fun i t hs hslot => ?_⟩⟩, fun s g group x c u hc hl => ⟨fun hx hu => ?_, fun hx hu => ?_⟩⟩
  all_goals
    subst hc
    obtain ⟨p, k, hk, -⟩ := live_task hl
  · have hexec := billetRunArrive_enters hl hok
    refine ⟨fun hs hroom => ?_, fun hs hroom => ?_, fun hs => ⟨_, hexec, ?_⟩⟩
    · rw [hexec, hs, hroom]
      rfl
    · rw [hexec, hs, hroom]
      rfl
    · rw [if_pos hs]
      exact coreFault_endsAt hk _ _ _ _
  · exact ⟨_, billetRunCombine_stale hl hr hs, coreFault_endsAt hk _ _ _ _⟩
  · exact billetRunCombine_waits hl hr hs hslot
  · have hexec := billetRunCombine_combines hl hr hs hslot
    refine ⟨fun hm => ⟨_, hexec, ?_⟩, fun hm hp => ⟨_, hexec, ?_⟩, fun hm hb hp hq hcolls => ?_⟩
    · rw [hm]
      exact coreFault_endsAt hk _ _ _ _
    · have hor : (bad || ((s.core g).slots[i]).parityHit r.first.toNat r.elems.length) = true := Bool.or_eq_true_iff.2 hp
      rw [hm, hor]
      exact coreFault_endsAt hk _ _ _ _
    · rw [hexec, hm, hb, hp, Bool.not_true, Bool.or_self, if_neg Bool.false_ne_true, if_neg Bool.false_ne_true, stageFreed_idle (by exact hq)]
      intro j x hx
      by_cases hj : j = g
      · subst hj
        rw [setCore_core] at hx
        exact hcolls j x hx
      · rw [setCore_core_ne hj] at hx
        exact hcolls j x hx
  · have hexec := collectiveComplete_leaves hl hx
    rw [← hu] at hexec
    refine ⟨fun hsig => ?_, fun hsig => ?_⟩
    · rw [hexec, hsig, if_pos rfl, State.ownToken, hu, setCore_core]
      rfl
    · rw [hexec, hsig, if_neg Bool.false_ne_true]
  · obtain ⟨d, hexec⟩ := collTimeout_ends hl hx
    rw [← hu] at hexec
    obtain ⟨thr, hthr⟩ := reach_taskOf (x.since + x.limit) hk
    rw [← hu] at hthr
    refine ⟨_, hexec, coreFault_endsAt hthr _ _ _ _, ?_⟩
    rw [coreFault_now, hu, reach_now]

end Sys2Proof.Machine
end

section
/-! PROOFS. Records of ended tasks, and the start of a job. -/

namespace Sys2Proof.Machine

variable {s : State} {p h : Fin 8} {k : Task} {j : Job}

/-! Little-endian fields of a list of bytes (R4) -/

theorem leNat_toLE : ∀ (w n : Nat), n < 256 ^ w → leNat (toLE n w) = n
  | 0, n, hn => by
    simp only [Nat.pow_zero] at hn
    simp only [toLE, leNat]
    omega
  | w + 1, n, hn => by
    have hdiv : n / 256 < 256 ^ w := by rw [Nat.pow_succ] at hn; omega
    simp only [toLE, leNat, leNat_toLE w _ hdiv, BitVec.toNat_ofNat]
    omega

/-- The field that a list of bytes begins with. -/
theorem leAt_head {n w : Nat} (bs : List Byte) (hn : n < 256 ^ w) : leAt (toLE n w ++ bs) 0 w = n := by
  rw [leAt, List.drop_zero, List.take_left' (length_toLE n w), leNat_toLE w n hn]

/-- A field behind others. -/
theorem leAt_append {a bs : List Byte} {lo n : Nat} (h : a.length ≤ lo) : leAt (a ++ bs) lo n = leAt bs (lo - a.length) n := by
  rw [leAt, leAt, List.drop_append, List.drop_eq_nil_of_le h, List.nil_append]

/-! Records (R401 to R403) -/

theorem recordBytes_head (j : Job) (t : Option Task) (e : RecordEnd) : ∃ flags owner rest, s.recordBytes j t e = toLE e.status.toNat 2 ++ (toLE flags 1 ++ (toLE owner 1 ++ (toLE j.id.toNat 4 ++ rest))) := by
  unfold State.recordBytes
  simp only [List.append_assoc]
  exact ⟨_, _, _, rfl⟩

theorem recordBytes_status (j : Job) (t : Option Task) (e : RecordEnd) : leAt (s.recordBytes j t e) 0 2 = e.status.toNat := by
  obtain ⟨flags, owner, rest, hr⟩ := recordBytes_head (s := s) j t e
  rw [hr, leAt_head _ e.status.isLt]

theorem recordBytes_id (j : Job) (t : Option Task) (e : RecordEnd) : leAt (s.recordBytes j t e) 4 4 = j.id.toNat := by
  obtain ⟨flags, owner, rest, hr⟩ := recordBytes_head (s := s) j t e
  rw [hr, leAt_append (by simp [length_toLE]), leAt_append (by simp [length_toLE]), leAt_append (by simp [length_toLE])]
  simp only [length_toLE]
  exact leAt_head _ j.id.isLt

/-- R403: a delivered record is the last that its partition keeps. -/
theorem deliver_records (j : Job) (bs plog : List Byte) : (s.deliver j bs plog).parts[j.part].records.getLast? = some ⟨j.id, j.ctx, bs, plog⟩ := by
  have hlast : ∀ (l : List KeptRecord) (x : KeptRecord), ((l ++ [x]).drop (l.length + 1 - 64)).getLast? = some x := by
    intro l x
    rw [List.drop_append, show l.length + 1 - 64 - l.length = 0 by omega, List.drop_zero, List.getLast?_append]
    rfl
  unfold State.deliver
  simp only [modPart_same]
  exact hlast _ _

theorem modPart_field {α : Type} {v : Part → α} {f : Part → Part} (p : Fin 8) (hf : ∀ x, v (f x) = v x) (q : Fin 8) : v (s.modPart p f).parts[q] = v s.parts[q] := by
  by_cases hq : q = p
  · rw [hq, modPart_same, hf]
  · rw [modPart_ne hq]

/-- What a partition holds beside its task is untouched by a core's fault. -/
theorem coreFault_part_field {α : Type} {v : Part → α} (hv : ∀ x t, v { x with task := t } = v x) (g : Fin 512) (st : Status) (b : BitVec 13) (x d : Nat) (q : Fin 8) :
    v (s.coreFault g st b x d).parts[q] = v s.parts[q] := by
  unfold State.coreFault
  dsimp only
  split
  · exact modPart_field (s := s.modCore g _) _ (fun _ => hv _ _) q
  · rfl

/-- What sending keeps of the records of the partitions. -/
theorem records_sends : SendFrame fun s t => ∀ q : Fin 8, t.parts[q].records = s.parts[q].records where
  refl _ _ := rfl
  trans h k q := (k q).trans (h q)
  fab _ _ _ := rfl
  draw _ _ := rfl
  sends _ _ _ _ _ := rfl
  fault _ _ _ _ _ _ q := coreFault_part_field (v := Part.records) (fun _ _ => rfl) _ _ _ _ _ q

theorem modCtx_parts (n : Fin 4096) (f : LCtx → LCtx) : (s.modCtx n f).parts = s.parts := by
  unfold State.modCtx
  dsimp only
  split
  · rfl
  · split <;> rfl

theorem pushEvent_parts (n : Option (Fin 4096)) (e : LEvent) : (s.pushEvent n e).parts = s.parts := by
  cases n with
  | none => rfl
  | some n => exact modCtx_parts n _

theorem applyHeld_parts : s.applyHeld.parts = s.parts := by
  have hbridge : ∀ s : State, s.applyBridge.parts = s.parts := fun s => by
    unfold State.applyBridge State.setBridge
    split
    · dsimp only
      split <;> rfl
    · rfl
  have hhdm : ∀ s : State, s.applyHdm.parts = s.parts := fun s => by
    unfold State.applyHdm State.setHdm
    split
    · split <;> rfl
    · rfl
  have hid : ∀ s : State, s.applyModuleId.parts = s.parts := fun s => by
    unfold State.applyModuleId
    split <;> rfl
  have hctl : ∀ s : State, s.applyFabCtl.parts = s.parts := fun s => by
    unfold State.applyFabCtl
    split <;> rfl
  unfold State.applyHeld
  split
  · rfl
  · rw [hctl, hid, hhdm, hbridge]

/-! The end of a task (R110, R401) -/

theorem foldl_keeps_field {α β : Type} {v : State → α} {f : State → β → State} (hf : ∀ u b, v (f u b) = v u) (l : List β) (s : State) : v (l.foldl f s) = v s :=
  List.foldlRecOn (motive := fun u => v u = v s) _ _ rfl fun u hu b _ => (hf u b).trans hu

theorem abandonHearths_parts (s : State) (p : Fin 8) : (s.abandonHearths p).parts = s.parts := by
  unfold State.abandonHearths
  exact foldl_keeps_field (v := State.parts) (by exact fun _ _ => rfl) _ _

theorem abandonCores_parts (s : State) (p : Fin 8) (stop : Bool) : (s.abandonCores p stop).parts = s.parts := by
  unfold State.abandonCores
  dsimp only
  exact modCores_parts _ _

theorem abandon_parts (p : Fin 8) (tag : BitVec 16) (stop : Bool) : (s.abandon p tag stop).parts = (s.modPart p fun x => { x with rounds := x.rounds.filter fun r => decide (r.1 ≠ tag) }).parts := by
  have hbase : ((s.abandonCores p stop).abandonHearths p).parts = s.parts := by
    rw [abandonHearths_parts, abandonCores_parts]
  rw [State.abandon, modFab_parts, State.modPart, State.modPart]
  dsimp only
  rw [hbase]

theorem leaveTask_part (p : Fin 8) (j : Job) (stop : Bool) : (s.leaveTask p j stop).parts[p].task = none ∧ (s.leaveTask p j stop).parts[p].records = s.parts[p].records
    ∧ (s.leaveTask p j stop).parts[p].zeroing = j.secure := by
  unfold State.leaveTask
  simp only [modPart_same, abandon_parts, and_self]

theorem announceEnd_records (hp : k.job.part = p) (e : Ending) : ∃ r, (s.announceEnd p k e).parts[p].records.getLast? = some r ∧ r.job = k.job.id ∧ r.ctx = k.job.ctx
    ∧ leAt r.bytes 0 2 = e.status.toNat ∧ leAt r.bytes 4 4 = k.job.id.toNat := by
  unfold State.announceEnd
  dsimp only
  rw [pushEvent_parts]
  subst hp
  exact ⟨_, deliver_records _ _ _, rfl, rfl, recordBytes_status _ _ _, recordBytes_id _ _ _⟩

/-- R401, R403: the end of a task without a session leaves no task, and its record as the last. -/
theorem finishTask_ended (hp : k.job.part = p) (hs : k.job.session = none) (e : Ending) (stop : Bool) : Ended (s.finishTask p k e stop) p k.job e.status := by
  have hout : s.outputsOf k e = (s, true) := by rw [State.outputsOf, hs]
  obtain ⟨htask, hrec, -⟩ := leaveTask_part (s := s.announceEnd p k e) p k.job stop
  obtain ⟨r, hr, hjob, hctx, hst, hid⟩ := announceEnd_records (s := s) hp e
  have hfin : s.finishTask p k e stop = ((s.announceEnd p k e).leaveTask p k.job stop).applyHeld := by
    rw [State.finishTask, hout]
    rfl
  rw [hfin, Ended, applyHeld_parts, hrec]
  exact ⟨htask, r, hr, hjob, hctx, hst, hid⟩

/-! The job that starts (R393) -/

/-- The place of a job in its queues' order: class, key, arrival. -/
theorem before_iff {a b : Job} : a.before b = true ↔ (a.lc = true ∧ b.lc = false) ∨ (a.lc = b.lc ∧ (a.key < b.key ∨ (a.key = b.key ∧ a.id < b.id))) := by
  rw [Job.before]
  simp only [Bool.or_eq_true, Bool.and_eq_true, Bool.not_eq_true', decide_eq_true_eq]

theorem not_before_trans {a b c : Job} (h1 : b.before a = false) (h2 : c.before b = false) : c.before a = false := by
  rw [← Bool.not_eq_true, before_iff] at h1 h2 ⊢
  cases ha : a.lc <;> cases hb : b.lc <;> cases hc : c.lc <;> simp only [ha, hb, hc, reduceCtorEq, and_true, and_false, true_and, false_and, or_false, false_or, not_false_eq_true, not_true_eq_false] at h1 h2 ⊢
  all_goals
    bv_omega

theorem before_asymm {a b : Job} (h : a.before b = true) : b.before a = false := by
  rw [← Bool.not_eq_true, before_iff]
  rw [before_iff] at h
  cases ha : a.lc <;> cases hb : b.lc <;> simp only [ha, hb, reduceCtorEq, and_true, and_false, true_and, false_and, or_false, false_or, not_false_eq_true] at h ⊢
  all_goals
    bv_omega

theorem before_irrefl (a : Job) : a.before a = false := by
  cases h : a.before a with
  | false => rfl
  | true => exact h.symm.trans (before_asymm h)

theorem firstJob_none {l : List Job} (h : firstJob l = none) : l = [] := by
  cases l with
  | nil => rfl
  | cons x r =>
    rw [firstJob] at h
    split at h <;> cases h

theorem firstJob_first : ∀ {l : List Job} {j : Job}, firstJob l = some j → j ∈ l ∧ ∀ x ∈ l, x.before j = false
  | [], _, h => by cases h
  | x :: r, j, h => by
    rw [firstJob] at h
    split at h
    next hr =>
      cases h
      rw [firstJob_none hr]
      exact ⟨List.mem_cons_self, fun z hz => List.mem_singleton.1 hz ▸ before_irrefl x⟩
    next y hr =>
      obtain ⟨hmem, hall⟩ := firstJob_first hr
      cases hb : y.before x with
      | true =>
        rw [hb, if_pos rfl] at h
        cases h
        exact ⟨List.mem_cons_of_mem _ hmem, List.forall_mem_cons.2 ⟨before_asymm hb, hall⟩⟩
      | false =>
        rw [hb, if_neg Bool.false_ne_true] at h
        cases h
        exact ⟨List.mem_cons_self, List.forall_mem_cons.2 ⟨before_irrefl x, fun z hz => not_before_trans hb (hall z hz)⟩⟩

/-! The loader (R78, R384) -/

theorem jobStart_loads {fail : Option (BitVec 64)} (hm : s.parts[h].mode = .idle) (hz : s.parts[h].zeroing = false) (ht : s.parts[h].task = none)
    (hj : firstJob (s.parts[h].lc ++ s.parts[h].be) = some j) : exec (.jobStart h fail) s = .next (((s.modPart h fun y => y.take j).clearForTask h).loadJob h fail j) := by
  rw [exec_jobStart, execJobStart]
  simp only [hm, hz, ht, hj, ne_eq, not_true_eq_false, Bool.false_eq_true, Option.isSome_none, or_self, if_false]

theorem jobStart_held {fail : Option (BitVec 64)} (hh : s.parts[h].mode ≠ .idle ∨ s.parts[h].zeroing = true) : exec (.jobStart h fail) s = .next s := by
  rw [exec_jobStart, execJobStart]
  exact congrArg _ (if_pos (hh.imp_right .inl))

variable {raw ins : List Byte} {v : State} {img : Image} {fail : Option (BitVec 64)}

theorem loadJob_begins (hl : s.loadObjects fail j = .ok (raw, ins, v)) (hp : parseImage raw raw.length = .ok img) (hi : v.imageFail h j.hostWeights img = none) :
    s.loadJob h fail j = v.beginTask h j img (Config.sha3 ins) := by
  simp only [State.loadJob, hl, hp, hi]

/-- R384, R537: the three places at which the loader ends a job. -/
theorem loadJob_fails {f : LoadFail}
    (hf : (s.loadObjects fail j = .error f.status ∧ f = ⟨f.status, 0, none, none⟩)
      ∨ (∃ raw ins v o, s.loadObjects fail j = .ok (raw, ins, v) ∧ parseImage raw raw.length = .error o ∧ f = failAt stImage o)
      ∨ (∃ raw ins v img, s.loadObjects fail j = .ok (raw, ins, v) ∧ parseImage raw raw.length = .ok img ∧ v.imageFail h j.hostWeights img = some f)) :
    ∃ (u : State) (k : Task), k.job = j ∧ s.loadJob h fail j = u.loadFail h k f := by
  rcases hf with ⟨hl, hf⟩ | ⟨raw, ins, v, o, hl, hp, rfl⟩ | ⟨raw, ins, v, img, hl, hp, hi⟩
  · exact ⟨s, s.failedTask j 0 0 false, rfl, by simp only [State.loadJob, hl]; rw [← hf]⟩
  · exact ⟨v, v.failedTask j (Config.sha3 raw) (Config.sha3 ins) false, rfl, by simp only [State.loadJob, hl, hp]⟩
  · exact ⟨v, v.failedTask j (Config.sha3 img.bytes) (Config.sha3 ins) (imgBal img.bytes), rfl, by simp only [State.loadJob, hl, hp, hi]⟩

theorem loadFail_ended {f : LoadFail} (hp : k.job.part = h) (hs : k.job.session = none) : Ended (s.loadFail h k f) h k.job f.status :=
  finishTask_ended hp hs _ _

theorem callPeers_none (p : Fin 8) : s.callPeers p [] = s := by
  unfold State.callPeers
  split <;> rfl

/-- R78: a job of one module without secrets and peers begins where its image is put in place. -/
theorem beginTask_alone {d : Digest} (hs : j.secure = false) (hm : j.modules.length ≤ 1) (hp : img.peers = []) :
    v.beginTask h j img d = (v.placeImage h img).modPart h fun x => { x with task := some (v.makeTask h j img d) } := by
  have htask : ((v.placeImage h img).modPart h fun x => { x with task := some (v.makeTask h j img d) }).parts[h].task = some (v.makeTask h j img d) := by rw [modPart_same]
  have hpeers : (v.makeTask h j img d).peers = [] := hp
  have hlen : decide ((v.makeTask h j img d).job.modules.length ≤ 1) = true := decide_eq_true hm
  simp only [State.beginTask, hs, Bool.false_eq_true, if_false, hpeers, callPeers_none]
  simp only [State.pumpRounds, htask, hlen, Bool.true_or, if_true]

theorem placeImage_core {g : Fin 512} (hg : ∀ k ∈ img.namedCores, g ≠ coreId (64 * h.val + k)) : (v.placeImage h img).core g = v.core g := by
  have hfold : ∀ (l : List Nat) (s : State), (∀ k ∈ l, g ≠ coreId (64 * h.val + k)) → (l.foldl (fun s k => s.setCore (coreId (64 * h.val + k)) (img.core k img.epoch)) s).core g = s.core g := by
    intro l
    induction l with
    | nil => exact fun _ _ => rfl
    | cons k l ih =>
      intro s hl
      obtain ⟨hk, hl⟩ := List.forall_mem_cons.1 hl
      rw [List.foldl_cons, ih _ hl, setCore_core_ne hk]
  unfold State.placeImage State.placePools State.placeCores
  exact hfold _ _ hg

theorem placeImage_parts : (v.placeImage h img).parts = v.parts ∧ (v.placeImage h img).now = v.now := by
  unfold State.placeImage State.placePools State.placeCores
  exact ⟨foldl_keeps_field (v := State.parts) (by exact fun _ _ => rfl) _ _, foldl_keeps_field (v := State.now) (by exact fun _ _ => rfl) _ _⟩

/-! The cores start (R78, R394) -/

theorem startBarrierComplete_acts (hp : s.partOf h = some p) (hk : s.parts[p].task = some k) (hn : k.ending = none) (hph : k.phase = .startBarrier) :
    exec (.startBarrierComplete h) s = .next (if s.roundsDone p then s.modTask p fun t => { t with phase := .loaded, rounds := 0 } else s) := by
  rw [exec_startBarrierComplete, execStartBarrierComplete]
  simp only [hp, hk, hn, hph, Option.isNone_none, true_and]

/-- A change of the cores of a list that may be made twice. -/
theorem modCores_core_idempotent {f : Core → Core} (hf : ∀ c, f (f c) = f c) : ∀ (gs : List (Fin 512)) (s : State) (j : Fin 512),
    (s.modCores gs fun _ => f).core j = if j ∈ gs then f (s.core j) else s.core j
  | [], s, j => by simp [State.modCores]
  | g :: gs, s, j => by
    have ih := modCores_core_idempotent hf gs (s.modCore g f) j
    have hcons : (s.modCores (g :: gs) fun _ => f) = (s.modCore g f).modCores gs fun _ => f := rfl
    rw [hcons, ih]
    by_cases hj : j = g
    · subst hj
      rw [modCore_core_same, hf, ite_self, if_pos List.mem_cons_self]
    · rw [modCore_core_ne hj]
      simp only [List.mem_cons, hj, false_or]

theorem coresStart_starts (hp : s.partOf h = some p) (hk : s.parts[p].task = some k) (hn : k.ending = none) (hph : k.phase = .loaded) :
    exec (.coresStart h) s = .next ((s.modCores k.codeCores fun _ c => { c with member := true, mode := .run }).modTask p fun t => { t with phase := .running, coresAt := s.now }) := by
  rw [exec_coresStart, execCoresStart]
  simp only [hp, hk, hn, hph, Option.isNone_none, and_self, if_true]

/-- Settles O43: the job that comes first, the loader's four ends, the start barrier and the cores' start. -/
theorem jobsStart : Obligations.JobsStart := by
  refine fun s h fail => ⟨fun j u hm hz ht hj hu => ?_, jobStart_held, fun p k hp hk hn => ⟨fun hph hr => ?_, fun hph hr => ?_, fun hph => ?_⟩⟩
  · have hstart := jobStart_loads (fail := fail) hm hz ht hj
    rw [← hu] at hstart
    refine ⟨firstJob_first hj, fun raw ins v img hl hp hi => ⟨?_, fun hs hmods hpeers => ⟨_, rfl, ?_⟩⟩, fun hpart hsess => ?_⟩
    · rw [hstart, loadJob_begins hl hp hi]
    · obtain ⟨hparts, hnow⟩ := placeImage_parts (v := v) (h := h) (img := img)
      rw [beginTask_alone hs hmods hpeers]
      refine ⟨by rw [modPart_same], ?_, fun g hg => ?_, hnow⟩
      · rw [modPart_same, hparts]
      · exact placeImage_core hg
    · have hends : ∀ f : LoadFail, (∃ (v : State) (k : Task), k.job = j ∧ u.loadJob h fail j = v.loadFail h k f) → ∃ t, exec (.jobStart h fail) s = .next t ∧ Ended t h j f.status := by
        rintro f ⟨v, k, rfl, hfail⟩
        exact ⟨_, hstart.trans (congrArg _ hfail), loadFail_ended hpart hsess⟩
      refine ⟨fun st hl => ?_, fun raw ins v f img hl hp hi => ?_, fun raw ins v o hl hp => ?_⟩
      · exact hends ⟨st, 0, none, none⟩ (loadJob_fails (.inl ⟨hl, rfl⟩))
      · exact hends f (loadJob_fails (.inr (.inr ⟨raw, ins, v, img, hl, hp, hi⟩)))
      · exact hends (failAt stImage o) (loadJob_fails (.inr (.inl ⟨raw, ins, v, o, hl, hp, rfl⟩)))
  · rw [startBarrierComplete_acts hp hk hn hph, if_pos hr]
  · rw [startBarrierComplete_acts hp hk hn hph, hr, if_neg Bool.false_ne_true]
  · refine ⟨_, coresStart_starts hp hk hn hph, ?_, modCores_mem _ _, ?_, fun g hg => ?_, fun g hg => ?_⟩
    · rw [modTask_task_same, modCores_parts, hk]
      rfl
    · rw [modTask_hearths, modCores_rest]
    · rw [modTask_core, modCores_core_idempotent (f := fun c => { c with member := true, mode := .run }) (fun _ => rfl), if_pos hg]
    · rw [modTask_core, modCores_core_idempotent (f := fun c => { c with member := true, mode := .run }) (fun _ => rfl), if_neg hg]

end Sys2Proof.Machine
end

section
/-! PROOFS. The end of a task, refuted: a control packet that names a core of another partition as its sender. -/

namespace Sys2Proof.Machine

open Sys2Proof.Tests

theorem after_next {α : Type} {c : Instr} {s t : State} (f : State → α) (h : exec c s = .next t) : after c s f = some (f t) := by
  rw [after, h]

/-- A control packet in core 0's list that names core 64 as its sender. No run queues one there: a core queues its own packets. -/
def strayPkt : TxPkt := ⟨0, 6, 0, true, 0, 0, 1, 0, 0, false, 64, 0, 0x1234, 0, 0, [1], false, 0, none, 0, none⟩

/-- The end of a task by an ILLEGAL_INSTRUCTION. -/
def strayEnding : Ending := ⟨0x0104, 0, 3, none, none, 1, 0, 0, none, 0⟩

/-- A task of two modules whose end is detected. -/
def strayTask : Task := { task with job := { job with modules := [1] }, ending := some strayEnding }

/-- Partition 0 holds that task, partition 1 a running one with core 64; every link is down. -/
def strayState : State :=
  let s := (up.modPart 0 fun p => { p with mode := .running, task := some strayTask }).modPart 1 fun p => { p with mode := .running, task := some task }
  (s.modCore 0 fun c => { c with ctrls := [(1, strayPkt)] }).modCore 64 fun c => { c with member := true, mode := .run }

/-- The END notice to the other module finds the stray packet before it; its loss is charged to core 64. -/
theorem strayState_faults : after (.taskStopped 0) strayState (fun t => (t.core 64).stat.faultStatus) = some 0x0403 := by decide +kernel

/-- Refutes O44: the end of partition 0's task sends what core 0 still holds, and the packet that cannot leave faults core 64 of partition 1. -/
theorem not_jobsEnd : ¬Obligations.JobsEnd := by
  intro h
  obtain ⟨hstop, -⟩ := h strayState 0 0 strayTask (by decide +kernel)
  obtain ⟨t, hexec, -, -, -, -, -, -, -, -, -, hother⟩ := hstop strayEnding (by decide +kernel) rfl rfl rfl
  have hcore := hother 64 (by decide +kernel)
  have hfault := (after_next (fun t => (t.core 64).stat.faultStatus) hexec).symm.trans strayState_faults
  rw [hcore] at hfault
  exact absurd hfault (by decide +kernel)

end Sys2Proof.Machine
end

section

/-! PROOFS. The contexts of Larcy and the checks of its commands. -/

namespace Sys2Proof.Machine

variable {s u v : State} {n m : Fin 4096} {x : HostFate} {opc : Nat} {c k : LCtx} {e pb : List Byte}

/-! A change of a context -/

theorem modCtx_ctxs (s : State) (n : Fin 4096) (f : LCtx → LCtx) :
    (s.modCtx n f).larcy.ctxs = s.larcy.ctxs.map fun c => if c.num = n then (f c).refresh s.now else c := by
  unfold State.modCtx
  dsimp only
  split
  · rfl
  · split <;> rfl

theorem modCtx_rest (s : State) (n : Fin 4096) (f : LCtx → LCtx) : { s.modCtx n f with larcy := s.larcy } = s := by
  unfold State.modCtx
  dsimp only
  split
  · rfl
  · split <;> rfl

/-- A change of a context leaves the engine but for its contexts and its waiting list. -/
theorem modCtx_larcy (s : State) (n : Fin 4096) (f : LCtx → LCtx) :
    { (s.modCtx n f).larcy with ctxs := s.larcy.ctxs, waiting := s.larcy.waiting } = s.larcy := by
  unfold State.modCtx
  dsimp only
  split
  · rfl
  · split <;> rfl

theorem modCtx_hostUp (s : State) (n : Fin 4096) (f : LCtx → LCtx) : (s.modCtx n f).hostUp = s.hostUp := by
  unfold State.hostUp
  rw [← modCtx_larcy s n f]

theorem modCtx_nextJob (s : State) (n : Fin 4096) (f : LCtx → LCtx) : (s.modCtx n f).larcy.nextJob = s.larcy.nextJob := by
  conv_rhs => rw [← modCtx_larcy s n f]

variable {f : LCtx → LCtx}

theorem ctx_modCtx_same (hf : ∀ c, (f c).num = c.num) (hc : s.ctx n = some c) : (s.modCtx n f).ctx n = some ((f c).refresh s.now) := by
  have hn : c.num = n := by simpa using List.find?_some hc
  have hp : ((fun c : LCtx => decide (c.num = n)) ∘ fun c => if c.num = n then (f c).refresh s.now else c) = fun c => decide (c.num = n) := by
    funext y
    by_cases hy : y.num = n <;> simp [LCtx.refresh, hf, hy]
  unfold State.ctx at hc ⊢
  rw [modCtx_ctxs, List.find?_map, hp, hc, Option.map_some, if_pos hn]

theorem ctx_modCtx_ne (hf : ∀ c, (f c).num = c.num) (hm : m ≠ n) : (s.modCtx n f).ctx m = s.ctx m := by
  have hp : ((fun c : LCtx => decide (c.num = m)) ∘ fun c => if c.num = n then (f c).refresh s.now else c) = fun c => decide (c.num = m) := by
    funext y
    by_cases hy : y.num = n <;> simp [LCtx.refresh, hf, hy]
  unfold State.ctx
  rw [modCtx_ctxs, List.find?_map, hp]
  cases hy : s.larcy.ctxs.find? fun c => decide (c.num = m) with
  | none => rfl
  | some y =>
    have hn : y.num = m := by simpa using List.find?_some hy
    rw [Option.map_some, if_neg (hn ▸ hm)]

/-! A context that closes -/

theorem disown_larcy (s : State) (n : Fin 4096) : (s.disown n).larcy = s.larcy := rfl

theorem ctx_dropCtx_same (s : State) (n : Fin 4096) : (s.dropCtx n).ctx n = none := by
  refine List.find?_eq_none.2 fun y hy => ?_
  simpa using (List.mem_filter.1 hy).2

theorem ctx_dropCtx_ne (hm : m ≠ n) : (s.dropCtx n).ctx m = s.ctx m := by
  have hd : (s.dropCtx n).larcy.ctxs = s.larcy.ctxs.filter fun c => decide (c.num ≠ n) := rfl
  unfold State.ctx
  rw [hd, List.find?_filter]
  congr 1
  funext y
  by_cases hy : y.num = m <;> simp [hy, hm]

/-- A context whose close no command awaits is dropped. -/
theorem closeCtx_drops (hc : s.ctx n = some c) (hk : c.closing = []) : s.closeCtx n = s.dropCtx n := by
  simp [State.closeCtx, hc, hk]

/-! A command in progress -/

/-- The entry `e` is the command in progress of context `n`, which is not closing. -/
def Serving (v : State) (n : Fin 4096) (e : List Byte) : Prop :=
  ∃ c, v.ctx n = some c ∧ c.closing = [] ∧ c.busy = some (BitVec.ofNat 16 (leAt e 2 2), BitVec.ofNat 8 (leAt e 0 1))

theorem Serving.of_ctx (h : Serving u n e) (hv : v.ctx n = u.ctx n) : Serving v n e := by
  obtain ⟨c, hc, hr⟩ := h
  exact ⟨c, hv.trans hc, hr⟩

/-- A change of the state beside the engine leaves the command in progress. -/
theorem Serving.of_larcy (h : Serving u n e) (hv : v.larcy = u.larcy) : Serving v n e := h.of_ctx (by unfold State.ctx; rw [hv])

/-- The completion of a command in progress waits to be posted. -/
theorem Serving.complete_eq (h : Serving v n e) (st : Status) (r : BitVec 128) :
    v.complete n st r = v.putDone n (BitVec.ofNat 16 (leAt e 2 2)) (BitVec.ofNat 8 (leAt e 0 1)).toNat st r := by
  obtain ⟨c, hc, hk, hb⟩ := h
  simp [State.complete, hc, hb, hk]

theorem Serving.completes (h : Serving v n e) (st : Status) (r : BitVec 128) : Completes (v.complete n st r) n e st r := by
  rw [h.complete_eq]
  obtain ⟨c, hc, -, -⟩ := h
  have hp := ctx_modCtx_same (f := fun c => { c with busy := none, done := some ⟨BitVec.ofNat 16 (leAt e 2 2), st, BitVec.ofNat 8 (BitVec.ofNat 8 (leAt e 0 1)).toNat, r⟩ })
    (fun _ => rfl) hc
  exact ⟨_, hp, rfl, by rw [BitVec.ofNat_toNat, BitVec.setWidth_eq]; rfl⟩

theorem Serving.complete_rest (h : Serving v n e) (st : Status) (r : BitVec 128) : { v.complete n st r with larcy := v.larcy } = v := by
  rw [h.complete_eq]
  exact modCtx_rest _ _ _

theorem Serving.complete_ctx_ne (h : Serving v n e) (st : Status) (r : BitVec 128) (hm : m ≠ n) : (v.complete n st r).ctx m = v.ctx m := by
  rw [h.complete_eq]
  exact ctx_modCtx_ne (fun _ => rfl) hm

theorem Serving.complete_nextJob (h : Serving v n e) (st : Status) (r : BitVec 128) : (v.complete n st r).larcy.nextJob = v.larcy.nextJob := by
  rw [h.complete_eq]
  exact modCtx_nextJob _ _ _

theorem Serving.complete_parts (h : Serving v n e) (st : Status) (r : BitVec 128) : (v.complete n st r).parts = v.parts := (congrArg State.parts (h.complete_rest st r) :)

theorem Serving.complete_cores (h : Serving v n e) (st : Status) (r : BitVec 128) : (v.complete n st r).cores = v.cores := (congrArg State.cores (h.complete_rest st r) :)

theorem Serving.complete_mem (h : Serving v n e) (st : Status) (r : BitVec 128) : (v.complete n st r).mem = v.mem := (congrArg State.mem (h.complete_rest st r) :)

/-! A command that is taken -/

theorem consumer_ctx (h : s.consumer n = some c) : s.ctx n = some c := (Option.filter_eq_some_iff.1 h).1

theorem consumer_closing (h : s.consumer n = some c) : c.closing = [] := by
  have hp := (Option.filter_eq_some_iff.1 h).2
  simp only [LCtx.waits, Bool.and_eq_true, List.isEmpty_iff] at hp
  exact hp.1.1.1.2.2

theorem takes_ctx (h : Takes s n x opc c e u) : ∃ k, u.ctx n = some k ∧ k.closing = [] ∧ k.busy = some (BitVec.ofNat 16 (leAt e 2 2), BitVec.ofNat 8 (leAt e 0 1)) := by
  obtain ⟨hc, -, -, -, -, rfl⟩ := h
  have hk := consumer_closing hc
  exact ⟨_, ctx_modCtx_same (fun _ => rfl) (consumer_ctx hc), hk, rfl⟩

theorem takes_serving (h : Takes s n x opc c e u) : Serving u n e := takes_ctx h

theorem takes_rest (h : Takes s n x opc c e u) : { u with larcy := s.larcy } = s := by
  obtain ⟨-, -, -, -, -, rfl⟩ := h
  exact modCtx_rest _ _ _

theorem takes_parts (h : Takes s n x opc c e u) : u.parts = s.parts := (congrArg State.parts (takes_rest h) :)

theorem takes_cores (h : Takes s n x opc c e u) : u.cores = s.cores := (congrArg State.cores (takes_rest h) :)

theorem takes_mem (h : Takes s n x opc c e u) : u.mem = s.mem := (congrArg State.mem (takes_rest h) :)

theorem takes_nextJob (h : Takes s n x opc c e u) : u.larcy.nextJob = s.larcy.nextJob := by
  obtain ⟨-, -, -, -, -, rfl⟩ := h
  exact modCtx_nextJob _ _ _

theorem takes_hostUp (h : Takes s n x opc c e u) : u.hostUp = true := by
  obtain ⟨-, hh, -, -, -, rfl⟩ := h
  exact (modCtx_hostUp _ _ _).trans hh

/-- A command that is taken acts as its checks say. -/
theorem consume_takes (h : Takes s n x opc c e u) (act : State → LCtx → List Byte → List Byte → State) : s.consume n x opc act = u.judge n c x e act := by
  obtain ⟨hc, hh, hx, rfl, ho, rfl⟩ := h
  simp [State.consume, hc, hx, hh, ho]

theorem consume_passes (h : Takes s n x opc c e u) (hp : u.checkEntry c x e = .ok pb) (act : State → LCtx → List Byte → List Byte → State) : s.consume n x opc act = act u c e pb := by
  rw [consume_takes h, State.judge, hp]

/-- A queue that cannot be reached closes its context, and is counted. -/
theorem queueFault_closes (hc : s.consumer n = some c) :
    (s.queueFault n).ctx n = none ∧ (s.queueFault n).larcy.queueFaults = satAdd s.larcy.queueFaults 1 ∧ (s.queueFault n).mem = s.mem ∧ (s.queueFault n).cores = s.cores := by
  have hq : s.queueFault n = (s.dropCtx n).modLarcy fun l => { l with queueFaults := satAdd l.queueFaults 1 } := by
    rw [State.queueFault, closeCtx_drops (consumer_ctx hc) (consumer_closing hc)]
  rw [hq]
  exact ⟨ctx_dropCtx_same s n, rfl, rfl, rfl⟩

/-! The checks -/

/-- The commands of Larcy with their opcodes. -/
def larcyCommands (n : Fin 4096) (x : HostFate) : List (Nat × Instr) :=
  [(0x01, .ctxOpen n x), (0x02, .ctxClose n x), (0x10, .submit n x), (0x11, .suspend n x), (0x12, .resume n x), (0x13, .cancel n x), (0x14, .query n x),
    (0x20, .partitionStop n x), (0x21, .partitionSet n x), (0x22, .partitionStart n x), (0x30, .vaultInstall n x), (0x40, .attest n x), (0x50, .streamOpen n x), (0x51, .streamClose n x)]

/-- Each command of Larcy is consumed with its opcode, and then acts. -/
theorem exec_consumes {cmd : Instr} (hi : s.sec.instActive = false) (h : (opc, cmd) ∈ larcyCommands n x) : ∃ act, exec cmd s = .next (s.consume n x opc act) := by
  simp only [larcyCommands, List.mem_cons, List.not_mem_nil, or_false, Prod.mk.injEq] at h
  rcases h with ⟨rfl, rfl⟩ | ⟨rfl, rfl⟩ | ⟨rfl, rfl⟩ | ⟨rfl, rfl⟩ | ⟨rfl, rfl⟩ | ⟨rfl, rfl⟩ | ⟨rfl, rfl⟩ | ⟨rfl, rfl⟩ | ⟨rfl, rfl⟩ | ⟨rfl, rfl⟩ | ⟨rfl, rfl⟩ | ⟨rfl, rfl⟩ | ⟨rfl, rfl⟩ | ⟨rfl, rfl⟩
  case inr.inr.inr.inr.inr.inr.inr.inr.inr.inr.inl =>
    exact ⟨_, by rw [exec_vaultInstall, execVaultInstall, if_neg (by simp [hi])]⟩
  all_goals exact ⟨_, rfl⟩

theorem opcode_known {cmd : Instr} (h : (opc, cmd) ∈ larcyCommands n x) : knownOpcodes.contains opc = true := by
  have ho : opc ∈ (larcyCommands n x).map Prod.fst := List.mem_map_of_mem h
  exact List.elem_eq_true_of_mem ho

/-- Only an opcode with a parameter block can have a malformed one. -/
theorem blockBad_takesParam (h : takesParam opc = false) (e pb : List Byte) : blockBad opc e pb = false := by
  simp only [takesParam, Bool.or_eq_false_iff, decide_eq_false_iff_not] at h
  unfold blockBad
  split <;> simp_all

theorem checkEntry_version (hk : knownOpcodes.contains (leAt e 0 1) = true) (hv : versionLacks c.version (leAt e 0 1) e = true) : u.checkEntry c x e = .error stCmdVersion := by
  simp only [State.checkEntry, hk, hv, Bool.not_true, Bool.false_eq_true, if_false, if_true]

theorem checkEntry_malformed (hk : knownOpcodes.contains (leAt e 0 1) = true) (hv : versionLacks c.version (leAt e 0 1) e = false) (hb : entryBad (leAt e 0 1) e = true) :
    u.checkEntry c x e = .error stCmdMalformed := by
  simp only [State.checkEntry, hk, hv, hb, Bool.not_true, Bool.false_eq_true, if_false, Bool.true_or, if_true]

/-- An entry that is no malformed one is answered by who may issue it, and then by its block. -/
theorem checkEntry_wellFormed (hk : knownOpcodes.contains (leAt e 0 1) = true) (hv : versionLacks c.version (leAt e 0 1) e = false) (hb : entryBad (leAt e 0 1) e = false)
    (hp : blockBad (leAt e 0 1) e (readBytes u.mem.host (leAt e 8 8) (paramLen e)) = false) :
    (u.cmdBarred c (leAt e 0 1) e = true → u.checkEntry c x e = .error stCmdNotPermitted)
    ∧ (u.cmdBarred c (leAt e 0 1) e = false → x = .paramFails → takesParam (leAt e 0 1) = true → u.checkEntry c x e = .error stCmdParam) := by
  have hp' : blockBad (leAt e 0 1) e (if takesParam (leAt e 0 1) = true then readBytes u.mem.host (leAt e 8 8) (paramLen e) else []) = false := by
    cases ht : takesParam (leAt e 0 1) with
    | true => exact hp
    | false => exact blockBad_takesParam ht _ _
  constructor
  · intro hn
    simp only [State.checkEntry, hk, hv, hb, hp', hn, Bool.not_true, Bool.false_eq_true, Bool.and_false, Bool.or_false, if_false, if_true]
  · rintro hn rfl ht
    simp only [ht, if_true] at hp'
    simp only [State.checkEntry, hk, hv, hb, hp', hn, ht, Bool.not_true, Bool.false_eq_true, Bool.and_false, Bool.or_false, if_false, if_true, decide_true, Bool.and_true]

/-- Settles O45: each command is consumed alike, and the checks of its entry are a chain of cases in R458's order. -/
theorem larcyCommandsAreChecked : Obligations.LarcyCommandsAreChecked := by
  intro s n x opc cmd hi hcmd
  obtain ⟨act, hexec⟩ := exec_consumes hi hcmd
  rw [hexec]
  refine ⟨fun hn => ?_, fun c hc hx => ?_, fun c e u ht => ?_⟩
  · rw [State.consume, hn]
  · have hq : s.consume n x opc act = s.queueFault n := by
      rw [State.consume, hc]
      exact if_pos (by simpa using hx)
    exact ⟨_, congrArg _ hq, queueFault_closes hc⟩
  · have hs := takes_serving ht
    have hr := takes_rest ht
    have hj := consume_takes ht act
    have hop : leAt e 0 1 = opc := ht.2.2.2.2.1
    have hk : knownOpcodes.contains (leAt e 0 1) = true := hop ▸ opcode_known hcmd
    subst hop
    refine ⟨fun st hst => ?_, fun hv => checkEntry_version hk hv, fun hv hb => checkEntry_malformed hk hv hb, fun hv hb hp => checkEntry_wellFormed hk hv hb hp⟩
    have ha : u.judge n c x e act = u.complete n st 0 := by rw [State.judge, hst]
    have hrest : { u.complete n st 0 with larcy := s.larcy } = s :=
      calc { u.complete n st 0 with larcy := s.larcy } = { ({ u.complete n st 0 with larcy := u.larcy } : State) with larcy := s.larcy } := rfl
        _ = s := by rw [hs.complete_rest, hr]
    exact ⟨_, congrArg _ (hj.trans ha), hs.completes st 0, hrest⟩

end Sys2Proof.Machine
end

section

/-! PROOFS. The commands on contexts and on jobs. -/

namespace Sys2Proof.Machine

variable {s u v : State} {n m : Fin 4096} {x : HostFate} {opc : Nat} {c k : LCtx} {e pb : List Byte} {p : Fin 8} {j : Job} {id : W32}

/-! CTX_OPEN and CTX_CLOSE -/

theorem Serving.ctx_ne_none (h : Serving v n e) : v.ctx n ≠ none := by
  obtain ⟨c, hc, -⟩ := h
  simp [hc]

/-- Another context that opens leaves the command in progress. -/
theorem Serving.of_append (h : Serving v n e) (k : LCtx) : Serving (v.modLarcy fun l => { l with ctxs := l.ctxs ++ [k] }) n e := by
  obtain ⟨c, hc, hr⟩ := h
  refine ⟨c, ?_, hr⟩
  unfold State.ctx at hc ⊢
  exact (List.find?_append ..).trans (by rw [hc]; rfl)

theorem ctx_append_new (hm : v.ctx m = none) (hk : k.num = m) : (v.modLarcy fun l => { l with ctxs := l.ctxs ++ [k] }).ctx m = some k := by
  unfold State.ctx at hm ⊢
  refine (List.find?_append ..).trans ?_
  rw [hm]
  simp [hk]

theorem ctxOpen_lowest {w : Byte} (hm : (List.finRange 4096).find? (fun m => decide (m ≠ 0) && (v.ctx m).isNone) = some m) (hw : bestVersion (leAt e 42 1) (leAt e 43 1) = some w) :
    v.ctxOpen n e = (v.modLarcy fun l => { l with ctxs := l.ctxs ++ [v.newCtx m w e] }).complete n 0 (BitVec.ofNat 128 (m.val + w.toNat * 2 ^ 16)) := by
  unfold State.ctxOpen
  rw [hm, hw]

theorem ctxOpen_none (hm : (List.finRange 4096).find? (fun m => decide (m ≠ 0) && (v.ctx m).isNone) = none) : v.ctxOpen n e = v.complete n stCmdLimit := by
  unfold State.ctxOpen
  rw [hm]

theorem ctxOpen_versionless (hm : (List.finRange 4096).find? (fun m => decide (m ≠ 0) && (v.ctx m).isNone) = some m) (hw : bestVersion (leAt e 42 1) (leAt e 43 1) = none) :
    v.ctxOpen n e = v.complete n stCmdVersion := by
  unfold State.ctxOpen
  rw [hm, hw]

theorem ctxOpen_opens {w : Byte} (h : Serving v n e) (hm : (List.finRange 4096).find? (fun m => decide (m ≠ 0) && (v.ctx m).isNone) = some m)
    (hw : bestVersion (leAt e 42 1) (leAt e 43 1) = some w) :
    Completes (v.ctxOpen n e) n e 0 (BitVec.ofNat 128 (m.val + w.toNat * 2 ^ 16)) ∧ (v.ctxOpen n e).ctx m = some (v.newCtx m w e) := by
  have hnone : v.ctx m = none := by
    have := List.find?_some hm
    simp only [Bool.and_eq_true, Option.isNone_iff_eq_none] at this
    exact this.2
  have hmn : m ≠ n := fun hmn => h.ctx_ne_none (hmn ▸ hnone)
  have hs := h.of_append (v.newCtx m w e)
  rw [ctxOpen_lowest hm hw]
  exact ⟨hs.completes _ _, (hs.complete_ctx_ne _ _ hmn).trans (ctx_append_new hnone rfl)⟩

theorem ctxOpen_full (h : Serving v n e) (hall : ∀ m, m ≠ 0 → (v.ctx m).isSome = true) : Completes (v.ctxOpen n e) n e stCmdLimit 0 := by
  have hnone : (List.finRange 4096).find? (fun m => decide (m ≠ 0) && (v.ctx m).isNone) = none := by
    refine List.find?_eq_none.2 fun m _ => ?_
    by_cases hm : m = 0
    · simp [hm]
    · have := hall m hm
      cases hc : v.ctx m <;> simp_all
  rw [ctxOpen_none hnone]
  exact h.completes _ _

theorem ctxOpen_noVersion (h : Serving v n e) (hm0 : m ≠ 0) (hm : v.ctx m = none) (hw : bestVersion (leAt e 42 1) (leAt e 43 1) = none) : Completes (v.ctxOpen n e) n e stCmdVersion 0 := by
  cases hf : (List.finRange 4096).find? (fun m => decide (m ≠ 0) && (v.ctx m).isNone) with
  | none => exact absurd (Bool.and_eq_true_iff.2 ⟨decide_eq_true hm0, Option.isNone_iff_eq_none.2 hm⟩) (List.find?_eq_none.1 hf m (List.mem_finRange m))
  | some m' =>
    rw [ctxOpen_versionless hf hw]
    exact h.completes _ _

theorem ctxClose_none (h : Serving v n e) (hm : m.val = leAt e 24 2 % 4096) (hk : v.ctx m = none) : Completes (v.ctxClose n c e) n e stCmdTarget 0 := by
  have hme : (⟨leAt e 24 2 % 4096, by omega⟩ : Fin 4096) = m := Fin.ext hm.symm
  simp only [State.ctxClose, hme, hk]
  exact h.completes _ _

theorem ctxClose_self (h : Serving v n e) (hm : n.val = leAt e 24 2 % 4096) : (v.ctxClose n c e).ctx n = none := by
  have hn : (⟨leAt e 24 2 % 4096, by omega⟩ : Fin 4096) = n := Fin.ext hm.symm
  obtain ⟨k, hk, hcl, -⟩ := h
  simp only [State.ctxClose, hn, hk, if_true]
  rw [closeCtx_drops hk hcl]
  exact ctx_dropCtx_same v n

theorem ctxClose_other (h : Serving v n e) (hm : m.val = leAt e 24 2 % 4096) (hmn : m ≠ n) (hk : v.ctx m = some k) (hb : k.busy = none) (hcl : k.closing = []) :
    Completes (v.ctxClose n c e) n e 0 0 ∧ (v.ctxClose n c e).ctx m = none := by
  have hme : (⟨leAt e 24 2 % 4096, by omega⟩ : Fin 4096) = m := Fin.ext hm.symm
  simp only [State.ctxClose, hme, hk, if_neg hmn, hb, Option.isNone_none, if_true]
  rw [closeCtx_drops hk hcl]
  have hs : Serving (v.dropCtx m) n e := h.of_ctx (ctx_dropCtx_ne hmn.symm)
  exact ⟨hs.completes _ _, (hs.complete_ctx_ne _ _ hmn).trans (ctx_dropCtx_same v _)⟩

theorem ctxClose_waits {b : BitVec 16 × Byte} (hm : m.val = leAt e 24 2 % 4096) (hmn : m ≠ n) (hk : v.ctx m = some k) (hb : k.busy = some b) :
    ∃ k', (v.ctxClose n c e).ctx m = some k' ∧ k'.sqHead = k.sqTail ∧ k'.closing = k.closing ++ [(c.num, BitVec.ofNat 16 (leAt e 2 2))] := by
  have hme : (⟨leAt e 24 2 % 4096, by omega⟩ : Fin 4096) = m := Fin.ext hm.symm
  simp only [State.ctxClose, hme, hk, if_neg hmn, hb, Option.isNone_some, Bool.false_eq_true, if_false]
  exact ⟨_, ctx_modCtx_same (f := fun t => { t with sqHead := t.sqTail, closing := t.closing ++ [(c.num, BitVec.ofNat 16 (leAt e 2 2))] }) (fun _ => rfl) hk, rfl, rfl⟩

/-! SUBMIT -/

theorem submit_noPart (h : Serving v n e) (hm : v.parts[j.part].mode = .none) : Completes (v.submit n j) n e stCmdTarget 0 := by
  rw [State.submit, if_pos hm]
  exact h.completes _ _

theorem submit_queues (h : Serving v n e) (hm : v.parts[j.part].mode ≠ .none) (hr : v.refusal j = none) :
    Completes (v.submit n j) n e 0 (j.id.setWidth 128) ∧ (v.submit n j).larcy.nextJob = v.larcy.nextJob + 1
    ∧ (v.submit n j).parts[j.part].lc = v.parts[j.part].lc ++ (if j.lc then [j] else []) ∧ (v.submit n j).parts[j.part].be = v.parts[j.part].be ++ (if j.lc then [] else [j])
    ∧ (v.submit n j).cores = v.cores ∧ (v.submit n j).mem = v.mem := by
  have hs : Serving (v.countJob.enqueue j) n e := h
  have hq : (v.countJob.enqueue j).parts[j.part] = { v.parts[j.part] with lc := if j.lc then v.parts[j.part].lc ++ [j] else v.parts[j.part].lc, be := if j.lc then v.parts[j.part].be else v.parts[j.part].be ++ [j] } :=
    modPart_same ..
  have hsub : v.submit n j = (v.countJob.enqueue j).complete n 0 (jobResult j.id) := by simp only [State.submit, if_neg hm, hr]
  rw [hsub, hs.complete_parts, hs.complete_cores, hs.complete_mem, hs.complete_nextJob, hq]
  refine ⟨hs.completes _ _, rfl, ?_, ?_, rfl, rfl⟩ <;> cases j.lc <;> simp

theorem hostWrite_larcy (a : Nat) (bs : List Byte) : (s.hostWrite a bs).larcy = s.larcy := by
  unfold State.hostWrite
  split <;> rfl

theorem hostWrite_parts (a : Nat) (bs : List Byte) : (s.hostWrite a bs).parts = s.parts := by
  unfold State.hostWrite
  split <;> rfl

theorem serviceDone_larcy (t1 : Bool) (a : Nat) (bs : List Byte) : (s.serviceDone t1 a bs).larcy = s.larcy := by
  unfold State.serviceDone
  split <;> rfl

theorem serviceDone_parts (t1 : Bool) (a : Nat) (bs : List Byte) : (s.serviceDone t1 a bs).parts = s.parts := by
  unfold State.serviceDone
  split <;> rfl

theorem hostWrite_fab (a : Nat) (bs : List Byte) : (s.hostWrite a bs).fab = s.fab := by
  unfold State.hostWrite
  split <;> rfl

theorem serviceDone_fab (t1 : Bool) (a : Nat) (bs : List Byte) : (s.serviceDone t1 a bs).fab = s.fab := by
  unfold State.serviceDone
  split <;> rfl

/-- A delivered record changes its partition's records, and neither the contexts, the fabric nor the partitions before. -/
theorem deliver_form (s : State) (j : Job) (bs plog : List Byte) : ∃ (w : State) (f : List KeptRecord → List KeptRecord),
    s.deliver j bs plog = w.modPart j.part (fun p => { p with records := f p.records }) ∧ w.larcy = s.larcy ∧ w.parts = s.parts ∧ w.fab = s.fab := by
  have hsent : ∀ (u : State) (b : Bool) (a : Nat) (bs : List Byte), ∃ w : State, (if b || !(u.hostWrite a bs).hostUp then u.hostWrite a bs else (u.hostWrite a bs).serviceDone false a bs) = w
      ∧ w.larcy = u.larcy ∧ w.parts = u.parts ∧ w.fab = u.fab := fun u b a bs => by
    split
    · exact ⟨_, rfl, hostWrite_larcy a bs, hostWrite_parts a bs, hostWrite_fab a bs⟩
    · exact ⟨_, rfl, by rw [serviceDone_larcy, hostWrite_larcy], by rw [serviceDone_parts, hostWrite_parts], by rw [serviceDone_fab, hostWrite_fab]⟩
  unfold State.deliver
  cases j.sign with
  | true =>
    obtain ⟨w, hw, hr⟩ := hsent s.draw.2 j.secure j.resultAddr.toNat (bs ++ sized 2420 (Config.mldsaSign (ascii "BROAMET-RESULT") bs s.draw.1))
    exact ⟨w, fun l => (l ++ [KeptRecord.mk j.id j.ctx bs plog]).drop (l.length + 1 - 64), by rw [← hw]; rfl, hr⟩
  | false =>
    obtain ⟨w, hw, hr⟩ := hsent s j.secure j.resultAddr.toNat (bs ++ [])
    exact ⟨w, fun l => (l ++ [KeptRecord.mk j.id j.ctx bs plog]).drop (l.length + 1 - 64), by rw [← hw]; rfl, hr⟩

theorem deliver_larcy (j : Job) (bs plog : List Byte) : (s.deliver j bs plog).larcy = s.larcy := by
  obtain ⟨w, f, hd, hl, -⟩ := deliver_form s j bs plog
  exact (congrArg State.larcy hd).trans hl

theorem deliver_fab (j : Job) (bs plog : List Byte) : (s.deliver j bs plog).fab = s.fab := by
  obtain ⟨w, f, hd, -, -, hf⟩ := deliver_form s j bs plog
  exact (congrArg State.fab hd).trans hf

/-- Beside its partition's records, a delivered record leaves the partitions. -/
theorem deliver_parts_field {α : Type} {v : Part → α} (hv : ∀ x r, v { x with records := r } = v x) (j : Job) (bs plog : List Byte) (q : Fin 8) :
    v (s.deliver j bs plog).parts[q] = v s.parts[q] := by
  obtain ⟨w, f, hd, -, hp, -⟩ := deliver_form s j bs plog
  rw [hd, modPart_field (v := v) j.part (fun x => hv x _), hp]

/-- R401: the record of a job that never began says so. -/
theorem recordBytes_unbegun (j : Job) (r : RecordEnd) : (leAt (s.recordBytes j none r) 2 1).testBit 5 = true := by
  have hflags : ∃ flags rest, s.recordBytes j none r = toLE r.status.toNat 2 ++ (toLE flags 1 ++ rest) ∧ flags = j.sign.toNat + 4 * j.secure.toNat + 16 * j.hostWeights.toNat + 32 := by
    unfold State.recordBytes
    simp only [List.append_assoc]
    exact ⟨_, _, rfl, by simp⟩
  obtain ⟨flags, rest, hr, hf⟩ := hflags
  have hlt : flags < 256 ^ 1 := by
    have h1 := j.sign.toNat_le
    have h2 := j.secure.toNat_le
    have h3 := j.hostWeights.toNat_le
    omega
  rw [hr, leAt_append (by simp [length_toLE]), length_toLE, leAt_head _ hlt, hf]
  cases j.sign <;> cases j.secure <;> cases j.hostWeights <;> rfl

theorem submit_refuses {st : Status} (h : Serving v n e) (hm : v.parts[j.part].mode ≠ .none) (hr : v.refusal j = some st) :
    ∃ r, Completes (v.submit n j) n e st (j.id.setWidth 128) ∧ (v.submit n j).parts[j.part].lc = v.parts[j.part].lc ∧ (v.submit n j).parts[j.part].be = v.parts[j.part].be
      ∧ (v.submit n j).parts[j.part].records.getLast? = some r ∧ r.job = j.id ∧ leAt r.bytes 0 2 = st.toNat ∧ (leAt r.bytes 2 1).testBit 5 = true := by
  have hsub : ∃ (bs : List Byte) (ev : Event), v.submit n j = ((v.countJob.deliver j bs).log ev).complete n st (jobResult j.id) ∧ bs = v.countJob.recordBytes j none ⟨st, none, none, 0, true⟩ :=
    ⟨_, _, by simp only [State.submit, if_neg hm, hr]; rfl, rfl⟩
  obtain ⟨bs, ev, hsub, hbs⟩ := hsub
  have hcount : Serving v.countJob n e := h
  have hs : Serving ((v.countJob.deliver j bs).log ev) n e := hcount.of_larcy (deliver_larcy (s := v.countJob) j bs [])
  have hparts : (v.submit n j).parts = (v.countJob.deliver j bs).parts := by
    rw [hsub]
    exact hs.complete_parts _ _
  rw [hparts]
  refine ⟨_, hsub ▸ hs.completes _ _, deliver_parts_field (s := v.countJob) (v := Part.lc) (fun _ _ => rfl) j bs [] _, deliver_parts_field (s := v.countJob) (v := Part.be) (fun _ _ => rfl) j bs [] _,
    deliver_records j bs [], rfl, ?_, ?_⟩
  · exact hbs ▸ recordBytes_status j none _
  · exact hbs ▸ recordBytes_unbegun j _

/-! SUSPEND, RESUME, CANCEL, QUERY -/

/-- A command on a job acts where the context may name it. -/
theorem jobCommand_passes (h : Takes s n x opc c e u) (hp : u.checkEntry c x e = .ok pb) (act : State → List Byte → W32 → State) :
    s.jobCommand n x opc act = if u.ownsJob c (BitVec.ofNat 32 (leAt e 24 4)) then act u e (BitVec.ofNat 32 (leAt e 24 4)) else u.complete n stCmdTarget :=
  consume_passes h hp _

theorem heldJob_task {k : Task} (h : s.heldJob id = some (p, k)) : s.parts[p].task = some k := by
  obtain ⟨q, -, hq⟩ := List.exists_of_findSome?_eq_some h
  obtain ⟨t, ht, heq⟩ := Option.map_eq_some_iff.1 hq
  cases heq
  exact (Option.filter_eq_some_iff.1 ht).1

theorem takes_heldJob (h : Takes s n x opc c e u) (id : W32) : u.heldJob id = s.heldJob id := by
  unfold State.heldJob
  rw [takes_parts h]

theorem takes_queuedJob (h : Takes s n x opc c e u) (id : W32) : u.queuedJob id = s.queuedJob id := by
  unfold State.queuedJob
  rw [takes_parts h]

theorem suspendJob_held {k : Task} {ep : W32} (h : Serving v n e) (hk : v.heldJob id = some (p, k)) :
    Completes ((v.suspendJob id ep).complete n 0) n e 0 0 ∧ ((v.suspendJob id ep).complete n 0).parts[p].task = some (if k.cancel then k else { k with suspendAt := some ep })
    ∧ ((v.suspendJob id ep).complete n 0).cores = v.cores := by
  have hs : Serving (v.suspendJob id ep) n e := by
    simp only [State.suspendJob, hk]
    exact h
  rw [hs.complete_parts, hs.complete_cores]
  refine ⟨hs.completes _ _, ?_, ?_⟩
  · simp only [State.suspendJob, hk]
    rw [modTask_task_same, heldJob_task hk, Option.map_some]
  · simp only [State.suspendJob, hk]
    rfl

theorem modCores_larcy (gs : List (Fin 512)) (f : Fin 512 → Core → Core) : (s.modCores gs f).larcy = s.larcy :=
  foldl_keeps_field (v := State.larcy) (by exact fun _ _ => rfl) _ _

theorem resume_larcy (p : Fin 8) : (v.resume p).larcy = v.larcy := by
  rw [State.resume, modPart_larcy, modTask_larcy, modCores_larcy]

theorem resume_cores (p : Fin 8) : (v.resume p).cores = (v.modCores (v.members p) fun _ (c : Core) => { c with mode := if c.mode = CoreMode.suspended then CoreMode.run else c.mode }).cores := by
  rw [State.resume, modPart_cores, modTask_cores]

theorem resumeJob_suspended {k : Task} (h : Serving v n e) (hk : v.heldJob id = some (p, k)) (hph : k.phase = .suspended) (he : k.ending = none) :
    Completes ((v.resumeJob id).complete n 0) n e 0 0 ∧ ((v.resumeJob id).complete n 0).parts[p].task = some { k with phase := .running }
    ∧ (v.parts[p].mode = .suspended → ((v.resumeJob id).complete n 0).parts[p].mode = .running)
    ∧ (∀ g, g ∈ v.members p → ((v.resumeJob id).complete n 0).core g = { v.core g with mode := if (v.core g).mode = .suspended then .run else (v.core g).mode })
    ∧ (∀ g, g ∉ v.members p → ((v.resumeJob id).complete n 0).core g = v.core g) := by
  have hres : v.resumeJob id = v.resume p := by
    simp only [State.resumeJob, hk, hph, he, Option.isNone_none, and_self, if_true]
  have hs : Serving (v.resume p) n e := h.of_larcy (resume_larcy p)
  have hcore : ∀ g, ((v.resume p).complete n 0).core g = if g ∈ v.members p then { v.core g with mode := if (v.core g).mode = .suspended then .run else (v.core g).mode } else v.core g := fun g => by
    unfold State.core
    rw [hs.complete_cores, resume_cores]
    refine modCores_core_idempotent (f := fun c : Core => { c with mode := if c.mode = CoreMode.suspended then CoreMode.run else c.mode }) (fun c => ?_) (v.members p) v g
    cases c.mode <;> rfl
  have hpart : (v.resume p).parts[p] = { v.parts[p] with task := some { k with phase := .running }, mode := if v.parts[p].mode = .suspended then .running else v.parts[p].mode } := by
    unfold State.resume
    rw [modPart_same, State.modTask, modPart_same, modCores_parts, heldJob_task hk]
    rfl
  rw [hres]
  refine ⟨hs.completes _ _, ?_, fun hm => ?_, fun g hg => ?_, fun g hg => ?_⟩
  · rw [hs.complete_parts, hpart]
  · rw [hs.complete_parts, hpart, if_pos hm]
  · rw [hcore, if_pos hg]
  · rw [hcore, if_neg hg]

theorem cancelJob_held {k : Task} {now : Bool} (h : Serving v n e) (hk : v.heldJob id = some (p, k)) (he : k.ending = none) :
    ∃ k', Completes ((v.cancelJob id now).complete n 0) n e 0 0 ∧ ((v.cancelJob id now).complete n 0).parts[p].task = some k' ∧ ((v.cancelJob id now).complete n 0).cores = v.cores
      ∧ ((k.phase = .suspended ∨ now = true) → k'.ending.map (·.status) = some 0x0001) ∧ (k.phase ≠ .suspended → now = false → k' = { k with cancel := true, suspendAt := none }) := by
  by_cases hc : k.phase = TaskPhase.suspended ∨ now = true
  · have hres : v.cancelJob id now = v.endTask p (v.unitEnding stCancelled 0 0 0) := by simp only [State.cancelJob, hk, if_pos hc]
    have hs : Serving (v.cancelJob id now) n e := hres ▸ h
    rw [hs.complete_parts, hs.complete_cores, hres]
    refine ⟨{ k with ending := some (v.unitEnding stCancelled 0 0 0) }, hres ▸ hs.completes _ _, ?_, rfl, fun _ => rfl, fun h1 h2 => absurd hc (by simp [h1, h2])⟩
    rw [State.endTask, modTask_task_same, heldJob_task hk, Option.map_some, he]
  · have hres : v.cancelJob id now = v.modTask p fun t => { t with cancel := true, suspendAt := none } := by simp only [State.cancelJob, hk, if_neg hc]
    have hs : Serving (v.cancelJob id now) n e := hres ▸ h
    rw [hs.complete_parts, hs.complete_cores, hres]
    refine ⟨_, hres ▸ hs.completes _ _, ?_, rfl, fun h1 => absurd h1 hc, fun _ _ => rfl⟩
    rw [modTask_task_same, heldJob_task hk, Option.map_some]

/-- A queued job that ends leaves its queue, delivers its record, and is announced. -/
theorem endQueued_form (s : State) (j : Job) (st : Status) (d : BitVec 192) : ∃ (bs : List Byte) (ev : Event) (le : LEvent),
    s.endQueued j st d = (((s.modPart j.part fun p => { p with lc := p.lc.filter (·.id ≠ j.id), be := p.be.filter (·.id ≠ j.id) }).deliver j bs).pushEvent j.ctx le).log ev
    ∧ leAt bs 0 2 = st.toNat := by
  unfold State.endQueued
  exact ⟨_, _, _, rfl, recordBytes_status _ _ _⟩

/-- R396: a queued job that ends leaves its queue, and its record is the last that its partition keeps. -/
theorem endQueued_ends (s : State) (j : Job) (st : Status) :
    (∀ y ∈ (s.endQueued j st).parts[j.part].lc ++ (s.endQueued j st).parts[j.part].be, y.id ≠ j.id)
    ∧ ∃ r, (s.endQueued j st).parts[j.part].records.getLast? = some r ∧ r.job = j.id ∧ leAt r.bytes 0 2 = st.toNat := by
  obtain ⟨bs, ev, le, hend, hbs⟩ := endQueued_form s j st 0
  have hparts : (s.endQueued j st).parts = ((s.modPart j.part fun p => { p with lc := p.lc.filter (·.id ≠ j.id), be := p.be.filter (·.id ≠ j.id) }).deliver j bs).parts := by
    rw [hend]
    exact pushEvent_parts j.ctx le
  rw [hparts, deliver_parts_field (v := Part.lc) (fun _ _ => rfl) j bs [], deliver_parts_field (v := Part.be) (fun _ _ => rfl) j bs [], modPart_same]
  refine ⟨fun y hy => ?_, _, deliver_records j bs [], rfl, hbs⟩
  rcases List.mem_append.1 hy with hy | hy <;> simpa using (List.mem_filter.1 hy).2

/-- An event that pends leaves the command in progress. -/
theorem Serving.of_pushEvent (h : Serving v n e) (w : Option (Fin 4096)) (ev : LEvent) : Serving (v.pushEvent w ev) n e := by
  cases w with
  | none => exact h
  | some m =>
    obtain ⟨c, hc, hcl, hb⟩ := h
    by_cases hm : m = n
    · subst hm
      exact ⟨_, ctx_modCtx_same (f := fun c => { c with events := c.events ++ [ev] }) (fun _ => rfl) hc, hcl, hb⟩
    · exact ⟨c, (ctx_modCtx_ne (f := fun c => { c with events := c.events ++ [ev] }) (fun _ => rfl) (Ne.symm hm)).trans hc, hcl, hb⟩

theorem Serving.of_endQueued (h : Serving v n e) (j : Job) (st : Status) : Serving (v.endQueued j st) n e := by
  obtain ⟨bs, ev, le, hend, -⟩ := endQueued_form v j st 0
  have hs : Serving ((v.modPart j.part fun p => { p with lc := p.lc.filter (·.id ≠ j.id), be := p.be.filter (·.id ≠ j.id) }).deliver j bs) n e := h.of_larcy (deliver_larcy j bs [])
  rw [hend]
  exact hs.of_pushEvent j.ctx le

theorem queuedJob_id (h : s.queuedJob id = some j) : j.id = id := of_decide_eq_true (List.find?_some (p := fun j : Job => decide (j.id = id)) h)

theorem cancelJob_queued {now : Bool} (h : Serving v n e) (hn : v.heldJob id = none) (hj : v.queuedJob id = some j) :
    ∃ r, Completes ((v.cancelJob id now).complete n 0) n e 0 0 ∧ (∀ y ∈ ((v.cancelJob id now).complete n 0).parts[j.part].lc ++ ((v.cancelJob id now).complete n 0).parts[j.part].be, y.id ≠ id)
      ∧ ((v.cancelJob id now).complete n 0).parts[j.part].records.getLast? = some r ∧ r.job = id ∧ leAt r.bytes 0 2 = 1 := by
  have hres : v.cancelJob id now = v.endQueued j stCancelled := by simp only [State.cancelJob, hn, hj]
  have hs : Serving (v.cancelJob id now) n e := hres ▸ h.of_endQueued j stCancelled
  obtain ⟨hgone, r, hr, hjob, hst⟩ := endQueued_ends v j stCancelled
  rw [queuedJob_id hj] at hgone hjob
  rw [hs.complete_parts, hres]
  exact ⟨r, hres ▸ hs.completes _ _, hgone, hr, hjob, hst⟩

theorem query_answers {st : Status} {q a : Nat} {bs : List Byte} (h : Serving v n e) (hup : v.hostUp = true) (hw : Memory.wf v.mem.host = true) :
    let t := (if a = 0 then v else v.hostWrite a bs).complete n st (queryResult id q)
    Completes t n e st (BitVec.ofNat 128 (id.toNat + q * 2 ^ 32)) ∧ (a = 0 → t.mem = v.mem) ∧ (a ≠ 0 → readBytes t.mem.host a bs.length = bs) := by
  have hs : Serving (if a = 0 then v else v.hostWrite a bs) n e := by
    split
    · exact h
    · rw [State.hostWrite, if_pos hup]
      exact h
  refine ⟨hs.completes _ _, fun ha => ?_, fun ha => ?_⟩
  · rw [hs.complete_mem, if_pos ha]
  · rw [hs.complete_mem, if_neg ha, State.hostWrite, if_pos hup]
    exact readBytes_writeBytes a bs hw

/-- A command on a job is checked to name one that its context may name. -/
theorem exec_jobCommand {cmd : Instr} (h : (opc, cmd) ∈ ([(0x11, .suspend n x), (0x12, .resume n x), (0x13, .cancel n x), (0x14, .query n x)] : List (Nat × Instr))) :
    ∃ act, exec cmd s = .next (s.jobCommand n x opc act) := by
  simp only [List.mem_cons, List.not_mem_nil, or_false, Prod.mk.injEq] at h
  rcases h with ⟨rfl, rfl⟩ | ⟨rfl, rfl⟩ | ⟨rfl, rfl⟩ | ⟨rfl, rfl⟩ <;> exact ⟨_, rfl⟩

/-- A field of bytes fits its width. -/
theorem leAt_lt (bs : List Byte) (lo w : Nat) : leAt bs lo w < 2 ^ (8 * w) := by
  have h := leNat_lt ((bs.drop lo).take w)
  have hl : ((bs.drop lo).take w).length ≤ w := by simp
  calc leAt bs lo w < 256 ^ ((bs.drop lo).take w).length := h
    _ ≤ 256 ^ w := Nat.pow_le_pow_right (by decide) hl
    _ = 2 ^ (8 * w) := by rw [Nat.pow_mul]

/-- The context that a CTX_OPEN entry describes, field by field. -/
theorem newCtx_fields (u : State) (m : Fin 4096) (w : Byte) (e : List Byte) :
    let k := u.newCtx m w e
    k.version = w ∧ k.sqAddr.toNat = leAt e 24 8 ∧ k.cqAddr.toNat = leAt e 32 8 ∧ k.sqLog = leAt e 40 1 ∧ k.cqLog = leAt e 41 1 ∧ k.admin = (leAt e 44 1).testBit 0
      ∧ k.irq = (leAt e 44 1).testBit 1 ∧ k.sqHead = 0 ∧ k.sqTail = 0 ∧ k.cqHead = 0 ∧ k.cqTail = 0 ∧ k.phase = true := by
  have hsq : (BitVec.ofNat 64 (leAt e 24 8)).toNat = leAt e 24 8 := Nat.mod_eq_of_lt (leAt_lt e 24 8)
  have hcq : (BitVec.ofNat 64 (leAt e 32 8)).toNat = leAt e 32 8 := Nat.mod_eq_of_lt (leAt_lt e 32 8)
  exact ⟨rfl, hsq, hcq, rfl, rfl, rfl, rfl, rfl, rfl, rfl, rfl, rfl⟩

/-- The job that a SUBMIT entry describes, field by field. -/
theorem submitJob_fields (h : Takes s n x opc c e u) :
    let j := u.submitJob c e pb
    j.id = u.larcy.nextJob ∧ j.ctx = some c.num ∧ j.part.val = leAt e 24 1 % 8 ∧ j.lc = decide (leAt e 25 1 = 0) ∧ j.key.toNat = leAt e 40 8 ∧ j.seed.toNat = leAt e 48 8
      ∧ j.resultAddr.toNat = leAt e 56 8 ∧ j.arrived = s.now := by
  have h1 : (BitVec.ofNat 64 (leAt e 40 8)).toNat = leAt e 40 8 := Nat.mod_eq_of_lt (leAt_lt e 40 8)
  have h2 : (BitVec.ofNat 64 (leAt e 48 8)).toNat = leAt e 48 8 := Nat.mod_eq_of_lt (leAt_lt e 48 8)
  have h3 : (BitVec.ofNat 64 (leAt e 56 8)).toNat = leAt e 56 8 := Nat.mod_eq_of_lt (leAt_lt e 56 8)
  have hnow : u.now = s.now := (congrArg State.now (takes_rest h) :)
  exact ⟨rfl, rfl, rfl, rfl, h1, h2, h3, hnow⟩

/-- Settles O46: each command leaves its queue as the command in progress, acts by the lemma about it, and completes. -/
theorem contextAndJobCommandsAct : Obligations.ContextAndJobCommandsAct := by
  rintro s n x opc c e pb u id hw ht hp rfl
  have hs := takes_serving ht
  have hparts := takes_parts ht
  have hcores := takes_cores ht
  have hmem := takes_mem ht
  have hhost : Memory.wf u.mem.host = true := by
    obtain ⟨⟨-, hhost, -⟩, -⟩ := hw
    exact hmem ▸ hhost
  have hheld := takes_heldJob ht
  have hqueued := takes_queuedJob ht
  have hhu := takes_hostUp ht
  have hmembers : u.members = s.members := by
    funext p
    unfold State.members State.inPart State.partSize State.core
    rw [hparts, hcores]
  refine ⟨?_, ?_, ?_, ?_, ?_⟩
  · rintro rfl
    have hexec : exec (.ctxOpen n x) s = .next (u.ctxOpen n e) := by rw [exec_ctxOpen, execCtxOpen, consume_passes ht hp]
    refine ⟨fun m w hm hv => ?_, fun hall => ⟨_, hexec, ctxOpen_full hs hall⟩, fun m hm0 hm hv => ⟨_, hexec, ctxOpen_noVersion hs hm0 hm hv⟩⟩
    obtain ⟨hdone, hctx⟩ := ctxOpen_opens hs hm hv
    exact ⟨_, _, hexec, hdone, hctx, newCtx_fields u m w e⟩
  · rintro m rfl hm
    have hexec : exec (.ctxClose n x) s = .next (u.ctxClose n c e) := by rw [exec_ctxClose, execCtxClose, consume_passes ht hp]
    refine ⟨fun hk => ⟨_, hexec, ctxClose_none hs hm hk⟩, fun hmn => ⟨_, hexec, ctxClose_self hs (hmn ▸ hm)⟩, fun k hmn hk hb hcl => ⟨_, hexec, ctxClose_other hs hm hmn hk hb hcl⟩,
      fun k b hmn hk hb => ?_⟩
    obtain ⟨k', hk', hr⟩ := ctxClose_waits (c := c) (e := e) hm hmn hk hb
    exact ⟨_, k', hexec, hk', hr⟩
  · rintro j rfl hj
    have hexec : exec (.submit n x) s = .next (u.submit n j) := by rw [exec_submit, execSubmit, consume_passes ht hp, hj]
    have hpart : s.parts[j.part] = u.parts[j.part] := by rw [hparts]
    rw [hpart, ← hcores, ← hmem, ← takes_nextJob ht]
    refine ⟨fun hm => ⟨_, hexec, submit_noPart hs hm⟩, fun hm hr => ⟨_, hexec, submit_queues hs hm hr⟩, fun st hm hr => ?_, ?_⟩
    · obtain ⟨r, hr⟩ := submit_refuses hs hm hr
      exact ⟨_, r, hexec, hr⟩
    · rw [hj]
      exact submitJob_fields ht
  · intro cmd hcmd hown
    obtain ⟨act, hexec⟩ := exec_jobCommand (s := s) hcmd
    refine ⟨_, hexec.trans ?_, hs.completes stCmdTarget 0⟩
    rw [jobCommand_passes ht hp, hown, if_neg Bool.false_ne_true]
  · intro hown
    have hact : ∀ act : State → List Byte → W32 → State, s.jobCommand n x opc act = act u e (BitVec.ofNat 32 (leAt e 24 4)) := fun act => by
      rw [jobCommand_passes ht hp, hown, if_pos rfl]
    refine ⟨?_, ?_, ?_, ?_, ?_⟩
    · rintro p k rfl hk
      refine ⟨_, by rw [exec_suspend, execSuspend, hact], ?_⟩
      rw [← hcores]
      exact suspendJob_held hs ((hheld _).trans hk)
    · rintro p k rfl hk hph he
      refine ⟨_, by rw [exec_resume, execResume, hact], ?_⟩
      have hr := resumeJob_suspended hs ((hheld _).trans hk) hph he
      have hcore : u.core = s.core := by
        unfold State.core
        rw [hcores]
      rw [hmembers, hparts, hcore] at hr
      exact hr
    · rintro p k rfl hk he
      obtain ⟨k', hr⟩ := cancelJob_held (now := (leAt e 28 1).testBit 0) hs ((hheld _).trans hk) he
      refine ⟨_, k', by rw [exec_cancel, execCancel, hact], ?_⟩
      rw [← hcores]
      exact hr
    · rintro j rfl hn hj
      obtain ⟨r, hr⟩ := cancelJob_queued (now := (leAt e 28 1).testBit 0) hs ((hheld _).trans hn) ((hqueued _).trans hj)
      exact ⟨_, r, by rw [exec_cancel, execCancel, hact], hr⟩
    · rintro st k bs rfl hq
      refine ⟨_, by rw [exec_query, execQuery, hact, hq], ?_⟩
      rw [← hmem]
      exact query_answers hs hhu hhost

end Sys2Proof.Machine
end

section

/-! PROOFS. A vault whose memory is not in its canonical form. -/

namespace Sys2Proof.Machine

open Sys2Proof.Tests

/-- One region is written whether its digest matches or not (R484). -/
theorem writeRegions_one (s : State) (r : Region) : (s.writeRegions [r]).1 = s.writeRegion r := by
  unfold State.writeRegions
  split <;> rfl

/-- The first byte of the vault. -/
def firstByte : Region := ⟨0, 0, 1, 0, 0, 0⟩

/-- An installation of the vault's first byte, where that byte stands twice in the vault's memory. -/
def vaultTwice : State := { up with mem := { up.mem with vault := [(0, 1), (0, 2)] }, sec := { up.sec with install := some ⟨0, [firstByte], 0, 0⟩ } }

/-- Refutes O47: its clause on one region has no hypothesis on the vault's memory. Where that memory is not in its canonical form and holds a byte twice, the 0 that an installation writes there uncovers
the second one, and the byte reads as 2. -/
theorem not_partitionVaultAndStreamCommandsAct : ¬ Obligations.PartitionVaultAndStreamCommandsAct := by
  rintro ⟨-, h⟩
  obtain ⟨-, -, -, hregion⟩ := h vaultTwice _ _ rfl rfl
  have hread := (hregion firstByte rfl).2 0
  have hfirst : (vaultTwice.writeRegions [firstByte]).1 = vaultTwice.writeRegion firstByte := writeRegions_one _ _
  rw [hfirst] at hread
  revert hread
  decide +kernel

end Sys2Proof.Machine
end

section

/-! PROOFS. Posting, residency, doorbells and context 0. -/

namespace Sys2Proof.Machine

variable {s : State} {n : Fin 4096} {c : LCtx} {f : LCtx → LCtx} {bs : List Byte}

/-! Posting -/

theorem poster_ctx (h : s.poster n = some c) : s.ctx n = some c := (Option.filter_eq_some_iff.1 h).1

theorem length_queueEntry (c : LCtx) (cid : BitVec 16) (st : Status) (opc kind : Nat) (r : BitVec 128) : (queueEntry c cid st opc kind r).length = 32 := by
  simp only [queueEntry, List.length_append, length_toLE]

theorem modCtx_msixSent (s : State) (n : Fin 4096) (f : LCtx → LCtx) : (s.modCtx n f).larcy.msixSent = s.larcy.msixSent := by
  conv_rhs => rw [← modCtx_larcy s n f]

theorem modCtx_mem (s : State) (n : Fin 4096) (f : LCtx → LCtx) : (s.modCtx n f).mem = s.mem := (congrArg State.mem (modCtx_rest s n f) :)

theorem modCtx_cores (s : State) (n : Fin 4096) (f : LCtx → LCtx) : (s.modCtx n f).cores = s.cores := (congrArg State.cores (modCtx_rest s n f) :)

theorem sendMsix_ctx (m : Fin 4096) : (s.sendMsix c).ctx m = s.ctx m := by
  unfold State.sendMsix
  split <;> rfl

theorem sendMsix_mem : (s.sendMsix c).mem = s.mem := by
  unfold State.sendMsix
  split <;> rfl

theorem sendMsix_cores : (s.sendMsix c).cores = s.cores := by
  unfold State.sendMsix
  split <;> rfl

theorem sendMsix_msixSent : (s.sendMsix c).larcy.msixSent = s.larcy.msixSent ++ (if c.irq then [c.vector] else []) := by
  unfold State.sendMsix
  split
  · rfl
  · rw [List.append_nil]

/-- R447: an entry stands at the completion tail, which moves past it; its message is sent. -/
theorem post_posts (hw : Memory.wf s.mem.host = true) (hc : s.ctx n = some c) (hup : s.hostUp = true) (hbs : bs.length = 32) (hf : ∀ c, (f c).num = c.num) :
    (s.post n c bs f).ctx n = some ((f c).posted.refresh s.now) ∧ readBytes (s.post n c bs f).mem.host (c.cqAddr.toNat + 32 * c.cqTail) 32 = bs
    ∧ (s.post n c bs f).larcy.msixSent = s.larcy.msixSent ++ (if c.irq then [c.vector] else []) ∧ (s.post n c bs f).cores = s.cores ∧ { (s.post n c bs f).mem with host := s.mem.host } = s.mem := by
  have hwrite : s.hostWrite (c.cqAddr.toNat + 32 * c.cqTail) bs = { s with mem := { s.mem with host := writeBytes s.mem.host (c.cqAddr.toNat + 32 * c.cqTail) bs } } := by
    rw [State.hostWrite, if_pos hup]
  have hctx : (s.hostWrite (c.cqAddr.toNat + 32 * c.cqTail) bs).ctx n = some c := by
    rw [hwrite]
    exact hc
  have hnow : (s.hostWrite (c.cqAddr.toNat + 32 * c.cqTail) bs).now = s.now := by rw [hwrite]
  have hmem : (s.post n c bs f).mem = { s.mem with host := writeBytes s.mem.host (c.cqAddr.toNat + 32 * c.cqTail) bs } := by
    rw [State.post, sendMsix_mem, modCtx_mem, hwrite]
  refine ⟨?_, ?_, ?_, ?_, by rw [hmem]⟩
  · rw [State.post, sendMsix_ctx, ctx_modCtx_same (f := fun c => (f c).posted) (fun c => hf c) hctx, hnow]
  · rw [hmem, ← hbs]
    exact readBytes_writeBytes _ bs hw
  · rw [State.post, sendMsix_msixSent, modCtx_msixSent, hostWrite_larcy]
  · rw [State.post, sendMsix_cores, modCtx_cores, hwrite]

/-- The fields of a context past an entry (R447). -/
theorem posted_fields (c : LCtx) (now : Nat) : (c.posted.refresh now).cqTail = (c.cqTail + 1) % 2 ^ c.cqLog
    ∧ (c.posted.refresh now).phase = (if (c.posted.refresh now).cqTail = 0 then !c.phase else c.phase) ∧ (c.posted.refresh now).done = c.done ∧ (c.posted.refresh now).events = c.events :=
  ⟨rfl, rfl, rfl, rfl⟩

theorem completionPost_posts {d : Completion} {ok : Bool} (hp : s.poster n = some c) (hd : c.done = some d) :
    exec (.completionPost n ok) s = .next (if !ok || !s.hostUp then s.queueFault n else s.post n c (queueEntry c d.cid d.status d.opc.toNat 0 d.result) fun c => { c with done := none }) := by
  rw [exec_completionPost, execCompletionPost, hp]
  simp only [hd]

theorem eventPost_posts {d : LEvent} {r : List LEvent} {ok : Bool} (hp : s.poster n = some c) (hd : c.events = d :: r) :
    exec (.eventPost n ok) s = .next (if !ok || !s.hostUp then s.queueFault n else s.post n c (queueEntry c 0 d.status 0 (1 + d.stream.toNat) (d.id.setWidth 128)) fun c => { c with events := r }) := by
  rw [exec_eventPost, execEventPost, hp]
  simp only [hd]

/-! Residency -/

/-- A context that becomes resident joins no list. -/
theorem modCtx_waiting_resident (hf : ∀ c, (f c).num = c.num) (hc : s.ctx n = some c) (hr : (f c).resident = true) : (s.modCtx n f).larcy.waiting = s.larcy.waiting := by
  have hctx : (s.modLarcy fun l => { l with ctxs := l.ctxs.map fun c => if c.num = n then (f c).refresh s.now else c }).ctx n = some ((f c).refresh s.now) := by
    have := ctx_modCtx_same hf hc
    unfold State.ctx at this ⊢
    rw [modCtx_ctxs] at this
    exact this
  have hres : ((f c).refresh s.now).resident = true := hr
  unfold State.modCtx
  simp only [hctx, hres, Bool.not_true, Bool.and_false, Bool.false_and, Bool.false_eq_true, if_false]
  rfl

theorem loadHead_loads {rest : List (Fin 4096)} (hw : s.larcy.waiting = n :: rest) (hc : s.ctx n = some c) :
    (s.loadHead n).larcy.waiting = rest ∧ (∃ k, (s.loadHead n).ctx n = some k ∧ k.resident = true ∧ k.loadedAt = s.now) ∧ { s.loadHead n with larcy := s.larcy } = s := by
  have hc' : (s.modLarcy fun l => { l with waiting := l.waiting.drop 1 }).ctx n = some c := hc
  have hctx := ctx_modCtx_same (f := fun c => { c with resident := true, loadedAt := s.now, served := false }) (fun _ => rfl) hc'
  refine ⟨?_, ⟨_, hctx, rfl, rfl⟩, ?_⟩
  · rw [State.loadHead, modCtx_waiting_resident (f := fun c => { c with resident := true, loadedAt := s.now, served := false }) (fun _ => rfl) hc' rfl]
    simp [State.modLarcy, hw]
  · have hrest := modCtx_rest (s.modLarcy fun l => { l with waiting := l.waiting.drop 1 }) n fun c => { c with resident := true, loadedAt := s.now, served := false }
    exact (congrArg (fun t : State => { t with larcy := s.larcy }) hrest :)

theorem contextSwap_head {rest : List (Fin 4096)} (hw : s.larcy.waiting = n :: rest) :
    exec .contextSwap s = .next (if (s.larcy.ctxs.filter (·.resident)).length < 256 then s.loadHead n else s.victim.elim s fun v => (s.loadHead n).evict v.num) := by
  rw [exec_contextSwap, execContextSwap, hw]
  cases s.victim <;> rfl

/-! Doorbells and context 0 -/

theorem sqTailDoorbell_acts {v : BitVec 32} (hd : s.larcy.d3hot = false) (hc : s.ctx n = some c) :
    exec (.sqTailDoorbell n v) s = .next (if v.toNat % 4096 < 2 ^ c.sqLog then s.modCtx n fun c => { c with sqTail := v.toNat % 4096 } else s) := by
  rw [exec_sqTailDoorbell, execSqTailDoorbell, State.barWrite, hd, if_neg Bool.false_ne_true, State.writeDoorbell, hc]
  exact congrArg _ (if_neg Bool.false_ne_true)

theorem cqHeadDoorbell_acts {v : BitVec 32} (hd : s.larcy.d3hot = false) (hc : s.ctx n = some c) :
    exec (.cqHeadDoorbell n v) s = .next (if v.toNat % 4096 < 2 ^ c.cqLog then s.modCtx n fun c => { c with cqHead := v.toNat % 4096 } else s) := by
  rw [exec_cqHeadDoorbell, execCqHeadDoorbell, State.barWrite, hd, if_neg Bool.false_ne_true, State.writeDoorbell, hc]
  exact congrArg _ (if_pos rfl)

theorem context0Open_acts {v : BitVec 32} (hd : s.larcy.d3hot = false) (hv : v.getLsbD 31 = true) (he : s.larcy.enable = false) : exec (.context0Open v) s = .next (s.storeLarcyCtl v).openZero := by
  rw [exec_context0Open, execContext0Open, if_pos hv, State.barWrite, hd, if_neg Bool.false_ne_true, State.writeLarcyCtl, if_pos hv, he, if_neg Bool.false_ne_true]

theorem context0Close_acts {v : BitVec 32} (hd : s.larcy.d3hot = false) (hv : v.getLsbD 31 = false) (he : s.larcy.enable = true) :
    exec (.context0Close v) s = .next ((s.storeLarcyCtl v).closeCtx 0) := by
  rw [exec_context0Close, execContext0Close, hv, if_neg Bool.false_ne_true, State.barWrite, hd, if_neg Bool.false_ne_true, State.writeLarcyCtl, hv, if_neg Bool.false_ne_true, if_pos he]

theorem storeLarcyCtl_verMax (v : BitVec 32) : (s.storeLarcyCtl v).larcy.verMax.toNat = v.toNat / 256 % 256 := by
  change (BitVec.ofNat 8 (bits v 15 8)).toNat = _
  simp [bits, Nat.shiftRight_eq_div_pow]

theorem openZero_opens {v : BitVec 32} {w : Byte} (hw : bestVersion 0 (v.toNat / 256 % 256) = some w) :
    ∃ k, (s.storeLarcyCtl v).openZero.larcy.enable = true ∧ (s.storeLarcyCtl v).openZero.larcy.verFail = false ∧ (s.storeLarcyCtl v).openZero.larcy.ver = w ∧ (s.storeLarcyCtl v).openZero.ctx 0 = some k
      ∧ k.admin = true ∧ k.sqAddr = BitVec.ofNat 64 (s.larcy.sq0Hi.toNat * 2 ^ 32 + s.larcy.sq0Lo.toNat * 4096) ∧ k.cqAddr = BitVec.ofNat 64 (s.larcy.cq0Hi.toNat * 2 ^ 32 + s.larcy.cq0Lo.toNat * 4096)
      ∧ k.sqHead = 0 ∧ k.sqTail = 0 ∧ k.cqHead = 0 ∧ k.cqTail = 0 ∧ { (s.storeLarcyCtl v).openZero with larcy := s.larcy } = s := by
  unfold State.openZero
  rw [storeLarcyCtl_verMax, hw]
  exact ⟨_, rfl, rfl, rfl, rfl, rfl, rfl, rfl, rfl, rfl, rfl, rfl, rfl⟩

theorem openZero_fails {v : BitVec 32} (hw : bestVersion 0 (v.toNat / 256 % 256) = none) (he : s.larcy.enable = false) :
    (s.storeLarcyCtl v).openZero.larcy.verFail = true ∧ (s.storeLarcyCtl v).openZero.larcy.ver = 0 ∧ (s.storeLarcyCtl v).openZero.larcy.enable = false
    ∧ (s.storeLarcyCtl v).openZero.larcy.ctxs = s.larcy.ctxs := by
  unfold State.openZero
  rw [storeLarcyCtl_verMax, hw]
  exact ⟨rfl, rfl, he, rfl⟩

theorem closeZero_closes {v : BitVec 32} {k : LCtx} (hk : s.ctx 0 = some k) (hcl : k.closing = []) :
    ((s.storeLarcyCtl v).closeCtx 0).larcy.enable = false ∧ ((s.storeLarcyCtl v).closeCtx 0).larcy.ver = 0 ∧ ((s.storeLarcyCtl v).closeCtx 0).ctx 0 = none
    ∧ ((s.storeLarcyCtl v).closeCtx 0).cores = s.cores := by
  have hctx : (s.storeLarcyCtl v).ctx 0 = some k := hk
  rw [closeCtx_drops hctx hcl]
  exact ⟨rfl, rfl, ctx_dropCtx_same _ 0, rfl⟩

/-- Settles O48: an entry is one write behind its context's tail; the rest are changes of one context or of context 0. -/
theorem entriesArePostedAndQueuesMove : Obligations.EntriesArePostedAndQueuesMove := by
  intro s n c hw
  obtain ⟨⟨-, hhost, -⟩, -⟩ := hw
  refine ⟨?_, ?_, ?_, ?_, ?_, ?_⟩
  · rintro cmd bs hp hup (⟨rfl, d, hd, rfl⟩ | ⟨rfl, d, r, hd, rfl⟩)
    · have htrue := completionPost_posts (ok := true) hp hd
      have hfalse := completionPost_posts (ok := false) hp hd
      rw [hup] at htrue hfalse
      obtain ⟨hctx, hread, hmsix, hcores, hmem⟩ := post_posts (f := fun c => { c with done := none }) hhost (poster_ctx hp) hup (length_queueEntry c d.cid d.status d.opc.toNat 0 d.result) (fun _ => rfl)
      exact ⟨⟨_, _, htrue, hread, hctx, rfl, rfl, fun _ _ => ⟨rfl, rfl⟩, fun _ h => Instr.noConfusion h, hmsix, hcores, hmem⟩, _, hfalse, rfl⟩
    · have htrue := eventPost_posts (ok := true) hp hd
      have hfalse := eventPost_posts (ok := false) hp hd
      rw [hup] at htrue hfalse
      have hkind : (if d.stream then 2 else 1) = 1 + d.stream.toNat := by cases d.stream <;> rfl
      rw [hkind]
      obtain ⟨hctx, hread, hmsix, hcores, hmem⟩ := post_posts (f := fun c => { c with events := r }) hhost (poster_ctx hp) hup (length_queueEntry c 0 d.status 0 (1 + d.stream.toNat) (d.id.setWidth 128)) (fun _ => rfl)
      exact ⟨⟨_, _, htrue, hread, hctx, rfl, rfl, fun _ h => Instr.noConfusion h, fun _ _ => ⟨rfl, by rw [hd]; rfl⟩, hmsix, hcores, hmem⟩, _, hfalse, rfl⟩
  · intro rest hwait hc hlt
    obtain ⟨hrest, ⟨k, hk, hres, hat⟩, hs⟩ := loadHead_loads hwait hc
    exact ⟨_, k, by rw [contextSwap_head hwait, if_pos hlt], hrest, hk, hres, hat, hs⟩
  · intro rest v hwait hge hv
    rw [contextSwap_head hwait, if_neg (Nat.not_lt.2 hge), hv, Option.elim_some]
  · intro hwait
    rw [exec_contextSwap, execContextSwap, hwait]
  · intro v hd hc
    rw [sqTailDoorbell_acts hd hc, cqHeadDoorbell_acts hd hc]
    refine ⟨fun hlt => ?_, fun hge => by rw [if_neg (Nat.not_lt.2 hge)], fun hlt => ?_, fun hge => by rw [if_neg (Nat.not_lt.2 hge)]⟩
    · exact ⟨_, _, congrArg _ (if_pos hlt), ctx_modCtx_same (f := fun c => { c with sqTail := v.toNat % 4096 }) (fun _ => rfl) hc, rfl, rfl, modCtx_rest _ _ _⟩
    · exact ⟨_, _, congrArg _ (if_pos hlt), ctx_modCtx_same (f := fun c => { c with cqHead := v.toNat % 4096 }) (fun _ => rfl) hc, rfl, rfl, modCtx_rest _ _ _⟩
  · intro v hd
    refine ⟨fun hv he => ⟨fun w hbest => ?_, fun hbest => ⟨_, context0Open_acts hd hv he, openZero_fails hbest he⟩⟩, fun k hv he hk hcl => ⟨_, context0Close_acts hd hv he, closeZero_closes hk hcl⟩⟩
    obtain ⟨k, hk⟩ := openZero_opens (s := s) hbest
    exact ⟨_, k, context0Open_acts hd hv he, hk⟩

end Sys2Proof.Machine
end

section

/-! PROOFS. Media engines: a unit starts and completes. -/

namespace Sys2Proof.Machine

variable {s : State} {e : Fin 2} {i : Fin 256} {c d : MediaCtx} {f : MediaCtx → MediaCtx}

/-! Engines and their contexts -/

theorem modEngine_same (s : State) (e : Fin 2) (f : MediaEngine → MediaEngine) : (s.modEngine e f).media[e] = f s.media[e] := Vector.getElem_set_self _

theorem modMedia_engine (s : State) (e : Fin 2) (i : Fin 256) (f : MediaCtx → MediaCtx) :
    (s.modMedia e i f).media[e] = { s.media[e] with ctxs := s.media[e].ctxs.map fun c => if c.id = i then f c else c } := modEngine_same _ _ _

theorem mediaCtx_of_engine {t : State} (h : t.media[e].ctxs = s.media[e].ctxs) (i : Fin 256) : t.mediaCtx e i = s.mediaCtx e i := by
  unfold State.mediaCtx
  rw [h]

theorem mediaCtx_id (h : s.mediaCtx e i = some c) : c.id = i := of_decide_eq_true (List.find?_some (p := fun c : MediaCtx => decide (c.id = i)) h)

theorem mediaCtx_mem (h : s.mediaCtx e i = some c) : c ∈ s.media[e].ctxs := List.mem_of_find?_eq_some h

theorem mediaCtx_modMedia (hf : ∀ c, c.id = i → (f c).id = i) : (s.modMedia e i f).mediaCtx e i = (s.mediaCtx e i).map f := by
  have hp : ((fun c : MediaCtx => decide (c.id = i)) ∘ fun c => if c.id = i then f c else c) = fun c => decide (c.id = i) := by
    funext y
    by_cases hy : y.id = i <;> simp [hf, hy]
  unfold State.mediaCtx
  rw [modMedia_engine, List.find?_map, hp]
  cases hy : s.media[e].ctxs.find? fun c => decide (c.id = i) with
  | none => rfl
  | some y => rw [Option.map_some, Option.map_some, if_pos (mediaCtx_id (s := s) (e := e) hy)]

theorem mediaCtx_modMedia_some (hc : s.mediaCtx e i = some c) (hf : ∀ c, c.id = i → (f c).id = i) : (s.modMedia e i f).mediaCtx e i = some (f c) := by
  rw [mediaCtx_modMedia hf, hc, Option.map_some]

/-! A boundary between units, at which no context ends -/

/-- No context of the engine is to end. -/
def Quiet (s : State) (e : Fin 2) : Prop := ∀ c ∈ s.media[e].ctxs, c.pendingStatus = none ∧ c.close = none

theorem Quiet.boundary (h : Quiet s e) : s.mediaBoundary e = s := by
  have hfold : ∀ (l : List MediaCtx), (∀ c ∈ l, c.pendingStatus = none ∧ c.close = none) → l.foldl (fun s c =>
      match c.pendingStatus, c.close with
      | some st, _ => s.endMedia e c.id st
      | none, some none => s.endMedia e c.id stCancelled
      | none, some (some to_) => if s.drained (s.seen c) to_ then s.finishDrain e (s.seen c) else s
      | none, none => s) s = s := by
    intro l
    induction l with
    | nil => exact fun _ => rfl
    | cons c l ih =>
      intro hl
      obtain ⟨⟨hp, hc⟩, hl⟩ := List.forall_mem_cons.1 hl
      rw [List.foldl_cons, hp, hc]
      exact ih hl
  exact hfold _ h

theorem Quiet.of_ctxs {t : State} (h : Quiet s e) (ht : t.media[e].ctxs = s.media[e].ctxs) : Quiet t e := fun c hc => h c (ht ▸ hc)

theorem Quiet.modMedia (h : Quiet s e) (hf : ∀ c, c.pendingStatus = none ∧ c.close = none → (f c).pendingStatus = none ∧ (f c).close = none) : Quiet (s.modMedia e i f) e := by
  intro c hc
  rw [modMedia_engine] at hc
  obtain ⟨y, hy, rfl⟩ := List.mem_map.1 hc
  split
  · exact hf y (h y hy)
  · exact h y hy

/-! What decoding and coding leave of a context -/

/-- A context is still the same stream, asked to end or not as before. -/
def SameStream (c d : MediaCtx) : Prop := d.id = c.id ∧ d.desc = c.desc ∧ d.pendingStatus = c.pendingStatus ∧ d.close = c.close

theorem SameStream.trans {b : MediaCtx} (h : SameStream b c) (k : SameStream c d) : SameStream b d :=
  ⟨k.1.trans h.1, k.2.1.trans h.2.1, k.2.2.1.trans h.2.2.1, k.2.2.2.trans h.2.2.2⟩

theorem code_sameStream (c : MediaCtx) (kind : CodeKind) (x : Nat × Picture × List Byte) : SameStream c (c.code kind x).1 := by
  unfold MediaCtx.code
  dsimp only
  split <;> exact ⟨rfl, rfl, rfl, rfl⟩

theorem codeAll_sameStream : ∀ (l : List (CodeKind × (Nat × Picture × List Byte))) (c : MediaCtx), SameStream c (c.codeAll l).1
  | [], _ => ⟨rfl, rfl, rfl, rfl⟩
  | x :: r, c => (code_sameStream c x.1 x.2).trans (codeAll_sameStream r _)

theorem coded_sameStream (c : MediaCtx) : SameStream c c.coded.1 := codeAll_sameStream (codeNow c.desc c.waiting).1 c

theorem takePics_sameStream : ∀ {l : List DecPic} {c d : MediaCtx} {fs : List (Nat × Picture)}, c.takePics l = some (d, fs) → SameStream c d
  | [], c, d, fs, h => by
    obtain ⟨rfl, -⟩ := Prod.mk.inj (Option.some.inj h)
    exact ⟨rfl, rfl, rfl, rfl⟩
  | p :: r, c, d, fs, h => by
    rw [MediaCtx.takePics] at h
    split at h
    · cases h
    · obtain ⟨y, hy, heq⟩ := Option.map_eq_some_iff.1 h
      obtain ⟨rfl, -⟩ := Prod.mk.inj heq
      exact SameStream.trans (c := { c with bufs := _, numbered := c.numbered + 1 }) ⟨rfl, rfl, rfl, rfl⟩ (takePics_sameStream hy)

/-! The turn -/

theorem nextTurn_ready {ready : List (Fin 256 × Nat)} {turn r : Fin 256 × Nat} (h : nextTurn ready turn = some r) : ∃ w, (r.1, w) ∈ ready := by
  rw [nextTurn] at h
  split at h
  next y hy =>
    cases h
    exact ⟨y.2, List.mem_of_find?_eq_some hy⟩
  next =>
    obtain ⟨y, hy, rfl⟩ := Option.map_eq_some_iff.1 h
    obtain ⟨k, -, hk⟩ := List.mem_filterMap.1 (List.mem_of_head? hy)
    exact ⟨y.2, List.mem_of_find?_eq_some hk⟩

/-- R422: the engine with the next unit's context is the engine with its turns and counts moved. -/
theorem pickMedia_engine {x : MediaEngine} (h : s.pickMedia e = some (i, x)) : x.running = some i ∧ x.ctxs = s.media[e].ctxs ∧ x.clamped = s.media[e].clamped
    ∧ ∃ c ∈ s.media[e].ctxs, c.id = i ∧ s.mediaReady c = true := by
  have hready : ∀ (live : Bool) turn r, nextTurn ((s.media[e].ctxs.filter fun c => decide (mLive c.desc = live) && s.mediaReady c).map fun c => (c.id, mWeight c.desc)) turn = some r →
      ∃ c ∈ s.media[e].ctxs, c.id = r.1 ∧ s.mediaReady c = true := by
    intro live turn r hr
    obtain ⟨w, hw⟩ := nextTurn_ready hr
    obtain ⟨c, hc, heq⟩ := List.mem_map.1 hw
    obtain ⟨hmem, hp⟩ := List.mem_filter.1 hc
    exact ⟨c, hmem, (Prod.mk.inj heq).1, (Bool.and_eq_true_iff.1 hp).2⟩
  unfold State.pickMedia at h
  dsimp only at h
  split at h
  next => cases h
  next l hl _ =>
    cases h
    exact ⟨rfl, rfl, rfl, hready true _ _ hl⟩
  next b _ hb =>
    cases h
    exact ⟨rfl, rfl, rfl, hready false _ _ hb⟩
  next l b hl hb =>
    generalize (if s.media[e].unitsIn16 % 16 = 0 then 0 else s.media[e].batchIn16) = k at h
    split at h <;> cases h
    · exact ⟨rfl, rfl, rfl, hready false _ _ hb⟩
    · exact ⟨rfl, rfl, rfl, hready true _ _ hl⟩

/-! A unit starts -/

theorem mediaUnitStart_busy (h : s.media[e].running = some i) : exec (.mediaUnitStart e) s = .next s := by
  rw [exec_mediaUnitStart, execMediaUnitStart, if_pos (by rw [h]; rfl)]

theorem mediaUnitStart_idle (hq : Quiet s e) (h : s.media[e].running = none) : exec (.mediaUnitStart e) s = .next (s.startUnit e) := by
  rw [exec_mediaUnitStart, execMediaUnitStart, if_neg (by rw [h]; exact Bool.false_ne_true), hq.boundary]

/-- R420: software's counters as a context that runs reads them; the rest of the context stands. -/
theorem seen_fields (s : State) (c : MediaCtx) : SameStream c (s.seen c) ∧ (s.seen c).bandsLeft = c.bandsLeft ∧ (s.seen c).bsPtr = c.bsPtr ∧ (s.seen c).units = c.units ∧ (s.seen c).emits = c.emits := by
  unfold State.seen
  split
  exact ⟨⟨rfl, rfl, rfl, rfl⟩, rfl, rfl, rfl, rfl⟩

variable {x : MediaEngine}

/-- The unit of a context that is picked: its counters are read, and a picture begins where none is in progress. -/
theorem startUnit_picked (h : s.pickMedia e = some (i, x)) (hc : s.mediaCtx e i = some c) :
    s.startUnit e = (if c.bandsLeft = 0 then ((s.modEngine e fun _ => x).modMedia e i fun _ => s.seen c).beginPicture e (s.seen c) else (s.modEngine e fun _ => x).modMedia e i fun _ => s.seen c) := by
  have hx : (s.modEngine e fun _ => x).mediaCtx e i = some c := by
    rw [mediaCtx_of_engine (s := s) (by rw [modEngine_same, (pickMedia_engine h).2.1]), hc]
  have hseen : (s.modEngine e fun _ => x).seen c = s.seen c := rfl
  rw [State.startUnit, h]
  simp only [State.beginUnit, hx, hseen, (seen_fields s c).2.1]

/-- The context that a unit has begun with, and the engine around it. -/
theorem begun_ctx (h : s.pickMedia e = some (i, x)) (hc : s.mediaCtx e i = some c) : ((s.modEngine e fun _ => x).modMedia e i fun _ => s.seen c).mediaCtx e i = some (s.seen c) := by
  have hx : (s.modEngine e fun _ => x).mediaCtx e i = some c := by
    rw [mediaCtx_of_engine (s := s) (by rw [modEngine_same, (pickMedia_engine h).2.1]), hc]
  exact mediaCtx_modMedia_some hx fun _ _ => (seen_fields s c).1.1.trans (mediaCtx_id hc)

theorem begun_engine (s : State) (e : Fin 2) (i : Fin 256) (x : MediaEngine) (c : MediaCtx) :
    ((s.modEngine e fun _ => x).modMedia e i fun _ => c).media[e] = { x with ctxs := x.ctxs.map fun y => if y.id = i then c else y } := by
  rw [modMedia_engine, modEngine_same]

theorem startUnit_encodes {pic : Picture} {n : Nat} {roi : List Byte} (h : s.pickMedia e = some (i, x)) (hc : s.mediaCtx e i = some c) (hb : c.bandsLeft = 0) (he : mEncode c.desc = true)
    (hr : s.readFrame (s.seen c) = .ok (pic, n, roi)) :
    (s.startUnit e).mediaCtx e i = some { (s.seen c).withFrame pic roi with bandsLeft := (mHeight c.desc + 63) / 64 } ∧ (s.startUnit e).mem = s.mem
    ∧ (s.startUnit e).media[e].running = some i ∧ (s.startUnit e).media[e].clamped = satAdd s.media[e].clamped n := by
  obtain ⟨⟨hid, hdesc, -⟩, -⟩ := seen_fields s c
  obtain ⟨hrun, -, hclamped, -⟩ := pickMedia_engine h
  have hread : ((s.modEngine e fun _ => x).modMedia e i fun _ => s.seen c).readFrame (s.seen c) = .ok (pic, n, roi) := hr
  have hstart : s.startUnit e = (((s.modEngine e fun _ => x).modMedia e i fun _ => s.seen c).modEngine e fun x => { x with clamped := satAdd x.clamped n }).modMedia e i
      fun x => { x.withFrame pic roi with bandsLeft := (mHeight c.desc + 63) / 64 } := by
    rw [startUnit_picked h hc, if_pos hb]
    simp only [State.beginPicture, hdesc, he, if_true, hread, hid, mediaCtx_id hc]
    rfl
  have hctx : (((s.modEngine e fun _ => x).modMedia e i fun _ => s.seen c).modEngine e fun x => { x with clamped := satAdd x.clamped n }).mediaCtx e i = some (s.seen c) := by
    rw [mediaCtx_of_engine (s := (s.modEngine e fun _ => x).modMedia e i fun _ => s.seen c) (by rw [modEngine_same]), begun_ctx h hc]
  rw [hstart]
  refine ⟨mediaCtx_modMedia_some hctx (by exact fun _ hy => hy), rfl, ?_, ?_⟩
  · rw [modMedia_engine, modEngine_same, begun_engine]
    exact hrun
  · rw [modMedia_engine, modEngine_same, begun_engine, ← hclamped]

theorem startUnit_decodes {flags n : Nat} {u : List Byte} {y : UnitOut} {q : DecPic} (h : s.pickMedia e = some (i, x)) (hc : s.mediaCtx e i = some c) (hb : c.bandsLeft = 0) (he : mEncode c.desc = false)
    (hem : c.emits = false) (hu : s.nextUnit (s.seen c) = some (flags, u, n)) (hl : s.ringLost c c.bsPtr n = false) (hy : Config.decodeUnit (mCodec c.desc) c.units u = some y)
    (hq : y.pics.head? = some q) :
    (s.startUnit e).mediaCtx e i = some { s.seen c with bandsLeft := max 1 ((q.pic.height + 63) / 64) } ∧ (s.startUnit e).mem = s.mem ∧ (s.startUnit e).media[e].running = some i := by
  obtain ⟨⟨hid, hdesc, -⟩, -, hptr, hunits, hemits⟩ := seen_fields s c
  obtain ⟨hrun, -, -, -⟩ := pickMedia_engine h
  have hunit : ((s.modEngine e fun _ => x).modMedia e i fun _ => s.seen c).nextUnit (s.seen c) = some (flags, u, n) := hu
  have hlost : ((s.modEngine e fun _ => x).modMedia e i fun _ => s.seen c).ringLost (s.seen c) (s.seen c).bsPtr n = false := by
    rw [hptr, ← hl]
    unfold State.ringLost
    rw [hdesc]
    rfl
  have hbands : ((s.modEngine e fun _ => x).modMedia e i fun _ => s.seen c).unitBands (s.seen c) = max 1 ((q.pic.height + 63) / 64) := by
    simp only [State.unitBands, hunit, hdesc, hunits, hy, Option.bind_some, hq, Option.map_some, Option.getD_some]
    rfl
  have hstart : s.startUnit e = ((s.modEngine e fun _ => x).modMedia e i fun _ => s.seen c).modMedia e i fun x => { x with bandsLeft := max 1 ((q.pic.height + 63) / 64) } := by
    rw [startUnit_picked h hc, if_pos hb]
    simp only [State.beginPicture, hdesc, he, hemits, hem, hunit, hlost, hbands, hid, mediaCtx_id hc, Bool.false_eq_true, if_false]
  rw [hstart]
  refine ⟨mediaCtx_modMedia_some (begun_ctx h hc) (by exact fun _ hy => hy), rfl, ?_⟩
  rw [modMedia_engine, begun_engine]
  exact hrun

end Sys2Proof.Machine
end

section

/-! PROOFS. Media engines: a unit completes. -/

namespace Sys2Proof.Machine

variable {s : State} {e : Fin 2} {i : Fin 256} {c d : MediaCtx} {f : MediaCtx → MediaCtx}

/-! What storing leaves (R415, R420, R421) -/

theorem storeFrames_rest (s : State) (c : MediaCtx) (fs : List (Nat × Picture)) : (s.storeFrames c fs).media = s.media ∧ (s.storeFrames c fs).cores = s.cores :=
  ⟨foldl_keeps_field (v := State.media) (by exact fun _ _ => rfl) _ _, foldl_keeps_field (v := State.cores) (by exact fun _ _ => rfl) _ _⟩

/-- The frame pool's bytes depend on the memories and on the descriptor alone. -/
theorem storeFrames_mem {t : State} (ht : t.mem = s.mem) (hd : d.desc = c.desc) (fs : List (Nat × Picture)) : (t.storeFrames d fs).mem = (s.storeFrames c fs).mem := by
  induction fs generalizing s t with
  | nil => exact ht
  | cons x fs ih =>
    refine ih (s := s.storeFrame c x.1 x.2) (t := t.storeFrame d x.1 x.2) ?_
    unfold State.storeFrame
    rw [ht, hd]

theorem ringWrite_mem {t : State} (ht : t.mem = s.mem) (at_ : W32) (bs : List Byte) : (t.ringWrite c at_ bs).mem = (s.ringWrite c at_ bs).mem := by
  unfold State.ringWrite
  rw [ht]

theorem putPointers_mem {t : State} (ht : t.mem = s.mem) : (t.putPointers c).mem = (s.putPointers c).mem := by
  unfold State.putPointers
  split
  rw [ht]

theorem putPointers_rest (s : State) (c : MediaCtx) : (s.putPointers c).media = s.media ∧ (s.putPointers c).cores = s.cores := by
  unfold State.putPointers
  split
  exact ⟨rfl, rfl⟩

/-! The engine stands idle while its unit's results are stored -/

/-- The engine once its unit is done. -/
abbrev State.unitOver (s : State) (e : Fin 2) : State := s.modEngine e fun x => { x with running := none }

theorem unitOver_ctx (s : State) (e : Fin 2) (i : Fin 256) : (s.unitOver e).mediaCtx e i = s.mediaCtx e i := mediaCtx_of_engine (by rw [modEngine_same]) i

theorem Quiet.unitOver (h : Quiet s e) : Quiet (s.unitOver e) e := h.of_ctxs (by rw [modEngine_same])

theorem mediaUnitComplete_idle (h : s.media[e].running = none) : exec (.mediaUnitComplete e) s = .next s := by
  rw [exec_mediaUnitComplete, execMediaUnitComplete, h]

theorem mediaUnitComplete_runs (h : s.media[e].running = some i) : exec (.mediaUnitComplete e) s = .next (((s.unitOver e).unitDone e i).mediaBoundary e) := by
  rw [exec_mediaUnitComplete, execMediaUnitComplete, h]

/-- R422: one band of several is done. -/
theorem unitDone_band (hc : s.mediaCtx e i = some c) (hb : 1 < c.bandsLeft) : s.unitDone e i = s.modMedia e i fun y => { y with bandsLeft := y.bandsLeft - 1 } := by
  simp only [State.unitDone, hc, if_pos hb]

/-! The last band of an encoder (R420, R421) -/

theorem unitDone_encodes (hc : s.mediaCtx e i = some c) (hb : c.bandsLeft ≤ 1) (he : mEncode c.desc = true) : s.unitDone e i = s.encodeDone e c := by
  simp only [State.unitDone, hc, if_neg (Nat.not_lt.2 hb), he, if_true]

variable {fs : List (Nat × Picture)} {bs : List Byte} {c1 : MediaCtx}

theorem encodeDone_eq (hcode : c.coded = (d, fs, bs)) (h1 : c1 = { d with bsPtr := c.bsPtr + BitVec.ofNat 32 bs.length, tsPtr := c.tsPtr + 1, pictures := c.pictures + 1, bandsLeft := 0 }) :
    s.encodeDone e c = (((((s.storeFrames c fs).ringWrite c c.bsPtr bs).modEngine e fun x => { x with encoded := x.encoded + mWidth c.desc * mHeight c.desc }).modMedia e c.id fun _ => c1).putPointers c1) := by
  rw [State.encodeDone, hcode, h1]

theorem encodeDone_done (hq : Quiet s e) (hc : s.mediaCtx e i = some c) (hcode : c.coded = (d, fs, bs))
    (h1 : c1 = { d with bsPtr := c.bsPtr + BitVec.ofNat 32 bs.length, tsPtr := c.tsPtr + 1, pictures := c.pictures + 1, bandsLeft := 0 }) :
    (s.encodeDone e c).mediaCtx e i = some c1 ∧ (s.encodeDone e c).media[e].encoded = s.media[e].encoded + mWidth c.desc * mHeight c.desc
    ∧ (s.encodeDone e c).media[e].running = s.media[e].running ∧ (s.encodeDone e c).mem = (((s.storeFrames c fs).ringWrite c c.bsPtr bs).putPointers c1).mem
    ∧ (s.encodeDone e c).cores = s.cores ∧ Quiet (s.encodeDone e c) e := by
  obtain ⟨hid, -, hpend, hclose⟩ : SameStream c d := by
    have := coded_sameStream c
    rwa [hcode] at this
  have hci := mediaCtx_id hc
  obtain ⟨hmedia, hcores⟩ := storeFrames_rest s c fs
  have hring : ((s.storeFrames c fs).ringWrite c c.bsPtr bs).media = s.media := hmedia
  have hw : ∀ v : State, v = (((s.storeFrames c fs).ringWrite c c.bsPtr bs).modEngine e fun x => { x with encoded := x.encoded + mWidth c.desc * mHeight c.desc }) →
      v.media[e] = { s.media[e] with encoded := s.media[e].encoded + mWidth c.desc * mHeight c.desc } := by
    rintro v rfl
    rw [modEngine_same, hring]
  obtain ⟨v, hv⟩ : ∃ v, v = (((s.storeFrames c fs).ringWrite c c.bsPtr bs).modEngine e fun x => { x with encoded := x.encoded + mWidth c.desc * mHeight c.desc }) := ⟨_, rfl⟩
  have hve := hw v hv
  have hvctx : v.mediaCtx e i = some c := (mediaCtx_of_engine (by rw [hve]) i).trans hc
  have hvq : Quiet v e := hq.of_ctxs (by rw [hve])
  have hvmem : v.mem = ((s.storeFrames c fs).ringWrite c c.bsPtr bs).mem := by rw [hv]; rfl
  have hvcores : v.cores = s.cores := by rw [hv]; exact hcores
  rw [encodeDone_eq hcode h1, hci, ← hv]
  obtain ⟨hpm, hpc⟩ := putPointers_rest (v.modMedia e i fun _ => c1) c1
  have hc1 : c1.id = i ∧ c1.pendingStatus = none ∧ c1.close = none := by
    obtain ⟨hp, hcl⟩ := hq c (mediaCtx_mem hc)
    subst h1
    exact ⟨hid.trans hci, hpend.trans hp, hclose.trans hcl⟩
  have hce : ((v.modMedia e i fun _ => c1).putPointers c1).media[e] = (v.modMedia e i fun _ => c1).media[e] := by rw [hpm]
  refine ⟨?_, ?_, ?_, putPointers_mem hvmem, hpc.trans hvcores, ?_⟩
  · rw [mediaCtx_of_engine (s := v.modMedia e i fun _ => c1) (by rw [hce]), mediaCtx_modMedia_some hvctx fun _ _ => hc1.1]
  · rw [hce, modMedia_engine, hve]
  · rw [hce, modMedia_engine, hve]
  · exact (hvq.modMedia fun _ _ => hc1.2).of_ctxs (by rw [hce])

/-! The last band of a decoder (R411, R424) -/

variable {flags n : Nat} {u : List Byte}

theorem decodeDone_unit (hu : s.nextUnit c = some (flags, u, n)) : s.decodeDone e c = (s.takeUnit e c flags u n).emitReady e c.id := by
  rw [State.decodeDone, hu]

theorem unitDone_decodes (hc : s.mediaCtx e i = some c) (hb : c.bandsLeft = 1) (he : mEncode c.desc = false) (hu : s.nextUnit c = some (flags, u, n)) :
    s.unitDone e i = ((s.modMedia e i fun x => { x with bandsLeft := 0 }).takeUnit e { c with bandsLeft := 0 } flags u n).emitReady e i := by
  have hu' : (s.modMedia e i fun x => { x with bandsLeft := 0 }).nextUnit { c with bandsLeft := 0 } = some (flags, u, n) := hu
  simp only [State.unitDone, hc, hb, Nat.lt_irrefl, Nat.one_ne_zero, he, Bool.false_eq_true, if_false]
  rw [decodeDone_unit hu', ← mediaCtx_id hc]

theorem pushEvent_rest (w : Option (Fin 4096)) (ev : LEvent) : (s.pushEvent w ev).media = s.media ∧ (s.pushEvent w ev).cores = s.cores := by
  cases w with
  | none => exact ⟨rfl, rfl⟩
  | some n => exact ⟨(congrArg State.media (modCtx_rest s n _) :), (congrArg State.cores (modCtx_rest s n _) :)⟩

/-- An engine without the contexts of a number. -/
def MediaEngine.without (x : MediaEngine) (i : Fin 256) : MediaEngine := { x with ctxs := x.ctxs.filter fun c => decide (c.id ≠ i), running := if x.running = some i then none else x.running }

/-- A context that ends leaves its engine; the rest of the engine, and the cores, stand. -/
theorem endMedia_engine (hc : s.mediaCtx e i = some c) (st : Status) :
    (s.endMedia e i st).media[e] = s.media[e].without i
    ∧ (s.endMedia e i st).cores = s.cores := by
  have hform : ∃ (w : State) (ev : LEvent) (lg : Event), w.media = s.media ∧ w.cores = s.cores ∧ s.endMedia e i st =
      if st = 0 then (w.modEngine e fun x => x.without i).pushEvent c.owner ev
      else ((w.modEngine e fun x => x.without i).pushEvent c.owner ev).log lg := by
    unfold State.endMedia
    rw [hc]
    refine ⟨_, _, _, ?_, ?_, rfl⟩
    · exact (putPointers_rest _ c).1
    · exact (putPointers_rest _ c).2
  obtain ⟨w, ev, lg, hm, hcores, hend⟩ := hform
  have hpe := pushEvent_rest (s := w.modEngine e fun x => x.without i) c.owner ev
  have hmedia : (s.endMedia e i st).media = (w.modEngine e fun x => x.without i).media
      ∧ (s.endMedia e i st).cores = w.cores := by
    rw [hend]
    split <;> exact hpe
  exact ⟨by rw [hmedia.1, modEngine_same, hm], hmedia.2.trans hcores⟩

theorem filtered_mediaCtx {t : State} {l : List MediaCtx} (ht : t.media[e].ctxs = l.filter fun c => decide (c.id ≠ i)) : t.mediaCtx e i = none := by
  unfold State.mediaCtx
  rw [ht]
  refine List.find?_eq_none.2 fun y hy => ?_
  simpa using (List.mem_filter.1 hy).2

/-- A context whose ring has been read past a unit of `n` bytes. -/
abbrev MediaCtx.past (c : MediaCtx) (n : Nat) : MediaCtx := { c with bsPtr := c.bsPtr + BitVec.ofNat 32 n }

/-- A unit is taken by a context that discards none. -/
theorem resumed_self (hd : c.discarding = false) (u : List Byte) : c.resumed u = c := by
  rw [MediaCtx.resumed, hd, Bool.false_and, if_neg Bool.false_ne_true]

theorem takeUnit_ends {st : Status} (hd : c.discarding = false) (h : (c.past n).decode flags u = .ends st) :
    s.takeUnit e c flags u n = ((s.modMedia e c.id fun _ => c.past n).endMedia e c.id st).modMedia e c.id fun x => { x with eos := x.eos || flags.testBit 0 } := by
  have hr : (c.past n).resumed u = c.past n := resumed_self (c := c.past n) hd u
  unfold State.takeUnit
  rw [hr]
  dsimp only
  rw [if_neg (by rw [hd]; exact Bool.false_ne_true), h]

theorem takeUnit_done (hd : c.discarding = false) (h : (c.past n).decode flags u = .done d fs) :
    s.takeUnit e c flags u n = ((((s.modMedia e c.id fun _ => c.past n).storeFrames d fs).modEngine e fun x => x.countDecoded fs).modMedia e d.id fun _ => d).modMedia e c.id
      fun x => { x with eos := x.eos || flags.testBit 0 } := by
  have hr : (c.past n).resumed u = c.past n := resumed_self (c := c.past n) hd u
  unfold State.takeUnit
  rw [hr]
  dsimp only
  rw [if_neg (by rw [hd]; exact Bool.false_ne_true), h]

theorem emitReady_none (h : s.mediaCtx e i = none) : s.emitReady e i = s := by
  rw [State.emitReady, h]

/-- R411: a unit that declares what the decoder does not support ends the context. -/
theorem takeUnit_unsupported (hq : Quiet s e) (hc : s.mediaCtx e i = some c) (hrun : s.media[e].running = none) (hd : c.discarding = false)
    (hbad : (Config.unitSequences (mCodec c.desc) u).all (sequenceOk (mCodec c.desc)) = false) :
    (s.takeUnit e c flags u n).mediaCtx e i = none ∧ (s.takeUnit e c flags u n).media[e].running = none ∧ (s.takeUnit e c flags u n).media[e].decoded = s.media[e].decoded
    ∧ (s.takeUnit e c flags u n).cores = s.cores ∧ Quiet (s.takeUnit e c flags u n) e := by
  have hdec : (c.past n).decode flags u = .ends stMediaConfig := by
    simp only [MediaCtx.decode, hbad, Bool.not_false, if_true]
  have hid := mediaCtx_id hc
  rw [takeUnit_ends hd hdec, hid]
  have hctx : (s.modMedia e i fun _ => c.past n).mediaCtx e i = some (c.past n) :=
    mediaCtx_modMedia_some hc fun _ _ => hid
  have hquiet : Quiet (s.modMedia e i fun _ => c.past n) e := hq.modMedia fun _ _ => hq c (mediaCtx_mem hc)
  obtain ⟨heng, hcores⟩ := endMedia_engine hctx stMediaConfig
  have hnone := filtered_mediaCtx (i := i) (congrArg MediaEngine.ctxs heng)
  rw [MediaEngine.without, modMedia_engine, hrun] at heng
  refine ⟨?_, ?_, ?_, hcores, ?_⟩
  · rw [mediaCtx_modMedia (by exact fun _ h => h), hnone, Option.map_none]
  · rw [modMedia_engine, heng]
    rfl
  · rw [modMedia_engine, heng]
  · refine Quiet.modMedia (fun c hc => ?_) (by exact fun _ h => h)
    rw [heng] at hc
    exact hquiet c ((modMedia_engine s e i _).symm ▸ (List.mem_filter.1 hc).1)

/-- R411, R424: what a decoder makes of a unit without faults that ends no stream. -/
theorem decode_done {y : UnitOut} {k : MediaCtx} (hok : (Config.unitSequences (mCodec c.desc) u).all (sequenceOk (mCodec c.desc)) = true) (hy : Config.decodeUnit (mCodec c.desc) c.units u = some y)
    (hpics : ∀ q ∈ y.pics, pictureOk c.desc q.pic = true) (htake : c.takePics y.pics = some (k, fs)) (hflags : flags % 2 = 0) :
    c.decode flags u = .done { k.output y.outs with units := k.units ++ [u], bufs := remark k.bufs y.kept } fs := by
  have hall : (y.pics.all fun p => pictureOk c.desc p.pic) = true := List.all_eq_true.2 hpics
  have hbit : flags.testBit 0 = false := by simp [Nat.testBit_zero, hflags]
  simp only [MediaCtx.decode, hok, hy, hall, htake, hbit, Bool.not_true, Bool.false_eq_true, if_false]
  rfl

theorem takeUnit_decoded (hc : s.mediaCtx e i = some c) (hd : c.discarding = false) (hdec : (c.past n).decode flags u = .done d fs)
    (hdid : d.id = c.id) (hdesc : d.desc = c.desc) (hflags : flags % 2 = 0) :
    (s.takeUnit e c flags u n).mediaCtx e i = some d ∧ (s.takeUnit e c flags u n).mem = (s.storeFrames c fs).mem
    ∧ (s.takeUnit e c flags u n).media[e].running = s.media[e].running ∧ (s.takeUnit e c flags u n).media[e].decoded = s.media[e].decoded + (fs.map fun f => f.2.width * f.2.height).sum := by
  have hbit : flags.testBit 0 = false := by simp [Nat.testBit_zero, hflags]
  have hid := mediaCtx_id hc
  rw [takeUnit_done hd hdec, hdid, hid, hbit]
  have hmedia := (storeFrames_rest (s.modMedia e i fun _ => c.past n) d fs).1
  have hmem : ((s.modMedia e i fun _ => c.past n).storeFrames d fs).mem = (s.storeFrames c fs).mem := storeFrames_mem (s := s) (c := c) (by exact rfl) hdesc fs
  obtain ⟨v, hv⟩ : ∃ v, v = (s.modMedia e i fun _ => c.past n).storeFrames d fs := ⟨_, rfl⟩
  rw [← hv] at hmedia hmem ⊢
  have hve : v.media[e] = { s.media[e] with ctxs := s.media[e].ctxs.map fun y => if y.id = i then c.past n else y } := by
    rw [hmedia, modMedia_engine]
  have hvctx : (v.modEngine e fun x => x.countDecoded fs).mediaCtx e i = some (c.past n) := by
    have hm : (s.modMedia e i fun _ => c.past n).mediaCtx e i = some (c.past n) := mediaCtx_modMedia_some hc fun _ _ => hid
    rw [← hm]
    refine mediaCtx_of_engine ?_ i
    rw [modEngine_same, modMedia_engine, MediaEngine.countDecoded, hve]
  have hset := mediaCtx_modMedia_some (f := fun _ => d) hvctx fun _ _ => hdid.trans hid
  refine ⟨?_, hmem, ?_, ?_⟩
  · rw [mediaCtx_modMedia_some hset (by exact fun _ h => h), Bool.or_false]
  · rw [modMedia_engine, modMedia_engine, modEngine_same, MediaEngine.countDecoded, hve]
  · rw [modMedia_engine, modMedia_engine, modEngine_same, MediaEngine.countDecoded, hve]

/-- Settles O49: a unit starts by the engine's turn and completes by its bands; with no context about to end, the boundaries between units change nothing. -/
theorem mediaUnitsRunInTurn : Obligations.MediaUnitsRunInTurn := by
  intro s e hquiet
  have hq : Quiet s e := hquiet
  refine ⟨fun i hr => mediaUnitStart_busy hr, mediaUnitComplete_idle, fun hr hp => ?_, fun i x hr hp => ⟨?_, fun c hc hb => ?_, fun c pic n roi hc hb he hf => ?_, ?_⟩, ?_⟩
  · rw [mediaUnitStart_idle hq hr, State.startUnit, hp]
  · obtain ⟨hrun, -, -, hready⟩ := pickMedia_engine hp
    exact ⟨hrun, hready⟩
  · rw [mediaUnitStart_idle hq hr, startUnit_picked hp hc, if_neg hb]
  · obtain ⟨hctx, hmem, hrun, hclamped⟩ := startUnit_encodes hp hc hb he hf
    exact ⟨_, _, mediaUnitStart_idle hq hr, hctx, hmem, hrun, hclamped, rfl⟩
  · intro c flags u n y q hc hb he hem hu hl hy hhead
    obtain ⟨hctx, hmem, hrun⟩ := startUnit_decodes hp hc hb he hem hu hl hy hhead
    exact ⟨_, _, mediaUnitStart_idle hq hr, hctx, hmem, hrun, rfl⟩
  · rintro i c idle hr hc rfl
    have hidle : (s.unitOver e).mediaCtx e i = some c := (unitOver_ctx s e i).trans hc
    have hqi : Quiet (s.unitOver e) e := hq.unitOver
    have hrun : (s.unitOver e).media[e].running = none := by rw [modEngine_same]
    rw [mediaUnitComplete_runs hr]
    refine ⟨fun hb => ?_, fun d fs bs c1 hb he hcode h1 => ?_, fun flags u n hb he hu hd => ?_⟩
    · rw [unitDone_band hidle hb, Quiet.boundary (hqi.modMedia (by exact fun _ h => h))]
    · obtain ⟨hctx, henc, hrun', hmem, hcores, hquiet⟩ := encodeDone_done hqi hidle hcode h1
      rw [unitDone_encodes hidle hb he, hquiet.boundary]
      refine ⟨_, rfl, hctx, ?_, hrun'.trans hrun, ?_, hcores⟩
      · rw [henc, modEngine_same]
      · rw [hmem]
        exact putPointers_mem (ringWrite_mem (storeFrames_mem (s := s) (c := c) (by exact rfl) rfl fs) _ _)
    · rw [unitDone_decodes hidle hb he (by exact hu)]
      have hzero : ((s.unitOver e).modMedia e i fun x => { x with bandsLeft := 0 }).mediaCtx e i = some { c with bandsLeft := 0 } := mediaCtx_modMedia_some hidle (by exact fun _ h => h)
      have hzq : Quiet ((s.unitOver e).modMedia e i fun x => { x with bandsLeft := 0 }) e := hqi.modMedia (by exact fun _ h => h)
      have hze : ((s.unitOver e).modMedia e i fun x => { x with bandsLeft := 0 }).media[e].running = none ∧ ((s.unitOver e).modMedia e i fun x => { x with bandsLeft := 0 }).media[e].decoded = s.media[e].decoded := by
        rw [modMedia_engine, modEngine_same]
        exact ⟨rfl, rfl⟩
      refine ⟨fun hbad => ?_, fun y k fs hok hy hpics htake hflags => ?_⟩
      · obtain ⟨hnone, hrun', hdec, hcores, hquiet⟩ := takeUnit_unsupported (flags := flags) (n := n) hzq hzero hze.1 hd hbad
        rw [emitReady_none hnone, hquiet.boundary]
        exact ⟨_, rfl, hnone, hrun', hdec.trans hze.2, hcores⟩
      · obtain ⟨hid, hdesc, -, -⟩ := takePics_sameStream htake
        have hdec := decode_done (c := { c with bandsLeft := 0, bsPtr := c.bsPtr + BitVec.ofNat 32 n }) hok hy hpics htake hflags
        obtain ⟨hctx, hmem, hrun', hcount⟩ := takeUnit_decoded hzero hd hdec hid hdesc hflags
        refine ⟨_, rfl, hctx, ?_, hrun'.trans hze.1, by rw [hcount, hze.2]⟩
        rw [hmem]
        exact storeFrames_mem (s := s) (c := c) (by exact rfl) rfl fs

end Sys2Proof.Machine
end

section

/-! PROOFS. Link pairs: how a pair changes, how a packet is taken, acknowledged and refused. -/

namespace Sys2Proof.Machine

variable {s u : State} {l : Fin 128} {peer : BitVec 16} {far : Fin 8} {p q : LinkPair} {fr : Frame}

/-! A change of a pair -/

theorem is_iff : p.is l peer far = true ↔ p.link = l ∧ p.peer = peer ∧ p.far = far := by
  simp only [LinkPair.is, Bool.and_eq_true, decide_eq_true_eq, and_assoc]

theorem findPair_is (h : s.findPair l peer far = some p) : p.link = l ∧ p.peer = peer ∧ p.far = far :=
  is_iff.1 (List.find?_some (p := fun q : LinkPair => q.is l peer far) h)

theorem findPair_of_pairs (h : u.fab.pairs = s.fab.pairs) (l : Fin 128) (peer : BitVec 16) (far : Fin 8) : u.findPair l peer far = s.findPair l peer far := by
  unfold State.findPair
  rw [h]

theorem modPair_pairs (s : State) (l : Fin 128) (peer : BitVec 16) (far : Fin 8) (f : LinkPair → LinkPair) :
    (s.modPair l peer far f).fab.pairs = s.fab.pairs.map fun p => if p.is l peer far then f p else p := rfl

/-- A pair that has changed, but for the links that it joins, is found as it has become. -/
theorem findPair_modPair {f : LinkPair → LinkPair} (hf : ∀ p, (f p).link = p.link ∧ (f p).peer = p.peer ∧ (f p).far = p.far) (h : s.findPair l peer far = some p) :
    (s.modPair l peer far f).findPair l peer far = some (f p) := by
  have hcomp : ((·.is l peer far) ∘ fun p : LinkPair => if p.is l peer far then f p else p) = (·.is l peer far) := by
    funext y
    obtain ⟨h1, h2, h3⟩ := hf y
    by_cases hy : y.is l peer far = true
    · rw [Function.comp_apply, if_pos hy]
      simp only [LinkPair.is, h1, h2, h3]
    · rw [Function.comp_apply, if_neg hy]
  have his : p.is l peer far = true := List.find?_some (p := fun q : LinkPair => q.is l peer far) h
  unfold State.findPair at h ⊢
  rw [modPair_pairs, List.find?_map, hcomp, h, Option.map_some, if_pos his]

/-! Only the fabric changes -/

/-- From `s` to `t` only the fabric has changed. -/
def FabOnly (s t : State) : Prop := { t with fab := s.fab } = s

theorem FabOnly.trans {t : State} (h : FabOnly s u) (k : FabOnly u t) : FabOnly s t := by
  have hk : { t with fab := s.fab } = { u with fab := s.fab } := (congrArg (fun v : State => { v with fab := s.fab }) k :)
  exact hk.trans h

theorem modFab_fabOnly (s : State) (f : Fabric → Fabric) : FabOnly s (s.modFab f) := rfl

theorem FabOnly.fields {t : State} (h : FabOnly s t) : t.cores = s.cores ∧ t.mem = s.mem ∧ t.tokens = s.tokens ∧ t.parts = s.parts ∧ t.now = s.now :=
  ⟨(congrArg State.cores h :), (congrArg State.mem h :), (congrArg State.tokens h :), (congrArg State.parts h :), (congrArg State.now h :)⟩

theorem sendAck_fabOnly (l : Fin 128) (peer : BitVec 16) (far : Fin 8) (nak : Bool) (a : Nat) : FabOnly s (s.sendAck l peer far nak a) := by
  unfold State.sendAck
  split <;> rfl

theorem rxTake_fabOnly (l : Fin 128) (p : LinkPair) (ctr : Nat) : FabOnly s (s.rxTake l p ctr) := by
  unfold State.rxTake
  dsimp only
  split
  · exact (modFab_fabOnly s _).trans (sendAck_fabOnly ..)
  · exact modFab_fabOnly s _

/-! Acknowledgements (R351, R354) -/

/-- The packet of an ACK or NAK. -/
def ackPkt (p : LinkPair) (nak : Bool) (a : Nat) : TxPkt :=
  ⟨2 ^ 63 + p.ackSeq, if nak then 5 else 4, 0, true, BitVec.ofNat 48 a, 0, 0, 0, 0, false, 0, 0, 0, 0, 0, [], true, if nak then p.ackPsn else BitVec.ofNat 32 p.rxNext, none, 0, none⟩

theorem sendAck_known (h : s.findPair l peer far = some p) (nak : Bool) (a : Nat) :
    (s.sendAck l peer far nak a).findPair l peer far = some { p with ackSeq := p.ackSeq + 1, rxCount := if nak then p.rxCount else 0, rxSince := if nak then p.rxSince else none }
    ∧ (s.sendAck l peer far nak a).fab.sent = s.fab.sent ++ [s.fab.frameOf p (ackPkt p nak a)] := by
  have hmod := findPair_modPair (f := fun p => { p with ackSeq := p.ackSeq + 1, rxCount := if nak then p.rxCount else 0, rxSince := if nak then p.rxSince else none }) (fun _ => ⟨rfl, rfl, rfl⟩) h
  unfold State.sendAck
  rw [h]
  exact ⟨hmod, rfl⟩

/-- R354: a counter taken in order, with none taken ahead. -/
theorem takeCtr_next (n : Nat) : takeCtr 2 n [n] = (n + 1, []) := by
  simp [takeCtr]

/-- R354: the pair once the counter that it expects is taken, before the acknowledgement of an eighth packet. -/
def LinkPair.tookNext (p : LinkPair) (now : Nat) : LinkPair :=
  { p with rxNext := p.rxNext + 1, rxAhead := [], rxCount := p.rxCount + 1, rxSince := p.rxSince.or (some now), lastUse := now }

theorem rxTake_sent {f : SentFrame} (ctr : Nat) (h : f ∈ s.fab.sent) : f ∈ (s.rxTake l p ctr).fab.sent := by
  unfold State.rxTake
  dsimp only
  split
  · unfold State.sendAck
    split
    · exact h
    · exact List.mem_append_left _ h
  · exact h

theorem rxTake_next (hp : s.findPair l p.peer p.far = some p) (ha : p.rxAhead = []) :
    ∃ v : State, v.findPair l p.peer p.far = some (p.tookNext s.now) ∧ v.fab.sent = s.fab.sent
      ∧ s.rxTake l p p.rxNext = if 7 ≤ p.rxCount then v.sendAck l p.peer p.far false 0 else v := by
  have hmod := findPair_modPair (f := fun y => { y with rxNext := p.rxNext + 1, rxAhead := [], rxCount := y.rxCount + 1, rxSince := y.rxSince.or (some s.now), lastUse := s.now }) (fun _ => ⟨rfl, rfl, rfl⟩) hp
  refine ⟨_, hmod, rfl, ?_⟩
  have hle : (8 ≤ p.rxCount + 1) = (7 ≤ p.rxCount) := propext ⟨fun h => by omega, fun h => by omega⟩
  simp only [State.rxTake, ha, List.length_nil, Nat.zero_add, takeCtr_next, decide_true, Bool.toNat_true, hle]

/-- R354: from `u`, where a packet has acted, its counter is taken. -/
theorem rxTake_accepts (hp : u.findPair l p.peer p.far = some p) (ha : p.rxAhead = []) : Accepts u (u.rxTake l p p.rxNext) l p := by
  obtain ⟨hcores, hmem, htokens, hparts, hnow⟩ := (rxTake_fabOnly (s := u) l p p.rxNext).fields
  obtain ⟨v, hv, hsent, htake⟩ := rxTake_next hp ha
  by_cases h8 : 7 ≤ p.rxCount
  · rw [if_pos h8] at htake
    obtain ⟨hpair, hack⟩ := sendAck_known hv false 0
    rw [← htake] at hpair hack
    rw [hsent] at hack
    exact ⟨_, hpair, rfl, rfl, hcores, hmem, htokens, hparts, hnow, fun hlt => absurd h8 (by omega), fun _ => ⟨rfl, _, hack, rfl, rfl⟩⟩
  · rw [if_neg h8] at htake
    rw [← htake] at hv hsent
    exact ⟨_, hv, rfl, rfl, hcores, hmem, htokens, hparts, hnow, fun _ => ⟨rfl, hsent⟩, fun h => absurd h h8⟩

/-! A packet in order (R352, R354, R359) -/

theorem framePair_some (h : s.framePair l fr = some p) : s.findPair l fr.srcMod (linkHearth fr.srcLink) = some p ∧ s.findPair l p.peer p.far = some p ∧ p.up = true := by
  obtain ⟨hfind, hup⟩ := Option.filter_eq_some_iff.1 h
  obtain ⟨-, hpeer, hfar⟩ := findPair_is hfind
  exact ⟨hfind, hpeer ▸ hfar ▸ hfind, hup⟩

theorem ackBelow_none {n : Nat} (hp : s.findPair l peer far = some p) (h : ∀ k ∈ p.unacked, ¬(k.left = true ∧ k.ctr < n)) : s.ackBelow l peer far n = s := by
  have hnone : (p.unacked.filter fun k => k.left && decide (k.ctr < n)) = [] := by
    refine List.filter_eq_nil_iff.2 fun k hk => ?_
    simpa using h k hk
  simp only [State.ackBelow, hp, hnone, List.isEmpty_nil, if_true]

variable {act : State → Except Nak State}

/-- R354: what the receiver answers to a packet in order that has acted, or may not act. -/
def State.answer (s : State) (l : Fin 128) (p : LinkPair) : Except Nak State → State
  | .ok u => (u.findPair l p.peer p.far).elim u fun q => u.rxTake l q p.rxNext
  | .error .busy => s.sendAck l p.peer p.far true (p.rxNext % 2 ^ 32 + 2 ^ 40)
  | .error n => ((s.sendAck l p.peer p.far true (p.rxNext % 2 ^ 32 + n.code * 2 ^ 40)).findPair l p.peer p.far).elim (s.sendAck l p.peer p.far true (p.rxNext % 2 ^ 32 + n.code * 2 ^ 40))
      fun q => (s.sendAck l p.peer p.far true (p.rxNext % 2 ^ 32 + n.code * 2 ^ 40)).rxTake l q p.rxNext

/-- A packet in order is acted on. -/
theorem receive_inOrder (h : InOrder s l fr p) : s.receive l fr act = s.answer l p (act s) := by
  obtain ⟨hok, hpair, hctr, hahead, htag, hver⟩ := h
  have hacks : (if p.version = 2 then s.rxAcks l p fr else s) = s := by
    split
    next h2 =>
      rcases hver with h1 | ⟨-, hun⟩
      · rw [h1] at h2
        exact absurd h2 (by decide)
      · exact ackBelow_none (framePair_some hpair).2.1 (by simp [hun])
    · rfl
  unfold State.receive
  simp only [hok, hpair, hctr, hahead, htag, hacks, Bool.not_true, Bool.false_eq_true, if_false, List.not_mem_nil, or_false, Nat.lt_irrefl, ne_eq, not_true_eq_false, and_false,
    show ¬(p.rxNext + 64 < p.rxNext) by omega]
  cases act s with
  | ok u =>
    rw [State.answer]
    dsimp only
    cases u.findPair l p.peer p.far <;> rfl
  | error n =>
    cases n with
    | busy => rfl
    | denied =>
      rw [State.answer]
      · dsimp only
        cases (s.sendAck l p.peer p.far true (p.rxNext % 2 ^ 32 + Nak.denied.code * 2 ^ 40)).findPair l p.peer p.far <;> rfl
      · exact nofun
    | ended =>
      rw [State.answer]
      · dsimp only
        cases (s.sendAck l p.peer p.far true (p.rxNext % 2 ^ 32 + Nak.ended.code * 2 ^ 40)).findPair l p.peer p.far <;> rfl
      · exact nofun

theorem receive_acts (h : InOrder s l fr p) (ha : act s = .ok u) (hq : u.findPair l p.peer p.far = some q) : s.receive l fr act = u.rxTake l q p.rxNext := by
  rw [receive_inOrder h, ha, State.answer, hq, Option.elim_some]

/-- A packet that acts and leaves its pair is taken. -/
theorem receive_takes (h : InOrder s l fr p) (ha : act s = .ok u) (hu : u.fab.pairs = s.fab.pairs) : Accepts u (s.receive l fr act) l p := by
  have hp : u.findPair l p.peer p.far = some p := (findPair_of_pairs hu ..).trans (framePair_some h.2.1).2.1
  rw [receive_acts h ha hp]
  exact rxTake_accepts hp h.2.2.2.1

theorem receive_busy (h : InOrder s l fr p) (ha : act s = .error .busy) : s.receive l fr act = s.sendAck l p.peer p.far true (p.rxNext % 2 ^ 32 + 2 ^ 40) := by
  rw [receive_inOrder h, ha, State.answer]

/-- A packet that may not act is answered by a NAK with its counter and the reason, and changes the fabric alone. -/
theorem receive_refuses {n : Nak} (h : InOrder s l fr p) (ha : act s = .error n) (hn : n ≠ .busy) :
    FabOnly s (s.receive l fr act) ∧ ∃ a ∈ (s.receive l fr act).fab.sent, a.pkt.type = 5 ∧ a.pkt.dstAddr = BitVec.ofNat 48 (p.rxNext % 2 ^ 32 + (if n = .denied then 2 else 3) * 2 ^ 40) := by
  obtain ⟨hpair, hsent⟩ := sendAck_known (framePair_some h.2.1).2.1 true (p.rxNext % 2 ^ 32 + n.code * 2 ^ 40)
  have hcode : n.code = if n = .denied then 2 else 3 := by
    cases n with
    | busy => exact absurd rfl hn
    | denied => rfl
    | ended => rfl
  have hrec : s.receive l fr act = (s.sendAck l p.peer p.far true (p.rxNext % 2 ^ 32 + n.code * 2 ^ 40)).rxTake l { p with ackSeq := p.ackSeq + 1 } p.rxNext := by
    rw [receive_inOrder h, ha]
    cases n with
    | busy => exact absurd rfl hn
    | denied =>
      rw [State.answer, hpair, Option.elim_some]
      · rfl
      · exact nofun
    | ended =>
      rw [State.answer, hpair, Option.elim_some]
      · rfl
      · exact nofun
  rw [hrec]
  refine ⟨(sendAck_fabOnly ..).trans (rxTake_fabOnly ..), s.fab.frameOf p (ackPkt p true (p.rxNext % 2 ^ 32 + n.code * 2 ^ 40)), ?_, rfl, by rw [← hcode]; rfl⟩
  refine rxTake_sent _ ?_
  rw [hsent]
  exact List.mem_append_right _ List.mem_cons_self

end Sys2Proof.Machine
end

section

/-! PROOFS. Data packets: what an arrival leaves alone, and where it acts. -/

namespace Sys2Proof.Machine

variable {s u v : State} {l : Fin 128} {fr : Frame} {p : LinkPair} {g : Fin 512}

/-! What counting, tokens and messages leave of the data (R98, R348, R363) -/

/-- From `s` to `t` the pairs, the memories, and each core's scratchpad and combine stage stand as they were. -/
def KeepsData (s t : State) : Prop :=
  t.fab.pairs = s.fab.pairs ∧ t.mem = s.mem ∧ ∀ j, (t.core j).spad = (s.core j).spad ∧ (t.core j).stage = (s.core j).stage

theorem KeepsData.refl (s : State) : KeepsData s s := ⟨rfl, rfl, fun _ => ⟨rfl, rfl⟩⟩

theorem KeepsData.trans (h : KeepsData s u) (k : KeepsData u v) : KeepsData s v := by
  obtain ⟨hp, hm, hc⟩ := h
  obtain ⟨kp, km, kc⟩ := k
  exact ⟨kp.trans hp, km.trans hm, fun j => ⟨(kc j).1.trans (hc j).1, (kc j).2.trans (hc j).2⟩⟩

theorem modCore_keepsData {f : Core → Core} (hf : ∀ c, (f c).spad = c.spad ∧ (f c).stage = c.stage) : KeepsData s (s.modCore g f) := by
  refine ⟨rfl, rfl, fun j => ?_⟩
  by_cases hj : j = g
  · subst hj
    rw [modCore_core_same]
    exact hf _
  · rw [modCore_core_ne hj]
    exact ⟨rfl, rfl⟩

theorem coreFault_keepsData (g : Fin 512) (st : Status) (b : BitVec 13) (q d : Nat) : KeepsData s (s.coreFault g st b q d) := by
  have hstat : ∀ (b : Bool) (c : Core) (x : CoreStat), (if b then { c with stat := x } else c).spad = c.spad ∧ (if b then { c with stat := x } else c).stage = c.stage := fun b c x => by
    cases b <;> exact ⟨rfl, rfl⟩
  unfold State.coreFault
  dsimp only
  split
  · exact (modCore_keepsData (g := g) fun c => hstat _ c _).trans ⟨rfl, rfl, fun _ => ⟨rfl, rfl⟩⟩
  · exact modCore_keepsData fun c => hstat _ c _

theorem tryWait_data (c : Core) : c.tryWait.spad = c.spad ∧ c.tryWait.stage = c.stage := by
  unfold Core.tryWait
  split
  · exact ⟨rfl, rfl⟩
  · dsimp only
    split <;> exact ⟨rfl, rfl⟩

theorem fetchPast_keepsData (g : Fin 512) : KeepsData s (s.fetchPast g) := by
  unfold State.fetchPast
  exact ite_frame (fun _ => coreFault_keepsData ..) fun _ => KeepsData.refl s

theorem tokenAdd_keepsData (g : Fin 512) (t : Fin 64) (n : Nat) (e : BitVec 16) : KeepsData s (s.tokenAdd g t n e) := by
  unfold State.tokenAdd
  dsimp only
  split
  · exact coreFault_keepsData ..
  · have hset : ∀ k : Core, k.spad = (s.core g).spad ∧ k.stage = (s.core g).stage → KeepsData s (s.setCore g k) := fun k hk => by
      refine ⟨rfl, rfl, fun j => ?_⟩
      by_cases hj : j = g
      · subst hj
        rw [setCore_core]
        exact hk
      · rw [setCore_core_ne hj]
        exact ⟨rfl, rfl⟩
    refine KeepsData.trans ?_ (fetchPast_keepsData g)
    exact hset _ (by exact tryWait_data _)

theorem msgToken_keepsData (fr : Frame) : KeepsData s (s.msgToken fr) := by
  unfold State.msgToken State.frameToken
  dsimp only
  cases s.tagCheck (s.partOfCore (coreId fr.tokenCore.toNat)) fr.jobTag with
  | ok q => exact tokenAdd_keepsData ..
  | error n => exact KeepsData.refl s

theorem msgPart_keepsData (fr : Frame) : KeepsData s (s.msgPart fr) := by
  have hmsgs : ∀ (s : State) ms, KeepsData s (s.modFab fun x => { x with rxMsgs := ms }) := fun _ _ => ⟨rfl, rfl, fun _ => ⟨rfl, rfl⟩⟩
  have htok : ∀ s : State, KeepsData s (if fr.tv then s.msgToken fr else s) := fun s => by
    split
    · exact msgToken_keepsData fr
    · exact KeepsData.refl s
  unfold State.msgPart
  dsimp only
  refine ite_frame (fun _ => KeepsData.trans ?_ (htok _)) fun _ => hmsgs ..
  exact ite_frame (fun _ => ⟨rfl, rfl, fun _ => ⟨rfl, rfl⟩⟩) fun _ => hmsgs ..

theorem countBytes_keepsData (core : BitVec 9) (space : BitVec 3) (a n : Nat) (m : BitVec 16) (c : BitVec 9) : KeepsData s (s.countBytes core space a n m c) :=
  modCore_keepsData fun _ => ⟨rfl, rfl⟩

theorem countElems_keepsData (g : Fin 512) (ty n : Nat) (m : BitVec 16) (c : BitVec 9) : KeepsData s (s.countElems g ty n m c) :=
  modCore_keepsData fun _ => ⟨rfl, rfl⟩

/-! Where data act (R356, R363) -/

variable {tag : BitVec 16} {q : Fin 8} {core : BitVec 9} {space : BitVec 3} {a n : Nat} {bs : List Byte}

theorem placeIn_pairs (h : s.placeIn core space a bs tag = .ok u) : u.fab.pairs = s.fab.pairs := by
  unfold State.placeIn at h
  cases hp : s.placeCheck core space a bs.length tag with
  | error n =>
    rw [hp] at h
    cases h
  | ok _ =>
    rw [hp] at h
    cases h
    split
    · rfl
    · split <;> rfl

theorem sumLost_pairs (core : BitVec 9) (space : BitVec 3) (a : Nat) : (s.sumLost core space a).fab.pairs = s.fab.pairs := by
  unfold State.sumLost
  split
  · split <;> rfl
  · exact (coreFault_keepsData ..).1

theorem addIn_pairs {vs : List W32} (h : s.addIn core space a vs tag = .ok u) : u.fab.pairs = s.fab.pairs := by
  unfold State.addIn at h
  dsimp only at h
  split at h
  · cases h
  · generalize (if space = 0 then s.mem.lost a (4 * vs.length) else parityHit (s.core (coreId core.toNat)).badParity a (4 * vs.length)) = lost at h
    split at h
    · cases hp : s.placeCheck core space a (4 * vs.length) tag with
      | error n =>
        rw [hp] at h
        cases h
      | ok _ =>
        rw [hp] at h
        cases h
        exact sumLost_pairs ..
    · exact placeIn_pairs h

theorem stageIn_pairs {r : BilletRun} {src : Option (BitVec 16 × BitVec 9)} (h : s.stageIn core r src tag = .ok u) : u.fab.pairs = s.fab.pairs := by
  unfold State.stageIn at h
  dsimp only at h
  cases hp : s.placeCheck core 1 0 0 tag with
  | error n =>
    rw [hp] at h
    cases h
  | ok _ =>
    rw [hp] at h
    change (if _ then _ else _) = _ at h
    split at h
    · cases h
      rfl
    · cases h

/-- An applied data packet leaves the pairs. -/
theorem applyData_pairs (h : s.applyData fr = .ok u) : u.fab.pairs = s.fab.pairs := by
  unfold State.applyData at h
  cases hd : s.dataCheck fr with
  | error n =>
    rw [hd] at h
    cases h
  | ok _ =>
    rw [hd] at h
    cases hf : frameData fr with
    | bytes bs =>
      rw [hf] at h
      change (s.placeIn ..).bind _ = _ at h
      cases hp : s.placeIn fr.dstCore fr.dstSpace fr.dstAddr.toNat bs fr.jobTag with
      | error n =>
        rw [hp] at h
        cases h
      | ok w =>
        rw [hp] at h
        cases h
        exact ((countBytes_keepsData ..).trans (msgPart_keepsData fr)).1.trans (placeIn_pairs hp)
    | billets r =>
      rw [hf] at h
      change (s.stageIn ..).bind _ = _ at h
      cases hp : s.stageIn fr.dstCore r (some (fr.srcMod, fr.srcCore)) fr.jobTag with
      | error n =>
        rw [hp] at h
        cases h
      | ok w =>
        rw [hp] at h
        cases h
        exact (msgPart_keepsData fr).1.trans (stageIn_pairs hp)
    | fp32 vs =>
      rw [hf] at h
      change (s.addIn ..).bind _ = _ at h
      cases hp : s.addIn fr.dstCore fr.dstSpace fr.dstAddr.toNat vs fr.jobTag with
      | error n =>
        rw [hp] at h
        cases h
      | ok w =>
        rw [hp] at h
        cases h
        exact ((countElems_keepsData ..).trans (msgPart_keepsData fr)).1.trans (addIn_pairs hp)
    | unreadable =>
      rw [hf] at h
      cases h
      rfl

theorem applyData_checked (h : s.applyData fr = .ok u) : s.dataCheck fr = .ok () := by
  cases hd : s.dataCheck fr with
  | ok _ => rfl
  | error n =>
    unfold State.applyData at h
    rw [hd] at h
    cases h

/-- R356: a data packet that may act at once. -/
theorem takeData_applies (hw : s.rxWaiting l fr.vc = []) (h : s.applyData fr = .ok u) : s.takeData l fr = .ok u := by
  unfold State.takeData
  rw [applyData_checked h]
  change (if _ then _ else _) = _
  rw [hw, if_neg (by simp), h]

theorem takeData_refused {n : Nak} (h : s.dataCheck fr = .error n) : s.takeData l fr = .error n := by
  unfold State.takeData
  rw [h]
  rfl

/-! A WRITE (R347, R356) -/

theorem tagCheck_dest {x : Option (Fin 8)} (h : s.tagCheck x tag = .ok q) : x = some q := by
  unfold State.tagCheck at h
  split at h
  · cases h
  · split at h
    · split at h
      · cases h
      · split at h
        · cases h
        · cases h
          rfl
    · split at h
      · split at h <;> cases h
      · cases h

theorem placeCheck_tagged (h : s.tagCheck (s.destPart core space a) tag = .ok q) : s.placeCheck core space a n tag =
    if (if space = 0 then decide (q.val * 2 ^ 38 ≤ a) && decide (a + n ≤ (q.val + s.partSize q) * 2 ^ 38) else if space = 1 then decide (a + n ≤ spadSize)
      else decide (space = 2) && decide (a + n ≤ imemSize)) then .ok () else .error .denied := by
  unfold State.placeCheck
  rw [h]
  rfl

theorem placeCheck_spad (h : s.tagCheck (s.destPart core 1 a) tag = .ok q) (hn : a + n ≤ spadSize) : s.placeCheck core 1 a n tag = .ok () := by
  rw [placeCheck_tagged h, if_pos]
  rw [if_neg (by decide), if_pos rfl, decide_eq_true hn]

theorem placeCheck_hbm (h : s.tagCheck (s.destPart core 0 a) tag = .ok q) (hlo : q.val * 2 ^ 38 ≤ a) (hhi : a + n ≤ (q.val + s.partSize q) * 2 ^ 38) : s.placeCheck core 0 a n tag = .ok () := by
  rw [placeCheck_tagged h, if_pos]
  rw [if_pos rfl, decide_eq_true hlo, decide_eq_true hhi, Bool.and_self]

/-- R347: a WRITE that may act stores its bytes, then counts them. -/
theorem applyData_write (ht : fr.type = 1) (h : s.placeCheck fr.dstCore fr.dstSpace fr.dstAddr.toNat fr.payload.length fr.jobTag = .ok ()) :
    ∃ w u : State, w = (if fr.dstSpace = 0 then { s with mem := s.mem.write fr.dstAddr.toNat fr.payload }
      else if fr.dstSpace = 1 then s.modCore (coreId fr.dstCore.toNat) fun c => c.putSpad fr.dstAddr.toNat fr.payload
      else s.modCore (coreId fr.dstCore.toNat) fun c => c.putImem fr.dstAddr.toNat fr.payload) ∧ s.applyData fr = .ok u ∧ KeepsData w u := by
  have hdata : frameData fr = .bytes fr.payload := by rw [frameData, if_pos ht]
  refine ⟨_, _, rfl, ?_, (countBytes_keepsData fr.dstCore fr.dstSpace fr.dstAddr.toNat fr.payload.length fr.srcMod fr.srcCore).trans (msgPart_keepsData fr)⟩
  have hcheck : s.dataCheck fr = .ok () := by
    unfold State.dataCheck
    rw [hdata]
    exact h
  unfold State.applyData State.placeIn
  rw [hcheck, hdata]
  change (Except.bind (Except.bind (s.placeCheck ..) _) _) = _
  rw [h]
  rfl

theorem write_spad (ht : fr.type = 1) (h1 : fr.dstSpace = 1) (h : s.tagCheck (s.destPart fr.dstCore fr.dstSpace fr.dstAddr.toNat) fr.jobTag = .ok q)
    (hn : fr.dstAddr.toNat + fr.payload.length ≤ 0x400000) :
    ∃ u, s.applyData fr = .ok u ∧ u.mem = s.mem ∧ (∀ j, j ≠ coreId fr.dstCore.toNat → (u.core j).spad = (s.core j).spad)
      ∧ (u.core (coreId fr.dstCore.toNat)).spad = writeBytes (s.core (coreId fr.dstCore.toNat)).spad fr.dstAddr.toNat fr.payload := by
  obtain ⟨w, u, hw, hu, -, hm, hc⟩ := applyData_write (s := s) ht (by rw [h1] at h ⊢; exact placeCheck_spad h hn)
  rw [h1, if_neg (by decide), if_pos rfl] at hw
  refine ⟨u, hu, hm.trans (by rw [hw]; rfl), fun j hj => ?_, ?_⟩
  · rw [(hc j).1, hw, modCore_core_ne hj]
  · rw [(hc _).1, hw, modCore_core_same]
    rfl

theorem write_hbm (ht : fr.type = 1) (h0 : fr.dstSpace = 0) (h : s.tagCheck (s.destPart fr.dstCore fr.dstSpace fr.dstAddr.toNat) fr.jobTag = .ok q)
    (hhi : fr.dstAddr.toNat + fr.payload.length ≤ (q.val + s.partSize q) * 2 ^ 38) (hlo : q.val * 2 ^ 38 ≤ fr.dstAddr.toNat) :
    ∃ u, s.applyData fr = .ok u ∧ { u.mem with hbm := s.mem.hbm, badHbm := s.mem.badHbm, replays := s.mem.replays } = s.mem ∧ (∀ j, (u.core j).spad = (s.core j).spad)
      ∧ u.mem.hbm = writeBytes s.mem.hbm fr.dstAddr.toNat fr.payload := by
  obtain ⟨w, u, hw, hu, -, hm, hc⟩ := applyData_write (s := s) ht (by rw [h0] at h ⊢; exact placeCheck_hbm h hlo hhi)
  rw [h0, if_pos rfl] at hw
  have htop : fr.dstAddr.toNat < hbmTop := by
    by_contra hge
    have hdest : s.destPart fr.dstCore fr.dstSpace fr.dstAddr.toNat = none := by rw [State.destPart, if_pos h0, if_neg hge]
    rw [hdest] at h
    cases h
  have hmem : u.mem = { s.mem.fresh fr.dstAddr.toNat fr.payload.length with hbm := writeBytes s.mem.hbm fr.dstAddr.toNat fr.payload } := by
    rw [hm, hw, Mem.write, if_pos htop]
  refine ⟨u, hu, by rw [hmem]; rfl, fun j => ?_, by rw [hmem]⟩
  rw [(hc j).1, hw]
  rfl

/-! A REDUCE of billets (R73, R363) -/

theorem applyData_billets {r : BilletRun} (ht : fr.type = 2) (hr : parseRun fr.payload = some r) (hk : r.kind = 1) (h : s.tagCheck (s.destPart fr.dstCore 1 0) fr.jobTag = .ok q) :
    ((s.core (coreId fr.dstCore.toNat)).stageRoom r = true → ∃ u, s.applyData fr = .ok u
      ∧ (u.core (coreId fr.dstCore.toNat)).stage = (s.core (coreId fr.dstCore.toNat)).stage ++ [⟨r, some (fr.srcMod, fr.srcCore), false⟩] ∧ u.mem = s.mem
      ∧ ∀ j, j ≠ coreId fr.dstCore.toNat → (u.core j).stage = (s.core j).stage)
    ∧ ((s.core (coreId fr.dstCore.toNat)).stageRoom r = false → s.applyData fr = .error .busy) := by
  have hdata : frameData fr = .billets r := by
    rw [frameData, ht, if_neg (by decide), hr]
    exact if_pos hk
  have hplace : s.placeCheck fr.dstCore 1 0 0 fr.jobTag = .ok () := placeCheck_spad h (Nat.zero_le _)
  have hcheck : s.dataCheck fr = .ok () := by
    unfold State.dataCheck
    rw [hdata]
    exact hplace
  have happly : s.applyData fr = (if (s.core (coreId fr.dstCore.toNat)).stageRoom r then
      .ok (s.modCore (coreId fr.dstCore.toNat) fun c => { c with stage := c.stage ++ [⟨r, some (fr.srcMod, fr.srcCore), false⟩] }) else .error .busy : Except Nak State).bind fun s => .ok (s.msgPart fr) := by
    unfold State.applyData State.stageIn
    rw [hcheck, hdata]
    change (Except.bind (Except.bind (s.placeCheck ..) _) _) = _
    rw [hplace]
    rfl
  constructor
  · intro hroom
    obtain ⟨-, hm, hc⟩ := msgPart_keepsData (s := s.modCore (coreId fr.dstCore.toNat) fun c => { c with stage := c.stage ++ [⟨r, some (fr.srcMod, fr.srcCore), false⟩] }) fr
    rw [if_pos hroom] at happly
    refine ⟨_, happly, ?_, hm, fun j hj => ?_⟩
    · rw [(hc _).2, modCore_core_same]
    · rw [(hc j).2, modCore_core_ne hj]
  · intro hroom
    rw [happly, hroom]
    rfl

/-! A SIGNAL (R96, R98) -/

theorem signal_acts {q' : Fin 8} (hd : s.tagCheck (s.partOfCore (coreId fr.dstCore.toNat)) fr.jobTag = .ok q) (hg : s.tagCheck (s.partOfCore (coreId fr.tokenCore.toNat)) fr.jobTag = .ok q') :
    (do s.placeCheck fr.dstCore 1 0 0 fr.jobTag; s.frameToken fr (fr.dstAddr.toNat % 256) : Except Nak State)
      = .ok (s.tokenAdd (coreId fr.tokenCore.toNat) ⟨fr.tokenId.toNat % 64, by omega⟩ (fr.dstAddr.toNat % 256) fr.epoch) := by
  have hplace : s.placeCheck fr.dstCore 1 0 0 fr.jobTag = .ok () := placeCheck_spad (by exact hd) (Nat.zero_le _)
  rw [hplace]
  unfold State.frameToken
  dsimp only
  rw [hg]
  rfl

theorem signal_refused {n : Nak}
    (h : s.tagCheck (s.partOfCore (coreId fr.dstCore.toNat)) fr.jobTag = .error n
      ∨ (∃ q, s.tagCheck (s.partOfCore (coreId fr.dstCore.toNat)) fr.jobTag = .ok q) ∧ s.tagCheck (s.partOfCore (coreId fr.tokenCore.toNat)) fr.jobTag = .error n) :
    (do s.placeCheck fr.dstCore 1 0 0 fr.jobTag; s.frameToken fr (fr.dstAddr.toNat % 256) : Except Nak State) = .error n := by
  rcases h with hd | ⟨⟨q, hd⟩, hg⟩
  · have hplace : s.placeCheck fr.dstCore 1 0 0 fr.jobTag = .error n := by
      have hd' : s.tagCheck (s.destPart fr.dstCore 1 0) fr.jobTag = .error n := hd
      unfold State.placeCheck
      rw [hd']
      rfl
    rw [hplace]
    rfl
  · have hplace : s.placeCheck fr.dstCore 1 0 0 fr.jobTag = .ok () := placeCheck_spad (by exact hd) (Nat.zero_le _)
    rw [hplace]
    unfold State.frameToken
    dsimp only
    rw [hg]
    rfl

/-! The tag (R356) -/

theorem tagCheck_task {k : Task} (hk : s.parts[q].task = some k) : (k.job.tag ≠ tag → s.tagCheck (some q) tag = .error .denied)
    ∧ (k.job.tag = tag → (∀ e, k.ending = some e → e.at_ = s.now) → s.tagCheck (some q) tag = .ok q)
    ∧ (∀ e, k.job.tag = tag → k.ending = some e → e.at_ ≠ s.now → s.tagCheck (some q) tag = .error .ended) := by
  unfold State.tagCheck
  simp only [hk]
  refine ⟨fun ht => if_pos ht, fun ht hend => ?_, fun e ht hend hat => ?_⟩
  · have hover : k.over s.now = false := by
      rw [Task.over]
      cases he : k.ending with
      | none => rfl
      | some e => simp [hend e he]
    rw [if_neg (not_not.2 ht), hover, if_neg Bool.false_ne_true]
  · have hover : k.over s.now = true := by simp [Task.over, hend, hat]
    rw [if_neg (not_not.2 ht), if_pos hover]

/-! The commands -/

/-- Each of the three commands receives its frame, with what its type does. -/
theorem exec_dataPacket {cmd : Instr} (h : fr.type = 1 ∧ cmd = .writeReceive l fr ∨ fr.type = 2 ∧ cmd = .reduceReceive l fr ∨ fr.type = 3 ∧ cmd = .signalPacketReceive l fr) :
    ∃ act : State → Except Nak State, (∀ s, exec cmd s = .next (s.receive l fr act)) ∧ (fr.type = 1 ∨ fr.type = 2 → ∀ s, act s = s.takeData l fr)
      ∧ (fr.type = 3 → ∀ s, act s = do s.placeCheck fr.dstCore 1 0 0 fr.jobTag; s.frameToken fr (fr.dstAddr.toNat % 256)) := by
  rcases h with ⟨ht, rfl⟩ | ⟨ht, rfl⟩ | ⟨ht, rfl⟩
  · exact ⟨fun s => s.takeData l fr, fun s => by rw [exec_writeReceive, execWriteReceive, if_pos ht], fun _ _ => rfl, fun h3 => absurd (ht.symm.trans h3) (by decide)⟩
  · exact ⟨fun s => s.takeData l fr, fun s => by rw [exec_reduceReceive, execReduceReceive, if_pos ht], fun _ _ => rfl, fun h3 => absurd (ht.symm.trans h3) (by decide)⟩
  · refine ⟨_, fun s => by rw [exec_signalPacketReceive, execSignalPacketReceive, if_pos ht], fun h12 => ?_, fun _ _ => rfl⟩
    rw [ht] at h12
    exact absurd h12 (by decide)

variable {act : State → Except Nak State}

theorem receive_badFrame (h : s.frameOk l fr = false) : s.receive l fr act = s.discard := by
  rw [State.receive, h]
  rfl

theorem receive_noPair (h : s.frameOk l fr = true) (hp : s.framePair l fr = none) : s.receive l fr act = s.discard := by
  rw [State.receive, h, hp]
  rfl

theorem receive_before (h : s.frameOk l fr = true) (hp : s.framePair l fr = some p) (hlt : nearest p.rxNext fr.psn.toNat < p.rxNext) : s.receive l fr act = s.sendAck l p.peer p.far false 0 := by
  unfold State.receive
  simp only [h, hp, hlt, true_or, Bool.not_true, Bool.false_eq_true, if_false, if_true]

theorem receive_badTag (h : s.frameOk l fr = true) (hp : s.framePair l fr = some p) (hctr : nearest p.rxNext fr.psn.toNat = p.rxNext) (ha : p.rxAhead = []) (ht : fr.tagOk = false) :
    s.receive l fr act = s.pairLost l p.peer p.far true := by
  unfold State.receive
  simp only [h, hp, hctr, ha, ht, Nat.lt_irrefl, List.not_mem_nil, or_self, ne_eq, not_true_eq_false, and_false, Bool.not_true, Bool.not_false, Bool.false_eq_true, if_false, if_true,
    show ¬(p.rxNext + 64 < p.rxNext) by omega]

/-- Settles O50: a frame goes through the checks of `receive`; one in order acts as its type says, and what it does leaves its pair. -/
theorem dataPacketsAct : Obligations.DataPacketsAct := by
  intro s l f p cmd hw hcmd
  obtain ⟨act, hexec, hdata, hsig⟩ := exec_dataPacket hcmd
  refine ⟨fun h => ?_, fun h hp => ?_, fun h hp hlt => ?_, fun h hp hctr ha ht => ?_, fun hin => ⟨fun u ht hwait hap => ?_, fun n ht hck hn => ?_, ?_, ?_⟩, ?_, ?_, ?_⟩
  · rw [hexec, receive_badFrame h, State.discard]
  · rw [hexec, receive_noPair h hp, State.discard]
  · rw [hexec, receive_before h hp hlt]
  · rw [hexec, receive_badTag h hp hctr ha ht]
  · exact ⟨_, hexec s, receive_takes hin ((hdata ht s).trans (takeData_applies hwait hap)) (applyData_pairs hap)⟩
  · obtain ⟨hfab, hnak⟩ := receive_refuses hin ((hdata ht s).trans (takeData_refused hck)) hn
    obtain ⟨hcores, hmem, -, hparts, -⟩ := hfab.fields
    exact ⟨_, hexec s, hcores, hmem, hparts, hnak⟩
  · rintro d g q q' ht rfl rfl hd hg
    exact ⟨_, hexec s, receive_takes hin ((hsig ht s).trans (signal_acts hd hg)) (tokenAdd_keepsData ..).1⟩
  · rintro n d g ht rfl rfl hn hrefuse
    obtain ⟨hfab, hnak⟩ := receive_refuses hin ((hsig ht s).trans (signal_refused hrefuse)) hn
    obtain ⟨hcores, hmem, htokens, hparts, -⟩ := hfab.fields
    exact ⟨_, hexec s, hcores, hmem, hparts, htokens, hnak⟩
  · obtain ⟨⟨hhbm, -⟩, hcore, -⟩ := hw
    rintro g a q ht rfl rfl htag
    refine ⟨fun h1 hn => ?_, fun h0 hhi hlo => ?_⟩
    · obtain ⟨u, hu, hm, hne, hspad⟩ := write_spad ht h1 htag hn
      have hwf : Memory.wf (s.core (coreId f.dstCore.toNat)).spad = true := (hcore _).1
      refine ⟨u, hu, hm, hne, fun j hj => ?_, fun b hb => ?_⟩
      · rw [hspad, readByte_writeBytes_inside _ j hj hwf]
      · rw [hspad, readByte_writeBytes_outside _ hwf hb]
    · obtain ⟨u, hu, hm, hspads, hhbmw⟩ := write_hbm ht h0 htag hhi hlo
      refine ⟨u, hu, hm, hspads, fun j hj => ?_, fun b hb => ?_⟩
      · rw [hhbmw, readByte_writeBytes_inside _ j hj hhbm]
      · rw [hhbmw, readByte_writeBytes_outside _ hhbm hb]
  · rintro g r q ht rfl hr hk htag
    exact applyData_billets ht hr hk htag
  · rintro p' k - hk
    exact tagCheck_task hk

end Sys2Proof.Machine
end

section

/-! PROOFS. Acknowledgements, NAKs and control messages. -/

namespace Sys2Proof.Machine

variable {s u v : State} {l : Fin 128} {peer : BitVec 16} {far : Fin 8} {fr : Frame} {p q y : LinkPair} {g : Fin 512} {k : TxPkt} {ks : List TxPkt}

/-! Resending (R351, R354, R355) -/

theorem resend_known (hp : s.findPair l peer far = some p) (ks : List TxPkt) :
    (s.resend l peer far ks).fab.sent = s.fab.sent ++ ks.map (s.fab.frameOf p) ∧ (s.resend l peer far ks).findPair l peer far = some p ∧ FabOnly s (s.resend l peer far ks) := by
  have hres : s.resend l peer far ks = (s.modFab fun x => { x with sent := x.sent ++ ks.map (x.frameOf p) }).countReplay l ks.length := by rw [State.resend, hp]
  rw [hres]
  exact ⟨rfl, hp, rfl⟩

theorem resendFrom_again (hy : s.findPair l y.peer y.far = some y) (h : y.resends < 8) : ∃ q, (s.resendFrom l y ks).findPair l y.peer y.far = some q
    ∧ q = { y with resends := y.resends + (if ks.head?.map (·.ctr) = (y.unacked.find? (·.left)).map (·.ctr) then 1 else 0) }
    ∧ (s.resendFrom l y ks).fab.sent = s.fab.sent ++ ks.map (s.fab.frameOf y) ∧ FabOnly s (s.resendFrom l y ks) := by
  have hnum : (decide (ks.head?.map (·.ctr) = (y.unacked.find? (·.left)).map (·.ctr))).toNat = if ks.head?.map (·.ctr) = (y.unacked.find? (·.left)).map (·.ctr) then 1 else 0 := by
    split <;> simp_all
  have hmod := findPair_modPair (f := fun x => { x with resends := x.resends + (decide (ks.head?.map (·.ctr) = (y.unacked.find? (·.left)).map (·.ctr))).toNat }) (fun _ => ⟨rfl, rfl, rfl⟩) hy
  have hres : s.resendFrom l y ks = (s.modPair l y.peer y.far fun x => { x with resends := x.resends + (decide (ks.head?.map (·.ctr) = (y.unacked.find? (·.left)).map (·.ctr))).toNat }).resend l y.peer y.far ks := by
    rw [State.resendFrom]
    exact if_neg (by simp [h])
  obtain ⟨hsent, hfind, hfab⟩ := resend_known hmod ks
  rw [hres]
  exact ⟨_, hfind, by rw [hnum], hsent, (modFab_fabOnly s _).trans hfab⟩

theorem resendFrom_lost (h : 8 ≤ y.resends) (ho : ks.head?.map (·.ctr) = (y.unacked.find? (·.left)).map (·.ctr)) : s.resendFrom l y ks = s.pairLost l y.peer y.far false := by
  rw [State.resendFrom]
  exact if_pos (by simp [h, ho])

/-! ACK and NAK (R352, R354, R356, R359) -/

/-- The pair once the counter of an ACK or NAK is taken. -/
def LinkPair.tookAck (y : LinkPair) (f : Frame) : LinkPair := { y with rxAckSeq := nearest (2 ^ 63 + y.rxAckSeq) f.psn.toNat - 2 ^ 63 + 1 }

theorem receiveAck_badFrame {act : State → LinkPair → State} (h : s.frameOk l fr = false) : s.receiveAck l fr act = s.discard := by
  rw [State.receiveAck, h]
  rfl

theorem receiveAck_passes {act : State → LinkPair → State} (h : s.frameOk l fr = true) (hp : s.framePair l fr = some p) (ht : fr.tagOk = true) :
    s.receiveAck l fr act = act (s.modPair l p.peer p.far fun y => y.tookAck fr) p := by
  unfold State.receiveAck
  simp only [h, hp, ht, Bool.not_true, Bool.false_eq_true, if_false]
  rfl

theorem tookAck_found (hp : s.framePair l fr = some p) : (s.modPair l p.peer p.far fun y => y.tookAck fr).findPair l p.peer p.far = some (p.tookAck fr) :=
  findPair_modPair (fun _ => ⟨rfl, rfl, rfl⟩) (framePair_some hp).2.1

/-- What a NAK with a reason makes of the packet `k` of a pair, found as `y`. -/
def State.nakAct (s : State) (l : Fin 128) (p y : LinkPair) (k : TxPkt) (ctr : Nat) : Nat → State
  | 0 => s.resendFrom l y (if p.version = 1 then y.unacked.filter fun x => x.left && decide (ctr ≤ x.ctr) else [k])
  | 1 => s.modPair l p.peer p.far fun y => { y with unacked := y.unacked.map fun x => if x.ctr = ctr then { x with busyAt := some s.now } else x }
  | 2 => if (s.dropPkt l p ctr).jobTag (coreId k.srcCore.toNat) = k.jobTag ∧ (s.dropPkt l p ctr).partHeld ((s.dropPkt l p ctr).partOfCore (coreId k.srcCore.toNat)) then
      (s.dropPkt l p ctr).coreFault (coreId k.srcCore.toNat) stAddr k.bundle ((k.queue.map (·.val)).getD 0xFF) else s.dropPkt l p ctr
  | 3 => s.dropPkt l p ctr
  | _ => s

variable {n : Nat}

theorem nakReceive_acts (h : s.frameOk l fr = true) (hp : s.framePair l fr = some p) (ht : fr.tagOk = true) (hty : fr.type = 5) (hv : p.version = 1)
    (hn : n = nearest ((p.unacked.head?.map (·.ctr)).getD p.txNext) (fr.dstAddr.toNat % 2 ^ 32)) (hk : p.unacked.find? (fun y => y.left && decide (y.ctr = n)) = some k) :
    exec (.nakReceive l fr) s = .next ((s.modPair l p.peer p.far fun y => y.tookAck fr).nakAct l p (p.tookAck fr) k n (fr.dstAddr.toNat / 2 ^ 40)) := by
  have hv2 : ¬p.version = 2 := by
    rw [hv]
    decide
  have hk' : (p.tookAck fr).unacked.find? (fun y => y.left && decide (y.ctr = n)) = some k := hk
  rw [exec_nakReceive, execNakReceive, if_pos hty, receiveAck_passes h hp ht]
  simp only [if_neg hv2, ← hn, tookAck_found hp, Option.bind_some, hk', Option.map_some]
  generalize fr.dstAddr.toNat / 2 ^ 40 = reason
  rcases reason with _ | _ | _ | _ | _ <;> rfl

theorem nak_denied (hg : g = coreId k.srcCore.toNat) (hv : v = s.dropPkt l p n) (ht : v.jobTag g = k.jobTag) (hh : v.partHeld (v.partOfCore g) = true) :
    TaskEndsAt v (s.nakAct l p y k n 2) g 0x0108 k.bundle := by
  obtain ⟨q, t, hk⟩ := partHeld_task hh
  subst hg hv
  have hact : s.nakAct l p y k n 2 = (s.dropPkt l p n).coreFault (coreId k.srcCore.toNat) stAddr k.bundle ((k.queue.map (·.val)).getD 0xFF) := if_pos ⟨ht, hh⟩
  rw [hact]
  exact coreFault_endsAt hk _ _ _ _

/-! Control messages (R350, R362, R366, R370) -/

theorem ctrlKind_of (h6 : fr.type = 6) {n : Nat} (hk : leAt fr.payload 0 1 = n) : ctrlKind fr = n := by rw [ctrlKind, if_pos h6, hk]

/-- What an RTS does at its core. -/
def State.rtsAct (s : State) (g : Fin 512) (r : Rts) : Except Nak State :=
  match s.rtsArrive g r with
  | some s => .ok s
  | none => .error .busy

theorem rtsReceive_acts {r : Rts} (hc : ctrlKind fr = 1) (hg : s.holdsTag (coreId fr.dstCore.toNat) fr.jobTag = true)
    (hr : r = ⟨BitVec.ofNat 32 (leAt fr.payload 4 4), BitVec.ofNat 32 (leAt fr.payload 8 4), leAt fr.payload 12 4, BitVec.ofNat 32 (leAt fr.payload 16 4), fr.srcMod, fr.srcCore⟩) :
    ∃ act : State → Except Nak State, exec (.rtsReceive l fr) s = .next (s.receive l fr act) ∧ act s = s.rtsAct (coreId fr.dstCore.toNat) r := by
  refine ⟨_, by rw [exec_rtsReceive, execRtsReceive, if_pos hc], ?_⟩
  rw [if_pos hg, hr]
  rfl

theorem rtsAct_waits {r : Rts} (hc : ∀ c ∈ (s.core g).colls, c.awaits r = false) (hr : (s.core g).rts.length < 64) :
    s.rtsAct g r = .ok (s.setCore g { s.core g with rts := (s.core g).rts ++ [r] }) := by
  have hnone : (s.core g).colls.find? (fun c => c.awaits r) = none := List.find?_eq_none.2 fun c h => by simp [hc c h]
  rw [State.rtsAct, State.rtsArrive, hnone]
  simp only [if_pos hr]
  rfl

theorem rtsAct_full {r : Rts} (hc : ∀ c ∈ (s.core g).colls, c.awaits r = false) (hr : 64 ≤ (s.core g).rts.length) : s.rtsAct g r = .error .busy := by
  have hnone : (s.core g).colls.find? (fun c => c.awaits r) = none := List.find?_eq_none.2 fun c h => by simp [hc c h]
  rw [State.rtsAct, State.rtsArrive, hnone]
  simp only [if_neg (Nat.not_lt.2 hr)]

theorem rtsAct_meets {r : Rts} {c : Coll} (hc : (s.core g).colls.find? (fun c => c.awaits r) = some c) : s.rtsAct g r = .ok (s.matchRts g c r) := by
  rw [State.rtsAct, State.rtsArrive, hc]

theorem holdsTag_task {tag : BitVec 16} (h : s.holdsTag g tag = true) : ∃ q t, s.taskOf g = some (q, t) := by
  unfold State.holdsTag at h
  cases ht : s.taskOf g with
  | none =>
    rw [ht] at h
    cases h
  | some x => exact ⟨x.1, x.2, rfl⟩

theorem matchRts_mismatch {r : Rts} {c : Coll} {tag : BitVec 16} (hg : s.holdsTag g tag = true) (hs : collSign c.desc c.opc ≠ r.sign) :
    TaskEndsAt s (s.matchRts g c r) g 0x0401 c.bundle ∧ (s.matchRts g c r).fab.pairs = s.fab.pairs := by
  obtain ⟨q, t, ht⟩ := holdsTag_task hg
  rw [State.matchRts, if_pos hs]
  exact ⟨coreFault_endsAt ht _ _ _ _, (coreFault_keepsData ..).1⟩

theorem restartLimits_waits (q : Fin 8) (t : Coll → Bool) : (s.restartLimits q t).parts = s.parts ∧ (s.restartLimits q t).mem = s.mem ∧ (s.restartLimits q t).fab = s.fab
    ∧ (∀ j, j ∈ s.members q → ∀ w, (s.core j).wait = some w → ((s.restartLimits q t).core j).wait = some { w with since := s.now }) ∧ (∀ j, j ∉ s.members q → (s.restartLimits q t).core j = s.core j) := by
  have hnodup : (s.members q).Nodup := by
    unfold State.members
    exact (List.nodup_finRange 512).filter _
  have hcore := fun j => modCores_core (fun _ c => { c with wait := c.wait.map fun w => { w with since := s.now }, colls := c.colls.map fun x => if t x then { x with since := s.now } else x }) (s.members q) s j hnodup
  refine ⟨modCores_parts .., modCores_mem .., modCores_fab .., fun j hj w hw => ?_, fun j hj => ?_⟩
  · rw [State.restartLimits, hcore j, if_pos hj, hw]
    rfl
  · rw [State.restartLimits, hcore j, if_neg hj]

theorem endQueued_fab (j : Job) (st : Status) (d : BitVec 192) : (s.endQueued j st d).fab = s.fab := by
  obtain ⟨bs, ev, le, hend, -⟩ := endQueued_form s j st d
  have hpush : ∀ (v : State) (w : Option (Fin 4096)) (le : LEvent), (v.pushEvent w le).fab = v.fab := fun v w le => by
    cases w with
    | none => rfl
    | some n => exact (congrArg State.fab (modCtx_rest v n _) :)
  have hlog : (s.endQueued j st d).fab = (((s.modPart j.part fun p => { p with lc := p.lc.filter (·.id ≠ j.id), be := p.be.filter (·.id ≠ j.id) }).deliver j bs).pushEvent j.ctx le).fab := by
    rw [hend]
    rfl
  rw [hlog, hpush, deliver_fab]
  rfl

/-- A control message that its command's act accepts, and that leaves its pair. -/
theorem control_takes {cmd : Instr} {act : State → Except Nak State} (hin : InOrder s l fr p) (hexec : exec cmd s = .next (s.receive l fr act)) (hact : act s = .ok u) (hu : u.fab.pairs = s.fab.pairs) :
    Takes1 cmd s u l p := ⟨_, hexec, receive_takes hin hact hu⟩

/-- R368: the ending that an END notice gives to its task: the sender's status, and where the sender's task ended. -/
def peerEnding (s : State) (f : Frame) : Ending :=
  { s.unitEnding (BitVec.ofNat 16 (leAt f.payload 4 2)) 0 0 0 with remote := some (BitVec.ofNat 16 (leAt f.payload 6 2), BitVec.ofNat 16 (leAt f.payload 8 2)), detail := BitVec.ofNat 192 (leAt f.payload 6 2 + leAt f.payload 8 2 * 2 ^ 16) }

/-- Settles O51: an acknowledgement or a NAK acts on its pair's packets; a control message in order acts at its core or task and is taken. -/
theorem acknowledgementsAndControlMessagesAct : Obligations.AcknowledgementsAndControlMessagesAct := by
  rintro s u l f p g rfl rfl
  refine ⟨fun hok hp ht => ⟨fun hty n hn => ?_, fun k n hty hv hn hk => ?_⟩, fun hok => ⟨fun hty => ?_, fun hty => ?_⟩, fun hin h6 => ⟨fun r hk hg hr => ?_, ?_, ?_, ?_, ?_, ?_⟩⟩
  · have hexec : exec (.ackReceive l f) s = .next ((s.modPair l p.peer p.far fun y => y.tookAck f).ackBelow l p.peer p.far n) := by
      rw [exec_ackReceive, execAckReceive, if_pos hty, receiveAck_passes hok hp ht, State.rxAcks, hn]
    exact ⟨hexec, fun hnone => hexec.trans (congrArg _ (ackBelow_none (tookAck_found hp) hnone))⟩
  · have hexec := nakReceive_acts hok hp ht hty hv hn hk
    have hy := tookAck_found hp
    refine ⟨fun ks h0 hks => ?_, fun h1 => ?_, fun v j h2 hj hvd htag hheld => ?_, fun h3 => ?_⟩
    · have hks' : (if p.version = 1 then (p.tookAck f).unacked.filter fun x => x.left && decide (n ≤ x.ctr) else [k]) = ks := by
        rw [if_pos hv, hks]
        rfl
      rw [h0, State.nakAct, hks'] at hexec
      refine ⟨fun hlt => ?_, fun hge ho => ?_⟩
      · obtain ⟨q, hq, hqe, hsent, hfab⟩ := resendFrom_again (s := s.modPair l p.peer p.far fun y => y.tookAck f) (y := p.tookAck f) (l := l) (ks := ks) hy (by exact hlt)
        have hfields := ((modFab_fabOnly s _).trans hfab).fields
        subst hqe
        exact ⟨_, _, hexec, hsent, hq, rfl, rfl, hfields.1, hfields.2.2.2.1⟩
      · exact hexec.trans (congrArg _ (resendFrom_lost (y := p.tookAck f) hge ho))
    · rw [hexec, h1]
      rfl
    · rw [h2] at hexec
      exact ⟨_, hexec, nak_denied hj hvd htag hheld⟩
    · rw [hexec, h3]
      rfl
  · rw [exec_ackReceive, execAckReceive, if_pos hty, receiveAck_badFrame hok]
  · rw [exec_nakReceive, execNakReceive, if_pos hty, receiveAck_badFrame hok]
  · obtain ⟨act, hexec, hact⟩ := rtsReceive_acts (s := s) (l := l) (ctrlKind_of h6 hk) hg hr
    refine ⟨fun hc hlt => ?_, fun hc hge => ?_, fun c p' hc hp' => ?_, fun c hc hs => ?_⟩
    · exact control_takes hin hexec (hact.trans (rtsAct_waits hc hlt)) rfl
    · exact hexec.trans (congrArg _ (receive_busy hin (hact.trans (rtsAct_full hc hge))))
    · exact hexec.trans (congrArg _ (receive_acts hin (hact.trans (rtsAct_meets hc)) hp'))
    · obtain ⟨hends, hpairs⟩ := matchRts_mismatch hg hs
      exact ⟨_, control_takes hin hexec (hact.trans (rtsAct_meets hc)) hpairs, hends⟩
  · rintro u p' hk hg hu hp'
    rw [exec_ctsReceive, execCtsReceive, if_pos (ctrlKind_of h6 hk)]
    refine congrArg _ (receive_acts hin ?_ hp')
    exact (congrArg Except.ok (if_pos hg)).trans (congrArg _ hu.symm)
  · intro q hk hq
    obtain ⟨hparts, hmem, hfab, hin_, hout⟩ := restartLimits_waits (s := s) q fun c => ((List.range (min 8 (leAt f.payload 1 1))).map fun i => BitVec.ofNat 32 (leAt f.payload (4 + 4 * i) 4)).contains (cGroup c.desc)
    refine ⟨_, control_takes hin (by rw [exec_delayReceive, execDelayReceive, if_pos (ctrlKind_of h6 hk)]) ?_ (by rw [hfab]), hparts, hmem, hin_, hout⟩
    rw [hq]
  · rintro q u p' hk hq hu hp'
    rw [exec_barrierReceive, execBarrierReceive, if_pos (ctrlKind_of h6 hk)]
    refine congrArg _ (receive_acts hin ?_ hp')
    rw [hq, hu]
    rfl
  · intro q k hk hq htask hend
    refine ⟨s.endTask q (peerEnding s f), peerEnding s f, control_takes hin (by rw [exec_endNoticeReceive, execEndNoticeReceive, if_pos (ctrlKind_of h6 hk)]) (by dsimp only; rw [hq]; rfl) rfl, rfl, rfl, ?_, rfl, rfl⟩
    rw [State.endTask, modTask_task_same, htask, Option.map_some, hend]
  · intro j hk hq hj
    refine control_takes hin (by rw [exec_endNoticeReceive, execEndNoticeReceive, if_pos (ctrlKind_of h6 hk)]) ?_ (by rw [endQueued_fab])
    dsimp only
    rw [hq]
    dsimp only
    rw [hj]

end Sys2Proof.Machine
end

section

/-! PROOFS. Key agreement, the set-up of pairs, and their timers. -/

namespace Sys2Proof.Machine

variable {s u : State} {l : Fin 128} {peer : BitVec 16} {far : Fin 8} {f : Frame} {p : LinkPair}

/-! Secrets -/

theorem secretOf_peer {x : Secret} (h : s.secretOf peer = some x) : x.peer = peer := of_decide_eq_true (List.find?_some (p := fun y : Secret => decide (y.peer = peer)) h)

theorem secretOf_of_secrets (h : u.fab.secrets = s.fab.secrets) (peer : BitVec 16) : u.secretOf peer = s.secretOf peer := by
  unfold State.secretOf
  rw [h]

theorem secretOf_putSecret (s : State) (x : Secret) : (s.putSecret x).secretOf x.peer = some x := by
  have hnone : (s.fab.secrets.filter fun y => decide (y.peer ≠ x.peer)).find? (fun y => decide (y.peer = x.peer)) = none := by
    refine List.find?_eq_none.2 fun y hy => ?_
    simpa using (List.mem_filter.1 hy).2
  have hput : (s.putSecret x).secretOf x.peer = (s.fab.secrets.filter (fun y => decide (y.peer ≠ x.peer)) ++ [x]).find? fun y => decide (y.peer = x.peer) := rfl
  rw [hput, List.find?_append, hnone]
  simp

theorem sendSetup_fields (s : State) (l : Fin 128) (peer : BitVec 16) (far : Fin 8) (kind : Nat) (bs : List Byte) :
    (s.sendSetup l peer far kind bs).fab.secrets = s.fab.secrets ∧ (s.sendSetup l peer far kind bs).fab.pairs = s.fab.pairs ∧ (s.sendSetup l peer far kind bs).cores = s.cores := by
  unfold State.sendSetup
  exact ⟨rfl, rfl, rfl⟩

theorem sendPair_fields (s : State) (l : Fin 128) (peer : BitVec 16) (far : Fin 8) : (s.sendPair l peer far).fab.secrets = s.fab.secrets ∧ (s.sendPair l peer far).cores = s.cores := by
  unfold State.sendPair
  split
  · exact ⟨rfl, rfl⟩
  · split
    · exact ⟨rfl, rfl⟩
    · obtain ⟨hsec, -, hcores⟩ := sendSetup_fields (s.draw.2.modPair l peer far fun p => { p with nonce := some (s.draw.1.setWidth 128) }) l peer far 0x13 (toLE s.draw.1.toNat 16)
      exact ⟨hsec, hcores⟩

/-- R480: the nonce of this module for a pair that is not up stands after it was sent. -/
theorem sendPair_nonce (hp : s.findPair l peer far = some p) (hdown : p.up = false) : ∃ n, (s.sendPair l peer far).findPair l peer far = some { p with nonce := some n } := by
  cases hn : p.nonce with
  | some n =>
    have hsend : s.sendPair l peer far = s := by simp [State.sendPair, hp, hn]
    exact ⟨n, by rw [hsend, hp, ← hn]⟩
  | none =>
    have hsend : s.sendPair l peer far = (s.draw.2.modPair l peer far fun p => { p with nonce := some (s.draw.1.setWidth 128) }).sendSetup l peer far 0x13 (toLE s.draw.1.toNat 16) := by
      simp [State.sendPair, hp, hn, hdown]
    rw [hsend]
    refine ⟨s.draw.1.setWidth 128, (findPair_of_pairs (sendSetup_fields ..).2.1 ..).trans ?_⟩
    exact findPair_modPair (s := s.draw.2) (f := fun p => { p with nonce := some (s.draw.1.setWidth 128) }) (fun _ => ⟨rfl, rfl, rfl⟩) hp

theorem agreed_agrees (s : State) (x : Secret) : (s.agreed x).secretOf x.peer = some { x with agreed := true } ∧ (s.agreed x).cores = s.cores := by
  have hfold : ∀ (ps : List LinkPair) (s : State), (ps.foldl (fun s p => s.sendPair p.link p.peer p.far) s).fab.secrets = s.fab.secrets ∧ (ps.foldl (fun s p => s.sendPair p.link p.peer p.far) s).cores = s.cores := fun ps s =>
    ⟨foldl_keeps_field (v := fun s : State => s.fab.secrets) (fun u p => (sendPair_fields u p.link p.peer p.far).1) ps s, foldl_keeps_field (v := State.cores) (fun u p => (sendPair_fields u p.link p.peer p.far).2) ps s⟩
  unfold State.agreed
  dsimp only
  obtain ⟨hsec, hcores⟩ := hfold _ _
  exact ⟨(secretOf_of_secrets hsec _).trans (secretOf_putSecret s { x with agreed := true }), hcores⟩

theorem agreeFail_fails (s : State) (peer : BitVec 16) : ∃ y, (s.agreeFail peer).secretOf peer = some y ∧ y.failed = true ∧ y.agreed = false := by
  unfold State.agreeFail
  exact ⟨_, secretOf_putSecret _ _, rfl, rfl⟩

theorem now_sends : SendFrame fun s t => t.now = s.now where
  refl _ := rfl
  trans h k := k.trans h
  fab _ _ := rfl
  draw _ := rfl
  sends _ _ _ _ := rfl
  fault := coreFault_now

theorem agreeFail_now (s : State) (peer : BitVec 16) : (s.agreeFail peer).now = s.now := by
  unfold State.agreeFail
  exact now_sends.foldl (fun s (p : LinkPair) => now_sends.pairDown now_sends.fab p.link peer p.far true) _ s

/-! A pair that goes down, or is flushed -/

theorem findPair_flushLink (l' : Fin 128) (hp : s.findPair l peer far = some p) : ∃ q, (s.flushLink l').findPair l peer far = some q ∧ Flushed p q := by
  have hfind : ∀ {ps qs : List LinkPair}, List.Forall₂ Flushed ps qs → ps.find? (·.is l peer far) = some p → ∃ q, qs.find? (·.is l peer far) = some q ∧ Flushed p q := by
    intro ps qs h
    induction h with
    | nil => exact nofun
    | @cons a b _ _ hab _ ih =>
      have hsame : a.is l peer far = b.is l peer far := by rw [← hab.1]; rfl
      intro hsome
      cases ha : a.is l peer far with
      | true =>
        rw [List.find?_cons, ha] at hsome
        rw [List.find?_cons, ← hsame, ha]
        exact ⟨b, rfl, Option.some.inj hsome ▸ hab⟩
      | false =>
        rw [List.find?_cons, ha] at hsome
        rw [List.find?_cons, ← hsame, ha]
        exact ih hsome
  exact hfind (flushLink_pairs s l') hp

theorem failPkts_fab (ks : List TxPkt) (st : Status) (s : State) : (s.failPkts ks st).fab = s.fab := by
  unfold State.failPkts
  refine foldl_keeps_field (v := State.fab) (fun u x => ?_) _ s
  split
  · exact coreFault_fab ..
  · rfl

theorem pumpStalled_none (h : s.fab.stalled = []) : s.pumpStalled = s.modFab fun x => { x with stalled := [] } := by
  rw [State.pumpStalled, h, List.foldl_nil]

/-- R355: a pair that goes down, where no core waits to send. -/
theorem pairDown_found (auth : Bool) (hp : s.findPair l peer far = some p) (hs : s.fab.stalled = []) :
    (s.pairDown l peer far auth).findPair l peer far = some { p with up := false, down := true, unacked := [], rxAhead := [], rxCount := 0, rxSince := none, nonce := none, peerNonce := none } := by
  have hmod := findPair_modPair (f := fun p => { p with up := false, down := true, unacked := [], rxAhead := [], rxCount := 0, rxSince := none, nonce := none, peerNonce := none }) (fun _ => ⟨rfl, rfl, rfl⟩) hp
  unfold State.pairDown
  rw [hp]
  dsimp only
  obtain ⟨v, hv⟩ : ∃ v, v = (if auth then (s.modPair l peer far fun p => { p with up := false, down := true, unacked := [], rxAhead := [], rxCount := 0, rxSince := none, nonce := none, peerNonce := none }).modFab fun x => { x with secrets := x.secrets.filter fun y => decide (y.peer ≠ peer) }
      else s.modPair l peer far fun p => { p with up := false, down := true, unacked := [], rxAhead := [], rxCount := 0, rxSince := none, nonce := none, peerNonce := none }) := ⟨_, rfl⟩
  have hfound : v.findPair l peer far = some { p with up := false, down := true, unacked := [], rxAhead := [], rxCount := 0, rxSince := none, nonce := none, peerNonce := none } ∧ v.fab.stalled = [] := by
    rw [hv]
    split
    · exact ⟨hmod, hs⟩
    · exact ⟨hmod, hs⟩
  rw [← hv]
  have hfail := failPkts_fab p.unacked (if auth then stLinkAuth else stLinkDown) v
  obtain ⟨q, hq, -, -, hsame⟩ := findPair_flushLink l ((findPair_of_pairs (congrArg Fabric.pairs hfail) ..).trans hfound.1)
  rw [pumpStalled_none (by exact (congrArg Fabric.stalled hfail).trans hfound.2)]
  exact hq.trans (congrArg some (hsame rfl))

/-! The commands -/

theorem setup_acts {kind : Nat} {act : List Byte → State} (hok : s.frameOk l f = true) (hk : ctrlKind f = kind) : s.setup l f kind act = act (f.payload.drop 4) := by
  rw [State.setup, hok]
  exact if_neg (not_not.2 hk)

theorem setup_badFrame {kind : Nat} {act : List Byte → State} (hok : s.frameOk l f = false) (hk : ctrlKind f = kind) : s.setup l f kind act = s.discard := by
  rw [State.setup, hok]
  exact if_neg (not_not.2 hk)

/-- R479: the content of this module's ACCEPT, without its signature. -/
def acceptContent (hello : List Byte) (r n : BitVec 256) : List Byte := certificate ++ sized 1088 (Config.kemEncap ((hello.drop 3756).take 1184) r).1 ++ toLE n.toNat 32

theorem hello_answers (hok : s.frameOk l f = true) (hk : ctrlKind f = 0x10) (hnone : s.secretOf f.srcMod = none) (hlen : (f.payload.drop 4).length = 4972)
    (hcert : Config.certificateOk ((f.payload.drop 4).take 3756) = true) : ∃ t x r m, exec (.hello l f) s = .next t ∧ t.secretOf f.srcMod = some x ∧ t.cores = s.cores
      ∧ x = ⟨f.srcMod, false, false, false, s.now, r, f.payload.drop 4, Config.sha3 (f.payload.drop 4 ++ acceptContent (f.payload.drop 4) r m),
        pairSecret (Config.kemEncap (((f.payload.drop 4).drop 3756).take 1184) r).2 (Config.sha3 (f.payload.drop 4 ++ acceptContent (f.payload.drop 4) r m))⟩ := by
  rw [exec_hello, execHello, setup_acts hok hk, hnone]
  dsimp only
  rw [if_neg (by simp), if_neg (by simp [hlen, hcert])]
  refine ⟨_, _, s.draw.1, s.draw.2.draw.1, rfl, ?_, (sendSetup_fields ..).2.2, rfl⟩
  exact (secretOf_of_secrets (sendSetup_fields ..).1 f.srcMod).trans (secretOf_putSecret s.draw.2.draw.2.draw.2 ⟨f.srcMod, _, _, _, _, _, _, _, _⟩)

theorem hello_fails (hok : s.frameOk l f = true) (hk : ctrlKind f = 0x10) (hnone : s.secretOf f.srcMod = none)
    (hbad : (f.payload.drop 4).length ≠ 4972 ∨ Config.certificateOk ((f.payload.drop 4).take 3756) = false) : exec (.hello l f) s = .next (s.agreeFail f.srcMod) := by
  rw [exec_hello, execHello, setup_acts hok hk, hnone]
  dsimp only
  rw [if_neg (by simp), if_pos (by simpa using hbad)]

/-- R479: the initiator's entry once it verified the ACCEPT with content `bs`. -/
def Secret.accepted (x : Secret) (bs : List Byte) : Secret :=
  { x with transcript := Config.sha3 (x.hello ++ bs.take 4876), secret := pairSecret (Config.kemDecap x.draw ((bs.drop 3756).take 1088)) (Config.sha3 (x.hello ++ bs.take 4876)) }

theorem accept_agrees {x : Secret} (hok : s.frameOk l f = true) (hk : ctrlKind f = 0x11) (hx : s.secretOf f.srcMod = some x) (hopen : (x.initiator && !x.agreed && !x.failed) = true)
    (hlen : (f.payload.drop 4).length = 7296) (hcert : Config.certificateOk ((f.payload.drop 4).take 3756) = true)
    (hsig : Config.mldsaVerify (certKey (f.payload.drop 4)) (ascii "BROAMET-LINK") (digestBytes (Config.sha3 (x.hello ++ (f.payload.drop 4).take 4876))) ((f.payload.drop 4).drop 4876) = true) :
    ∃ v : State, v.cores = s.cores ∧ exec (.accept l f) s = .next (v.agreed (x.accepted (f.payload.drop 4))) := by
  rw [exec_accept, execAccept, setup_acts hok hk, hx, Option.filter_some, if_pos hopen]
  dsimp only
  rw [if_neg (by rw [hcert, hsig, hlen]; simp)]
  exact ⟨s.draw.2.sendSetup l f.srcMod (linkHearth f.srcLink) 0x12 _, (sendSetup_fields ..).2.2, rfl⟩

theorem accept_fails {x : Secret} (hok : s.frameOk l f = true) (hk : ctrlKind f = 0x11) (hx : s.secretOf f.srcMod = some x) (hopen : (x.initiator && !x.agreed && !x.failed) = true)
    (hbad : (f.payload.drop 4).length ≠ 7296 ∨ Config.certificateOk ((f.payload.drop 4).take 3756) = false
      ∨ Config.mldsaVerify (certKey (f.payload.drop 4)) (ascii "BROAMET-LINK") (digestBytes (Config.sha3 (x.hello ++ (f.payload.drop 4).take 4876))) ((f.payload.drop 4).drop 4876) = false) :
    exec (.accept l f) s = .next (s.agreeFail f.srcMod) := by
  rw [exec_accept, execAccept, setup_acts hok hk, hx, Option.filter_some, if_pos hopen]
  dsimp only
  rw [if_pos (by simpa using hbad)]

theorem finish_acts {x : Secret} (hok : s.frameOk l f = true) (hk : ctrlKind f = 0x12) (hx : s.secretOf f.srcMod = some x) (hopen : (!x.initiator && !x.agreed && !x.failed) = true) :
    exec (.finish l f) s = .next (if Config.mldsaVerify (certKey x.hello) (ascii "BROAMET-LINK") (digestBytes x.transcript) (f.payload.drop 4) then s.agreed x else s.agreeFail f.srcMod) := by
  rw [exec_finish, execFinish, setup_acts hok hk, hx, Option.filter_some, if_pos hopen]

/-- R480, R373: what PAIR makes of the pair, before this module's nonce answers it. -/
def LinkPair.offered (p : LinkPair) (nonce : BitVec 128) (offer : Nat) : LinkPair :=
  { p with up := false, down := false, nonce := if p.up then none else p.nonce, peerNonce := some nonce, version := BitVec.ofNat 2 offer, noVersion := decide (offer = 0) }

theorem pair_answers {x : Secret} (hok : s.frameOk l f = true) (hk : ctrlKind f = 0x13) (hx : s.secretOf f.srcMod = some x) (hagreed : x.agreed = true) (hlen : (f.payload.drop 4).length = 16)
    (hp : s.findPair l f.srcMod (linkHearth f.srcLink) = some p) : ∃ t n, exec (.pair l f) s = .next t ∧ t.cores = s.cores
      ∧ t.findPair l f.srcMod (linkHearth f.srcLink) = some { p.offered (BitVec.ofNat 128 (leNat (f.payload.drop 4))) (min f.ver.toNat s.fab.protoMax.toNat) with nonce := some n } := by
  have hmod := findPair_modPair (f := fun p => p.offered (BitVec.ofNat 128 (leNat (f.payload.drop 4))) (min f.ver.toNat s.fab.protoMax.toNat)) (fun _ => ⟨rfl, rfl, rfl⟩) hp
  obtain ⟨n, hn⟩ := sendPair_nonce hmod rfl
  have hens : s.ensurePair l f.srcMod (linkHearth f.srcLink) = some s := by rw [State.ensurePair, hp]; rfl
  rw [exec_pair, execPair, setup_acts hok hk, hx]
  dsimp only
  rw [if_neg (by simp [hagreed, hlen]), hens]
  exact ⟨_, n, rfl, (sendPair_fields ..).2, hn⟩

/-! Pairs set up (R353, R373, R480) -/

theorem linkPairSetup_acts {x : Secret} {a b : BitVec 128} (hp : s.findPair l peer far = some p) (hdown : p.up = false) (ha : p.nonce = some a) (hb : p.peerNonce = some b) (hx : s.secretOf peer = some x)
    (hagreed : x.agreed = true) (hlink : s.fab.links[l].mode = .up) : exec (.linkPairSetup l peer far) s = .next (if p.noVersion then ((s.modPair l peer far fun p => { p with unacked := [] }).failPkts p.unacked stLinkProto).pumpStalled
      else (s.modPair l peer far fun p => (p.keyed s.fab.moduleId x.secret).opened s.now).flushLink l) := by
  rw [exec_linkPairSetup, execLinkPairSetup, hp]
  dsimp only
  rw [hdown, ha, hb, hx, hlink, if_neg (by simp [hagreed])]
  rfl

/-- R480: the direction keys of a pair, by the nonces of the lower and the higher id. -/
theorem keyed_keys {x : Secret} {a b : BitVec 128} {own : BitVec 16} {low : Bool} {lo hi : BitVec 128} {key : Nat → Digest} (ha : p.nonce = some a) (hb : p.peerNonce = some b)
    (hlow : low = decide (own.toNat < p.peer.toNat)) (hlo : lo = if low then a else b) (hhi : hi = if low then b else a)
    (hkey : key = fun d => Config.sha3 (ascii "BROAMET-LINK" ++ digestBytes x.secret ++ toLE lo.toNat 16 ++ toLE hi.toNat 16 ++ toLE d 1)) :
    (p.keyed own x.secret).txKey = key (if low then 0 else 1) ∧ (p.keyed own x.secret).rxKey = key (if low then 1 else 0) := by
  subst hkey hlo hhi
  unfold LinkPair.keyed
  rw [ha, hb, ← hlow]
  cases low <;> exact ⟨rfl, rfl⟩

theorem opened_counters (p : LinkPair) (now : Nat) :
    (p.opened now).unacked.map (·.ctr) = List.range p.unacked.length ∧ (p.opened now).unacked.map (·.payload) = p.unacked.map (·.payload) := by
  unfold LinkPair.opened
  constructor
  · exact List.ext_getElem (by simp) fun i _ _ => by simp
  · exact List.ext_getElem (by simp) fun i _ _ => by simp

theorem Flushed.contents {q : LinkPair} (h : Flushed p q) : q.unacked.map (·.ctr) = p.unacked.map (·.ctr) ∧ q.unacked.map (·.payload) = p.unacked.map (·.payload) := by
  obtain ⟨-, hcontent, -⟩ := h
  constructor
  · simpa [Function.comp_def] using congrArg (List.map Prod.fst) hcontent
  · simpa [Function.comp_def] using congrArg (List.map Prod.snd) hcontent

/-- R373: a pair without a common version loses what waits on it. -/
theorem noVersion_drops (hp : s.findPair l peer far = some p) (hs : s.fab.stalled = []) :
    (((s.modPair l peer far fun p => { p with unacked := [] }).failPkts p.unacked stLinkProto).pumpStalled).findPair l peer far = some { p with unacked := [] } := by
  have hmod := findPair_modPair (f := fun p => { p with unacked := [] }) (fun _ => ⟨rfl, rfl, rfl⟩) hp
  have hfail := failPkts_fab p.unacked stLinkProto (s.modPair l peer far fun p => { p with unacked := [] })
  rw [pumpStalled_none (by exact (congrArg Fabric.stalled hfail).trans hs)]
  exact (findPair_of_pairs (congrArg Fabric.pairs hfail) ..).trans hmod

/-! Timers (R354, R355, R359) -/

theorem findPair_reach (t : Nat) : (s.reach t).findPair l peer far = s.findPair l peer far := findPair_of_pairs (congrArg Fabric.pairs (reach_fab s t)) ..

theorem ackTimer_acks {r : Nat} (hp : s.findPair l peer far = some p) (hup : p.up = true) (hr : p.rxSince = some r) :
    ∃ t q a, exec (.ackTimer l peer far) s = .next t ∧ t.now = max s.now (r + 2500) ∧ t.fab.sent = s.fab.sent ++ [a] ∧ a.pkt.type = 4 ∧ a.ackPsn = BitVec.ofNat 32 p.rxNext
      ∧ t.findPair l peer far = some q ∧ q.rxSince = none ∧ q.rxCount = 0 := by
  obtain ⟨hfound, hsent⟩ := sendAck_known (s := s.reach (r + usTicks 1)) (findPair_reach _ |>.trans hp) false 0
  obtain ⟨-, -, -, -, hnow⟩ := (sendAck_fabOnly (s := s.reach (r + usTicks 1)) l peer far false 0).fields
  have hexec : exec (.ackTimer l peer far) s = .next ((s.reach (r + usTicks 1)).sendAck l peer far false 0) := by
    rw [exec_ackTimer, execAckTimer, hp, Option.bind_some, hup, hr]
    rfl
  rw [reach_fab] at hsent
  exact ⟨_, { p with ackSeq := p.ackSeq + 1, rxCount := 0, rxSince := none }, s.fab.frameOf p (ackPkt p false 0), hexec, hnow.trans (reach_now ..), hsent, rfl, rfl, hfound, rfl, rfl⟩

theorem resendTimer_acts {k : TxPkt} (hp : s.findPair l peer far = some p) (hup : p.up = true) (hk : p.unacked.find? (·.left) = some k) :
    exec (.resendTimer l peer far) s = .next (((s.reach (p.progressAt + 40000)).modPair l peer far fun y => { y with progressAt := (s.reach (p.progressAt + 40000)).now }).resendFrom l p [k]) := by
  rw [exec_resendTimer, execResendTimer, hp, Option.filter_some, if_pos hup]
  dsimp only
  rw [hk]
  rfl

theorem busyResendTimer_acts {k : TxPkt} {b : Nat} (hp : s.findPair l peer far = some p) (hup : p.up = true) (hk : p.unacked.find? (fun y => y.busyAt.isSome) = some k) (hb : k.busyAt = some b) :
    exec (.busyResendTimer l peer far) s = .next (((s.reach (b + 5000)).modPair l peer far fun y => { y with unacked := y.unacked.map fun x => if x.ctr = k.ctr then { x with busyAt := none } else x }).resend l peer far [k]) := by
  rw [exec_busyResendTimer, execBusyResendTimer, hp, Option.filter_some, if_pos hup]
  dsimp only
  rw [hk]
  dsimp only
  rw [hb]
  rfl

theorem resendTimer_again {k : TxPkt} (hp : s.findPair l p.peer p.far = some p) (hup : p.up = true) (hk : p.unacked.find? (·.left) = some k) (hlt : p.resends < 8) :
    ∃ t q, exec (.resendTimer l p.peer p.far) s = .next t ∧ t.fab.sent = s.fab.sent ++ [s.fab.frameOf p k] ∧ t.findPair l p.peer p.far = some q ∧ q.resends = p.resends + 1 ∧ q.progressAt = t.now
      ∧ q.unacked = p.unacked ∧ t.now = max s.now (p.progressAt + 40000) ∧ t.cores = s.cores := by
  have hmod := findPair_modPair (s := s.reach (p.progressAt + 40000)) (f := fun y => { y with progressAt := (s.reach (p.progressAt + 40000)).now }) (fun _ => ⟨rfl, rfl, rfl⟩) ((findPair_reach _).trans hp)
  obtain ⟨q, hq, hqe, hsent, hfab⟩ := resendFrom_again (l := l) (ks := [k]) (y := { p with progressAt := (s.reach (p.progressAt + 40000)).now }) hmod hlt
  obtain ⟨hcores, -, -, -, hnow⟩ := ((modFab_fabOnly (s.reach (p.progressAt + 40000)) _).trans hfab).fields
  have hsent' : ((s.reach (p.progressAt + 40000)).modPair l p.peer p.far fun y => { y with progressAt := (s.reach (p.progressAt + 40000)).now }).fab.sent = s.fab.sent := (congrArg Fabric.sent (reach_fab s _) :)
  refine ⟨_, q, resendTimer_acts hp hup hk, hsent.trans ?_, hq, ?_, ?_, ?_, hnow.trans (reach_now ..), hcores.trans (reach_cores ..)⟩
  · rw [hsent', State.modPair, State.modFab, reach_fab]
    rfl
  · exact (congrArg LinkPair.resends hqe :).trans (congrArg (p.resends + ·) (if_pos (by rw [hk]; rfl)))
  · exact (congrArg LinkPair.progressAt hqe :).trans hnow.symm
  · exact (congrArg LinkPair.unacked hqe :)

theorem resendTimer_lost {k : TxPkt} (hp : s.findPair l p.peer p.far = some p) (hup : p.up = true) (hk : p.unacked.find? (·.left) = some k) (hge : 8 ≤ p.resends) (hs : s.fab.stalled = []) :
    ∃ t q, exec (.resendTimer l p.peer p.far) s = .next t ∧ t.findPair l p.peer p.far = some q ∧ q.up = false ∧ q.down = true ∧ q.unacked = [] := by
  have hmod := findPair_modPair (s := s.reach (p.progressAt + 40000)) (f := fun y => { y with progressAt := (s.reach (p.progressAt + 40000)).now }) (fun _ => ⟨rfl, rfl, rfl⟩) ((findPair_reach _).trans hp)
  have hexec := resendTimer_acts hp hup hk
  rw [resendFrom_lost hge (by rw [hk]; rfl)] at hexec
  have hs' : (s.reach (p.progressAt + 40000)).fab.stalled = [] := by rw [reach_fab, hs]
  exact ⟨_, _, hexec, pairDown_found (s := State.log _ _) false hmod hs', rfl, rfl, rfl⟩

theorem busyResendTimer_again {k : TxPkt} {b : Nat} (hp : s.findPair l p.peer p.far = some p) (hup : p.up = true) (hk : p.unacked.find? (fun y => y.busyAt.isSome) = some k) (hb : k.busyAt = some b) :
    ∃ t q, exec (.busyResendTimer l p.peer p.far) s = .next t ∧ t.fab.sent = s.fab.sent ++ [s.fab.frameOf p k]
      ∧ t.findPair l p.peer p.far = some q ∧ q.resends = p.resends ∧ (∀ y ∈ q.unacked, y.ctr = k.ctr → y.busyAt = none) ∧ t.now = max s.now (b + 5000) ∧ t.cores = s.cores := by
  have hmod := findPair_modPair (s := s.reach (b + 5000)) (f := fun y => { y with unacked := y.unacked.map fun x => if x.ctr = k.ctr then { x with busyAt := none } else x }) (fun _ => ⟨rfl, rfl, rfl⟩) ((findPair_reach _).trans hp)
  obtain ⟨hsent, hfound, hfab⟩ := resend_known hmod [k]
  obtain ⟨hcores, -, -, -, hnow⟩ := ((modFab_fabOnly (s.reach (b + 5000)) _).trans hfab).fields
  refine ⟨_, _, busyResendTimer_acts hp hup hk hb, hsent.trans ?_, hfound, rfl, fun y hy hctr => ?_, hnow.trans (reach_now ..), hcores.trans (reach_cores ..)⟩
  · rw [State.modPair, State.modFab, reach_fab]
    rfl
  · obtain ⟨x, -, rfl⟩ := List.mem_map.1 hy
    by_cases hx : x.ctr = k.ctr
    · rw [if_pos hx]
    · rw [if_neg hx] at hctr
      exact absurd hctr hx

/-- Settles O52: each step of an agreement and of a pair's set-up acts once its checks pass; each timer of a pair acts on what it waits for. -/
theorem agreementAndPairTimersAct : Obligations.AgreementAndPairTimersAct := by
  rintro s l f bs peer far rfl rfl rfl
  refine ⟨fun hok => ⟨?_, ?_, ?_, ?_, ?_⟩, ?_, ?_, fun p hp => ⟨?_, ?_, ?_, ?_⟩⟩
  · intro x hk hx hinit hagreed hfailed hlt
    rw [exec_hello, execHello, setup_acts hok hk, hx]
    dsimp only
    rw [if_pos (by simp [hinit, hagreed, hfailed, hlt])]
  · refine fun hk hnone => ⟨fun hlen hcert => ?_, fun hbad => ?_⟩
    · obtain ⟨t, x, r, m, hexec, hx, hcores, rfl⟩ := hello_answers hok hk hnone hlen hcert
      exact ⟨t, _, acceptContent (f.payload.drop 4) r m, r, m.toNat, hexec, hx, rfl, rfl, rfl, rfl, rfl, rfl, rfl, rfl, hcores⟩
    · obtain ⟨y, hy, hfailed, hagreed⟩ := agreeFail_fails s f.srcMod
      exact ⟨_, y, hello_fails hok hk hnone hbad, hy, hfailed, hagreed⟩
  · rintro x tr hk hx hinit hagreed hfailed rfl
    have hopen : (x.initiator && !x.agreed && !x.failed) = true := by rw [hinit, hagreed, hfailed]; rfl
    refine ⟨fun hlen hcert hsig => ?_, fun hbad => ?_⟩
    · obtain ⟨v, hv, hexec⟩ := accept_agrees hok hk hx hopen hlen hcert hsig
      obtain ⟨hy, hcores⟩ := agreed_agrees v (x.accepted (f.payload.drop 4))
      exact ⟨_, _, hexec, secretOf_peer hx ▸ hy, rfl, rfl, rfl, hcores.trans hv⟩
    · obtain ⟨y, hy, hyf, hya⟩ := agreeFail_fails s f.srcMod
      exact ⟨_, y, accept_fails hok hk hx hopen hbad, hy, hyf, hya⟩
  · intro x hk hx hinit hagreed hfailed
    have hexec := finish_acts hok hk hx (by rw [hinit, hagreed, hfailed]; rfl)
    refine ⟨fun hsig => ?_, fun hsig => ?_⟩
    · obtain ⟨hy, hcores⟩ := agreed_agrees s x
      rw [if_pos hsig] at hexec
      exact ⟨_, hexec, secretOf_peer hx ▸ hy, hcores⟩
    · obtain ⟨y, hy, hyf, hya⟩ := agreeFail_fails s f.srcMod
      rw [if_neg (by rw [hsig]; exact Bool.false_ne_true)] at hexec
      exact ⟨_, y, hexec, hy, hyf, hya⟩
  · intro x p hk hx hagreed hlen hp
    obtain ⟨t, n, hexec, hcores, hq⟩ := pair_answers hok hk hx hagreed hlen hp
    exact ⟨t, _, hexec, hq, rfl, rfl, rfl, rfl, Nat.mod_eq_of_lt (lt_of_le_of_lt (Nat.min_le_right _ _) s.fab.protoMax.isLt), hcores⟩
  · intro hbad k cmd hmem hk
    simp only [List.mem_cons, Prod.mk.injEq, List.not_mem_nil, or_false] at hmem
    rcases hmem with ⟨rfl, rfl⟩ | ⟨rfl, rfl⟩ | ⟨rfl, rfl⟩ | ⟨rfl, rfl⟩
    · rw [exec_hello, execHello, setup_badFrame hbad hk]
    · rw [exec_accept, execAccept, setup_badFrame hbad hk]
    · rw [exec_finish, execFinish, setup_badFrame hbad hk]
    · rw [exec_pair, execPair, setup_badFrame hbad hk]
  · intro x hx hagreed hfailed
    have hexec : exec (.keyAgreementTimeout f.srcMod) s = .next ((s.reach (x.since + 12500000)).agreeFail f.srcMod) := by
      rw [exec_keyAgreementTimeout, execKeyAgreementTimeout, hx, Option.filter_some, if_pos (by rw [hagreed, hfailed]; rfl)]
      rfl
    obtain ⟨y, hy, hyf, hya⟩ := agreeFail_fails (s.reach (x.since + 12500000)) f.srcMod
    exact ⟨_, y, hexec, hy, hyf, hya, (agreeFail_now ..).trans (reach_now ..)⟩
  · intro x a b hdown ha hb hx hagreed hlink
    have hexec := linkPairSetup_acts hp hdown ha hb hx hagreed hlink
    refine ⟨fun hver => ?_, fun hver hs => ?_⟩
    · rw [if_neg (by rw [hver]; exact Bool.false_ne_true)] at hexec
      have hmod := findPair_modPair (f := fun p => (p.keyed s.fab.moduleId x.secret).opened s.now) (fun _ => ⟨rfl, rfl, rfl⟩) hp
      obtain ⟨q, hq, hflush⟩ := findPair_flushLink l hmod
      obtain ⟨hctr, hpay⟩ := hflush.contents
      obtain ⟨hoctr, hopay⟩ := opened_counters (p.keyed s.fab.moduleId x.secret) s.now
      obtain ⟨hsame, -, -⟩ := hflush
      refine ⟨_, q, hexec, hq, (congrArg LinkPair.up hsame :), (congrArg LinkPair.down hsame :), (congrArg LinkPair.txNext hsame :), (congrArg LinkPair.rxNext hsame :), (congrArg LinkPair.ackSeq hsame :),
        (congrArg LinkPair.rxAhead hsame :), hctr.trans hoctr, hpay.trans hopay, ?_, ?_⟩
      · intro low lo hi key hlow hlo hhi hkey
        obtain ⟨htx, hrx⟩ := keyed_keys ha hb ((findPair_is hp).2.1 ▸ hlow) hlo hhi hkey
        exact ⟨(congrArg LinkPair.txKey hsame :).trans htx, (congrArg LinkPair.rxKey hsame :).trans hrx⟩
      · unfold State.flushLink
        rfl
    · rw [if_pos hver] at hexec
      exact ⟨_, _, hexec, noVersion_drops hp hs, rfl, hdown⟩
  · exact fun r hup hr => ackTimer_acks hp hup hr
  · intro k hup hk
    obtain ⟨-, hpeer, hfar⟩ := findPair_is hp
    rw [← hpeer, ← hfar] at hp ⊢
    exact ⟨resendTimer_again hp hup hk, resendTimer_lost hp hup hk⟩
  · intro k b hup hk hb
    obtain ⟨-, hpeer, hfar⟩ := findPair_is hp
    rw [← hpeer, ← hfar] at hp ⊢
    exact busyResendTimer_again hp hup hk hb

end Sys2Proof.Machine
end

section

/-! PROOFS. Training of the links, and their loss. -/

namespace Sys2Proof.Machine

variable {s u : State} {l : Fin 128} {p : LinkPair}

/-! A link that goes down takes its pairs with it (R355) -/

/-- From `s` to `t` the links, memory and clock stand; on a link that is not up no pair has appeared or been brought back. -/
def LinksStand (s t : State) : Prop := Rails s.fab t.fab ∧ t.mem = s.mem ∧ t.now = s.now

theorem Rails.refl (x : Fabric) : Rails x x := rails_of_pairs rfl fun _ => id

theorem Rails.trans {x y z : Fabric} (h : Rails x y) (k : Rails y z) : Rails x z := by
  obtain ⟨hl, hp⟩ := h
  obtain ⟨kl, kp⟩ := k
  have hlinks : y.links = x.links := (congrArg Fabric.links hl :)
  have hrest : { z with pairs := x.pairs, secrets := x.secrets, sent := x.sent, stalled := x.stalled } = { y with pairs := x.pairs, secrets := x.secrets, sent := x.sent, stalled := x.stalled } :=
    (congrArg (fun w : Fabric => { w with pairs := x.pairs, secrets := x.secrets, sent := x.sent, stalled := x.stalled }) kl :)
  refine ⟨hrest.trans hl, fun q hq => ?_⟩
  rcases kp q hq with hup | ⟨p, hpm, h1, h2, h3, h4⟩
  · exact .inl (hlinks ▸ hup)
  · rcases hp p hpm with hup | ⟨o, hom, k1, k2, k3, k4⟩
    · exact .inl (by simpa only [h1] using hup)
    · exact .inr ⟨o, hom, k1.trans h1, k2.trans h2, k3.trans h3, k4.trans h4⟩

theorem linksStand_rails : RailFrame LinksStand where
  refl s := ⟨Rails.refl _, rfl, rfl⟩
  trans := fun ⟨h1, h2, h3⟩ ⟨k1, k2, k3⟩ => ⟨h1.trans k1, k2.trans h2, k3.trans h3⟩
  rails _ _ h := ⟨h, rfl, rfl⟩
  draw _ := ⟨Rails.refl _, rfl, rfl⟩
  sends _ _ _ _ := ⟨Rails.refl _, rfl, rfl⟩
  linkFault s g st b q d _ := ⟨by rw [coreFault_fab]; exact Rails.refl _, coreFault_mem .., coreFault_now ..⟩

/-- From `s` to `t` the links, memory and clock stand; where link `l` is not up, its pairs are those of `s`, and no pair of it that was down is up again. -/
def PairsFall (l : Fin 128) (s t : State) : Prop :=
  t.fab.links = s.fab.links ∧ t.fab.modes = s.fab.modes ∧ t.mem = s.mem ∧ t.now = s.now
    ∧ (s.fab.links[l].mode ≠ .up → ∀ q ∈ t.fab.pairs, q.link = l → ∃ p ∈ s.fab.pairs, p.link = l ∧ p.peer = q.peer ∧ p.far = q.far ∧ (p.down = true → q.down = true))

theorem LinksStand.pairsFall (h : LinksStand s u) (l : Fin 128) : PairsFall l s u := by
  obtain ⟨⟨hl, hp⟩, hm, hn⟩ := h
  refine ⟨(congrArg Fabric.links hl :), (congrArg Fabric.modes hl :), hm, hn, fun hup q hq hql => ?_⟩
  rcases hp q hq with h1 | ⟨p, hpm, h1, h2, h3, h4⟩
  · subst hql
    exact absurd h1 hup
  · exact ⟨p, hpm, h1.trans hql, h2, h3, fun hd => h4 ▸ hd⟩

theorem PairsFall.trans {t : State} (h : PairsFall l s u) (k : PairsFall l u t) : PairsFall l s t := by
  obtain ⟨hl, ho, hm, hn, hp⟩ := h
  obtain ⟨kl, ko, km, kn, kp⟩ := k
  refine ⟨kl.trans hl, ko.trans ho, km.trans hm, kn.trans hn, fun hup q hq hql => ?_⟩
  obtain ⟨p, hpm, h1, h2, h3, h4⟩ := kp (by rw [hl]; exact hup) q hq hql
  obtain ⟨o, hom, k1, k2, k3, k4⟩ := hp hup p hpm h1
  exact ⟨o, hom, k1, k2.trans h2, k3.trans h3, fun hd => h4 (k4 hd)⟩

/-- R355: what a pair that goes down loses. -/
def LinkPair.lost (p : LinkPair) : LinkPair := { p with up := false, down := true, unacked := [], rxAhead := [], rxCount := 0, rxSince := none, nonce := none, peerNonce := none }

theorem pairDown_form {peer : BitVec 16} {far : Fin 8} (hp : s.findPair l peer far = some p) : LinksStand (s.modPair l peer far LinkPair.lost) (s.pairDown l peer far false) := by
  have hdown : s.pairDown l peer far false = (((s.modPair l peer far LinkPair.lost).failPkts p.unacked stLinkDown).flushLink l).pumpStalled := by
    rw [State.pairDown, hp]
    rfl
  rw [hdown]
  exact linksStand_rails.trans (linksStand_rails.trans (linksStand_rails.failPkts _ (.inl rfl)) (linksStand_rails.flushLink l)) linksStand_rails.pumpStalled

theorem modPair_lost_falls (peer : BitVec 16) (far : Fin 8) : PairsFall l s (s.modPair l peer far LinkPair.lost) := by
  refine ⟨rfl, rfl, rfl, rfl, fun _ q hq hql => ?_⟩
  obtain ⟨p, hp, rfl⟩ := List.mem_map.1 hq
  refine ⟨p, hp, ?_⟩
  by_cases his : p.is l peer far = true
  · rw [if_pos his] at hql ⊢
    exact ⟨hql, rfl, rfl, fun _ => rfl⟩
  · rw [if_neg his] at hql ⊢
    exact ⟨hql, rfl, rfl, id⟩

theorem pairDown_falls (peer : BitVec 16) (far : Fin 8) : PairsFall l s (s.pairDown l peer far false) := by
  cases hp : s.findPair l peer far with
  | none =>
    have hsame : s.pairDown l peer far false = s := by rw [State.pairDown, hp]
    rw [hsame]
    exact (linksStand_rails.refl s).pairsFall l
  | some p => exact (modPair_lost_falls peer far).trans ((pairDown_form hp).pairsFall l)

/-- A pair of a link that is not up is down once it was taken down. -/
theorem pairDown_down {peer : BitVec 16} {far : Fin 8} (hup : s.fab.links[l].mode ≠ .up) {q : LinkPair} (hq : q ∈ (s.pairDown l peer far false).fab.pairs) (hql : q.is l peer far = true) : q.down = true := by
  obtain ⟨hlink, hpeer, hfar⟩ := is_iff.1 hql
  cases hp : s.findPair l peer far with
  | none =>
    have hsame : s.pairDown l peer far false = s := by rw [State.pairDown, hp]
    rw [hsame] at hq
    exact absurd hql (List.find?_eq_none.1 hp q hq)
  | some p =>
    obtain ⟨-, -, -, -, hfalls⟩ := (pairDown_form hp).pairsFall l
    obtain ⟨o, ho, h1, h2, h3, hdown⟩ := hfalls hup q hq hlink
    obtain ⟨r, -, hr⟩ := List.mem_map.1 ho
    by_cases his : r.is l peer far = true
    · rw [if_pos his] at hr
      exact hdown (hr ▸ rfl)
    · rw [if_neg his] at hr
      exact absurd (is_iff.2 ⟨h1, h2.trans hpeer, h3.trans hfar⟩) (hr ▸ his)

/-- R355: the pairs of a link that is not up are taken down one after another: what was not down before is then. -/
theorem foldl_pairDown (l : Fin 128) : ∀ (ps : List LinkPair) (s : State), s.fab.links[l].mode ≠ .up → PairsFall l s (ps.foldl (fun s p => s.pairDown l p.peer p.far false) s)
    ∧ ((∀ q ∈ s.fab.pairs, q.link = l → q.down = true ∨ ∃ p ∈ ps, q.is l p.peer p.far = true) →
      ∀ q ∈ (ps.foldl (fun s p => s.pairDown l p.peer p.far false) s).fab.pairs, q.link = l → q.down = true)
  | [], s, _ => ⟨(linksStand_rails.refl s).pairsFall l, fun h q hq hql => (h q hq hql).elim id fun ⟨_, hp, _⟩ => absurd hp List.not_mem_nil⟩
  | p :: ps, s, hup => by
    have hstep : PairsFall l s (s.pairDown l p.peer p.far false) := pairDown_falls p.peer p.far
    obtain ⟨hrest, hdown⟩ := foldl_pairDown l ps (s.pairDown l p.peer p.far false) (hstep.1 ▸ hup)
    obtain ⟨-, -, -, -, hpairs⟩ := id hstep
    refine ⟨hstep.trans hrest, fun h => hdown fun q hq hql => ?_⟩
    obtain ⟨o, ho, h1, h2, h3, hod⟩ := hpairs hup q hq hql
    rcases h o ho h1 with hd | ⟨x, hx, his⟩
    · exact .inl (hod hd)
    · obtain ⟨-, k2, k3⟩ := is_iff.1 his
      have hqx : q.is l x.peer x.far = true := is_iff.2 ⟨hql, h2 ▸ k2, h3 ▸ k3⟩
      rcases List.mem_cons.1 hx with rfl | hx
      · exact .inl (pairDown_down hup hq hqx)
      · exact .inr ⟨x, hx, hqx⟩

/-- R355, R544: a link that goes down: its pairs are down, and beside its own entry no link, no memory and no clock changes. -/
theorem linkDown_down (m : LinkMode) (hm : m ≠ .up) :
    (s.linkDown l m).fab.links = s.fab.links.set l { s.fab.links[l] with mode := m, speed := 0, tryMode := 0, since := s.now } ∧ (s.linkDown l m).fab.modes = s.fab.modes ∧ (s.linkDown l m).mem = s.mem ∧ (s.linkDown l m).now = s.now
      ∧ ∀ q ∈ (s.linkDown l m).fab.pairs, q.link = l → q.down = true := by
  obtain ⟨v, hv⟩ : ∃ v : State, v = (s.log ⟨stLinkDown, 6, 5, l.val, 0, 0, 0, s.fab.links[l].speed.toNat * 2 ^ 16⟩).modFab fun x => { x with links := x.links.set l { x.links[l] with mode := m, speed := 0, tryMode := 0, since := s.now } } := ⟨_, rfl⟩
  have hdown : s.linkDown l m = (s.fab.pairs.filter fun p => decide (p.link = l) && !p.down).foldl (fun s p => s.pairDown l p.peer p.far false) v := by rw [hv]; rfl
  have hlinks : v.fab.links = s.fab.links.set l { s.fab.links[l] with mode := m, speed := 0, tryMode := 0, since := s.now } := by rw [hv]; rfl
  have hpairs : v.fab.pairs = s.fab.pairs := by rw [hv]; rfl
  have hnotup : v.fab.links[l].mode ≠ .up := by
    rw [hlinks]
    simpa using hm
  obtain ⟨⟨hl, hmodes, hmem, hnow, -⟩, hall⟩ := foldl_pairDown l (s.fab.pairs.filter fun p => decide (p.link = l) && !p.down) v hnotup
  rw [hdown]
  refine ⟨hl.trans hlinks, hmodes.trans (by rw [hv]; rfl), hmem.trans (by rw [hv]; rfl), hnow.trans (by rw [hv]; rfl), hall fun q hq hql => ?_⟩
  cases hd : q.down with
  | true => exact .inl rfl
  | false => exact .inr ⟨q, List.mem_filter.2 ⟨hpairs ▸ hq, by simp [hql, hd]⟩, is_iff.2 ⟨hql, rfl, rfl⟩⟩

/-! Training (R340) -/

theorem modLink_links (f : Link → Link) : (s.modLink l f).fab.links[l] = f s.fab.links[l] ∧ ∀ j : Fin 128, j ≠ l → (s.modLink l f).fab.links[j] = s.fab.links[j] := by
  have hset : (s.modLink l f).fab.links = s.fab.links.set l (f s.fab.links[l]) := rfl
  rw [hset]
  refine ⟨by simp, fun j hj => ?_⟩
  have hne : l.val ≠ j.val := fun h => hj (Fin.ext h.symm)
  simp [hne]

theorem linkUp_up (hm : s.fab.links[l].mode = .training) (ht : s.fab.links[l].tryMode ≠ 0) : ∃ t, exec (.linkUp l) s = .next t
    ∧ t.fab.links[l] = { s.fab.links[l] with mode := .up, speed := s.fab.links[l].tryMode } ∧ (∀ q ∈ t.fab.pairs, q.link = l → (s.secretOf q.peer).any (·.agreed) = true → q.down = false)
    ∧ (∀ j : Fin 128, j ≠ l → t.fab.links[j] = s.fab.links[j]) ∧ t.now = max s.now (s.fab.links[l].since + 25000000) ∧ t.glb.evNext = s.glb.evNext + 1 ∧ t.cores = s.cores ∧ t.mem = s.mem := by
  obtain ⟨v, hv⟩ : ∃ v : State, v = s.reach (s.fab.links[l].since + 25000000) := ⟨_, rfl⟩
  have hfab : v.fab = s.fab := by rw [hv, reach_fab]
  obtain ⟨hsame, hne⟩ := modLink_links (s := v) (l := l) fun k => { k with mode := .up, speed := k.tryMode }
  rw [hfab] at hsame hne
  have hexec : exec (.linkUp l) s = .next (((v.modLink l fun k => { k with mode := .up, speed := k.tryMode }).modFab fun x => { x with pairs := x.pairs.map fun p => if p.link = l ∧ ((v.modLink l fun k => { k with mode := .up, speed := k.tryMode }).secretOf p.peer).any (·.agreed) then { p with down := false } else p }).log
      ⟨0, 5, 5, l.val, 0, 0, 0, s.fab.links[l].tryMode.toNat * 2 ^ 16⟩) := by
    rw [exec_linkUp, execLinkUp, hv]
    exact congrArg _ (if_pos ⟨hm, ht⟩)
  refine ⟨_, hexec, hsame, fun q hq hql hsec => ?_, hne, by rw [log_now, modFab_now, State.modLink, modFab_now, hv, reach_now], ?_, by rw [log_cores, modFab_cores, State.modLink, modFab_cores, hv, reach_cores], by rw [log_mem, modFab_mem, State.modLink, modFab_mem, hv, reach_mem]⟩
  · obtain ⟨p, -, rfl⟩ := List.mem_map.1 hq
    by_cases hp : p.link = l ∧ ((v.modLink l fun k => { k with mode := .up, speed := k.tryMode }).secretOf p.peer).any (·.agreed) = true
    · rw [if_pos hp]
    · rw [if_neg hp] at hql hsec
      refine absurd ⟨hql, ?_⟩ hp
      have hsecrets : (v.modLink l fun k => { k with mode := .up, speed := k.tryMode }).fab.secrets = s.fab.secrets := (congrArg Fabric.secrets hfab :)
      rw [secretOf_of_secrets hsecrets, hsec]
  · have hglb : v.glb.evNext = s.glb.evNext := by rw [hv, State.reach, advance_glb]
    exact congrArg (· + 1) hglb

theorem trainLink_trains : (s.trainLink l).fab.links[l] = { s.fab.links[l] with mode := .training, speed := 0, tryMode := (enabledModes s.fab.modes).headD 0, modes := s.fab.modes, since := s.now }
    ∧ ∀ j : Fin 128, j ≠ l → (s.trainLink l).fab.links[j] = s.fab.links[j] := modLink_links _

/-- Settles O53: a link's commands act in the state of training that they name and are idle in every other. -/
theorem linksTrainAndFail : Obligations.LinksTrainAndFail := by
  rintro s l k enabled modes rfl rfl rfl
  refine ⟨fun hm ht => ⟨linkUp_up hm ht, ?_⟩, fun hm ht => ?_, fun hm => ?_, fun hm => ?_, fun hm => ⟨?_, ?_, ?_⟩⟩
  · obtain ⟨v, hv⟩ : ∃ v : State, v = s.reach (s.fab.links[l].since + 625000000) := ⟨_, rfl⟩
    obtain ⟨hsame, hne⟩ := modLink_links (s := v) (l := l) fun k => { k with tryMode := ((enabledModes k.modes).filter fun m => decide (m.toNat < k.tryMode.toNat)).headD 0, since := v.now }
    have hfab : v.fab = s.fab := by rw [hv, reach_fab]
    rw [hfab] at hsame hne
    have hexec : exec (.linkModeTimeout l) s = .next (v.modLink l fun k => { k with tryMode := ((enabledModes k.modes).filter fun m => decide (m.toNat < k.tryMode.toNat)).headD 0, since := v.now }) := by
      rw [exec_linkModeTimeout, execLinkModeTimeout, hv]
      exact congrArg _ (if_pos ⟨hm, ht⟩)
    exact ⟨_, hexec, hsame, hne, by rw [State.modLink, modFab_now, hv, reach_now], by rw [State.modLink, modFab_cores, hv, reach_cores], by rw [State.modLink, modFab_mem, hv, reach_mem]⟩
  · obtain ⟨v, hv⟩ : ∃ v : State, v = s.reach (s.fab.links[l].since + 2500000000) := ⟨_, rfl⟩
    obtain ⟨hsame, hne⟩ := trainLink_trains (s := v) (l := l)
    have hfab : v.fab = s.fab := by rw [hv, reach_fab]
    rw [hfab] at hsame hne
    have hexec : exec (.linkTrainRetry l) s = .next (v.trainLink l) := by
      rw [exec_linkTrainRetry, execLinkTrainRetry, hv]
      exact congrArg _ (if_pos ⟨hm, ht⟩)
    exact ⟨_, hexec, hsame, hne, by rw [State.trainLink, State.modLink, modFab_now, hv, reach_now], by rw [State.trainLink, State.modLink, modFab_cores, hv, reach_cores], by rw [State.trainLink, State.modLink, modFab_mem, hv, reach_mem]⟩
  · obtain ⟨hlinks, hmodes, hmem, hnow, hdown⟩ := linkDown_down (s := s) (l := l) .down (by decide)
    obtain ⟨hsame, hne⟩ := trainLink_trains (s := s.linkDown l .down) (l := l)
    refine ⟨(s.linkDown l .down).trainLink l, by rw [exec_linkDownDetect, execLinkDownDetect, if_pos hm], ?_, fun j hj => ?_, hdown, hmem⟩
    · rw [hsame, hlinks, hmodes, hnow]
      simp [enabledModes]
    · have hval : l.val ≠ j.val := fun h => hj (Fin.ext h.symm)
      rw [hne j hj, hlinks]
      simp [hval]
  · rw [exec_linkDownDetect, execLinkDownDetect, if_neg hm]
  · rw [exec_linkUp, execLinkUp]
    exact congrArg _ (if_neg fun h => hm h.1)
  · rw [exec_linkModeTimeout, execLinkModeTimeout]
    exact congrArg _ (if_neg fun h => hm h.1)
  · rw [exec_linkTrainRetry, execLinkTrainRetry]
    exact congrArg _ (if_neg fun h => hm h.1)

end Sys2Proof.Machine
end

section

/-! PROOFS. HBM stacks: what a stack's events leave alone, its bellows, replays and repairs. -/

namespace Sys2Proof.Machine

variable {s u : State} {n j : Fin 32} {h p : Fin 8}

/-! A change of one stack -/

theorem modStack_same (s : State) (n : Fin 32) (f : Stack → Stack) : (s.modStack n f).mem.stk[n] = f s.mem.stk[n] := by simp [State.modStack]

theorem modStack_ne (f : Stack → Stack) (hj : j ≠ n) : (s.modStack n f).mem.stk[j] = s.mem.stk[j] := by
  have hne : n.val ≠ j.val := fun h => hj (Fin.ext h.symm)
  simp [State.modStack, hne]

theorem modStack_rest (s : State) (n : Fin 32) (f : Stack → Stack) : { s.modStack n f with mem := s.mem } = s ∧ { (s.modStack n f).mem with stk := s.mem.stk } = s.mem := ⟨rfl, rfl⟩

/-! The event log (R544) -/

/-- From `x` to `y` only the event log has changed. -/
def Logged (x y : Glb) : Prop := { y with evlog := x.evlog, evNext := x.evNext, evAt := x.evAt, evSame := x.evSame, evOver := x.evOver } = x

theorem Logged.trans {x y z : Glb} (h : Logged x y) (k : Logged y z) : Logged x z := by
  have hk : { z with evlog := x.evlog, evNext := x.evNext, evAt := x.evAt, evSame := x.evSame, evOver := x.evOver } = { y with evlog := x.evlog, evNext := x.evNext, evAt := x.evAt, evSame := x.evSame, evOver := x.evOver } :=
    (congrArg (fun g : Glb => { g with evlog := x.evlog, evNext := x.evNext, evAt := x.evAt, evSame := x.evSame, evOver := x.evOver }) k :)
  exact hk.trans h

theorem log_logged (s : State) (e : Event) : Logged s.glb (s.log e).glb := rfl

theorem Logged.present {x y : Glb} (h : Logged x y) : y.hrtPresent = x.hrtPresent := (congrArg Glb.hrtPresent h :)

/-! Media contexts that end (R431, R432) -/

/-- From `x` to `y` bytes were written and replays given up. -/
def MemEnds (x y : Mem) : Prop := { y with hbm := x.hbm, host := x.host, badHbm := x.badHbm, replays := x.replays } = x

theorem MemEnds.trans {x y z : Mem} (h : MemEnds x y) (k : MemEnds y z) : MemEnds x z := by
  have hk : { z with hbm := x.hbm, host := x.host, badHbm := x.badHbm, replays := x.replays } = { y with hbm := x.hbm, host := x.host, badHbm := x.badHbm, replays := x.replays } :=
    (congrArg (fun m : Mem => { m with hbm := x.hbm, host := x.host, badHbm := x.badHbm, replays := x.replays }) k :)
  exact hk.trans h

/-- From `s` to `t` media contexts have ended: bytes were written, replays given up, events pended and logged. -/
def MediaEnds (s t : State) : Prop :=
  { t with mem := s.mem, media := s.media, larcy := s.larcy, glb := s.glb } = s
    ∧ MemEnds s.mem t.mem ∧ Logged s.glb t.glb

theorem MediaEnds.refl (s : State) : MediaEnds s s := ⟨rfl, rfl, rfl⟩

theorem MediaEnds.trans {t : State} (h : MediaEnds s u) (k : MediaEnds u t) : MediaEnds s t := by
  obtain ⟨h1, h2, h3⟩ := h
  obtain ⟨k1, k2, k3⟩ := k
  have hstate : { t with mem := s.mem, media := s.media, larcy := s.larcy, glb := s.glb } = { u with mem := s.mem, media := s.media, larcy := s.larcy, glb := s.glb } :=
    (congrArg (fun v : State => { v with mem := s.mem, media := s.media, larcy := s.larcy, glb := s.glb }) k1 :)
  exact ⟨hstate.trans h1, h2.trans k2, h3.trans k3⟩

theorem write_frame (m : Mem) (a : Nat) (bs : List Byte) : MemEnds m (m.write a bs) := by
  unfold Mem.write MemEnds
  split
  · rfl
  · split <;> rfl

theorem write_mediaEnds (a : Nat) (bs : List Byte) : MediaEnds s { s with mem := s.mem.write a bs } := ⟨rfl, write_frame .., rfl⟩

theorem putPointers_mediaEnds (c : MediaCtx) : MediaEnds s (s.putPointers c) := by
  unfold State.putPointers
  dsimp only
  split
  · exact (write_mediaEnds _ _).trans (write_mediaEnds _ _)
  · exact (write_mediaEnds _ _).trans (write_mediaEnds _ _)

theorem pushEvent_mediaEnds (w : Option (Fin 4096)) (ev : LEvent) : MediaEnds s (s.pushEvent w ev) := by
  cases w with
  | none => exact MediaEnds.refl s
  | some n =>
    have hrest : { s.modCtx n (fun c => { c with events := c.events ++ [ev] }) with larcy := s.larcy } = s := modCtx_rest s n _
    have hmem : (s.modCtx n fun c => { c with events := c.events ++ [ev] }).mem = s.mem := (congrArg State.mem hrest :)
    have hglb : (s.modCtx n fun c => { c with events := c.events ++ [ev] }).glb = s.glb := (congrArg State.glb hrest :)
    refine ⟨(congrArg (fun v : State => { v with mem := s.mem, media := s.media, larcy := s.larcy, glb := s.glb }) hrest :), ?_, ?_⟩
    · have hsame : (s.pushEvent (some n) ev).mem = s.mem := hmem
      rw [hsame]
      rfl
    · have hsame : (s.pushEvent (some n) ev).glb = s.glb := hglb
      rw [hsame]
      rfl

theorem log_mediaEnds (e : Event) : MediaEnds s (s.log e) := ⟨rfl, rfl, rfl⟩

theorem endMedia_mediaEnds (e : Fin 2) (i : Fin 256) (st : Status) : MediaEnds s (s.endMedia e i st) := by
  unfold State.endMedia
  split
  · exact MediaEnds.refl s
  · rename_i c _
    have hend : ∀ v ev f, MediaEnds s v → MediaEnds s ((State.modEngine (v.putPointers c) e f).pushEvent c.owner ev) := fun v ev f hv => by
      have hmod : MediaEnds (v.putPointers c) ((v.putPointers c).modEngine e f) := ⟨rfl, rfl, rfl⟩
      exact hv.trans ((putPointers_mediaEnds c).trans (hmod.trans (pushEvent_mediaEnds _ _)))
    refine ite_frame (R := MediaEnds) (fun _ => hend _ _ _ ?_) fun _ => (hend _ _ _ ?_).trans (log_mediaEnds _)
    · exact (write_mediaEnds _ _).trans ⟨rfl, rfl, rfl⟩
    · exact (write_mediaEnds _ _).trans ⟨rfl, rfl, rfl⟩

theorem endMediaOn_mediaEnds (t : Nat → Nat → Bool) (st : Status) : MediaEnds s (s.endMediaOn t st) := by
  unfold State.endMediaOn
  refine List.foldlRecOn (motive := MediaEnds s) _ _ (MediaEnds.refl s) fun u hu e _ => ?_
  refine List.foldlRecOn (motive := MediaEnds s) _ _ hu fun v hv c _ => ?_
  exact ite_frame (R := MediaEnds) (fun _ => hv.trans (endMedia_mediaEnds ..)) fun _ => hv

/-- What media contexts that end leave alone. -/
theorem MediaEnds.fields {t : State} (h : MediaEnds s t) : t.mem.stk = s.mem.stk ∧ t.mem.fenceRecords = s.mem.fenceRecords ∧ t.cores = s.cores ∧ t.parts = s.parts ∧ t.pwr = s.pwr ∧ t.fab = s.fab
    ∧ Logged s.glb t.glb ∧ t.now = s.now ∧ t.sec = s.sec := by
  obtain ⟨h1, h2, h3⟩ := h
  exact ⟨(congrArg Mem.stk h2 :), (congrArg Mem.fenceRecords h2 :), (congrArg State.cores h1 :), (congrArg State.parts h1 :), (congrArg State.pwr h1 :), (congrArg State.fab h1 :), h3, (congrArg State.now h1 :), (congrArg State.sec h1 :)⟩

/-! Bellows (R315, R318) -/

theorem sampleLevel_quench {x : Nat} : sampleLevel x = 4 ↔ 210 ≤ x := by
  unfold sampleLevel
  split
  · exact ⟨fun _ => ‹_›, fun _ => rfl⟩
  · refine ⟨fun h => ?_, fun h => absurd h ‹_›⟩
    repeat' split at h
    all_goals omega

/-- What sending keeps of the waits, the memory and the clock. -/
def WaitsStand (s t : State) : Prop := (∀ g, (t.core g).wait = (s.core g).wait) ∧ t.mem = s.mem ∧ t.now = s.now

theorem waitsStand_sends : SendFrame WaitsStand where
  refl _ := ⟨fun _ => rfl, rfl, rfl⟩
  trans := fun ⟨h1, h2, h3⟩ ⟨k1, k2, k3⟩ => ⟨fun g => (k1 g).trans (h1 g), k2.trans h2, k3.trans h3⟩
  fab _ _ := ⟨fun _ => rfl, rfl, rfl⟩
  draw _ := ⟨fun _ => rfl, rfl, rfl⟩
  sends s g ms cs := by
    refine ⟨fun j => ?_, rfl, rfl⟩
    by_cases hj : j = g
    · subst hj
      rw [modCore_core_same]
    · rw [modCore_core_ne hj]
  fault s g st b q d := by
    refine ⟨fun j => ?_, coreFault_mem .., coreFault_now ..⟩
    by_cases hj : j = g
    · subst hj
      exact (congrArg Core.wait (coreFault_core_same s j st b q d) :)
    · rw [coreFault_core_ne s g st b q d hj]

theorem delayNotice_restarts (hp : s.partOf h = some p) :
    (s.delayNotice h).mem = { s.mem with noticeAt := s.mem.noticeAt.set h s.now } ∧ (s.delayNotice h).now = s.now
      ∧ ∀ g ∈ s.members p, ∀ w, (s.core g).wait = some w → ((s.delayNotice h).core g).wait = some { w with since := s.now } := by
  obtain ⟨v, hv⟩ : ∃ v : State, v = { s with mem := { s.mem with noticeAt := s.mem.noticeAt.set h s.now } } := ⟨_, rfl⟩
  have hvp : v.partOf h = some p := by rw [hv]; exact hp
  obtain ⟨-, hmem, -, hwait, -⟩ := restartLimits_waits (s := v) p fun _ => true
  have hstand : WaitsStand (v.restartLimits p fun _ => true) (s.delayNotice h) := by
    unfold State.delayNotice
    dsimp only
    rw [← hv, hvp]
    exact waitsStand_sends.foldl (fun _ _ => waitsStand_sends.foldl (fun _ _ => waitsStand_sends.unitControl ..) _ _) _ _
  obtain ⟨hcore, hm, hn⟩ := hstand
  refine ⟨hm.trans (hmem.trans (by rw [hv])), hn.trans ?_, fun g hg w hw => ?_⟩
  · rw [State.restartLimits, modCores_now, hv]
  · rw [hcore, hwait g (by rw [hv]; exact hg) w (by rw [hv]; exact hw), hv]

theorem tempSample_acts (x : Nat) (hx : x < 210) (hm : s.mem.stk[n].mode = .inService) :
    exec (.stackTempSample n x) s = .next (if nextLevel s.mem.stk[n].level.val x ≠ s.mem.stk[n].level.val ∧ 2 ≤ nextLevel s.mem.stk[n].level.val x
      then (((s.modStack n fun k => { k with temp := BitVec.ofNat 8 (min x 255) }).modStack n fun k => { k with level := ⟨nextLevel s.mem.stk[n].level.val x % 4, by omega⟩ }).logStack n 0x04 0 0 0).delayNotice (stackHearth n)
      else (s.modStack n fun k => { k with temp := BitVec.ofNat 8 (min x 255) }).modStack n fun k => { k with level := ⟨nextLevel s.mem.stk[n].level.val x % 4, by omega⟩ }) := by
  rw [exec_stackTempSample, execStackTempSample]
  dsimp only
  rw [if_neg (by rw [sampleLevel_quench]; omega), if_neg (not_not.2 hm)]

/-- R315: the stack that takes a sample. -/
theorem sampled_stack (s : State) (n : Fin 32) (x l : Nat) (hx : x < 210) (v : State) (hv : v = (s.modStack n fun k => { k with temp := BitVec.ofNat 8 (min x 255) }).modStack n fun k => { k with level := ⟨l % 4, by omega⟩ }) :
    { v with mem := s.mem } = s ∧ { v.mem with stk := s.mem.stk } = s.mem ∧ v.mem.stk[n] = { s.mem.stk[n] with temp := BitVec.ofNat 8 x, level := ⟨l % 4, by omega⟩ } ∧ ∀ j : Fin 32, j ≠ n → v.mem.stk[j] = s.mem.stk[j] := by
  subst hv
  refine ⟨rfl, rfl, ?_, fun j hj => ?_⟩
  · rw [modStack_same, modStack_same, Nat.min_eq_left (by omega)]
  · rw [modStack_ne _ hj, modStack_ne _ hj]

/-! Replay (R306, R307) -/

variable {r : HbmReader} {a : BitVec 48} {ok : Bool}

/-- The replays of all other reads. -/
def Mem.otherReplays (m : Mem) (r : HbmReader) (a : BitVec 48) : List Replay := m.replays.filter fun y => !(decide (y.reader = r) && decide (y.addr = a))

theorem readReplay_succeeds (hs : s.hbmServed a.toNat = true) (hl : s.mem.lost a.toNat 1 = false) : exec (.hbmReadReplay r a true) s = .next { s with mem := { s.mem with replays := s.mem.otherReplays r a } } := by
  rw [exec_hbmReadReplay, execHbmReadReplay]
  dsimp only
  rw [hs, hl]
  rfl

theorem readReplay_fails (hs : s.hbmServed a.toNat = true) (hl : ok = false ∨ s.mem.lost a.toNat 1 = true) :
    exec (.hbmReadReplay r a ok) s = .next (if ((s.mem.replays.find? fun y => decide (y.reader = r) && decide (y.addr = a)).elim 0 (·.count)) = 0 then { s with mem := { s.mem with replays := s.mem.otherReplays r a ++ [⟨r, a, 1⟩] } }
      else ({ s with mem := { s.mem with replays := s.mem.otherReplays r a } } : State).readLost r a) := by
  have hnot : (ok && !s.mem.lost a.toNat 1) = false := by
    rcases hl with rfl | hl
    · rfl
    · rw [hl]
      cases ok <;> rfl
  rw [exec_hbmReadReplay, execHbmReadReplay]
  dsimp only
  rw [hs, hnot]
  cases s.mem.replays.find? fun y => decide (y.reader = r) && decide (y.addr = a) <;> rfl

/-! Row repair (R308 to R311) -/

variable {e : RowError}

theorem logRow_logs (s : State) (x : RowRec) : { (s.logRow x).1 with mem := s.mem } = s ∧ { (s.logRow x).1.mem with repairLog := s.mem.repairLog, repairLost := s.mem.repairLost } = s.mem
    ∧ (s.mem.repairLog.length < 4096 → x ∈ (s.logRow x).1.mem.repairLog ∧ (s.logRow x).1.mem.repairLost = s.mem.repairLost)
    ∧ (4096 ≤ s.mem.repairLog.length → x ∉ s.mem.repairLog → (s.logRow x).1.mem.repairLog = s.mem.repairLog ∧ (s.logRow x).1.mem.repairLost = satAdd s.mem.repairLost 1) := by
  unfold State.logRow
  split
  next hc => exact ⟨rfl, rfl, fun _ => ⟨List.contains_iff_mem.1 hc, rfl⟩, fun _ hx => absurd (List.contains_iff_mem.1 hc) hx⟩
  next =>
    split
    next hlt => exact ⟨rfl, rfl, fun _ => ⟨List.mem_append_right _ List.mem_cons_self, rfl⟩, fun hge => absurd hlt (Nat.not_lt.2 hge)⟩
    next hge => exact ⟨rfl, rfl, fun hlt => absurd hlt hge, fun _ _ => ⟨rfl, rfl⟩⟩

theorem repairRow_form (s : State) (e : RowError) : ∃ (v : State) (x : Event), v.mem = (s.logRow ⟨e.stack, e.bank, e.row⟩).1.mem ∧ v.cores = s.cores ∧ v.parts = s.parts ∧ v.now = s.now
    ∧ s.repairRow e = (if e.rowReadOk && Config.softRepairLeft e.stack.val e.bank ((s.mem.stk[e.stack]).repairsOf e.bank)
      then v.modStack e.stack fun k => { k.setCorrected e.bank e.row 0 with sppr := satAdd k.sppr 1, repairs := (k.repairs.filter fun c => decide (c.1 ≠ e.bank)) ++ [(e.bank, (s.mem.stk[e.stack]).repairsOf e.bank + 1)], repair := some ⟨v.now + 7500, e.addr, (s.logRow ⟨e.stack, e.bank, e.row⟩).2, k.sppr, k.repairs⟩ }
      else v).log x := by
  obtain ⟨hrest, -⟩ := logRow_logs s ⟨e.stack, e.bank, e.row⟩
  exact ⟨(s.logRow ⟨e.stack, e.bank, e.row⟩).1, _, rfl, (congrArg State.cores hrest :), (congrArg State.parts hrest :), (congrArg State.now hrest :), rfl⟩

theorem rowRepair_corrected (hm : s.mem.stk[e.stack].mode = .inService) (hu : e.uncorrectable = false) (hc : s.mem.stk[e.stack].correctedOf e.bank e.row ≠ 3) :
    exec (.rowRepair e) s = .next (s.modStack e.stack fun y => y.setCorrected e.bank e.row (s.mem.stk[e.stack].correctedOf e.bank e.row + 1)) := by
  rw [exec_rowRepair, execRowRepair]
  dsimp only
  rw [if_neg (not_not.2 hm), if_neg (by rw [hu]; exact Bool.false_ne_true), if_neg (by omega)]

/-- R308: a failing row: an uncorrectable error, or the fourth corrected read, which was counted first. -/
theorem rowRepair_fails (hm : s.mem.stk[e.stack].mode = .inService) (hf : e.uncorrectable = true ∨ s.mem.stk[e.stack].correctedOf e.bank e.row = 3) :
    ∃ v : State, ∃ c, exec (.rowRepair e) s = .next (v.repairRow e) ∧ { v with mem := s.mem } = s ∧ { v.mem with stk := s.mem.stk } = s.mem ∧ v.mem.stk[e.stack] = { s.mem.stk[e.stack] with corrected := c } := by
  rw [exec_rowRepair, execRowRepair]
  dsimp only
  rw [if_neg (not_not.2 hm)]
  cases hu : e.uncorrectable with
  | true => exact ⟨s, _, rfl, rfl, rfl, rfl⟩
  | false =>
    have hc : s.mem.stk[e.stack].correctedOf e.bank e.row = 3 := hf.resolve_left (by rw [hu]; exact Bool.false_ne_true)
    rw [if_neg Bool.false_ne_true, if_pos (by rw [hc])]
    exact ⟨_, _, rfl, rfl, rfl, modStack_same ..⟩

/-- What the clause of a failing row says of its stack and of the log. -/
theorem repairRow_repairs (s : State) (e : RowError) : (s.repairRow e).cores = s.cores ∧ (s.repairRow e).mem.hbm = s.mem.hbm ∧ (s.repairRow e).parts = s.parts
    ∧ (s.repairRow e).mem.repairLog = (s.logRow ⟨e.stack, e.bank, e.row⟩).1.mem.repairLog ∧ (s.repairRow e).mem.repairLost = (s.logRow ⟨e.stack, e.bank, e.row⟩).1.mem.repairLost
    ∧ ((e.rowReadOk && Config.softRepairLeft e.stack.val e.bank ((s.mem.stk[e.stack]).repairsOf e.bank)) = true →
      ((s.repairRow e).mem.stk[e.stack]).sppr = satAdd (s.mem.stk[e.stack]).sppr 1 ∧ ((s.repairRow e).mem.stk[e.stack]).repair.map (·.till) = some (s.now + 7500))
    ∧ (e.rowReadOk = false → ((s.repairRow e).mem.stk[e.stack]).sppr = (s.mem.stk[e.stack]).sppr) := by
  obtain ⟨v, x, hmem, hcores, hparts, hnow, hform⟩ := repairRow_form s e
  obtain ⟨-, hlogged, -⟩ := logRow_logs s ⟨e.stack, e.bank, e.row⟩
  rw [← hmem] at hlogged ⊢
  have hstk : v.mem.stk = s.mem.stk := (congrArg Mem.stk hlogged :)
  have hhbm : v.mem.hbm = s.mem.hbm := (congrArg Mem.hbm hlogged :)
  rw [hform]
  cases hremap : e.rowReadOk && Config.softRepairLeft e.stack.val e.bank ((s.mem.stk[e.stack]).repairsOf e.bank) with
  | true =>
    rw [if_pos rfl]
    refine ⟨hcores, hhbm, hparts, rfl, rfl, fun _ => ?_, fun hno => ?_⟩
    · rw [log_mem, modStack_same, ← hstk, hnow]
      exact ⟨rfl, rfl⟩
    · rw [hno] at hremap
      exact absurd hremap Bool.false_ne_true
  | false =>
    rw [if_neg Bool.false_ne_true]
    exact ⟨hcores, hhbm, hparts, rfl, rfl, fun h => absurd h Bool.false_ne_true, fun _ => by rw [log_mem, hstk]⟩

end Sys2Proof.Machine
end

section

/-! PROOFS. Quenches and fences of HBM stacks. -/

namespace Sys2Proof.Machine

variable {s u : State} {n j : Fin 32} {h p : Fin 8}

/-! Stacks change, one at a time (R313, R320) -/

/-- From `s` to `t` only stacks have changed, and the event log. -/
def StacksChange (s t : State) : Prop := { t with mem := s.mem, glb := s.glb } = s ∧ { t.mem with stk := s.mem.stk } = s.mem ∧ Logged s.glb t.glb

theorem StacksChange.refl (s : State) : StacksChange s s := ⟨rfl, rfl, rfl⟩

theorem StacksChange.trans {t : State} (hs : StacksChange s u) (k : StacksChange u t) : StacksChange s t := by
  obtain ⟨h1, h2, h3⟩ := hs
  obtain ⟨k1, k2, k3⟩ := k
  have hstate : { t with mem := s.mem, glb := s.glb } = { u with mem := s.mem, glb := s.glb } := (congrArg (fun v : State => { v with mem := s.mem, glb := s.glb }) k1 :)
  have hmem : { t.mem with stk := s.mem.stk } = { u.mem with stk := s.mem.stk } := (congrArg (fun m : Mem => { m with stk := s.mem.stk }) k2 :)
  exact ⟨hstate.trans h1, hmem.trans h2, h3.trans k3⟩

theorem modStack_stacks (f : Stack → Stack) : StacksChange s (s.modStack n f) := ⟨rfl, rfl, rfl⟩

theorem log_stacks (e : Event) : StacksChange s (s.log e) := ⟨rfl, rfl, rfl⟩

/-- R320: a stack whose soft repair in progress has ended. -/
def RepairStopped (now : Nat) (k x : Stack) : Prop :=
  { x with sppr := k.sppr, repairs := k.repairs, repair := k.repair } = k ∧ ∀ r, k.repair = some r → now < r.till → x.repair = none ∧ x.sppr = r.sppr ∧ x.repairs = r.repairs

theorem stopRepair_stops (s : State) (n : Fin 32) : StacksChange s (s.stopRepair n) ∧ RepairStopped s.now s.mem.stk[n] (s.stopRepair n).mem.stk[n] ∧ ∀ j, j ≠ n → (s.stopRepair n).mem.stk[j] = s.mem.stk[j] := by
  cases hr : s.mem.stk[n].repair with
  | none =>
    have hform : s.stopRepair n = s := by rw [State.stopRepair, hr]
    rw [hform]
    exact ⟨StacksChange.refl s, ⟨rfl, fun r hsome => by rw [hr] at hsome; cases hsome⟩, fun _ _ => rfl⟩
  | some r =>
    by_cases hlt : s.now < r.till
    · have hform : s.stopRepair n = (s.modStack n fun k => { k with repair := none, sppr := r.sppr, repairs := r.repairs }).logStack n 0x03 0 (2 * r.kept.toNat) r.addr.toNat := by
        rw [State.stopRepair, hr]
        exact if_pos hlt
      have hmem : (s.stopRepair n).mem = (s.modStack n fun k => { k with repair := none, sppr := r.sppr, repairs := r.repairs }).mem := by
        rw [hform]
        rfl
      refine ⟨hform ▸ (modStack_stacks _).trans (log_stacks _), ?_, fun j hj => by rw [hmem, modStack_ne _ hj]⟩
      rw [hmem, modStack_same]
      exact ⟨rfl, fun r' hr' _ => by cases hr.symm.trans hr'; exact ⟨rfl, rfl, rfl⟩⟩
    · have hform : s.stopRepair n = s.modStack n fun k => { k with repair := none } := by
        rw [State.stopRepair, hr]
        exact if_neg hlt
      rw [hform]
      refine ⟨modStack_stacks _, ?_, fun j hj => modStack_ne _ hj⟩
      rw [modStack_same]
      exact ⟨rfl, fun r' hr' hlt' => by cases hr.symm.trans hr'; exact absurd hlt' hlt⟩

/-! What a stack that goes out of service ends (R313, R319, R539) -/

theorem stackEnd_rest (s : State) (n : Fin 32) (st : Status) : { s.stackEnd n st with parts := s.parts } = s := by
  unfold State.stackEnd
  split
  · rfl
  · split <;> rfl

theorem quenchEnd_rest (s : State) (n : Fin 32) : { s.quenchEnd n with parts := s.parts } = s := by
  unfold State.quenchEnd
  split
  · rfl
  · exact stackEnd_rest ..

theorem stackEnd_task {y : Task} (st : Status) (hp : s.partOf (stackHearth n) = some p) (hy : s.parts[p].task = some y) (hend : y.ending = none) :
    ((s.stackEnd n st).parts[p].task.bind (·.ending)) = some (s.unitEnding st 3 n.val (s.stackDetail n 0)) := by
  unfold State.stackEnd
  rw [hp]
  dsimp only
  rw [if_pos (by rw [hy]; rfl), State.endTask, modTask_task_same, hy, Option.map_some, Option.bind_some, hend]

theorem stackEnd_idle (st : Status) (hp : s.partOf (stackHearth n) = some p) (hy : s.parts[p].task = none) (hm : s.parts[p].mode = .idle) (hsick : s.partSick p = true) :
    (s.stackEnd n st).parts[p].mode = .outOfService := by
  unfold State.stackEnd
  rw [hp]
  dsimp only
  rw [if_neg (by rw [hy]; exact Bool.false_ne_true), modPart_same]
  dsimp only
  unfold State.restState
  by_cases hdie : s.pwr.dieTrip = true
  · rw [if_pos hdie]
  · rw [if_neg hdie, if_neg (by rw [hm]; decide), if_pos hsick]

theorem quenchEnd_open (hp : s.partOf (stackHearth n) = some p) (hy : ∀ y, s.parts[p].task = some y → y.ending = none) : s.quenchEnd n = s.stackEnd n stQuench := by
  unfold State.quenchEnd
  rw [hp, Option.bind_some]
  cases ht : s.parts[p].task with
  | none => rfl
  | some y =>
    rw [Option.bind_some, hy y ht]
    rfl

theorem partSick_of_stack (hp : s.partOf (stackHearth n) = some p) (hm : s.mem.stk[n].mode ≠ .inService) : s.partSick p = true := by
  unfold State.partSick
  have hin : s.inPart p (stackHearth n) = true := (inPart_iff_partOf (partOf_mode hp)).2 hp
  refine List.any_eq_true.2 ⟨stackHearth n, List.mem_finRange _, ?_⟩
  rw [hin, Bool.true_and, Bool.or_eq_true]
  refine .inr (List.any_eq_true.2 ⟨n.val % 4, List.mem_range.2 (Nat.mod_lt _ (by decide)), decide_eq_true ?_⟩)
  have hidx : 4 * (stackHearth n).val + n.val % 4 = n.val := Nat.div_add_mod n.val 4
  rw [hidx]
  have hget : s.mem.stk.toList[n.val]? = some s.mem.stk[n] := by simp
  rw [hget]
  simpa using hm

theorem partSick_of_absent (hp : s.partOf h = some p) (hm : s.glb.hrtPresent.getLsbD h.val = false) : s.partSick p = true := by
  unfold State.partSick
  have hin : s.inPart p h = true := (inPart_iff_partOf (partOf_mode hp)).2 hp
  refine List.any_eq_true.2 ⟨h, List.mem_finRange _, ?_⟩
  rw [hin, hm]
  rfl

/-! Quench (R319, R320) -/

/-- R319, R320: a quench, up to the end of the work that uses the stack. -/
def State.quenched (s : State) (n : Fin 32) : State :=
  let v := (s.stopRepair n).modStack n fun k => { k with mode := .quenched, stoppedAt := some s.now, hot := true }
  { v with pwr := { v.pwr with thermTrip := true }, mem := { v.mem with replays := v.mem.replays.filter fun r => decide (v.stackOf r.addr.toNat ≠ n) } }

theorem quenched_stack (s : State) (n : Fin 32) : ∃ x, RepairStopped s.now s.mem.stk[n] x ∧ (s.quenched n).mem.stk[n] = { x with mode := .quenched, stoppedAt := some s.now, hot := true } := by
  obtain ⟨hchange, hstop, -⟩ := stopRepair_stops s n
  have hset := modStack_same (s.stopRepair n) n fun k => { k with mode := .quenched, stoppedAt := some s.now, hot := true }
  exact ⟨_, hstop, hset⟩

theorem quenched_rest (s : State) (n : Fin 32) : (s.quenched n).cores = s.cores ∧ (s.quenched n).parts = s.parts := by
  obtain ⟨⟨hrest, -, -⟩, -, -⟩ := stopRepair_stops s n
  exact ⟨(congrArg State.cores hrest :), (congrArg State.parts hrest :)⟩

theorem quench_ends (s : State) (n : Fin 32) : MediaEnds ((s.quenched n).quenchEnd n) (s.quench n) := by
  have hnow : (s.stopRepair n).now = s.now := (congrArg State.now (stopRepair_stops s n).1.1 :)
  exact endMediaOn_mediaEnds ..

/-! Fence (R312, R313) -/

/-- R313: one stack of a hearth that is fenced. -/
def State.fenceStack (s : State) (k : Fin 32) : State :=
  (s.stopRepair k).modStack k fun x => { x with mode := if x.mode = .quenched ∧ s.stoppedThisPeriod x then x.mode else .fenced }

theorem fenceStack_fences (s : State) (k : Fin 32) : StacksChange s (s.fenceStack k)
    ∧ (s.fenceStack k).mem.stk[k].mode = (if s.mem.stk[k].mode = .quenched ∧ s.stoppedThisPeriod s.mem.stk[k] = true then .quenched else .fenced) ∧ ∀ j, j ≠ k → (s.fenceStack k).mem.stk[j] = s.mem.stk[j] := by
  obtain ⟨hchange, ⟨hsame, -⟩, hne⟩ := stopRepair_stops s k
  refine ⟨hchange.trans (modStack_stacks _), ?_, fun j hj => (modStack_ne _ hj).trans (hne j hj)⟩
  have hmode : (s.stopRepair k).mem.stk[k].mode = s.mem.stk[k].mode := (congrArg Stack.mode hsame :)
  have hstop : s.stoppedThisPeriod (s.stopRepair k).mem.stk[k] = s.stoppedThisPeriod s.mem.stk[k] := by
    unfold State.stoppedThisPeriod
    rw [(congrArg Stack.stoppedAt hsame :)]
  rw [State.fenceStack, modStack_same]
  dsimp only
  rw [hmode, hstop]
  split
  next hq => exact hq.1
  next => rfl

theorem foldl_fenceStack : ∀ (ks : List (Fin 32)) (s : State), ks.Nodup → StacksChange s (ks.foldl State.fenceStack s)
    ∧ (∀ j ∈ ks, (ks.foldl State.fenceStack s).mem.stk[j].mode = if s.mem.stk[j].mode = .quenched ∧ s.stoppedThisPeriod s.mem.stk[j] = true then .quenched else .fenced)
    ∧ ∀ j, j ∉ ks → (ks.foldl State.fenceStack s).mem.stk[j] = s.mem.stk[j]
  | [], s, _ => ⟨StacksChange.refl s, fun _ hj => absurd hj List.not_mem_nil, fun _ _ => rfl⟩
  | k :: ks, s, hnd => by
    obtain ⟨hk, hnd⟩ := List.nodup_cons.1 hnd
    obtain ⟨hchange, hmode, hne⟩ := fenceStack_fences s k
    obtain ⟨hrest, hmem, hnot⟩ := foldl_fenceStack ks (s.fenceStack k) hnd
    have hnow : (s.fenceStack k).now = s.now := (congrArg State.now hchange.1 :)
    refine ⟨hchange.trans hrest, fun j hj => ?_, fun j hj => ?_⟩
    · rcases List.mem_cons.1 hj with rfl | hj
      · exact (congrArg Stack.mode (hnot j hk)).trans hmode
      · have hjk : j ≠ k := fun h => hk (h ▸ hj)
        rw [List.foldl_cons, hmem j hj, hne j hjk, State.stoppedThisPeriod, hnow, ← State.stoppedThisPeriod]
    · have hjk : j ≠ k := fun h => hj (h ▸ List.mem_cons_self)
      have hj : j ∉ ks := fun h => hj (List.mem_cons_of_mem _ h)
      rw [List.foldl_cons, hnot j hj, hne j hjk]

theorem mem_hearthStacks : j ∈ hearthStacks h ↔ stackHearth j = h := by simp [hearthStacks]

theorem fenceStacks_fences (s : State) (h : Fin 8) : StacksChange s (s.fenceStacks h)
    ∧ (∀ j, stackHearth j = h → (s.fenceStacks h).mem.stk[j].mode = if s.mem.stk[j].mode = .quenched ∧ s.stoppedThisPeriod s.mem.stk[j] = true then .quenched else .fenced)
    ∧ ∀ j, stackHearth j ≠ h → (s.fenceStacks h).mem.stk[j] = s.mem.stk[j] := by
  obtain ⟨hchange, hin, hout⟩ := foldl_fenceStack (hearthStacks h) s ((List.nodup_finRange 32).filter _)
  exact ⟨hchange, fun j hj => hin j (mem_hearthStacks.2 hj), fun j hj => hout j fun hmem => hj (mem_hearthStacks.1 hmem)⟩

theorem dropHearth_rest (s : State) (h : Fin 8) : (s.dropHearth h).sec = s.sec ∧ (s.dropHearth h).now = s.now ∧ (s.dropHearth h).fab = s.fab := ⟨rfl, rfl, rfl⟩

theorem dropHearth_mem (s : State) (h : Fin 8) : (s.dropHearth h).mem = { s.mem with replays := s.mem.replays.filter fun r => decide (stackHearth (s.stackOf r.addr.toNat) ≠ h) } := rfl

theorem dropHearth_present (s : State) (h j : Fin 8) : (s.dropHearth h).glb.hrtPresent.getLsbD j.val = (s.glb.hrtPresent.getLsbD j.val && decide (j ≠ h)) := by
  have hbit : (~~~(1#8 <<< h.val)).getLsbD j.val = decide (j ≠ h) := by
    revert h j
    decide
  rw [← hbit]
  exact BitVec.getLsbD_and

/-- From `s` to `t` the memory, the power, the security unit and the clock stand; of the module's registers only the event log has changed. -/
def UnitsStand (s t : State) : Prop := t.mem = s.mem ∧ Logged s.glb t.glb ∧ t.pwr = s.pwr ∧ t.sec = s.sec ∧ t.now = s.now

theorem unitsStand_sends : SendFrame UnitsStand where
  refl _ := ⟨rfl, rfl, rfl, rfl, rfl⟩
  trans := fun ⟨h1, h2, h3, h4, h5⟩ ⟨k1, k2, k3, k4, k5⟩ => ⟨k1.trans h1, h2.trans k2, k3.trans h3, k4.trans h4, k5.trans h5⟩
  fab _ _ := ⟨rfl, rfl, rfl, rfl, rfl⟩
  draw _ := ⟨rfl, rfl, rfl, rfl, rfl⟩
  sends _ _ _ _ := ⟨rfl, rfl, rfl, rfl, rfl⟩
  fault s g st b q d := by
    have hrest := coreFault_rest s g st b q d
    exact ⟨coreFault_mem .., by rw [coreFault_glb]; rfl, coreFault_pwr .., (congrArg State.sec hrest :), coreFault_now ..⟩

/-- What fencing the links of a hearth keeps of partition `p`: its mode, and an ending `e` of its task that no fault of a link beats. -/
def FenceKeeps (p : Fin 8) (e : Ending) (s t : State) : Prop := t.parts[p].mode = s.parts[p].mode ∧ (s.parts[p].task.bind (·.ending) = some e → t.parts[p].task.bind (·.ending) = some e)

theorem linkFault_beaten {e : Ending} {st : Status} (he : e.rank = 2) (hr : e.remote = none) (hst : LinkStatus st) (g : Fin 512) (b : Option (BitVec 13)) (q d : Nat) : (s.coreEnding g st b q d).beats e = false := by
  have hrank : 3 ≤ statusRank st ∧ statusRank st ≤ 7 := by
    rcases hst with rfl | rfl | rfl <;> decide
  simp [Ending.beats, State.coreEnding, he, hr, hrank]

theorem endTask_keeps_firm {e x : Ending} (hx : x.beats e = false) (q : Fin 8) (hs : s.parts[p].task.bind (·.ending) = some e) : (s.endTask q x).parts[p].task.bind (·.ending) = some e := by
  by_cases hq : p = q
  · subst hq
    obtain ⟨y, hy, hend⟩ := Option.bind_eq_some_iff.1 hs
    rw [State.endTask, modTask_task_same, hy, Option.map_some, Option.bind_some, hend]
    simp [hx, hend]
  · rw [State.endTask, modTask_parts_ne _ _ hq]
    exact hs

theorem fenceKeeps_rails {e : Ending} (he : e.rank = 2) (hr : e.remote = none) : RailFrame (FenceKeeps p e) where
  refl _ := ⟨rfl, id⟩
  trans := fun ⟨h4, h5⟩ ⟨k4, k5⟩ => ⟨k4.trans h4, fun hs => k5 (h5 hs)⟩
  rails _ _ _ := ⟨rfl, id⟩
  draw _ := ⟨rfl, id⟩
  sends _ _ _ _ := ⟨rfl, id⟩
  linkFault s g st b q d hst := by
    refine ⟨coreFault_part_field (v := Part.mode) (fun _ _ => rfl) g st b q d p, fun hs => ?_⟩
    unfold State.coreFault
    dsimp only
    split
    · exact endTask_keeps_firm (linkFault_beaten he hr hst ..) _ hs
    · exact hs

/-- R313, R332: one link of a hearth goes out of service. -/
def State.fenceLink (s : State) (h : Fin 8) (r : Nat) : State :=
  if s.fab.links[linkOf h r].mode = .up then s.linkDown (linkOf h r) .fenced
  else s.modFab fun x => { x with links := x.links.set (linkOf h r) { x.links[linkOf h r] with mode := .fenced, speed := 0, tryMode := 0 } }

theorem fenceLinks_eq (s : State) (h : Fin 8) : s.fenceLinks h = (List.range 16).foldl (fun s r => s.fenceLink h r) s := rfl

theorem fenceLink_firm {e : Ending} (he : e.rank = 2) (hr : e.remote = none) (r : Nat) : FenceKeeps p e s (s.fenceLink h r) :=
  ite_frame (fun _ => (fenceKeeps_rails he hr).linkDown (fun _ _ => ⟨rfl, id⟩) (fun _ _ => ⟨rfl, id⟩) _ _) fun _ => ⟨rfl, id⟩

theorem fenceLinks_firm {e : Ending} (he : e.rank = 2) (hr : e.remote = none) : FenceKeeps p e s (s.fenceLinks h) :=
  (fenceKeeps_rails he hr).foldl (fun _ _ => fenceLink_firm he hr _) _ _

theorem fenceLinks_stands (s : State) (h : Fin 8) : UnitsStand s (s.fenceLinks h) := by
  rw [fenceLinks_eq]
  refine unitsStand_sends.foldl (fun u r => ite_frame (fun _ => ?_) fun _ => unitsStand_sends.fab ..) _ s
  exact unitsStand_sends.linkDown unitsStand_sends.fab (fun _ _ => ⟨rfl, rfl, rfl, rfl, rfl⟩) _ _

theorem fenceLink_links (s : State) (h : Fin 8) (r : Nat) : ∃ k : Link, k.mode = .fenced ∧ (s.fenceLink h r).fab.links = s.fab.links.set (linkOf h r) k := by
  unfold State.fenceLink
  split
  · obtain ⟨hlinks, -⟩ := linkDown_down (s := s) (l := linkOf h r) .fenced (by decide)
    exact ⟨_, rfl, hlinks⟩
  · exact ⟨_, rfl, rfl⟩

theorem foldl_fenceLink (h : Fin 8) : ∀ (rs : List Nat) (s : State) (l : Fin 128), (s.fab.links[l].mode = .fenced ∨ ∃ r ∈ rs, linkOf h r = l) → (rs.foldl (fun s r => s.fenceLink h r) s).fab.links[l].mode = .fenced
  | [], s, l, hl => hl.elim id fun ⟨_, hr, _⟩ => absurd hr List.not_mem_nil
  | r :: rs, s, l, hl => by
    obtain ⟨k, hk, hlinks⟩ := fenceLink_links s h r
    refine foldl_fenceLink h rs (s.fenceLink h r) l ?_
    rw [hlinks]
    by_cases hrl : linkOf h r = l
    · subst hrl
      exact .inl (by simpa using hk)
    · have hne : (linkOf h r).val ≠ l.val := fun he => hrl (Fin.ext he)
      rcases hl with hf | ⟨r', hr', hl'⟩
      · exact .inl (by simpa [hne] using hf)
      · rcases List.mem_cons.1 hr' with rfl | hr'
        · exact absurd hl' hrl
        · exact .inr ⟨r', hr', hl'⟩

/-- A link that was fenced stays so, and those of the hearth join it. -/
theorem fenceLinks_links (s : State) (h : Fin 8) (l : Fin 128) (hl : s.fab.links[l].mode = .fenced ∨ ∃ r < 16, linkOf h r = l) : (s.fenceLinks h).fab.links[l].mode = .fenced := by
  rw [fenceLinks_eq]
  exact foldl_fenceLink h _ s l (hl.imp_right fun ⟨r, hr, hlr⟩ => ⟨r, List.mem_range.2 hr, hlr⟩)

/-! The two commands -/

/-- What a quench leaves and ends, up to the media contexts. -/
theorem quench_outcome (s : State) (n : Fin 32) : ∃ v : State, MediaEnds v (s.quench n) ∧ { v with parts := s.parts } = { s.quenched n with parts := s.parts }
    ∧ v.parts = ((s.quenched n).quenchEnd n).parts := by
  obtain ⟨-, hparts⟩ := quenched_rest s n
  refine ⟨_, quench_ends s n, ?_, rfl⟩
  have hrest := quenchEnd_rest (s.quenched n) n
  rw [← hparts, hrest]

theorem tempSample_quenches {x : Nat} (hx : 210 ≤ x) (hh : s.mem.stk[n].hot = false) : exec (.stackTempSample n x) s = .next ((s.modStack n fun k => { k with temp := BitVec.ofNat 8 (min x 255) }).quench n) := by
  rw [exec_stackTempSample, execStackTempSample]
  dsimp only
  rw [if_pos (sampleLevel_quench.2 hx), if_neg (by rw [hh]; exact Bool.false_ne_true)]

theorem tempSample_records {x : Nat} (hx : (s.mem.stk[n].mode ≠ .inService ∧ x < 210) ∨ (s.mem.stk[n].hot = true ∧ 210 ≤ x)) :
    exec (.stackTempSample n x) s = .next (s.modStack n fun y => { y with temp := BitVec.ofNat 8 (min x 255) }) := by
  rw [exec_stackTempSample, execStackTempSample]
  dsimp only
  rcases hx with ⟨hm, hlt⟩ | ⟨hh, hge⟩
  · rw [if_neg (by rw [sampleLevel_quench]; omega), if_pos hm]
  · rw [if_pos (sampleLevel_quench.2 hge), if_pos hh]

/-- R312: what the record of a fence leaves alone. -/
theorem recordFence_records (s : State) (n : Fin 32) : n ∈ (s.recordFence n).mem.fenceRecords ∧ { s.recordFence n with mem := s.mem } = s ∧ (s.recordFence n).mem.stk = s.mem.stk := by
  unfold State.recordFence
  split
  next hc => exact ⟨List.contains_iff_mem.1 hc, rfl, rfl⟩
  next => exact ⟨List.mem_append_right _ List.mem_cons_self, rfl, rfl⟩

theorem stackFence_fences (cause : FenceCause) (hm : s.mem.stk[n].mode = .inService) :
    exec (.stackFence n cause) s = .next (((s.fenceHearth n).modStack n fun k => { k with stoppedAt := some s.now }).recordFence n) := by
  rw [exec_stackFence, execStackFence, hm]

theorem stackFence_idle (cause : FenceCause) (hm : s.mem.stk[n].mode = .fenced ∨ s.mem.stk[n].mode = .notPresent ∨ (s.mem.stk[n].mode = .quenched ∧ s.stoppedThisPeriod s.mem.stk[n] = false)) :
    exec (.stackFence n cause) s = .next s := by
  rw [exec_stackFence, execStackFence]
  rcases hm with hm | hm | ⟨hm, hstop⟩
  · rw [hm]
  · rw [hm]
  · rw [hm]
    dsimp only
    rw [if_neg (by rw [hstop]; exact fun h => absurd h.1 Bool.false_ne_true)]

/-- R313: a hearth out of service, up to its links and the media contexts. -/
def State.outOfService (s : State) (n : Fin 32) : State := ((s.fenceStacks (stackHearth n)).dropHearth (stackHearth n)).stackEnd n stFenced

theorem fenceHearth_form (s : State) (n : Fin 32) : MediaEnds ((s.outOfService n).fenceLinks (stackHearth n)) (s.fenceHearth n) := endMediaOn_mediaEnds ..

/-- From `x` to `y` stacks have changed, bytes were written and replays given up. -/
def MemFences (x y : Mem) : Prop := { y with stk := x.stk, hbm := x.hbm, host := x.host, badHbm := x.badHbm, replays := x.replays } = x

theorem MemFences.of_ends {x d y : Mem} (h : { d with stk := x.stk, replays := x.replays } = x) (k : MemEnds d y) : MemFences x y := by
  have hk : { y with stk := x.stk, hbm := x.hbm, host := x.host, badHbm := x.badHbm, replays := x.replays } = { d with stk := x.stk, hbm := x.hbm, host := x.host, badHbm := x.badHbm, replays := x.replays } :=
    (congrArg (fun m : Mem => { m with stk := x.stk, hbm := x.hbm, host := x.host, badHbm := x.badHbm, replays := x.replays }) k :)
  have hd : { d with stk := x.stk, hbm := x.hbm, host := x.host, badHbm := x.badHbm, replays := x.replays } = x :=
    (congrArg (fun m : Mem => { m with hbm := x.hbm, host := x.host, badHbm := x.badHbm }) h :)
  exact hk.trans hd

/-- What a fence of a hearth leaves of the units, whatever its partition. -/
theorem fenceHearth_units (s : State) (n : Fin 32) : (s.fenceHearth n).mem.stk = (s.fenceStacks (stackHearth n)).mem.stk
    ∧ MemFences s.mem (s.fenceHearth n).mem
    ∧ Logged { s.glb with hrtPresent := s.glb.hrtPresent &&& ~~~(1#8 <<< (stackHearth n).val) } (s.fenceHearth n).glb ∧ (s.fenceHearth n).pwr = { s.pwr with faultN := true }
    ∧ (s.fenceHearth n).sec = s.sec ∧ (s.fenceHearth n).now = s.now
    ∧ ∀ l : Fin 128, (s.fab.links[l].mode = .fenced ∨ ∃ r < 16, linkOf (stackHearth n) r = l) → ((s.fenceHearth n).fab.links[l]).mode = .fenced := by
  obtain ⟨⟨hrest, hstkmem, hlog⟩, -, -⟩ := fenceStacks_fences s (stackHearth n)
  obtain ⟨f, hf⟩ : ∃ f, f = s.fenceStacks (stackHearth n) := ⟨_, rfl⟩
  rw [← hf] at hrest hstkmem hlog ⊢
  obtain ⟨w, hw⟩ : ∃ w, w = s.outOfService n := ⟨_, rfl⟩
  obtain ⟨d, hd⟩ : ∃ d, d = f.dropHearth (stackHearth n) := ⟨_, rfl⟩
  have hwd : w = d.stackEnd n stFenced := by rw [hw, State.outOfService, ← hf, ← hd]
  have hwrest : { w with parts := d.parts } = d := by
    rw [hwd]
    exact stackEnd_rest ..
  have hwmem : w.mem = d.mem := (congrArg State.mem hwrest :)
  have hwglb : w.glb = d.glb := (congrArg State.glb hwrest :)
  have hwpwr : w.pwr = d.pwr := (congrArg State.pwr hwrest :)
  have hwsec : w.sec = d.sec := (congrArg State.sec hwrest :)
  have hwnow : w.now = d.now := (congrArg State.now hwrest :)
  have hwfab : w.fab = d.fab := (congrArg State.fab hwrest :)
  rw [hd] at hwmem hwglb hwpwr hwsec hwnow hwfab
  obtain ⟨hdsec, hdnow, hdfab⟩ := dropHearth_rest f (stackHearth n)
  obtain ⟨hmem, hglb, hpwr, hsec, hnow⟩ := fenceLinks_stands w (stackHearth n)
  have hends := fenceHearth_form s n
  rw [← hw] at hends
  obtain ⟨hstk, -, -, -, hpower, hfab, hmglb, hmnow, hmsec⟩ := hends.fields
  obtain ⟨-, hmmem, -⟩ := hends
  refine ⟨?_, ?_, ?_, ?_, ?_, ?_, fun l hl => ?_⟩
  · rw [hstk, hmem, hwmem]
    rfl
  · rw [hmem, hwmem] at hmmem
    exact MemFences.of_ends (dropHearth_mem f (stackHearth n) ▸ (congrArg (fun m : Mem => { m with replays := s.mem.replays }) hstkmem :)) hmmem
  · refine Logged.trans ?_ (hglb.trans hmglb)
    rw [hwglb]
    have hpresent := hlog.present
    exact (congrArg (fun g : Glb => { g with hrtPresent := f.glb.hrtPresent &&& ~~~(1#8 <<< (stackHearth n).val) }) hlog :).trans (by rw [hpresent])
  · have hfpwr : f.pwr = s.pwr := (congrArg State.pwr hrest :)
    rw [hpower, hpwr, hwpwr, State.dropHearth, hfpwr]
  · rw [hmsec, hsec, hwsec, hdsec]
    exact (congrArg State.sec hrest :)
  · rw [hmnow, hnow, hwnow, hdnow]
    exact (congrArg State.now hrest :)
  · have hffab : f.fab = s.fab := (congrArg State.fab hrest :)
    rw [hfab]
    exact fenceLinks_links w _ l (by rw [hwfab, hdfab, hffab]; exact hl)

/-- What a fence of a hearth does to the partition that holds it. -/
theorem fenceHearth_part (s : State) (n : Fin 32) (hp : s.partOf (stackHearth n) = some p) :
    (∀ y, s.parts[p].task = some y → y.ending = none → ((s.fenceHearth n).parts[p].task.bind (·.ending)).map (·.status) = some 0x0302)
    ∧ (s.parts[p].task = none → s.parts[p].mode = .idle → (s.fenceHearth n).parts[p].mode = .outOfService) := by
  obtain ⟨⟨hrest, -, hlog⟩, -, -⟩ := fenceStacks_fences s (stackHearth n)
  obtain ⟨v, hv⟩ : ∃ v, v = (s.fenceStacks (stackHearth n)).dropHearth (stackHearth n) := ⟨_, rfl⟩
  have hvparts : v.parts = s.parts := by rw [hv]; exact (congrArg State.parts hrest :)
  have hvpart : v.partOf (stackHearth n) = some p := by
    have hsame : v.partOf (stackHearth n) = s.partOf (stackHearth n) := by simp only [State.partOf, hvparts]
    exact hsame.trans hp
  have hvn : v.partSick p = true := partSick_of_absent hvpart (by rw [hv, dropHearth_present]; simp)
  obtain ⟨w, hw⟩ : ∃ w, w = s.outOfService n := ⟨_, rfl⟩
  have hwv : w = v.stackEnd n stFenced := by rw [hw, hv]; rfl
  obtain ⟨hmode, hfirm⟩ := fenceLinks_firm (s := w) (h := stackHearth n) (p := p) (e := v.unitEnding stFenced 3 n.val (v.stackDetail n 0)) rfl rfl
  have hends := fenceHearth_form s n
  rw [← hw] at hends
  obtain ⟨-, -, -, hparts, -⟩ := hends.fields
  refine ⟨fun y hy hend => ?_, fun hnone hidle => ?_⟩
  · rw [hparts, hfirm (by rw [hwv]; exact stackEnd_task _ hvpart (by rw [hvparts]; exact hy) hend)]
    rfl
  · rw [hparts, hmode, hwv]
    exact stackEnd_idle _ hvpart (by rw [hvparts]; exact hnone) (by rw [hvparts]; exact hidle) hvn

end Sys2Proof.Machine
end

section

/-! PROOFS. HBM stacks: the commands that watch them. -/

namespace Sys2Proof.Machine

variable {s u : State} {n : Fin 32} {h p : Fin 8} {k : Stack}

theorem partOf_of_parts (hu : u.parts = s.parts) (h : Fin 8) : u.partOf h = s.partOf h := by
  simp only [State.partOf, hu]

theorem core_of_cores (hc : u.cores = s.cores) (g : Fin 512) : u.core g = s.core g := by
  unfold State.core
  rw [hc]

theorem members_of (hc : u.cores = s.cores) (hm : ∀ q : Fin 8, u.parts[q].mode = s.parts[q].mode) (p : Fin 8) : u.members p = s.members p := by
  have hpart : ∀ h, u.inPart p h = s.inPart p h := fun h => Bool.eq_iff_iff.2 (by rw [inPart_iff, inPart_iff]; simp only [hm])
  simp only [State.members, hpart, core_of_cores hc]

/-- R319, R320: a sample at quench level of a stack that was not quenched. -/
theorem tempSample_quenched {x : Nat} (hp : s.partOf (stackHearth n) = some p) (hk : s.mem.stk[n] = k) (hh : k.hot = false) (hx : 210 ≤ x) :
    ∃ t, exec (.stackTempSample n x) s = .next t ∧ (t.mem.stk[n]).mode = .quenched ∧ (t.mem.stk[n]).hot = true ∧ (t.mem.stk[n]).stoppedAt = some s.now ∧ t.pwr.thermTrip = true ∧ t.cores = s.cores
      ∧ (∀ r, k.repair = some r → s.now < r.till → (t.mem.stk[n]).repair = none ∧ (t.mem.stk[n]).sppr = r.sppr ∧ (t.mem.stk[n]).repairs = r.repairs)
      ∧ (∀ y, s.parts[p].task = some y → y.ending = none → (t.parts[p].task.bind (·.ending)).map (·.status) = some 0x0303) ∧ (s.parts[p].task = none → s.parts[p].mode = .idle → t.parts[p].mode = .outOfService) := by
  subst hk
  obtain ⟨w, hw⟩ : ∃ w, w = s.modStack n fun k => { k with temp := BitVec.ofNat 8 (min x 255) } := ⟨_, rfl⟩
  have hwk : w.mem.stk[n] = { s.mem.stk[n] with temp := BitVec.ofNat 8 (min x 255) } := by rw [hw, modStack_same]
  have hwparts : w.parts = s.parts := by rw [hw]; rfl
  have hwnow : w.now = s.now := by rw [hw]; rfl
  have hwcores : w.cores = s.cores := by rw [hw]; rfl
  obtain ⟨x', ⟨hsame, hrepair⟩, hstack⟩ := quenched_stack w n
  obtain ⟨hqcores, hqparts⟩ := quenched_rest w n
  have hqpart : (w.quenched n).partOf (stackHearth n) = some p := by rw [partOf_of_parts hqparts, partOf_of_parts hwparts, hp]
  obtain ⟨v, hends, hvrest, hvparts⟩ := quench_outcome w n
  obtain ⟨hstk, -, hcores, hparts, hpwr, -, -, -⟩ := hends.fields
  have hvmem : v.mem = (w.quenched n).mem := (congrArg State.mem hvrest :)
  have htk : (w.quench n).mem.stk[n] = { x' with mode := .quenched, stoppedAt := some w.now, hot := true } := by rw [hstk, hvmem, hstack]
  refine ⟨_, hw ▸ tempSample_quenches hx hh, ?_, ?_, ?_, ?_, ?_, fun r hr hlt => ?_, fun y hy hend => ?_, fun hnone hidle => ?_⟩
  · rw [htk]
  · rw [htk]
  · rw [htk, hwnow]
  · rw [hpwr]
    exact (congrArg (fun x : State => x.pwr.thermTrip) hvrest :)
  · exact hcores.trans ((congrArg State.cores hvrest :).trans (hqcores.trans hwcores))
  · rw [htk]
    exact hrepair r (by rw [hwk]; exact hr) (by rw [hwnow]; exact hlt)
  · have hy' : (w.quenched n).parts[p].task = some y := by rw [hqparts, hwparts, hy]
    rw [hparts, hvparts, quenchEnd_open hqpart fun z hz => by cases hy'.symm.trans hz; exact hend, stackEnd_task stQuench hqpart hy' hend]
    rfl
  · have hnone' : (w.quenched n).parts[p].task = none := by rw [hqparts, hwparts, hnone]
    have hsick : (w.quenched n).partSick p = true := partSick_of_stack hqpart (by rw [hstack]; exact StackMode.noConfusion)
    rw [hparts, hvparts, quenchEnd_open hqpart fun z hz => by cases hnone'.symm.trans hz]
    exact stackEnd_idle stQuench hqpart hnone' (by rw [hqparts, hwparts, hidle]) hsick

/-- R315, R318: a sample below quench level of a stack in service. -/
theorem tempSample_levels {x l : Nat} (hp : s.partOf (stackHearth n) = some p) (hk : s.mem.stk[n] = k) (hm : k.mode = .inService) (hx : x < 210) (hl : l = nextLevel k.level.val x) :
    (l = k.level.val ∨ l < 2 → ∃ t, exec (.stackTempSample n x) s = .next t ∧ t = { s with mem := t.mem } ∧ { t.mem with stk := s.mem.stk } = s.mem ∧ t.mem.stk[n] = { k with temp := BitVec.ofNat 8 x, level := ⟨l % 4, by omega⟩ }
        ∧ ∀ j : Fin 32, j ≠ n → t.mem.stk[j] = s.mem.stk[j])
      ∧ (l ≠ k.level.val → 2 ≤ l → ∃ t, exec (.stackTempSample n x) s = .next t ∧ t.mem.stk[n] = { k with temp := BitVec.ofNat 8 x, level := ⟨l % 4, by omega⟩ } ∧ t.mem.noticeAt[stackHearth n] = s.now
        ∧ (∀ g ∈ s.members p, ∀ w, (s.core g).wait = some w → (t.core g).wait = some { w with since := s.now }) ∧ t.mem.hbm = s.mem.hbm) := by
  subst hk hl
  have hexec := tempSample_acts x hx hm
  obtain ⟨v, hv⟩ : ∃ v, v = (s.modStack n fun k => { k with temp := BitVec.ofNat 8 (min x 255) }).modStack n fun k => { k with level := ⟨nextLevel s.mem.stk[n].level.val x % 4, by omega⟩ } := ⟨_, rfl⟩
  obtain ⟨hrest, hmem, hsame, hne⟩ := sampled_stack s n x _ hx v hv
  rw [← hv] at hexec
  refine ⟨fun hcalm => ?_, fun hmoved hhigh => ?_⟩
  · rw [if_neg (by rintro ⟨h1, h2⟩; exact hcalm.elim h1 (Nat.not_lt.2 h2))] at hexec
    exact ⟨v, hexec, (congrArg (fun y : State => { y with mem := v.mem }) hrest :), hmem, hsame, hne⟩
  · rw [if_pos ⟨hmoved, hhigh⟩] at hexec
    have hnow : v.now = s.now := (congrArg State.now hrest :)
    have hcores : v.cores = s.cores := (congrArg State.cores hrest :)
    have hparts : v.parts = s.parts := (congrArg State.parts hrest :)
    obtain ⟨y, hy⟩ : ∃ y, y = v.logStack n 0x04 0 0 0 := ⟨_, rfl⟩
    have hycores : y.cores = s.cores := by rw [hy]; exact hcores
    have hyparts : y.parts = s.parts := by rw [hy]; exact hparts
    have hynow : y.now = s.now := by rw [hy]; exact hnow
    have hymem : y.mem = v.mem := by rw [hy]; rfl
    rw [← hy] at hexec
    obtain ⟨hdmem, -, hwait⟩ := delayNotice_restarts ((partOf_of_parts hyparts _).trans hp)
    rw [hymem, hynow] at hdmem
    refine ⟨_, hexec, ?_, ?_, fun g hg w hw => ?_, ?_⟩
    · rw [hdmem]
      exact hsame
    · rw [hdmem]
      simp
    · have hg' : g ∈ y.members p := by
        rw [members_of hycores fun q => by rw [hyparts]]
        exact hg
      rw [hwait g hg' w (by rw [core_of_cores hycores]; exact hw), hynow]
    · rw [hdmem]
      exact (congrArg Mem.hbm hmem :)

/-- R318: a notice is due again while a stack of the hearth is at level 2 or 3. -/
theorem bellowsNotice_renews (hp : s.partOf h = some p) (hj : ∃ j : Fin 32, stackHearth j = h ∧ (s.mem.stk[j]).mode = .inService ∧ 2 ≤ (s.mem.stk[j]).level.val) :
    ∃ t, exec (.bellowsNoticePeriod h) s = .next t ∧ t.now = max s.now (s.mem.noticeAt[h] + 2500000 * s.mem.periodMs.toNat) ∧ t.mem.noticeAt[h] = t.now
      ∧ ∀ g ∈ s.members p, ∀ w, (s.core g).wait = some w → (t.core g).wait = some { w with since := t.now } := by
  obtain ⟨j, hjh, hjm, hjl⟩ := hj
  have hexec : exec (.bellowsNoticePeriod h) s = .next ((s.reach (s.mem.noticeAt[h] + 2500000 * s.mem.periodMs.toNat)).delayNotice h) := by
    rw [exec_bellowsNoticePeriod, execBellowsNoticePeriod, if_pos (List.any_eq_true.2 ⟨j, List.mem_finRange _, by rw [decide_eq_true hjh, decide_eq_true hjm, decide_eq_true hjl]; rfl⟩), msTicks, Nat.mul_comm]
  obtain ⟨v, hv⟩ : ∃ v, v = s.reach (s.mem.noticeAt[h] + 2500000 * s.mem.periodMs.toNat) := ⟨_, rfl⟩
  have hmode : ∀ q : Fin 8, v.parts[q].mode = s.parts[q].mode := fun q => by rw [hv]; exact advance_parts_mode ..
  have hcores : v.cores = s.cores := by rw [hv, reach_cores]
  have hpart : v.partOf h = some p := by
    rw [← hp]
    simp only [State.partOf, hmode]
  obtain ⟨hmem, hnow, hwait⟩ := delayNotice_restarts hpart
  rw [← hv] at hexec
  refine ⟨_, hexec, by rw [hnow, hv, reach_now], ?_, fun g hg w hw => ?_⟩
  · rw [hmem, hnow]
    simp
  · rw [hnow]
    exact hwait g (by rw [members_of hcores hmode]; exact hg) w (by rw [core_of_cores hcores]; exact hw)

/-- R306, R307: a replay that fails ends what would consume the read, once two have failed. -/
theorem readReplay_outcome {r : HbmReader} {a : BitVec 48} {ok : Bool} {old : Option Replay} (hs : s.hbmServed a.toNat = true) (ho : old = s.mem.replays.find? (fun y => decide (y.reader = r) && decide (y.addr = a)))
    (hl : ok = false ∨ s.mem.lost a.toNat 1 = true) :
    (old = none → ∃ t, exec (.hbmReadReplay r a ok) s = .next t ∧ t = { s with mem := t.mem } ∧ ⟨r, a, 1⟩ ∈ t.mem.replays ∧ t.mem.hbm = s.mem.hbm)
      ∧ (∀ y g, old = some y → y.count ≠ 0 → r = .core g → s.live g = true → ∃ t u, exec (.hbmReadReplay r a ok) s = .next t ∧ TaskEndsAt u t g 0x0301 ((s.core g).readerOf a.toNat).1 ∧ u.parts = s.parts ∧ u.cores = s.cores)
      ∧ (∀ y, old = some y → y.count ≠ 0 → r = .host → ∃ t, exec (.hbmReadReplay r a ok) s = .next t ∧ t.reply = .poison ∧ t.cores = s.cores ∧ t.parts = s.parts) := by
  subst ho
  have hexec := readReplay_fails (r := r) hs hl
  refine ⟨fun hnone => ?_, fun y g hy hc hr hlive => ?_, fun y hy hc hr => ?_⟩
  · rw [hnone, Option.elim_none, if_pos rfl] at hexec
    exact ⟨_, hexec, rfl, List.mem_append_right _ List.mem_cons_self, rfl⟩
  · rw [hy, Option.elim_some, if_neg hc, hr, State.readLost] at hexec
    subst hr
    refine ⟨_, { s with mem := { s.mem with replays := s.mem.otherReplays (.core g) a } }, hexec.trans (congrArg _ (if_pos hlive)), coreFault_ends _ _ _ _ hlive, rfl, rfl⟩
  · rw [hy, Option.elim_some, if_neg hc, hr, State.readLost] at hexec
    subst hr
    exact ⟨_, hexec, rfl, rfl, rfl⟩

/-- R308 to R311: a failing row is logged, and remapped where its read and a resource allow it. -/
theorem rowRepair_outcome {e : RowError} (hk : s.mem.stk[e.stack] = k) (hm : k.mode = .inService) (hf : e.uncorrectable = true ∨ k.correctedOf e.bank e.row = 3) :
    ∃ t, exec (.rowRepair e) s = .next t ∧ t.cores = s.cores ∧ t.mem.hbm = s.mem.hbm ∧ t.parts = s.parts
      ∧ (s.mem.repairLog.length < 4096 → ⟨e.stack, e.bank, e.row⟩ ∈ t.mem.repairLog ∧ t.mem.repairLost = s.mem.repairLost)
      ∧ (4096 ≤ s.mem.repairLog.length → ⟨e.stack, e.bank, e.row⟩ ∉ s.mem.repairLog → t.mem.repairLog = s.mem.repairLog ∧ t.mem.repairLost = satAdd s.mem.repairLost 1)
      ∧ (e.rowReadOk = true → Config.softRepairLeft e.stack.val e.bank (k.repairsOf e.bank) = true → (t.mem.stk[e.stack]).sppr = satAdd k.sppr 1 ∧ (t.mem.stk[e.stack]).repair.map (·.till) = some (s.now + 7500))
      ∧ (e.rowReadOk = false → (t.mem.stk[e.stack]).sppr = k.sppr) := by
  subst hk
  obtain ⟨v, c, hexec, hrest, hmem, hstk⟩ := rowRepair_fails hm hf
  obtain ⟨hcores, hhbm, hparts, hlog, hlost, hremap, hkeep⟩ := repairRow_repairs v e
  obtain ⟨-, -, hroom, hfull⟩ := logRow_logs v ⟨e.stack, e.bank, e.row⟩
  have hvlog : v.mem.repairLog = s.mem.repairLog := (congrArg Mem.repairLog hmem :)
  have hvlost : v.mem.repairLost = s.mem.repairLost := (congrArg Mem.repairLost hmem :)
  rw [hvlog, hvlost] at hroom hfull
  rw [← hlog, ← hlost] at hroom hfull
  rw [hstk] at hremap hkeep
  have hvcores : v.cores = s.cores := (congrArg State.cores hrest :)
  have hvhbm : v.mem.hbm = s.mem.hbm := (congrArg Mem.hbm hmem :)
  have hvparts : v.parts = s.parts := (congrArg State.parts hrest :)
  refine ⟨_, hexec, hcores.trans hvcores, hhbm.trans hvhbm, hparts.trans hvparts, hroom, hfull, fun hok hleft => ?_, hkeep⟩
  have hnow : v.now = s.now := (congrArg State.now hrest :)
  exact hnow ▸ hremap (Bool.and_eq_true_iff.2 ⟨hok, hleft⟩)

/-- R312, R313: a fence of a stack in service takes its whole hearth out of service. -/
theorem stackFence_outcome (cause : FenceCause) (hp : s.partOf (stackHearth n) = some p) (hm : s.mem.stk[n].mode = .inService) :
    ∃ t, exec (.stackFence n cause) s = .next t ∧ (∀ j : Fin 32, stackHearth j = stackHearth n → (t.mem.stk[j]).mode = if (s.mem.stk[j]).mode = .quenched ∧ s.stoppedThisPeriod s.mem.stk[j] = true then .quenched else .fenced)
      ∧ (∀ j : Fin 32, stackHearth j ≠ stackHearth n → t.mem.stk[j] = s.mem.stk[j]) ∧ (∀ j : Fin 8, t.glb.hrtPresent.getLsbD j.val = (s.glb.hrtPresent.getLsbD j.val && decide (j ≠ stackHearth n))) ∧ t.pwr.faultN = true ∧ n ∈ t.mem.fenceRecords
      ∧ (∀ r, r < 16 → (t.fab.links[linkOf (stackHearth n) r]).mode = .fenced)
      ∧ (∀ y, s.parts[p].task = some y → y.ending = none → (t.parts[p].task.bind (·.ending)).map (·.status) = some 0x0302) ∧ (s.parts[p].task = none → s.parts[p].mode = .idle → t.parts[p].mode = .outOfService) := by
  obtain ⟨hstk, -, hlog, hpower, -, -, hlinks⟩ := fenceHearth_units s n
  obtain ⟨htask, hidle⟩ := fenceHearth_part s n hp
  obtain ⟨-, hin, hout⟩ := fenceStacks_fences s (stackHearth n)
  have hexec := stackFence_fences cause hm
  obtain ⟨f, hf⟩ : ∃ f, f = s.fenceHearth n := ⟨_, rfl⟩
  rw [← hf] at hstk hlog hpower hlinks htask hidle hexec
  obtain ⟨v, hv⟩ : ∃ v, v = f.modStack n fun k => { k with stoppedAt := some s.now } := ⟨_, rfl⟩
  rw [← hv] at hexec
  have hvrest : { v with mem := f.mem } = f := by rw [hv]; rfl
  have hvmode : ∀ j : Fin 32, v.mem.stk[j].mode = f.mem.stk[j].mode := fun j => by
    by_cases hj : j = n
    · rw [hj, hv, modStack_same]
    · rw [hv, modStack_ne _ hj]
  obtain ⟨hrecord, hrest, hrstk⟩ := recordFence_records v n
  have hglb : (v.recordFence n).glb = f.glb := (congrArg State.glb hrest :).trans (congrArg State.glb hvrest :)
  have hpwr : (v.recordFence n).pwr = f.pwr := (congrArg State.pwr hrest :).trans (congrArg State.pwr hvrest :)
  have hfab : (v.recordFence n).fab = f.fab := (congrArg State.fab hrest :).trans (congrArg State.fab hvrest :)
  have hparts : (v.recordFence n).parts = f.parts := (congrArg State.parts hrest :).trans (congrArg State.parts hvrest :)
  refine ⟨v.recordFence n, hexec, fun j hj => ?_, fun j hj => ?_, fun j => ?_, by rw [hpwr, hpower], hrecord, fun r hr => by rw [hfab]; exact hlinks _ (.inr ⟨r, hr, rfl⟩), by rw [hparts]; exact htask, by rw [hparts]; exact hidle⟩
  · rw [hrstk, hvmode, hstk, hin j hj]
  · have hjn : j ≠ n := fun h => hj (h ▸ rfl)
    rw [hrstk, hv, modStack_ne _ hjn, hstk, hout j hj]
  · rw [hglb, hlog.present]
    exact dropHearth_present s (stackHearth n) j

/-- Settles O54: each command on a stack acts by the stack's mode, level and counts. -/
theorem stacksAreWatched : Obligations.StacksAreWatched := by
  rintro s n k h p task rfl rfl hp rfl
  refine ⟨fun x l hm hx hl => tempSample_levels hp rfl hm hx hl, fun x hx => tempSample_records hx, fun x hh hx => tempSample_quenched hp rfl hh hx, fun hj => bellowsNotice_renews hp hj, ?_, ?_,
    fun cause hm => stackFence_outcome cause hp hm, fun cause hm => stackFence_idle cause hm⟩
  · exact fun r a old hs ho => ⟨fun hl => readReplay_succeeds hs hl, fun ok hl => readReplay_outcome hs ho hl⟩
  · rintro e rfl hm
    exact ⟨fun hu hc => rowRepair_corrected hm hu hc, fun hf => rowRepair_outcome rfl hm hf⟩

end Sys2Proof.Machine
end

section

/-! PROOFS. The host's window on HBM, and the host port. -/

namespace Sys2Proof.Machine

variable {s u : State} {x : BitVec 64} {a len : Nat} {bs : List Byte}

/-! The window (R329, R337) -/

theorem serviceDone_rest (t1 : Bool) (a : Nat) (bs : List Byte) : { s.serviceDone t1 a bs with freeCtr := s.freeCtr, snoop := s.snoop } = s := by
  unfold State.serviceDone
  split <;> rfl

theorem hdmAddr_inside (hx : x.toNat < s.mem.hdmSize.toNat * 2 ^ 30) (ha : a = s.mem.hdmBase.toNat * 2 ^ 30 + x.toNat) : s.hdmAddr x.toNat = some a := by
  rw [State.hdmAddr, if_pos hx, ha]

theorem hdmRead_acts (hup : s.hostUp = true) (ha : s.hdmAddr x.toNat = some a) : exec (.hostHdmRead x len) s = .next (if s.hdmSecret a then { s.countDenied with reply := .data (List.replicate len 0) }
    else if !s.hbmServed a || s.mem.lost a len then { s.logStack (s.stackOf a) 0x07 stHbmData 0 a with reply := .poison } else { s with reply := .data (s.mem.read a len) }) := by
  rw [exec_hostHdmRead, execHostHdmRead, hup, ha]
  rfl

theorem hdmWrite_acts (hup : s.hostUp = true) (ha : s.hdmAddr x.toNat = some a) : exec (.hostHdmWrite x bs) s = .next (if s.hdmSecret a then s.countDenied
    else if !s.hbmServed a then s else ({ s with mem := s.mem.write a bs } : State).serviceDone false a bs) := by
  rw [exec_hostHdmWrite, execHostHdmWrite, hup, ha]
  rfl

/-- R298: bytes of HBM that are read, up to its top. -/
theorem read_hbm (m : Mem) (h : a + len ≤ 2 ^ 41) : m.read a len = readBytes m.hbm a len := by
  unfold Mem.read
  by_cases ha : a < hbmTop
  · rw [if_pos ha]
  · have hlen : len = 0 := by
      unfold hbmTop at ha
      omega
    have hnil : ∀ (c : List Host.Cell) (b : Nat), readBytes c b 0 = [] := fun _ _ => rfl
    simp only [hlen, hnil, ite_self]

/-- R298: bytes of HBM that are written, up to its top. -/
theorem write_hbm_bytes (m : Mem) (h : a + bs.length ≤ 2 ^ 41) : (m.write a bs).hbm = writeBytes m.hbm a bs ∧ { m.write a bs with hbm := m.hbm, badHbm := m.badHbm, replays := m.replays } = m := by
  unfold Mem.write
  by_cases ha : a < hbmTop
  · rw [if_pos ha]
    exact ⟨rfl, rfl⟩
  · have htop : a < hostBase := by
      unfold hostBase
      omega
    have hbs : bs = [] := List.eq_nil_of_length_eq_zero (by unfold hbmTop at ha; omega)
    rw [if_neg ha, if_pos htop, hbs]
    exact ⟨rfl, rfl⟩

theorem hdmWrite_stores (hw : s.Wf) (hup : s.hostUp = true) (ha : s.hdmAddr x.toNat = some a) (htop : a + bs.length ≤ 2 ^ 41) (hsec : s.hdmSecret a = false) (hserved : s.hbmServed a = true) :
    ∃ t, exec (.hostHdmWrite x bs) s = .next t ∧ (∀ j (hj : j < bs.length), readByte t.mem.hbm (a + j) = bs[j]) ∧ (∀ b, b < a ∨ a + bs.length ≤ b → readByte t.mem.hbm b = readByte s.mem.hbm b)
      ∧ { t.mem with hbm := s.mem.hbm, badHbm := s.mem.badHbm, replays := s.mem.replays } = s.mem ∧ t.cores = s.cores ∧ t.parts = s.parts := by
  obtain ⟨⟨hhbm, -⟩, -⟩ := hw
  obtain ⟨hbytes, hframe⟩ := write_hbm_bytes (bs := bs) s.mem htop
  obtain ⟨v, hv⟩ : ∃ v : State, v = { s with mem := s.mem.write a bs } := ⟨_, rfl⟩
  have hvmem : v.mem = s.mem.write a bs := by rw [hv]
  have hvcores : v.cores = s.cores := by rw [hv]
  have hvparts : v.parts = s.parts := by rw [hv]
  have hexec : exec (.hostHdmWrite x bs) s = .next (v.serviceDone false a bs) := by
    rw [hdmWrite_acts hup ha, if_neg (by rw [hsec]; exact Bool.false_ne_true), if_neg (by rw [hserved]; exact Bool.false_ne_true), hv]
  have hrest := serviceDone_rest (s := v) false a bs
  have hmem : (v.serviceDone false a bs).mem = v.mem := (congrArg State.mem hrest :)
  have hcores : (v.serviceDone false a bs).cores = v.cores := (congrArg State.cores hrest :)
  have hparts : (v.serviceDone false a bs).parts = v.parts := (congrArg State.parts hrest :)
  rw [hvmem] at hmem
  refine ⟨_, hexec, fun j hj => ?_, fun b hb => ?_, ?_, hcores.trans hvcores, hparts.trans hvparts⟩
  · rw [hmem, hbytes, readByte_writeBytes_inside _ j hj hhbm]
  · rw [hmem, hbytes, readByte_writeBytes_outside _ hhbm hb]
  · rw [hmem, hframe]

/-! HP0 goes down (R328, R444) -/

/-- From `s` to `t` the command engine, the security unit and the power stand. -/
def PortStands (s t : State) : Prop := t.larcy = s.larcy ∧ t.sec = s.sec ∧ t.pwr = s.pwr

theorem portStands_sends : SendFrame PortStands where
  refl _ := ⟨rfl, rfl, rfl⟩
  trans := fun ⟨h1, h2, h3⟩ ⟨k1, k2, k3⟩ => ⟨k1.trans h1, k2.trans h2, k3.trans h3⟩
  fab _ _ := ⟨rfl, rfl, rfl⟩
  draw _ := ⟨rfl, rfl, rfl⟩
  sends _ _ _ _ := ⟨rfl, rfl, rfl⟩
  fault s g st b q d := by
    have hrest := coreFault_rest s g st b q d
    exact ⟨(congrArg State.larcy hrest :), (congrArg State.sec hrest :), coreFault_pwr ..⟩

theorem xferFail_stands (g : Fin 512) (q : Fin 8) (y : Xfer) (st : Status) : PortStands s (s.xferFail g q y st) := by
  unfold State.xferFail
  exact ite_frame (fun _ => ⟨rfl, rfl, rfl⟩) fun _ => portStands_sends.fault ..

theorem hostFail_stands (g : Fin 512) (q : Fin 8) (y : Xfer) : PortStands s (s.hostFail g q y) := by
  unfold State.hostFail
  refine ite_frame (fun _ => ?_) fun _ => xferFail_stands ..
  unfold State.moveFar
  dsimp only
  exact portStands_sends.trans (ite_frame (fun _ => portStands_sends.refl s) fun _ => portStands_sends.sendMsg ..) (xferFail_stands ..)

/-- R328: the host access at the head of one queue fails, where one is outstanding. -/
def State.failHead (s : State) (g : Fin 512) (q : Fin 8) : State :=
  ((s.core g).q[q].xfers.head?).elim s fun y => if s.hostPending g y then s.hostFail g q y else s

theorem failHead_stands (g : Fin 512) (q : Fin 8) : PortStands s (s.failHead g q) := by
  unfold State.failHead
  cases (s.core g).q[q].xfers.head? with
  | none => exact portStands_sends.refl s
  | some y => exact ite_frame (fun _ => hostFail_stands ..) fun _ => portStands_sends.refl s

theorem failHead_none {g : Fin 512} {q : Fin 8} (h : ∀ y, (s.core g).q[q].xfers.head? = some y → s.hostPending g y = false) : s.failHead g q = s := by
  unfold State.failHead
  cases hy : (s.core g).q[q].xfers.head? with
  | none => rfl
  | some y =>
    rw [Option.elim_some, h y hy]
    rfl

theorem failHostXfers_eq (s : State) : s.failHostXfers = ((List.finRange 512).zip s.cores.toList).foldl (fun s y => if y.2.q.toList.all fun q => q.xfers.isEmpty then s
    else (List.finRange 8).foldl (fun s q => s.failHead y.1 q) s) s := by
  unfold State.failHostXfers
  refine congrArg (fun f => List.foldl f s ((List.finRange 512).zip s.cores.toList)) (funext fun v => funext fun y => ?_)
  refine congrArg (fun w => if y.2.q.toList.all fun q => q.xfers.isEmpty then v else w) (congrArg (fun f => List.foldl f v (List.finRange 8)) (funext fun w => funext fun q => ?_))
  unfold State.failHead
  cases (w.core y.1).q[q].xfers.head? <;> rfl

theorem failHostXfers_stands (s : State) : PortStands s s.failHostXfers := by
  rw [failHostXfers_eq]
  exact portStands_sends.foldl (fun _ _ => ite_frame (fun _ => portStands_sends.refl _) fun _ => portStands_sends.foldl (fun _ _ => failHead_stands ..) _ _) _ _

theorem failHostXfers_none (h : ∀ (g : Fin 512) (q : Fin 8) y, ((s.core g).q[q]).xfers.head? = some y → s.hostPending g y = false) : s.failHostXfers = s := by
  rw [failHostXfers_eq]
  refine List.foldlRecOn (motive := fun v => v = s) _ _ rfl fun v hv y _ => ?_
  subst hv
  split
  · rfl
  · exact List.foldlRecOn (motive := fun w => w = v) _ _ rfl fun w hw q _ => by
      subst hw
      exact failHead_none (h y.1 q)

/-! Contexts close (R444) -/

/-- From `s` to `t` contexts were removed: what they issued belongs to none, and nothing else changes. -/
def CtxsGone (s t : State) : Prop :=
  t.cores = s.cores ∧ t.mem = s.mem ∧ t.sec = s.sec ∧ t.larcy.drops = s.larcy.drops ∧ t.pwr = s.pwr
    ∧ ∀ p : Fin 8, t.parts[p].mode = s.parts[p].mode ∧ (t.parts[p].task.map (·.ending)) = (s.parts[p].task.map (·.ending))

theorem CtxsGone.trans {t : State} (h : CtxsGone s u) (k : CtxsGone u t) : CtxsGone s t := by
  obtain ⟨h1, h2, h3, h4, h5, hp⟩ := h
  obtain ⟨k1, k2, k3, k4, k5, kp⟩ := k
  exact ⟨k1.trans h1, k2.trans h2, k3.trans h3, k4.trans h4, k5.trans h5, fun p => ⟨(kp p).1.trans (hp p).1, (kp p).2.trans (hp p).2⟩⟩

theorem dropCtx_gone (s : State) (n : Fin 4096) : CtxsGone s (s.dropCtx n) := by
  refine ⟨rfl, rfl, rfl, rfl, rfl, fun p => ?_⟩
  have hpart : (s.dropCtx n).parts = (s.disown n).parts := rfl
  rw [hpart, State.disown]
  simp only [Fin.getElem_fin, Vector.getElem_map, Option.map_map]
  exact ⟨trivial, rfl⟩

theorem foldl_dropCtx : ∀ (ns : List (Fin 4096)) (s : State), CtxsGone s (ns.foldl State.dropCtx s)
    ∧ (ns.foldl State.dropCtx s).larcy.ctxs = s.larcy.ctxs.filter fun c => decide (c.num ∉ ns)
  | [], s => ⟨⟨rfl, rfl, rfl, rfl, rfl, fun _ => ⟨rfl, rfl⟩⟩, by simp⟩
  | n :: ns, s => by
    obtain ⟨hgone, hctxs⟩ := foldl_dropCtx ns (s.dropCtx n)
    refine ⟨(dropCtx_gone s n).trans hgone, ?_⟩
    have hdrop : (s.dropCtx n).larcy.ctxs = s.larcy.ctxs.filter fun c => decide (c.num ≠ n) := rfl
    rw [List.foldl_cons, hctxs, hdrop, List.filter_filter]
    refine List.filter_congr fun c _ => ?_
    simp [Bool.and_comm]

theorem closeAll_gone (s : State) : CtxsGone s s.closeAll ∧ s.closeAll.larcy.ctxs = [] := by
  obtain ⟨hgone, hctxs⟩ := foldl_dropCtx (s.larcy.ctxs.map (·.num)) s
  refine ⟨hgone, ?_⟩
  unfold State.closeAll
  rw [hctxs]
  exact List.filter_eq_nil_iff.2 fun c hc => by simpa using ⟨c, hc, rfl⟩

theorem updateEnd_ends (s : State) (st : Status) : { s.updateEnd st with sec := s.sec, glb := s.glb } = s ∧ (s.updateEnd st).sec = { s.sec with fwResult := st, fwBusy := false } := ⟨rfl, rfl⟩

theorem installEnd_ends (s : State) (st : Status) : { s.installEnd st with sec := s.sec, glb := s.glb } = s ∧ (s.installEnd st).sec = { s.sec with instResult := st, instActive := false, install := none } := ⟨rfl, rfl⟩

/-- R444, R471, R484: what ends with the port: an installation, and then an update. -/
def State.portEnds (s : State) : State :=
  let v := if s.sec.instActive then s.installEnd stTier else s
  if v.sec.fwBusy then v.updateEnd stTier else v

theorem portEnds_ends (s : State) : { s.portEnds with sec := s.sec, glb := s.glb } = s
    ∧ (s.sec.instActive = true → s.portEnds.sec.instActive = false ∧ s.portEnds.sec.instResult = 0x0304) ∧ (s.sec.fwBusy = true → s.portEnds.sec.fwBusy = false ∧ s.portEnds.sec.fwResult = 0x0304) := by
  obtain ⟨v, hv⟩ : ∃ v, v = if s.sec.instActive then s.installEnd stTier else s := ⟨_, rfl⟩
  have hvi : { v with sec := s.sec, glb := s.glb } = s ∧ v.sec.fwBusy = s.sec.fwBusy ∧ (s.sec.instActive = true → v.sec.instActive = false ∧ v.sec.instResult = 0x0304) := by
    rw [hv]
    by_cases hi : s.sec.instActive = true
    · rw [if_pos hi]
      exact ⟨rfl, rfl, fun _ => ⟨rfl, rfl⟩⟩
    · rw [if_neg hi]
      exact ⟨rfl, rfl, fun h => absurd h hi⟩
  obtain ⟨hrest, hbusy, hinst⟩ := hvi
  unfold State.portEnds
  dsimp only
  rw [← hv]
  by_cases hb : v.sec.fwBusy = true
  · rw [if_pos hb]
    obtain ⟨hurest, husec⟩ := updateEnd_ends v stTier
    have hall : { v.updateEnd stTier with sec := s.sec, glb := s.glb } = { v with sec := s.sec, glb := s.glb } := (congrArg (fun w : State => { w with sec := s.sec, glb := s.glb }) hurest :)
    rw [husec]
    exact ⟨hall.trans hrest, fun hi => hinst hi, fun _ => ⟨rfl, rfl⟩⟩
  · rw [if_neg hb]
    exact ⟨hrest, hinst, fun hf => absurd (hbusy.trans hf) hb⟩

/-- R444: the port at the moment that it goes down. -/
def State.portLost (s : State) : State := s.failHostXfers.closeAll.modLarcy fun l => { l with up := false, d3hot := false, proto := 0, width := 0, rate := 0, drops := satAdd l.drops 1 }

theorem hp0Down_acts (h : s.larcy.up = true) : exec .hp0Down s = .next ((s.portLost.log ⟨0, 0x0A, 0, 0, 0, 0, 0, 0⟩).portEnds) := by
  have hup : ¬(!s.larcy.up) = true := by rw [h]; exact Bool.false_ne_true
  rw [exec_hp0Down, execHp0Down]
  unfold State.portDown State.portEnds State.portLost
  exact congrArg _ (if_neg hup)

theorem portLost_fields (s : State) : s.portLost.cores = s.failHostXfers.closeAll.cores ∧ s.portLost.mem = s.failHostXfers.closeAll.mem ∧ s.portLost.sec = s.failHostXfers.closeAll.sec ∧ s.portLost.parts = s.failHostXfers.closeAll.parts
    ∧ s.portLost.larcy = { s.failHostXfers.closeAll.larcy with up := false, d3hot := false, proto := 0, width := 0, rate := 0, drops := satAdd s.failHostXfers.closeAll.larcy.drops 1 } := by
  have hlarcy : ∀ (v : State) (f : Larcy → Larcy), (v.modLarcy f).larcy = f v.larcy := fun _ _ => rfl
  unfold State.portLost
  exact ⟨modLarcy_cores .., modLarcy_mem .., modLarcy_sec .., modLarcy_parts .., hlarcy ..⟩

theorem hp0Down_closes (h : s.larcy.up = true) : ∃ t, exec .hp0Down s = .next t ∧ t.larcy.up = false ∧ t.larcy.ctxs = [] ∧ t.larcy.proto = 0 ∧ t.larcy.width = 0 ∧ t.larcy.rate = 0 ∧ t.larcy.drops = satAdd s.larcy.drops 1
      ∧ (∀ u, u = s.failHostXfers → t.cores = u.cores ∧ t.mem = u.mem ∧ (∀ p : Fin 8, t.parts[p].mode = u.parts[p].mode ∧ (t.parts[p].task.map (·.ending)) = (u.parts[p].task.map (·.ending))) ∧ ((∀ (g : Fin 512) (q : Fin 8) y, ((s.core g).q[q]).xfers.head? = some y → s.hostPending g y = false) → u = s))
      ∧ (s.sec.instActive = true → t.sec.instActive = false ∧ t.sec.instResult = 0x0304) ∧ (s.sec.fwBusy = true → t.sec.fwBusy = false ∧ t.sec.fwResult = 0x0304) := by
  obtain ⟨hlarcy, hsec, -⟩ := failHostXfers_stands s
  obtain ⟨⟨hcores, hmem, hcsec, hdrops, -, hparts⟩, hctxs⟩ := closeAll_gone s.failHostXfers
  obtain ⟨hlcores, hlmem, hlsec, hlparts, hllarcy⟩ := portLost_fields s
  obtain ⟨v, hv⟩ : ∃ v, v = s.portLost.log ⟨0, 0x0A, 0, 0, 0, 0, 0, 0⟩ := ⟨_, rfl⟩
  obtain ⟨hrest, hinst, hbusy⟩ := portEnds_ends v
  have hvsec : v.sec = s.sec := by rw [hv, log_sec, hlsec, hcsec, hsec]
  have hvlarcy : v.larcy = { s.failHostXfers.closeAll.larcy with up := false, d3hot := false, proto := 0, width := 0, rate := 0, drops := satAdd s.failHostXfers.closeAll.larcy.drops 1 } := by rw [hv, log_larcy, hllarcy]
  have hvcores : v.cores = s.failHostXfers.cores := by rw [hv, log_cores, hlcores, hcores]
  have hvmem : v.mem = s.failHostXfers.mem := by rw [hv, log_mem, hlmem, hmem]
  have hvparts : v.parts = s.failHostXfers.closeAll.parts := by rw [hv, log_parts, hlparts]
  have htlarcy : v.portEnds.larcy = v.larcy := (congrArg State.larcy hrest :)
  have htcores : v.portEnds.cores = v.cores := (congrArg State.cores hrest :)
  have htmem : v.portEnds.mem = v.mem := (congrArg State.mem hrest :)
  have htparts : v.portEnds.parts = v.parts := (congrArg State.parts hrest :)
  rw [hvsec] at hinst hbusy
  rw [hvlarcy, hdrops, hlarcy] at htlarcy
  have hexec := hp0Down_acts h
  rw [← hv] at hexec
  refine ⟨v.portEnds, hexec, by rw [htlarcy], by rw [htlarcy, hctxs], by rw [htlarcy], by rw [htlarcy], by rw [htlarcy], by rw [htlarcy], ?_, hinst, hbusy⟩
  intro u hu
  rw [← hu] at hvcores hvmem hvparts hparts
  refine ⟨htcores.trans hvcores, htmem.trans hvmem, fun p => ?_, fun h => hu.trans (failHostXfers_none h)⟩
  rw [htparts, hvparts]
  exact hparts p

/-- R444: the port is down, the power as before. -/
theorem portDown_down (s : State) : s.portDown.larcy.up = false ∧ s.portDown.pwr = s.pwr := by
  cases h : s.larcy.up with
  | false =>
    have hsame : s.portDown = s := if_pos (by rw [h]; rfl)
    rw [hsame]
    exact ⟨h, rfl⟩
  | true =>
    obtain ⟨v, hv⟩ : ∃ v, v = s.portLost.log ⟨0, 0x0A, 0, 0, 0, 0, 0, 0⟩ := ⟨_, rfl⟩
    have hexec := hp0Down_acts h
    rw [exec_hp0Down, execHp0Down, ← hv] at hexec
    obtain ⟨hrest, -, -⟩ := portEnds_ends v
    obtain ⟨-, -, -, -, hlarcy⟩ := portLost_fields s
    have hlarcy' : v.portEnds.larcy = v.larcy := (congrArg State.larcy hrest :)
    have hpwr : v.portEnds.pwr = v.pwr := (congrArg State.pwr hrest :)
    have hlost : s.portLost.pwr = s.pwr := by
      unfold State.portLost
      rw [modLarcy_pwr, (closeAll_gone s.failHostXfers).1.2.2.2.2.1, (failHostXfers_stands s).2.2]
    rw [Host.Outcome.next.inj hexec, hlarcy', hpwr, hv, log_larcy, hlarcy, log_pwr, hlost]
    exact ⟨rfl, rfl⟩

/-- Settles O55: the window by the admission of its address; the port by its state. -/
theorem hostPortActs : Obligations.HostPortActs := by
  intro s x a hw
  refine ⟨fun len bs hup => ⟨fun hx ha hlen hbs => ⟨fun hsec hserved => ⟨fun hlost => ?_, fun hlost => ?_, hdmWrite_stores hw hup (hdmAddr_inside hx ha) hbs hsec hserved⟩, fun hsec => ?_, fun hsec hserved => ?_⟩, fun hx => ?_⟩,
    fun hup hproto => ?_, fun o rate hr hc hrate hwidth => ?_, fun d hup => ?_, hp0Down_closes, fun hdown => ?_⟩
  · rw [hdmRead_acts hup (hdmAddr_inside hx ha), if_neg (by rw [hsec]; exact Bool.false_ne_true), if_neg (by rw [hserved, hlost]; exact Bool.false_ne_true), read_hbm _ hlen]
  · refine ⟨{ s.logStack (s.stackOf a) 0x07 stHbmData 0 a with reply := .poison }, ?_, rfl, rfl⟩
    rw [hdmRead_acts hup (hdmAddr_inside hx ha), if_neg (by rw [hsec]; exact Bool.false_ne_true), if_pos (by rw [hlost]; exact Bool.or_true _)]
  · refine ⟨⟨{ s.countDenied with reply := .data (List.replicate len 0) }, ?_, rfl, rfl⟩, s.countDenied, ?_, rfl, rfl⟩
    · rw [hdmRead_acts hup (hdmAddr_inside hx ha), if_pos hsec]
    · rw [hdmWrite_acts hup (hdmAddr_inside hx ha), if_pos hsec]
  · refine ⟨⟨{ s.logStack (s.stackOf a) 0x07 stHbmData 0 a with reply := .poison }, ?_, rfl, rfl⟩, ?_⟩
    · rw [hdmRead_acts hup (hdmAddr_inside hx ha), if_neg (by rw [hsec]; exact Bool.false_ne_true), if_pos (by rw [hserved]; rfl)]
    · rw [hdmWrite_acts hup (hdmAddr_inside hx ha), if_neg (by rw [hsec]; exact Bool.false_ne_true), if_pos (by rw [hserved]; rfl)]
  · have hnone : s.hdmAddr x.toNat = none := by rw [State.hdmAddr, if_neg (Nat.not_lt.2 hx)]
    rw [exec_hostHdmRead, execHostHdmRead, exec_hostHdmWrite, execHostHdmWrite, hup, hnone]
    exact ⟨rfl, rfl⟩
  · rw [exec_hostSnoop, execHostSnoop, if_pos (by rw [hup, decide_eq_true hproto]; rfl)]
  · subst hr
    rw [exec_hp0LinkUp, execHp0LinkUp]
    exact congrArg _ (if_pos (by rw [hc, decide_eq_true hrate, decide_eq_true hwidth]; rfl))
  · rw [exec_powerStateChange, execPowerStateChange, if_pos hup]
  · rw [exec_hp0Down, execHp0Down, State.portDown, if_pos (by rw [hdown]; rfl)]

end Sys2Proof.Machine
end

section

/-! PROOFS. Rails, the input, REFCLK and the slow pins. -/

namespace Sys2Proof.Machine

variable {s u v : State} {p : Pin} {level : Bool} {f g : Filter}

/-! Reset (R505, R515) -/

/-- A wiped state that keeps the time of `s` is wiped from `s`, whatever becomes of its power and its reset causes. -/
theorem wipe_wiped (s : State) (pw : Power) (c : BitVec 6) (hr : pw.ready = false) : Wiped s { s.wipe with pwr := pw, glb := { s.wipe.glb with cause := c } } :=
  ⟨rfl, rfl, rfl, rfl, rfl, rfl, rfl, rfl, rfl, hr, rfl, rfl, rfl, rfl⟩

/-- What a reset keeps of the state before it. -/
theorem Wiped.of_kept {w t : State} (h : Wiped w t) (hn : w.now = s.now) (hp : w.glb.hrtPresent = s.glb.hrtPresent) (hm : w.mem = s.mem) (hs : w.sec = s.sec) : Wiped s t := by
  obtain ⟨h1, h2, h3, h4, h5, h6, h7, h8, h9, h10, h11, h12, h13, h14⟩ := h
  rw [hm] at h13
  rw [hs] at h14
  exact ⟨h1, h2, h3, h4, h5, h6, h7, h8, h9, h10, h11.trans hn, h12.trans hp, h13, h14⟩

theorem moduleReset_wipes (s : State) (first : Nat) (forced : Bool) : Wiped s (s.moduleReset first forced) ∧ (s.moduleReset first forced).pwr.phase = .reset
    ∧ (s.moduleReset first forced).pwr.pins = s.pwr.pins ∧ (s.moduleReset first forced).pwr.nextCause = s.pwr.nextCause ||| s.resetCauses first forced :=
  ⟨wipe_wiped s _ s.glb.cause rfl, rfl, rfl, rfl⟩

/-- R527: the causes of a reset by PWR_GOOD and by RESET_N hold POWER and RESET_N. -/
theorem resetCauses_bit (s : State) (b : Fin 2) (forced : Bool) : (s.resetCauses (2 ^ b.val) forced).getLsbD b.val = true := by
  unfold State.resetCauses
  rcases b with ⟨b, hb⟩
  have hb : b = 0 ∨ b = 1 := by omega
  rw [BitVec.getLsbD_ofNat]
  generalize forced.toNat = w
  generalize s.pwr.refclkStop.toNat = x
  generalize s.pwr.railFault.toNat = y
  generalize s.pwr.thermTrip.toNat = z
  rcases hb with rfl | rfl
  · simp [Nat.testBit, Nat.shiftRight_eq_div_pow]
    omega
  · simp [Nat.testBit, Nat.shiftRight_eq_div_pow]
    omega

/-! Rails, the input and REFCLK (R503, R504, R512) -/

theorem inputLoss_wipes (s : State) : ∃ t, exec .inputLoss s = .next t ∧ Wiped s t ∧ t.pwr.inputOk = false ∧ t.pwr.railsOn = false ∧ t.pwr.phase = .off ∧ t.pwr.lostInput = true ∧ t.pwr.thermTrip = false ∧ t.pwr.faultN = false := by
  rw [exec_inputLoss, execInputLoss]
  exact ⟨_, rfl, wipe_wiped s _ 0 rfl, rfl, rfl, rfl, rfl, rfl, rfl⟩

theorem railFault_wipes (r : Option (Fin 8)) (h : s.pwr.railsOn = true) :
    ∃ t, exec (.railFault r) s = .next t ∧ Wiped s t ∧ t.pwr.railsOn = false ∧ t.pwr.railFault = true ∧ t.pwr.faultN = true ∧ t.pwr.phase = .off ∧ t.glb.cause = s.glb.cause := by
  rw [exec_railFault, execRailFault, if_pos h]
  exact ⟨_, rfl, wipe_wiped s _ s.glb.cause rfl, rfl, rfl, rfl, rfl, rfl⟩

theorem refclkLoss_wipes (h : s.pwr.inputOk = true) : ∃ t, exec .refclkLoss s = .next t ∧ Wiped s t ∧ t.pwr.refclk = false ∧ t.pwr.refclkStop = true ∧ t.pwr.faultN = true ∧ t.pwr.phase = .off := by
  rw [exec_refclkLoss, execRefclkLoss, if_pos h]
  exact ⟨_, rfl, wipe_wiped s _ s.glb.cause rfl, rfl, rfl, rfl, rfl⟩

/-! Pins (R508 to R510, R515, R516) -/

theorem modPin_pin (s : State) (p : Pin) (f : Filter → Filter) : (s.modPin p f).pwr.pins[pinIndex p] = f s.pwr.pins[pinIndex p] := by simp [State.modPin]

/-- The state when a filter of it accepts a level: REFCLK runs. -/
def State.clockedIn (s : State) : State := { s with pwr := { s.pwr with refclk := true } }

theorem slowInput_accepts (hin : s.pwr.inputOk = true) (hr : (s.pwr.pins[pinIndex p]).racing = false) (hh : (s.pwr.pins[pinIndex p]).holdUntil = none) (hl : (s.pwr.pins[pinIndex p]).level ≠ level) :
    exec (.slowInputAccept p level) s = .next (s.clockedIn.acceptPin p level) := by
  rw [exec_slowInputAccept, execSlowInputAccept]
  exact congrArg _ (if_neg (by rw [hin, hr, hh, decide_eq_false hl]; exact Bool.false_ne_true))

theorem slowInput_idle (h : (s.pwr.pins[pinIndex p]).racing = true ∨ (s.pwr.pins[pinIndex p]).level = level) : exec (.slowInputAccept p level) s = .next s := by
  rw [exec_slowInputAccept, execSlowInputAccept]
  refine congrArg _ (if_pos ?_)
  rcases h with h | h
  · rw [h]
    simp
  · rw [decide_eq_true h]
    simp

theorem acceptPin_takes (hg : g = (s.pwr.pins[pinIndex p]).take level s.now) (hlen : g.changes.length ≤ 16) : s.acceptPin p level = (s.modPin p fun _ => g).pinEffect p level false := by
  subst hg
  exact if_neg (Nat.not_lt.2 hlen)

/-- R509: the filter of an input that races. -/
def Filter.races (g : Filter) : Filter := { g with level := false, racing := true, changes := [] }

theorem acceptPin_races (hg : g = (s.pwr.pins[pinIndex p]).take level s.now) (hlen : 16 < g.changes.length) :
    s.acceptPin p level = if level then ((s.modPin p fun _ => g.races).logRace p).addCauses (racingCauses p) else ((s.modPin p fun _ => g.races).logRace p).pinEffect p false true := by
  subst hg
  exact if_pos hlen

/-- An accepted fall of an input leaves its filter as it is. -/
theorem pinEffect_fall_pins (s : State) (p : Pin) (forced : Bool) : (s.pinEffect p false forced).pwr.pins = s.pwr.pins := by
  cases p with
  | pwrGood => rfl
  | resetN => rfl
  | hostPerstN => exact congrArg Power.pins (portDown_down s).2
  | throttleN => rfl

/-- An accepted change, below the limit of a racing input, has the effect of its input. -/
theorem acceptedPin_effects {w t : State} (hw : w = s.clockedIn.modPin p fun _ => g) (ht : t = w.pinEffect p level false) :
    (p = .resetN → level = false → Wiped s t ∧ t.pwr.phase = .reset ∧ t.pwr.pins[pinIndex p] = g ∧ t.pwr.nextCause.getLsbD 1 = true)
      ∧ (p = .pwrGood → level = false → Wiped s t ∧ t.pwr.phase = .reset ∧ t.pwr.nextCause.getLsbD 0 = true)
      ∧ (p = .resetN → level = true → t.pwr.t0 = max s.pwr.t0 s.now ∧ t.cores = s.cores ∧ t.mem = s.mem) ∧ (p = .pwrGood → level = true → t.pwr.t0 = s.now + 50000000 ∧ t.cores = s.cores ∧ t.mem = s.mem)
      ∧ (p = .hostPerstN → level = false → t = w.portDown ∧ t.larcy.up = false ∧ (s.larcy.up = false → t.cores = s.cores ∧ t.mem = s.mem)) ∧ (p = .hostPerstN → level = true → t.larcy = s.larcy ∧ t.cores = s.cores) ∧ (p = .throttleN → t = w) := by
  have hpin : w.pwr.pins[pinIndex p] = g := by rw [hw, modPin_pin]
  have hreset : ∀ (b : Fin 2), Wiped s (w.moduleReset (2 ^ b.val) false) ∧ (w.moduleReset (2 ^ b.val) false).pwr.nextCause.getLsbD b.val = true := fun b => by
    obtain ⟨hwiped, -, -, hcause⟩ := moduleReset_wipes w (2 ^ b.val) false
    rw [hcause, BitVec.getLsbD_or, resetCauses_bit, Bool.or_true]
    exact ⟨hwiped.of_kept (by rw [hw]; rfl) (by rw [hw]; rfl) (by rw [hw]; rfl) (by rw [hw]; rfl), rfl⟩
  refine ⟨?_, ?_, ?_, ?_, ?_, ?_, ?_⟩
  · rintro rfl rfl
    subst ht
    exact ⟨(hreset 1).1, rfl, hpin, (hreset 1).2⟩
  · rintro rfl rfl
    subst ht
    exact ⟨(hreset 0).1, rfl, (hreset 0).2⟩
  · rintro rfl rfl
    subst ht hw
    exact ⟨rfl, rfl, rfl⟩
  · rintro rfl rfl
    subst ht hw
    exact ⟨rfl, rfl, rfl⟩
  · rintro rfl rfl
    subst ht
    refine ⟨rfl, (portDown_down w).1, fun hdown => ?_⟩
    have hwup : w.larcy.up = false := by rw [hw]; exact hdown
    have hsame : w.pinEffect .hostPerstN false false = w := if_pos (by rw [hwup]; rfl)
    rw [hsame, hw]
    exact ⟨rfl, rfl⟩
  · rintro rfl rfl
    subst ht hw
    exact ⟨rfl, rfl⟩
  · rintro rfl
    rw [ht]
    rfl

/-- Settles O56: a loss of power or clock stops the module where it stands; a pin's filter decides what its level does. -/
theorem pinsAndRailsAct : Obligations.PinsAndRailsAct := by
  intro s
  refine ⟨inputLoss_wipes s, fun h => ?_, fun r h => railFault_wipes r h, fun h => refclkLoss_wipes h, ?_⟩
  · rw [exec_inputRestore, execInputRestore, if_neg (by rw [h]; exact Bool.false_ne_true)]
  · rintro p level f g v rfl rfl
    refine ⟨fun hin hr hh hl hv => ?_, fun h => slowInput_idle h, fun d held hd hheld => ?_, fun d u hd hr hl hu => ?_, fun u hr hu => ⟨fun hl => ?_, fun hl => ?_⟩, fun hr => ?_⟩
    · have hexec := slowInput_accepts hin hr hh hl
      obtain ⟨g, hg⟩ : ∃ g, g = (s.pwr.pins[pinIndex p]).take level s.now := ⟨_, rfl⟩
      have hvc : v = s.clockedIn := hv
      have hraced : (s.clockedIn.modPin p fun _ => g.races).pwr.pins[pinIndex p] = g.races := modPin_pin s.clockedIn p fun _ => g.races
      rw [← hg, hvc]
      refine ⟨⟨by rw [hg]; rfl, by rw [hg]; rfl, by rw [hg]; exact hr⟩, fun hlen => ?_, fun hlen hlevel => ?_, fun hlen hlevel => ?_⟩
      · rw [acceptPin_takes (s := s.clockedIn) hg hlen] at hexec
        exact ⟨hexec, fun t ht => acceptedPin_effects rfl (Host.Outcome.next.inj (ht.symm.trans hexec))⟩
      · rw [acceptPin_races (s := s.clockedIn) hg hlen, if_pos hlevel] at hexec
        exact ⟨_, hexec, hraced, rfl, rfl, rfl⟩
      · rw [acceptPin_races (s := s.clockedIn) hg hlen, if_neg (by rw [hlevel]; exact Bool.false_ne_true)] at hexec
        refine ⟨_, hexec, ?_, ?_⟩
        · rw [pinEffect_fall_pins]
          exact hraced
        · rintro rfl
          exact (moduleReset_wipes ((s.clockedIn.modPin .resetN fun _ => g.races).logRace .resetN) 2 true).1.of_kept rfl rfl rfl rfl
    · have hexec : exec (.filterHoldoffEnd p held) s = .next ((s.reach d).modPin p fun f => { f with holdUntil := none }) := by
        rw [exec_filterHoldoffEnd, execFilterHoldoffEnd, hd]
        rcases hheld with rfl | rfl
        · rfl
        · dsimp only
          rw [modPin_pin, reach_pwr]
          exact congrArg _ (if_pos (by simp))
      refine ⟨_, hexec, ?_, ?_, ?_, ?_⟩
      · rw [modPin_pin, reach_pwr]
      · exact reach_now s d
      · exact reach_cores s d
      · exact reach_mem s d
    · rw [exec_filterHoldoffEnd, execFilterHoldoffEnd, hd, hu]
      dsimp only
      rw [modPin_pin, reach_pwr]
      exact congrArg _ (if_neg (by rw [hr, decide_eq_false hl]; exact Bool.false_ne_true))
    · rw [exec_racingEnd, execRacingEnd, hu]
      dsimp only
      rw [if_neg (by rw [hr]; exact Bool.false_ne_true), if_pos hl]
      rfl
    · rw [exec_racingEnd, execRacingEnd, hu]
      dsimp only
      rw [if_neg (by rw [hr]; exact Bool.false_ne_true), if_neg hl]
      rfl
    · rw [exec_racingEnd, execRacingEnd]
      exact congrArg _ (if_pos (by rw [hr]; rfl))

end Sys2Proof.Machine
end

section

/-! PROOFS. Start-up: the boot, what comes into service, and the thermal trip. -/

namespace Sys2Proof.Machine

variable {s u : State} {p h : Fin 8} {r : TrainResult}

/-! The boot (R466 to R472, R514, R527) -/

theorem fwSlotStatus_of_sec (hu : u.sec = s.sec) (b : Bool) : u.fwSlotStatus b = s.fwSlotStatus b ∧ u.fwSlot b = s.fwSlot b := by
  have hslot : u.fwSlot b = s.fwSlot b := by simp only [State.fwSlot, hu]
  refine ⟨?_, hslot⟩
  unfold State.fwSlotStatus
  rw [hslot]
  cases s.fwSlot b with
  | none => rfl
  | some f => simp only [State.fwStatus, hu]

/-- From `s` to `t` the boot has changed the security unit and the event log, and may have raised FAULT_N. -/
def Boots (s t : State) : Prop := { t with sec := s.sec, glb := s.glb, pwr := s.pwr } = s ∧ Logged s.glb t.glb ∧ { t.pwr with faultN := s.pwr.faultN } = s.pwr

/-- From `s` to `v` only the event log has changed. -/
def Logs (s v : State) : Prop := { v with glb := s.glb } = s ∧ Logged s.glb v.glb

theorem logBoot_logs (s : State) (st : Status) : Logs s (s.logBoot st) := ⟨rfl, log_logged s _⟩

theorem Logs.trans {t : State} (h : Logs s u) (k : Logs u t) : Logs s t := by
  obtain ⟨h1, h2⟩ := h
  obtain ⟨k1, k2⟩ := k
  exact ⟨(congrArg (fun x : State => { x with glb := s.glb }) k1 :).trans h1, h2.trans k2⟩

theorem Logs.sec (h : Logs s u) : u.sec = s.sec := (congrArg State.sec h.1 :)

theorem Logs.pwr (h : Logs s u) : u.pwr = s.pwr := (congrArg State.pwr h.1 :)

theorem Logs.runFw (h : Logs s u) (b fall : Bool) :
    Boots s (u.runFw b fall) ∧ (u.runFw b fall).sec = { s.sec with bootStatus := 0, fallback := fall, slotB := b, fwOk := true, fwRunning := s.fwSlot b } := by
  have hsec := h.sec
  have hpwr := h.pwr
  have hslot := (fwSlotStatus_of_sec hsec b).2
  refine ⟨⟨(congrArg (fun x : State => { x with sec := s.sec, pwr := s.pwr }) h.1 :), h.2, ?_⟩, ?_⟩
  · show { u.pwr with faultN := s.pwr.faultN } = s.pwr
    rw [hpwr]
  · show { u.sec with bootStatus := 0, fallback := fall, slotB := b, fwOk := true, fwRunning := u.fwSlot b } = _
    rw [hsec, hslot]

theorem Logs.noBoot (h : Logs s u) (st : Status) : Boots s (u.noBoot st) ∧ (u.noBoot st).sec = { s.sec with bootStatus := st } := by
  have hsec := h.sec
  have hpwr := h.pwr
  refine ⟨⟨(congrArg (fun x : State => { x with sec := s.sec, pwr := s.pwr }) h.1 :), h.2, ?_⟩, ?_⟩
  · show { u.pwr with faultN := s.pwr.faultN } = s.pwr
    rw [hpwr]
  · show { u.sec with bootStatus := st } = _
    rw [hsec]

theorem boot_first (h1 : s.fwSlotStatus s.sec.preferB = 0) : Boots s s.boot ∧ s.boot.sec = { s.sec with bootStatus := 0, fallback := false, slotB := s.sec.preferB, fwOk := true, fwRunning := s.fwSlot s.sec.preferB } := by
  have hform : s.boot = (s.logBoot (s.fwSlotStatus s.sec.preferB)).runFw s.sec.preferB false := if_pos h1
  rw [hform]
  exact (logBoot_logs s _).runFw _ _

/-- The state in which both boot attempts have their entries. -/
def State.bothTried (s : State) : State := (s.logBoot (s.fwSlotStatus s.sec.preferB)).logBoot (s.fwSlotStatus (!s.sec.preferB))

theorem bothTried_logs (s : State) : Logs s s.bothTried := (logBoot_logs s _).trans (logBoot_logs _ _)

theorem boot_second (h1 : s.fwSlotStatus s.sec.preferB ≠ 0) (h2 : s.fwSlotStatus (!s.sec.preferB) = 0) :
    Boots s s.boot ∧ s.boot.sec = { s.sec with bootStatus := 0, fallback := true, slotB := !s.sec.preferB, fwOk := true, fwRunning := s.fwSlot (!s.sec.preferB) } := by
  have hform : s.boot = s.bothTried.runFw (!s.sec.preferB) true := (if_neg h1).trans (if_pos h2)
  rw [hform]
  exact (bothTried_logs s).runFw _ _

theorem boot_neither (h1 : s.fwSlotStatus s.sec.preferB ≠ 0) (h2 : s.fwSlotStatus (!s.sec.preferB) ≠ 0) :
    Boots s s.boot ∧ s.boot.sec = { s.sec with bootStatus := s.fwSlotStatus s.sec.preferB } ∧ s.boot.pwr.faultN = true := by
  have hform : s.boot = s.bothTried.noBoot (s.fwSlotStatus s.sec.preferB) := (if_neg h1).trans (if_neg h2)
  rw [hform]
  obtain ⟨hboots, hsec⟩ := (bothTried_logs s).noBoot (s.fwSlotStatus s.sec.preferB)
  exact ⟨hboots, hsec, rfl⟩

theorem foldl_trainLink : ∀ (ls : List (Fin 128)) (s : State), FabOnly s (ls.foldl State.trainLink s) ∧ ∀ l : Fin 128, (s.fab.links[l].mode = .training ∨ l ∈ ls) → (ls.foldl State.trainLink s).fab.links[l].mode = .training
  | [], s => ⟨rfl, fun _ hl => hl.elim id fun hmem => absurd hmem List.not_mem_nil⟩
  | k :: ls, s => by
    obtain ⟨hrest, hall⟩ := foldl_trainLink ls (s.trainLink k)
    refine ⟨(modFab_fabOnly s _).trans hrest, fun l hl => hall l ?_⟩
    obtain ⟨hsame, hne⟩ := trainLink_trains (s := s) (l := k)
    by_cases hlk : l = k
    · rw [hlk, hsame]
      exact .inl rfl
    · rw [hne l hlk]
      exact hl.imp_right fun hmem => (List.mem_cons.1 hmem).resolve_left hlk

/-- The state in which the boot ROM runs: the causes are latched. -/
def State.atBoot (s : State) : State := (s.reach s.pwr.t0).latchCause.logStart s.startCause

theorem atBoot_fields (s : State) : s.atBoot.now = max s.now s.pwr.t0 ∧ s.atBoot.pwr = { s.pwr with phase := .starting, nextCause := 0, lostInput := false } ∧ s.atBoot.glb.cause = s.startCause
    ∧ s.atBoot.mem = s.mem ∧ s.atBoot.cores = s.cores ∧ s.atBoot.sec = s.sec ∧ s.atBoot.fab = s.fab := by
  have hpwr := reach_pwr s s.pwr.t0
  refine ⟨reach_now .., ?_, ?_, reach_mem .., reach_cores .., reach_sec .., reach_fab ..⟩
  · exact congrArg (fun p : Power => { p with phase := .starting, nextCause := 0, lostInput := false }) hpwr
  · exact congrArg (fun p : Power => if p.lostInput then 1 else p.nextCause) hpwr

theorem startupBegin_boots (hc : s.canStart = true) : exec .startupBegin s = .next (if s.atBoot.boot.sec.fwOk then (List.finRange 128).foldl State.trainLink s.atBoot.boot.drawBoot else s.atBoot.boot) := by
  rw [exec_startupBegin, execStartupBegin, if_neg (by rw [hc]; exact Bool.false_ne_true)]
  rfl

/-- What the boot leaves of the state in which it runs. -/
theorem Boots.fields {t : State} (hb : Boots s t) : t.now = s.now ∧ t.mem = s.mem ∧ t.cores = s.cores ∧ t.fab = s.fab ∧ t.glb.cause = s.glb.cause ∧ t.pwr.phase = s.pwr.phase ∧ t.pwr.nextCause = s.pwr.nextCause := by
  obtain ⟨hs, hg, hp⟩ := hb
  exact ⟨(congrArg State.now hs :), (congrArg State.mem hs :), (congrArg State.cores hs :), (congrArg State.fab hs :), (congrArg Glb.cause hg :), (congrArg Power.phase hp :), (congrArg Power.nextCause hp :)⟩

theorem drawBoot_rest (s : State) : { s.drawBoot with freeCtr := s.freeCtr, sec := s.sec } = s := rfl

theorem drawBoot_sec (s : State) : s.drawBoot.sec = { s.sec with bootId := s.draw.1.setWidth 64, kemDraw := s.draw.2.draw.1 } := by
  unfold State.drawBoot
  rfl

/-- Firmware that runs draws the boot's values and trains every link. -/
theorem train_all (s : State) : ∃ t, t = (List.finRange 128).foldl State.trainLink s.drawBoot ∧ t.now = s.now ∧ t.mem = s.mem ∧ t.cores = s.cores ∧ t.glb = s.glb ∧ t.pwr = s.pwr
    ∧ (∃ i k, t.sec = { s.sec with bootId := i, kemDraw := k }) ∧ ∀ l : Fin 128, t.fab.links[l].mode = .training := by
  obtain ⟨hrest, hall⟩ := foldl_trainLink (List.finRange 128) s.drawBoot
  have hd := drawBoot_rest s
  have hsec := drawBoot_sec s
  obtain ⟨d, hdef⟩ : ∃ d, d = s.drawBoot := ⟨_, rfl⟩
  rw [← hdef] at hrest hall hd hsec ⊢
  obtain ⟨t, ht⟩ : ∃ t, t = (List.finRange 128).foldl State.trainLink d := ⟨_, rfl⟩
  rw [← ht] at hrest hall
  refine ⟨t, ht, ?_, ?_, ?_, ?_, ?_, ⟨s.draw.1.setWidth 64, s.draw.2.draw.1, ?_⟩, fun l => hall l (.inr (List.mem_finRange l))⟩
  · exact (congrArg State.now hrest :).trans (congrArg State.now hd :)
  · exact (congrArg State.mem hrest :).trans (congrArg State.mem hd :)
  · exact (congrArg State.cores hrest :).trans (congrArg State.cores hd :)
  · exact (congrArg State.glb hrest :).trans (congrArg State.glb hd :)
  · exact (congrArg State.pwr hrest :).trans (congrArg State.pwr hd :)
  · exact (congrArg State.sec hrest :).trans hsec

theorem startupBegin_outcome (hc : s.canStart = true) (hf : s.sec.fwOk = false) : ∃ t, exec .startupBegin s = .next t ∧ t.now = max s.now s.pwr.t0 ∧ t.pwr.phase = .starting ∧ t.glb.cause = s.startCause ∧ t.pwr.nextCause = 0 ∧ t.mem = s.mem ∧ t.cores = s.cores
      ∧ (s.fwSlotStatus s.sec.preferB = 0 → t.sec.fwOk = true ∧ t.sec.bootStatus = 0 ∧ t.sec.slotB = s.sec.preferB ∧ t.sec.fallback = false ∧ t.sec.fwRunning = s.fwSlot s.sec.preferB ∧ (∀ l : Fin 128, (t.fab.links[l]).mode = .training))
      ∧ (s.fwSlotStatus s.sec.preferB ≠ 0 → s.fwSlotStatus (!s.sec.preferB) = 0 → t.sec.fwOk = true ∧ t.sec.bootStatus = 0 ∧ t.sec.slotB = !s.sec.preferB ∧ t.sec.fallback = true)
      ∧ (s.fwSlotStatus s.sec.preferB ≠ 0 → s.fwSlotStatus (!s.sec.preferB) ≠ 0 → t.sec.fwOk = false ∧ t.sec.bootStatus = s.fwSlotStatus s.sec.preferB ∧ t.pwr.faultN = true ∧ t.fab = s.fab) := by
  obtain ⟨hnow, hpwr, hcause, hmem, hcores, hsec, hfab⟩ := atBoot_fields s
  have hexec := startupBegin_boots hc
  obtain ⟨v, hv⟩ : ∃ v, v = s.atBoot := ⟨_, rfl⟩
  rw [← hv] at hnow hpwr hcause hmem hcores hsec hfab hexec
  have hst := fun b => fwSlotStatus_of_sec hsec b
  have hprefer : v.sec.preferB = s.sec.preferB := by rw [hsec]
  have hfields : ∀ w, Boots v w → w.now = max s.now s.pwr.t0 ∧ w.pwr.phase = .starting ∧ w.glb.cause = s.startCause ∧ w.pwr.nextCause = 0 ∧ w.mem = s.mem ∧ w.cores = s.cores ∧ w.fab = s.fab := fun w hw => by
    obtain ⟨k1, k2, k3, k4, k5, k6, k7⟩ := hw.fields
    rw [hpwr] at k6 k7
    exact ⟨k1.trans hnow, k6, k5.trans hcause, k7, k2.trans hmem, k3.trans hcores, k4.trans hfab⟩
  by_cases h1 : s.fwSlotStatus s.sec.preferB = 0
  · obtain ⟨hboots, hbsec⟩ := boot_first (s := v) (by rw [(hst _).1, hprefer, h1])
    rw [if_pos (by rw [hbsec])] at hexec
    obtain ⟨k1, k2, k3, k4, k5, k6, -⟩ := hfields _ hboots
    obtain ⟨t, ht, t1, t2, t3, t4, t5, ⟨i, k, t6⟩, t7⟩ := train_all v.boot
    rw [← ht] at hexec
    rw [hbsec] at t6
    refine ⟨t, hexec, t1.trans k1, by rw [t5, k2], by rw [t4, k3], by rw [t5, k4], t2.trans k5, t3.trans k6, fun _ => ?_, fun h => absurd h1 h, fun h => absurd h1 h⟩
    rw [t6]
    exact ⟨rfl, rfl, hprefer, rfl, by rw [hprefer]; exact (hst _).2, t7⟩
  · by_cases h2 : s.fwSlotStatus (!s.sec.preferB) = 0
    · obtain ⟨hboots, hbsec⟩ := boot_second (s := v) (by rw [(hst _).1, hprefer]; exact h1) (by rw [(hst _).1, hprefer, h2])
      rw [if_pos (by rw [hbsec])] at hexec
      obtain ⟨k1, k2, k3, k4, k5, k6, -⟩ := hfields _ hboots
      obtain ⟨t, ht, t1, t2, t3, t4, t5, ⟨i, k, t6⟩, -⟩ := train_all v.boot
      rw [← ht] at hexec
      rw [hbsec] at t6
      refine ⟨t, hexec, t1.trans k1, by rw [t5, k2], by rw [t4, k3], by rw [t5, k4], t2.trans k5, t3.trans k6, fun h => absurd h h1, fun _ _ => ?_, fun _ h => absurd h2 h⟩
      rw [t6]
      exact ⟨rfl, rfl, by rw [hprefer], rfl⟩
    · obtain ⟨hboots, hbsec, hfault⟩ := boot_neither (s := v) (by rw [(hst _).1, hprefer]; exact h1) (by rw [(hst _).1, hprefer]; exact h2)
      have hfw : v.boot.sec.fwOk = false := by rw [hbsec, hsec]; exact hf
      rw [if_neg (by rw [hfw]; exact Bool.false_ne_true)] at hexec
      obtain ⟨k1, k2, k3, k4, k5, k6, k7⟩ := hfields _ hboots
      refine ⟨_, hexec, k1, k2, k3, k4, k5, k6, fun h => absurd h h1, fun _ h => absurd h h2, fun _ _ => ⟨hfw, ?_, hfault, k7⟩⟩
      rw [hbsec, hprefer]
      exact (hst _).1

end Sys2Proof.Machine
end

section

/-! PROOFS. What a start brings into service, and the thermal trip. -/

namespace Sys2Proof.Machine

variable {s u : State} {p h : Fin 8} {n : Fin 32} {r : TrainResult}

/-! The hearths that a start fences (R312, R313, R314) -/

theorem MemFences.trans {x y z : Mem} (h : MemFences x y) (k : MemFences y z) : MemFences x z := by
  have hk : { z with stk := x.stk, hbm := x.hbm, host := x.host, badHbm := x.badHbm, replays := x.replays } = { y with stk := x.stk, hbm := x.hbm, host := x.host, badHbm := x.badHbm, replays := x.replays } :=
    (congrArg (fun m : Mem => { m with stk := x.stk, hbm := x.hbm, host := x.host, badHbm := x.badHbm, replays := x.replays }) k :)
  exact hk.trans h

/-- A hearth is fenced for the stack that a start finds unfit, if any. -/
def State.fenceFor (s : State) (o : Option (Fin 32)) : State := o.elim s s.fenceHearth

theorem fenceFor_none (s : State) : s.fenceFor none = s := by rw [State.fenceFor, Option.elim_none]

theorem fenceFor_some (s : State) (n : Fin 32) : s.fenceFor (some n) = s.fenceHearth n := by rw [State.fenceFor, Option.elim_some]

theorem Logged.vaults {x y : Glb} (h : Logged x y) : y.vaultPresent = x.vaultPresent := (congrArg Glb.vaultPresent h :)

/-- From `s` to `t` those hearths of a list are fenced for which `f` names a stack. -/
structure Fences (f : Fin 8 → Option (Fin 32)) (hs : List (Fin 8)) (s t : State) : Prop where
  mem : MemFences s.mem t.mem
  sec : t.sec = s.sec
  now : t.now = s.now
  vaults : t.glb.vaultPresent = s.glb.vaultPresent
  power : { t.pwr with faultN := s.pwr.faultN } = s.pwr
  fault : (s.pwr.faultN = true ∨ ∃ h ∈ hs, (f h).isSome = true) → t.pwr.faultN = true
  present : ∀ j : Fin 8, t.glb.hrtPresent.getLsbD j.val = (s.glb.hrtPresent.getLsbD j.val && !(decide (j ∈ hs) && (f j).isSome))
  fenced : ∀ n : Fin 32, stackHearth n ∈ hs → (f (stackHearth n)).isSome = true → (s.mem.stk[n]).mode = .inService → (t.mem.stk[n]).mode = .fenced
  untouched : ∀ n : Fin 32, (stackHearth n ∉ hs ∨ f (stackHearth n) = none) → t.mem.stk[n] = s.mem.stk[n]
  links : ∀ l : Fin 128, ((s.fab.links[l]).mode = .fenced ∨ ∃ h ∈ hs, (f h).isSome = true ∧ ∃ k < 16, linkOf h k = l) → (t.fab.links[l]).mode = .fenced
  noFence : (∀ h ∈ hs, f h = none) → t = s

variable {f : Fin 8 → Option (Fin 32)} {hs : List (Fin 8)}

theorem Fences.unchanged (hf : ∀ h ∈ hs, f h = none) : Fences f hs s s where
  mem := rfl
  sec := rfl
  now := rfl
  vaults := rfl
  power := rfl
  fault := fun h => h.elim id fun ⟨j, hj, hsome⟩ => by simp [hf j hj] at hsome
  present := fun j => by
    by_cases hj : j ∈ hs
    · simp [hf j hj]
    · simp [hj]
  fenced := fun n hn hsome _ => by simp [hf _ hn] at hsome
  untouched := fun _ _ => rfl
  links := fun l h => h.elim id fun ⟨j, hj, hsome, _⟩ => by simp [hf j hj] at hsome
  noFence := fun _ => rfl

/-- The fence of one hearth. -/
theorem fences_fenceHearth (hf : f h = some n) (hn : stackHearth n = h) : Fences f [h] s (s.fenceHearth n) := by
  obtain ⟨hstk, hmem, hglb, hpwr, hsec, hnow, hlinks⟩ := fenceHearth_units s n
  obtain ⟨-, hin, hout⟩ := fenceStacks_fences s (stackHearth n)
  have hpresent := (dropHearth_present s (stackHearth n))
  rw [hn] at hglb hlinks hin hout hpresent
  have hvault := hglb.vaults
  have hbits : (s.fenceHearth n).glb.hrtPresent = (s.dropHearth h).glb.hrtPresent := hglb.present
  have hmode : ∀ j : Fin 32, ((s.fenceHearth n).mem.stk[j]) = ((s.fenceStacks h).mem.stk[j]) := fun j => by rw [hstk, hn]
  exact {
    mem := hmem
    sec := hsec
    now := hnow
    vaults := hvault
    power := by rw [hpwr]
    fault := fun _ => by rw [hpwr]
    present := fun j => by
      rw [hbits, hpresent j]
      by_cases hj : j = h
      · simp [hj, hf]
      · simp [hj]
    fenced := fun j hj _ hserve => by
      rw [hmode j, hin j (List.mem_singleton.1 hj), if_neg (fun hq => by rw [hserve] at hq; exact absurd hq.1 StackMode.noConfusion)]
    untouched := fun j hj => by
      rw [hmode j]
      refine hout j fun heq => hj.elim (fun hne => hne (List.mem_singleton.2 heq)) fun hnone => ?_
      rw [heq, hf] at hnone
      exact absurd hnone (Option.some_ne_none n)
    links := fun l hl => hlinks l (hl.imp_right fun ⟨j, hj, _, hk⟩ => by rwa [List.mem_singleton.1 hj] at hk)
    noFence := fun hnone => absurd (hf.symm.trans (hnone h List.mem_cons_self)) (Option.some_ne_none n) }

theorem fences_fenceFor (hf : ∀ n, f h = some n → stackHearth n = h) : Fences f [h] s (s.fenceFor (f h)) := by
  cases hfh : f h with
  | none =>
    rw [fenceFor_none]
    exact .unchanged fun j hj => by rw [List.mem_singleton.1 hj, hfh]
  | some n =>
    rw [fenceFor_some]
    exact fences_fenceHearth hfh (hf n hfh)

theorem Fences.cons {t : State} (hh : h ∉ hs) (a : Fences f [h] s u) (b : Fences f hs u t) : Fences f (h :: hs) s t where
  mem := a.mem.trans b.mem
  sec := b.sec.trans a.sec
  now := b.now.trans a.now
  vaults := b.vaults.trans a.vaults
  power := (congrArg (fun p : Power => { p with faultN := s.pwr.faultN }) b.power :).trans a.power
  fault := fun hor => b.fault <| by
    rcases hor with hs0 | ⟨j, hj, hsome⟩
    · exact .inl (a.fault (.inl hs0))
    · rcases List.mem_cons.1 hj with rfl | hj
      · exact .inl (a.fault (.inr ⟨j, List.mem_cons_self, hsome⟩))
      · exact .inr ⟨j, hj, hsome⟩
  present := fun j => by
    rw [b.present j, a.present j]
    by_cases hj : j = h
    · simp [hj, hh]
    · simp [hj]
  fenced := fun n hn hsome hserve => by
    rcases List.mem_cons.1 hn with heq | hn
    · rw [b.untouched n (.inl (heq ▸ hh))]
      exact a.fenced n (List.mem_singleton.2 heq) hsome hserve
    · refine b.fenced n hn hsome ?_
      rw [a.untouched n (.inl fun hm => hh (List.mem_singleton.1 hm ▸ hn))]
      exact hserve
  untouched := fun n hn => by
    rw [b.untouched n (hn.imp_left fun h hm => h (List.mem_cons_of_mem _ hm)), a.untouched n (hn.imp_left fun h hm => h (List.mem_singleton.1 hm ▸ List.mem_cons_self))]
  links := fun l hl => b.links l <| by
    rcases hl with hl | ⟨j, hj, hsome, hk⟩
    · exact .inl (a.links l (.inl hl))
    · rcases List.mem_cons.1 hj with rfl | hj
      · exact .inl (a.links l (.inr ⟨j, List.mem_cons_self, hsome, hk⟩))
      · exact .inr ⟨j, hj, hsome, hk⟩
  noFence := fun hnone => (b.noFence fun j hj => hnone j (List.mem_cons_of_mem _ hj)).trans (a.noFence fun j hj => hnone j (List.mem_singleton.1 hj ▸ List.mem_cons_self))

theorem foldl_fenceFor (hf : ∀ h n, f h = some n → stackHearth n = h) : ∀ (hs : List (Fin 8)) (s : State), hs.Nodup → Fences f hs s (hs.foldl (fun u h => u.fenceFor (f h)) s)
  | [], _, _ => .unchanged fun _ hj => absurd hj List.not_mem_nil
  | h :: hs, _, hnd => by
    obtain ⟨hh, hnd⟩ := List.nodup_cons.1 hnd
    exact .cons hh (fences_fenceFor (hf h)) (foldl_fenceFor hf hs _ hnd)

theorem startFence_hearth (hn : s.startFence r h = some n) : stackHearth n = h := mem_hearthStacks.1 (List.mem_of_find?_eq_some hn)

theorem bringUp_eq (s : State) (r : TrainResult) : s.bringUp r = (List.finRange 8).foldl (fun u h => u.fenceFor (s.startFence r h)) (s.trained r) := by
  refine congrArg (fun g => (List.finRange 8).foldl g (s.trained r)) (funext₂ fun u h => ?_)
  cases s.startFence r h with
  | none => rw [fenceFor_none]
  | some n => rw [fenceFor_some]

theorem bringUp_fences (s : State) (r : TrainResult) : Fences (s.startFence r) (List.finRange 8) (s.trained r) (s.bringUp r) := by
  rw [bringUp_eq]
  exact foldl_fenceFor (fun _ _ => startFence_hearth) _ _ (List.nodup_finRange 8)

/-! READY rises (R22, R470, R514, R522, R539) -/

theorem flagAbsent_rest (s : State) : { s.flagAbsent with pwr := s.pwr } = s ∧ { s.flagAbsent.pwr with faultN := s.pwr.faultN } = s.pwr ∧ (s.pwr.faultN = true → s.flagAbsent.pwr.faultN = true) := by
  unfold State.flagAbsent
  split
  · exact ⟨rfl, rfl, id⟩
  · exact ⟨rfl, rfl, fun _ => rfl⟩

theorem flagAbsent_whole (h : s.glb.hrtPresent = 0xFF) : s.flagAbsent = s := if_pos h

theorem settleParts_rest (s : State) : { s.settleParts with parts := s.parts } = s :=
  List.foldlRecOn (motive := fun u : State => { u with parts := s.parts } = s) _ _ rfl fun u hu p _ => by
    split
    · exact hu
    · exact hu

theorem blowFuses_rest (s : State) : { s.blowFuses with sec := s.sec } = s := by
  unfold State.blowFuses
  split
  · split
    · rfl
    · rfl
  · rfl

/-- The state in which a start has brought up what trains, an absent hearth flagged. -/
def State.broughtUp (s : State) (r : TrainResult) : State := (s.bringUp r).flagAbsent

theorem broughtUp_sec (s : State) (r : TrainResult) : (s.broughtUp r).sec = s.sec :=
  (congrArg State.sec (flagAbsent_rest (s.bringUp r)).1 :).trans (bringUp_fences s r).sec

theorem broughtUp_glb (s : State) (r : TrainResult) : (s.broughtUp r).glb = (s.bringUp r).glb := (congrArg State.glb (flagAbsent_rest (s.bringUp r)).1 :)

theorem broughtUp_mem (s : State) (r : TrainResult) : (s.broughtUp r).mem = (s.bringUp r).mem := (congrArg State.mem (flagAbsent_rest (s.bringUp r)).1 :)

theorem broughtUp_fab (s : State) (r : TrainResult) : (s.broughtUp r).fab = (s.bringUp r).fab := (congrArg State.fab (flagAbsent_rest (s.bringUp r)).1 :)

theorem broughtUp_now (s : State) (r : TrainResult) : (s.broughtUp r).now = s.now :=
  (congrArg State.now (flagAbsent_rest (s.bringUp r)).1 :).trans (bringUp_fences s r).now

theorem broughtUp_pwr (s : State) (r : TrainResult) : { (s.broughtUp r).pwr with faultN := s.pwr.faultN } = s.pwr ∧ ((∃ h, (s.startFence r h).isSome = true) → (s.broughtUp r).pwr.faultN = true) := by
  obtain ⟨-, hpwr, hfault⟩ := flagAbsent_rest (s.bringUp r)
  have hfences := bringUp_fences s r
  refine ⟨(congrArg (fun p : Power => { p with faultN := s.pwr.faultN }) hpwr :).trans hfences.power, fun ⟨h, hsome⟩ => hfault (hfences.fault (.inr ⟨h, List.mem_finRange h, hsome⟩))⟩

theorem broughtUp_present (s : State) (r : TrainResult) (h : Fin 8) : (s.broughtUp r).glb.hrtPresent.getLsbD h.val = (s.startFence r h).isNone := by
  have hall : (s.trained r).glb.hrtPresent.getLsbD h.val = true := by
    show (0xFF#8).getLsbD h.val = true
    revert h
    decide
  rw [broughtUp_glb, (bringUp_fences s r).present h, hall, decide_eq_true (List.mem_finRange h), Bool.true_and, Bool.true_and, Option.not_isSome]

/-- A start that fences no hearth leaves all that the training found. -/
theorem broughtUp_none (hnone : ∀ h, s.startFence r h = none) : s.broughtUp r = s.trained r := by
  have hv : s.bringUp r = s.trained r := (bringUp_fences s r).noFence fun h _ => hnone h
  rw [State.broughtUp, hv]
  exact flagAbsent_whole rfl

theorem broughtUp_absent (hall : ∀ h, (s.startFence r h).isSome = true) : (s.broughtUp r).glb.hrtPresent = 0 := by
  refine BitVec.eq_of_getLsbD_eq fun i hi => ?_
  rw [broughtUp_present s r ⟨i, hi⟩, ← Option.not_isSome, hall ⟨i, hi⟩]
  exact BitVec.getLsbD_zero.symm

theorem readyAssert_stays (hp : s.pwr.phase = .starting) (h : (s.broughtUp r).glb.hrtPresent = 0) : exec (.readyAssert r) s = .next (s.broughtUp r) := by
  rw [exec_readyAssert, execReadyAssert, if_neg (fun hne => hne hp)]
  exact congrArg _ (if_pos (by
    show (!(s.broughtUp r).sec.fwOk || decide (r.tyPresent ≠ 3) || decide ((s.broughtUp r).glb.hrtPresent = 0)) = true
    rw [h]
    simp))

theorem readyAssert_rises (hp : s.pwr.phase = .starting) (hfw : s.sec.fwOk = true) (hty : r.tyPresent = 3) (h : (s.broughtUp r).glb.hrtPresent ≠ 0) :
    exec (.readyAssert r) s = .next (s.broughtUp r).raiseReady.settleParts.blowFuses := by
  rw [exec_readyAssert, execReadyAssert, if_neg (fun hne => hne hp)]
  exact congrArg _ (if_neg (by
    show ¬ (!(s.broughtUp r).sec.fwOk || decide (r.tyPresent ≠ 3) || decide ((s.broughtUp r).glb.hrtPresent = 0)) = true
    rw [broughtUp_sec, hfw, hty]
    simpa using h))

/-- READY rises over what was brought up: the HBM holds zeros. -/
theorem raise_fields (s : State) : s.raiseReady.settleParts.blowFuses.mem = { s.mem with hbm := [], badHbm := [], replays := [] }
    ∧ s.raiseReady.settleParts.blowFuses.pwr = { s.pwr with ready := true, phase := .ready, readyAt := s.now } ∧ s.raiseReady.settleParts.blowFuses.glb = { s.glb with windowAt := s.now, throttle := 0 }
    ∧ s.raiseReady.settleParts.blowFuses.cores = s.cores ∧ s.raiseReady.settleParts.blowFuses.fab = s.fab := by
  have hblow := blowFuses_rest s.raiseReady.settleParts
  have hsettle := settleParts_rest s.raiseReady
  have hraise : s.raiseReady.mem = { s.mem with hbm := [], badHbm := [], replays := [] } ∧ s.raiseReady.pwr = { s.pwr with ready := true, phase := .ready, readyAt := s.now }
      ∧ s.raiseReady.glb = { s.glb with windowAt := s.now, throttle := 0 } ∧ s.raiseReady.cores = s.cores ∧ s.raiseReady.fab = s.fab := ⟨rfl, rfl, rfl, rfl, rfl⟩
  obtain ⟨a, ha⟩ : ∃ a, a = s.raiseReady := ⟨_, rfl⟩
  rw [← ha] at hblow hsettle hraise ⊢
  obtain ⟨b, hb⟩ : ∃ b, b = a.settleParts := ⟨_, rfl⟩
  rw [← hb] at hblow hsettle ⊢
  obtain ⟨c, hc⟩ : ∃ c, c = b.blowFuses := ⟨_, rfl⟩
  rw [← hc] at hblow ⊢
  obtain ⟨h1, h2, h3, h4, h5⟩ := hraise
  refine ⟨.trans ?_ h1, .trans ?_ h2, .trans ?_ h3, .trans ?_ h4, .trans ?_ h5⟩
  · exact (congrArg State.mem hblow :).trans (congrArg State.mem hsettle :)
  · exact (congrArg State.pwr hblow :).trans (congrArg State.pwr hsettle :)
  · exact (congrArg State.glb hblow :).trans (congrArg State.glb hsettle :)
  · exact (congrArg State.cores hblow :).trans (congrArg State.cores hsettle :)
  · exact (congrArg State.fab hblow :).trans (congrArg State.fab hsettle :)

theorem readyAssert_ready (hp : s.pwr.phase = .starting) (hfw : s.sec.fwOk = true) (hty : r.tyPresent = 3) (hex : ∃ h, s.startFence r h = none) :
    ∃ t, exec (.readyAssert r) s = .next t ∧ t.pwr.ready = true ∧ t.pwr.phase = .ready ∧ t.pwr.readyAt = s.now
        ∧ t.mem.hbm = [] ∧ t.mem.badHbm = [] ∧ t.mem.replays = [] ∧ t.mem.vault = s.mem.vault ∧ t.glb.vaultPresent = r.vaultTrained
        ∧ t.mem.repairLog = s.mem.repairLog.filter (fun y => !Config.hardRepairWorks y.stack.val y.bank y.row) ∧ (∀ h : Fin 8, t.glb.hrtPresent.getLsbD h.val = (s.startFence r h).isNone)
        ∧ (∀ n : Fin 32, (s.mem.stk[n]).hot = false → (t.mem.stk[n]).mode = if (s.startFence r (stackHearth n)).isSome then .fenced else .inService)
        ∧ (∀ h k, (s.startFence r h).isSome = true → k < 16 → (t.fab.links[linkOf h k]).mode = .fenced) ∧ ((∃ h, (s.startFence r h).isSome = true) → t.pwr.faultN = true)
        ∧ ((∀ h, s.startFence r h = none) → t.cores = s.cores ∧ t.mem.host = s.mem.host ∧ t.fab = s.fab ∧ t.pwr.faultN = s.pwr.faultN) := by
  have hpresent := broughtUp_present s r
  have hexec := readyAssert_rises hp hfw hty fun h0 => by
    obtain ⟨h, hnone⟩ := hex
    have hbit := hpresent h
    rw [h0, hnone] at hbit
    simp at hbit
  obtain ⟨hmem, hpwr, hglb, hcores, hfab⟩ := raise_fields (s.broughtUp r)
  have hfences := bringUp_fences s r
  have hnow := broughtUp_now s r
  obtain ⟨-, hfault⟩ := broughtUp_pwr s r
  obtain ⟨t, ht⟩ : ∃ t, t = (s.broughtUp r).raiseReady.settleParts.blowFuses := ⟨_, rfl⟩
  rw [← ht] at hexec hmem hpwr hglb hcores hfab
  have hframe := hfences.mem
  have hvaults := hfences.vaults
  have hstk : ∀ n : Fin 32, t.mem.stk[n] = (s.bringUp r).mem.stk[n] := fun n => by rw [hmem, broughtUp_mem]
  refine ⟨t, hexec, by rw [hpwr], by rw [hpwr], by rw [hpwr, hnow], by rw [hmem], by rw [hmem], by rw [hmem], ?_, ?_, ?_, fun h => ?_, fun n hhot => ?_, fun h k hsome hk => ?_, fun hsome => ?_, fun hnone => ?_⟩
  · rw [hmem, broughtUp_mem]
    exact (congrArg Mem.vault hframe :)
  · rw [hglb, broughtUp_glb]
    exact hvaults
  · rw [hmem, broughtUp_mem]
    exact (congrArg Mem.repairLog hframe :)
  · rw [hglb]
    exact hpresent h
  · have htrained : ((s.trained r).mem.stk[n]).mode = .inService := by
      simp only [Fin.getElem_fin] at hhot ⊢
      simp [State.trained, hhot]
    rw [hstk n]
    by_cases hsome : (s.startFence r (stackHearth n)).isSome = true
    · rw [if_pos hsome]
      exact hfences.fenced n (List.mem_finRange _) hsome htrained
    · rw [if_neg hsome, hfences.untouched n (.inr (Option.not_isSome_iff_eq_none.1 hsome))]
      exact htrained
  · rw [hfab, broughtUp_fab]
    exact hfences.links _ (.inr ⟨h, List.mem_finRange h, hsome, k, hk, rfl⟩)
  · rw [hpwr]
    exact hfault hsome
  · rw [broughtUp_none hnone] at hmem hpwr hcores hfab
    rw [hmem, hpwr, hcores, hfab]
    exact ⟨rfl, rfl, rfl, rfl⟩

theorem readyAssert_waits (hp : s.pwr.phase = .starting) (hall : ∀ h, (s.startFence r h).isSome = true) :
    ∃ t, exec (.readyAssert r) s = .next t ∧ t.pwr.phase = .starting ∧ t.pwr.ready = s.pwr.ready ∧ t.pwr.faultN = true := by
  obtain ⟨hpwr, hfault⟩ := broughtUp_pwr s r
  exact ⟨_, readyAssert_stays hp (broughtUp_absent hall), (congrArg Power.phase hpwr :).trans hp, (congrArg Power.ready hpwr :), hfault ⟨0, hall 0⟩⟩

/-! The thermal trip (R521, R528, R539) -/

/-- A partition as the trip of a die leaves it. -/
def State.tripPart (e : Ending) (s : State) (p : Fin 8) : State :=
  if s.parts[p].task.isSome then s.endTask p e else if s.parts[p].mode = .none then s else s.modPart p fun x => { x with mode := .outOfService }

theorem tripPart_rest (e : Ending) (s : State) (p : Fin 8) : { s.tripPart e p with parts := s.parts } = s := by
  unfold State.tripPart
  split
  · rfl
  · split
    · rfl
    · rfl

theorem tripPart_ne {q : Fin 8} (e : Ending) (hq : q ≠ p) : (s.tripPart e p).parts[q] = s.parts[q] := by
  unfold State.tripPart
  split
  · exact modPart_ne hq
  · split
    · rfl
    · exact modPart_ne hq

theorem tripPart_ends {k : Task} (e : Ending) (hk : s.parts[p].task = some k) (hend : k.ending = none) : (s.tripPart e p).parts[p].task.bind (·.ending) = some e := by
  have hform : s.tripPart e p = s.endTask p e := if_pos (by rw [hk]; rfl)
  rw [hform, endTask_decides e hk, hend]
  rfl

theorem tripPart_stops (e : Ending) (hk : s.parts[p].task = none) (hm : s.parts[p].mode ≠ .none) : (s.tripPart e p).parts[p].mode = .outOfService := by
  have hform : s.tripPart e p = s.modPart p fun x => { x with mode := .outOfService } :=
    (if_neg (by rw [hk]; exact Bool.false_ne_true)).trans (if_neg hm)
  rw [hform, modPart_same]

theorem modPart_congr (f : Part → Part) (hs : u.parts[p] = s.parts[p]) : (u.modPart p f).parts[p] = (s.modPart p f).parts[p] := by rw [modPart_same, modPart_same, hs]

theorem tripPart_congr (e : Ending) (hs : u.parts[p] = s.parts[p]) : (u.tripPart e p).parts[p] = (s.tripPart e p).parts[p] := by
  unfold State.tripPart
  rw [hs]
  split
  · exact modPart_congr _ hs
  · split
    · exact hs
    · exact modPart_congr _ hs

/-- Each partition of a list is tripped once. -/
theorem foldl_tripPart (e : Ending) : ∀ (ps : List (Fin 8)) (s : State), ps.Nodup → { ps.foldl (State.tripPart e) s with parts := s.parts } = s
    ∧ (∀ p ∈ ps, (ps.foldl (State.tripPart e) s).parts[p] = (s.tripPart e p).parts[p]) ∧ ∀ p, p ∉ ps → (ps.foldl (State.tripPart e) s).parts[p] = s.parts[p]
  | [], s, _ => ⟨rfl, fun _ hp => absurd hp List.not_mem_nil, fun _ _ => rfl⟩
  | p :: ps, s, hnd => by
    obtain ⟨hp, hnd⟩ := List.nodup_cons.1 hnd
    obtain ⟨hrest, hmem, hnot⟩ := foldl_tripPart e ps (s.tripPart e p) hnd
    refine ⟨(congrArg (fun x : State => { x with parts := s.parts }) hrest :).trans (tripPart_rest e s p), fun q hq => ?_, fun q hq => ?_⟩
    · rcases List.mem_cons.1 hq with rfl | hq
      · exact hnot q hp
      · have hqp : q ≠ p := fun heq => hp (heq ▸ hq)
        exact (hmem q hq).trans (tripPart_congr e (tripPart_ne e hqp))
    · have hqp : q ≠ p := fun heq => hq (heq ▸ List.mem_cons_self)
      exact (hnot q fun hm => hq (List.mem_cons_of_mem _ hm)).trans (tripPart_ne e hqp)

/-- The ending that the trip of a die gives. -/
def State.tripEnding (s : State) (d : Fin 10) : Ending := if d.val < 8 then s.unitEnding stThermal 2 d.val 0xFFFF else s.unitEnding stThermal 0 0 0

theorem tripEnding_status (s : State) (d : Fin 10) : (s.tripEnding d).status = 0x0902 := by
  unfold State.tripEnding
  split
  · rfl
  · rfl

/-- The state in which the trip's outputs are driven. -/
def State.tripped (s : State) : State := { s with pwr := { s.pwr with dieTrip := true, thermTrip := true } }

theorem dieTrip_form (s : State) (d : Fin 10) : MediaEnds ((List.finRange 8).foldl (State.tripPart (s.tripped.tripEnding d)) s.tripped) (s.dieTrip d) := by
  have hform : s.dieTrip d = ((List.finRange 8).foldl (State.tripPart (s.tripped.tripEnding d)) s.tripped).endMediaOn (fun _ _ => true) stThermal := by
    unfold State.dieTrip State.tripPart State.tripEnding State.tripped
    rfl
  rw [hform]
  exact endMediaOn_mediaEnds ..

theorem Logged.dieTemps {x y : Glb} (h : Logged x y) : y.dieTemp = x.dieTemp := (congrArg Glb.dieTemp h :)

theorem dieTrip_trips (s : State) (d : Fin 10) : (s.dieTrip d).pwr.dieTrip = true ∧ (s.dieTrip d).pwr.thermTrip = true ∧ (s.dieTrip d).cores = s.cores ∧ (s.dieTrip d).glb.dieTemp = s.glb.dieTemp
    ∧ (∀ (p : Fin 8) k, s.parts[p].task = some k → k.ending = none → ((s.dieTrip d).parts[p].task.bind (·.ending)).map (·.status) = some 0x0902)
    ∧ (∀ p : Fin 8, s.parts[p].task = none → s.parts[p].mode ≠ .none → (s.dieTrip d).parts[p].mode = .outOfService) := by
  obtain ⟨-, -, hcores, hparts, hpwr, -, hlogged, -⟩ := (dieTrip_form s d).fields
  have htripped : s.tripped.pwr.dieTrip = true ∧ s.tripped.pwr.thermTrip = true ∧ s.tripped.cores = s.cores ∧ s.tripped.glb = s.glb ∧ s.tripped.parts = s.parts := ⟨rfl, rfl, rfl, rfl, rfl⟩
  obtain ⟨w, hw⟩ : ∃ w, w = s.tripped := ⟨_, rfl⟩
  rw [← hw] at hcores hparts hpwr hlogged htripped
  obtain ⟨hrest, hpart, -⟩ := foldl_tripPart (w.tripEnding d) (List.finRange 8) w (List.nodup_finRange 8)
  obtain ⟨v, hv⟩ : ∃ v, v = (List.finRange 8).foldl (State.tripPart (w.tripEnding d)) w := ⟨_, rfl⟩
  rw [← hv] at hcores hparts hpwr hlogged hrest hpart
  obtain ⟨hdie, htherm, hwcores, hwglb, hwparts⟩ := htripped
  have hvpwr : v.pwr = w.pwr := (congrArg State.pwr hrest :)
  have hvglb : v.glb = w.glb := (congrArg State.glb hrest :)
  have hvcores : v.cores = w.cores := (congrArg State.cores hrest :)
  have htemp := hlogged.dieTemps
  obtain ⟨t, ht⟩ : ∃ t, t = s.dieTrip d := ⟨_, rfl⟩
  rw [← ht] at hcores hparts hpwr htemp ⊢
  rw [hvglb, hwglb] at htemp
  refine ⟨by rw [hpwr, hvpwr, hdie], by rw [hpwr, hvpwr, htherm], hcores.trans (hvcores.trans hwcores), htemp, fun p k hk hend => ?_, fun p hk hm => ?_⟩
  · rw [hparts, hpart p (List.mem_finRange p), tripPart_ends _ (by rw [hwparts]; exact hk) hend, Option.map_some, tripEnding_status]
  · rw [hparts, hpart p (List.mem_finRange p)]
    exact tripPart_stops _ (by rw [hwparts]; exact hk) (by rw [hwparts]; exact hm)

/-- The state in which a sample of a die's temperature is kept. -/
def State.sampleDie (s : State) (d : Fin 10) (y : BitVec 8) : State :=
  { s with glb := { s.glb with dieTemp := s.glb.dieTemp.set d (y, if s.glb.dieTemp[d].2 < y then y else s.glb.dieTemp[d].2) } }

theorem dieTempSample_eq (d : Fin 10) (x : Nat) : exec (.dieTempSample d x) s = .next (if 230 ≤ x ∧ s.pwr.dieTrip = false then (s.sampleDie d (BitVec.ofNat 8 (min x 255))).dieTrip d else s.sampleDie d (BitVec.ofNat 8 (min x 255))) := by
  rw [exec_dieTempSample]
  rfl

theorem sampleDie_temp (s : State) (d : Fin 10) (y : BitVec 8) : ((s.sampleDie d y).glb.dieTemp[d]).1 = y := by simp [State.sampleDie]

theorem dieTempSample_outcome {d : Fin 10} {x : Nat} {y : BitVec 8} (hy : y = BitVec.ofNat 8 (min x 255)) :
    ((x < 230 ∨ s.pwr.dieTrip = true) → exec (.dieTempSample d x) s = .next { s with glb := { s.glb with dieTemp := s.glb.dieTemp.set d (y, if s.glb.dieTemp[d].2 < y then y else s.glb.dieTemp[d].2) } })
      ∧ (230 ≤ x → s.pwr.dieTrip = false → ∃ t, exec (.dieTempSample d x) s = .next t ∧ t.pwr.dieTrip = true ∧ t.pwr.thermTrip = true ∧ t.cores = s.cores ∧ (t.glb.dieTemp[d]).1 = y
        ∧ (∀ (p : Fin 8) k, s.parts[p].task = some k → k.ending = none → (t.parts[p].task.bind (·.ending)).map (·.status) = some 0x0902)
        ∧ (∀ p : Fin 8, s.parts[p].task = none → s.parts[p].mode ≠ .none → t.parts[p].mode = .outOfService)) := by
  have hexec := dieTempSample_eq (s := s) d x
  rw [← hy] at hexec
  constructor
  · intro hor
    rw [hexec, if_neg (fun ⟨hx, hd⟩ => hor.elim (fun h => absurd h (Nat.not_lt.2 hx)) fun h => by rw [hd] at h; exact absurd h Bool.false_ne_true)]
    rfl
  · intro hx hd
    rw [if_pos ⟨hx, hd⟩] at hexec
    obtain ⟨htrip, htherm, hcores, htemp, htask, hidle⟩ := dieTrip_trips (s.sampleDie d y) d
    exact ⟨_, hexec, htrip, htherm, hcores, by rw [htemp]; exact sampleDie_temp s d y, htask, hidle⟩

/-- Settles O57: a start latches its causes and boots the preferred slot or else the other; READY rises over the hearths that it need not fence; a die at 115 °C trips the module. -/
theorem startUpAndThermalTripAct : Obligations.StartUpAndThermalTripAct := by
  unfold Obligations.StartUpAndThermalTripAct
  intro s
  refine ⟨startupBegin_outcome, fun hc => ?_, fun r hp hfw hty => ⟨readyAssert_ready hp hfw hty, readyAssert_waits hp⟩, fun hp r => ?_, fun d x y hy => dieTempSample_outcome hy⟩
  · rw [exec_startupBegin, execStartupBegin]
    exact congrArg _ (if_pos (by rw [hc]; rfl))
  · rw [exec_readyAssert, execReadyAssert]
    exact congrArg _ (if_pos hp)

end Sys2Proof.Machine
end

section

/-! PROOFS. Register writes, firmware updates and installation mode. -/

namespace Sys2Proof.Machine

variable {s u : State} {v : W32} {p h : Fin 8}

/-! A write of BAR0 (R6, R8, R443) -/

theorem barWrite_d3hot (hd : s.larcy.d3hot = true) (f : State → State) : s.barWrite f = s := if_pos hd

theorem barWrite_acts (hd : s.larcy.d3hot = false) (f : State → State) : s.barWrite f = f s := if_neg (by rw [hd]; exact Bool.false_ne_true)

theorem bits_eq {w : Nat} (x : BitVec w) (hi lo : Nat) : bits x hi lo = x.toNat / 2 ^ lo % 2 ^ (hi + 1 - lo) := by rw [bits, Nat.shiftRight_eq_div_pow]

theorem registerWrites_d3hot (hd : s.larcy.d3hot = true) (v : BitVec 32) : ∀ cmd, cmd ∈ ([.glbBridgeCtlWrite v, .glbPartCfgWrite v, .memSpreadWrite v, .memHdmCtlWrite v, .fabModuleIdWrite v, .fabCtlWrite v, .fabFrameCfgWrite v, .fabVcWeightHiWrite v, .glbEvlogSelWrite v,
      .fwUpdateGo v, .installModeWrite v, .registerWrite 0 4 (v.setWidth 64)] : List Instr) → exec cmd s = .next s := by
  have hbar : ∀ f : State → State, (.next (s.barWrite f) : Host.Outcome State Fault Refusal) = .next s := fun f => congrArg _ (barWrite_d3hot hd f)
  intro cmd hcmd
  simp only [List.mem_cons, List.not_mem_nil, or_false] at hcmd
  obtain rfl | rfl | rfl | rfl | rfl | rfl | rfl | rfl | rfl | rfl | rfl | rfl := hcmd
  · rw [exec_glbBridgeCtlWrite]; exact hbar _
  · rw [exec_glbPartCfgWrite]; exact hbar _
  · rw [exec_memSpreadWrite]; exact hbar _
  · rw [exec_memHdmCtlWrite]; exact hbar _
  · rw [exec_fabModuleIdWrite]; exact hbar _
  · rw [exec_fabCtlWrite]; exact hbar _
  · rw [exec_fabFrameCfgWrite]; exact hbar _
  · rw [exec_fabVcWeightHiWrite]; exact hbar _
  · rw [exec_glbEvlogSelWrite]; exact hbar _
  · rw [exec_fwUpdateGo]; exact hbar _
  · rw [exec_installModeWrite]; exact hbar _
  · rw [exec_registerWrite]; exact hbar _

/-! GLOBAL and MEMORY (R17, R335, R336, R533) -/

theorem writeBridge_outcome {x : Nat} (hx : x = v.toNat / 16 % 16) : ((x = 0 ∨ 8 < x) → s.writeBridge v = s)
    ∧ (1 ≤ x → x ≤ 8 → s.jobHeld = true → s.writeBridge v = { s with glb := { s.glb with bridgeHeld := some v } })
    ∧ (1 ≤ x → x ≤ 8 → s.jobHeld = false → s.writeBridge v = { s with glb := { s.glb with svcShare := BitVec.ofNat 4 x } }) := by
  have hbits : bits v 7 4 = x := (bits_eq v 7 4).trans hx.symm
  unfold State.writeBridge State.setBridge
  rw [hbits]
  refine ⟨fun hres => if_pos hres, fun h1 h8 hj => ?_, fun h1 h8 hj => ?_⟩
  · rw [if_neg (by omega), if_pos hj]
  · rw [if_neg (by omega), if_neg (by rw [hj]; exact Bool.false_ne_true)]
    exact if_pos ⟨h1, h8⟩

theorem writeHdm_outcome {base size : Nat} (hb : base = v.toNat / 2 ^ 16 % 2 ^ 12) (hs : size = v.toNat % 2 ^ 12) : ((2047 < base ∨ 2048 < base + size) → s.writeHdm v = s)
    ∧ (base ≤ 2047 → base + size ≤ 2048 → s.jobHeld = true → s.writeHdm v = { s with mem := { s.mem with hdmHeld := some v } })
    ∧ (base ≤ 2047 → base + size ≤ 2048 → s.jobHeld = false → s.writeHdm v = { s with mem := { s.mem with hdmBase := BitVec.ofNat 12 base, hdmSize := BitVec.ofNat 12 size } }) := by
  have hbase : bits v 27 16 = base := (bits_eq v 27 16).trans hb.symm
  have hsize : bits v 11 0 = size := by rw [bits_eq, hs, Nat.pow_zero, Nat.div_one]
  unfold State.writeHdm State.setHdm hdmOk
  rw [hbase, hsize]
  refine ⟨fun hout => if_pos ?_, fun h1 h2 hj => ?_, fun h1 h2 hj => ?_⟩
  · simp only [Bool.not_eq_true', Bool.and_eq_false_iff, decide_eq_false_iff_not]
    omega
  · rw [decide_eq_true h1, decide_eq_true h2, if_neg (by decide), if_pos hj]
  · rw [decide_eq_true h1, decide_eq_true h2, if_neg (by decide), if_neg (by rw [hj]; exact Bool.false_ne_true)]
    rfl

theorem getLsbD_sum_ite (b : Fin 8 → Bool) (p : Fin 8) : (BitVec.ofNat 8 ((List.finRange 8).map fun h => if b h then 2 ^ h.val else 0).sum).getLsbD p.val = b p := by
  revert b p
  decide +kernel

theorem writeSpread_outcome (s : State) (v : W32) : { s.writeSpread v with mem := s.mem } = s ∧ { (s.writeSpread v).mem with spread := s.mem.spread } = s.mem
    ∧ ∀ p : Fin 8, (s.writeSpread v).mem.spread.getLsbD p.val = if s.parts[p].mode = .none ∨ s.parts[p].mode = .stopped then v.getLsbD p.val else s.mem.spread.getLsbD p.val := by
  refine ⟨rfl, rfl, fun p => ?_⟩
  refine (getLsbD_sum_ite (fun h => if decide (s.parts[h].mode = .none) || decide (s.parts[h].mode = .stopped) then v.getLsbD h.val else s.mem.spread.getLsbD h.val) p).trans ?_
  simp only [Bool.or_eq_true, decide_eq_true_eq]

/-! GLB_PART_CFG (R390, R404, R478) -/

theorem hostWrite_cores (a : Nat) (bs : List Byte) : (s.hostWrite a bs).cores = s.cores := by
  unfold State.hostWrite
  split
  · rfl
  · rfl

theorem deliver_cores (j : Job) (bs plog : List Byte) : (s.deliver j bs plog).cores = s.cores := by
  have hsent : ∀ (u : State) (b : Bool) (a : Nat) (bs : List Byte), (if b || !(u.hostWrite a bs).hostUp then u.hostWrite a bs else (u.hostWrite a bs).serviceDone false a bs).cores = u.cores := fun u b a bs => by
    split
    · exact hostWrite_cores a bs
    · exact (congrArg State.cores (serviceDone_rest false a bs) :).trans (hostWrite_cores a bs)
  unfold State.deliver
  cases j.sign with
  | true => exact hsent s.draw.2 j.secure j.resultAddr.toNat _
  | false => exact hsent s j.secure j.resultAddr.toNat _

/-- From `s` to `t` the cores stand and the partitions keep their states. -/
def PartsWait (s t : State) : Prop := t.cores = s.cores ∧ ∀ p : Fin 8, t.parts[p].mode = s.parts[p].mode

theorem PartsWait.trans {t : State} (h : PartsWait s u) (k : PartsWait u t) : PartsWait s t := ⟨k.1.trans h.1, fun p => (k.2 p).trans (h.2 p)⟩

theorem endQueued_waits (j : Job) (st : Status) : PartsWait s (s.endQueued j st) := by
  obtain ⟨bs, ev, le, hend, -⟩ := endQueued_form s j st 0
  obtain ⟨w, hw⟩ : ∃ w, w = s.modPart j.part fun p => { p with lc := p.lc.filter (·.id ≠ j.id), be := p.be.filter (·.id ≠ j.id) } := ⟨_, rfl⟩
  rw [← hw] at hend
  have hcores : w.cores = s.cores := by rw [hw]; rfl
  have hmode : ∀ p : Fin 8, w.parts[p].mode = s.parts[p].mode := fun p => by
    rw [hw]
    exact modPart_field (v := Part.mode) _ (by exact fun _ => rfl) p
  rw [hend]
  refine ⟨(pushEvent_rest j.ctx le).2.trans ((deliver_cores j bs []).trans hcores), fun p => ?_⟩
  have hparts := pushEvent_parts (s := w.deliver j bs) j.ctx le
  exact (congrArg (fun v : Vector Part 8 => v[p].mode) hparts).trans ((deliver_parts_field (v := Part.mode) (fun _ _ => rfl) j bs [] p).trans (hmode p))

theorem foldl_waits {α : Type} {f : State → α → State} (hf : ∀ u x, PartsWait u (f u x)) (xs : List α) (s : State) : PartsWait s (xs.foldl f s) :=
  List.foldlRecOn (motive := fun u => PartsWait s u) _ _ ⟨rfl, fun _ => rfl⟩ fun u hu x _ => hu.trans (hf u x)

theorem endWaiting_waits (s : State) (gone : List (Fin 8)) : PartsWait s (s.endWaiting gone) :=
  foldl_waits (fun _ _ => foldl_waits (fun _ j => endQueued_waits j _) _ _) gone s

theorem zeroGone_waits (s : State) (gone : List (Fin 8)) : PartsWait s (s.zeroGone gone) :=
  foldl_waits (fun u p => by
    split
    · exact ⟨rfl, fun _ => rfl⟩
    · exact ⟨rfl, fun _ => rfl⟩) gone s

theorem mem_changedParts {start : Nat} : p ∈ s.changedParts start ↔ s.parts[p].mode ≠ .none ∧ startSize start p.val ≠ s.partSize p := by
  simp [State.changedParts, List.mem_finRange]

theorem under_mode (y : Part) (begins changes : Bool) : (y.under begins changes).mode = if begins then (if y.mode = .none ∨ changes = true then .stopped else y.mode) else .none := by
  unfold Part.under
  cases begins with
  | false => rfl
  | true =>
    rw [if_neg (by decide), if_pos rfl]
    split
    · rfl
    · rfl

theorem setLayout_lays (s : State) (start : Nat) : (s.setLayout start).cores = s.cores
    ∧ ∀ p : Fin 8, (s.setLayout start).parts[p].mode = if start.testBit p.val then (if s.parts[p].mode = .none ∨ p ∈ s.changedParts start then .stopped else s.parts[p].mode) else .none := by
  have hwait := (endWaiting_waits s (s.changedParts start)).trans (zeroGone_waits _ (s.changedParts start))
  obtain ⟨w, hw⟩ : ∃ w, w = (s.endWaiting (s.changedParts start)).zeroGone (s.changedParts start) := ⟨_, rfl⟩
  rw [← hw] at hwait
  obtain ⟨hcores, hmode⟩ := hwait
  have hlc : (s.setLayout start).cores = w.cores := by rw [hw]; rfl
  have hlp : (s.setLayout start).parts = Vector.ofFn fun p : Fin 8 => w.parts[p].under (start.testBit p.val) ((s.changedParts start).contains p) := by rw [hw]; rfl
  refine ⟨hlc.trans hcores, fun p => ?_⟩
  have hp : (s.setLayout start).parts[p] = w.parts[p].under (start.testBit p.val) ((s.changedParts start).contains p) := by
    rw [hlp]
    simp
  rw [hp, under_mode, hmode]
  simp only [List.contains_iff_mem]

theorem writePartCfg_outcome {start : Nat} (hstart : start = 1 + 2 * (v.toNat / 2 % 128)) (hu : u = { s with glb := { s.glb with reject := s.glb.reject && !v.getLsbD 31 } }) :
    (startOk start = false → s.writePartCfg v = u) ∧ (startOk start = true → s.layoutOk start = false → s.writePartCfg v = { s with glb := { s.glb with reject := true } })
        ∧ (startOk start = true → s.layoutOk start = true → (s.writePartCfg v).cores = s.cores ∧ ∀ p : Fin 8, (start.testBit p.val = false → (s.writePartCfg v).parts[p].mode = .none)
          ∧ (start.testBit p.val = true → s.parts[p].mode ≠ .none → startSize start p.val = s.partSize p → (s.writePartCfg v).parts[p].mode = s.parts[p].mode)
          ∧ (start.testBit p.val = true → (s.parts[p].mode = .none ∨ startSize start p.val ≠ s.partSize p) → (s.writePartCfg v).parts[p].mode = .stopped)) := by
  have hbits : 1 + 2 * bits v 7 1 = start := by simp [hstart, bits_eq]
  have hform : s.writePartCfg v = if !startOk start then u else if u.layoutOk start then u.setLayout start else { u with glb := { u.glb with reject := true } } := by
    rw [hu, ← hbits]
    rfl
  have hparts : u.parts = s.parts := by rw [hu]
  have hcores : u.cores = s.cores := by rw [hu]
  have hreject : ({ u with glb := { u.glb with reject := true } } : State) = { s with glb := { s.glb with reject := true } } := by rw [hu]
  have hlayout : u.layoutOk start = s.layoutOk start := by rw [hu]; rfl
  have hsize : ∀ p, u.partSize p = s.partSize p := fun p => by rw [hu]; rfl
  rw [hlayout] at hform
  refine ⟨fun h0 => ?_, fun h1 h2 => ?_, fun h1 h2 => ?_⟩
  · rw [hform, h0]
    rfl
  · rw [hform, h1, h2, ← hreject]
    rfl
  · have hset : s.writePartCfg v = u.setLayout start := by
      rw [hform, h1, h2]
      rfl
    obtain ⟨hlc, hlp⟩ := setLayout_lays u start
    rw [hset]
    refine ⟨hlc.trans hcores, fun p => ⟨fun hbit => ?_, fun hbit hm hsz => ?_, fun hbit hor => ?_⟩⟩
    · rw [hlp p, if_neg (by rw [hbit]; exact Bool.false_ne_true)]
    · rw [hlp p, if_pos hbit, hparts, if_neg]
      exact fun hor => hor.elim hm fun hmem => (mem_changedParts.1 hmem).2 (by rw [hsize]; exact hsz)
    · rw [hlp p, if_pos hbit, if_pos]
      by_cases hm : s.parts[p].mode = .none
      · exact .inl (by rw [hparts]; exact hm)
      · exact .inr (mem_changedParts.2 ⟨by rw [hparts]; exact hm, by rw [hsize]; exact hor.resolve_left hm⟩)

end Sys2Proof.Machine
end

section

/-! PROOFS. Register writes of the fabric, the event log and the hearths; firmware updates; installation mode. -/

namespace Sys2Proof.Machine

variable {s u : State} {v : W32} {p h : Fin 8}

/-! FABRIC (R374 to R378) -/

theorem toNat_ite_ofNat {w n : Nat} {c : Prop} [Decidable c] {old : BitVec w} (hn : n < 2 ^ w) : (if c then BitVec.ofNat w n else old).toNat = if c then n else old.toNat := by
  split
  · rw [BitVec.toNat_ofNat, Nat.mod_eq_of_lt hn]
  · rfl

theorem toNat_ite_old {w n : Nat} {c : Prop} [Decidable c] {old : BitVec w} (hn : n < 2 ^ w) : (if c then old else BitVec.ofNat w n).toNat = if c then old.toNat else n := by
  split
  · rfl
  · rw [BitVec.toNat_ofNat, Nat.mod_eq_of_lt hn]

theorem setModuleId_eq (s : State) (v : W32) : s.setModuleId v = s.modFab fun x => { x with moduleId := v.setWidth 16 } := rfl

/-- The fabric as a write of FAB_CTL that takes effect leaves it. -/
def Fabric.ctlSet (x : Fabric) (v : W32) : Fabric :=
  { x with
    stripe := if bits v 15 8 = 0 then x.stripe else BitVec.ofNat 8 (bits v 15 8)
    protoMax := if bits v 5 4 = 1 ∨ bits v 5 4 = 2 then BitVec.ofNat 2 (bits v 5 4) else x.protoMax
    modes := if bits v 2 0 = 0 then x.modes else BitVec.ofNat 3 (bits v 2 0) }

theorem ctlSet_fields (x : Fabric) (v : W32) : x.ctlSet v = { x with stripe := (x.ctlSet v).stripe, protoMax := (x.ctlSet v).protoMax, modes := (x.ctlSet v).modes }
    ∧ (x.ctlSet v).stripe.toNat = (if v.toNat / 256 % 256 = 0 then x.stripe.toNat else v.toNat / 256 % 256) ∧ (x.ctlSet v).modes.toNat = (if v.toNat % 8 = 0 then x.modes.toNat else v.toNat % 8)
    ∧ (x.ctlSet v).protoMax.toNat = (if v.toNat / 16 % 4 = 1 ∨ v.toNat / 16 % 4 = 2 then v.toNat / 16 % 4 else x.protoMax.toNat) := by
  have hstripe : bits v 15 8 = v.toNat / 256 % 256 := bits_eq v 15 8
  have hproto : bits v 5 4 = v.toNat / 16 % 4 := bits_eq v 5 4
  have hmodes : bits v 2 0 = v.toNat % 8 := by simp [bits_eq]
  unfold Fabric.ctlSet
  rw [hstripe, hproto, hmodes]
  exact ⟨rfl, toNat_ite_old (Nat.mod_lt _ (by decide)), toNat_ite_old (Nat.mod_lt _ (by decide)), toNat_ite_ofNat (Nat.mod_lt _ (by decide))⟩

theorem writeFabCtl_free (hj : s.jobHeld = false) (v : W32) : s.writeFabCtl v = s.modFab fun x => x.ctlSet v := if_neg (by rw [hj]; exact Bool.false_ne_true)

theorem writeFrameCfg_up (h : ∃ p ∈ s.fab.pairs, p.up = true) : s.writeFrameCfg v = s := if_pos (List.any_eq_true.2 h)

/-- The fabric as a write of FAB_FRAME_CFG that takes effect leaves it. -/
def Fabric.frameSet (x : Fabric) (v : W32) : Fabric :=
  { x with macPrefix := fieldOr (!v.getLsbD 24 && v.getLsbD 25) (bits v 31 16) x.macPrefix, etherType := fieldOr (decide (0x0600 ≤ bits v 15 0)) (bits v 15 0) x.etherType }

theorem writeFrameCfg_down (h : ∀ p ∈ s.fab.pairs, p.up = false) : s.writeFrameCfg v = s.modFab fun x => x.frameSet v :=
  if_neg fun hany => by
    obtain ⟨p, hp, hup⟩ := List.any_eq_true.1 hany
    rw [h p hp] at hup
    exact Bool.false_ne_true hup

theorem frameSet_fields (x : Fabric) (v : W32) : (x.frameSet v).etherType.toNat = (if 0x0600 ≤ v.toNat % 2 ^ 16 then v.toNat % 2 ^ 16 else x.etherType.toNat)
    ∧ (x.frameSet v).macPrefix = (if v.getLsbD 24 = false ∧ v.getLsbD 25 = true then (v >>> 16).setWidth 16 else x.macPrefix) := by
  have hether : bits v 15 0 = v.toNat % 2 ^ 16 := by simp [bits_eq]
  have hmac : BitVec.ofNat 16 (bits v 31 16) = (v >>> 16).setWidth 16 := BitVec.eq_of_toNat_eq (by simp [bits])
  constructor
  · refine (toNat_ite_ofNat (by rw [hether]; exact Nat.mod_lt _ (by decide))).trans ?_
    rw [hether]
    simp only [decide_eq_true_eq]
  · have hform : (x.frameSet v).macPrefix = if (!v.getLsbD 24 && v.getLsbD 25) = true then BitVec.ofNat 16 (bits v 31 16) else x.macPrefix := rfl
    rw [hform, hmac]
    simp only [Bool.and_eq_true, Bool.not_eq_true']

/-! FAB_VC_WEIGHT_HI (R378) -/

theorem weightAt_lt (v : W32) (lo : Nat) : weightAt v lo < 128 := by
  rw [weightAt, bits_eq, show lo + 6 + 1 - lo = 7 by omega]
  exact Nat.mod_lt _ (by decide)

/-- The weights that a value of FAB_VC_WEIGHT_HI gives with the other register's. -/
def Fabric.weights (x : Fabric) (v : W32) : List Nat := [0, 8, 16, 24].map (weightAt x.vcLo) ++ [0, 8, 16, 24].map (weightAt (writeWeights x.vcHi v))

/-- The fabric as a write of FAB_VC_WEIGHT_HI leaves it. -/
def Fabric.hiSet (x : Fabric) (v : W32) : Fabric :=
  let ok := decide ((x.weights v).sum = 64) && decide (1 ≤ (x.weights v).getD 0 0)
  { x with vcHi := writeWeights x.vcHi v, vcBad := !ok, vcSet := if ok then Vector.ofFn fun i : Fin 8 => BitVec.ofNat 7 ((x.weights v).getD i.val 0) else x.vcSet }

theorem writeVcHi_eq (s : State) (v : W32) : s.writeVcHi v = s.modFab fun _ => s.fab.hiSet v := rfl

theorem getD_weights_lt (x : Fabric) (v : W32) (i : Fin 8) : (x.weights v).getD i.val 0 < 128 := by
  have hall : ∀ n ∈ x.weights v, n < 128 := fun n hn => by
    rcases List.mem_append.1 hn with hn | hn
    · obtain ⟨lo, -, rfl⟩ := List.mem_map.1 hn
      exact weightAt_lt _ lo
    · obtain ⟨lo, -, rfl⟩ := List.mem_map.1 hn
      exact weightAt_lt _ lo
  rw [List.getD_eq_getElem?_getD]
  cases hi : (x.weights v)[i.val]? with
  | none => exact Nat.zero_lt_succ _
  | some n => exact hall n (List.mem_of_getElem? hi)

theorem hiSet_good (x : Fabric) (v : W32) (hsum : (x.weights v).sum = 64) (hfirst : 1 ≤ (x.weights v).headD 0) : (x.hiSet v).vcBad = false ∧ ∀ i : Fin 8, ((x.hiSet v).vcSet[i]).toNat = (x.weights v).getD i.val 0 := by
  have hok : (decide ((x.weights v).sum = 64) && decide (1 ≤ (x.weights v).getD 0 0)) = true := by
    rw [decide_eq_true hsum]
    exact decide_eq_true hfirst
  have hset : (x.hiSet v).vcSet = Vector.ofFn fun i : Fin 8 => BitVec.ofNat 7 ((x.weights v).getD i.val 0) := if_pos hok
  refine ⟨congrArg (fun b => !b) hok, fun i => ?_⟩
  rw [hset, Fin.getElem_fin, Vector.getElem_ofFn, BitVec.toNat_ofNat, Nat.mod_eq_of_lt (getD_weights_lt x v i)]

theorem hiSet_bad (x : Fabric) (v : W32) (h : (x.weights v).sum ≠ 64 ∨ (x.weights v).headD 0 = 0) : (x.hiSet v).vcBad = true ∧ (x.hiSet v).vcSet = x.vcSet := by
  have hok : (decide ((x.weights v).sum = 64) && decide (1 ≤ (x.weights v).getD 0 0)) = false := by
    rcases h with hsum | hfirst
    · rw [decide_eq_false hsum, Bool.false_and]
    · have hnot : ¬ 1 ≤ (x.weights v).getD 0 0 := by
        show ¬ 1 ≤ (x.weights v).headD 0
        rw [hfirst]
        decide
      rw [decide_eq_false hnot, Bool.and_false]
  exact ⟨congrArg (fun b => !b) hok, if_neg (by rw [hok]; exact Bool.false_ne_true)⟩

/-! The event log (R546) -/

theorem selectEvent_rest (s : State) (v : W32) : { s.selectEvent v with glb := s.glb } = s ∧ (s.selectEvent v).glb.evSel = v ∧ (s.selectEvent v).glb.evlog = s.glb.evlog := by
  unfold State.selectEvent
  split
  · exact ⟨rfl, rfl, rfl⟩
  · exact ⟨rfl, rfl, rfl⟩

theorem evShown_past (h : s.glb.evAt ≠ s.now) : s.evShown = s.glb.evlog := by
  rw [State.evShown, State.evNow, if_neg h, Nat.sub_zero, List.take_length]

theorem selectEvent_hit {x : BitVec 256} (hx : s.evShown.find? (fun (y : BitVec 256) => decide ((y >>> 64).setWidth 32 = v)) = some x) : (s.selectEvent v).glb.evData = x ∧ (s.selectEvent v).glb.evMiss = false := by
  unfold State.selectEvent
  rw [hx]
  exact ⟨rfl, rfl⟩

theorem selectEvent_miss (h : ∀ y ∈ s.evShown, (y >>> 64).setWidth 32 ≠ v) : (s.selectEvent v).glb.evData = 0 ∧ (s.selectEvent v).glb.evMiss = true := by
  have hx : s.evShown.find? (fun (y : BitVec 256) => decide ((y >>> 64).setWidth 32 = v)) = none := List.find?_eq_none.2 fun y hy => by
    rw [decide_eq_true_eq]
    exact h y hy
  unfold State.selectEvent
  rw [hx]
  exact ⟨rfl, rfl⟩

/-! HEARTH (R115, R116) -/

theorem registerWrite_hearth {x : Nat} (hx : x < 0x100000) (h4 : x % 4 = 0) (hd : s.larcy.d3hot = false) (h : Fin 8) (v : W32) :
    exec (.registerWrite (0x100000 * (h.val + 1) + x) 4 (v.setWidth 64)) s = .next (s.writeHearth h x v) := by
  have hb : (0x100000 * (h.val + 1) + x) / 0x100000 = h.val + 1 := by omega
  have hoff : (0x100000 * (h.val + 1) + x) % 0x100000 = x := by omega
  have halign : (0x100000 * (h.val + 1) + x) % 4 = 0 := by omega
  have hv : (v.setWidth 64).setWidth 32 = v := BitVec.eq_of_toNat_eq (by simp)
  have hh : (⟨(h.val + 1 - 1) % 8, by omega⟩ : Fin 8) = h := Fin.ext (by simp [Nat.mod_eq_of_lt h.isLt])
  have hreg : s.writeReg (0x100000 * (h.val + 1) + x) v = s.writeHearth h x v := by
    unfold State.writeReg
    simp only [hb, hoff, hh]
    rw [if_neg (Nat.succ_ne_zero _), if_pos (by omega)]
  rw [exec_registerWrite, execRegisterWrite, barWrite_acts hd, if_pos ⟨rfl, halign⟩, hv, hreg]

theorem writeHearth_wait (hp : s.glb.hrtPresent.getLsbD h.val = true) : s.writeHearth h 0x100 v = s.modHearth h fun y => { y with waitLimit := if v = 0 then y.waitLimit else v } := by
  unfold State.writeHearth
  rw [hp]
  rfl

theorem writeHearth_wctr (hp : s.glb.hrtPresent.getLsbD h.val = true) (n : Fin 64) {r : Nat} (hr : r < 0x20) : s.writeHearth h (0x10000 + 0x20 * n.val + r) v = s.writeWctr h n r v := by
  have hval : (0x10000 + 0x20 * n.val + r - 0x10000) / 0x20 % 64 = n.val := by omega
  have hn : (⟨(0x10000 + 0x20 * n.val + r - 0x10000) / 0x20 % 64, by omega⟩ : Fin 64) = n := Fin.ext hval
  have hmod : (0x10000 + 0x20 * n.val + r) % 0x20 = r := by omega
  unfold State.writeHearth
  rw [hp, if_neg (by decide), if_pos (by omega), hn, hmod]

/-! Firmware updates and installation mode (R469, R471, R481) -/

theorem writeFwCtl_idle (h : v.getLsbD 0 = false ∨ s.sec.fwBusy = true) : s.writeFwCtl v = s := by
  refine if_neg fun hgo => ?_
  obtain ⟨hgo, hbusy⟩ := Bool.and_eq_true_iff.1 hgo
  rcases h with h | h
  · rw [h] at hgo
    exact Bool.false_ne_true hgo
  · rw [h] at hbusy
    exact Bool.false_ne_true hbusy

theorem partsStopped_iff : (s.parts.toList.all fun p => decide (p.mode = .none) || decide (p.mode = .stopped)) = true ↔ ∀ p : Fin 8, s.parts[p].mode = .none ∨ s.parts[p].mode = .stopped := by
  simp only [List.all_eq_true, Bool.or_eq_true, decide_eq_true_eq, Vector.mem_toList_iff, Vector.mem_iff_getElem, forall_exists_index, Fin.getElem_fin]
  exact ⟨fun h p => h _ p.val p.isLt rfl, fun h x i hi hx => hx ▸ h ⟨i, hi⟩⟩

theorem writeInstallCtl_rises (hv : v.getLsbD 0 = true) (h : ∀ p : Fin 8, s.parts[p].mode = .none ∨ s.parts[p].mode = .stopped) : s.writeInstallCtl v = { s with sec := { s.sec with instMode := true } } := by
  rw [State.writeInstallCtl, if_pos hv]
  exact if_pos (partsStopped_iff.2 h)

theorem writeInstallCtl_barred (hv : v.getLsbD 0 = true) (h : ∃ p : Fin 8, s.parts[p].mode ≠ .none ∧ s.parts[p].mode ≠ .stopped) : s.writeInstallCtl v = s := by
  rw [State.writeInstallCtl, if_pos hv]
  refine if_neg fun hall => ?_
  obtain ⟨p, hnone, hstopped⟩ := h
  exact (partsStopped_iff.1 hall p).elim hnone hstopped

theorem writeInstallCtl_falls (hv : v.getLsbD 0 = false) : s.writeInstallCtl v = if s.sec.instActive then s else { s with sec := { s.sec with instMode := false } } :=
  if_neg (by rw [hv]; exact Bool.false_ne_true)

theorem updateEnd_sec (s : State) (st : Status) : (s.updateEnd st).sec = { s.sec with fwResult := st, fwBusy := false } := (updateEnd_ends s st).2

theorem storeFw_slots (s : State) (f : FwImage) : (s.storeFw f).fwSlot (!s.sec.preferB) = some f ∧ (s.storeFw f).fwSlot s.sec.preferB = s.fwSlot s.sec.preferB := by
  unfold State.storeFw State.fwSlot
  cases s.sec.preferB with
  | false => exact ⟨rfl, rfl⟩
  | true => exact ⟨rfl, rfl⟩

theorem fwUpdateDone_fails (hb : s.sec.fwBusy = true) : exec (.fwUpdateDone false) s = .next (s.updateEnd stTier) := by
  rw [exec_fwUpdateDone, execFwUpdateDone, hb]
  rfl

/-- An update whose image was read ends with the image's status. -/
theorem fwUpdateDone_reads (hb : s.sec.fwBusy = true) (hup : s.hostUp = true) {img : Option FwImage} (himg : img = parseFw (readBytes s.mem.host s.sec.fwFrom.toNat s.sec.fwSize.toNat)) :
    exec (.fwUpdateDone true) s = .next (img.elim (s.updateEnd stSignature) fun f => if s.fwStatus f = 0 then (s.storeFw f).updateEnd 0 else s.updateEnd (s.fwStatus f)) := by
  rw [exec_fwUpdateDone, execFwUpdateDone, hb, hup, ← himg]
  cases img with
  | none => rfl
  | some f => rfl

theorem fwUpdateDone_stores (hb : s.sec.fwBusy = true) (hup : s.hostUp = true) {f : FwImage} (himg : some f = parseFw (readBytes s.mem.host s.sec.fwFrom.toNat s.sec.fwSize.toNat)) (hst : s.fwStatus f = 0) :
    ∃ t, exec (.fwUpdateDone true) s = .next t ∧ t.sec.fwBusy = false ∧ t.sec.fwResult = 0 ∧ t.sec.preferB = !s.sec.preferB ∧ t.sec.counter = s.sec.counter
        ∧ t.sec.fwRunning = s.sec.fwRunning ∧ t.fwSlot (!s.sec.preferB) = some f ∧ t.fwSlot s.sec.preferB = s.fwSlot s.sec.preferB := by
  have hexec := fwUpdateDone_reads hb hup himg
  rw [Option.elim_some, if_pos hst] at hexec
  have hsec := updateEnd_sec (s.storeFw f) 0
  obtain ⟨hnew, hold⟩ := storeFw_slots s f
  have hslot : ∀ b, ((s.storeFw f).updateEnd 0).fwSlot b = (s.storeFw f).fwSlot b := fun b => by simp only [State.fwSlot, hsec]
  refine ⟨_, hexec, by rw [hsec], by rw [hsec], ?_, ?_, ?_, (hslot _).trans hnew, (hslot _).trans hold⟩
  · rw [hsec]
    rfl
  · rw [hsec]
    rfl
  · rw [hsec]
    rfl

/-! Each command through its register's rule -/

theorem hearthWrites_outcome (hd : s.larcy.d3hot = false) (v : BitVec 32) (h : Fin 8) (n : Fin 64) (hp : s.glb.hrtPresent.getLsbD h.val = true) :
    exec (.registerWrite (0x100000 * (h.val + 1) + 0x100) 4 (v.setWidth 64)) s = .next (s.modHearth h fun y => { y with waitLimit := if v = 0 then y.waitLimit else v })
        ∧ exec (.registerWrite (0x100000 * (h.val + 1) + 0x10000 + 0x20 * n.val) 4 (v.setWidth 64)) s = .next (s.modWctr h n fun w => { w with value := v })
        ∧ exec (.registerWrite (0x100000 * (h.val + 1) + 0x10004 + 0x20 * n.val) 4 (v.setWidth 64)) s = .next (s.modWctr h n fun w => { w with limit := v }) := by
  have hvalue : 0x100000 * (h.val + 1) + 0x10000 + 0x20 * n.val = 0x100000 * (h.val + 1) + (0x10000 + 0x20 * n.val + 0) := by omega
  have hlimit : 0x100000 * (h.val + 1) + 0x10004 + 0x20 * n.val = 0x100000 * (h.val + 1) + (0x10000 + 0x20 * n.val + 4) := by omega
  refine ⟨?_, ?_, ?_⟩
  · rw [registerWrite_hearth (by decide) (by decide) hd, writeHearth_wait hp]
  · rw [hvalue, registerWrite_hearth (by omega) (by omega) hd, writeHearth_wctr hp n (by decide)]
    exact congrArg _ (if_pos rfl)
  · rw [hlimit, registerWrite_hearth (by omega) (by omega) hd, writeHearth_wctr hp n (by decide)]
    exact congrArg _ ((if_neg (by decide)).trans (if_pos rfl))

theorem registerWrite_ignores {off size : Nat} (hbad : size ≠ 4 ∨ off % 4 ≠ 0) (hd : s.larcy.d3hot = false) (x : BitVec 64) : exec (.registerWrite off size x) s = .next s := by
  rw [exec_registerWrite, execRegisterWrite, barWrite_acts hd, if_neg (fun hok => hbad.elim (fun h => h hok.1) fun h => h hok.2)]

theorem fabCtlWrite_outcome (hd : s.larcy.d3hot = false) (hj : s.jobHeld = false) (v : BitVec 32) : ∃ t, exec (.fabCtlWrite v) s = .next t ∧ t = s.modFab (fun _ => t.fab)
        ∧ t.fab = { s.fab with stripe := t.fab.stripe, protoMax := t.fab.protoMax, modes := t.fab.modes } ∧ t.fab.stripe.toNat = (if v.toNat / 256 % 256 = 0 then s.fab.stripe.toNat else v.toNat / 256 % 256)
        ∧ t.fab.modes.toNat = (if v.toNat % 8 = 0 then s.fab.modes.toNat else v.toNat % 8) ∧ t.fab.protoMax.toNat = (if v.toNat / 16 % 4 = 1 ∨ v.toNat / 16 % 4 = 2 then v.toNat / 16 % 4 else s.fab.protoMax.toNat) := by
  refine ⟨s.modFab fun x => x.ctlSet v, ?_, rfl, ctlSet_fields s.fab v⟩
  rw [exec_fabCtlWrite, execFabCtlWrite, barWrite_acts hd, writeFabCtl_free hj]

theorem fabFrameCfgWrite_outcome (hd : s.larcy.d3hot = false) (hp : ∀ p ∈ s.fab.pairs, p.up = false) (v : BitVec 32) : ∃ t, exec (.fabFrameCfgWrite v) s = .next t ∧ t = s.modFab (fun _ => t.fab) ∧ t.fab = { s.fab with macPrefix := t.fab.macPrefix, etherType := t.fab.etherType }
        ∧ t.fab.etherType.toNat = (if 0x0600 ≤ v.toNat % 2 ^ 16 then v.toNat % 2 ^ 16 else s.fab.etherType.toNat) ∧ t.fab.macPrefix = (if v.getLsbD 24 = false ∧ v.getLsbD 25 = true then (v >>> 16).setWidth 16 else s.fab.macPrefix) := by
  refine ⟨s.modFab fun x => x.frameSet v, ?_, rfl, rfl, frameSet_fields s.fab v⟩
  rw [exec_fabFrameCfgWrite, execFabFrameCfgWrite, barWrite_acts hd, writeFrameCfg_down hp]

theorem fabVcWeightHiWrite_outcome (hd : s.larcy.d3hot = false) (v : BitVec 32) : exec (.fabVcWeightHiWrite v) s = .next (s.modFab fun _ => s.fab.hiSet v) := by
  rw [exec_fabVcWeightHiWrite, execFabVcWeightHiWrite, barWrite_acts hd, writeVcHi_eq]

theorem installModeWrite_outcome (hd : s.larcy.d3hot = false) (v : BitVec 32) : exec (.installModeWrite v) s = .next (s.writeInstallCtl v) := by
  rw [exec_installModeWrite, execInstallModeWrite, barWrite_acts hd]

/-- Settles O58: each write through its register's rule, the hearths' through the dispatch of the map, and the end of a firmware update by its image's status. -/
theorem registerWritesAct : Obligations.RegisterWritesAct := by
  unfold Obligations.RegisterWritesAct
  intro s v
  refine ⟨fun hd => registerWrites_d3hot hd v, fun hd => ⟨fun x hx => ?_, fun start u hstart hu => ?_, ?_, fun base size hb hs => ?_, fun hj => ⟨?_, ?_⟩, fun hj => ⟨?_, fabCtlWrite_outcome hd hj v⟩, fun hup => ?_,
    fun hdown => fabFrameCfgWrite_outcome hd hdown v, fun ws hi hhi hws => ?_, ?_, fun off size x hbad => registerWrite_ignores hbad hd x, fun h n hp => hearthWrites_outcome hd v h n hp, fun hv hb => ?_, fun hidle => ?_,
    fun hv hall => ?_, fun hv hex => ?_, fun hv hact => ?_, fun hv hact => ?_⟩, fun hb img himg => ⟨⟨_, fwUpdateDone_fails hb, updateEnd_sec s _⟩, fun hup hnone => ?_, fun f hup hsome hst => ?_, fun f hup hsome hst => ?_⟩⟩
  · rw [exec_glbBridgeCtlWrite, execGlbBridgeCtlWrite, barWrite_acts hd]
    obtain ⟨hres, hheld, hset⟩ := writeBridge_outcome (s := s) hx
    exact ⟨fun h => congrArg _ (hres h), fun h1 h8 hj => congrArg _ (hheld h1 h8 hj), fun h1 h8 hj => congrArg _ (hset h1 h8 hj)⟩
  · rw [exec_glbPartCfgWrite, execGlbPartCfgWrite, barWrite_acts hd]
    obtain ⟨hbad, hrej, hlay⟩ := writePartCfg_outcome hstart hu
    exact ⟨fun h => congrArg _ (hbad h), fun h1 h2 => congrArg _ (hrej h1 h2), fun h1 h2 => ⟨_, rfl, hlay h1 h2⟩⟩
  · rw [exec_memSpreadWrite, execMemSpreadWrite, barWrite_acts hd]
    exact ⟨_, rfl, writeSpread_outcome s v⟩
  · rw [exec_memHdmCtlWrite, execMemHdmCtlWrite, barWrite_acts hd]
    obtain ⟨hout, hheld, hset⟩ := writeHdm_outcome (s := s) hb hs
    exact ⟨fun h => congrArg _ (hout h), fun h1 h2 hj => congrArg _ (hheld h1 h2 hj), fun h1 h2 hj => congrArg _ (hset h1 h2 hj)⟩
  · rw [exec_fabModuleIdWrite, execFabModuleIdWrite, barWrite_acts hd]
    exact congrArg _ (if_pos hj)
  · rw [exec_fabCtlWrite, execFabCtlWrite, barWrite_acts hd]
    exact congrArg _ (if_pos hj)
  · rw [exec_fabModuleIdWrite, execFabModuleIdWrite, barWrite_acts hd, State.writeModuleId, if_neg (by rw [hj]; exact Bool.false_ne_true), setModuleId_eq]
  · rw [exec_fabFrameCfgWrite, execFabFrameCfgWrite, barWrite_acts hd, writeFrameCfg_up hup]
  · have hw : ws = s.fab.weights v := by rw [hws, hhi, Fabric.weights]
    rw [hw]
    exact ⟨_, fabVcWeightHiWrite_outcome hd v, rfl, hhi.symm, hiSet_good s.fab v, hiSet_bad s.fab v⟩
  · rw [exec_glbEvlogSelWrite, execGlbEvlogSelWrite, barWrite_acts hd]
    obtain ⟨hrest, hsel, hlog⟩ := selectEvent_rest s v
    exact ⟨_, rfl, hrest, hsel, hlog, evShown_past, fun x hx => selectEvent_hit hx, selectEvent_miss⟩
  · rw [exec_fwUpdateGo, execFwUpdateGo, barWrite_acts hd]
    exact congrArg _ (if_pos (by rw [hv, hb]; rfl))
  · rw [exec_fwUpdateGo, execFwUpdateGo, barWrite_acts hd, writeFwCtl_idle hidle]
  · rw [installModeWrite_outcome hd, writeInstallCtl_rises hv hall]
  · rw [installModeWrite_outcome hd, writeInstallCtl_barred hv hex]
  · rw [installModeWrite_outcome hd, writeInstallCtl_falls hv, if_neg (by rw [hact]; exact Bool.false_ne_true)]
  · rw [installModeWrite_outcome hd, writeInstallCtl_falls hv, if_pos hact]
  · exact ⟨s.updateEnd stSignature, by rw [fwUpdateDone_reads hb hup himg, hnone, Option.elim_none], updateEnd_sec s _⟩
  · exact ⟨_, by rw [fwUpdateDone_reads hb hup himg, hsome, Option.elim_some, if_neg hst], updateEnd_sec s _⟩
  · exact fwUpdateDone_stores hb hup (hsome.symm.trans himg) hst

end Sys2Proof.Machine
end
